-- ==== Sys2Proof/Word.lean ====
section
/-! DEFINITION. Word types of the Heori (R8): register values, addresses and bytes. -/

namespace Sys2Proof

/-- A 64-bit lane or scalar value (R16). -/
abbrev Word := BitVec 64

/-- A lane mask of one group: bit l is lane l (R149 to R152). -/
abbrev Mask := BitVec 32

/-- A byte of memory. -/
abbrev Byte := BitVec 8

end Sys2Proof
end

