-- ==== Sys2Proof/Config.lean ====
section
/-! DEFINITION. Constants of the implementation, and the free values: opaque functions of a plain counter or of the data
they depend on, with no body, so that nothing can be proved of their values. -/

namespace Sys2Proof.Config

/-- Which of two permitted outcomes occurs at the n-th free choice (R14 "may", R141, R227, R266, R383). Log 8. -/
opaque pick : Nat → Bool

/-- Whether the trace unit's queue is full at the n-th record (R383). Its count is its own, so that tracing changes no other choice. Log 8. -/
opaque traceFull : Nat → Bool

/-- Which entry of a full set of a translation cache the n-th fill replaces (R227). Log 8. -/
opaque evict : Nat → Nat

/-- AES-256-XTS of a 32-byte unit under a context's key: key, tweak and plaintext to a byte of the ciphertext (R385, R386). Log 8. -/
opaque xts : Nat → Nat → List Byte → Nat → Byte

/-- The key firmware generates when the n-th context is sealed (R385). Log 8. -/
opaque freshKey : Nat → Nat

/-- Whether an image's ECDSA P-384 signature verifies, and whether its LMS signature does (R387). Log 8. -/
opaque ecdsaValid : List Byte → Bool
opaque lmsValid : List Byte → Bool

/-- SHA-384 of a list of bytes (R387). Log 8. -/
opaque sha384 : List Byte → List Byte

/-- The device identity that the on-die SRAM identity function gives with the seed in a configuration image (R387). Log 8. -/
opaque identity : List Byte → List Byte

/-- The ephemeral P-384 public key of the n-th report (R387). Log 8. -/
opaque ephemeral : Nat → List Byte

/-- A context's trace key wrapped to its owner's key (R385), and the content key that the n-th report's key unwraps (R387). Log 8. -/
opaque wrapKey : Nat → List Byte → List Byte
opaque unwrapKey : Nat → List Byte → BitVec 256

/-- The ECDSA P-384 and the LMS signature of the n-th report, by the identity and the report's contents (R387). Log 8. -/
opaque ecdsaSign : Nat → List Byte → List (List Byte) → List Byte
opaque lmsSign : Nat → List Byte → List (List Byte) → List Byte

/-- Bytes of the n-th dump by offset: the header, which holds the cause and the error log in a layout the manual does not give, and what
the dump holds of the cores (R391). Log 8. -/
opaque dumpHeader : Nat → Nat → List (Nat × Nat × Nat × Nat) → Nat → Byte
opaque dumpByte : Nat → Nat → Byte

/-- The private layout of a save record's header and array state: byte by offset of the n-th save (R364). Log 8. -/
opaque saveHeader : Nat → Nat → Byte

/-- The row number R370 reports for a register that has no resident vector row: file (0 vector in the backing area, 1 scalar,
2 predicate, 3 join, 4 PCV) and number. Log 8. -/
opaque physRow : Nat → Nat → Nat

/-- Entries of a replay log (R359). -/
def logEntries : Nat := 8

/-- Engine capacity in requests (R266). -/
def engineRequests : Nat := 16

/-- Running collectives of one device (R335). -/
def maxCollectives : Nat := 16

/-- Peg board entries (R86). -/
def pegEntries : Nat := 65536

end Sys2Proof.Config
end

