-- ==== Sys2Proof/Syntax.lean ====
section
/-! DEFINITION. The syntax of the machine: operand shapes of the instruction words (R124 to R130) and `Instr`, one
constructor per row of spec/opcode_table.json. The rows that are device events carry the identities and the choices of
placement and order that the manual leaves free (R85, R320). -/

namespace Sys2Proof

/-- Register file named by a kind bit (Table 6.3). -/
inductive RFile where | v | s
  deriving DecidableEq, Repr

/-- A register field: file, number, width code (R127). -/
structure Reg where
  file : RFile
  num  : BitVec 8
  wid  : BitVec 2
  deriving DecidableEq, Repr

/-- The second source of layout F: register C, IMM12, or the literal of the long form (R126, R129). -/
inductive Src where
  | reg (r : Reg)
  | imm (i : BitVec 12)
  | lit (l : BitVec 32)
  deriving DecidableEq, Repr

/-- Lookahead, predicate negation and predicate register (Table 6.4). -/
structure Ctl where
  la   : BitVec 4
  pn   : Bool
  pred : BitVec 3
  deriving DecidableEq, Repr

/-- Layout F, full or long. `rand` is the register of the random operand field, present only under RS (R129). -/
structure Full where
  d    : Reg
  b    : Reg
  c    : Src
  xm   : BitVec 3
  ty   : BitVec 5
  rnd  : BitVec 3
  rand : Option (BitVec 8)
  ctl  : Ctl
  deriving DecidableEq, Repr

/-- The immediate of layout FU: IMM20, or the literal of the long form. -/
inductive Disp where
  | imm20 (i : BitVec 20)
  | lit (l : BitVec 32)
  deriving DecidableEq, Repr

/-- Layout FU (Table 6.4). -/
structure FullU where
  d   : Reg
  b   : Reg
  imm : Disp
  ctl : Ctl
  deriving DecidableEq, Repr

/-- Short layout S3 (Table 6.2). -/
structure Short3 where
  k : RFile
  d : BitVec 7
  b : BitVec 7
  c : BitVec 7
  deriving DecidableEq, Repr

/-- Short layout SI (Table 6.2). -/
structure ShortI where
  k   : RFile
  d   : BitVec 7
  imm : BitVec 14
  deriving DecidableEq, Repr

/-- A peer link between two ranks: the key (a, b, p) of R339, and the port at rank b. -/
structure Edge where
  a  : Nat
  b  : Nat
  p  : Nat
  pb : Nat
  deriving DecidableEq, Repr

/-- A partial of a reduction: the ranks lo to hi of the canonical node it equals (R345), its codes and flags, and the elements that
carry a poison mark (R372). A result is one too: lo is then the rank whose block it is, for an all-gather. -/
structure Partial where
  lo    : Nat
  hi    : Nat
  codes : List Nat
  flags : BitVec 5
  bad   : List Nat
  deriving DecidableEq, Repr

/-- A Ronzia message about one chunk at an epoch, from a neighbour in the tree (R341 to R346): a partial moving toward the root, or a
result with its block scales moving outward. -/
inductive CollMsg where
  | up (epoch src : Nat) (p : Partial)
  | down (epoch src : Nat) (p : Partial) (scales : List Nat)
  deriving DecidableEq, Repr

/-- What one rank floods (R337, R339, R346): its parameters, its communicator entries, its live links, its marks, and with the marks of chunks it has
begun the chunk size they have (0 before that), which every rank shares (R343, log 16). -/
structure FloodMsg where
  rank    : Nat
  epoch   : Nat
  params  : List Nat
  entries : List Nat
  edges   : List Edge
  overlap : Bool
  wlen    : Nat
  marks   : List (Nat × Nat)
  cs      : Nat := 0
  deriving DecidableEq, Repr

/-- Which collective a Ronzia message is about: the k-th that a device gave to Whist under a COMMID (R337). -/
structure CollKey where
  comm : Nat
  k    : Nat
  deriving DecidableEq, Repr

/-- One party of a peer device (R306): the device's node index, and which of its parties. -/
structure PeerId where
  dev   : Nat
  party : Nat
  deriving DecidableEq, Repr

/-- A peer party's memory transaction (R392): a load of n bytes, a store, an atomic operation (Table 11.5: operation, type, RND, operand,
compare value, random value, and whether it has .REL and .ACQ), a gate request, a gate release. -/
inductive PeerOp where
  | load (n : Nat)
  | store (data : List (BitVec 8))
  | atomic (op ty rnd v cmp rho : Nat) (rel acq : Bool)
  | gacq (shared : Bool)
  | grel
  deriving DecidableEq, Repr

/-- A firmware or configuration image (R387, R394): its bytes, and the GDDR 7 capacity a configuration image gives. -/
structure Image where
  bytes    : List (BitVec 8)
  capacity : Nat
  deriving DecidableEq, Repr

/-- What a request for an attestation report brings (R385, R387): the nonce, the owner's key, and the context's loaded images. -/
structure ReportAsk where
  nonce  : Nat
  owner  : List (BitVec 8)
  images : List (BitVec 8)
  deriving DecidableEq, Repr

/-- One constructor per row of the opcode table. -/
inductive Instr where
  /-- IADD_SHORT (R182). 32-bit short form of IADD: adds two registers of one file element-wise modulo 2^w, with type i64 implied. -/
  | iaddShort (f : Short3)
  /-- IADD (R182). Full or long form of IADD: element-wise integer add, wrapping or saturating with .SAT. -/
  | iadd (f : Full)
  /-- ISUB_SHORT (R182). 32-bit short form of ISUB: subtracts element-wise modulo 2^w, with type i64 implied. -/
  | isubShort (f : Short3)
  /-- ISUB (R182). Full or long form of ISUB: element-wise integer subtract, wrapping or saturating. -/
  | isub (f : Full)
  /-- IMUL24 (R183). Multiplies 24-bit element operands, optionally keeping the high bits with .HI. -/
  | imul24 (f : Full)
  /-- IMUL32 (R183). Multiplies elements and keeps the low w bits of the product. -/
  | imul32 (f : Full)
  /-- IMULHI (R183). Multiplies elements and keeps the high w bits of the 2w-bit product. -/
  | imulhi (f : Full)
  /-- IMAD24 (R183). Adds the product of 24-bit element operands to the destination element. -/
  | imad24 (f : Full)
  /-- IDIV (R184). Integer quotient, or remainder with .REM, with defined results for a zero divisor and for overflow. -/
  | idiv (f : Full)
  /-- IMIN (R182). Writes the lesser element, signed or unsigned by type. -/
  | imin (f : Full)
  /-- IMAX (R182). Writes the greater element, signed or unsigned by type. -/
  | imax (f : Full)
  /-- LEA (R190). Writes base plus index shifted left by 0 to 7 bits, modulo 2^64. -/
  | lea (f : Full)
  /-- AND_SHORT (R182). 32-bit short form of AND: bitwise and of two registers. -/
  | andShort (f : Short3)
  /-- AND (R182). Full or long form of AND: bitwise and. -/
  | and (f : Full)
  /-- OR_SHORT (R182). 32-bit short form of OR: bitwise or of two registers. -/
  | orShort (f : Short3)
  /-- OR (R182). Full or long form of OR: bitwise or. -/
  | or (f : Full)
  /-- XOR_SHORT (R182). 32-bit short form of XOR: bitwise xor of two registers. -/
  | xorShort (f : Short3)
  /-- XOR (R182). Full or long form of XOR: bitwise xor. -/
  | xor (f : Full)
  /-- ANDN (R182). Writes b and not c, bitwise. -/
  | andn (f : Full)
  /-- SHL_SHORT (R182). 32-bit short form of SHL: shifts each element left. -/
  | shlShort (f : Short3)
  /-- SHL (R182). Full or long form of SHL: left shift, giving 0 when the count reaches w. -/
  | shl (f : Full)
  /-- SHR_SHORT (R182). 32-bit short form of SHR: logical right shift. -/
  | shrShort (f : Short3)
  /-- SHR (R182). Full or long form of SHR: logical right shift. -/
  | shr (f : Full)
  /-- SAR_SHORT (R182). 32-bit short form of SAR: arithmetic right shift. -/
  | sarShort (f : Short3)
  /-- SAR (R182). Full or long form of SAR: arithmetic right shift with the count clamped to w − 1. -/
  | sar (f : Full)
  /-- POPC (R185). Writes the number of set bits of each element. -/
  | popc (f : Full)
  /-- CLZ (R185). Writes the number of leading zero bits of each element. -/
  | clz (f : Full)
  /-- BFX (R185). Extracts a bit field given by a position and length control. -/
  | bfx (f : Full)
  /-- BFI (R185). Inserts the low bits of B into a field of the destination. -/
  | bfi (f : Full)
  /-- ICMP (R186). Compares element 0 of B and C and writes a predicate bit for each active lane. -/
  | icmp (f : Full)
  /-- ISEL (R187). Selects B or C in each lane by a predicate. -/
  | isel (f : Full)
  /-- MOV_SHORT (R188). 32-bit short form of MOV: copies one register. -/
  | movShort (f : Short3)
  /-- MOV (R188). Full form of MOV: copies a register run, or a vector lane value to a scalar. -/
  | mov (f : Full)
  /-- MOVI_SHORT (R188). 32-bit short form of MOVI: writes a sign-extended 14-bit immediate. -/
  | moviShort (f : ShortI)
  /-- MOVI (R188). Full or long form of MOVI: writes a sign-extended 12-bit or 32-bit immediate. -/
  | movi (f : Full)
  /-- IMMHI (R189). Writes sext(IMM20) · 2^12. -/
  | immhi (f : FullU)
  /-- ADDPC (R189). Writes its own address plus sext(IMM20) · 2^12. -/
  | addpc (f : FullU)
  /-- IDRD (R191). Reads an identifier selected from Table 7.4. -/
  | idrd (f : Full)
  /-- LMUL_SHORT (R192). 32-bit short form of LMUL: multiplies L32 values by adding their logs, rounding in RN. -/
  | lmulShort (f : Short3)
  /-- LMUL (R192). Full or long form of LMUL: multiplies logarithmic values. -/
  | lmul (f : Full)
  /-- LDIV (R192). Divides logarithmic values by subtracting their logs. -/
  | ldiv (f : Full)
  /-- LRCP (R192). Writes the logarithmic reciprocal. -/
  | lrcp (f : Full)
  /-- LSQRT (R192). Writes the logarithmic square root. -/
  | lsqrt (f : Full)
  /-- LRSQ (R192). Writes the logarithmic reciprocal square root. -/
  | lrsq (f : Full)
  /-- LADD_SHORT (R193). 32-bit short form of LADD: logarithmic addition by addlog in L32 and RN. -/
  | laddShort (f : Short3)
  /-- LADD (R193). Full or long form of LADD: logarithmic addition by addlog. -/
  | ladd (f : Full)
  /-- LSUB_SHORT (R193). 32-bit short form of LSUB: logarithmic subtraction in L32 and RN. -/
  | lsubShort (f : Short3)
  /-- LSUB (R193). Full or long form of LSUB: logarithmic subtraction. -/
  | lsub (f : Full)
  /-- LMAC_SHORT (R193). 32-bit short form of LMAC: adds the exact product to D with one rounding, in L32 and RN. -/
  | lmacShort (f : Short3)
  /-- LMAC (R193). Full or long form of LMAC: logarithmic multiply-accumulate with one rounding. -/
  | lmac (f : Full)
  /-- LNEG (R194). Flips the sign of a number and leaves zero and NaR unchanged. -/
  | lneg (f : Full)
  /-- LABS (R194). Clears the sign of a number. -/
  | labs (f : Full)
  /-- LMIN_SHORT (R194). 32-bit short form of LMIN: the lesser L32 value. -/
  | lminShort (f : Short3)
  /-- LMIN (R194). Full or long form of LMIN: the lesser logarithmic value. -/
  | lmin (f : Full)
  /-- LMAX_SHORT (R194). 32-bit short form of LMAX: the greater L32 value. -/
  | lmaxShort (f : Short3)
  /-- LMAX (R194). Full or long form of LMAX: the greater logarithmic value. -/
  | lmax (f : Full)
  /-- LCMP (R195). Compares logarithmic element 0 of B and C and writes a predicate. -/
  | lcmp (f : Full)
  /-- LSCALE (R196). Multiplies by a power of two given with f fraction bits. -/
  | lscale (f : Full)
  /-- LEXT (R197). Writes each element's log, or its floor, as an integer. -/
  | lext (f : Full)
  /-- LFROM (R198). Builds a logarithmic code from an integer log. -/
  | lfrom (f : Full)
  /-- LCVT (R200). Converts between an 8-bit logarithmic format and a wider one through a block scale. -/
  | lcvt (f : Full)
  /-- LDOT4 (R201). Accumulates two four-term logarithmic dot products into L32. -/
  | ldot4 (f : Full)
  /-- LRND (R199). Rounds each logarithmic element to fewer fraction bits. -/
  | lrnd (f : Full)
  /-- CVT (R203). Converts between any two types of Table 6.5. -/
  | cvt (f : Full)
  /-- FEXP2 (R212). Correctly rounded 2^x, with a fast path and a second phase. -/
  | fexp2 (f : Full)
  /-- FEXP (R212). Correctly rounded e^x. -/
  | fexp (f : Full)
  /-- FLOG2 (R212). Correctly rounded log2 x. -/
  | flog2 (f : Full)
  /-- FLN (R212). Correctly rounded ln x. -/
  | fln (f : Full)
  /-- FSINPI (R212). Correctly rounded sin(πx). -/
  | fsinpi (f : Full)
  /-- FCOSPI (R212). Correctly rounded cos(πx). -/
  | fcospi (f : Full)
  /-- FTANH (R212). Correctly rounded tanh x. -/
  | ftanh (f : Full)
  /-- FSIGM (R212). Correctly rounded logistic sigmoid. -/
  | fsigm (f : Full)
  /-- FERF (R212). Correctly rounded erf x. -/
  | ferf (f : Full)
  /-- FSOFTP (R212). Correctly rounded softplus ln(1 + e^x). -/
  | fsoftp (f : Full)
  /-- FEXP2_A (R213). Fast-path-only 2^x: the fast value rounded. -/
  | fexp2A (f : Full)
  /-- FEXP_A (R213). Fast-path-only e^x. -/
  | fexpA (f : Full)
  /-- FLOG2_A (R213). Fast-path-only log2 x. -/
  | flog2A (f : Full)
  /-- FLN_A (R213). Fast-path-only ln x. -/
  | flnA (f : Full)
  /-- FSINPI_A (R213). Fast-path-only sin(πx). -/
  | fsinpiA (f : Full)
  /-- FCOSPI_A (R213). Fast-path-only cos(πx). -/
  | fcospiA (f : Full)
  /-- FTANH_A (R213). Fast-path-only tanh x. -/
  | ftanhA (f : Full)
  /-- FSIGM_A (R213). Fast-path-only sigmoid. -/
  | fsigmA (f : Full)
  /-- FERF_A (R213). Fast-path-only erf x. -/
  | ferfA (f : Full)
  /-- FSOFTP_A (R213). Fast-path-only softplus. -/
  | fsoftpA (f : Full)
  /-- SHFL (R172). Moves elements across the group's lanes by select, rotate, shift or mirror. -/
  | shfl (f : Full)
  /-- QSWAP (R173). Exchanges values within each quad, horizontally, vertically or diagonally. -/
  | qswap (f : Full)
  /-- QBCAST (R173). Broadcasts one quad position's value to its quad. -/
  | qbcast (f : Full)
  /-- VOTE (R171). Counts the lanes whose predicate is true against a threshold and writes a predicate. -/
  | vote (f : Full)
  /-- BALLOT (R171). Writes the lane mask, count and lowest lane of the true predicates. -/
  | ballot (f : Full)
  /-- GRED (R174). Reduces each sub-element position across the group's lanes. -/
  | gred (f : Full)
  /-- BRA_SHORT (R164). 32-bit short form of BRA: branches by a 22-bit word offset. -/
  | braShort (imm : BitVec 22)
  /-- BRA (R164). Full or long form of BRA: an unconditional PC-relative branch. -/
  | bra (f : FullU)
  /-- BRC (R164). Branches in each lane whose condition register is nonzero. -/
  | brc (f : FullU)
  /-- CALL_SHORT (R164). 32-bit short form of CALL: branches and writes the link to S62. -/
  | callShort (imm : BitVec 22)
  /-- CALL (R164). Full or long form of CALL: a PC-relative call with a link register. -/
  | call (f : FullU)
  /-- CALLI (R165). Indirect call to a per-lane target. -/
  | calli (f : Full)
  /-- RET_SHORT (R165). 32-bit short form of RET: returns to the address in S62. -/
  | retShort
  /-- RET (R165). Full form of RET: jumps to the target in a register. -/
  | ret (f : Full)
  /-- JOIN (R166). Sets a join mask to active() or to a register value, then runs release. -/
  | join (f : Full)
  /-- WAIT (R167). Parks the active lanes at a join point, then runs release. -/
  | wait (f : Full)
  /-- EXIT_SHORT (R168). 32-bit short form of EXIT: the active lanes exit. -/
  | exitShort
  /-- EXIT (R168). Full form of EXIT: the active lanes exit, or become helper lanes with .H. -/
  | exit (f : Full)
  /-- TRAP (R169). Software trap with cause SWTRAP and a code. -/
  | trap (f : Full)
  /-- NOP_SHORT (R170). 32-bit short form of NOP. -/
  | nopShort
  /-- NOP (R170). Full form of NOP: advances the PC only. -/
  | nop (f : Full)
  /-- LD (R245). Loads from global memory, as a plain or an acquire load. -/
  | ld (f : Full)
  /-- ST (R245). Stores to global memory, as a plain or a release store. -/
  | st (f : Full)
  /-- LDS (R247). Scratchpad load, with optional full/empty wait or consume. -/
  | lds (f : Full)
  /-- STS (R247). Scratchpad store, optionally setting the full/empty bit with .F. -/
  | sts (f : Full)
  /-- LDC (R233). Load through the constant cache. -/
  | ldc (f : Full)
  /-- PREF (R249). Prefetches a line into L1, L2 or the Tarn. -/
  | pref (f : Full)
  /-- ATOM (R251). Atomic read-modify-write at the home L2, with a scope and an ordering. -/
  | atom (f : Full)
  /-- AACC_O (R255). Sends a group's 32-lane L32 contribution under one key to an ordered accumulator. -/
  | aaccO (f : Full)
  /-- MONITOR (R259). Arms the group's watch on a 128-byte line. -/
  | monitor (f : Full)
  /-- MWAIT (R260). Holds the group until a write to the watched line, a shootdown, a trap or a save. -/
  | mwait (f : Full)
  /-- CPYQ (R270). Validates a copy request and hands it to the core's copy engine. -/
  | cpyq (f : Full)
  /-- ABINIT (R271). Initialises an arrival barrier with a byte count. -/
  | abinit (f : Full)
  /-- ABWAIT (R272). Waits until an arrival barrier reaches a target phase, then acquires. -/
  | abwait (f : Full)
  /-- TCPY (R273). Copies 1 KiB rows between scratchpad and tile store. -/
  | tcpy (f : Full)
  /-- GACQ (R325). Takes a gate, exclusive or shared, and acquires its gated regions. -/
  | gacq (f : Full)
  /-- GREL (R325). Releases the gated regions and gives back the gate. -/
  | grel (f : Full)
  /-- FENCE (R327). Releases and then acquires the ambient region at a scope. -/
  | fence (f : Full)
  /-- BAR (R328). Team barrier: arrives, waits for the phase, then releases and acquires. -/
  | bar (f : Full)
  /-- CBAR (R328). Crew barrier across all groups of a crew. -/
  | cbar (f : Full)
  /-- PEGPUB (R330). Releases a tile's byte range and publishes its peg generation. -/
  | pegpub (f : Full)
  /-- TSPAWN (R331). Pushes a task record to a task queue of the context. -/
  | tspawn (f : Full)
  /-- JPOST (R332). Copies a job card into a posted submission queue. -/
  | jpost (f : Full)
  /-- COLL (R335). Validates a collective descriptor and hands it to Whist. -/
  | coll (f : Full)
  /-- COLLW (R336). Waits for a collective and acquires its result. -/
  | collw (f : Full)
  /-- MWLD (R298). Loads the shadow weight plane from the tile store or from memory. -/
  | mwld (f : Full)
  /-- MSWAP (R299). Exchanges the active and shadow weight planes. -/
  | mswap (f : Full)
  /-- MMA (R300). Streams rows through the array and accumulates the column trees into tile rows. -/
  | mma (f : Full)
  /-- MMAT (R300). Transposed matrix accumulate, with the array's rows and columns exchanging roles. -/
  | mmat (f : Full)
  /-- MDRAIN (R302). Converts accumulator rows out to memory or registers, optionally corner-turned or counted into a histogram. -/
  | mdrain (f : Full)
  /-- MZERO (R301). Writes L32 zero to the named tile rows. -/
  | mzero (f : Full)
  /-- MTAKE (R297). Waits until the group holds the matrix baton. -/
  | mtake (f : Full)
  /-- MPASS (R297). Passes the baton to the head of the queue once the older matrix instructions have completed. -/
  | mpass (f : Full)
  /-- MHRD (R304). Reads a histogram set into a vector register. -/
  | mhrd (f : Full)
  /-- MPRG (R304). Clears the selected histogram sets. -/
  | mprg (f : Full)
  /-- SYSRD (R375). Reads a system register selected from Table 15.13. -/
  | sysrd (f : Full)
  /-- SYSWR (R375). Writes a system register selected from Table 15.13. -/
  | syswr (f : Full)
  /-- TRET (R361). Returns from the trap handler, restores PCV and the join registers, and replays the frozen entries. -/
  | tret (f : Full)
  /-- RGROW (R376). Asks for a larger register bound. -/
  | rgrow (f : Full)
  /-- RSHRINK (R376). Lowers the register bound and releases rows. -/
  | rshrink (f : Full)
  /-- ICSYNC (R377). Discards the group's fetch buffer. -/
  | icsync (f : Full)
  /-- TLBINV (R378). A program-issued shootdown of one page or of every page of the context. -/
  | tlbinv (f : Full)
  /-- TRACEMARK (R379). Adds a mark event to the trace. -/
  | tracemark (f : Full)
  /-- FETCH (R137). Fills the group's fetch buffer from the L1 instruction cache, raising IFAULT or IPOISON where the issue address needs the bytes. -/
  | fetch (g ahead : Nat)
  /-- BREAKPOINT (R355). The issue address matches an enabled breakpoint and the group traps with BRKPT. -/
  | breakpoint (g : Nat)
  /-- FAULT_RECORD_RESUME (R229). Writes the remaining fault records once space frees in the ring. -/
  | faultRecordResume (ctx : Nat)
  /-- TRAP_ENTRY (R352). The group enters its handler once its issued instructions have drained. -/
  | trapEntry (g : Nat)
  /-- TEAM_KILL (R354). Ends every group of a team without a handler and releases its resources. -/
  | teamKill (team cause info : Nat)
  /-- POISON_PURGE (R373). A consumption of poison purges all work that carries the consumer's request tag. -/
  | poisonPurge (g cause info : Nat)
  /-- STRIKE_REPORT (R371). A strike sensor reports, and the core discards its results of the last 24 cycles and re-executes them. -/
  | strikeReport (core : Nat)
  /-- DOORBELL (R79). A write to QDOORBELL makes the command unit read the queue descriptor, or restarts a stopped queue. -/
  | doorbell (ctx : Nat) (v : BitVec 32)
  /-- CARD_ACCEPT (R80). The command unit reads the next card of a queue in position order, then accepts or rejects it. -/
  | cardAccept (ctx q : Nat)
  /-- DEALING_PASS (R83). The command unit picks eligible work by priority and deals chunks of teams to clusters. -/
  | dealingPass (cluster : Nat)
  /-- TEAM_DISPATCH (R68). A team starts on a core, its resources granted and its argument record loaded. -/
  | teamDispatch (team : Nat) (cores : List Nat)
  /-- TASK_POP (R95). An idle team slot pops a task record and checks it. -/
  | taskPop (ctx q core : Nat)
  /-- TASK_RETIRE (R94). A task whose groups have all exited retires and releases the ambient region. -/
  | taskRetire (team : Nat)
  /-- PEND_PUSH (R97). A pending continuation is pushed once its task queue has space. -/
  | pendPush (ctx q : Nat)
  /-- TEAM_RETIRE (R380). A team retires once its groups have ended and its outstanding work has completed. -/
  | teamRetire (team : Nat)
  /-- LAUNCH_RETIRE (R381). The command unit retires a launch: it releases, sets pegs, removes regions, writes the record and satisfies dependences. -/
  | launchRetire (launch : Nat)
  /-- RGROW_RETRY (R109). Waiting grows are tried again in request order when rows are released. -/
  | rgrowRetry (core : Nat)
  /-- RGROW_TIMEOUT (R109). 4,096 cycles after its request, a waiting grow is met in the backing area. -/
  | rgrowTimeout (g : Nat)
  /-- REGISTER_PROMOTE (R112). A group's backed registers are moved into a free physical run. -/
  | registerPromote (core : Nat)
  /-- FORWARD_PROGRESS_SWAP (R119). A core stalled for FPWIN cycles swaps out one team or crew. -/
  | forwardProgressSwap (core : Nat)
  /-- TEAM_RESTORE (R122). A saved team is restored onto a core that can hold it. -/
  | teamRestore (team : Nat) (cores : List Nat)
  /-- PLERR_ACK (R123). Writing 1 to PLERR retests each waiting team, restoring it or counting it as killed. -/
  | plerrAck (ctx : Nat)
  /-- PREEMPT_REQ (R366). REQ in CTX.PREEMPT compares NREC with its bound, then refuses or halts the context's teams. -/
  | preemptReq (ctx : Nat)
  /-- PREEMPT_SAVE_DONE (R366). The halted teams have been written to their records, so STATE becomes 10 and the host is signalled. -/
  | preemptSaveDone (ctx : Nat)
  /-- PREEMPT_RESUME (R365). RESUME in CTX.PREEMPT makes the saved teams waiting work again. -/
  | preemptResume (ctx : Nat)
  /-- HALT_CORE (R356). Setting HALT in DEV.DBG stops issue on one core. -/
  | haltCore (core : Nat)
  /-- UNHALT_CORE (R356). Clearing HALT in DEV.DBG resumes issue with no change of state. -/
  | unhaltCore (core : Nat)
  /-- SHOOTDOWN_PAGE (R368). A write to DEV.SHOOT without ALL queues a shootdown of the page in DEV.SHOOTVA. -/
  | shootdownPage (v : BitVec 64)
  /-- SHOOTDOWN_ALL (R368). A write to DEV.SHOOT with ALL queues a shootdown of every translation of the context. -/
  | shootdownAll (v : BitVec 64)
  /-- SHOOTDOWN_COMPLETE (R369). The shootdown completes once the entries are dropped, the accesses drained and every core has acknowledged. -/
  | shootdownComplete
  /-- FRESP_RETRY (R232). CTX.FRESP with RETRY checks the faulted instruction or chunk again. -/
  | frespRetry (ctx fseq : Nat)
  /-- FRESP_FAIL (R232). CTX.FRESP with FAIL traps the group with MFAULT or abandons the copy or collective. -/
  | frespFail (ctx fseq : Nat)
  /-- COPY_CHUNK (R266). The copy engine completes one chunk of up to 128 bytes of a request. -/
  | copyChunk (core req chunk : Nat)
  /-- AACC_CONTRIBUTE (R256). The home L2 checks and stores a contribution, then folds every key that is ready. -/
  | aaccContribute (g : Nat)
  /-- WDOG_BUDGET (R358). COUNT reaches BUDGET and every group of the team takes WDOG. -/
  | wdogBudget (team : Nat)
  /-- WDOG_KILL (R358). COUNT reaches 2 · BUDGET and the team is killed with WDOG. -/
  | wdogKill (team : Nat)
  /-- REGTAB_APPLY (R311). A pending CTX.REGTAB write takes effect once the context holds no work. -/
  | regtabApply (ctx : Nat)
  /-- POWER_ARBITRATION (R389). Every 100 µs the arbiter assigns each island a power level. -/
  | powerArbitration (levels : List Nat)
  /-- THERMAL_SAMPLE (R390). Every 1 ms each island's temperature is sampled and its thermal floor adjusted. -/
  | thermalSample (temps : List Nat)
  /-- FATAL_ERROR (R391). An uncorrectable error in core state stops the device, writes the dump and sets FATAL. -/
  | fatalError (cause : Nat)
  /-- FIRMWARE_WATCHDOG_EXPIRY (R391). The firmware's own watchdog expires, which is a fatal error. -/
  | firmwareWatchdogExpiry
  /-- DUMP_REQUEST (R392). A dump is requested over the I3C management port. -/
  | dumpRequest
  /-- DEVICE_RESET (R394). A reset starts bring-up from the reset state. -/
  | deviceReset
  /-- BRINGUP_STAGE (R394). A bring-up stage completes and DEV.STATUS advances. -/
  | bringupStage (image : Image) (usable : List (Nat × Nat))
  /-- SEAL_CONTEXT (R386). Firmware seals a context at system software's request. -/
  | sealContext (ctx : Nat)
  /-- ATTESTATION_REPORT (R387). Firmware produces a signed attestation report for a sealed context. -/
  | attestationReport (ctx : Nat) (ask : ReportAsk)
  /-- NODE_CAPACITY_LEARNED (R409). The device learns a node member's GDDR 7 capacity over the peer ports and populates its window. -/
  | nodeCapacityLearned (d capacity : Nat)
  /-- LINK_TRAINED (R338). A peer port trains and reaches L0, setting UP; `far` is the port at the far end, `ide` whether an IDE stream is established. -/
  | linkTrained (port peer far : Nat) (ide : Bool)
  /-- PORT_LINK_DOWN (R338). A peer port's link leaves L0 and the port is quarantined. -/
  | portLinkDown (port : Nat)
  /-- ACK_TIMEOUT (R338). A Ronzia message is not acknowledged within LTO and the port is quarantined. -/
  | ackTimeout (port : Nat)
  /-- QUARANTINE_CLEAR (R338). Writing 1 to QUAR returns a port to Whist's use. -/
  | quarantineClear (port : Nat)
  /-- COLLECTIVE_START (R340). Whist matches ranks, floods live ports, builds the trees and sizes the chunks. -/
  | collectiveStart (coll : Nat)
  /-- COLLECTIVE_PARTIAL (R345). A Ronzia message carrying partials or results arrives and is combined or forwarded. -/
  | collectivePartial (key : CollKey) (chunk : Nat) (msg : CollMsg)
  /-- FAILURE_NOTICE (R346). A failure notice at a new epoch arrives and the rank stops issuing chunks. -/
  | failureNotice (key : CollKey) (epoch : Nat) (link : Edge)
  /-- RECOVERY_REBUILD (R346). Once all tables and marks of the epoch are held, the trees are rebuilt and the unfinished chunks reissued. -/
  | recoveryRebuild (coll : Nat)
  /-- COLLECTIVE_COMPLETE (R344). Every chunk is final and the descriptor's status is written done or failed. -/
  | collectiveComplete (coll : Nat)
  /-- TRACE_INDEX_READ (R382). A read of DEV.TRIDX returns and clears DROPS. -/
  | traceIndexRead
  /-- REGISTER_WRITE (R6). A write to a device or context register that has no row of its own stores its fields by their access codes. -/
  | registerWrite (ctx : Option Nat) (off : Nat) (v : BitVec 64)
  /-- ILLEGAL_INSTRUCTION_TRAP (R134). A word at the issue address that has LEN = 0b11, an unassigned OP or a layout the opcode does not accept is decoded and raises ILL. -/
  | illegalInstructionTrap (g ilen w0 w1 : Nat)
  /-- HOST_LINK_ACCESS (R386). A host read or write of device memory arrives over the PCIe host link and is performed at L2 as a foreign-party access, or completed as Unsupported Request for a sealed window. -/
  | hostLinkAccess (pa : Nat) (data : List (BitVec 8)) (n : Nat)
  /-- PEER_MEMORY_TRANSACTION (R392). A peer device's memory transaction, such as a load, store, atomic or gate operation, arrives on a peer port and is performed at this device's home L2. `scope` 0 is a plain access. -/
  | peerMemoryTransaction (peer : PeerId) (pa : Nat) (op : PeerOp) (scope : Nat)
  /-- TABLE_FLOOD (R339). A rank receives another rank's flooded live ports, table or progress marks for a collective's epoch. -/
  | tableFlood (key : CollKey) (msg : FloodMsg)
  /-- ISOLATED_RANK_TIMEOUT (R346). A rank that can reach no other rank fails its collective with ERR 0x6 once LTO has passed. -/
  | isolatedRankTimeout (coll : Nat)
  /-- KEY_UNWRAP (R387). The owner's wrapped content key is received, and firmware unwraps it into the context's key slot. -/
  | keyUnwrap (ctx : Nat) (wrapped : List (BitVec 8))
  /-- POWER_GATING (R369). A core is power-gated, which stops its cycle count and drops its translation entries, or it is powered up again. -/
  | powerGating (core : Nat) (on : Bool)
  deriving DecidableEq, Repr

end Sys2Proof
end

