-- ==== Sys2Proof/Machine/Encoding.lean ====
section
/-! DEFINITION. Encodings as data: the layout an instruction takes in memory (`View`), the opcode map of Table 6.8, and the
legality of each opcode's fields (R127 to R134 and the encoding tables of the chapters). -/

namespace Sys2Proof.Machine

/-- Why an encoding is refused, by the steps of R134. -/
inductive Ill where
  | len         -- step 1: LEN = 0b11
  | unassigned  -- step 2: OP unassigned in Table 6.8
  | layout      -- step 3: the length or layout is not accepted for OP
  | zeroField   -- step 4: a field that must be zero is not, or a value is outside the entry's range
  | typeRound   -- step 5: TYPE or RND not accepted
  | operand     -- step 6: a file, width or number not accepted
  | groupPred   -- step 7: a group-wide instruction's predicate
  | notInstr    -- a device event has no instruction word
  deriving DecidableEq, Repr

/-- An instruction word's layout with its major opcode (Table 6.9). -/
inductive View where
  | s3 (op : Nat) (f : Short3)
  | si (op : Nat) (f : ShortI)
  | sj (op : Nat) (imm : BitVec 22)
  | s0 (op : Nat)
  | full (op : Nat) (f : Full)
  | fullU (op : Nat) (f : FullU)
  deriving DecidableEq, Repr

/-- The layout of each row of the table that is an instruction. -/
def view (i : Instr) : Option View :=
  match i with
  | .iaddShort f => some (.s3 0x01 f)
  | .iadd f => some (.full 0x01 f)
  | .isubShort f => some (.s3 0x02 f)
  | .isub f => some (.full 0x02 f)
  | .imul24 f => some (.full 0x03 f)
  | .imul32 f => some (.full 0x04 f)
  | .imulhi f => some (.full 0x05 f)
  | .imad24 f => some (.full 0x06 f)
  | .idiv f => some (.full 0x07 f)
  | .imin f => some (.full 0x08 f)
  | .imax f => some (.full 0x09 f)
  | .lea f => some (.full 0x0A f)
  | .andShort f => some (.s3 0x10 f)
  | .and f => some (.full 0x10 f)
  | .orShort f => some (.s3 0x11 f)
  | .or f => some (.full 0x11 f)
  | .xorShort f => some (.s3 0x12 f)
  | .xor f => some (.full 0x12 f)
  | .andn f => some (.full 0x13 f)
  | .shlShort f => some (.s3 0x14 f)
  | .shl f => some (.full 0x14 f)
  | .shrShort f => some (.s3 0x15 f)
  | .shr f => some (.full 0x15 f)
  | .sarShort f => some (.s3 0x16 f)
  | .sar f => some (.full 0x16 f)
  | .popc f => some (.full 0x17 f)
  | .clz f => some (.full 0x18 f)
  | .bfx f => some (.full 0x19 f)
  | .bfi f => some (.full 0x1A f)
  | .icmp f => some (.full 0x1B f)
  | .isel f => some (.full 0x1C f)
  | .movShort f => some (.s3 0x20 f)
  | .mov f => some (.full 0x20 f)
  | .moviShort f => some (.si 0x21 f)
  | .movi f => some (.full 0x21 f)
  | .immhi f => some (.fullU 0x22 f)
  | .addpc f => some (.fullU 0x23 f)
  | .idrd f => some (.full 0x24 f)
  | .lmulShort f => some (.s3 0x40 f)
  | .lmul f => some (.full 0x40 f)
  | .ldiv f => some (.full 0x41 f)
  | .lrcp f => some (.full 0x42 f)
  | .lsqrt f => some (.full 0x43 f)
  | .lrsq f => some (.full 0x44 f)
  | .laddShort f => some (.s3 0x45 f)
  | .ladd f => some (.full 0x45 f)
  | .lsubShort f => some (.s3 0x46 f)
  | .lsub f => some (.full 0x46 f)
  | .lmacShort f => some (.s3 0x47 f)
  | .lmac f => some (.full 0x47 f)
  | .lneg f => some (.full 0x48 f)
  | .labs f => some (.full 0x49 f)
  | .lminShort f => some (.s3 0x4A f)
  | .lmin f => some (.full 0x4A f)
  | .lmaxShort f => some (.s3 0x4B f)
  | .lmax f => some (.full 0x4B f)
  | .lcmp f => some (.full 0x4C f)
  | .lscale f => some (.full 0x4D f)
  | .lext f => some (.full 0x50 f)
  | .lfrom f => some (.full 0x51 f)
  | .lcvt f => some (.full 0x52 f)
  | .ldot4 f => some (.full 0x53 f)
  | .lrnd f => some (.full 0x54 f)
  | .cvt f => some (.full 0x55 f)
  | .fexp2 f => some (.full 0x80 f)
  | .fexp f => some (.full 0x81 f)
  | .flog2 f => some (.full 0x82 f)
  | .fln f => some (.full 0x83 f)
  | .fsinpi f => some (.full 0x84 f)
  | .fcospi f => some (.full 0x85 f)
  | .ftanh f => some (.full 0x86 f)
  | .fsigm f => some (.full 0x87 f)
  | .ferf f => some (.full 0x88 f)
  | .fsoftp f => some (.full 0x89 f)
  | .fexp2A f => some (.full 0x90 f)
  | .fexpA f => some (.full 0x91 f)
  | .flog2A f => some (.full 0x92 f)
  | .flnA f => some (.full 0x93 f)
  | .fsinpiA f => some (.full 0x94 f)
  | .fcospiA f => some (.full 0x95 f)
  | .ftanhA f => some (.full 0x96 f)
  | .fsigmA f => some (.full 0x97 f)
  | .ferfA f => some (.full 0x98 f)
  | .fsoftpA f => some (.full 0x99 f)
  | .shfl f => some (.full 0xA0 f)
  | .qswap f => some (.full 0xA1 f)
  | .qbcast f => some (.full 0xA2 f)
  | .vote f => some (.full 0xA3 f)
  | .ballot f => some (.full 0xA4 f)
  | .gred f => some (.full 0xA5 f)
  | .braShort imm => some (.sj 0xB0 imm)
  | .bra f => some (.fullU 0xB0 f)
  | .brc f => some (.fullU 0xB1 f)
  | .callShort imm => some (.sj 0xB2 imm)
  | .call f => some (.fullU 0xB2 f)
  | .calli f => some (.full 0xB3 f)
  | .retShort => some (.s0 0xB4)
  | .ret f => some (.full 0xB4 f)
  | .join f => some (.full 0xB5 f)
  | .wait f => some (.full 0xB6 f)
  | .exitShort => some (.s0 0xB7)
  | .exit f => some (.full 0xB7 f)
  | .trap f => some (.full 0xB8 f)
  | .nopShort => some (.s0 0xB9)
  | .nop f => some (.full 0xB9 f)
  | .ld f => some (.full 0xC0 f)
  | .st f => some (.full 0xC1 f)
  | .lds f => some (.full 0xC2 f)
  | .sts f => some (.full 0xC3 f)
  | .ldc f => some (.full 0xC4 f)
  | .pref f => some (.full 0xC5 f)
  | .atom f => some (.full 0xC6 f)
  | .aaccO f => some (.full 0xC7 f)
  | .monitor f => some (.full 0xC8 f)
  | .mwait f => some (.full 0xC9 f)
  | .cpyq f => some (.full 0xCA f)
  | .abinit f => some (.full 0xCB f)
  | .abwait f => some (.full 0xCC f)
  | .tcpy f => some (.full 0xCD f)
  | .gacq f => some (.full 0xD0 f)
  | .grel f => some (.full 0xD1 f)
  | .fence f => some (.full 0xD2 f)
  | .bar f => some (.full 0xD3 f)
  | .cbar f => some (.full 0xD4 f)
  | .pegpub f => some (.full 0xD5 f)
  | .tspawn f => some (.full 0xD6 f)
  | .jpost f => some (.full 0xD7 f)
  | .coll f => some (.full 0xD8 f)
  | .collw f => some (.full 0xD9 f)
  | .mwld f => some (.full 0xE0 f)
  | .mswap f => some (.full 0xE1 f)
  | .mma f => some (.full 0xE2 f)
  | .mmat f => some (.full 0xE3 f)
  | .mdrain f => some (.full 0xE4 f)
  | .mzero f => some (.full 0xE5 f)
  | .mtake f => some (.full 0xE6 f)
  | .mpass f => some (.full 0xE7 f)
  | .mhrd f => some (.full 0xE8 f)
  | .mprg f => some (.full 0xE9 f)
  | .sysrd f => some (.full 0xF0 f)
  | .syswr f => some (.full 0xF1 f)
  | .tret f => some (.full 0xF2 f)
  | .rgrow f => some (.full 0xF3 f)
  | .rshrink f => some (.full 0xF4 f)
  | .icsync f => some (.full 0xF5 f)
  | .tlbinv f => some (.full 0xF6 f)
  | .tracemark f => some (.full 0xF7 f)
  | .fetch _ _ => none
  | .breakpoint _ => none
  | .faultRecordResume _ => none
  | .trapEntry _ => none
  | .teamKill _ _ _ => none
  | .poisonPurge _ _ _ => none
  | .strikeReport _ => none
  | .doorbell _ _ => none
  | .cardAccept _ _ => none
  | .dealingPass _ => none
  | .teamDispatch _ _ => none
  | .taskPop _ _ _ => none
  | .taskRetire _ => none
  | .pendPush _ _ => none
  | .teamRetire _ => none
  | .launchRetire _ => none
  | .rgrowRetry _ => none
  | .rgrowTimeout _ => none
  | .registerPromote _ => none
  | .forwardProgressSwap _ => none
  | .teamRestore _ _ => none
  | .plerrAck _ => none
  | .preemptReq _ => none
  | .preemptSaveDone _ => none
  | .preemptResume _ => none
  | .haltCore _ => none
  | .unhaltCore _ => none
  | .shootdownPage _ => none
  | .shootdownAll _ => none
  | .shootdownComplete => none
  | .frespRetry _ _ => none
  | .frespFail _ _ => none
  | .copyChunk _ _ _ => none
  | .aaccContribute _ => none
  | .wdogBudget _ => none
  | .wdogKill _ => none
  | .regtabApply _ => none
  | .powerArbitration _ => none
  | .thermalSample _ => none
  | .fatalError _ => none
  | .firmwareWatchdogExpiry => none
  | .dumpRequest => none
  | .deviceReset => none
  | .bringupStage _ _ => none
  | .sealContext _ => none
  | .attestationReport _ _ => none
  | .nodeCapacityLearned _ _ => none
  | .linkTrained _ _ _ _ => none
  | .portLinkDown _ => none
  | .ackTimeout _ => none
  | .quarantineClear _ => none
  | .collectiveStart _ => none
  | .collectivePartial _ _ _ => none
  | .failureNotice _ _ _ => none
  | .recoveryRebuild _ => none
  | .collectiveComplete _ => none
  | .traceIndexRead => none
  | .registerWrite _ _ _ => none
  | .illegalInstructionTrap _ _ _ _ => none
  | .hostLinkAccess _ _ _ => none
  | .peerMemoryTransaction _ _ _ _ => none
  | .tableFlood _ _ => none
  | .isolatedRankTimeout _ => none
  | .keyUnwrap _ _ => none
  | .powerGating _ _ => none

/-- Full-form opcodes of layout F (Table 6.8). -/
def fullOf (op : Nat) : Option (Full → Instr) :=
  match op with
  | 0x01 => some .iadd
  | 0x02 => some .isub
  | 0x03 => some .imul24
  | 0x04 => some .imul32
  | 0x05 => some .imulhi
  | 0x06 => some .imad24
  | 0x07 => some .idiv
  | 0x08 => some .imin
  | 0x09 => some .imax
  | 0x0A => some .lea
  | 0x10 => some .and
  | 0x11 => some .or
  | 0x12 => some .xor
  | 0x13 => some .andn
  | 0x14 => some .shl
  | 0x15 => some .shr
  | 0x16 => some .sar
  | 0x17 => some .popc
  | 0x18 => some .clz
  | 0x19 => some .bfx
  | 0x1A => some .bfi
  | 0x1B => some .icmp
  | 0x1C => some .isel
  | 0x20 => some .mov
  | 0x21 => some .movi
  | 0x24 => some .idrd
  | 0x40 => some .lmul
  | 0x41 => some .ldiv
  | 0x42 => some .lrcp
  | 0x43 => some .lsqrt
  | 0x44 => some .lrsq
  | 0x45 => some .ladd
  | 0x46 => some .lsub
  | 0x47 => some .lmac
  | 0x48 => some .lneg
  | 0x49 => some .labs
  | 0x4A => some .lmin
  | 0x4B => some .lmax
  | 0x4C => some .lcmp
  | 0x4D => some .lscale
  | 0x50 => some .lext
  | 0x51 => some .lfrom
  | 0x52 => some .lcvt
  | 0x53 => some .ldot4
  | 0x54 => some .lrnd
  | 0x55 => some .cvt
  | 0x80 => some .fexp2
  | 0x81 => some .fexp
  | 0x82 => some .flog2
  | 0x83 => some .fln
  | 0x84 => some .fsinpi
  | 0x85 => some .fcospi
  | 0x86 => some .ftanh
  | 0x87 => some .fsigm
  | 0x88 => some .ferf
  | 0x89 => some .fsoftp
  | 0x90 => some .fexp2A
  | 0x91 => some .fexpA
  | 0x92 => some .flog2A
  | 0x93 => some .flnA
  | 0x94 => some .fsinpiA
  | 0x95 => some .fcospiA
  | 0x96 => some .ftanhA
  | 0x97 => some .fsigmA
  | 0x98 => some .ferfA
  | 0x99 => some .fsoftpA
  | 0xA0 => some .shfl
  | 0xA1 => some .qswap
  | 0xA2 => some .qbcast
  | 0xA3 => some .vote
  | 0xA4 => some .ballot
  | 0xA5 => some .gred
  | 0xB3 => some .calli
  | 0xB4 => some .ret
  | 0xB5 => some .join
  | 0xB6 => some .wait
  | 0xB7 => some .exit
  | 0xB8 => some .trap
  | 0xB9 => some .nop
  | 0xC0 => some .ld
  | 0xC1 => some .st
  | 0xC2 => some .lds
  | 0xC3 => some .sts
  | 0xC4 => some .ldc
  | 0xC5 => some .pref
  | 0xC6 => some .atom
  | 0xC7 => some .aaccO
  | 0xC8 => some .monitor
  | 0xC9 => some .mwait
  | 0xCA => some .cpyq
  | 0xCB => some .abinit
  | 0xCC => some .abwait
  | 0xCD => some .tcpy
  | 0xD0 => some .gacq
  | 0xD1 => some .grel
  | 0xD2 => some .fence
  | 0xD3 => some .bar
  | 0xD4 => some .cbar
  | 0xD5 => some .pegpub
  | 0xD6 => some .tspawn
  | 0xD7 => some .jpost
  | 0xD8 => some .coll
  | 0xD9 => some .collw
  | 0xE0 => some .mwld
  | 0xE1 => some .mswap
  | 0xE2 => some .mma
  | 0xE3 => some .mmat
  | 0xE4 => some .mdrain
  | 0xE5 => some .mzero
  | 0xE6 => some .mtake
  | 0xE7 => some .mpass
  | 0xE8 => some .mhrd
  | 0xE9 => some .mprg
  | 0xF0 => some .sysrd
  | 0xF1 => some .syswr
  | 0xF2 => some .tret
  | 0xF3 => some .rgrow
  | 0xF4 => some .rshrink
  | 0xF5 => some .icsync
  | 0xF6 => some .tlbinv
  | 0xF7 => some .tracemark
  | _ => none

/-- Full-form opcodes of layout FU (Table 6.9). -/
def fullUOf (op : Nat) : Option (FullU → Instr) :=
  match op with
  | 0x22 => some .immhi
  | 0x23 => some .addpc
  | 0xB0 => some .bra
  | 0xB1 => some .brc
  | 0xB2 => some .call
  | _ => none

/-- Short forms of layout S3. -/
def s3Of (op : Nat) : Option (Short3 → Instr) :=
  match op with
  | 0x01 => some .iaddShort
  | 0x02 => some .isubShort
  | 0x10 => some .andShort
  | 0x11 => some .orShort
  | 0x12 => some .xorShort
  | 0x14 => some .shlShort
  | 0x15 => some .shrShort
  | 0x16 => some .sarShort
  | 0x20 => some .movShort
  | 0x40 => some .lmulShort
  | 0x45 => some .laddShort
  | 0x46 => some .lsubShort
  | 0x47 => some .lmacShort
  | 0x4A => some .lminShort
  | 0x4B => some .lmaxShort
  | _ => none

/-- Short forms of layout SI. -/
def siOf (op : Nat) : Option (ShortI → Instr) :=
  match op with
  | 0x21 => some .moviShort
  | _ => none

/-- Short forms of layout SJ. -/
def sjOf (op : Nat) : Option (BitVec 22 → Instr) :=
  match op with
  | 0xB0 => some .braShort
  | 0xB2 => some .callShort
  | _ => none

/-- Short forms of layout S0. -/
def s0Of (op : Nat) : Option Instr :=
  match op with
  | 0xB4 => some .retShort
  | 0xB7 => some .exitShort
  | 0xB9 => some .nopShort
  | _ => none

/-- An instruction from its layout. -/
def ofView : View → Option Instr
  | .s3 op f => (s3Of op).map (· f)
  | .si op f => (siOf op).map (· f)
  | .sj op i => (sjOf op).map (· i)
  | .s0 op => s0Of op
  | .full op f => (fullOf op).map (· f)
  | .fullU op f => (fullUOf op).map (· f)

/-- What a row of an encoding table asks of a register field. -/
inductive Ask where
  | zero                    -- unused: all zeros
  | pred (top : Nat)        -- a predicate or join number, 0 to top (R163)
  | any                     -- V or S, any width
  | x (w : Nat)             -- V or S, width code w
  | v (w : Nat)             -- V, width code w
  | s (w : Nat)             -- S, width code w
  | vAny                    -- V, any width
  deriving DecidableEq, Repr

/-- Run length of a width code (R127). -/
def runLen (w : BitVec 2) : Nat := 2 ^ w.toNat

end Sys2Proof.Machine

namespace Sys2Proof

open Machine

/-- The register field of all zeros: V0, width 1. -/
def Reg.zero : Reg := ⟨.v, 0, 0⟩

/-- Alignment and the scalar bound of a run (R127). -/
def Reg.aligned (r : Reg) : Bool :=
  r.num.toNat % runLen r.wid == 0 && (r.file == .v || r.num.toNat + runLen r.wid ≤ 64)

/-- The field meets what its row asks. -/
def Reg.meets (r : Reg) : Ask → Bool
  | .zero => r == Reg.zero
  | .pred top => r.file == .v && r.wid == 0 && r.num.toNat ≤ top
  | .any => r.aligned
  | .x w => r.wid.toNat == w && r.aligned
  | .v w => r.file == .v && r.wid.toNat == w && r.aligned
  | .s w => r.file == .s && r.wid.toNat == w && r.aligned
  | .vAny => r.file == .v && r.aligned

/-- The second source is an immediate. -/
def Src.isImm : Src → Bool
  | .reg _ => false
  | _ => true

/-- The second source is the literal of the long form. -/
def Src.isLit : Src → Bool
  | .lit _ => true
  | _ => false

/-- The register of the second source meets what its row asks; an immediate passes. -/
def Src.meets (c : Src) (a : Ask) : Bool :=
  match c with
  | .reg r => r.meets a
  | _ => true

/-- The unused second source: IMM = 0 and register zero. -/
def Src.isZero (c : Src) : Bool := c == .reg Reg.zero

/-- Bits of the immediate second source as a natural number. -/
def Src.immNat : Src → Nat
  | .reg _ => 0
  | .imm i => i.toNat
  | .lit l => l.toNat

end Sys2Proof

namespace Sys2Proof.Machine

/-- Element-wise B: the width of D, and scalar when D is scalar (R175). -/
def laneB (f : Full) : Bool :=
  f.b.aligned && f.b.wid == f.d.wid && (f.d.file == .v || f.b.file == .s)

/-- Element-wise register C: the width of D, or a scalar of width 1, and scalar when D is scalar (R175). -/
def laneC (f : Full) : Bool :=
  match f.c with
  | .reg c => c.aligned && (c.wid == f.d.wid || (c.file == .s && c.wid == 0)) && (f.d.file == .v || c.file == .s)
  | _ => true

/-- Element width in bits of a type code (R175, R202). -/
def tyWidth (t : Nat) : Nat :=
  match t with
  | 0 | 4 => 64
  | 1 | 5 | 8 | 12 => 32
  | 2 | 6 | 9 | 13 | 14 => 16
  | 17 => 4
  | _ => 8

/-- Source format of LCVT by XM (R200): type code. -/
def lcvtSource (xm : Nat) : Nat := 8 + xm % 4

/-- What the row of an opcode of layout F states: which second sources and lengths (R129, R132), XM, TYPE and RND values,
and the operands. -/
structure Row where
  reg   : Bool          -- a register (or unused) second source is legal
  imm   : Bool          -- IMM12 and, with `long`, LIT are legal
  long  : Bool          -- the long form with IMM = 1 is legal
  rs    : Bool          -- RS, hence the long form with a random operand, is legal
  xm    : Bool
  ty    : Bool
  rnd   : Bool
  ops   : Bool
  value : Bool := true  -- ranges of the entry

def isInt (t : Nat) : Bool := t ≤ 7
def isLog (t : Nat) : Bool := 8 ≤ t && t ≤ 11
def ty4 (t : Nat) : Bool := t == 0 || t == 1 || t == 4 || t == 5

/-- Equal element counts of the D and B runs (R200, R202). -/
def sameCount (f : Full) (td tb : Nat) : Bool :=
  runLen f.d.wid * (64 / tyWidth td) == runLen f.b.wid * (64 / tyWidth tb)

/-- Row of each opcode of layout F: Tables 7.5, 8.2, 9.2, 11.1, 12.6, 14.1 and 15.12. The scale C of LCVT
is one register of either file (DESIGN CHOICE, log 72). -/
def rowOf (op : Nat) (f : Full) : Row :=
  let t := f.ty.toNat
  let x := f.xm.toNat
  let m := f.rnd.toNat
  let lane (xm ty : Bool) : Row := ⟨true, true, true, false, xm, ty, m == 0, f.d.meets .any && laneB f && laneC f, true⟩
  let lane2 (ty : Bool) : Row := ⟨true, false, false, false, x == 0, ty, m == 0, f.d.meets .any && laneB f, f.c.isZero⟩
  let logl (xm : Bool) : Row := ⟨true, true, true, true, xm, isLog t, m ≤ 5, f.d.meets .any && laneB f && laneC f, true⟩
  let log2 : Row := ⟨true, false, false, true, x == 0, isLog t, m ≤ 5, f.d.meets .any && laneB f, f.c.isZero⟩
  let cmp (xm ty : Bool) : Row :=
    ⟨true, true, true, false, xm, ty, m == 0, f.d.meets (.pred 6) && f.b.meets (.x 0) && f.c.meets (.x 0), true⟩
  let plain (xm ops value : Bool) : Row := ⟨true, false, false, false, xm, t == 0, m == 0, ops, value && f.c.isZero⟩
  let immd (long xm ops value : Bool) : Row := ⟨false, true, long, false, xm, t == 0, m == 0, ops, value⟩
  let mem (xm ty ops : Bool) : Row := ⟨true, true, true, false, xm, ty, m == 0, ops, true⟩
  let ldTy := t == 0 || (f.d.wid == 0 && (t == 1 || t == 2 || t == 3 || t == 5 || t == 6 || t == 7))
  let stTy := t == 0 || (f.d.wid == 0 && (t == 1 || t == 2 || t == 3))
  let memOps := f.d.meets .any && f.b.meets (.x 0) && f.c.meets (.x 0) &&
    (f.d.file == .v || (f.b.file == .s && (match f.c with | .reg c => c.file == .s | _ => true)))
  let sOff := f.d.meets .zero && f.b.meets (.s 0) && f.c.meets (.s 0)
  match op with
  | 0x01 | 0x02 => lane (x ≤ 1) (isInt t)
  | 0x03 => lane (x == 0 || (x == 1 && (t == 1 || t == 5))) (ty4 t)
  | 0x04 | 0x05 | 0x06 => lane (x == 0) (ty4 t)
  | 0x07 => lane (x ≤ 1) (isInt t)
  | 0x08 | 0x09 => lane (x == 0) (isInt t)
  | 0x0A => lane true (ty4 t)
  | 0x10 | 0x11 | 0x12 | 0x13 | 0x14 | 0x15 | 0x16 => lane (x == 0) (isInt t)
  | 0x17 | 0x18 => lane2 (isInt t)
  | 0x19 => lane (x == 0) (ty4 t)
  | 0x1A => lane (x == 0) (t == 0 || t == 1)
  | 0x1B => cmp (x ≤ 5) (isInt t)
  | 0x1C => ⟨true, false, false, false, true, t == 0, m == 0, f.d.meets .any && laneB f && laneC f, true⟩
  | 0x20 => plain (x == 0) (f.d.meets .any && f.b.meets .any && f.d.wid == f.b.wid) true
  | 0x21 | 0x24 => immd true (x == 0) (f.d.meets (.x 0) && f.b.meets .zero) true
  | 0x40 | 0x41 | 0x45 | 0x46 | 0x47 | 0x54 => logl (x == 0)
  | 0x42 | 0x43 | 0x44 => log2
  | 0x48 | 0x49 => lane2 (isLog t)
  | 0x4A | 0x4B => lane (x == 0) (isLog t)
  | 0x4C => cmp (x ≤ 6) (isLog t)
  | 0x4D => logl true
  | 0x50 => ⟨true, false, false, false, x ≤ 1, isLog t, m == 0, f.d.meets .any && laneB f, f.c.isZero⟩
  | 0x51 => ⟨true, false, false, false, x ≤ 1, isLog t, m ≤ 4, f.d.meets .any && laneB f, f.c.isZero⟩
  | 0x52 =>
    let ts := lcvtSource x
    ⟨true, true, true, true, x ≤ 3, isLog t && (tyWidth t == 8) != (tyWidth ts == 8), m ≤ 5,
      f.d.meets .any && f.b.meets .any && f.c.meets (.x 0) && sameCount f t ts, true⟩
  | 0x53 =>
    let w := if t == 8 then 2 else if t == 9 then 1 else 0
    ⟨true, false, false, true, x == 0, isLog t, m ≤ 5,
      f.d.meets (.x 0) && f.b.meets (.x w) && f.c.meets (.x w) &&
        (f.d.file == .v || (f.b.file == .s && (match f.c with | .reg c => c.file == .s | _ => false))), true⟩
  | 0x55 =>
    let ts := match f.c with | .reg c => c.num.toNat | _ => 31
    ⟨true, false, false, true, x == 0 || (x == 1 && isInt t && isInt ts),
      t ≤ 17 && ts ≤ 17 && (match f.c with | .reg c => c.file == .v && c.wid == 0 | _ => false),
      if isInt t && isInt ts then m == 0 else if isInt t then m ≤ 4 else m ≤ 5,
      f.d.meets .any && f.b.meets .any && sameCount f t ts, true⟩
  | 0x80 | 0x81 | 0x82 | 0x83 | 0x84 | 0x85 | 0x86 | 0x87 | 0x88 | 0x89
  | 0x90 | 0x91 | 0x92 | 0x93 | 0x94 | 0x95 | 0x96 | 0x97 | 0x98 | 0x99 =>
    ⟨true, false, false, false, x == 0, t == 8 || t == 9 || t == 10, m ≤ 4,
      f.d.meets .vAny && f.b.meets .vAny && f.d.wid.toNat ≤ 1 && f.b.wid == f.d.wid, f.c.isZero⟩
  | 0xA0 => ⟨true, true, true, false, x ≤ 3, t ≤ 3, m == 0, f.d.meets (.v 0) && f.b.meets (.v 0) && f.c.meets (.x 0), true⟩
  | 0xA1 => plain (x ≤ 2) (f.d.meets .vAny && f.b.meets .vAny && f.b.wid == f.d.wid) true
  | 0xA2 => immd true (x == 0) (f.d.meets .vAny && f.b.meets .vAny && f.b.wid == f.d.wid) (f.c.immNat ≤ 3)
  | 0xA3 => immd false (x ≤ 3) (f.d.meets (.pred 6) && f.b.meets (.pred 7)) (f.c.immNat ≤ 32 || f.c.immNat == 63)
  | 0xA4 => plain (x == 0) (f.d.meets (.x 0) && f.b.meets (.pred 7)) true
  | 0xA5 => ⟨true, false, false, true, if isInt t then x ≤ 5 else x ≤ 2, isInt t || isLog t,
      if isLog t && x == 0 then m ≤ 5 else m == 0, f.d.meets (.x 0) && f.b.meets (.v 0), f.c.isZero⟩
  | 0xB3 => plain (x == 0) (f.d.meets (.x 0) && f.b.meets (.x 0)) true
  | 0xB4 => plain (x == 0) (f.d.meets .zero && f.b.meets (.x 0)) true
  | 0xB5 => plain (x ≤ 1) (f.d.meets (.pred 3) && (if x == 1 then f.b.meets (.s 0) else f.b.meets .zero)) true
  | 0xB6 => plain (x == 0) (f.d.meets (.pred 3) && f.b.meets .zero) true
  | 0xB7 => plain (x ≤ 1) (f.d.meets .zero && f.b.meets .zero) true
  | 0xB8 => immd true (x == 0) (f.d.meets .zero && f.b.meets .zero) true
  | 0xB9 => plain (x == 0) (f.d.meets .zero && f.b.meets .zero) true
  | 0xC0 => mem (x == 0 || (x ≤ 5 && f.d.wid == 0)) ldTy memOps
  | 0xC1 => mem (x == 0 || (x ≤ 5 && f.d.wid == 0)) stTy memOps
  | 0xC2 => mem (x == 0 || (x ≤ 2 && f.d.wid.toNat ≤ 1)) ldTy memOps
  | 0xC3 => mem (x == 0 || (x ≤ 1 && f.d.wid.toNat ≤ 1)) stTy memOps
  | 0xC4 => mem (x == 0) ldTy memOps
  | 0xC5 => mem (x ≤ 2) (t == 0) (f.d.meets .zero && f.b.meets (.x 0) && f.c.meets (.x 0))
  | 0xC6 =>
    let cw := f.c.immNat
    ⟨false, true, true, true, if t == 8 then x ≤ 2 else true, ty4 t || t == 8, if t == 8 && x == 0 then m ≤ 5 else m == 0,
      (if x == 7 then f.d.meets (.x 1) else f.d.meets (.x 0)) && f.b.meets (.x 0) && (f.d.file == .v || f.b.file == .s),
      cw < 64 && 1 ≤ cw % 8 && cw % 8 ≤ 5⟩
  | 0xC7 => ⟨true, true, true, false, x == 0, t == 8, m == 0, f.d.meets (.v 0) && f.b.meets (.s 0) && f.c.meets (.s 0), true⟩
  | 0xC8 | 0xCA | 0xCB | 0xCC => mem (x == 0) (t == 0) sOff
  | 0xC9 => plain (x == 0) (f.d.meets .zero && f.b.meets .zero) true
  | 0xCD => mem (x ≤ 1) (t == 0) sOff
  | 0xD0 => immd false (1 ≤ x && x ≤ 5) (f.d.meets .zero && f.b.meets (.s 0)) (f.c.immNat ≤ 1)
  | 0xD1 => plain (1 ≤ x && x ≤ 5) (f.d.meets .zero && f.b.meets (.s 0)) true
  | 0xD2 => plain true (f.d.meets .zero && f.b.meets .zero) true
  | 0xD3 | 0xD4 => plain (x == 0) (f.d.meets .zero && f.b.meets .zero) true
  | 0xD5 => ⟨true, true, true, false, x == 0, t == 0, m == 0, f.d.meets .zero && f.b.meets (.s 1) && f.c.meets (.s 0),
      f.c.immNat < 2 ^ 24⟩
  | 0xD6 => immd false (x == 0) (f.d.meets .zero && f.b.meets (.s 0)) (f.c.immNat ≤ 7)
  | 0xD7 => immd false (x ≤ 1) (f.d.meets .zero && f.b.meets (.s 0)) (f.c.immNat ≤ 255)
  | 0xD8 | 0xD9 => plain (x == 0) (f.d.meets .zero && f.b.meets (.s 0)) true
  | 0xE0 =>
    if x % 2 == 1 then ⟨true, false, false, false, x ≤ 3, t == 10 || t == 11, m == 0, f.d.meets .zero && f.b.meets (.s 2), f.c.isZero⟩
    else ⟨true, true, true, false, x ≤ 3, t == 10 || t == 11, m == 0, f.d.meets .zero && f.b.meets .zero && f.c.meets (.s 0), true⟩
  | 0xE1 | 0xE6 | 0xE7 => plain (x == 0) (f.d.meets .zero && f.b.meets .zero) true
  | 0xE2 | 0xE3 => ⟨true, true, true, false, x == 0, t == 9 || t == 10 || t == 11, m ≤ 4,
      f.d.meets .zero && f.b.meets (.s 2) && f.c.meets (.s 0), true⟩
  | 0xE4 =>
    let rg := 4 ≤ x
    ⟨true, true, true, false, !(rg && x % 2 == 1), if rg then t == 8 || t == 9 else 8 ≤ t && t ≤ 14, m ≤ 4,
      (if rg then f.d.meets .vAny && f.b.meets .zero else f.d.meets .zero && f.b.meets (.s 2)) && f.c.meets (.s 0), true⟩
  | 0xE5 => mem (x == 0) (t == 0) (f.d.meets .zero && f.b.meets .zero && f.c.meets (.s 0))
  | 0xE8 => immd false (x == 0) (f.d.meets (.v 0) && f.b.meets .zero) (f.c.immNat ≤ 7)
  | 0xE9 => immd false (x == 0) (f.d.meets .zero && f.b.meets .zero) (f.c.immNat ≤ 255)
  | 0xF0 => immd true (x == 0) (f.d.meets (.x 0) && f.b.meets .zero) true
  | 0xF1 => immd true (x == 0) (f.d.meets .zero && f.b.meets (.x 0)) true
  | 0xF2 => plain (x ≤ 1) (f.d.meets .zero && f.b.meets .zero) true
  | 0xF3 | 0xF4 => mem (x == 0) (t == 0) (f.d.meets .zero && f.b.meets .zero && f.c.meets (.s 0))
  | 0xF5 => plain (x == 0) (f.d.meets .zero && f.b.meets .zero) true
  | 0xF6 => plain (x ≤ 1) (f.d.meets .zero && (if x == 0 then f.b.meets (.s 0) else f.b.meets .zero)) true
  | 0xF7 => immd true (x == 0) (f.d.meets .zero && f.b.meets .zero) true
  | _ => ⟨false, false, false, false, false, false, false, false, false⟩

/-- The group-wide instructions of R133. -/
def groupWide (op : Nat) : Bool :=
  (0xE0 ≤ op && op ≤ 0xE9) || op == 0xCA || op == 0xCD || op == 0xD8 || op == 0xD9

/-- The first of the given checks that fails. -/
def firstIll : List (Bool × Ill) → Option Ill
  | [] => none
  | (ok, why) :: rest => if ok then firstIll rest else some why

/-- Legality of a full or long form of layout F, steps 3 to 7 of R134. -/
def illFull (op : Nat) (f : Full) : Option Ill :=
  let r := rowOf op f
  firstIll [
    ((fullOf op).isSome, .unassigned),
    (match f.c with
      | .reg _ => r.reg
      | .imm _ => r.imm && f.rand.isNone
      | .lit _ => r.imm && r.long, .layout),
    (f.rand.isSome == (f.rnd == 5), .layout),
    (f.rand.isNone || r.rs, .layout),
    (r.xm && r.value, .zeroField),
    (r.ty && r.rnd, .typeRound),
    (r.ops && (match f.rand with
      | none => true
      | some n => n.toNat % runLen f.d.wid == 0), .operand),
    (!groupWide op || (f.ctl.pred == 7 && f.ctl.pn == false), .groupPred)]

/-- Legality of a full or long form of layout FU (R129, Tables 7.5 and 8.2). -/
def illFullU (op : Nat) (f : FullU) : Option Ill :=
  let long := match f.imm with | .lit _ => true | .imm20 _ => false
  let aligned := match f.imm with | .lit l => l.toNat % 4 == 0 | .imm20 _ => true
  firstIll [
    ((fullUOf op).isSome, .unassigned),
    (!long || op == 0xB0 || op == 0xB1 || op == 0xB2, .layout),
    (aligned, .zeroField),
    (match op with
      | 0xB0 => f.d.meets .zero && f.b.meets .zero
      | 0xB1 => f.d.meets .zero && f.b.meets (.x 0)
      | _ => f.d.meets (.x 0) && f.b.meets .zero, .operand)]

/-- Legality of a short form (R125): a scalar number of 64 or more is illegal, and short MOV leaves C zero. -/
def illView : View → Option Ill
  | .s3 op f => firstIll [((s3Of op).isSome, .layout), (op != 0x20 || f.c == 0, .zeroField),
      (f.k == .v || (f.d.toNat < 64 && f.b.toNat < 64 && f.c.toNat < 64), .operand)]
  | .si op f => firstIll [((siOf op).isSome, .layout), (f.k == .v || f.d.toNat < 64, .operand)]
  | .sj op _ => firstIll [((sjOf op).isSome, .layout)]
  | .s0 op => firstIll [((s0Of op).isSome, .layout)]
  | .full op f => illFull op f
  | .fullU op f => illFullU op f

end Sys2Proof.Machine
end

