-- ==== Sys2Proof/WellFormed.lean ====
section
/-! DEFINITION. Well-formedness of an instruction: the checks of R134 on its fields. -/

namespace Sys2Proof

/-- The first check of R134 that an instruction fails. A device event has no word and is not well formed as one. -/
def Instr.ill (i : Instr) : Option Machine.Ill :=
  match Machine.view i with
  | none => some .notInstr
  | some v => Machine.illView v

/-- An instruction the encoding tables accept. -/
def Instr.wf (i : Instr) : Bool := (Instr.ill i).isNone

end Sys2Proof
end

