-- ==== Sys2Proof/Decode.lean ====
section
/-! DEFINITION. The decoder, total on any words, and the encoder (R124 to R134, Tables 6.1 to 6.4, 6.7). -/

namespace Sys2Proof

open Machine

/-- Why words do not decode. `short n` asks for n words. -/
inductive DecodeError where
  | ill (why : Ill)
  | short (need : Nat)
  deriving DecidableEq, Repr

/-- A 32-bit instruction word. -/
abbrev IWord := BitVec 32

/-- Bits hi:lo of a word (R11). -/
def bitsOf (w : IWord) (lo n : Nat) : BitVec n := w.extractLsb' lo n

def fileOf (b : Bool) : RFile := if b then .s else .v
def fileBit (r : RFile) : BitVec 1 := match r with | .v => 0 | .s => 1

/-- Words an instruction takes by its LEN code (Table 6.1); 1 for the illegal code. -/
def lenWords (w0 : IWord) : Nat :=
  match (bitsOf w0 0 2).toNat with
  | 1 => 2
  | 2 => 3
  | _ => 1

/-- Destination and first source of word 0 (Table 6.3). -/
def regD (w0 : IWord) : Reg := ⟨fileOf (w0.getLsbD 10), bitsOf w0 14 8, bitsOf w0 12 2⟩
def regB (w0 : IWord) : Reg := ⟨fileOf (w0.getLsbD 11), bitsOf w0 24 8, bitsOf w0 22 2⟩
def regC (w1 : IWord) : Reg := ⟨fileOf (w1.getLsbD 21), bitsOf w1 24 8, bitsOf w1 22 2⟩
def ctlOf (w1 : IWord) : Ctl := ⟨bitsOf w1 4 4, w1.getLsbD 3, bitsOf w1 0 3⟩

/-- The random operand field of Table 6.7, whose width must equal DW. -/
def randOf (fld : BitVec 12) (dw : BitVec 2) : Option (BitVec 8) :=
  if fld.extractLsb' 0 2 = 0 ∧ fld.extractLsb' 2 2 = dw then some (fld.extractLsb' 4 8) else none

/-- Layout of a short form (Table 6.2). -/
def parseShort (op : Nat) (w0 : IWord) : Except Ill View :=
  let k := fileOf (w0.getLsbD 10)
  if (s3Of op).isSome then .ok (.s3 op ⟨k, bitsOf w0 11 7, bitsOf w0 18 7, bitsOf w0 25 7⟩)
  else if (siOf op).isSome then .ok (.si op ⟨k, bitsOf w0 11 7, bitsOf w0 18 14⟩)
  else if (sjOf op).isSome then .ok (.sj op (bitsOf w0 10 22))
  else if (s0Of op).isSome then if bitsOf w0 10 22 = 0 then .ok (.s0 op) else .error .zeroField
  else .error .layout

/-- Layout FU (Table 6.4); the long form has IMM20 zero (R129). -/
def parseU (op : Nat) (w0 w1 : IWord) (w2 : Option IWord) : Except Ill View :=
  let mk (d : Disp) : View := .fullU op ⟨regD w0, regB w0, d, ctlOf w1⟩
  if bitsOf w1 8 4 ≠ 0 then .error .zeroField
  else match w2 with
    | none => .ok (mk (.imm20 (bitsOf w1 12 20)))
    | some l => if bitsOf w1 12 20 = 0 then .ok (mk (.lit l)) else .error .layout

/-- Layout F (Tables 6.4 and 6.7, R129): the random operand is present exactly under RS, in word 1 beside a literal or in
the literal beside a register. -/
def parseF (op : Nat) (w0 w1 : IWord) (w2 : Option IWord) : Except Ill View :=
  let d := regD w0
  let rnd := bitsOf w1 8 3
  let mk (c : Src) (r : Option (BitVec 8)) : View :=
    .full op ⟨d, regB w0, c, bitsOf w1 16 3, bitsOf w1 11 5, rnd, r, ctlOf w1⟩
  let imm := w1.getLsbD 19
  let fld := bitsOf w1 20 12
  match w2, imm with
  | none, false => if rnd = 5 then .error .layout else if w1.getLsbD 20 then .error .zeroField else .ok (mk (.reg (regC w1)) none)
  | none, true => if rnd = 5 then .error .layout else .ok (mk (.imm fld) none)
  | some l, true =>
    if rnd = 5 then
      match randOf fld d.wid with
      | some r => .ok (mk (.lit l) (some r))
      | none => .error .operand
    else if fld = 0 then .ok (mk (.lit l) none) else .error .zeroField
  | some l, false =>
    if rnd ≠ 5 then .error .layout
    else if w1.getLsbD 20 then .error .zeroField
    else if bitsOf l 12 20 ≠ 0 then .error .zeroField
    else match randOf (bitsOf l 0 12) d.wid with
      | some r => .ok (mk (.reg (regC w1)) (some r))
      | none => .error .operand

/-- Full and long forms. -/
def parseFull (op : Nat) (w0 w1 : IWord) (w2 : Option IWord) : Except Ill View :=
  if (fullUOf op).isSome then parseU op w0 w1 w2 else parseF op w0 w1 w2

/-- An opcode that Table 6.8 assigns. -/
def assigned (op : Nat) : Bool := (fullOf op).isSome || (fullUOf op).isSome

/-- The layout of an instruction's words, R134 steps 1 to 3. -/
def parse (w0 : IWord) (rest : List IWord) : Except DecodeError View :=
  let op := (bitsOf w0 2 8).toNat
  let lift (e : Except Ill View) : Except DecodeError View :=
    match e with | .ok v => .ok v | .error r => .error (.ill r)
  match (bitsOf w0 0 2).toNat with
  | 3 => .error (.ill .len)
  | 0 => if assigned op then lift (parseShort op w0) else .error (.ill .unassigned)
  | 1 =>
    match rest with
    | w1 :: _ => if assigned op then lift (parseFull op w0 w1 none) else .error (.ill .unassigned)
    | _ => .error (.short 2)
  | _ =>
    match rest with
    | w1 :: w2 :: _ => if assigned op then lift (parseFull op w0 w1 (some w2)) else .error (.ill .unassigned)
    | _ => .error (.short 3)

/-- Decoding (R134): the instruction of a list of words, or the first check that fails. Words past the instruction's length
are not read. -/
def decode : List IWord → Except DecodeError Instr
  | [] => .error (.short 1)
  | w0 :: rest =>
    match parse w0 rest with
    | .error e => .error e
    | .ok v =>
      match illView v with
      | some why => .error (.ill why)
      | none =>
        match ofView v with
        | some i => .ok i
        | none => .error (.ill .unassigned)

/-- Word 0 of a full or long form (Table 6.3). -/
def encWord0 (op : Nat) (d b : Reg) (len : BitVec 2) : IWord :=
  b.num ++ b.wid ++ d.num ++ d.wid ++ fileBit b.file ++ fileBit d.file ++ BitVec.ofNat 8 op ++ len

/-- The control bits of word 1 (Table 6.4). -/
def encCtl (c : Ctl) : BitVec 8 := c.la ++ BitVec.ofBool c.pn ++ c.pred

/-- The random operand field (Table 6.7). -/
def encRand (r : BitVec 8) (dw : BitVec 2) : BitVec 12 := r ++ dw ++ (0 : BitVec 2)

/-- Word 1 of layout F from its bits 31:20. -/
def encWord1 (hi : BitVec 12) (imm : Bool) (f : Full) : IWord :=
  hi ++ BitVec.ofBool imm ++ f.xm ++ f.ty ++ f.rnd ++ encCtl f.ctl

/-- Bits 31:20 of word 1 for a register second source. -/
def encRegC (c : Reg) : BitVec 12 := c.num ++ c.wid ++ fileBit c.file ++ (0 : BitVec 1)

/-- The words of a layout. -/
def encodeView : View → List IWord
  | .s3 op f => [f.c ++ f.b ++ f.d ++ fileBit f.k ++ BitVec.ofNat 8 op ++ (0 : BitVec 2)]
  | .si op f => [f.imm ++ f.d ++ fileBit f.k ++ BitVec.ofNat 8 op ++ (0 : BitVec 2)]
  | .sj op i => [i ++ BitVec.ofNat 8 op ++ (0 : BitVec 2)]
  | .s0 op => [(0 : BitVec 22) ++ BitVec.ofNat 8 op ++ (0 : BitVec 2)]
  | .fullU op f =>
    match f.imm with
    | .imm20 i => [encWord0 op f.d f.b 1, i ++ (0 : BitVec 4) ++ encCtl f.ctl]
    | .lit l => [encWord0 op f.d f.b 2, (0 : BitVec 20) ++ (0 : BitVec 4) ++ encCtl f.ctl, l]
  | .full op f =>
    match f.c, f.rand with
    | .reg c, none => [encWord0 op f.d f.b 1, encWord1 (encRegC c) false f]
    | .reg c, some r => [encWord0 op f.d f.b 2, encWord1 (encRegC c) false f, (0 : BitVec 20) ++ encRand r f.d.wid]
    | .imm i, _ => [encWord0 op f.d f.b 1, encWord1 i true f]
    | .lit l, none => [encWord0 op f.d f.b 2, encWord1 0 true f, l]
    | .lit l, some r => [encWord0 op f.d f.b 2, encWord1 (encRand r f.d.wid) true f, l]

/-- The words of an instruction; a device event has none. -/
def encode (i : Instr) : List IWord :=
  match view i with
  | none => []
  | some v => encodeView v

/-- The instruction the decoder reads from the low bits of `w`, each 32-bit word in turn from bit 0. -/
def decodeTableWord (nbits w : Nat) : Option Instr :=
  let x := w % 2 ^ nbits
  match decode [BitVec.ofNat 32 x, BitVec.ofNat 32 (x / 2 ^ 32), BitVec.ofNat 32 (x / 2 ^ 64)] with
  | .ok i => some i
  | .error _ => none

end Sys2Proof
end

