-- ==== Sys2Proof/Machine/State.lean ====
section
/-! DEFINITION. The state of one device as plain data: memory and its write order, the registers of the device and of the 64
contexts, launches, teams, groups, cores, the peg board, the collectives, and the agenda that says which agent moves next. -/

namespace Sys2Proof.Machine

/-- Scopes of Table 13.1. -/
inductive Scope where
  | lane | quad | group | team | crew | device | node | fabric | system
  deriving DecidableEq, Repr

/-- Parties of R306. An engine request and a collective are named by their identity. The home L2 has no name of its own: its writes are those of
class 3 (log 50). -/
inductive Party where
  | grp (g : Nat)
  | eng (g req : Nat)
  | whist (coll : Nat)
  | cu
  | host
  | peer (p : PeerId)
  deriving DecidableEq, Repr

/-- What a release or an acquire acts on (R312): a context's ambient region, the gated regions of a gate word, every region, or the
bytes of some ranges in whichever region each lies. -/
inductive Acts where
  | ambient (ctx : Nat)
  | gate (ctx va : Nat)
  | every
  | bytes (ctx : Nat) (ranges : List (Nat × Nat))
  deriving DecidableEq, Repr

/-- A release made by a party (R312): what precedes it, and the writes it covers. Identities are positions in the list. -/
structure Release where
  party : Party
  scope : Scope
  acts  : Acts
  know  : List Nat
  cov   : List Nat
  deriving DecidableEq, Repr

/-- One write to a 32-bit word that has arrived at its home L2 (R316): the physical word address, the virtual address and
context it was made at, its value, the value the word held before, its writer index (R317), the writes that precede it (R314),
and, for a synchronising write, its scope and the releases that precede it in its party's order (R313). -/
structure WriteRec where
  word  : Nat
  ctx   : Nat
  va    : Nat
  val   : BitVec 32
  old   : BitVec 32
  party : Party
  cls   : Nat
  idx   : List Nat
  prec  : List Nat
  sync  : Option (Scope × List Nat)
  deriving DecidableEq, Repr

/-- A party's view (R314, R315): its own writes, those of its current quanta, the writes that precede its next event, those that
have reached it, the releases it has observed, the releases it has made, and the writes that the first two steps of R141 have brought to it. -/
structure MemView where
  own     : List Nat := []
  quantum : List Nat := []
  know    : List Nat := []
  reached : List Nat := []
  seen    : List Nat := []
  rels    : List Nat := []
  code    : List Nat := []
  deriving DecidableEq, Repr

/-- One element of PCV (Table 7.1). An exited lane reads as all ones whatever the other fields hold. -/
structure Lane where
  x  : Bool := false
  p  : Bool := false
  h  : Bool := false
  n  : Nat := 0
  pc : Nat := 0
  deriving DecidableEq, Repr

/-- A register, predicate, join register or flag word that an instruction reads or writes (R159, R160). `mflags` is the flag word as a matrix
instruction writes it, `sflags` as SYSWR does: those two and SYSRD alone wait for each other (R283). -/
inductive Res where
  | v (n : Nat)
  | s (n : Nat)
  | p (n : Nat)
  | j (n : Nat)
  | flags
  | mflags
  | sflags
  deriving DecidableEq, Repr

/-- An open lookahead range (R160): what its first instruction writes, how many instructions remain, and where the next one lies. -/
structure Window where
  writes : List Res
  left   : Nat
  next   : Nat
  deriving DecidableEq, Repr

/-- A memory fault of one lane (R228, Table 10.9): the lane's address and the 4 KiB page that fails. Kind 0x10, which no
record carries, is poison met by the walk (R372). -/
structure MemFault where
  lane : Nat
  kind : Nat
  addr : Nat
  page : Nat
  deriving DecidableEq, Repr

/-- An entry of the replay log (R359): the instruction, its address, the lanes at the address, its active() and helper masks, the
source values (rows of 32 lanes), its progress and the bytes returned (R244). `stage` counts the parts already done;
`replay` marks an entry that TRET runs again, `late` one behind which younger instructions may have issued, or whose progress is kept. `upto` is the
row at which a turn ends within a row-granular instruction (R289). -/
structure Entry where
  instr  : Instr
  addr   : Nat
  len    : Nat
  lanes  : Mask
  act    : Mask
  helper : Mask
  b      : List (List Word)
  c      : List (List Word)
  d      : List (List Word)
  r      : List (List Word)
  prog   : Nat := 0
  kept   : List (Nat × Nat) := []
  stage  : Nat := 0
  fseq   : Option Nat := none
  faults : List MemFault := []
  replay : Bool := false
  late   : Bool := false
  upto   : Option Nat := none
  deriving DecidableEq, Repr

/-- What a group waits for. `fault` lets independent instructions issue (R231); in every other wait the group issues nothing. -/
inductive Wait where
  | none
  | fault (fseq : Nat)      -- a reported fault (R229)
  | spad                    -- F of a granule (R235)
  | recheck                 -- entries that a save has kept are checked again (R232, R366)
  | again                   -- queue, engine, phase or collective: tried again at each turn
  | grow (n since len : Nat) -- RGROW (R109): the core's cycle count at the request, the instruction's length
  | baton                   -- the matrix baton (R290)
  | gate (pa : Nat)         -- a gate word (R325)
  | bar                     -- the team barrier (R328)
  | cbar                    -- the crew barrier (R328)
  | mwait                   -- MWAIT (R260)
  | contrib                 -- AACC.O at the home L2 (R256)
  | lanes                   -- ATOM between two lanes in host memory (R252)
  | rows                    -- a row-granular instruction between two rows (R289)
  | shoot (n : Nat)         -- TLBINV: n shootdowns must have completed (R378)
  | second                  -- a function instruction in its second phase (R214, R216)
  deriving DecidableEq, Repr

/-- The trap frame (Table 15.13). -/
structure Frame where
  cause : Word := 0
  lanes : Mask := 0
  info  : Word := 0
  pc    : Nat := 0
  spcv  : List Lane := []
  sj    : List Mask := []
  deriving DecidableEq, Repr

/-- A watched line (R259): its address, the virtual address MONITOR used, the number of writes at L2 when it was armed, and log2 of the
size of the page that translated it, 0 inside the heap window. -/
structure Watch where
  line  : Nat
  va    : Nat
  armed : Nat
  sh    : Nat
  deriving DecidableEq, Repr

/-- A group (R102, R107, R149, R179, R352). Absent rows of `v` and `s` are zero. `skipBrk` is the address whose breakpoint does not match again
(R355); `vbad` marks elements that fail parity: the register, and the lane of a vector register (R370). -/
structure Group where
  team    : Nat := 0
  idx     : Nat := 0
  core    : Nat := 0
  slot    : Nat := 0
  ended   : Bool := false
  lanes   : List Lane := []
  v       : List (List Word) := []
  s       : List Word := []
  p       : List Mask := []
  j       : List Mask := []
  flags   : BitVec 5 := 0
  vbase   : Nat := 0
  vbound  : Nat := 0
  vres    : Nat := 0
  lamiss  : BitVec 32 := 0
  windows : List Window := []
  bufAt   : Nat := 0
  buf     : List Byte := []
  log     : List Entry := []
  wait    : Wait := .none
  inh     : Bool := false
  frame   : Frame := {}
  frozen  : List Entry := []
  wdog    : Bool := false
  skipBrk : Option Nat := none
  watch   : Option Watch := none
  vbad    : List (Res × Nat) := []
  pcvBad  : Bool := false
  view    : MemView := {}
  deriving DecidableEq, Repr

/-- Where a team stands. -/
inductive TeamAt where
  | dealt (cluster : Nat)   -- dealt to a cluster, waits for a slot (R84)
  | resident
  | halting                 -- pre-emption has halted it (R366)
  | saved (record : Nat)    -- in the save area (R363)
  | placeErr (record : Nat) -- waits on an unacknowledged PLACE error (R123)
  | retired
  | killed
  deriving DecidableEq, Repr

/-- A lane waiting on a granule (R235): group, lane. -/
structure Waiter where
  g       : Nat
  lane    : Nat
  granule : Nat
  deriving DecidableEq, Repr

/-- A chunk that waits on a reported fault (R268): its FSEQ, and the kind and address an answer of FAIL records. -/
structure ChunkWait where
  chunk : Nat
  fseq  : Nat
  kind  : Nat
  addr  : Nat
  deriving DecidableEq, Repr

/-- A byte an export has written: its chunk, physical and virtual address, for f4 the nibble it is, and its value. -/
structure OutByte where
  chunk : Nat
  pa    : Nat
  va    : Nat
  nib   : Option Bool
  byte  : Byte
  deriving DecidableEq, Repr

/-- A copy request the engine holds (R261 to R269): its sixteen words, the address of its CPYQ, the chunks not yet counted, a
chunk waiting on a fault, the number of writes at L2 when CPYQ handed it over, the scratchpad ranges (team, offset, length) that later
requests have written meanwhile (R266), the bytes its chunks have exported, in the request's own order, and the request's view. -/
structure CopyReq where
  id      : Nat
  group   : Nat
  team    : Nat
  pc      : Nat
  words   : List Word
  left    : List Nat
  waiting : List ChunkWait := []
  start   : Nat := 0
  lost    : List (Nat × Nat × Nat) := []
  outs    : List OutByte := []
  view    : MemView := {}
  deriving DecidableEq, Repr

/-- A weight plane (R275, R277). No rows means every stored weight is zero. -/
structure Plane where
  fmt    : Nat := 10
  sparse : Bool := false
  rows   : List (List Byte) := []
  scales : List Byte := []
  metab  : List Byte := []
  deriving DecidableEq, Repr

/-- The array state (R277) with its foreign marks (R291). -/
structure ArrayState where
  active : Plane := {}
  shadow : Plane := {}
  hist   : List (List Nat) := []
  af     : Bool := false
  sf     : Bool := false
  hf     : BitVec 8 := 0
  deriving DecidableEq, Repr

/-- A barrier (R328, R329): its phase, the arrivals not yet departed (member, phase), and the release of each arrival by phase. -/
structure Bar where
  ph   : Nat := 0
  arr  : List (Nat × Nat) := []
  rels : List (Nat × Nat) := []
  deriving DecidableEq, Repr

/-- A cached translation (R227): page base, log2 of its size, physical base, X and W. -/
structure Xlat where
  va   : Nat
  sh   : Nat
  pa   : Nat
  x    : Bool
  w    : Bool
  deriving DecidableEq, Repr

/-- A team (R102, R105, R114, R223, R328, R357). `task` is the queue and pop index of a task. The crew
barrier stands in the crew's member of rank 0. `fired` says that WDOG was raised at the count's present crossing of BUDGET.
`tlb` is the L1 TLB pair of the team's slot (R116). By barrier offset, `phases` are the releases of the phases completed, `pend` the exported writes
counted so far, and `prior` the writes that precede the requests counted (R267, R314). -/
structure Team where
  ctx     : Nat := 0
  launch  : Option Nat := none
  task    : Option (Nat × Nat) := none
  jaddr   : Nat := 0
  t       : Nat := 0
  ngroups : Nat := 1
  crew    : Nat := 1
  vregs   : Nat := 0
  spadKiB : Nat := 0
  trows   : Nat := 0
  det     : Bool := false
  prio    : Nat := 0
  tag     : Nat := 0
  budget  : Nat := 0
  entry   : Nat := 0
  place   : TeamAt := .resident
  core    : Nat := 0
  slot    : Nat := 0
  groups  : List Nat := []
  heap    : Word × Word × Word := (0, 0, 0)
  vec     : Word := 0
  brk     : List Word := []
  spad    : List Host.Cell := []
  fbits   : List Nat := []
  sppois  : List Nat := []
  waiters : List Waiter := []
  tile    : List Host.Cell := []
  tlpois  : List Nat := []
  bar     : Bar := {}
  cbar    : Bar := {}
  wdog    : Word := 0
  cycles  : Nat := 0
  phases  : List (Nat × Nat) := []
  pend    : List (Nat × Nat) := []
  prior   : List (Nat × Nat) := []
  reqs    : List CopyReq := []
  array   : Option (Nat × ArrayState) := none
  swapOff : Option Nat := none
  tokens  : List Nat := []
  fired   : Bool := false
  tlb     : List Xlat := []
  deriving DecidableEq, Repr

/-- A launch (R67 to R76, R80 to R92). `gone` are the team indices dealt or killed undealt; `needs` the tiles recorded as met at
acceptance; `toks` the releases every dispatch of the launch acquires (R313). -/
structure Launch where
  card     : List Word := []
  ctx      : Nat := 0
  queue    : Nat := 0
  pos      : Nat := 0
  posted   : Bool := false
  lseq     : Nat := 0
  gone     : List Nat := []
  metTiles : List Nat := []
  held     : List Nat := []
  prods    : List Nat := []
  fallback : Bool := false
  purged   : Bool := false
  done     : Nat := 0
  killed   : Nat := 0
  placeK   : Bool := false
  first    : Option (Nat × Nat × Nat) := none
  flags    : BitVec 5 := 0
  maxcyc   : Nat := 0
  retired  : Bool := false
  rel      : Option Nat := none
  toks     : List Nat := []
  deriving DecidableEq, Repr

/-- A live gated region (R309): owner launch, or none for a standing region. -/
structure Region where
  owner : Option Nat
  base  : Nat
  len   : Nat
  wr    : Bool
  gate  : Nat
  deriving DecidableEq, Repr

/-- A fault record not yet written to the ring (R229). -/
structure PendRec where
  fseq  : Nat
  first : Bool
  words : List Word
  deriving DecidableEq, Repr

/-- A purge that queued work has still to meet (R100): the tag, a submission queue (or 256 plus a task queue), the first index past
the work it concerns, the cause and the address. -/
structure Purge where
  tag   : Nat
  q     : Nat
  upto  : Nat
  cause : Nat
  info  : Nat
  deriving DecidableEq, Repr

/-- An entry of a table of level 1 to 4 that a cluster's walk cache holds (R227): context, level, the address bits it stands for, its value. -/
structure WalkEnt where
  ctx   : Nat
  level : Nat
  va    : Nat
  e     : Nat
  deriving DecidableEq, Repr

/-- The translation caches of a cluster (R227): its L2 TLB, tagged by context, and its walk cache. -/
structure Cluster where
  tlb   : List (Nat × Xlat) := []
  walks : List WalkEnt := []
  deriving DecidableEq, Repr

/-- A context: its registers (Table 16.7) and what the command unit and the fault unit keep for it. `pendBy` names, for each object of
a pend list, the queue and pop index of the task that put it there; `tlb` holds the translations of the parties that stand in no cluster;
`eph` the number of the last report made for it, whose ephemeral key unwraps (R387);
`queues` the descriptor each doorbell or JPOST read (R79); `popped` the task queues whose descriptor has been popped from (R106). -/
structure Ctx where
  worktab  : Word := 0
  part     : Word := 0
  heapbase : Word := 0
  heaplen  : Word := 0
  heapoff  : Word := 0
  ptroot   : Word := 0
  faultq   : Word := 0
  fqHead   : BitVec 32 := 0
  fqTail   : BitVec 32 := 0
  regtab   : Word := 0
  regPend  : Option Word := none
  rej      : Nat := 0
  trapvec  : Word := 0
  brk      : List Word := []
  save     : Word := 0
  pstate   : BitVec 2 := 0
  plerr    : Bool := false
  sealed   : Bool := false
  key      : BitVec 256 := 0
  eph      : Option Nat := none
  tkey     : Nat := 0
  fseq     : BitVec 48 := 0
  lseq     : Nat := 0
  regions  : List Region := []
  tlb      : List Xlat := []
  widx     : List (Nat × Nat) := []
  queues   : List (Nat × List Word) := []
  popped   : List Nat := []
  stopped  : List Nat := []
  doorRels : List (Nat × Nat) := []
  postRels : List (Nat × Nat × Nat) := []
  taskRels : List (Nat × Nat × Nat) := []
  pendBy   : List (Nat × Nat × Nat) := []
  records  : List PendRec := []
  purges   : List Purge := []
  signals  : BitVec 4 := 0
  deriving DecidableEq, Repr

/-- A core (R104). Rows and granules in use follow from the groups and teams it holds. -/
structure Core where
  powered  : Bool := true
  halted   : Bool := false
  cycles   : Nat := 0
  stall    : Nat := 0
  usable   : Bool := true
  spadCap  : Nat := 128
  tileCap  : Nat := 64
  teams    : List (Option Nat) := []
  groups   : List (Option Nat) := []
  array    : ArrayState := {}
  holder   : Option Nat := none
  last     : Option (Nat × Nat) := none
  queue    : List Nat := []
  reqs     : List CopyReq := []
  grows    : List Nat := []
  issued   : Nat := 0
  deriving DecidableEq, Repr

/-- A peg board entry (R86). `rels` are the publications or retirements that set its generation. -/
structure Peg where
  ctx   : Nat
  tile  : Nat
  gen   : Nat := 0
  set   : Bool := false
  count : Nat := 0
  age   : Nat := 0
  rels  : List Nat := []
  deriving DecidableEq, Repr

/-- What one chunk of a collective holds on this rank (R342, R345): its mark, its place among the chunks in flight on its tree, the partials
present, of which the codes of the first `parked` wait in WBUF, the children that have sent, whether its partials went to the parent, the results
received (with their block scales) and how many of them are written. -/
structure Chunk where
  epoch : Nat := 0
  state : Nat := 0
  slot  : Nat := 0
  parts : List Partial := []
  parked : Nat := 0
  from_ : List Nat := []
  sent  : Bool := false
  res   : List (Partial × List Nat) := []
  put   : Nat := 0
  deriving DecidableEq, Repr

/-- A Ronzia message that has arrived about a collective (R337, R346). -/
inductive InMsg where
  | flood (m : FloodMsg)
  | part (chunk : Nat) (m : CollMsg)
  | notice (epoch : Nat) (link : Edge)
  deriving DecidableEq, Repr

/-- A collective of this device (R333 to R348). `seqNo` is its number among those of its COMMID; `mine` are the live links it still uses;
`ready` says that its trees stand and chunks may be issued; `flight` is the number of chunks in flight on a tree, 0 when the trees are worked
one at a time (R346); `copied` says that the overlapping send data is kept in WBUF (R343); `built` is the epoch whose trees
it has counted in RECOV before any chunk began; `notices` are the failure notices met and `late` the
chunk messages that came before this rank was ready for them; `wait` is a reported buffer fault; `start` the number of writes at L2 when COLL
handed it over; `rel` the release of its completion. -/
structure Coll where
  ctx    : Nat := 0
  group  : Nat := 0
  pc     : Nat := 0
  desc   : Nat := 0
  words  : List Word := []
  commId : Nat := 0
  myrank : Nat := 0
  ents   : List Nat := []
  seqNo  : Nat := 0
  epoch  : Nat := 0
  begun  : Bool := false
  ready  : Bool := false
  err    : Nat := 0
  ended  : Bool := false
  mine   : List Edge := []
  floods : List FloodMsg := []
  notices : List (Nat × Edge) := []
  late   : List (Nat × CollMsg) := []
  trees  : List (List Edge × Nat) := []
  cs     : Nat := 0
  flight : Nat := 2
  chunks : List Chunk := []
  copied : Bool := false
  recov  : Nat := 0
  built  : Nat := 0
  wait   : Option Nat := none
  start  : Nat := 0
  rel    : Option Nat := none
  view   : MemView := {}
  deriving DecidableEq, Repr

/-- A peer port (Table 14.9), with the port number at the far end, and whether it carries an established IDE stream (R386). -/
structure Port where
  up   : Bool := false
  quar : Bool := false
  peer : Nat := 0
  far  : Nat := 0
  ide  : Bool := false
  deriving DecidableEq, Repr

/-- An entry of the device error log: context, cause or kind, address or detail, request tag. -/
structure LogRec where
  ctx  : Nat
  what : Nat
  addr : Nat
  tag  : Nat := 0
  deriving DecidableEq, Repr

/-- What leaves the device on the peer ports: a Ronzia message (R346, R392), or the answer to a peer's transaction. -/
inductive OutMsg where
  | flood (key : CollKey) (m : FloodMsg)
  | part (key : CollKey) (chunk dest : Nat) (m : CollMsg)
  | notice (key : CollKey) (epoch : Nat) (link : Edge)
  | reply (peer : PeerId) (data : List Byte)
  deriving DecidableEq, Repr

/-- An attestation report (R387), with the trace key wrapped to the owner's key (R385). -/
structure Report where
  identity  : List Byte
  firmware  : List Byte
  config    : List Byte
  images    : List Byte
  nonce     : Nat
  ephemeral : List Byte
  traceKey  : List Byte
  ecdsa     : List Byte
  lms       : List Byte
  deriving DecidableEq, Repr

/-- A shootdown that waits to complete, or a write of DEV.SHOOT held on the host link (R368): its context, the address or every page, and whether a
write of DEV.SHOOT asked for it. -/
structure Shoot where
  ctx  : Nat
  va   : Option Nat
  host : Bool
  deriving DecidableEq, Repr

/-- Registers and units of the device outside contexts, cores and work. `shootHeld` are the writes of DEV.SHOOT held on the host link (R368);
`named` the members whose own MEMBERS names this device (R409); `firmware` and `config` are the measurements of the images loaded and `identity`
what the configuration image gives (R387); `inbox` holds Ronzia messages about collectives not yet begun here; `trfresh` counts the trace unit's
free choices (R383); `alarm` is the host's signal of a fatal error (R391); `hostData` is what the last read over the host link returned, `mgmt` over
the management port (R392). `capacity` before bring-up loads the configuration image is the model's choice, that of ordering code M512 (log 5). -/
structure Dev where
  status   : BitVec 3 := 0
  rback    : Word := 0
  dbgCore  : Nat := 0
  dbgHalt  : Bool := false
  shootQ   : List Shoot := []
  shootHeld : List Shoot := []
  shootDone : BitVec 48 := 0
  shootIn  : Nat := 0
  shootVA  : Word := 0
  dump     : Word := 0
  trace    : Word := 0
  trctx    : Word := 0
  drops    : BitVec 32 := 0
  twidx    : Nat := 0
  trfresh  : Nat := 0
  fpwin    : BitVec 32 := 0x10000
  node     : Word := 0
  nodemap  : Word := 0
  nodeCap  : List (Nat × Nat) := []
  named    : Word := 0
  pwrctl   : Word := 0
  temp     : List Nat := []
  floor    : List Nat := []
  level    : List Nat := []
  power    : List Nat := []
  whcfg    : Word := 0
  ports    : List Port := []
  errlog   : List LogRec := []
  capacity : Nat := 512000000000
  firmware : List Byte := []
  config   : List Byte := []
  identity : List Byte := []
  alarm    : Bool := false
  seals    : Nat := 0
  reports  : List Report := []
  hostData : List Byte := []
  mgmt     : List Byte := []
  collNo   : List (Nat × Nat) := []
  inbox    : List (CollKey × InMsg) := []
  out      : List OutMsg := []
  deriving DecidableEq, Repr

/-- Whose turn it is: a group issues; it issues, and a function instruction's second phase outlasts the turn (R214); it issues a row-granular
instruction or goes on with one, for n rows (R289); a device event happens; a party outside writes, or with no data reads, n bytes of host memory or
of a peer's, with a scope code, 0 for a plain access (R221, R306); cycles pass on a core; an uncorrectable error strikes a sector, a scratchpad or
tile store granule, an element of a register or PCV (R370), or a code line on its way to a group (R143); the host reads `n` bytes of a register
aperture or of a doorbell page or writes fewer than eight (R392, R393); the management port reads; or the members' own maps change (R409). -/
inductive Turn where
  | group (g : Nat)
  | second (g : Nat)
  | rows (g n : Nat)
  | event (i : Instr)
  | elapse (core n : Nat)
  | badSector (n : Nat)
  | badGranule (team n : Nat)
  | badTile (team n : Nat)
  | badReg (g : Nat) (r : Res) (lane : Nat)
  | badPcv (g : Nat)
  | badCode (g va : Nat)
  | regRead (ctx : Option Nat) (off n : Nat)
  | bellRead (ctx off n : Nat)
  | regNarrow (ctx : Option Nat) (off : Nat) (data : List Byte)
  | mgmtRead (what : Nat)
  | peerMaps (names : Word)
  | away (p : Option PeerId) (pa : Nat) (data : List Byte) (n sc : Nat)
  deriving DecidableEq, Repr

/-- The device. `mem` is what each byte of physical memory holds at its home L2; `cur` is the group whose turn comes when the agenda
is empty; `fresh` counts free choices and `choices` holds
the next choices among places (R85, 0 when empty); the lists of launches, teams, groups, cores, contexts and collectives are indexed by identity. -/
structure State where
  mem      : List Host.Cell
  writes   : List WriteRec
  rels     : List Release
  poison   : List Nat
  dev      : Dev
  ctxs     : List Ctx
  launches : List Launch
  teams    : List Team
  groups   : List Group
  cores    : List Core
  clusters : List Cluster
  pegs     : List Peg
  colls    : List Coll
  gateQ    : List (Nat × Party × Bool × Scope)
  hostView : MemView
  peerView : List (PeerId × MemView)
  agenda   : List Turn
  cur      : Nat
  fresh    : Nat
  choices  : List Nat
  clock    : Nat
  deriving DecidableEq, Repr

/-- Stops of the machine that are not the Heori's. -/
inductive Fault where
  /-- An instruction was given to exec while no live group can issue it (no group exists, or the group has ended). Raised by the
  prelude of every instruction row. Safe: the manual gives an instruction effect only in a group. -/
  | noIssuingGroup
  deriving DecidableEq, Repr

/-- Refusals. -/
inductive Refusal where
  /-- The row has no meaning yet. Raised by exec's own arms only. Safe. -/
  | notModelled (mnemonic : String)
  deriving DecidableEq, Repr

/-- PWR.CTL at reset: THI 90, TLO 80, BUDGET 1,400 (Table 16.4). -/
def pwrReset : Word := BitVec.ofNat 64 (90 * 2 ^ 19 + 80 * 2 ^ 11 + 1400)

/-- WH.CFG at reset: FABID 0x3_FFFF, LTO 0x0001_86A0 (Table 14.9). -/
def whReset : Word := BitVec.ofNat 64 (0x3FFFF * 2 ^ 32 + 0x186A0)

/-- The device registers at reset. -/
def Dev.reset : Dev :=
  { pwrctl := pwrReset, whcfg := whReset, ports := List.replicate 8 {} }

/-- The machine right after reset: no work, every register at the value its table gives. -/
def State.reset : State :=
  { mem := [], writes := [], rels := [], poison := [], dev := Dev.reset
    ctxs := List.replicate 64 {}, launches := [], teams := [], groups := []
    cores := List.replicate 256 {}, clusters := List.replicate 64 {}, pegs := [], colls := [], gateQ := []
    hostView := {}, peerView := [], agenda := [], cur := 0, fresh := 0, choices := [], clock := 0 }

end Sys2Proof.Machine
end

