-- ==== Sys2Proof/Machine/Bits.lean ====
section
/-! DEFINITION. The general helpers of Table 0.4, elements of a lane value, lane masks, byte order, and tables by index. -/

namespace Sys2Proof.Machine

/-- ⌊a / b⌋ (R11). -/
def fdiv (a b : Int) : Int := Int.fdiv a b
/-- a − b · ⌊a / b⌋ (R11). -/
def fmod (a b : Int) : Int := a - b * Int.fdiv a b
/-- ⌈a / b⌉ for b > 0 (R11). -/
def cdiv (a b : Int) : Int := -(Int.fdiv (-a) b)
/-- a / b rounded toward zero (R11). -/
def tdiv (a b : Int) : Int := Int.tdiv a b
/-- Exact floor of a shift right (R11). -/
def asr (a : Int) (k : Nat) : Int := Int.fdiv a ((2 ^ k : Nat) : Int)
/-- Clamp (R11). -/
def sat (x lo hi : Int) : Int := if x < lo then lo else if x > hi then hi else x
/-- Bits hi:lo given as position and width (R11). -/
def field (x lo n : Nat) : Nat := (x / 2 ^ lo) % 2 ^ n
/-- The low n bits as a two's-complement number (R11); 0 when n is 0. -/
def sext (x n : Nat) : Int :=
  let y := x % 2 ^ n
  if 2 * y < 2 ^ n then (y : Int) else (y : Int) - ((2 ^ n : Nat) : Int)
/-- The low n bits of an integer. -/
def low (x : Int) (n : Nat) : Nat := (Int.emod x ((2 ^ n : Nat) : Int)).toNat
/-- Number of set bits among the low n (R11). -/
def popc : Nat → Nat → Nat
  | 0, _ => 0
  | n + 1, x => x % 2 + popc n (x / 2)
/-- Leading zero bits in the low n (R11). -/
def clz (x n : Nat) : Nat :=
  let y := x % 2 ^ n
  if y = 0 then n else n - 1 - Nat.log2 y

/-- ⌈a / b⌉ of natural numbers, b > 0. -/
def ncdiv (a b : Nat) : Nat := (a + b - 1) / b

/-- Element i of width w of a lane value (R11, R16). -/
def elem (x : Word) (w i : Nat) : Nat := field x.toNat (w * i) w

/-- The lane value whose elements of width w are the low bits of the given numbers, element 0 first. -/
def ofElems (w : Nat) (l : List Nat) : Word :=
  BitVec.ofNat 64 (l.foldr (fun e acc => e % 2 ^ w + 2 ^ w * acc) 0)

/-- The elements of a lane value. -/
def elems (w : Nat) (x : Word) : List Nat := (List.range (64 / w)).map (elem x w)

/-- v with element i replaced (R11). -/
def setelem (x : Word) (w i y : Nat) : Word :=
  ofElems w ((List.range (64 / w)).map fun k => if k = i then y else elem x w k)

/-- Entry n of a table, with a default for an absent one. -/
def getAt {α : Type} (d : α) : List α → Nat → α
  | [], _ => d
  | a :: _, 0 => a
  | _ :: l, n + 1 => getAt d l n

/-- The table with entry n replaced; a short table is extended with the default. -/
def setAt {α : Type} (d : α) : List α → Nat → α → List α
  | [], 0, b => [b]
  | [], n + 1, b => d :: setAt d [] n b
  | _ :: l, 0, b => b :: l
  | a :: l, n + 1, b => a :: setAt d l n b

/-- Lanes of a mask in ascending order. -/
def lanesOf (m : Mask) : List Nat := (List.range 32).filter fun l => m.getLsbD l

/-- The mask of the lanes below 32 that satisfy a test. -/
def maskOf (f : Nat → Bool) : Mask :=
  BitVec.ofNat 32 ((List.range 32).foldr (fun l acc => (if f l then 1 else 0) + 2 * acc) 0)

/-- The lowest lane of a mask. -/
def lowLane (m : Mask) : Option Nat := (lanesOf m).head?

/-- Little-endian bytes of a number (R4). -/
def toBytes (n x : Nat) : List Byte := (List.range n).map fun k => BitVec.ofNat 8 (x / 2 ^ (8 * k))

/-- The number of little-endian bytes (R4). -/
def ofBytes (l : List Byte) : Nat := l.foldr (fun b acc => b.toNat + 256 * acc) 0

/-- Bits hi:lo of a 64-bit register or structure word. -/
def wfield (x : Word) (lo n : Nat) : Nat := field x.toNat lo n

/-- A word with a field replaced. -/
def wset (x : Word) (lo n v : Nat) : Word :=
  BitVec.ofNat 64 (x.toNat - wfield x lo n * 2 ^ lo + (v % 2 ^ n) * 2 ^ lo)

/-- A number as a 64-bit word. -/
def wd (n : Nat) : Word := BitVec.ofNat 64 n

/-- An integer modulo 2^64. -/
def wdI (n : Int) : Word := BitVec.ofInt 64 n

/-- Numbers a, a+1, …, a+n−1. -/
def span (a n : Nat) : List Nat := (List.range n).map (a + ·)

/-- The first element satisfying a test, with its position. -/
def findIdx {α : Type} (f : α → Bool) (l : List α) : Option Nat :=
  (l.zip (List.range l.length)).findSome? fun (a, i) => if f a then some i else none

end Sys2Proof.Machine
end

