-- ==== Sys2Proof/Machine/Real.lean ====
section
/-! DEFINITION. Exact real values, decided by outward-rounded integer intervals at rising precision: the real numbers of R8 that
the tables of chapters 1, 2 and 9 round. Every interval contains the real it stands for; a rounding is taken only once both ends
agree. -/

namespace Sys2Proof.Machine

/-- An interval [lo, hi] in units of 2^-p. -/
structure Iv where
  lo : Int
  hi : Int
  deriving DecidableEq, Repr

namespace Iv

def pt (x : Int) : Iv := ⟨x, x⟩
def add (a b : Iv) : Iv := ⟨a.lo + b.lo, a.hi + b.hi⟩
def neg (a : Iv) : Iv := ⟨-a.hi, -a.lo⟩
def sub (a b : Iv) : Iv := add a (neg b)
/-- Multiplication by an integer. -/
def scale (k : Int) (a : Iv) : Iv := if 0 ≤ k then ⟨k * a.lo, k * a.hi⟩ else ⟨k * a.hi, k * a.lo⟩
/-- Division by 2^k, or multiplication when k is negative. -/
def shr (a : Iv) (k : Int) : Iv :=
  if 0 ≤ k then ⟨fdiv a.lo ((2 ^ k.toNat : Nat) : Int), cdiv a.hi ((2 ^ k.toNat : Nat) : Int)⟩
  else scale ((2 ^ (-k).toNat : Nat) : Int) a
def mul (p : Nat) (a b : Iv) : Iv :=
  let w := a.lo * b.lo
  let x := a.lo * b.hi
  let y := a.hi * b.lo
  let z := a.hi * b.hi
  let u := ((2 ^ p : Nat) : Int)
  ⟨fdiv (min (min w x) (min y z)) u, cdiv (max (max w x) (max y z)) u⟩
/-- Division by an interval with a positive lower end. -/
def div (p : Nat) (a b : Iv) : Iv :=
  let u := ((2 ^ p : Nat) : Int)
  ⟨fdiv (a.lo * u) (if 0 ≤ a.lo then b.hi else b.lo), cdiv (a.hi * u) (if 0 ≤ a.hi then b.lo else b.hi)⟩
/-- Division by a positive natural number. -/
def divN (a : Iv) (k : Nat) : Iv := ⟨fdiv a.lo (k : Int), cdiv a.hi (k : Int)⟩
def widen (a : Iv) (e : Int) : Iv := ⟨a.lo - e, a.hi + e⟩
/-- The least magnitude bound. -/
def mag (a : Iv) : Int := max a.hi (-a.lo)

end Iv

/-- 1 in units of 2^-p. -/
def one (p : Nat) : Iv := Iv.pt ((2 ^ p : Nat) : Int)

/-- Σ z^(2k+1)/(2k+1), from the current power on. -/
def atanhLoop (p : Nat) (z2 : Iv) : Nat → Nat → Iv → Iv → Iv
  | 0, _, t, acc => acc.widen (2 * t.mag + 2)
  | n + 1, k, t, acc => atanhLoop p z2 n (k + 2) (Iv.mul p t z2) (acc.add (t.divN k))

/-- atanh z for |z| ≤ 1/3 plus rounding. -/
def atanhI (p : Nat) (z : Iv) : Iv := atanhLoop p (Iv.mul p z z) (p / 3 + 2) 1 z (Iv.pt 0)

/-- ln 2 = 2 atanh(1/3). -/
def ln2I (p : Nat) : Iv := (atanhI p ((one p).divN 3)).scale 2

/-- The exponent e and 2·atanh z with n/d = 2^e · (1+z)/(1−z), |z| ≤ 1/3. -/
def lnParts (p n d : Nat) : Int × Iv :=
  let e : Int := (Nat.log2 n : Int) - (Nat.log2 d : Int)
  let nn : Nat := if e < 0 then n * 2 ^ (-e).toNat else n
  let dd : Nat := if e < 0 then d else d * 2 ^ e.toNat
  let z : Iv := ⟨fdiv (((nn : Int) - dd) * ((2 ^ p : Nat) : Int)) ((nn : Int) + dd),
    cdiv (((nn : Int) - dd) * ((2 ^ p : Nat) : Int)) ((nn : Int) + dd)⟩
  (e, (atanhI p z).scale 2)

/-- log2 (n/d) for positive n and d. -/
def log2RatI (p n d : Nat) : Iv :=
  let (e, l) := lnParts p n d
  ((one p).scale e).add (Iv.div p l (ln2I p))

/-- ln (n/d). -/
def lnRatI (p n d : Nat) : Iv :=
  let (e, l) := lnParts p n d
  ((ln2I p).scale e).add l

/-- ln of an interval with positive ends; a nonpositive lower end gives a bound that decides nothing. -/
def lnI (p : Nat) (x : Iv) : Iv :=
  if x.lo ≤ 0 then ⟨-((2 ^ (2 * p) : Nat) : Int), (lnRatI p (max x.hi 1).toNat (2 ^ p)).hi⟩
  else ⟨(lnRatI p x.lo.toNat (2 ^ p)).lo, (lnRatI p x.hi.toNat (2 ^ p)).hi⟩

/-- log2 of an interval with positive ends. -/
def log2I (p : Nat) (x : Iv) : Iv :=
  if x.lo ≤ 0 then ⟨-((2 ^ (2 * p) : Nat) : Int), (log2RatI p (max x.hi 1).toNat (2 ^ p)).hi⟩
  else ⟨(log2RatI p x.lo.toNat (2 ^ p)).lo, (log2RatI p x.hi.toNat (2 ^ p)).hi⟩

/-- Σ x^k/k!, from the current term on. -/
def expLoop (p : Nat) (x : Iv) : Nat → Nat → Iv → Iv → Iv
  | 0, _, t, acc => acc.widen (2 * t.mag + 2)
  | n + 1, k, t, acc => expLoop p x n (k + 1) ((Iv.mul p t x).divN k) (acc.add t)

/-- e^x for |x| ≤ 1. -/
def expSmall (p : Nat) (x : Iv) : Iv := expLoop p x (p / 4 + 12) 1 (one p) (Iv.pt 0)

/-- 2^x for 0 ≤ x ≤ 1. -/
def exp2Small (p : Nat) (x : Iv) : Iv := expSmall p (Iv.mul p x (ln2I p))

/-- 2^(num · 2^-F) = m · 2^n with 1 ≤ m < 2: the exponent and the mantissa; p ≥ F. -/
def exp2Dyadic (p : Nat) (num : Int) (F : Nat) : Int × Iv :=
  let n := asr num F
  let fr := num - n * ((2 ^ F : Nat) : Int)
  (n, exp2Small p (Iv.pt (fr * ((2 ^ (p - F) : Nat) : Int))))

/-- e^x for any interval x: the exponent n of a power of two and the mantissa's interval. -/
def expI (p : Nat) (x : Iv) : Int × Iv :=
  let l2 := ln2I p
  let n := fdiv x.lo l2.hi
  (n, expSmall p ((x.sub (l2.scale n)).divN 4) |> fun y => Iv.mul p (Iv.mul p y y) (Iv.mul p y y))

/-- e^x as a fixed-point interval. -/
def expFix (p : Nat) (x : Iv) : Iv :=
  let (n, m) := expI p x
  if n < -((4 * p : Nat) : Int) then ⟨0, 1⟩ else m.shr (-n)

/-- Σ (−1)^j / ((2j+1) k^(2j+1)) in units of 2^-p. -/
def atanInvLoop (k : Nat) : Nat → Nat → Nat → Iv → Iv
  | 0, _, t, acc => acc.widen ((t : Int) + 2)
  | n + 1, j, t, acc =>
    let term : Iv := ⟨((t / (2 * j + 1) : Nat) : Int) - 1, ((t / (2 * j + 1) : Nat) : Int) + 2⟩
    atanInvLoop k n (j + 1) (t / (k * k)) (if j % 2 = 0 then acc.add term else acc.sub term)

/-- atan(1/k). -/
def atanInv (p k : Nat) : Iv := atanInvLoop k (p / (2 * Nat.log2 k) + 2) 0 (2 ^ p / k) (Iv.pt 0)

/-- π = 16 atan(1/5) − 4 atan(1/239). -/
def piI (p : Nat) : Iv := ((atanInv p 5).scale 16).sub ((atanInv p 239).scale 4)

/-- Alternating Taylor sum with step x²: the terms t, −t·x²/(k(k+1)), … -/
def altLoop (p : Nat) (x2 : Iv) : Nat → Nat → Iv → Iv → Iv
  | 0, _, t, acc => acc.widen (2 * t.mag + 2)
  | n + 1, k, t, acc => altLoop p x2 n (k + 2) ((Iv.mul p t x2).divN (k * (k + 1))).neg (acc.add t)

/-- sin x and cos x for 0 ≤ x ≤ 2. -/
def sinI (p : Nat) (x : Iv) : Iv := altLoop p (Iv.mul p x x) (p / 4 + 12) 2 x (Iv.pt 0)
def cosI (p : Nat) (x : Iv) : Iv := altLoop p (Iv.mul p x x) (p / 4 + 12) 1 (one p) (Iv.pt 0)

/-- Integer square root by Newton steps from above. -/
def isqrtLoop (n : Nat) : Nat → Nat → Nat
  | 0, x => x
  | f + 1, x => let y := (x + n / x) / 2; if y < x then isqrtLoop n f y else x
def isqrt (n : Nat) : Nat := if n = 0 then 0 else isqrtLoop n (Nat.log2 n + 4) (2 ^ (Nat.log2 n / 2 + 1))

/-- √x. -/
def sqrtI (p : Nat) (x : Iv) : Iv :=
  ⟨(isqrt (x.lo.toNat * 2 ^ p) : Int), (isqrt (x.hi.toNat * 2 ^ p) : Int) + 1⟩

/-- Σ 2^n v^(2n+1)/(2n+1)!!, from the current term on; valid once 2v²/(2n+3) ≤ 1/2. -/
def erfLoop (p : Nat) (v2 : Iv) : Nat → Nat → Iv → Iv → Iv
  | 0, _, t, acc => acc.widen (2 * t.mag + 2)
  | n + 1, k, t, acc => erfLoop p v2 n (k + 2) ((Iv.mul p t v2).scale 2 |>.divN k) (acc.add t)

/-- erf v for 0 < v ≤ 8, from the series with factor 2/√π · e^(−v²). -/
def erfI (p : Nat) (v : Iv) : Iv :=
  let v2 := Iv.mul p v v
  let s := erfLoop p v2 (p + 300) 3 v (Iv.pt 0)
  let c := Iv.div p ((one p).scale 2) (sqrtI p (piI p))
  Iv.mul p (Iv.mul p c (expFix p v2.neg)) s

/-- Precisions tried in turn. -/
def precisions : List Nat := [96, 192, 384, 768, 1536, 3072, 6144]

/-- RN of a real given by intervals (units 2^-p at precision p) scaled by 2^k: the nearest integer once both ends agree. -/
def rnLoop (f : Nat → Iv) (k : Nat) : List Nat → Int
  | [] => 0
  | p :: ps =>
    let x := f p
    let h := ((2 ^ p : Nat) : Int)
    let r (z : Int) : Int := fdiv (2 * (z * ((2 ^ k : Nat) : Int)) + h) (2 * h)
    if r x.lo = r x.hi then r x.lo else rnLoop f k ps

/-- RN of chapter 2, for a real that is no tie. -/
def rnReal (f : Nat → Iv) (k : Nat) : Int := rnLoop f k precisions

/-- ⌊x · 2^k⌋ of an irrational real given by intervals. -/
def floorLoop (f : Nat → Iv) (k : Int) : List Nat → Int
  | [] => 0
  | p :: ps =>
    let x := f p
    let fl (z : Int) : Int := asr (if 0 ≤ k then z * ((2 ^ k.toNat : Nat) : Int) else asr z (-k).toNat) p
    if fl x.lo = fl x.hi then fl x.lo else floorLoop f k ps

def floorReal (f : Nat → Iv) (k : Int) : Int := floorLoop f k precisions

/-- An exact log in units of 2^-64: its floor, and whether something lies above it. -/
structure LogVal where
  c      : Int
  sticky : Bool
  deriving DecidableEq, Repr

/-- The log n · 2^-k, k ≤ 64. -/
def LogVal.dyadic (n : Int) (k : Nat) : LogVal := ⟨n * ((2 ^ (64 - k) : Nat) : Int), false⟩

/-- log2 of a positive rational. -/
def LogVal.ofRat (n d : Nat) : LogVal :=
  let e : Int := (Nat.log2 n : Int) - (Nat.log2 d : Int)
  let exact : Bool := if 0 ≤ e then n == d * 2 ^ e.toNat else n * 2 ^ (-e).toNat == d
  if exact then ⟨e * ((2 ^ 64 : Nat) : Int), false⟩
  else ⟨floorReal (fun p => log2RatI p n d) 64, true⟩

/-- An irrational log given by intervals. -/
def LogVal.ofReal (f : Nat → Iv) : LogVal := ⟨floorReal f 64, true⟩

/-- An exact positive magnitude: a rational, or 2^(num · 2^-F). -/
inductive Mag where
  | rat (n d : Nat)
  | pow (num : Int) (F : Nat)
  deriving DecidableEq, Repr

/-- ⌊m · 2^k⌋ and whether something is discarded. -/
def Mag.scaled (m : Mag) (k : Int) : Nat × Bool :=
  match m with
  | .rat n d =>
    let nn := if 0 ≤ k then n * 2 ^ k.toNat else n
    let dd := if 0 ≤ k then d else d * 2 ^ (-k).toNat
    (nn / dd, nn % dd != 0)
  | .pow num F =>
    let n := asr num F
    let fr := num - n * ((2 ^ F : Nat) : Int)
    if fr = 0 then
      if 0 ≤ n + k then (2 ^ (n + k).toNat, false) else (0, true)
    else if n + k < -1 then (0, true)
    else ((floorReal (fun p => (exp2Dyadic p num F).2) (n + k)).toNat, true)

/-- ⌊log2 m⌋. -/
def Mag.exp (m : Mag) : Int :=
  match m with
  | .rat n d =>
    let e : Int := (Nat.log2 n : Int) - (Nat.log2 d : Int)
    let ge : Bool := if 0 ≤ e then d * 2 ^ e.toNat ≤ n else d ≤ n * 2 ^ (-e).toNat
    if ge then e else e - 1
  | .pow num F => asr num F

/-- The exact log of a magnitude. -/
def Mag.log : Mag → LogVal
  | .rat n d => LogVal.ofRat n d
  | .pow num F => LogVal.dyadic num F

end Sys2Proof.Machine
end

