-- ==== Sys2Proof/Machine/Lognum.lean ====
section
/-! DEFINITION. Logarithmic numbers (chapter 1): formats, decoding, rounding with its flags. -/

namespace Sys2Proof.Machine

/-- The sticky flags INF, NAR, UNF, OVF, INX from bit 4 to bit 0 (Table 8.2a). -/
abbrev Flags := BitVec 5
def fINX : Flags := 1
def fOVF : Flags := 2
def fUNF : Flags := 4
def fNAR : Flags := 8
def fINF : Flags := 16

/-- A logarithmic format (Table 1.1): width and fraction bits. -/
structure Fmt where
  w : Nat
  F : Nat
  deriving DecidableEq, Repr

def l32 : Fmt := ⟨32, 22⟩
def l16 : Fmt := ⟨16, 8⟩
def l8 : Fmt := ⟨8, 3⟩
def l8w : Fmt := ⟨8, 2⟩

/-- The logarithmic format of a type code (Table 6.5). -/
def fmtOf (t : Nat) : Fmt := if t = 8 then l32 else if t = 9 then l16 else if t = 10 then l8 else l8w

def Fmt.emin (f : Fmt) : Int := -((2 ^ (f.w - 3) : Nat) : Int)
def Fmt.emax (f : Fmt) : Int := ((2 ^ (f.w - 3) : Nat) : Int) - 1

/-- A decoded code (R22). -/
inductive Val where
  | zero
  | nar
  | num (s : Nat) (e : Int)
  deriving DecidableEq, Repr

/-- decode with k = 0 (R22): special values are read as canonical (R18). -/
def decodeLog (f : Fmt) (c : Nat) : Val :=
  let s := field c (f.w - 1) 1
  if field c (f.w - 2) 1 = 1 then (if s = 0 then .zero else .nar)
  else .num s (sext c (f.w - 2))

/-- Canonical special codes (Table 1.2). -/
def zeroCode (f : Fmt) : Nat := 2 ^ (f.w - 2)
def narCode (f : Fmt) : Nat := 2 ^ (f.w - 1) + 2 ^ (f.w - 2)

/-- code(s, m) of R25. -/
def codeOf (f : Fmt) (s : Nat) (m : Int) : Nat := s * 2 ^ (f.w - 1) + low m (f.w - 2)

/-- The canonical code of a value. -/
def Val.code (f : Fmt) : Val → Nat
  | .zero => zeroCode f
  | .nar => narCode f
  | .num s e => codeOf f s e

/-- A code with a special value made canonical (R35). -/
def canon (f : Fmt) (c : Nat) : Nat := (decodeLog f c).code f

/-- Rounding modes (Table 1.3). -/
inductive RMode where | rn | ra | rz | ru | rd | rs
  deriving DecidableEq, Repr

/-- The mode of an RND field; codes that name no mode never reach an instruction (R23). -/
def rmodeOf (n : Nat) : RMode :=
  match n with
  | 1 => .ra | 2 => .rz | 3 => .ru | 4 => .rd | 5 => .rs
  | _ => .rn

/-- Underflow of rndlog (R25). `mag` is the exact magnitude, read only under RS. -/
def underflow (s : Nat) (l : LogVal) (mag : Mag) (f : Fmt) (mode : RMode) (rho : Nat) : Nat × Flags :=
  let below : Bool := l.c < (f.emin * ((2 ^ (64 - f.F) : Nat) : Int)) - ((2 ^ 64 : Nat) : Int)
  let tozero : Bool :=
    match mode with
    | .rn => below
    | .ra => below
    | .rz => true
    | .ru => s == 1
    | .rd => s == 0
    | .rs => (mag.scaled ((f.w : Int) - fdiv f.emin ((2 ^ f.F : Nat) : Int))).1 + rho < 2 ^ f.w
  ((if tozero then zeroCode f else codeOf f s f.emin), fUNF ||| fINX)

/-- rndlog (R25): the code of sign s and exact log l in format f, with the flags it raises. -/
def rndlog (s : Nat) (l : LogVal) (mag : Mag) (f : Fmt) (mode : RMode) (rho : Nat) : Nat × Flags :=
  let sh := 64 - f.F
  let m0 := asr l.c sh
  let rem := low l.c sh
  let half := 2 ^ (sh - 1)
  let inexact : Bool := rem != 0 || l.sticky
  if mode = .rs ∧ m0 < f.emin then underflow s l mag f mode rho
  else
    let up : Bool :=
      match mode with
      | .rn => rem > half || (rem == half && (l.sticky || m0 % 2 == 1))
      | .ra => rem ≥ half
      | .rz => false
      | .ru => inexact && s == 0
      | .rd => inexact && s == 1
      | .rs => rem / 2 ^ (sh - f.w) + rho ≥ 2 ^ f.w
    let m := if up then m0 + 1 else m0
    if m > f.emax then (codeOf f s f.emax, fOVF ||| fINX)
    else if m < f.emin then underflow s l mag f mode rho
    else (codeOf f s m, if inexact then fINX else 0)

/-- rndlog of an exact log n · 2^-k. -/
def rndDyadic (s : Nat) (n : Int) (k : Nat) (f : Fmt) (mode : RMode) (rho : Nat) : Nat × Flags :=
  rndlog s (.dyadic n k) (.pow n k) f mode rho

/-- rndlog of a rational magnitude's exact log. -/
def rndRat (s n d : Nat) (f : Fmt) (mode : RMode) (rho : Nat) : Nat × Flags :=
  rndlog s (.ofRat n d) (.rat n d) f mode rho

/-- The order of values (R194); NaR has no key. -/
def logKey (f : Fmt) : Val → Option Int
  | .nar => none
  | .zero => some 0
  | .num s e =>
    let k := e + ((2 ^ (f.w - 3) : Nat) : Int) + 1
    some (if s = 0 then k else -k)

/-- LMIN and LMAX of two values (R194): NaR if either is NaR. -/
def logPick (f : Fmt) (max : Bool) (x y : Val) : Val :=
  match logKey f x, logKey f y with
  | some a, some b => if (if max then a < b else b < a) then y else x
  | _, _ => .nar

end Sys2Proof.Machine
end

