-- ==== Sys2Proof/Machine/Sums.lean ====
section
/-! DEFINITION. Sums (chapter 2): the addition procedures of each format, the tree format LT, and the fixed pairwise tree. -/

namespace Sys2Proof.Machine

/-- 2^d of a dyadic d = n · 2^-k ≥ 0, as an interval. -/
def pow2I (p : Nat) (n : Int) (k : Nat) : Iv :=
  let (e, m) := exp2Dyadic p n k
  m.shr (-e)

/-- sb(d) = log2(1 + 2^-d) at d = n · 2^-k. -/
def sbI (p n k : Nat) : Iv := log2I p ((one p).add (pow2I p (-(n : Int)) k))

/-- db(d) = log2(1 − 2^-d) at d > 0. -/
def dbI (p n k : Nat) : Iv := log2I p ((one p).sub (pow2I p (-(n : Int)) k))

/-- sb′(x) = −1/(1 + 2^x). -/
def sb1I (p n k : Nat) : Iv := Iv.div p ((one p).neg) ((one p).add (pow2I p n k))

/-- db′(x) = 1/(2^x − 1), x > 0. -/
def db1I (p n k : Nat) : Iv := Iv.div p (one p) ((pow2I p n k).sub (one p))

/-- sb″(x) = ln 2 · 2^x/(1 + 2^x)². -/
def sb2I (p n k : Nat) : Iv :=
  let y := pow2I p n k
  let z := (one p).add y
  Iv.mul p (ln2I p) (Iv.div p (Iv.div p y z) z)

/-- db″(x) = −ln 2 · 2^x/(2^x − 1)². -/
def db2I (p n k : Nat) : Iv :=
  let y := pow2I p n k
  let z := y.sub (one p)
  (Iv.mul p (ln2I p) (Iv.div p (Iv.div p y z) z)).neg

/-- seg32 (R38): the segment of sb (or db) that starts at x0 = n · 2^-22, has width 2^-wl and offset τ. -/
def seg32 (db : Bool) (n wl : Nat) (tau : Nat) : Int :=
  let b0 := if n = 0 then ((2 ^ 30 : Nat) : Int) else rnReal (fun p => if db then dbI p n 22 else sbI p n 22) 30
  let b1 := rnReal (fun p => (if db then db1I p n 22 else sb1I p n 22).shr wl) 30
  let b2 := rnReal (fun p => (if db then db2I p n 22 else sb2I p n 22).shr (2 * wl + 1)) 30
  let qq : Nat := tau * tau / 2 ^ 16
  b0 + asr (b1 * (tau : Int)) 16 + asr (b2 * (qq : Int)) 16

/-- First row of R39. -/
def sb32seg (dd : Nat) : Int := seg32 false (dd / 2 ^ 16 * 2 ^ 16) 6 (dd % 2 ^ 16)

/-- sbv for L32 (R39). -/
def sbv32 (dd : Nat) : Int :=
  if dd < 0x04000000 then sb32seg dd
  else if dd < 0x05000000 then asr (sb32seg (dd - 0x01000000)) 4
  else if dd < 0x06000000 then asr (sb32seg (dd - 0x02000000)) 8
  else 0

/-- K of R41. -/
def cancelK : Int := -567758570

/-- cancel32 (R41). -/
def cancel32 (dd : Nat) : Int :=
  let n := 15 - clz dd 16
  let mm := dd * 2 ^ (15 - n)
  let i := field mm 9 6
  let h := field mm 0 9
  let g0 := if i = 0 then 0 else rnReal (fun p => log2RatI p (64 + i) 64) 30
  let g1 := rnReal (fun p => Iv.div p ((one p).scale 64) ((ln2I p).scale ((64 + i : Nat) : Int))) 23
  let g2 := rnReal (fun p => Iv.div p ((one p).scale 2048) ((ln2I p).scale (((64 + i) * (64 + i) : Nat) : Int))) 20
  let lg := (n : Int) * 2 ^ 30 + g0 + asr (g1 * (h : Int)) 8 - asr (g2 * (h : Int) * (h : Int)) 20
  lg - 22 * 2 ^ 30 + cancelK - (dd : Int) * 2 ^ 7

/-- The row of R40 for 1 ≤ d < 16. -/
def db32seg (dd : Nat) : Int :=
  if dd = 0x00400000 then -((2 ^ 30 : Nat) : Int)
  else seg32 true (dd / 2 ^ 14 * 2 ^ 14) 8 (dd % 2 ^ 14 * 4)

/-- dbv for L32 (R40), dd ≥ 1. -/
def dbv32 (dd : Nat) : Int :=
  if dd ≤ 0xFFFF then cancel32 dd
  else if dd ≤ 0x003FFFFF then
    let p := 21 - clz dd 22
    seg32 true (dd / 2 ^ (p - 8) * 2 ^ (p - 8)) (30 - p) (dd % 2 ^ (p - 8) * 2 ^ (24 - p))
  else if dd ≤ 0x03FFFFFF then db32seg dd
  else if dd < 0x05000000 then asr (db32seg (dd - 0x01000000)) 4
  else if dd < 0x06000000 then asr (db32seg (dd - 0x02000000)) 8
  else 0

/-- sbv for L16 (R42). -/
def sbv16 (dd : Nat) : Int :=
  if dd < 4096 then
    let x0 := dd / 16 * 16
    let b0 := if x0 = 0 then ((2 ^ 16 : Nat) : Int) else rnReal (fun p => sbI p x0 8) 16
    let b1 := rnReal (fun p => (sb1I p x0 8).shr 4) 16
    b0 + asr (b1 * ((dd % 16 : Nat) : Int)) 4
  else 0

/-- dbv for L16 (R42). -/
def dbv16 (dd : Nat) : Int :=
  if dd < 256 then rnReal (fun p => dbI p dd 8) 16
  else if dd < 4096 then
    let x0 := dd / 4 * 4
    let b0 := if x0 = 256 then -((2 ^ 16 : Nat) : Int) else rnReal (fun p => dbI p x0 8) 16
    let b1 := rnReal (fun p => (db1I p x0 8).shr 6) 16
    b0 + asr (b1 * ((dd % 4 : Nat) : Int)) 2
  else 0

/-- A direct table of sb or db at d = dd · 2^-F, scaled by 2^k (R43, R44). A difference past 64 gives 0 for these scales. -/
def direct (db : Bool) (dd F k : Nat) : Int :=
  if dd = 0 then ((2 ^ k : Nat) : Int)
  else if dd = 2 ^ F ∧ db then -((2 ^ k : Nat) : Int)
  else if 64 * 2 ^ F ≤ dd then 0
  else rnReal (fun p => if db then dbI p dd F else sbI p dd F) k

/-- sbv and dbv by format (Table 2.1). -/
def sbv (f : Fmt) (dd : Nat) : Int :=
  if f.w = 32 then sbv32 dd else if f.w = 16 then sbv16 dd else direct false dd f.F (f.F + 8)
def dbv (f : Fmt) (dd : Nat) : Int :=
  if f.w = 32 then dbv32 dd else if f.w = 16 then dbv16 dd else direct true dd f.F (f.F + 8)

/-- addcore (R35), with INX as R37 states: an exact sum raises only what overflow or underflow raises, every other sum raises INX. -/
def addcore (sx : Nat) (ex : Int) (sy : Nat) (ey : Int) (f : Fmt) (mode : RMode) (rho : Nat) : Nat × Flags :=
  let (s, a, b) := if ex ≥ ey then (sx, ex, ey) else (sy, ey, ex)
  let dd := (a - b).toNat
  if sx ≠ sy ∧ dd = 0 then (zeroCode f, 0)
  else
    let v := if sx = sy then sbv f dd else dbv f dd
    let (c, fl) := rndDyadic s (a * 2 ^ 8 + v) (f.F + 8) f mode rho
    let exact : Bool := dd == 0 || (sx != sy && dd == 2 ^ f.F)
    (c, if exact then fl else fl ||| fINX)

/-- addlog (R35). -/
def addlog (x y : Nat) (f : Fmt) (mode : RMode) (rho : Nat) : Nat × Flags :=
  match decodeLog f x, decodeLog f y with
  | .nar, _ => (narCode f, 0)
  | _, .nar => (narCode f, 0)
  | .zero, v => (v.code f, 0)
  | v, .zero => (v.code f, 0)
  | .num sx ex, .num sy ey => addcore sx ex sy ey f mode rho

/-- neg (R36): flips S of a number, leaves zero and NaR canonical. -/
def negLog (f : Fmt) (x : Nat) : Nat :=
  match decodeLog f x with
  | .num s e => codeOf f (1 - s) e
  | v => v.code f

/-- Pairs of neighbours, a missing right leaf being zero (R47). -/
def pairUp {α : Type} (zero : α) (node : α → α → α × Flags) : List α → List α × Flags
  | [] => ([], 0)
  | [a] => let (x, f) := node a zero; ([x], f)
  | a :: b :: l =>
    let (x, f) := node a b
    let (r, g) := pairUp zero node l
    (x :: r, f ||| g)

/-- The fixed pairwise tree (R47) over ⌈log2 n⌉ levels; the last level uses `root`. The flags are the union of the nodes'. -/
def treeLoop {α : Type} (zero : α) (node root : α → α → α × Flags) : Nat → List α → Flags → α × Flags
  | 0, l, fl => (l.headD zero, fl)
  | n + 1, l, fl =>
    let (r, g) := pairUp zero (if n = 0 then root else node) l
    treeLoop zero node root n r (fl ||| g)

/-- ⌈log2 n⌉ for n ≥ 1. -/
def clog2 (n : Nat) : Nat := if n ≤ 1 then 0 else Nat.log2 (n - 1) + 1

def tree {α : Type} (zero : α) (node root : α → α → α × Flags) (l : List α) : α × Flags :=
  treeLoop zero node root (clog2 l.length) l 0

/-- The tree over a format with one mode for the inner nodes and one for the root (R49). -/
def treeLog (f : Fmt) (mode : RMode) (rho : Nat) (l : List Nat) : Nat × Flags :=
  let inner := if mode = .rs then RMode.rn else mode
  tree (zeroCode f) (fun a b => addlog a b f inner 0) (fun a b => addlog a b f mode rho) l

/-- ltnode (R44): values of LT with E in units of 2^-12; INX exactly when R37 calls the sum inexact. -/
def ltnode (x y : Val) : Val × Flags :=
  match x, y with
  | .nar, _ => (.nar, 0)
  | _, .nar => (.nar, 0)
  | .zero, v => (v, 0)
  | v, .zero => (v, 0)
  | .num sx ex, .num sy ey =>
    let (s, a, b) := if ex ≥ ey then (sx, ex, ey) else (sy, ey, ex)
    let dd := (a - b).toNat
    if sx ≠ sy ∧ dd = 0 then (.zero, 0)
    else
      let v := if dd < 65536 then direct (sx != sy) dd 12 12 else 0
      let exact : Bool := dd == 0 || (sx != sy && dd == 4096)
      (.num s (sat (a + v) (-(2 ^ 20)) (2 ^ 20 - 1)), if exact then 0 else fINX)

end Sys2Proof.Machine
end

