-- ==== Sys2Proof/Machine/Ieee.lean ====
section
/-! DEFINITION. IEEE and MX data at the boundary (R27 to R34), and conversion to integers (R204). -/

namespace Sys2Proof.Machine

/-- A boundary format (Table 1.5): exponent bits, fraction bits, bias; whether it has infinities, and NaN codes. -/
structure IFmt where
  eb   : Nat
  mb   : Nat
  bias : Nat
  inf  : Bool
  nan  : Bool
  deriving DecidableEq, Repr

/-- The boundary format of a type code (Table 6.5). -/
def ifmtOf (t : Nat) : IFmt :=
  match t with
  | 12 => ⟨8, 23, 127, true, true⟩
  | 13 => ⟨8, 7, 127, true, true⟩
  | 14 => ⟨5, 10, 15, true, true⟩
  | 15 => ⟨4, 3, 7, false, true⟩
  | 16 => ⟨5, 2, 15, true, true⟩
  | _ => ⟨2, 1, 1, false, false⟩

def IFmt.width (f : IFmt) : Nat := 1 + f.eb + f.mb

/-- An IEEE value: signed zero, infinity, NaN, or (−1)^s · n · 2^k. -/
inductive IVal where
  | zero (s : Nat)
  | inf (s : Nat)
  | nan
  | fin (s n : Nat) (k : Int)
  deriving DecidableEq, Repr

/-- Decoding of a boundary code (Table 1.5). -/
def decodeIeee (f : IFmt) (c : Nat) : IVal :=
  let s := field c (f.eb + f.mb) 1
  let e := field c f.mb f.eb
  let m := field c 0 f.mb
  let top := 2 ^ f.eb - 1
  if f.inf ∧ e = top then (if m = 0 then .inf s else .nan)
  else if !f.inf ∧ f.nan ∧ e = top ∧ m = 2 ^ f.mb - 1 then .nan
  else if e = 0 then
    if m = 0 then .zero s else .fin s m (1 - (f.bias : Int) - f.mb)
  else .fin s (2 ^ f.mb + m) ((e : Int) - f.bias - f.mb)

/-- Code of the largest finite magnitude, without sign. -/
def IFmt.maxCode (f : IFmt) : Nat :=
  if f.inf then (2 ^ f.eb - 1) * 2 ^ f.mb - 1
  else if f.nan then 2 ^ (f.eb + f.mb) - 2 else 2 ^ (f.eb + f.mb) - 1

def IFmt.infCode (f : IFmt) : Nat := (2 ^ f.eb - 1) * 2 ^ f.mb

/-- The positive canonical quiet NaN (R29). -/
def IFmt.nanCode (f : IFmt) : Nat :=
  if f.inf then (2 ^ f.eb - 1) * 2 ^ f.mb + 2 ^ (f.mb - 1) else 2 ^ (f.eb + f.mb) - 1

def IFmt.signed (f : IFmt) (s c : Nat) : Nat := s * 2 ^ (f.eb + f.mb) + c

/-- Overflow on export (R30); in an MX block every format saturates (R33). -/
def overflowIeee (f : IFmt) (satur : Bool) (s : Nat) (mode : RMode) : Nat × Flags :=
  let c :=
    if !f.inf || satur then f.maxCode
    else match mode with
      | .rn => f.infCode
      | .ra => f.infCode
      | .rz => f.maxCode
      | .rs => f.maxCode
      | .ru => if s = 0 then f.infCode else f.maxCode
      | .rd => if s = 1 then f.infCode else f.maxCode
  (f.signed s c, fOVF ||| fINX)

/-- Rounding of a positive magnitude into a boundary format (R29 to R31). The magnitude is scaled so that its last kept bit is the
units digit; ρ takes part through the top w discarded bits. Code arithmetic carries into the exponent. -/
def exportIeee (f : IFmt) (satur : Bool) (s : Nat) (m : Mag) (mode : RMode) (rho : Nat) : Nat × Flags :=
  let emin : Int := 1 - (f.bias : Int)
  let e0 := m.exp
  let e := if e0 < emin then emin else e0
  let w := f.width
  let sh : Int := (f.mb : Int) - e
  let (big, stk) := m.scaled (sh + 64)
  let k := big / 2 ^ 64
  let rem := big % 2 ^ 64
  let inexact : Bool := rem != 0 || stk
  let half := 2 ^ 63
  let up : Bool :=
    match mode with
    | .rn => rem > half || (rem == half && (stk || k % 2 == 1))
    | .ra => rem ≥ half
    | .rz => false
    | .ru => inexact && s == 0
    | .rd => inexact && s == 1
    | .rs => rem / 2 ^ (64 - w) + rho ≥ 2 ^ w
  let q := if up then k + 1 else k
  -- biased code: subnormals have exponent field 0; q = 2^mb is the smallest normal
  let code : Nat := (e - emin).toNat * 2 ^ f.mb + q
  let cut : Nat := (e - emin).toNat * 2 ^ f.mb + k
  -- a format that saturates does so for every value beyond its largest finite magnitude (R30, R33)
  let beyond : Bool := (!f.inf || satur) && cut == f.maxCode && inexact
  if code > f.maxCode || beyond then overflowIeee f satur s mode
  else
    let tiny : Bool := e0 < emin
    (f.signed s code, (if inexact then fINX else 0) ||| (if inexact && tiny then fUNF else 0))

/-- Export of a logarithmic value (R29), outside an MX block. -/
def exportLog (f : IFmt) (v : Val) (F : Nat) (mode : RMode) (rho : Nat) : Nat × Flags :=
  match v with
  | .zero => (0, 0)
  | .nar => if f.nan then (f.nanCode, 0) else (0, fNAR ||| fINX)
  | .num s e => exportIeee f false s (.pow e F) mode rho

/-- Magnitude n · 2^k. -/
def magOf (n : Nat) (k : Int) : Mag := if 0 ≤ k then .rat (n * 2 ^ k.toNat) 1 else .rat n (2 ^ (-k).toNat)

/-- Import into a logarithmic format (R28), with an extra power of two for MX scales and block scales (R21, R32). -/
def importLog (x : IVal) (extra : Int) (f : Fmt) (mode : RMode) (rho : Nat) : Nat × Flags :=
  match x with
  | .zero _ => (zeroCode f, 0)
  | .nan => (narCode f, fNAR)
  | .inf s => (codeOf f s f.emax, fINF)
  | .fin s n k =>
    match magOf n (k + extra) with
    | .rat a b => rndRat s a b f mode rho
    | .pow a b => rndDyadic s a b f mode rho

/-- IEEE to IEEE (Table 8.5). -/
def ieeeToIeee (g f : IFmt) (c : Nat) (mode : RMode) (rho : Nat) : Nat × Flags :=
  match decodeIeee g c with
  | .nan => if f.nan then (f.nanCode, 0) else (0, fNAR ||| fINX)
  | .inf s => if f.inf then (f.signed s f.infCode, 0) else (f.signed s f.maxCode, fOVF ||| fINX)
  | .zero s => (f.signed s 0, 0)
  | .fin s n k => exportIeee f false s (magOf n k) mode rho

/-- The exact value of a source rounded to an integer (R204): sign, magnitude, then saturation to the type's range. -/
def toInteger (lo hi : Int) (s : Nat) (m : Mag) (mode : RMode) : Int × Flags :=
  if m.exp ≥ 70 then (if s = 1 then lo else hi, fOVF ||| fINX)
  else
    let (big, stk) := m.scaled 64
    let k := big / 2 ^ 64
    let rem := big % 2 ^ 64
    let inexact : Bool := rem != 0 || stk
    let half := 2 ^ 63
    let up : Bool :=
      match mode with
      | .rn => rem > half || (rem == half && (stk || k % 2 == 1))
      | .ra => rem ≥ half
      | .ru => inexact && s == 0
      | .rd => inexact && s == 1
      | _ => false
    let q : Int := ((if up then k + 1 else k : Nat) : Int)
    let v := if s = 1 then -q else q
    if v < lo then (lo, fOVF ||| fINX) else if v > hi then (hi, fOVF ||| fINX)
    else (v, if inexact then fINX else 0)

/-- Range of an integer type (R182). -/
def intLo (t w : Nat) : Int := if t ≥ 4 then -((2 ^ (w - 1) : Nat) : Int) else 0
def intHi (t w : Nat) : Int := if t ≥ 4 then ((2 ^ (w - 1) : Nat) : Int) - 1 else ((2 ^ w : Nat) : Int) - 1

/-- An integer element read by its type's signedness (R175). -/
def intRead (t w x : Nat) : Int := if t ≥ 4 then sext x w else ((x % 2 ^ w : Nat) : Int)

/-- Block scale of logs that an engine or a drain writes (R264, R303): c is 2 for l8 and 6 for l8w. Logs in units of 2^-64. -/
def blockScale (c : Int) (logs : List LogVal) : Int :=
  match logs with
  | [] => 0
  | a :: l => sat (asr (l.foldl (fun m x => max m x.c) a.c) 64 - c) (-128) 127

/-- MX export of a block (R33): elements are values with exact log e · 2^-F. Answers the scale byte, the codes and the flags. -/
def mxExport (t : Nat) (F : Nat) (mode : RMode) (l : List Val) : Nat × List Nat × Flags :=
  let f := ifmtOf t
  let emax : Int := if t = 15 then 8 else if t = 16 then 15 else 2
  if l.any (· == .nar) then (0xFF, l.map fun _ => 0, fNAR)
  else
    let es := l.filterMap fun v => match v with | .num _ e => some e | _ => none
    match es with
    | [] => (0x7F, l.map fun _ => 0, 0)
    | a :: r =>
      let m := r.foldl max a
      let s := sat (asr m F - emax + 127) 0 254
      let cs := l.map fun v =>
        match v with
        | .num sg e => exportIeee f true sg (.pow (e - (s - 127) * ((2 ^ F : Nat) : Int)) F) mode 0
        | _ => (0, 0)
      (s.toNat, cs.map (·.1), cs.foldl (fun x y => x ||| y.2) 0)

end Sys2Proof.Machine
end

