-- ==== Sys2Proof/Machine/Memory.lean ====
section
/-! DEFINITION. Byte memory over one address space as a sorted list of the bytes that differ from zero, and the physical
address map (R220, Table 10.3, R409). -/

namespace Sys2Proof.Machine

/-- The byte at an address; an address not listed reads zero (log 3). -/
def memGet : List Host.Cell → Nat → Byte
  | [], _ => 0
  | (k, b) :: m, a => if k = a then b else if a < k then 0 else memGet m a

/-- Store one byte: zero removes the entry. -/
def memSet : List Host.Cell → Nat → Byte → List Host.Cell
  | [], a, b => if b = 0 then [] else [(a, b)]
  | (k, c) :: m, a, b =>
    if a < k then if b = 0 then (k, c) :: m else (a, b) :: (k, c) :: m
    else if k = a then if b = 0 then m else (a, b) :: m
    else (k, c) :: memSet m a b

/-- Every listed address is at least `lo`, addresses rise strictly and no listed byte is zero. -/
def memWfFrom : Nat → List Host.Cell → Bool
  | _, [] => true
  | lo, (k, b) :: m => decide (lo ≤ k) && (b != 0) && memWfFrom (k + 1) m

/-- The canonical form of a memory. -/
def Memory.wf (m : List Host.Cell) : Bool := memWfFrom 0 m

/-- Bytes from an address on. -/
def memRead (m : List Host.Cell) (a n : Nat) : List Byte := (span a n).map (memGet m)

/-- Store bytes from an address on. -/
def memWrite : List Host.Cell → Nat → List Byte → List Host.Cell
  | m, _, [] => m
  | m, a, b :: l => memWrite (memSet m a b) (a + 1) l

/-- Little-endian number of n bytes (R4). -/
def memNat (m : List Host.Cell) (a n : Nat) : Nat := ofBytes (memRead m a n)

/-- Store the low n bytes of a number (R4). -/
def memPut (m : List Host.Cell) (a n x : Nat) : List Host.Cell := memWrite m a (toBytes n x)

/-- Base of the window of node index d (Table 10.3). -/
def nodeWindow (d : Nat) : Nat := 0x400000000000 + d * 2 ^ 40

/-- NEN, NODEID and MEMBERS (Table 10.3a). -/
def Dev.nen (d : Dev) : Bool := wfield d.node 8 1 == 1
def Dev.nodeId (d : Dev) : Nat := wfield d.node 0 6
def Dev.member (d : Dev) (n : Nat) : Bool := n < 64 && d.nodemap.getLsbD n

/-- Capacity of the window of node index n, or none while it is unpopulated (R409). -/
def Dev.windowCap (d : Dev) (n : Nat) : Option Nat :=
  if !d.nen || !d.member n then none
  else if n = d.nodeId then some d.capacity
  else (d.nodeCap.find? fun (k, _) => k == n).map (·.2)

/-- Where a physical address lies: the device's own window, while it is populated, names its local memory (Table 10.3, R409). -/
def homeAddr (d : Dev) (pa : Nat) : Nat :=
  let w := nodeWindow d.nodeId
  if d.nen && d.member d.nodeId && w ≤ pa && pa < w + 2 ^ 40 then pa - w else pa

/-- Host memory (Table 10.3). -/
def isHost (pa : Nat) : Bool := 0x800000000000 ≤ pa && pa < 0x1000000000000

/-- Local GDDR 7, at its home address. -/
def isLocal (d : Dev) (pa : Nat) : Bool := homeAddr d pa < d.capacity

/-- The end of the populated piece of memory that holds an address (R226, R409). No two pieces adjoin. -/
def popEnd (d : Dev) (pa : Nat) : Option Nat :=
  let n := (pa - nodeWindow 0) / 2 ^ 40
  if isHost pa then some 0x1000000000000
  else if nodeWindow 0 ≤ pa && pa < nodeWindow 64 then
    match d.windowCap n with
    | some c => if pa < nodeWindow n + c then some (nodeWindow n + c) else none
    | none => none
  else if pa < d.capacity then some d.capacity else none

/-- Every byte of a range is populated memory. -/
def populated (d : Dev) (pa n : Nat) : Bool :=
  match popEnd d pa with
  | some e => pa + n ≤ e
  | none => false

/-- Every byte of a range lies in local GDDR 7. -/
def localRange (d : Dev) (pa n : Nat) : Bool :=
  isLocal d pa && homeAddr d pa + n ≤ d.capacity

end Sys2Proof.Machine
end

