-- ==== Sys2Proof/Machine/Operands.lean ====
section
/-! DEFINITION. Operand forms: lanes and masks of a group, register runs, immediates, and writing destinations (R126 to R130,
R149 to R152, R175, R176). A run is a list of rows, a row the values of the 32 lanes. -/

namespace Sys2Proof.Machine

def Group.lane (g : Group) (l : Nat) : Lane := getAt {} g.lanes l

/-- Live lanes (R150). -/
def Group.live (g : Group) : Mask := maskOf fun l => l < g.lanes.length && !(g.lane l).x

/-- Running lanes (R150). -/
def Group.running (g : Group) : Mask := maskOf fun l => l < g.lanes.length && !(g.lane l).x && !(g.lane l).p

/-- Helper lanes (R150). -/
def Group.helpers (g : Group) : Mask := maskOf fun l => l < g.lanes.length && !(g.lane l).x && (g.lane l).h

/-- The least of a list of addresses. -/
def minPc : List Nat → Option Nat
  | [] => none
  | a :: l =>
    match minPc l with
    | none => some a
    | some b => some (if a ≤ b then a else b)

/-- The issue address (R151). -/
def Group.issueAddr (g : Group) : Option Nat :=
  minPc ((lanesOf g.running).map fun l => (g.lane l).pc)

/-- The lanes at an address (R151). -/
def Group.lanesAt (g : Group) (a : Nat) : Mask := maskOf fun l => g.running.getLsbD l && (g.lane l).pc == a

/-- Predicate register n as a mask; P7 is true in every lane (R152). -/
def Group.pred (g : Group) (n : Nat) : Mask := if n = 7 then BitVec.allOnes 32 else getAt 0 g.p n

/-- active() among the lanes at the address (R152). -/
def Group.active (g : Group) (at_ : Mask) (c : Ctl) : Mask :=
  let p := g.pred c.pred.toNat
  at_ &&& (if c.pn then ~~~p else p)

/-- Row of vector register n (32 lanes). -/
def Group.vrow (g : Group) (n : Nat) : List Word :=
  let r := getAt [] g.v n
  (List.range 32).map (getAt 0 r)

def Group.sreg (g : Group) (n : Nat) : Word := getAt 0 g.s n

/-- A row that holds one value in every lane. -/
def rowOfWord (w : Word) : List Word := List.replicate 32 w

/-- Register j of a run (R127). -/
def Group.regRow (g : Group) (r : Reg) (j : Nat) : List Word :=
  match r.file with
  | .v => g.vrow (r.num.toNat + j)
  | .s => rowOfWord (g.sreg (r.num.toNat + j))

/-- The rows of a run. -/
def Group.run (g : Group) (r : Reg) : List (List Word) := (List.range (runLen r.wid)).map (g.regRow r)

/-- The immediate second source, sign-extended to 64 bits (R130). -/
def immWord : Src → Word
  | .reg _ => 0
  | .imm i => i.signExtend 64
  | .lit l => l.signExtend 64

/-- The second source as n rows: an immediate or a scalar of width 1 serves every register (R175). -/
def Group.src (g : Group) (c : Src) (n : Nat) : List (List Word) :=
  match c with
  | .reg r => if r.file == .s && r.wid == 0 then List.replicate n (rowOfWord (g.sreg r.num.toNat)) else g.run r
  | c => List.replicate n (rowOfWord (immWord c))

/-- The rows of the random operand run: vector registers, of the width of D (Table 6.7). -/
def Group.rand (g : Group) (f : Full) : List (List Word) :=
  match f.rand with
  | none => []
  | some r => g.run ⟨.v, r, f.d.wid⟩

/-- Value of register j, lane l, of a run. -/
def cell (rows : List (List Word)) (j l : Nat) : Word := getAt 0 (getAt [] rows j) l

/-- The parity marks left after a write of some lanes of a vector register (R370). -/
def Group.marksAfter (g : Group) (n : Nat) (m : Mask) : List (Res × Nat) :=
  g.vbad.filter fun (r, l) => !(r == .v n && m.getLsbD l)

/-- The parity marks left after a write of a register that has one parity unit (R370). -/
def Group.marksOff (g : Group) (r : Res) : List (Res × Nat) := g.vbad.filter fun (q, _) => q != r

/-- Write one vector register in the lanes of a mask. -/
def Group.putV (g : Group) (n : Nat) (m : Mask) (row : List Word) : Group :=
  let old := g.vrow n
  { g with
    v := setAt [] g.v n ((List.range 32).map fun l => if m.getLsbD l then getAt 0 row l else getAt 0 old l)
    vbad := g.marksAfter n m }

/-- Write one scalar register. -/
def Group.putS (g : Group) (n : Nat) (w : Word) : Group :=
  { g with s := setAt 0 g.s n w, vbad := g.marksOff (.s n) }

/-- Write a destination run: the lanes of active() of a vector run; a scalar run once, from the lowest lane (R176). -/
def Group.putRun (g : Group) (d : Reg) (m : Mask) : Nat → List (List Word) → Group
  | _, [] => g
  | j, row :: rows =>
    let g := match d.file with
      | .v => g.putV (d.num.toNat + j) m row
      | .s => match lowLane m with
        | none => g
        | some l => g.putS (d.num.toNat + j) (getAt 0 row l)
    g.putRun d m (j + 1) rows

/-- Write bit l of predicate n for the lanes of a mask. -/
def Group.putP (g : Group) (n : Nat) (m : Mask) (bits : Mask) : Group :=
  { g with p := setAt 0 g.p n ((getAt 0 g.p n &&& ~~~m) ||| (bits &&& m)), vbad := g.marksOff (.p n) }

/-- The operand of a lane-wise instruction: element width, sources by register and lane. -/
structure Srcs where
  b : List (List Word)
  c : List (List Word)
  d : List (List Word)
  r : List (List Word)

/-- The sources of layout F. -/
def Group.srcs (g : Group) (f : Full) : Srcs :=
  { b := g.run f.b, c := g.src f.c (runLen f.d.wid), d := g.run f.d, r := g.rand f }

/-- Layout F of a short form (R125): width 1, the file of K, no predicate; the type and mode follow the opcode. -/
def shortFull (f : Short3) (ty : BitVec 5) : Full :=
  { d := ⟨f.k, f.d.setWidth 8, 0⟩, b := ⟨f.k, f.b.setWidth 8, 0⟩, c := .reg ⟨f.k, f.c.setWidth 8, 0⟩
    xm := 0, ty, rnd := 0, rand := none, ctl := ⟨0, false, 7⟩ }

/-- Elements i and up of a run as one sequence: element i of width w lies in register i / (64 / w) (R200). -/
def runElem (rows : List (List Word)) (w l i : Nat) : Nat := elem (cell rows (i / (64 / w)) l) w (i % (64 / w))

end Sys2Proof.Machine
end

