-- ==== Sys2Proof/Machine/Flags.lean ====
section
/-! DEFINITION. The sticky flags of a group (R179, R180) and the results of element-wise instructions. -/

namespace Sys2Proof.Machine

/-- Raise flags: a union (R180). -/
def Group.raise (g : Group) (f : Flags) : Group := { g with flags := g.flags ||| f }

/-- Union of flags. -/
def unionFlags (l : List Flags) : Flags := l.foldl (· ||| ·) 0

/-- A lane value from its elements, with the union of their flags. -/
def buildElems (w : Nat) (f : Nat → Nat × Flags) : Word × Flags :=
  let l := (List.range (64 / w)).map f
  (ofElems w (l.map (·.1)), unionFlags (l.map (·.2)))

/-- The result of a lane-wise instruction by register of the run and lane (R175, R176, R180): a vector destination receives each
lane's value, a scalar destination that of the lowest lane; the flags are those of every lane that is not a helper. -/
def Group.lanewise (g : Group) (d : Reg) (act help : Mask) (f : Nat → Nat → Word × Flags) : Group :=
  let rows := (List.range (runLen d.wid)).map fun j =>
    (List.range 32).map fun l => if act.getLsbD l then f j l else ((0 : Word), (0 : Flags))
  let raised := rows.flatMap fun row => (lanesOf (act &&& ~~~help)).map fun l => (getAt (0, 0) row l).2
  (g.putRun d act 0 (rows.map fun row => row.map (·.1))).raise (unionFlags raised)

end Sys2Proof.Machine
end

