-- ==== Sys2Proof/Machine/Consist.lean ====
section
/-! DEFINITION. The consistency model (chapter 13): the writes that have arrived at their home L2, merging, and what plain loads and
stores do. A write is named by its position in `State.writes`, a release by its position in `State.rels`. -/

namespace Sys2Proof.Machine

/-- Union of two sets of identities. -/
def uni (a b : List Nat) : List Nat := a ++ b.filter fun x => !a.contains x

/-- The writes to the word at an address, oldest first, with their identities. -/
def writesTo (s : State) (word : Nat) : List (Nat × WriteRec) :=
  ((List.range s.writes.length).zip s.writes).filter fun (_, w) => w.word == word

/-- Lexicographic order of writer indices (R317). -/
def lexLt : List Nat → List Nat → Bool
  | [], _ => false
  | _ :: _, [] => false
  | a :: l, b :: m => a < b || (a == b && lexLt l m)

/-- Writer index of a write for a party of context `rd`: groups of another context are foreign (Table 13.4). -/
def rank (rd : Option Nat) (w : WriteRec) : Nat × List Nat :=
  match rd with
  | some c => if (w.cls == 1 || w.cls == 2) && w.ctx != c then (0, [64 + w.ctx] ++ w.idx.drop (w.idx.length - 1)) else (w.cls, w.idx)
  | none => (w.cls, w.idx)

def rankLt (a b : Nat × List Nat) : Bool := a.1 < b.1 || (a.1 == b.1 && lexLt a.2 b.2)

/-- The latest writes of a set: those that precede no other write of it (R316, step 1). -/
def latest (l : List (Nat × WriteRec)) : List (Nat × WriteRec) :=
  l.filter fun (i, _) => !l.any fun (_, w) => w.prec.contains i

/-- The write whose value is the merged value (R316, step 2). -/
def winner (rd : Option Nat) (l : List (Nat × WriteRec)) : Option (Nat × WriteRec) :=
  (latest l).foldl (fun best x =>
    match best with
    | none => some x
    | some b => if rankLt (rank rd b.2) (rank rd x.2) then some x else some b) none

/-- The current value of a word at its home L2. -/
def wordNow (s : State) (word : Nat) : BitVec 32 := BitVec.ofNat 32 (memNat s.mem word 4)

/-- What a plain load of a word returns to a party with a view (R315). `rd` is the party's context. -/
def plainWord (s : State) (rd : Option Nat) (v : MemView) (word : Nat) : BitVec 32 :=
  match writesTo s word with
  | [] => wordNow s word
  | (i, w) :: l =>
    let all := (i, w) :: l
    match (all.filter fun x => v.quantum.contains x.1).getLast? with
    | some x => x.2.val
    | none =>
      match winner rd (all.filter fun x => v.own.contains x.1 || v.reached.contains x.1) with
      | some x => x.2.val
      | none => w.old

/-- One byte of a word. -/
def wordByte (w : BitVec 32) (k : Nat) : Byte := w.extractLsb' (8 * k) 8

/-- A byte as a plain load returns it. -/
def plainByte (s : State) (rd : Option Nat) (v : MemView) (a : Nat) : Byte :=
  wordByte (plainWord s rd v (a / 4 * 4)) (a % 4)

/-- Bytes as plain loads return them. -/
def plainBytes (s : State) (rd : Option Nat) (v : MemView) (a n : Nat) : List Byte := (span a n).map (plainByte s rd v)

/-- Who writes: party, writer class and index, and the context of its addresses. -/
structure Writer where
  party : Party
  cls   : Nat
  idx   : List Nat
  ctx   : Nat

/-- A write of a whole word arrives at its home L2: it is recorded, it joins the party's order, and the word takes the merged
value of all writes to it (R316). The position in the record ends the index, so that equal indices rank by arrival. -/
def writeWord (s : State) (v : MemView) (k : Writer) (sync : Option (Scope × List Nat)) (extra : List Nat)
    (va word : Nat) (val : BitVec 32) : State × MemView :=
  let n := s.writes.length
  let w : WriteRec :=
    { word, ctx := k.ctx, va, val, old := wordNow s word, party := k.party, cls := k.cls, idx := k.idx ++ [n]
      prec := uni v.know extra, sync }
  let s := { s with writes := s.writes ++ [w] }
  let now := match winner none (writesTo s word) with
    | some x => x.2.val
    | none => val
  ({ s with mem := memPut s.mem word 4 now.toNat },
   { v with own := v.own ++ [n], quantum := v.quantum ++ [n], know := uni v.know extra ++ [n] })

/-- A byte as the load of a party that stores returns it (R316): to a peer the writes rank as at their home L2, and the host reads the current
value. -/
def ownByte (s : State) (v : MemView) (k : Writer) (a : Nat) : Byte :=
  match k.party with
  | .host => memGet s.mem a
  | .peer _ => plainByte s none v a
  | _ => plainByte s (some k.ctx) v a

/-- The bytes a store leaves in a word: those it writes, and elsewhere what the party's load returns (R316). -/
def wordAfter (s : State) (v : MemView) (k : Writer) (pa : Nat) (bytes : List Byte) (word : Nat) : BitVec 32 :=
  BitVec.ofNat 32 (ofBytes ((List.range 4).map fun i =>
    if pa ≤ word + i && word + i < pa + bytes.length then getAt 0 bytes (word + i - pa)
    else ownByte s v k (word + i)))

/-- Store bytes at a physical address whose virtual address is va, word by word in ascending order. -/
def storeBytes (s : State) (v : MemView) (k : Writer) (sync : Option (Scope × List Nat)) (va pa : Nat) (bytes : List Byte) :
    State × MemView :=
  if bytes.isEmpty then (s, v) else
  (List.range ((pa + bytes.length - 1) / 4 - pa / 4 + 1)).foldl (fun (s, v) i =>
    let word := (pa / 4 + i) * 4
    writeWord s v k sync [] (va + word - pa) word (wordAfter s v k pa bytes word)) (s, v)

/-- Earlier atomic writes of a word with all that precedes them (R314). -/
def atomicBefore (s : State) (word : Nat) : List Nat :=
  (writesTo s word).foldl (fun acc (i, w) => if w.cls == 3 && w.sync.isSome then uni acc (w.prec ++ [i]) else acc) []

/-- The write of an operation performed at the home L2 (class 3, R317), for whole words. -/
def atomicWrite (s : State) (v : MemView) (p : Party) (ctx : Nat) (sc : Scope) (va pa : Nat) (bytes : List Byte) :
    State × MemView :=
  (List.range (bytes.length / 4)).foldl (fun (s, v) i =>
    writeWord s v ⟨p, 3, [], ctx⟩ (some (sc, v.rels)) (atomicBefore s (pa + 4 * i)) (va + 4 * i) (pa + 4 * i)
      (BitVec.ofNat 32 (ofBytes ((bytes.drop (4 * i)).take 4)))) (s, v)

/-- Clear the poison marks of the sectors that the ranges (address, length) write in full (R372). -/
def clearPoison (s : State) (ranges : List (Nat × Nat)) : State :=
  { s with poison := s.poison.filter fun n =>
      !(span (32 * n) 32).all fun a => ranges.any fun (lo, len) => lo ≤ a && a < lo + len }

/-- The first poisoned address of a range, if any. -/
def poisonIn (s : State) (pa n : Nat) : Option Nat :=
  if s.poison.isEmpty then none else (span pa n).find? fun a => s.poison.contains (a / 32)

/-- Mark the sectors of a range. -/
def markPoison (s : State) (pa n : Nat) : State :=
  if n = 0 then s else { s with poison := uni s.poison (span (pa / 32) ((pa + n - 1) / 32 - pa / 32 + 1)) }

-- Parts of the state -------------------------------------------------------------------------------------------------------------

def State.ctx (s : State) (c : Nat) : Ctx := getAt {} s.ctxs c
def State.group (s : State) (g : Nat) : Group := getAt {} s.groups g
def State.team (s : State) (t : Nat) : Team := getAt {} s.teams t
def State.launch (s : State) (l : Nat) : Launch := getAt {} s.launches l
def State.core (s : State) (c : Nat) : Core := getAt {} s.cores c
def State.setCtx (s : State) (c : Nat) (x : Ctx) : State := { s with ctxs := setAt {} s.ctxs c x }
def State.setGroup (s : State) (g : Nat) (x : Group) : State := { s with groups := setAt {} s.groups g x }
def State.setTeam (s : State) (t : Nat) (x : Team) : State := { s with teams := setAt {} s.teams t x }
def State.setLaunch (s : State) (l : Nat) (x : Launch) : State := { s with launches := setAt {} s.launches l x }
def State.setCore (s : State) (c : Nat) (x : Core) : State := { s with cores := setAt {} s.cores c x }

end Sys2Proof.Machine
end

