-- ==== Sys2Proof/Machine/Translate.lean ====
section
/-! DEFINITION. Address translation: the heap window, the page walk, cached translations, and the checks of a global access
(R223 to R228). -/

namespace Sys2Proof.Machine

/-- What an access needs of its page. -/
inductive Need where | load | store | fetch
  deriving DecidableEq, Repr

/-- A contiguous piece of an access: virtual address, physical address at home, length, and log2 of the size of the page that translated
it, 0 inside the heap window. -/
structure Piece where
  va  : Nat
  pa  : Nat
  len : Nat
  sh  : Nat := 0
  deriving DecidableEq, Repr

/-- One access to check. `heap` is the latched triple HEAPBASE, HEAPLEN, HEAPOFF; none for a party that has no window. `team` is the team
whose L1 TLB pair and cluster translate it; none for a party that stands in no cluster. -/
structure Access where
  ctx  : Nat
  heap : Option (Word × Word × Word)
  need : Need
  va   : Nat
  n    : Nat
  team : Option Nat := none

/-- A page table entry, read once from L2 (R226). -/
def pteAt (s : State) (table idx : Nat) : Nat := memNat s.mem (homeAddr s.dev table + 8 * idx) 8

/-- The tests of R226 on an entry of a level, in order: a fault kind, the next table, or a leaf (page size, base). -/
inductive Pte where
  | bad (kind : Nat)
  | table (pa : Nat)
  | leaf (sh pa : Nat) (x w : Bool)

def classify (s : State) (level idx e : Nat) : Pte :=
  let v := field e 0 1 = 1
  let leaf := field e 3 1 = 1
  let c64 := field e 4 1 = 1
  let pa := field e 12 40 * 4096
  let sh := if level = 2 then 30 else if level = 1 then 21 else if c64 then 16 else 12
  if !v then .bad 1
  else if field e 52 12 ≠ 0 || field e 5 7 ≠ 0 then .bad 5
  else if (level ≥ 3 && leaf) || (level = 0 && !leaf) then .bad 5
  else if leaf && pa % 2 ^ sh ≠ 0 then .bad 5
  else if c64 && (level ≥ 1 || idx % 16 ≠ 0) then .bad 5
  else if leaf then
    if populated s.dev pa (2 ^ sh) then .leaf sh pa (field e 2 1 = 1) (field e 1 1 = 1) else .bad 5
  else .table pa

/-- The entry of a table that a walk reads now: its number and value, or a fault kind with the address it concerns. Kind 0x10 is poison in
the entry read. -/
def entryNow (s : State) (va level table : Nat) : Except (Nat × Nat) (Nat × Nat) :=
  let i := field va (12 + 9 * level) 9
  let read := fun k => (pteAt s table k, poisonIn s (homeAddr s.dev table + 8 * k) 8)
  if !localRange s.dev table 4096 then .error (5, va) else
  let k := if level = 0 && field (read (i / 16 * 16)).1 4 1 = 1 then i / 16 * 16 else i
  match (read k).2 with
  | some a => .error (0x10, a)
  | none => .ok (k, (read k).1)

/-- Whether something old is used, where there is a choice: as asked, or by the n-th free choice (R227, log 8). -/
def useOld (ask : Option Bool) (n : Nat) : Nat × Bool :=
  match ask with
  | some b => (n, b)
  | none => (n + 1, Config.pick n)

/-- The entry a walk uses, where a walk cache may hold another value. -/
def entryUsed (s : State) (ask : Option Bool) (held : List WalkEnt) (va level table n : Nat) : Nat × Except (Nat × Nat) (Nat × Nat) :=
  let now := entryNow s va level table
  let i := field va (12 + 9 * level) 9
  match held.find? fun w => w.level == level && w.va == va / 2 ^ (12 + 9 * level) && (match now with | .ok (_, e) => e != w.e | .error _ => true) with
  | some w => let (n, old) := useOld ask n; (n, if old then .ok (i, w.e) else now)
  | none => (n, now)

/-- The walk from a level's table down (R225, R226), with the entries of levels 1 to 4 a walk cache holds: the choices used, the entries
met, and the translation or a fault kind with the address it concerns. -/
def walk (s : State) (c : Nat) (ask : Option Bool) (held : List WalkEnt) (va : Nat) : Nat → Nat → Nat → Nat × List WalkEnt × Except (Nat × Nat) Xlat
  | level, table, n =>
    match entryUsed s ask held va level table n with
    | (n, .error e) => (n, [], .error e)
    | (n, .ok (k, e)) =>
      let met : List WalkEnt := if level = 0 then [] else [⟨c, level, va / 2 ^ (12 + 9 * level), e⟩]
      match classify s level k e, level with
      | .bad kind, _ => (n, [], .error (kind, va))
      | .leaf sh pa x w, _ => (n, met, .ok { va := va / 2 ^ sh * 2 ^ sh, sh, pa, x, w })
      | .table pa, l + 1 =>
        let (n, ws, r) := walk s c ask held va l pa n
        (n, met ++ ws, r)
      | .table _, 0 => (n, [], .error (5, va))

/-- The walk of a context's pages (Table 10.7). -/
def walkCtx (s : State) (c : Nat) (ask : Option Bool) (held : List WalkEnt) (va n : Nat) : Nat × List WalkEnt × Except (Nat × Nat) Xlat :=
  let root := (s.ctx c).ptroot
  if wfield root 0 1 = 1 then walk s c ask held va 4 (wfield root 12 40 * 4096) n else (n, [], .error (1, va))

/-- A cached translation holds an address. -/
def Xlat.holds (e : Xlat) (va : Nat) : Bool := e.va ≤ va && va < e.va + 2 ^ e.sh

/-- What the tables give now for an address. -/
def xlatNow (s : State) (c va : Nat) : Except (Nat × Nat) Xlat := (walkCtx s c none [] va 0).2.2

/-- The stale cached translation that is used, if any (R227). -/
def pickOld (ask : Option Bool) (n : Nat) : List Xlat → Nat × Option Xlat
  | [] => (n, none)
  | e :: l => let (n, old) := useOld ask n; if old then (n, some e) else pickOld ask n l

/-- Fill one entry of the pair of a team slot: set 2s + bit sh of the address, eight ways; the way a full set loses is free (R116, R227). -/
def fillPair (n : Nat) (l : List Xlat) (e : Xlat) : List Xlat :=
  if l.contains e then l else
  let set := l.filter fun x => field x.va x.sh 1 == field e.va e.sh 1
  if set.length < 8 then l ++ [e] else (l.filter (· != getAt e set (Config.evict n % 8))) ++ [e]

/-- Fill one entry of a cluster's L2 TLB of 4,096 entries, any of which may go once it is full (R227; DESIGN CHOICE, log 69). -/
def fillCluster (n c : Nat) (l : List (Nat × Xlat)) (e : Xlat) : List (Nat × Xlat) :=
  if l.contains (c, e) then l
  else if l.length < 4096 then l ++ [(c, e)]
  else (l.filter (· != getAt (c, e) l (Config.evict n % 4096))) ++ [(c, e)]

def State.cluster (s : State) (k : Nat) : Cluster := getAt {} s.clusters k
def State.setCluster (s : State) (k : Nat) (x : Cluster) : State := { s with clusters := setAt {} s.clusters k x }

/-- The cluster of a team's core. -/
def clusterOf (s : State) (t : Nat) : Nat := (s.team t).core / 4

/-- The translations and upper entries cached for a party of a context (R227): a team's pair with its cluster's L2 TLB and walk cache, or
what is kept for the parties that stand in no cluster. -/
def cachedFor (s : State) (c : Nat) (team : Option Nat) : List Xlat × List WalkEnt :=
  match team with
  | none => ((s.ctx c).tlb, [])
  | some t =>
    let k := s.cluster (clusterOf s t)
    ((s.team t).tlb ++ (k.tlb.filter fun p => p.1 == c).map (·.2), k.walks.filter fun w => w.ctx == c)

/-- Keep a translation and the upper entries its walk met. -/
def cacheFor (s : State) (c : Nat) (team : Option Nat) (e : Xlat) (ws : List WalkEnt) : State :=
  match team with
  | none =>
    let x := s.ctx c
    if x.tlb.contains e then s else s.setCtx c { x with tlb := x.tlb ++ [e] }
  | some t =>
    let n := s.fresh
    let x := s.team t
    let k := clusterOf s t
    let y := s.cluster k
    let pair := fillPair n x.tlb e
    let l2 := fillCluster n c y.tlb e
    let walks := y.walks ++ ws.filter fun w => !y.walks.contains w
    let s := if pair = x.tlb then s else s.setTeam t { x with tlb := pair }
    let s := if l2 = y.tlb && walks = y.walks then s else s.setCluster k { tlb := l2, walks }
    if pair.length = x.tlb.length + 1 && l2.length = y.tlb.length + 1 || pair = x.tlb && l2 = y.tlb then s else { s with fresh := n + 1 }

/-- The translation of one page: a cached translation that the tables no longer hold, or a walk's answer, which is then cached (R227). -/
def translateAs (s : State) (ask : Option Bool) (c : Nat) (team : Option Nat) (va : Nat) : State × Except (Nat × Nat) Xlat :=
  let (tlb, held) := cachedFor s c team
  let now := xlatNow s c va
  let olds := tlb.filter fun e => e.holds va && (match now with | .ok n => n != e | .error _ => true)
  match pickOld ask s.fresh olds with
  | (n, some e) => (cacheFor { s with fresh := n } c team e [], .ok e)
  | (n, none) =>
    match walkCtx s c ask held va n with
    | (n, ws, .ok e) => (cacheFor { s with fresh := n } c team e ws, .ok e)
    | (n, _, .error k) => ({ s with fresh := n }, .error k)

def translatePage (s : State) (c : Nat) (team : Option Nat) (va : Nat) : State × Except (Nat × Nat) Xlat := translateAs s none c team va

/-- Nothing is cached of a page, nor an upper entry that its tables no longer hold: only what the tables give now can translate it. -/
def onlyNow (s : State) (c : Nat) (team : Option Nat) (va : Nat) : Bool :=
  let (tlb, held) := cachedFor s c team
  tlb.all (fun e => !e.holds va) && (walkCtx s c none held va 0).1 == 0

/-- What a translation settles for the later pages of the same instruction (R142): whether it is one the tables no longer hold; nothing where the
only one cached is what the tables give now. The state is the one before the translation. -/
def settles (s : State) (c : Nat) (team : Option Nat) (va : Nat) (e : Xlat) : Option Bool :=
  let (tlb, held) := cachedFor s c team
  match xlatNow s c va with
  | .ok n =>
    if n != e then some true
    else if tlb.contains n && (tlb.all fun e => !e.holds va || n == e) && (walkCtx s c none held va 0).1 == 0 then none
    else some false
  | .error _ => some true

/-- Permission of a leaf (R226). -/
def Xlat.allows (e : Xlat) : Need → Bool
  | .load => true
  | .store => e.w
  | .fetch => e.x

/-- Pieces of an access outside the window, page by page: the walk and the permission of a page come before the next page's, so the lowest page
that fails gives the access its kind and record (DESIGN CHOICE, log 68). -/
def checkPages (s : State) (a : Access) : Nat → Nat → Nat → State × Except (Nat × Nat) (List Piece)
  | 0, _, _ => (s, .ok [])
  | fuel + 1, va, n =>
    if n = 0 then (s, .ok []) else
    if 2 ^ 57 ≤ va then (s, .error (3, va)) else
    let len := min n (4096 - va % 4096)
    match translatePage s a.ctx a.team va with
    | (s, .error k) => (s, .error k)
    | (s, .ok e) =>
      if !e.allows a.need then (s, .error (2, va)) else
      match checkPages s a fuel (va + len) (n - len) with
      | (s, .ok l) => (s, .ok ({ va, pa := homeAddr s.dev (e.pa + va % 2 ^ e.sh), len, sh := e.sh } :: l))
      | r => r

/-- Heap window classification (R224): none outside, otherwise a fault kind or the piece. -/
def checkHeap (s : State) (a : Access) : Option (Except (Nat × Nat) (List Piece)) :=
  match a.heap with
  | none => none
  | some (hb, hl, ho) =>
    let base := wfield hb 21 36 * 2 ^ 21
    let lim := base + wfield hl 21 31 * 2 ^ 21
    if wfield hb 0 1 = 0 then none
    else if base ≤ a.va && a.va + a.n ≤ lim then
      let pa := (a.va + wfield ho 21 43 * 2 ^ 21) % 2 ^ 52
      some (if !localRange s.dev pa a.n then .error (5, a.va)
        else if a.need == .store && wfield hl 0 1 == 0 then .error (2, a.va)
        else .ok [{ va := a.va, pa := homeAddr s.dev pa, len := a.n }])
    else if a.va < lim && a.va + a.n > base then some (.error (4, a.va))
    else none

/-- A gated region that forbids writing takes in some byte of the access (R71, R309). -/
def writeBarred (s : State) (c va n : Nat) : Bool :=
  (s.ctx c).regions.any fun r => !r.wr && r.base < va + n && va < r.base + r.len

/-- The checks of R228 on one access, in order: a fault kind with the address whose page fails, or the pieces. -/
def checkAccess (s : State) (a : Access) : State × Except (Nat × Nat) (List Piece) :=
  let barred (r : State × Except (Nat × Nat) (List Piece)) : State × Except (Nat × Nat) (List Piece) :=
    match r with
    | (s, .ok l) => if a.need == .store && writeBarred s a.ctx a.va a.n then (s, .error (6, a.va)) else (s, .ok l)
    | r => r
  if 2 ^ 57 ≤ a.va then (s, .error (3, a.va))
  else match checkHeap s a with
    | some r => barred (s, r)
    | none => barred (checkPages s a (a.n / 4096 + 2) a.va a.n)

/-- A fault kind resolved by an immediate trap (Table 10.9). -/
def immediateKind (k : Nat) : Bool := 3 ≤ k && k ≤ 6

/-- Bytes at the pieces of an access as plain loads of a party return them. -/
def readPieces (s : State) (rd : Option Nat) (v : MemView) (l : List Piece) : List Byte :=
  l.flatMap fun p => plainBytes s rd v p.pa p.len

/-- The same from the current values at L2. -/
def readNow (s : State) (l : List Piece) : List Byte := l.flatMap fun p => memRead s.mem p.pa p.len

/-- Store bytes over the pieces of an access. -/
def writePieces (s : State) (v : MemView) (k : Writer) (sync : Option (Scope × List Nat)) : List Piece → List Byte → State × MemView
  | [], _ => (s, v)
  | p :: l, bytes =>
    let (s, v) := storeBytes s v k sync p.va p.pa (bytes.take p.len)
    writePieces s v k sync l (bytes.drop p.len)

/-- The first poisoned address of the pieces. -/
def poisonPieces (s : State) (l : List Piece) : Option Nat := l.findSome? fun p => poisonIn s p.pa p.len

end Sys2Proof.Machine
end

