-- ==== Sys2Proof/Machine/Views.lean ====
section
/-! DEFINITION. What reaches whom (chapter 13): the regions that writes lie in, parties and scopes, releases and acquires, and what a
synchronising read observes. -/

namespace Sys2Proof.Machine

-- Regions -------------------------------------------------------------------------------------------------------------

/-- The live gated region of a context that holds an address (R309). -/
def regionOf (s : State) (ctx va : Nat) : Option Region :=
  (s.ctx ctx).regions.find? fun r => r.base ≤ va && va < r.base + r.len

/-- Where an address of a context stands at home, by the context's heap registers and page tables as they are. -/
def homeOf (s : State) (c va : Nat) : Option Nat :=
  let x := s.ctx c
  match checkHeap s { ctx := c, heap := some (x.heapbase, x.heaplen, x.heapoff), need := .load, va, n := 1 } with
  | some (.ok l) => l.head?.map (·.pa)
  | some (.error _) => none
  | none =>
    match xlatNow s c va with
    | .ok e => some (homeAddr s.dev (e.pa + va % 2 ^ e.sh))
    | .error _ => none

/-- Some byte of n bytes at an address of a context stands in a word. -/
def mapsTo (s : State) (c lo n word : Nat) : Bool :=
  n != 0 && (List.range ((lo + n - 1) / 4096 - lo / 4096 + 1)).any fun k =>
    let va := (lo / 4096 + k) * 4096 + word % 4096
    lo < va + 4 && va < lo + n && homeOf s c va == some word

/-- The gated region of a context in which a write lies. One made at the context's own addresses lies where its address does; a write of the host, a
peer or another context lies where the context's addresses reach its word (R309, log 50). -/
def WriteRec.region (s : State) (c : Nat) (w : WriteRec) : Option Region :=
  if w.ctx = c then regionOf s c w.va else (s.ctx c).regions.find? fun r => mapsTo s c r.base r.len w.word

/-- Whether what a release or acquire acts on takes in a write (R312). -/
def covers (s : State) (a : Acts) (i : Nat) : Bool :=
  match s.writes[i]? with
  | none => false
  | some w =>
    match a with
    | .every => true
    | .ambient c => (w.region s c).isNone
    | .gate c g => match w.region s c with | some r => r.gate == g | none => false
    | .bytes c ranges => ranges.any fun (lo, n) =>
      if w.ctx = c then n != 0 && lo < w.va + 4 && w.va < lo + n else mapsTo s c lo n w.word

-- Parties and scopes --------------------------------------------------------------------------------------------------

/-- The group a party belongs to. -/
def Party.group? : Party → Option Nat
  | .grp g => some g
  | .eng g _ => some g
  | _ => none

def Party.onDevice : Party → Bool
  | .host => false
  | .peer _ => false
  | _ => true

/-- A peer device that the node register names and whose own map names this device (Table 13.1, R409). -/
def Party.isMember (d : Dev) : Party → Bool
  | .peer p => d.nen && d.member p.dev && d.named.getLsbD p.dev
  | _ => false

/-- Two groups stand in one crew. -/
def sameCrew (s : State) (g h : Nat) : Bool :=
  let a := s.team (s.group g).team
  let b := s.team (s.group h).team
  a.launch.isSome && a.launch == b.launch && a.t / a.crew == b.t / b.crew

/-- Two parties of one peer device. -/
def Party.samePeer : Party → Party → Bool
  | .peer p, .peer q => p.dev == q.dev
  | _, _ => false

/-- q lies in p's instance of a scope (Table 13.1). -/
def inInstance (s : State) (sc : Scope) (p q : Party) : Bool :=
  let grp (f : Nat → Nat → Bool) : Bool := match p.group?, q.group? with | some g, some h => f g h | _, _ => false
  p == q ||
  match sc with
  | .lane | .quad | .group => grp (· == ·)
  | .team => grp fun g h => (s.group g).team == (s.group h).team
  | .crew => grp fun g h => (s.group g).team == (s.group h).team || sameCrew s g h
  | .device => p.onDevice && q.onDevice || p.samePeer q
  | .node => p.samePeer q || (p.onDevice || p.isMember s.dev) && (q.onDevice || q.isMember s.dev)
  | .fabric => match p, q with
    | .whist a, .whist b => a == b
    | .whist _, .grp _ => true
    | .grp _, .whist _ => true
    | _, _ => false
  | .system => true

/-- R308. -/
def mayPair (s : State) (sc : Scope) (p : Party) (sc' : Scope) (q : Party) : Bool :=
  inInstance s sc p q && inInstance s sc' q p

/-- A release by a party (R312): its identity, and the party's view after it. -/
def release (s : State) (p : Party) (v : MemView) (sc : Scope) (a : Acts) : State × MemView × Nat :=
  let n := s.rels.length
  let r : Release := { party := p, scope := sc, acts := a, know := v.know, cov := (uni v.own v.reached).filter (covers s a) }
  ({ s with rels := s.rels ++ [r] }, { v with rels := v.rels ++ [n] }, n)

/-- Device scope or wider (R141). -/
def Scope.wide : Scope → Bool
  | .device | .node | .fabric | .system => true
  | _ => false

/-- One of a party's own releases of device scope or wider covers a write. -/
def ownReleased (s : State) (v : MemView) (i : Nat) : Bool :=
  v.rels.any fun n => match s.rels[n]? with | some r => r.scope.wide && r.cov.contains i | none => false

/-- What an acquire admits of a release: what it covers of what the acquire acts on. -/
def Release.admits (s : State) (a : Acts) (r : Release) : List Nat := r.cov.filter (covers s a)

/-- An acquire by a party (R312 to R314): every release observed by an earlier synchronising read, and the releases `extra` of
its own row of Table 13.3, admit what they cover of what the acquire acts on; the quantum ends there (R315). What releases of device scope or
wider admit, the party's own ones among them, has the first two steps of R141 behind it. -/
def acquire (s : State) (p : Party) (v : MemView) (sc : Scope) (a : Acts) (extra : List Nat) : MemView :=
  let v := (uni v.seen extra).foldl (fun (v : MemView) i =>
    match s.rels[i]? with
    | none => v
    | some r =>
      if mayPair s r.scope r.party sc p then
        let got := r.admits s a
        { v with know := uni v.know r.know, reached := uni v.reached got, code := if r.scope.wide then uni v.code got else v.code }
      else v) v
  { v with
    quantum := v.quantum.filter fun i => !covers s a i
    code := v.code ++ v.own.filter fun i => !v.code.contains i && covers s a i && ownReleased s v i }

/-- What a synchronising read of a word observes (R313, rule 2): when the word's current value is that of a synchronising write,
the releases that precede it or an earlier synchronising write of the word, at scopes that include both parties. -/
def observe (s : State) (p : Party) (v : MemView) (sc : Scope) (word : Nat) : MemView :=
  let l := writesTo s word
  match winner none l with
  | some (i, w) =>
    if w.sync.isNone then v else
    l.foldl (fun (v : MemView) (j, x) =>
      match x.sync with
      | some (sc', rels) => if j ≤ i && mayPair s sc' x.party sc p then { v with seen := uni v.seen rels } else v
      | none => v) v
  | none => v

/-- Observe every word of a range. -/
def observeRange (s : State) (p : Party) (v : MemView) (sc : Scope) (pa n : Nat) : MemView :=
  (span (pa / 4) ((pa + n - 1) / 4 - pa / 4 + 1)).foldl (fun v w => observe s p v sc (4 * w)) v

end Sys2Proof.Machine
end

