-- ==== Sys2Proof/Machine/Teams.lean ====
section
/-! DEFINITION. What ends a team, and what the command unit keeps: its accesses to a context's memory (R101), queue error words,
the trace unit (R382 to R385), the baton (R290, R291), join counters (R97), releasing a team's resources, and kills (R354). -/

namespace Sys2Proof.Machine

-- Signals, the error log, the trace unit ------------------------------------------------------------------------------

/-- MSI-X vectors of a context (R392): 0 completion, 1 fault, 2 pre-emption, 3 error. -/
def signal (s : State) (c bit : Nat) : State :=
  let x := s.ctx c
  s.setCtx c { x with signals := x.signals ||| (1 <<< bit) }

def logError (s : State) (r : LogRec) : State := { s with dev := { s.dev with errlog := s.dev.errlog ++ [r] } }

/-- AES-256-XTS over 32-byte units from a tweak on (R385, R386). -/
def cipher (key tweak : Nat) (bytes : List Byte) : List Byte :=
  (List.range bytes.length).map fun i => Config.xts key (tweak + i / 32) ((bytes.drop (i / 32 * 32)).take 32) (i % 32)

/-- The least MODE that records a kind (Table 16.1, R384; dispatch, retirement and trap entry with the synchronisation events,
log 21). -/
def traceMode (kind : Nat) : Nat := if kind = 0x30 then 0 else if kind = 1 then 3 else if kind = 2 then 2 else 1

/-- The trace ring is in use for a kind of a context (R382). -/
def traceOn (s : State) (c kind : Nat) : Bool :=
  let t := s.dev.trace
  wfield t 0 1 == 1 && 12 ≤ wfield t 7 5 && wfield t 7 5 ≤ 30 && traceMode kind ≤ wfield t 1 2 && s.dev.trctx.getLsbD c

/-- One trace record, or a drop when the path's queue is full, which is a free choice of the trace unit's own (R383, R384, log 8). A record fills
a sector, whose mark it clears (R372); one whose place lies outside local GDDR 7 changes no memory (log 21). -/
def trace (s : State) (kind : Nat) (t : Team) (core slot : Nat) (lanes : Mask) (data : Nat) : State :=
  if !traceOn s t.ctx kind then s
  else
    let d := { s.dev with trfresh := s.dev.trfresh + 1 }
    if Config.traceFull s.dev.trfresh then { s with dev := { d with drops := if d.drops = BitVec.allOnes 32 then d.drops else d.drops + 1 } } else
    let n := s.dev.twidx
    let lseq := match t.launch with | some l => (s.launch l).lseq | none => 0
    let w0 := kind * 2 ^ 56 + t.ctx * 2 ^ 48 + core * 2 ^ 40 + slot * 2 ^ 35 + lanes.toNat
    let w2 := t.tag * 2 ^ 48 + lseq % 2 ^ 48
    let plain := toBytes 8 w0 ++ toBytes 8 (s.core core).cycles ++ toBytes 8 w2 ++ toBytes 8 data
    let x := s.ctx t.ctx
    let bytes := if x.sealed then cipher x.tkey n plain else plain
    let pa := wfield s.dev.trace 12 40 * 4096 + 32 * (n % 2 ^ (wfield s.dev.trace 7 5 - 5))
    let t := { s with dev := { d with twidx := n + 1 } }
    if localRange s.dev pa 32 then clearPoison { t with mem := memWrite s.mem (homeAddr s.dev pa) bytes } [(homeAddr s.dev pa, 32)] else t

/-- A trace record of a group. -/
def traceGroup (s : State) (kind g : Nat) (lanes : Mask) (data : Nat) : State :=
  let x := s.group g
  trace s kind (s.team x.team) x.core x.slot lanes data

-- The command unit's memory accesses (R101) ---------------------------------------------------------------------------

def cuAccess (s : State) (c : Nat) (need : Need) (va n : Nat) : Access :=
  let x := s.ctx c
  { ctx := c, heap := some (x.heapbase, x.heaplen, x.heapoff), need, va, n }

/-- A failing access is logged with the context, address and kind, and the error vector is signalled (R101). -/
def cuFail (s : State) (c : Nat) (kind va : Nat) : State :=
  signal (logError s { ctx := c, what := kind, addr := va }) c 3

/-- The checks of one access of the command unit. Poison met by its walk has no kind in Table 10.9: the error log carries 0x10, and the FINFO of a
team killed at dispatch has 0 in the kind's four bits (DESIGN CHOICE, log 62). -/
def cuCheck (s : State) (c : Nat) (need : Need) (va n : Nat) : State × Except (Nat × Nat) (List Piece) :=
  match checkAccess s (cuAccess s c need va n) with
  | (s, .ok l) => (s, .ok l)
  | (s, .error (k, a)) => (cuFail s c k va, .error (k, a))

/-- All of several accesses pass (need, address, length). -/
def cuChecks (s : State) (c : Nat) : List (Need × Nat × Nat) → State × Bool
  | [] => (s, true)
  | (need, va, n) :: l =>
    match cuCheck s c need va n with
    | (s, .ok _) => cuChecks s c l
    | (s, .error _) => (s, false)

/-- Read bytes of a context as they stand at L2. Poison-marked bytes are used as they stand (DESIGN CHOICE, log 62): R372 names no command unit
among what consumes them. -/
def cuRead (s : State) (c va n : Nat) : State × Except (Nat × Nat) (List Byte) :=
  match cuCheck s c .load va n with
  | (s, .ok l) => (s, .ok (readNow s l))
  | (s, .error e) => (s, .error e)

/-- The command unit's own writes stand in its own order (R314). -/
def cuView (s : State) (rels : List Nat) : MemView :=
  let ids := (List.range s.writes.length).filter fun i => match s.writes[i]? with | some w => w.party == .cu | none => false
  { own := ids, know := ids, rels }

/-- The releases the command unit has made. -/
def cuRels (s : State) : List Nat :=
  (List.range s.rels.length).filter fun i => match s.rels[i]? with | some r => r.party == .cu | none => false

/-- Write bytes of a context as class-3 writes of the command unit; a synchronising write carries the releases given and those that precede
it in the command unit's order (R313, R317). A failing write that Table 4.10 does not list is logged and dropped, and the command unit goes on
(log 26). -/
def cuWrite (s : State) (c va : Nat) (bytes : List Byte) (sync : Option (Scope × List Nat)) : State × Bool :=
  match cuCheck s c .store va bytes.length with
  | (s, .ok l) =>
    let s := (writePieces s (cuView s []) ⟨.cu, 3, [], c⟩ (sync.map fun (sc, r) => (sc, uni r (cuRels s))) l bytes).1
    (clearPoison s (l.map fun p => (p.pa, p.len)), true)
  | (s, .error _) => (s, false)

-- Work table (R77, R78, R95) ------------------------------------------------------------------------------------------

def Ctx.wen (x : Ctx) : Bool := wfield x.worktab 0 1 == 1
def Ctx.wbase (x : Ctx) : Nat := wfield x.worktab 12 45 * 4096
def Ctx.subDesc (x : Ctx) (q : Nat) : Nat := x.wbase + 64 * q
def Ctx.taskDesc (x : Ctx) (q : Nat) : Nat := x.wbase + 0x4000 + 64 * q

/-- 64-bit words of a byte list. -/
def wordsOf (bytes : List Byte) : List Word :=
  (List.range (bytes.length / 8)).map fun i => wd (ofBytes ((bytes.drop (8 * i)).take 8))

/-- Fields of a submission queue descriptor (Table 4.2). -/
structure SubQueue where
  base : Nat
  qen  : Bool
  post : Bool
  log2 : Nat
  widx : Nat
  ridx : Nat
  err  : Bool
  deriving DecidableEq, Repr

def subQueue (w : List Word) : SubQueue :=
  { base := wfield (getAt 0 w 0) 0 57, qen := wfield (getAt 0 w 1) 63 1 == 1, post := wfield (getAt 0 w 1) 62 1 == 1
    log2 := wfield (getAt 0 w 1) 0 5, widx := wfield (getAt 0 w 2) 0 48, ridx := wfield (getAt 0 w 3) 0 48
    err := wfield (getAt 0 w 4) 63 1 == 1 }

/-- One past the last card that a descriptor says is queued; none where its indices fail a check of Table 4.4, which tell of no cards (log 29). -/
def SubQueue.queued (d : SubQueue) : Option Nat :=
  if d.ridx ≤ d.widx && d.widx - d.ridx ≤ 2 ^ (if d.log2 < 4 || d.log2 > 20 then 20 else d.log2) then some d.widx else none

/-- An error that stops its queue (R81, Table 4.4, R106). -/
def stopping (code : Nat) : Bool := code == 0x10 || code == 0x11 || code == 0x12 || code == 0x14 || code == 0x22 || code == 0x23

/-- Record an error in a queue's error word when ERR is 0 (Tables 4.2, 4.4); of those that find ERR = 1, a stopping error goes to the
device error log only (R81). -/
def putErr (s : State) (c desc code reason epos : Nat) : State :=
  match cuRead s c (desc + 32) 8 with
  | (s, .error _) => s
  | (s, .ok b) =>
    if field (ofBytes b) 63 1 = 1 then if stopping code then logError s { ctx := c, what := code, addr := epos } else s
    else (cuWrite s c (desc + 32) (toBytes 8 (2 ^ 63 + code * 2 ^ 56 + reason * 2 ^ 48 + epos % 2 ^ 48)) none).1

-- Joins (R96, R97) ----------------------------------------------------------------------------------------------------

/-- The last object of a pend list. A list of as many objects as the fuel has no end: 2^57 addresses hold fewer (R96). -/
def pendTail (s : State) (c : Nat) : Nat → Nat → State × Option Nat
  | 0, _ => (s, none)
  | fuel + 1, j =>
    match cuRead s c (j + 16) 8 with
    | (s, .error _) => (s, none)
    | (s, .ok b) => let n := ofBytes b % 2 ^ 57; if n = 0 then (s, some j) else pendTail s c fuel n

/-- Releases carried by the synchronising writes of a word: what every decrement of a join counter released. -/
def relsOfWord (s : State) (word : Nat) : List Nat :=
  (writesTo s word).foldl (fun acc (_, w) => match w.sync with | some (_, r) => uni acc r | none => acc) []

/-- Write a 128-byte record at HEAD of a task queue and advance HEAD (R95). The tasks popped there acquire the releases given.
The slot's words are stored, so a poison mark of the continuation does not come along (DESIGN CHOICE, log 62). -/
def pushTask (s : State) (c q head qbase qlog2 : Nat) (record : List Byte) (rels : List Nat) : State :=
  let desc := (s.ctx c).taskDesc q
  let s := (cuWrite s c (qbase + 128 * (head % 2 ^ qlog2)) record none).1
  let s := (cuWrite s c (desc + 16) (toBytes 8 (head + 1)) (some (.device, rels))).1
  let x := s.ctx c
  s.setCtx c { x with taskRels := x.taskRels ++ rels.map fun r => (q, head, r) }

/-- The task whose retirement put an object on a pend list. -/
def pendMark (s : State) (c j q pop : Nat) : State :=
  let x := s.ctx c
  s.setCtx c { x with pendBy := x.pendBy ++ [(j, q, pop)] }

/-- join(j) for a task of queue q with pop index `pop` and the releases of its retirement. A task that retires or is killed while WEN = 0 joins
through the table at WBASE as it stands (log 27). COUNT is stored to, and the object's other words are read (Table 4.9).
A push whose ring slot fails its checks is the join's failure too: 0x24, and COUNT stays
(DESIGN CHOICE, log 62). -/
def joinDec (s : State) (c q pop j : Nat) (rels : List Nat) : State :=
  if j = 0 then s else
  let mine := (s.ctx c).taskDesc q
  let fail (s : State) : State := putErr s c mine 0x24 0 pop
  match cuCheck s c .store j 8 with
  | (s, .error _) => fail s
  | (s, .ok l) =>
  match cuRead s c j 256 with
  | (s, .error _) => fail s
  | (s, .ok b) =>
    let w := wordsOf b
    let old := (getAt 0 w 0)
    let new := old - 1
    let countPa := match l.head? with | some p => p.pa | none => 0
    let dec (s : State) : State := (atomicWrite s (cuView s rels) .cu c .device j countPa (toBytes 8 new.toNat)).1
    let w1 := getAt 0 w 1
    if old.toInt ≤ 0 then putErr (dec s) c mine 0x21 0 pop
    else if new = 0 && wfield w1 63 1 = 1 then
      let cq := wfield w1 0 3
      let cd := (s.ctx c).taskDesc cq
      match cuRead s c cd 64 with
      | (s, .error _) => fail s
      | (s, .ok db) =>
        let d := wordsOf db
        let head := (getAt 0 d 2).toNat
        let tail := (getAt 0 d 3).toNat
        let pend := wfield (getAt 0 d 5) 0 57
        let ql := wfield (getAt 0 d 1) 0 5
        let qb := wfield (getAt 0 d 0) 0 57
        if head - tail ≥ 2 ^ ql || pend ≠ 0 then
          if pend = 0 then
            match cuChecks s c [(.store, cd + 40, 8)] with
            | (s, false) => fail s
            | (s, true) => (cuWrite (pendMark (dec s) c j q pop) c (cd + 40) (toBytes 8 j) none).1
          else match pendTail s c (2 ^ 50) pend with
            | (s, none) => fail s
            | (s, some last) =>
              match cuChecks s c [(.store, last + 16, 8)] with
              | (s, false) => fail s
              | (s, true) => (cuWrite (pendMark (dec s) c j q pop) c (last + 16) (toBytes 8 j) none).1
        else
          match cuChecks s c [(.store, qb + 128 * (head % 2 ^ ql), 128), (.store, cd + 16, 8)] with
          | (s, false) => fail s
          | (s, true) =>
            let s := dec s
            pushTask s c cq head qb ql (b.drop 128) (relsOfWord s (countPa / 4 * 4))
    else dec s

-- The baton (R290, R291) ----------------------------------------------------------------------------------------------

/-- Grant a core's baton to a group: the array state passes by R291; a restored holder's own state returns (R120). -/
def grantBaton (s : State) (core g : Nat) : State :=
  let c := s.core core
  let t := (s.group g).team
  let team := s.team t
  match team.array.filter fun p => p.1 == g with
  | some (_, a) => (s.setTeam t { team with array := none }).setCore core { c with holder := some g, last := some (t, g), array := a }
  | none =>
    let a := match c.last with
      | some (t', g') =>
        if t' = t then if g' = g then c.array else { c.array with af := true, sf := true, hf := 0xFF }
        else {}
      | none => {}
    s.setCore core { c with holder := some g, last := some (t, g), array := a }

/-- The holder gives the baton to the head of the queue, or leaves it free (R297). -/
def passBaton (s : State) (core : Nat) : State :=
  let c := s.core core
  match c.queue with
  | [] => s.setCore core { c with holder := none }
  | g :: q => grantBaton (s.setCore core { c with holder := none, queue := q }) core g

/-- The array state a restored holder has yet to take back (R120). -/
def savedArray (s : State) (g : Nat) : Option ArrayState :=
  ((s.team (s.group g).team).array.filter fun p => p.1 == g).map (·.2)

/-- A group gives up the baton, as MPASS does: the holder passes it; a restored holder that has not got it back yet loses its place and the
state saved with it, as if it had never been moved (R120, R297). -/
def giveUp (s : State) (core g : Nat) : State :=
  let c := s.core core
  if c.holder = some g then passBaton s core
  else if (savedArray s g).isNone then s
  else
    let t := (s.group g).team
    (s.setTeam t { s.team t with array := none }).setCore core { c with queue := c.queue.filter (· != g) }

-- Resources -----------------------------------------------------------------------------------------------------------

/-- A group's slot, and with it its physical rows, are free again (R102). -/
def freeGroup (s : State) (core g : Nat) : State :=
  let c := s.core core
  s.setCore core { c with groups := c.groups.map fun x => if x == some g then none else x, grows := c.grows.filter (· != g) }

/-- Give back what a team holds on its core (R380): slots, rows, the TLB pair (R116), requests, waiting grows, its places in queues, the
baton. -/
def freeTeam (s : State) (t : Nat) : State :=
  let team := s.team t
  let mine := fun g => team.groups.contains g
  let c := s.core team.core
  let s := s.setCore team.core { c with
    teams := c.teams.map fun x => if x == some t then none else x
    groups := c.groups.map fun x => match x with | some g => if mine g then none else x | none => none
    queue := c.queue.filter fun g => !mine g
    reqs := c.reqs.filter fun r => r.team != t
    grows := c.grows.filter fun g => !mine g }
  let s := { s with gateQ := s.gateQ.filter fun (_, p, _, _) => match p with | .grp g => !mine g | _ => true,
                    teams := s.teams.map fun (y : Team) => { y with waiters := y.waiters.filter fun w => !mine w.g } }
  let s := s.setTeam t { s.team t with tlb := [] }
  match c.holder with
  | some g => if mine g then passBaton s team.core else s
  | none => s

-- Launch counts (R76) -------------------------------------------------------------------------------------------------

/-- Count a killed team; the first killed is the one of the lowest flat index. -/
def countKilled (s : State) (l t fcause : Nat) (info : Nat) : State :=
  let x := s.launch l
  let first := match x.first with
    | some (t', c, i) => if t < t' then some (t, fcause, info) else some (t', c, i)
    | none => some (t, fcause, info)
  s.setLaunch l { x with killed := x.killed + 1, first, placeK := x.placeK || fcause = 0x19 }

/-- A team's flags and cycles enter its launch's record (R75, R380). -/
def enterUnion (s : State) (l : Nat) (t : Team) : State :=
  let x := s.launch l
  let f := t.groups.foldl (fun acc g => acc ||| (s.group g).flags) 0
  s.setLaunch l { x with flags := x.flags ||| f, maxcyc := max x.maxcyc t.cycles }

/-- An ended group: every lane exited, nothing outstanding (R156, R354). -/
def Group.dead (g : Group) : Group :=
  { g with ended := true, lanes := List.replicate 32 { x := true }, log := [], frozen := [], wait := .none, watch := none, windows := [],
           buf := [], wdog := false }

def endGroups (s : State) : List Nat → State
  | [] => s
  | g :: l => endGroups (s.setGroup g (s.group g).dead) l

/-- The view whose release covers what groups and their copy requests wrote, and what the groups acquired (Table 13.3, R314). -/
def retireView (s : State) (gs : List Nat) : MemView :=
  let mine := (List.range s.writes.length).filter fun i =>
    match s.writes[i]? with
    | some w => (match w.party.group? with | some g => gs.contains g | none => false)
    | none => false
  gs.foldl (fun v g =>
    let w := (s.group g).view
    { v with own := uni v.own w.own, know := uni v.know (uni w.know w.own), reached := uni v.reached w.reached }) { own := mine, know := mine }

/-- The retirement release of a task of a context (R94, R314). -/
def releaseTeam (s : State) (c : Nat) (gs : List Nat) : State × List Nat :=
  let (s, _, r) := release s (.grp (gs.headD 0)) (retireView s gs) .device (.ambient c)
  (s, [r])

/-- A team that no longer runs. -/
def TeamAt.over : TeamAt → Bool
  | .retired => true
  | .killed => true
  | _ => false

/-- Identities of teams that satisfy a test. -/
def teamIds (s : State) (f : Team → Bool) : List Nat :=
  (List.range s.teams.length).filter fun t => f (s.team t)

def TeamAt.onCore : TeamAt → Bool
  | .resident => true
  | .halting => true
  | _ => false

/-- A sealed context has a team on a core (R386). -/
def sealedHere (s : State) (k : Nat) : Bool := !(teamIds s fun t => t.core == k && t.place.onCore && (s.ctx t.ctx).sealed).isEmpty

/-- A core that DEV.DBG halts: a halt of one that holds a team of a sealed context is ignored (R356, R386). -/
def coreHalted (s : State) (k : Nat) : Bool := (s.core k).halted && !sealedHere s k

/-- Kill a team (R354): its groups end, its resources go, its launch counts it, a task is recorded and its join counter
decremented. The device error log carries the 8-bit code alone (R349). -/
def killTeam (s : State) (t fcause : Nat) (info : Word) : State :=
  let team := s.team t
  if team.place.over then s else
  let s := endGroups s team.groups
  let s := match team.place with
    | .resident => freeTeam s t
    | .halting => freeTeam s t
    | _ => s
  let s := s.setTeam t { s.team t with place := .killed, reqs := [] }
  let s := trace s 0x21 team team.core 0 0 team.t
  match team.launch, team.task with
  | some l, _ => countKilled (enterUnion s l team) l team.t fcause info.toNat
  | none, some (q, pop) =>
    let c := team.ctx
    let s := putErr s c ((s.ctx c).taskDesc q) 0x25 0 pop
    let s := logError s { ctx := c, what := fcause % 256, addr := info.toNat, tag := team.tag }
    let (s, rels) := releaseTeam s c team.groups
    joinDec s c q pop team.jaddr rels
  | none, none => s

-- Card words (Table 3.7) ----------------------------------------------------------------------------------------------

def Launch.w (l : Launch) (n : Nat) : Word := getAt 0 l.card n
def Launch.teams (l : Launch) : Nat := wfield (l.w 2) 0 32
def Launch.ngroups (l : Launch) : Nat := wfield (l.w 2) 32 5
def Launch.crew (l : Launch) : Nat := wfield (l.w 2) 37 3
def Launch.prio (l : Launch) : Nat := wfield (l.w 2) 40 3
def Launch.det (l : Launch) : Bool := wfield (l.w 2) 43 1 == 1
def Launch.tag (l : Launch) : Nat := wfield (l.w 2) 48 16

/-- Indices below n not in a list. -/
def missing (n : Nat) (gone : List Nat) : List Nat := (List.range n).filter fun i => !gone.contains i

/-- Kill every undealt team of a launch (R91, R100). -/
def killUndealt (s : State) (l fcause : Nat) (info : Nat) : List Nat → State
  | [] => s
  | t :: rest =>
    let s := countKilled s l t fcause info
    let x := s.launch l
    killUndealt (s.setLaunch l { x with gone := x.gone ++ [t] }) l fcause info rest

def killTeams (s : State) (fcause : Nat) (info : Word) : List Nat → State
  | [] => s
  | t :: l => killTeams (killTeam s t fcause info) fcause info l

/-- Submission queue state the purge leaves for cards not yet accepted (R100): each queue's last known WIDX, and that of a posted queue as it
stands, since JPOST advances the WIDX of a stopped one too (R81). Indices that fail a check of Table 4.4 tell of no cards (log 29). -/
def queuedPurges (s : State) (c tag cause info : Nat) : State × List Purge :=
  let x := s.ctx c
  (x.queues.filter fun (_, d) => wfield (getAt 0 d 1) 62 1 == 1).foldl (fun (s, l) (q, _) =>
    match cuRead s c (x.subDesc q) 64 with
    | (s, .ok b) => (s, l ++ ((subQueue (wordsOf b)).queued.map fun n => { tag, q, upto := n, cause, info }).toList)
    | (s, .error _) => (s, l)) (s, x.widx.map fun (q, w) => { tag, q, upto := w, cause, info })

/-- An earlier purge of a context has met a task record already. -/
def purgedTask (x : Ctx) (q i tag : Nat) : Bool := x.purges.any fun p => p.q == 256 + q && i < p.upto && p.tag == tag

/-- Records of a task queue from TAIL to HEAD that carry a tag and that no earlier purge has met: each join counter is decremented, and the pops
skip them (R100, log 22). A continuation that these joins push is met where it lands in a queue handled later (log 22). A descriptor or record that
cannot be read is logged and passed over: that record's counter is not decremented (DESIGN CHOICE, log 62). -/
def purgeTasks (s : State) (c tag cause info : Nat) : List Nat → State
  | [] => s
  | q :: rest =>
    let s := match cuRead s c ((s.ctx c).taskDesc q) 64 with
      | (s, .error _) => s
      | (s, .ok b) =>
        let d := wordsOf b
        if wfield (getAt 0 d 1) 63 1 = 0 then s else
        let head := (getAt 0 d 2).toNat
        let tail := (getAt 0 d 3).toNat
        let ql := wfield (getAt 0 d 1) 0 5
        let qb := wfield (getAt 0 d 0) 0 57
        let s := (span tail (head - tail)).foldl (fun s i =>
          match cuRead s c (qb + 128 * (i % 2 ^ ql)) 128 with
          | (s, .error _) => s
          | (s, .ok r) =>
            let w := wordsOf r
            if wfield (getAt 0 w 3) 48 16 = tag && !purgedTask (s.ctx c) q i tag then joinDec s c q i (wfield (getAt 0 w 2) 0 57) [] else s) s
        let x := s.ctx c
        s.setCtx c { x with purges := x.purges ++ [{ tag, q := 256 + q, upto := head, cause, info }] }
    purgeTasks s c tag cause info rest

/-- Containment by request tag (R373, R100). -/
def purge (s : State) (c tag cause info : Nat) : State :=
  let s := signal (logError s { ctx := c, what := cause, addr := info, tag }) c 3
  let ls := (List.range s.launches.length).filter fun l => (s.launch l).ctx = c && (s.launch l).tag = tag && !(s.launch l).retired
  let s := ls.foldl (fun s l =>
    let x := s.launch l
    let s := s.setLaunch l { x with purged := true }
    killUndealt s l cause info (missing x.teams x.gone)) s
  let s := killTeams s cause (wd info) (teamIds s fun t => t.ctx == c && t.tag == tag && !t.place.over)
  let (s, l) := queuedPurges s c tag cause info
  let x := s.ctx c
  let s := s.setCtx c { x with purges := x.purges ++ l }
  if x.wen then purgeTasks s c tag cause info (List.range 8) else s

end Sys2Proof.Machine
end

