-- ==== Sys2Proof/Machine/Ops.lean ====
section
/-! DEFINITION. Issuing: what an instruction reads and writes, the checks before its effect (R350), the advance of its lanes,
release (R154), taking a trap (R352) and returning from one (R361), memory fault records (R229), and the consumption of poison. -/

namespace Sys2Proof.Machine

abbrev Out := Host.Outcome State Fault Refusal

-- Reads and writes (R107, R159, R160) ---------------------------------------------------------------------------------

/-- How an operand field is used. -/
inductive Role where
  | no | r | w | rw | pr | pw | jr | jw
  deriving DecidableEq, Repr

/-- Roles of D, B and a register C for layout F, by opcode (Tables 7.5, 8.2, 9.2, 11.1, 12.6, 14.1, 15.12). -/
def rolesF (op : Nat) (f : Full) : Role × Role × Role :=
  let x := f.xm.toNat
  match op with
  | 0x06 | 0x1A | 0x47 | 0x53 => (.rw, .r, .r)
  | 0x1B | 0x4C => (.pw, .r, .r)
  | 0x21 | 0x24 | 0xF0 | 0xE8 => (.w, .no, .no)
  | 0x17 | 0x18 | 0x20 | 0x42 | 0x43 | 0x44 | 0x48 | 0x49 | 0x50 | 0x51 | 0x55 => (.w, .r, .no)
  | 0xA1 | 0xA2 | 0xA5 | 0xB3 => (.w, .r, .no)
  | 0x80 | 0x81 | 0x82 | 0x83 | 0x84 | 0x85 | 0x86 | 0x87 | 0x88 | 0x89 => (.w, .r, .no)
  | 0x90 | 0x91 | 0x92 | 0x93 | 0x94 | 0x95 | 0x96 | 0x97 | 0x98 | 0x99 => (.w, .r, .no)
  | 0xA3 => (.pw, .pr, .no)
  | 0xA4 => (.w, .pr, .no)
  | 0xB4 | 0xF1 => (.no, .r, .no)
  | 0xB5 => (.jw, if x = 1 then .r else .no, .no)
  | 0xB6 => (.jr, .no, .no)
  | 0xB7 | 0xB8 | 0xB9 | 0xC9 | 0xD2 | 0xD3 | 0xD4 | 0xE1 | 0xE6 | 0xE7 | 0xE9 | 0xF2 | 0xF5 | 0xF7 => (.no, .no, .no)
  | 0xC1 | 0xC3 => (.r, .r, .r)
  | 0xC5 | 0xC8 | 0xCA | 0xCB | 0xCC | 0xCD | 0xD5 => (.no, .r, .r)
  | 0xC6 => (if f.c.immNat / 32 % 2 = 1 then .r else .rw, .r, .no)
  | 0xC7 => (.r, .r, .r)
  | 0xD0 | 0xD1 | 0xD6 | 0xD7 | 0xD8 | 0xD9 => (.no, .r, .no)
  | 0xE0 => if x % 2 = 1 then (.no, .r, .no) else (.no, .no, .r)
  | 0xE2 | 0xE3 => (.no, .r, .r)
  | 0xE4 => if 4 ≤ x then (.w, .no, .r) else (.no, .r, .r)
  | 0xE5 | 0xF3 | 0xF4 => (.no, .no, .r)
  | 0xF6 => (.no, if x = 0 then .r else .no, .no)
  | _ => (.w, .r, .r)

/-- Registers of a run. -/
def runRes (r : Reg) : List Res :=
  (span r.num.toNat (runLen r.wid)).map fun n => match r.file with | .v => .v n | .s => .s n

/-- Reads and writes of a field by its role. -/
def roleRes (r : Reg) : Role → List Res × List Res
  | .no => ([], [])
  | .r => (runRes r, [])
  | .w => ([], runRes r)
  | .rw => (runRes r, runRes r)
  | .pr => (if r.num.toNat < 7 then [.p r.num.toNat] else [], [])
  | .pw => ([], [.p r.num.toNat])
  | .jr => ([.j r.num.toNat], [])
  | .jw => ([], [.j r.num.toNat])

def predRes (c : Ctl) : List Res := if c.pred = 7 then [] else [.p c.pred.toNat]

/-- Opcodes of layout F that can raise a flag (R180), but for those of the matrix array. -/
def raisesFlag (op : Nat) (f : Full) : Bool :=
  let t := f.ty.toNat
  match op with
  | 0x55 => !(isInt t && (match f.c with | .reg c => isInt c.num.toNat | _ => false))
  | 0xA5 => isLog t && f.xm == 0
  | 0xC6 => t == 8 && f.xm == 0
  | 0xCC | 0xD9 => true
  | 0x48 | 0x49 | 0x4A | 0x4B | 0x4C | 0x50 => false
  | _ => (0x40 ≤ op && op ≤ 0x54) || (0x80 ≤ op && op ≤ 0x99)

/-- What the flag word adds to the reads and writes of an instruction of layout F (R180, R283). -/
def flagUses (op : Nat) (f : Full) : List Res × List Res :=
  match op with
  | 0xE2 | 0xE3 | 0xE4 => ([.sflags], [.mflags])
  | 0xF0 => (if f.c.immNat = 0 then [.flags, .mflags] else [], [])
  | 0xF1 => if f.c.immNat = 0 then ([.mflags], [.flags, .sflags]) else ([], [])
  | _ => ([], if raisesFlag op f then [.flags] else [])

/-- What an instruction reads and what it writes (R159). -/
def usesOf (i : Instr) : List Res × List Res :=
  match view i with
  | none => ([], [])
  | some (.s3 op f) =>
    let g := shortFull f 0
    let c := match g.c with | .reg r => runRes r | _ => []
    let rd := runRes g.b ++ (if op = 0x20 then [] else c) ++ (if op = 0x47 then runRes g.d else [])
    (rd, runRes g.d ++ (if op = 0x40 || op = 0x45 || op = 0x46 || op = 0x47 then [.flags] else []))
  | some (.si _ f) => ([], runRes ⟨f.k, f.d.setWidth 8, 0⟩)
  | some (.sj op _) => ([], if op = 0xB2 then [.s 62] else [])
  | some (.s0 op) => (if op = 0xB4 then [.s 62] else [], [])
  | some (.fullU op f) =>
    let d := if op = 0xB0 || op = 0xB1 then [] else runRes f.d
    (predRes f.ctl ++ (if op = 0xB1 then runRes f.b else []), d)
  | some (.full op f) =>
    let (rd, rb, rc) := rolesF op f
    let d := roleRes f.d rd
    -- ATOM leaves the old word in D alone, whatever D's run holds (R251)
    let d := if op = 0xC6 then (d.1, d.2.take 1) else d
    let b := roleRes f.b rb
    let c := match f.c with | .reg r => roleRes r rc | _ => ([], [])
    let r := match f.rand with | some n => runRes ⟨.v, n, f.d.wid⟩ | none => []
    let sel := if op = 0x1C && f.xm != 7 then [.p f.xm.toNat] else []
    let j := if op = 0xF2 then [.j 0, .j 1, .j 2, .j 3] else []
    (predRes f.ctl ++ d.1 ++ b.1 ++ c.1 ++ r ++ sel ++ (flagUses op f).1, d.2 ++ b.2 ++ c.2 ++ j ++ (flagUses op f).2)

/-- The control bits of an instruction; those a short form implies (R125). -/
def ctlOf? (i : Instr) : Ctl :=
  match view i with
  | some (.full _ f) => f.ctl
  | some (.fullU _ f) => f.ctl
  | _ => ⟨0, false, 7⟩

/-- The major opcode of an instruction. -/
def opOf (i : Instr) : Nat :=
  match view i with
  | some (.s3 op _) | some (.si op _) | some (.sj op _) | some (.s0 op) | some (.full op _) | some (.fullU op _) => op
  | none => 0

/-- Layout F of an instruction. -/
def fullView (i : Instr) : Option (Nat × Full) :=
  match view i with
  | some (.full op f) => some (op, f)
  | _ => none

/-- Length of an instruction in bytes. -/
def Instr.bytes (i : Instr) : Nat := 4 * (encode i).length

-- Lookahead (R160) ----------------------------------------------------------------------------------------------------

/-- Whether an instruction depends on what another writes. -/
def touches (u : List Res × List Res) (writes : List Res) : Bool :=
  u.1.any writes.contains || u.2.any fun r => r != .mflags && writes.contains r

/-- The windows of R160 at the issue of an instruction at an address: LAMISS counts each dependent pair, a range whose next
address is not this one is dropped, and the instruction's own range opens. A pair is dependent by the operands that its instructions name, whatever
lanes are active in either: the model's choice (DEDUCED, log 53). -/
def Group.lookahead (g : Group) (i : Instr) (a len : Nat) : Group :=
  let u := usesOf i
  let open_ := g.windows.filter fun w => w.next == a
  let n := (open_.filter fun w => touches u w.writes).length
  let kept := (open_.filter fun w => w.left > 1).map fun w => { w with left := w.left - 1, next := a + len }
  let la := (ctlOf? i).la.toNat
  { g with lamiss := g.lamiss + BitVec.ofNat 32 n
           windows := if la = 0 then kept else kept ++ [{ writes := u.2, left := la, next := a + len }] }

-- The fetch buffer (R137, R138) ------------------------------------------------------------------------------------------

/-- The little-endian word at the head of a byte list. -/
def headWord (l : List Byte) : IWord := BitVec.ofNat 32 (ofBytes (l.take 4))

/-- The bytes of a buffer from an instruction on, found by stepping over whole instructions; none when it is not held. -/
def bufferFrom : Nat → Nat → List Byte → Nat → List Byte
  | 0, _, _, _ => []
  | fuel + 1, at_, l, a =>
    if at_ = a then l
    else if a < at_ || l.isEmpty then []
    else bufferFrom fuel (at_ + 4 * lenWords (headWord l)) (l.drop (4 * lenWords (headWord l))) a

/-- What the fetch buffer holds from an address on. -/
def Group.fetched (g : Group) (a : Nat) : List Byte := bufferFrom 17 g.bufAt g.buf a

/-- An instruction leaves the buffer as it issues; what follows it stays. -/
def Group.unbuffer (g : Group) (a len : Nat) : Group := { g with buf := (g.fetched a).drop len, bufAt := a + len }

-- Release, exits, advance ---------------------------------------------------------------------------------------------

def Group.setLane (g : Group) (l : Nat) (x : Lane) : Group := { g with lanes := setAt {} g.lanes l x }

/-- Apply a change to each lane of a mask. -/
def Group.mapLanes (g : Group) (m : Mask) (f : Nat → Lane → Lane) : Group :=
  { g with lanes := (List.range g.lanes.length).map fun l => if m.getLsbD l then f l (g.lane l) else g.lane l }

/-- release() of R154: for each join register and each address at which lanes are parked under it. -/
def Group.releaseAt (g : Group) (n a : Nat) : Group :=
  let w := maskOf fun l => l < g.lanes.length && (g.lane l).p && !(g.lane l).x && (g.lane l).n == n && (g.lane l).pc == a
  let gone := maskOf fun l => (g.lane l).x
  if w ≠ 0 && (getAt 0 g.j n &&& ~~~(gone ||| w)) = 0 then
    g.mapLanes w fun _ x => { x with p := false, n := 0, pc := a + 8 }
  else g

def Group.release (g : Group) : Group :=
  (List.range 4).foldl (fun g n =>
    ((List.range g.lanes.length).filterMap fun l => if (g.lane l).p && !(g.lane l).x && (g.lane l).n == n then some (g.lane l).pc else none).foldl
      (fun g a => g.releaseAt n a) g) g

/-- The helper rule of R157: in a quad whose live lanes are all helpers, they exit. -/
def Group.helperRule (g : Group) : Group :=
  (List.range 8).foldl (fun g q =>
    let ls := span (4 * q) 4
    if ls.any fun l => l < g.lanes.length && !(g.lane l).x && !(g.lane l).h then g
    else ls.foldl (fun g l => if l < g.lanes.length then g.setLane l { x := true } else g) g) g

/-- Advance the lanes of a mask that still stand at the address (R152). -/
def Group.advance (g : Group) (m : Mask) (a len : Nat) : Group :=
  g.mapLanes m fun _ x => if !x.x && !x.p && x.pc == a then { x with pc := a + len } else x

/-- Write the backing rows of a group to the backing region (R107, R108, R386); a row fills its sectors, whose marks it clears (R372). -/
def backRows (s : State) (g : Nat) : State :=
  let x := s.group g
  if x.vbound ≤ x.vres || wfield s.dev.rback 0 1 = 0 then s else
  let base := wfield s.dev.rback 30 27 * 2 ^ 30 + (32 * x.core + x.slot) * 65536
  let c := s.ctx (s.team x.team).ctx
  let rows := (span x.vres (x.vbound - x.vres)).map fun v => (homeAddr s.dev (base + 256 * v), 256)
  { clearPoison s rows with mem := (span x.vres (x.vbound - x.vres)).foldl (fun m v =>
      let bytes := (x.vrow v).flatMap fun w => toBytes 8 w.toNat
      let pa := base + 256 * v
      memWrite m (homeAddr s.dev pa) (if c.sealed then cipher c.key.toNat (pa / 32) bytes else bytes)) s.mem }

-- Traps ---------------------------------------------------------------------------------------------------------------

/-- Cause, lanes, TRAP.INFO. -/
structure Trap where
  cause : Nat
  lanes : Mask
  info  : Word
  deriving DecidableEq, Repr

/-- A consumption of poison by a group (R372, R373). -/
def consume (s : State) (g cause info : Nat) : State :=
  let t := s.team (s.group g).team
  purge s t.ctx t.tag cause info

/-- The physical row R370 reports for a register. -/
def rowNumber (x : Group) : Res → Nat
  | .v n => if n < x.vres then x.vbase + n else Config.physRow 0 n
  | .s n => Config.physRow 1 n
  | .p n => Config.physRow 2 n
  | .j n => Config.physRow 3 n
  | _ => Config.physRow 4 1

/-- A register's consumption of poison. -/
def consumeReg (s : State) (g row : Nat) : State := consume s g 0x18 (2 ^ 63 + row)

/-- A read of PCV that fails parity always consumes poison (R370). -/
def consumePcv (s : State) (g : Nat) : State := consumeReg s g (Config.physRow 4 0)

/-- The first join register that release reads, because some lane is parked under it, and that fails parity (R154, R370). -/
def Group.badJoin (x : Group) : Option Nat :=
  if x.vbad.isEmpty then none else
  (List.range 4).find? fun n =>
    (x.vbad.any fun (r, _) => r == .j n) && (List.range x.lanes.length).any fun l => (x.lane l).p && !(x.lane l).x && (x.lane l).n == n

/-- After an instruction: release, the end of a group whose lanes have all exited (R156), which gives up its slot and its baton (R102, R297). A join
register that release reads and that fails parity consumes poison (R370). -/
def post (s : State) (g : Nat) : State :=
  match (s.group g).badJoin with
  | some n => consumeReg s g (rowNumber (s.group g) (.j n))
  | none =>
    let x := (s.group g).release
    let s := s.setGroup g x
    if x.live = 0 then
      giveUp (freeGroup (s.setGroup g x.dead) x.core g) x.core g
    else backRows s g

/-- The row number of PCV or of the first join register that fails parity when trap entry saves them (R352, R370). -/
def Group.badSaved (x : Group) : Option Nat :=
  if x.pcvBad then some (Config.physRow 4 0)
  else ((List.range 4).find? fun n => x.vbad.any fun (r, _) => r == .j n).map fun n => rowNumber x (.j n)

/-- Taking a handler cause (R352): a nested trap and a disabled handler kill the team; otherwise PCV and the join registers are
saved, incomplete entries are frozen, and every live lane starts at the handler. -/
def enterTrap (s : State) (g : Nat) (t : Trap) (ilen : Nat) (logged : Bool) (pc : Nat) : State :=
  let x := s.group g
  let team := s.team x.team
  if x.inh then killTeam s x.team (0x100 + t.cause) t.info
  else if wfield team.vec 0 1 = 0 then killTeam s x.team t.cause t.info
  else if let some row := x.badSaved then consumeReg s g row
  else
    let s := traceGroup s 0x22 g t.lanes t.cause
    let f : Frame :=
      { cause := wd (ilen * 2 ^ 12 + (if logged then 2 ^ 8 else 0) + t.cause), lanes := t.lanes, info := t.info, pc
        spcv := x.lanes, sj := (List.range 4).map (getAt 0 x.j) }
    s.setGroup g { x with
      frame := f, frozen := x.log, log := [], wait := .none, inh := true, j := [], windows := [], buf := []
      lanes := x.lanes.map fun l => if l.x then l else { l with p := false, n := 0, pc := wfield team.vec 2 55 * 4 } }

/-- Returning from the handler (R361): PCV and the join registers return with the exits of R353 applied, which ends their marks (R370); .SKIP
discards the trapping instruction's entry, or moves its lanes past it; the remaining frozen entries become the group's oldest. -/
def returnTrap (s : State) (g : Nat) (skip : Bool) : State :=
  let x := s.group g
  let f := x.frame
  let logged := wfield f.cause 8 1 = 1
  let ilen := wfield f.cause 12 2
  let frozen := (if skip && logged then x.frozen.drop 1 else x.frozen).map fun e => { e with replay := true, fseq := none, faults := [] }
  let lanes := (List.range x.lanes.length).map fun l =>
    let was := getAt {} f.spcv l
    if (x.lane l).x || was.x then { x := true : Lane }
    else if skip && !logged && f.lanes.getLsbD l && was.pc == f.pc then { was with pc := f.pc + 4 * ilen } else was
  s.setGroup g { x with
    lanes, j := f.sj, vbad := x.vbad.filter fun (r, _) => match r with | .j _ => false | _ => true, inh := false, frozen := [], log := frozen,
    wait := if frozen.isEmpty then .none else .again
    windows := [], buf := []
    skipBrk := if wfield f.cause 0 8 = 0x17 then if skip then none else some f.pc else x.skipBrk }

-- Checks before an instruction's effect (R350, steps 3 to 8) ------------------------------------------------------------

/-- TRAP.INFO of ILL (R135). -/
def illInfo (words : List IWord) : Word :=
  match words with
  | [] => 0
  | [w0] => w0.setWidth 64
  | w0 :: w1 :: _ => (w1 ++ w0 : BitVec 64)

/-- A selector of Table 7.4. -/
def idrdSelector (n : Nat) : Bool := n ≤ 10 || (16 ≤ n && n ≤ 20)

/-- A selector of Table 15.13. -/
def sysSelector (n : Nat) : Bool := n == 0 || (0x10 ≤ n && n ≤ 0x19) || n == 0x20 || n == 0x30 || n == 0x40 || n == 0x41

/-- ILL checks on machine state (R136). -/
def stateIll (x : Group) (i : Instr) : Bool :=
  match fullView i with
  | some (0x24, f) => !idrdSelector f.c.immNat
  | some (0xF0, f) => !sysSelector f.c.immNat || (f.c.immNat == 0x14 && f.d.file == .s)
  | some (0xF1, f) =>
    let n := f.c.immNat
    let handler := n == 0x14 || (0x15 ≤ n && n ≤ 0x18)
    !(n == 0 || n == 0x20 || handler) || (handler && !x.inh) || (n == 0x14 && f.b.file == .s)
  | some (0xF2, _) => !x.inh
  | _ => false

/-- The lowest vector register at or beyond VBOUND (R107). -/
def beyondBound (x : Group) (i : Instr) : Option Nat :=
  minPc (((usesOf i).1 ++ (usesOf i).2).filterMap fun r => match r with | .v n => if x.vbound ≤ n then some n else none | _ => none)

/-- Instructions that issue only with every live lane at the address (R133, R158, R255, R328, R361). -/
def converges (op : Nat) : Bool := groupWide op || op == 0xC7 || op == 0xD3 || op == 0xD4 || op == 0xF2

/-- Timing-dependent uses that depend on the instruction alone (R162, R253, R362). -/
def nondet (i : Instr) : Bool :=
  match fullView i with
  | some (0x24, f) => 16 ≤ f.c.immNat
  | some (0xF0, f) => f.c.immNat == 0x20 || f.c.immNat == 0x30 || f.c.immNat == 0x41
  | some (0xC6, f) => f.c.immNat / 32 % 2 == 0 || 6 ≤ f.xm.toNat || (f.ty == 8 && f.xm == 0)
  | _ => false

/-- An instruction at issue: its group, address, length in bytes, the lanes at the address, active(), the helper lanes. -/
structure Iss where
  g    : Nat
  a    : Nat
  len  : Nat
  at_  : Mask
  act  : Mask
  help : Mask
  deriving DecidableEq, Repr

/-- The first of the causes of steps 3 to 7 of R350. -/
def precheck (s : State) (is : Iss) (i : Instr) : Option Trap :=
  let x := s.group is.g
  let team := s.team x.team
  if (Instr.ill i).isSome || stateIll x i then some ⟨0x01, is.at_, illInfo (encode i)⟩
  else match beyondBound x i with
    | some n => some ⟨0x02, is.at_, wd n⟩
    | none =>
      if converges (opOf i) && x.live ≠ is.at_ then some ⟨0x03, is.at_, (x.live &&& ~~~is.at_).setWidth 64⟩
      else if team.det && nondet i then some ⟨0x0E, is.at_, 0⟩
      else if opOf i = 0xF6 && wfield team.vec 1 1 = 0 then
        some ⟨0x1A, is.at_, match fullView i with
          | some (_, f) => if f.xm = 0 then x.sreg f.b.num.toNat else 0
          | none => 0⟩
      else none

/-- Opcodes that may issue while a faulted instruction waits (R231). -/
def passesFault (op : Nat) : Bool :=
  op ≤ 0x5F || (0x80 ≤ op && op ≤ 0xAF) || (0xB0 ≤ op && op ≤ 0xB6) || op == 0xB9

/-- An instruction is independent of every entry of a group's log, none of which TRET runs again (R231, R361). -/
def Group.apart (x : Group) (i : Instr) : Bool := x.log.all fun e => !e.replay && !touches (usesOf i) (usesOf e.instr).2

/-- An entry of the replay log is free (R359). An instruction that completes in its own turn takes its entry and gives it back there (log 10). -/
def Group.hasEntry (x : Group) : Bool := x.log.length < Config.logEntries

/-- The function instruction in its second phase behind a faulted one: of the logged instructions it alone may issue there (R216, R231). -/
def Group.fnBehind (x : Group) : Option Entry :=
  (x.log.drop 1).getLast?.filter fun e => passesFault (opOf e.instr) && !e.replay

/-- A group waits on a fault with a function instruction in its second phase behind it; it holds every younger instruction. -/
def Group.inSecond (x : Group) : Bool :=
  match x.wait with
  | .fault _ => x.fnBehind.isSome
  | _ => false

/-- A group may issue an instruction: it waits for nothing, or it waits on a fault, an entry of its log is free and the instruction is independent of
the waiting ones (R231, R359). -/
def mayIssue (x : Group) (i : Instr) : Bool :=
  match x.wait with
  | .none => x.log.isEmpty
  | .fault _ => !x.inSecond && x.hasEntry && x.apart i && passesFault (opOf i)
  | _ => false

/-- A memory instruction, of rows 0xC_ to 0xE_ (R231), may have issued before the fault of an older one was found: it holds an entry behind it, of
the eight (R231, R232, R359). Whether one has is a free choice (log 8). -/
def mayHold (x : Group) (i : Instr) : Bool :=
  match x.wait with
  | .fault _ => !x.inSecond && x.hasEntry && x.apart i && 0xC0 ≤ opOf i && opOf i ≤ 0xEF
  | _ => false

/-- The group stands on a core that issues: resident, powered, not halted, no fatal error (R161, R356, R391). -/
def onCore (s : State) (x : Group) : Bool :=
  let c := s.core x.core
  (s.team x.team).place == .resident && c.powered && !coreHalted s x.core && s.dev.status != 7

/-- An issue on a core: the stall count restarts, and a team swapped off this core for another may return (R118, R121). -/
def countIssue (s : State) (x : Group) : State :=
  let c := s.core x.core
  let s := s.setCore x.core { c with issued := c.issued + 1, stall := 0 }
  { s with teams := (List.range s.teams.length).map fun t =>
      let y := s.team t
      if y.swapOff == some x.core && t != x.team then { y with swapOff := none } else y }

/-- Lanes whose elements of its source registers an instruction reads: all of them for the exchanges across lanes, else active(). -/
def readLanes (op : Nat) (act : Mask) : Mask := if 0xA0 ≤ op && op ≤ 0xA2 then BitVec.allOnes 32 else act

/-- The first register that an instruction reads and that fails parity (R370). With no active lane it reads its predicate alone. -/
def badRead (x : Group) (i : Instr) (act : Mask) : Option Res :=
  if x.vbad.isEmpty then none else
  (if act = 0 then predRes (ctlOf? i) else (usesOf i).1).find? fun r =>
    x.vbad.any fun (q, l) => q == r && (match r with | .v _ => (readLanes (opOf i) act).getLsbD l | _ => true)

/-- A failed read (R370): where the producer still holds a log entry, which is a free choice (log 8), it is executed again and the reader
issues again; a join register, and any other read, consumes poison. -/
def failedRead (s : State) (g : Nat) (r : Res) : State :=
  let x := s.group g
  match r with
  | .j _ => consumeReg s g (rowNumber x r)
  | _ =>
    let t := { s with fresh := s.fresh + 1 }
    if Config.pick s.fresh then t.setGroup g { x with vbad := x.marksOff r } else consumeReg t g (rowNumber x r)

/-- The issue of an instruction by the group whose turn it is: the checks of R350, then the effect on the lanes of active(), or
the PC advance alone when there are none (R152). A group that cannot issue leaves the state as it is. -/
def issue (i : Instr) (body : Iss → State → State) (s : State) : Out :=
  let g := s.cur
  if s.groups.length ≤ g || (s.group g).ended then .fault .noIssuingGroup
  else
    let x := s.group g
    let early := mayHold x i && Config.pick s.fresh
    let s := if mayHold x i then { s with fresh := s.fresh + 1 } else s
    if !onCore s x || !(mayIssue x i || early) then .next s
    else if x.pcvBad then .next (consumePcv s g)
    else match x.issueAddr with
      | none => .next s
      | some a =>
        let at_ := x.lanesAt a
        let is : Iss := { g, a, len := Instr.bytes i, at_, act := x.active at_ (ctlOf? i), help := x.helpers }
        match precheck s is i with
        | some t => .next (enterTrap s g t (is.len / 4) false a)
        | none =>
          match badRead x i is.act with
          | some r => .next (failedRead s g r)
          | none =>
            let s := countIssue s x
            let s := traceGroup s 0x01 g is.act a
            let s := s.setGroup g { (x.lookahead i a is.len).unbuffer a is.len with skipBrk := x.skipBrk.filter (· != a) }
            if is.act = 0 then .next (post (s.setGroup g ((s.group g).advance at_ a is.len)) g)
            else .next (body is s)

/-- An effect on the group's registers alone, then the PC advance. -/
def regBody (f : Iss → Group → Group) (is : Iss) (s : State) : State :=
  let x := f is (s.group is.g)
  post (s.setGroup is.g (x.advance is.at_ is.a is.len)) is.g

/-- A trap of the instruction's own, taken with no log entry: every PC stays at the instruction (R350). -/
def ownTrap (is : Iss) (t : Trap) (s : State) : State := enterTrap s is.g t (is.len / 4) false is.a

-- Fault records (R229) ------------------------------------------------------------------------------------------------

def Ctx.fqUsable (x : Ctx) : Bool := wfield x.faultq 5 1 == 1 && 4 ≤ wfield x.faultq 0 5 && wfield x.faultq 0 5 ≤ 16

/-- Write pending records while the ring has space. Answers the FSEQs whose record address fails its checks. -/
def drainRecords (s : State) (c : Nat) : Nat → State × List Nat
  | 0 => (s, [])
  | fuel + 1 =>
    let x := s.ctx c
    match x.records with
    | [] => (s, [])
    | r :: rest =>
      if !x.fqUsable then
        let (s, l) := drainRecords (s.setCtx c { x with records := rest.filter (·.fseq != r.fseq) }) c fuel
        (s, r.fseq :: l)
      else if (x.fqHead - x.fqTail).toNat = 2 ^ wfield x.faultq 0 5 then (s, [])
      else
        let va := wfield x.faultq 12 45 * 4096 + 32 * (x.fqHead.toNat % 2 ^ wfield x.faultq 0 5)
        match checkAccess s { ctx := c, heap := none, need := .store, va, n := 32 } with
        | (s, .error (k, _)) =>
          let x := s.ctx c
          let s := s.setCtx c { x with records := rest.filter (·.fseq != r.fseq) }
          let s := signal (logError s { ctx := c, what := k, addr := va }) c 3
          let (s, l) := drainRecords s c fuel
          (s, r.fseq :: l)
        | (s, .ok l) =>
          let bytes := r.words.flatMap fun w => toBytes 8 w.toNat
          let s := clearPoison (writePieces s (cuView s []) ⟨.cu, 3, [], c⟩ none l bytes).1 (l.map fun p => (p.pa, p.len))
          let x := s.ctx c
          let s := s.setCtx c { x with records := rest, fqHead := x.fqHead + 1 }
          drainRecords (if r.first then signal s c 1 else s) c fuel

/-- Distinct 4 KiB pages of faults, ascending. -/
def faultPages (l : List MemFault) : List Nat :=
  (l.map fun f => f.page / 4096).foldl (fun acc p => (acc.filter (· < p)) ++ [p] ++ acc.filter (p < ·)) []

/-- The records of one faulted instruction (Table 10.11). -/
def faultRecords (fseq tag core slot pc : Nat) (wr : Bool) (lanes : Bool) (l : List MemFault) : List PendRec :=
  let ps := faultPages l
  ((List.range ps.length).zip ps).map fun (i, p) =>
    let here := l.filter fun f => f.page / 4096 == p
    let kind := match here.head? with | some f => f.kind | none => 0
    let m := if lanes then (maskOf fun n => here.any fun f => f.lane == n).toNat else 0
    { fseq, first := i = 0, words := [
      wd (p * 4096 % 2 ^ 57 + (if i + 1 = ps.length then 2 ^ 11 else 0) + (if wr then 2 ^ 10 else 0) + kind * 2 ^ 6),
      wd (tag * 2 ^ 48 + fseq % 2 ^ 48), wd (m * 2 ^ 32 + core * 2 ^ 5 + slot), wd (pc % 2 ^ 57)] }

/-- Report faults to system software (R229): the FSEQ that now waits, or none when the fault is taken at once. Behind records that wait
already, the new ones wait too; FAULT_RECORD_RESUME writes them in order. FSEQ counts the reported instructions alone (DESIGN CHOICE, log 70). -/
def report (s : State) (c tag core slot pc : Nat) (wr lanes : Bool) (l : List MemFault) : State × Option Nat :=
  if l.any fun f => immediateKind f.kind then (s, none) else
  let x := s.ctx c
  if !x.fqUsable then (s, none) else
  let n := x.fseq.toNat
  let recs := faultRecords n tag core slot pc wr lanes l
  let s := s.setCtx c { x with fseq := x.fseq + 1, records := x.records ++ recs }
  if !x.records.isEmpty then (s, some n) else
  let (s, failed) := drainRecords s c (recs.length + 1)
  if failed.contains n then (s, none) else (s, some n)

/-- TRAP.INFO of MFAULT (R232): kind and address of a fault. -/
def faultInfo (f : MemFault) : Word := wd (f.kind * 2 ^ 60 + f.addr % 2 ^ 57)

/-- The MFAULT trap of an instruction's faults: all faulting lanes; the lowest lane of an immediate kind where there is one. -/
def faultTrap (l : List MemFault) (lanes : Mask) : Trap :=
  let low := fun (l : List MemFault) => l.foldl (fun (b : Option MemFault) f =>
    match b with | none => some f | some g => if f.lane < g.lane then some f else some g) none
  let f := match low (l.filter fun f => immediateKind f.kind) with
    | some f => some f
    | none => low l
  ⟨0x07, lanes, match f with | some f => faultInfo f | none => 0⟩

end Sys2Proof.Machine
end

