-- ==== Sys2Proof/Machine/Integer.lean ====
section
/-! DEFINITION. Integer, address and move instructions (rows 0x0_ to 0x2_, chapter 8, R161). -/

namespace Sys2Proof.Machine

/-- Element k of the second source: an immediate's low w bits form every element (R175). -/
def elemC (f : Full) (w : Nat) (c : Word) (k : Nat) : Nat := if f.c.isImm then c.toNat % 2 ^ w else elem c w k

/-- Elements of one position: b, c, d and ρ. -/
structure El where
  b : Nat
  c : Nat
  d : Nat
  r : Nat

/-- A lane-wise, element-wise instruction of width w (R175, R176). -/
def elementwise (f : Full) (w : Nat) (op : El → Nat × Flags) (is : Iss) (g : Group) : Group :=
  let x := g.srcs f
  g.lanewise f.d is.act is.help fun j l => buildElems w fun k =>
    op { b := elem (cell x.b j l) w k, c := elemC f w (cell x.c j l) k, d := elem (cell x.d j l) w k, r := elem (cell x.r j l) w k }

/-- An integer instruction: results modulo 2^w, no flag. -/
def intBody (f : Full) (op : Nat → Nat → El → Int) : Iss → State → State :=
  let w := tyWidth f.ty.toNat
  regBody (elementwise f w fun e => (low (op f.ty.toNat w e) w, 0))

/-- Signed or unsigned reading by type of the low n bits. -/
def ext (t x n : Nat) : Int := intRead t n x

-- Add and subtract (R182) ---------------------------------------------------------------------------------------------

/-- Table 8.3, IADD and ISUB: exact, then wrapped or saturated. -/
def addSub (f : Full) (sub : Bool) : Iss → State → State :=
  intBody f fun t w e =>
    let b := ext t e.b w
    let c := ext t e.c w
    let r := if sub then b - c else b + c
    if f.xm = 1 then sat r (intLo t w) (intHi t w) else r

def execIaddShort (f : Short3) (s : State) : Out := issue (.iaddShort f) (addSub (shortFull f 4) false) s
def execIadd (f : Full) (s : State) : Out := issue (.iadd f) (addSub f false) s
def execIsubShort (f : Short3) (s : State) : Out := issue (.isubShort f) (addSub (shortFull f 4) true) s
def execIsub (f : Full) (s : State) : Out := issue (.isub f) (addSub f true) s

-- Multiply (R183), divide (R184), order (R182), LEA (R190) ------------------------------------------------------------

def execImul24 (f : Full) (s : State) : Out :=
  issue (.imul24 f) (intBody f fun t _ e =>
    let p := ext t e.b 24 * ext t e.c 24
    if f.xm = 1 then ((low p 48 / 2 ^ 16 : Nat) : Int) else p) s

def execImul32 (f : Full) (s : State) : Out :=
  issue (.imul32 f) (intBody f fun t w e => ext t e.b w * ext t e.c w) s

def execImulhi (f : Full) (s : State) : Out :=
  issue (.imulhi f) (intBody f fun t w e => asr (ext t e.b w * ext t e.c w) w) s

def execImad24 (f : Full) (s : State) : Out :=
  issue (.imad24 f) (intBody f fun t _ e => (e.d : Int) + ext t e.b 24 * ext t e.c 24) s

/-- Quotient and remainder of R184. -/
def divRem (t w : Nat) (b c : Int) : Int × Int :=
  if c = 0 then (-1, b)
  else if t ≥ 4 && b == intLo t w && c == -1 then (b, 0)
  else (tdiv b c, b - c * tdiv b c)

def execIdiv (f : Full) (s : State) : Out :=
  issue (.idiv f) (intBody f fun t w e =>
    let r := divRem t w (ext t e.b w) (ext t e.c w)
    if f.xm = 1 then r.2 else r.1) s

def execImin (f : Full) (s : State) : Out :=
  issue (.imin f) (intBody f fun t w e => min (ext t e.b w) (ext t e.c w)) s

def execImax (f : Full) (s : State) : Out :=
  issue (.imax f) (intBody f fun t w e => max (ext t e.b w) (ext t e.c w)) s

/-- The index of LEA: bits 31:0 of a register by the type, or 64 bits; an immediate as R130 gives it. -/
def leaIndex (f : Full) (c : Word) : Int :=
  let t := f.ty.toNat
  if f.c.isImm then c.toInt else if tyWidth t = 32 then ext t c.toNat 32 else c.toInt

def execLea (f : Full) (s : State) : Out :=
  issue (.lea f) (regBody fun is g =>
    let x := g.srcs f
    g.lanewise f.d is.act is.help fun j l =>
      (wdI ((cell x.b j l).toInt + leaIndex f (cell x.c j l) * ((2 ^ f.xm.toNat : Nat) : Int)), 0)) s

-- Logic and shifts (R182) ---------------------------------------------------------------------------------------------

def logicBody (f : Full) (op : Nat → Nat → Nat → Nat) : Iss → State → State :=
  intBody f fun _ w e => ((op w e.b e.c : Nat) : Int)

def shiftLeft (w b c : Nat) : Nat := if c < w then b * 2 ^ c else 0
def shiftRight (w b c : Nat) : Nat := if c < w then b / 2 ^ c else 0
def sarBody (f : Full) : Iss → State → State :=
  intBody f fun _ w e => asr (sext e.b w) (min e.c (w - 1))

def execAndShort (f : Short3) (s : State) : Out := issue (.andShort f) (logicBody (shortFull f 4) fun _ b c => b &&& c) s
def execAnd (f : Full) (s : State) : Out := issue (.and f) (logicBody f fun _ b c => b &&& c) s
def execOrShort (f : Short3) (s : State) : Out := issue (.orShort f) (logicBody (shortFull f 4) fun _ b c => b ||| c) s
def execOr (f : Full) (s : State) : Out := issue (.or f) (logicBody f fun _ b c => b ||| c) s
def execXorShort (f : Short3) (s : State) : Out := issue (.xorShort f) (logicBody (shortFull f 4) fun _ b c => b ^^^ c) s
def execXor (f : Full) (s : State) : Out := issue (.xor f) (logicBody f fun _ b c => b ^^^ c) s
def execAndn (f : Full) (s : State) : Out := issue (.andn f) (logicBody f fun w b c => b &&& (2 ^ w - 1 - c)) s
def execShlShort (f : Short3) (s : State) : Out := issue (.shlShort f) (logicBody (shortFull f 4) shiftLeft) s
def execShl (f : Full) (s : State) : Out := issue (.shl f) (logicBody f shiftLeft) s
def execShrShort (f : Short3) (s : State) : Out := issue (.shrShort f) (logicBody (shortFull f 4) shiftRight) s
def execShr (f : Full) (s : State) : Out := issue (.shr f) (logicBody f shiftRight) s
def execSarShort (f : Short3) (s : State) : Out := issue (.sarShort f) (sarBody (shortFull f 4)) s
def execSar (f : Full) (s : State) : Out := issue (.sar f) (sarBody f) s

-- Bit counts and fields (R185) ----------------------------------------------------------------------------------------

def execPopc (f : Full) (s : State) : Out := issue (.popc f) (intBody f fun _ w e => ((popc w e.b : Nat) : Int)) s
def execClz (f : Full) (s : State) : Out := issue (.clz f) (intBody f fun _ w e => ((clz e.b w : Nat) : Int)) s

def execBfx (f : Full) (s : State) : Out :=
  issue (.bfx f) (intBody f fun t w e =>
    let pos := field e.c 0 6
    let len := field e.c 6 6 + 1
    let x := if pos < w then e.b / 2 ^ pos % 2 ^ len else 0
    ext t x len) s

def execBfi (f : Full) (s : State) : Out :=
  issue (.bfi f) (intBody f fun _ w e =>
    let pos := field e.c 0 6
    let len := field e.c 6 6 + 1
    let m := (List.range w).foldr (fun i acc => (if pos ≤ i && i < pos + len then 1 else 0) + 2 * acc) 0
    (((e.b * 2 ^ pos) &&& m ||| e.d &&& (2 ^ w - 1 - m) : Nat) : Int)) s

-- Compare and select (R186, R187) -------------------------------------------------------------------------------------

/-- Condition codes of ICMP and LCMP on an ordering of two integers. -/
def cond (n : Nat) (a b : Int) : Bool :=
  match n with
  | 0 => a == b
  | 1 => a != b
  | 2 => a < b
  | 3 => a ≤ b
  | 4 => a > b
  | _ => a ≥ b

/-- Element 0 of B and C in each lane. -/
def cmpBody (f : Full) (test : Nat → Nat → Nat → Bool) : Iss → State → State :=
  let w := tyWidth f.ty.toNat
  regBody fun is g =>
    let b := g.run f.b
    let c := g.src f.c 1
    g.putP f.d.num.toNat is.act (maskOf fun l => test w (elem (cell b 0 l) w 0) (elemC f w (cell c 0 l) 0))

def execIcmp (f : Full) (s : State) : Out :=
  issue (.icmp f) (cmpBody f fun w b c => cond f.xm.toNat (ext f.ty.toNat b w) (ext f.ty.toNat c w)) s

def execIsel (f : Full) (s : State) : Out :=
  issue (.isel f) (regBody fun is g =>
    let x := g.srcs f
    let p := g.pred f.xm.toNat
    g.lanewise f.d is.act is.help fun j l => (if p.getLsbD l then cell x.b j l else cell x.c j l, 0)) s

-- Moves and constants (R188, R189) ------------------------------------------------------------------------------------

def movBody (d b : Reg) : Iss → State → State :=
  regBody fun is g => g.putRun d is.act 0 (g.run b)

/-- One value in every lane of active(). -/
def constBody (d : Reg) (v : Iss → Word) : Iss → State → State :=
  regBody fun is g => g.putRun d is.act 0 [rowOfWord (v is)]

def execMovShort (f : Short3) (s : State) : Out :=
  issue (.movShort f) (movBody (shortFull f 0).d (shortFull f 0).b) s
def execMov (f : Full) (s : State) : Out := issue (.mov f) (movBody f.d f.b) s
def execMoviShort (f : ShortI) (s : State) : Out :=
  issue (.moviShort f) (constBody ⟨f.k, f.d.setWidth 8, 0⟩ fun _ => f.imm.signExtend 64) s
def execMovi (f : Full) (s : State) : Out := issue (.movi f) (constBody f.d fun _ => immWord f.c) s

/-- sext(IMM20) · 2^12. -/
def imm20Hi (f : FullU) : Word :=
  match f.imm with
  | .imm20 i => i.signExtend 64 <<< 12
  | .lit _ => 0

def execImmhi (f : FullU) (s : State) : Out := issue (.immhi f) (constBody f.d fun _ => imm20Hi f) s
/-- ADDPC: the instruction's own address plus sext(imm20) · 2^12, which an add of sext(imm12) completes (R60, R181). -/
def execAddpc (f : FullU) (s : State) : Out := issue (.addpc f) (constBody f.d fun is => wd is.a + imm20Hi f) s

-- Identifiers (R161, Table 7.4) ---------------------------------------------------------------------------------------

/-- PCV element (Table 7.1). -/
def Lane.word (x : Lane) : Word :=
  if x.x then BitVec.allOnes 64
  else wd ((if x.p then 2 ^ 62 + x.n % 4 * 2 ^ 59 else 0) + (if x.h then 2 ^ 61 else 0) + x.pc % 2 ^ 57)

/-- What IDRD reads, by selector and lane. A task has no launch: its LSEQ reads as 0 (DESIGN CHOICE, log 34). -/
def identifier (s : State) (x : Group) (n l : Nat) : Word :=
  let t := s.team x.team
  let launch := t.launch.map s.launch
  match n with
  | 0 => wd l
  | 1 => wd (l / 4)
  | 2 => wd x.idx
  | 3 => wd t.ngroups
  | 4 => wd t.t
  | 5 => wd (match launch with | some y => y.teams | none => 1)
  | 6 => wd (t.t % t.crew)
  | 7 => wd (t.t / t.crew)
  | 8 => wd ((t.t * t.ngroups + x.idx) * 32 + l)
  | 9 => (x.lane l).word
  | 10 => wd t.ctx
  | 16 => wd x.core
  | 17 => wd (x.core / 4)
  | 18 => wd (s.core x.core).cycles
  | 19 => x.lamiss.setWidth 64
  | _ => wd (match launch with | some y => y.lseq | none => 0)

def execIdrd (f : Full) (s : State) : Out :=
  issue (.idrd f) (fun is s =>
    regBody (fun is g => g.putRun f.d is.act 0 [(List.range 32).map (identifier s (s.group is.g) f.c.immNat)]) is s) s

end Sys2Proof.Machine
end

