-- ==== Sys2Proof/Machine/Control.lean ====
section
/-! DEFINITION. Control flow (row 0xB_, R164 to R170). -/

namespace Sys2Proof.Machine

/-- badpc of R163. -/
def badpc (x : Int) : Bool := x < 0 || x ≥ ((2 ^ 57 : Nat) : Int) || Int.emod x 4 != 0

/-- Send lanes of active() to their targets; the other lanes at the address pass on (R152). A transfer that some lane takes is traced, with the target
of the lowest lane that takes it (R384, log 21). -/
def jump (is : Iss) (taking : Mask) (target : Nat → Nat) (s : State) : State :=
  let x := s.group is.g
  let x := x.advance (is.at_ &&& ~~~is.act) is.a is.len
  let x := x.mapLanes is.act fun l y => { y with pc := target l }
  let s := s.setGroup is.g x
  let s := match lowLane taking with
    | some l => traceGroup s 0x02 is.g is.act (target l)
    | none => s
  post s is.g

/-- A branch (R164): offset, the lanes that take it, and the link written before the lanes move. -/
def branch (off : Int) (take : Group → Nat → Bool) (link : Option Reg) (is : Iss) (s : State) : State :=
  let x := s.group is.g
  let t := (is.a : Int) + off
  let taking := maskOf fun l => is.act.getLsbD l && take x l
  if badpc t && taking ≠ 0 then ownTrap is ⟨0x04, taking, wdI t⟩ s
  else
    let x := match link with
      | some d => x.putRun d is.act 0 [rowOfWord (wd (is.a + is.len))]
      | none => x
    jump is taking (fun l => if taking.getLsbD l then t.toNat else is.a + is.len) (s.setGroup is.g x)

/-- The byte offset of layout FU (R164). -/
def dispOff (d : Disp) : Int :=
  match d with
  | .imm20 i => i.toInt * 4
  | .lit l => l.toInt

def execBraShort (imm : BitVec 22) (s : State) : Out :=
  issue (.braShort imm) (branch (imm.toInt * 4) (fun _ _ => true) none) s
def execBra (f : FullU) (s : State) : Out := issue (.bra f) (branch (dispOff f.imm) (fun _ _ => true) none) s
def execBrc (f : FullU) (s : State) : Out :=
  issue (.brc f) (branch (dispOff f.imm) (fun x l => cell (x.run f.b) 0 l != 0) none) s
def execCallShort (imm : BitVec 22) (s : State) : Out :=
  issue (.callShort imm) (branch (imm.toInt * 4) (fun _ _ => true) (some ⟨.s, 62, 0⟩)) s
def execCall (f : FullU) (s : State) : Out := issue (.call f) (branch (dispOff f.imm) (fun _ _ => true) (some f.d)) s

/-- An indirect transfer (R165): targets read before the link is written. -/
def indirect (b : Reg) (link : Option Reg) (is : Iss) (s : State) : State :=
  let x := s.group is.g
  let row := x.regRow b 0
  let target := fun l => (getAt 0 row l).toNat
  let bad := maskOf fun l => is.act.getLsbD l && badpc (target l)
  match lowLane bad with
  | some l => ownTrap is ⟨0x04, bad, getAt 0 row l⟩ s
  | none =>
    let x := match link with
      | some d => x.putRun d is.act 0 [rowOfWord (wd (is.a + is.len))]
      | none => x
    jump is is.act target (s.setGroup is.g x)

def execCalli (f : Full) (s : State) : Out := issue (.calli f) (indirect f.b (some f.d)) s
def execRetShort (s : State) : Out := issue .retShort (indirect ⟨.s, 62, 0⟩ none) s
def execRet (f : Full) (s : State) : Out := issue (.ret f) (indirect f.b none) s

def execJoin (f : Full) (s : State) : Out :=
  issue (.join f) (regBody fun is g =>
    let m := if f.xm = 1 then (g.sreg f.b.num.toNat).setWidth 32 else is.act
    { g with j := setAt 0 g.j f.d.num.toNat m, vbad := g.marksOff (.j f.d.num.toNat) }) s

def execWait (f : Full) (s : State) : Out :=
  issue (.wait f) (fun is s =>
    let x := s.group is.g
    let x := x.advance (is.at_ &&& ~~~is.act) is.a is.len
    let x := x.mapLanes is.act fun _ y => { y with p := true, n := f.d.num.toNat }
    post (s.setGroup is.g x) is.g) s

/-- EXIT (R168): exits, or with .H helpers where the quad keeps another live lane that is no helper and does not exit too. -/
def exitBody (h : Bool) (is : Iss) (s : State) : State :=
  let x := s.group is.g
  let x := x.advance (is.at_ &&& ~~~is.act) is.a is.len
  let stays := x.live &&& ~~~x.helpers &&& ~~~is.act
  let keeps := fun l => (span (l / 4 * 4) 4).any fun m => m != l && stays.getLsbD m
  let x := x.mapLanes is.act fun l y => if h && keeps l then { y with h := true, pc := is.a + is.len } else { x := true }
  post (s.setGroup is.g x.helperRule) is.g

def execExitShort (s : State) : Out := issue .exitShort (exitBody false) s
def execExit (f : Full) (s : State) : Out := issue (.exit f) (exitBody (f.xm = 1)) s

/-- TRAP (R169): every lane at the address advances (R152), then the group traps with SWTRAP at the TRAP's own address. -/
def execTrap (f : Full) (s : State) : Out :=
  issue (.trap f) (fun is s =>
    let x := s.group is.g
    let s := s.setGroup is.g (x.advance is.at_ is.a is.len)
    enterTrap s is.g ⟨0x0F, is.act, wd f.c.immNat⟩ (is.len / 4) false is.a) s

def execNopShort (s : State) : Out := issue .nopShort (regBody fun _ g => g) s
def execNop (f : Full) (s : State) : Out := issue (.nop f) (regBody fun _ g => g) s

end Sys2Proof.Machine
end

