-- ==== Sys2Proof/Machine/Funcs.lean ====
section
/-! DEFINITION. The ten elementary functions (chapter 9): settled inputs, the fast path to the bit, the band, and the correctly
rounded second phase. -/

namespace Sys2Proof.Machine

/-- The functions of Table 9.1. -/
inductive Fn where
  | exp2 | exp | log2 | ln | sinpi | cospi | tanh | sigm | erf | softp
  deriving DecidableEq, Repr

/-- 2^x at x = n · 2^-k for any sign, fixed point. -/
def powAt (p : Nat) (n : Int) (k : Nat) : Iv := pow2I p n k

/-- log2 e. -/
def log2eI (p : Nat) : Iv := Iv.div p (one p) (ln2I p)

/-- The branch functions G(u) of Table 9.5 and their first two derivatives in u, at v = 2^u: exact formulas with
h = v·f′(v)/f(v), G′ = h. `q` below is e^(−v) or e^(−2v). -/
inductive Gd where | f | d1 | d2
  deriving DecidableEq, Repr

/-- G for tanh: tanh v = (1−q)/(1+q), q = e^(−2v); G′ = 4vq/(1−q²); G″ = ln 2 · G′ · (1 − 2v(1+q²)/(1−q²)). -/
def gTanh (p : Nat) (v : Iv) (d : Gd) : Iv :=
  let q := expFix p (v.scale (-2))
  let q2 := Iv.mul p q q
  let den := (one p).sub q2
  let h := Iv.div p (Iv.mul p (v.scale 4) q) den
  match d with
  | .f => (log2I p ((one p).sub q)).sub (log2I p ((one p).add q))
  | .d1 => h
  | .d2 => Iv.mul p (ln2I p) (Iv.mul p h ((one p).sub (Iv.div p (Iv.mul p (v.scale 2) ((one p).add q2)) den)))

/-- G for erf, v < 8: G′ = v(2/√π)e^(−v²)/erf v; G″ = ln 2 · (h − 2v²h − h²). -/
def gErf (p : Nat) (v : Iv) (d : Gd) : Iv :=
  let E := erfI p v
  let v2 := Iv.mul p v v
  let c := Iv.div p ((one p).scale 2) (sqrtI p (piI p))
  let h := Iv.div p (Iv.mul p (Iv.mul p v c) (expFix p v2.neg)) E
  match d with
  | .f => log2I p E
  | .d1 => h
  | .d2 => Iv.mul p (ln2I p) ((h.sub ((Iv.mul p v2 h).scale 2)).sub (Iv.mul p h h))

/-- G for sigm with s = 0: −log2(1+e^(−v)); s = 1: −log2(1+e^v). -/
def gSigm (p : Nat) (s : Nat) (v : Iv) (d : Gd) : Iv :=
  let q := expFix p v.neg
  let den := (one p).add q
  let sp := Iv.div p (one p) den
  let sn := Iv.div p q den
  let l := log2I p den
  let prod := Iv.mul p (Iv.mul p v sp) sn
  match d with
  | .f => if s = 0 then l.neg else ((Iv.mul p v (log2eI p)).add l).neg
  | .d1 => if s = 0 then Iv.mul p v sn else (Iv.mul p v sp).neg
  | .d2 =>
    if s = 0 then Iv.mul p (ln2I p) (Iv.mul p v (sn.sub prod))
    else (Iv.mul p (ln2I p) (Iv.mul p v (sp.add prod))).neg

/-- G for softp: log2 L with L = ln(1+e^v) (s = 0) or ln(1+e^(−v)) (s = 1). -/
def gSoftp (p : Nat) (s : Nat) (v : Iv) (d : Gd) : Iv :=
  let q := expFix p v.neg
  let den := (one p).add q
  let sp := Iv.div p (one p) den
  let sn := Iv.div p q den
  let l1 := lnI p den
  let L := if s = 0 then v.add l1 else l1
  if L.lo ≤ 0 then ⟨-((2 ^ (2 * p) : Nat) : Int), ((2 ^ (2 * p) : Nat) : Int)⟩
  else
    let h := if s = 0 then Iv.div p (Iv.mul p v sp) L else (Iv.div p (Iv.mul p v sn) L).neg
    match d with
    | .f => log2I p L
    | .d1 => h
    | .d2 =>
      let t := if s = 0 then Iv.mul p (Iv.mul p h v) sn else (Iv.mul p (Iv.mul p h v) sp).neg
      Iv.mul p (ln2I p) ((h.add t).sub (Iv.mul p h h))

/-- G and its derivatives by function, at u = n · 2^-12. Past v = 8 every scaled coefficient of erf is below one half. -/
def gAt (fn : Fn) (s : Nat) (n : Int) (d : Gd) (p : Nat) : Iv :=
  let v := powAt p n 12
  match fn with
  | .tanh => gTanh p v d
  | .erf => if n ≥ 3 * 4096 then Iv.pt 0 else gErf p v d
  | .sigm => gSigm p s v d
  | _ => gSoftp p s v d

/-- fseg (R208) from the three coefficients at their scale. -/
def fseg (f0 f1 f2 : Nat → Iv) (wl : Nat) (tau W : Nat) : Int :=
  let b0 := rnReal f0 40
  let b1 := rnReal (fun p => (f1 p).shr wl) 40
  let b2 := rnReal (fun p => (f2 p).shr (2 * wl + 1)) 40
  let t2 : Nat := tau * tau / 2 ^ W
  b0 + asr (b1 * (tau : Int)) W + asr (b2 * (t2 : Int)) W

/-- pw (Table 9.4). -/
def kPw (fr : Nat) : Int :=
  let i : Nat := fr / 2 ^ 28
  fseg (fun p => powAt p i 12) (fun p => Iv.mul p (powAt p i 12) (ln2I p))
    (fun p => Iv.mul p (Iv.mul p (powAt p i 12) (ln2I p)) (ln2I p)) 12 (fr % 2 ^ 28) 28

/-- lg (Table 9.4). -/
def kLg (m : Nat) : Int :=
  let i : Nat := m / 2 ^ 27
  let a : Nat := 8192 + i
  fseg (fun p => log2RatI p a 8192)
    (fun p => Iv.div p ((one p).scale 8192) ((ln2I p).scale (a : Int)))
    (fun p => (Iv.div p ((one p).scale (8192 * 8192)) ((ln2I p).scale ((a * a : Nat) : Int))).neg) 13 (m % 2 ^ 27) 27

/-- hs = log2(sin(πx)/x) and its derivatives (π cot πx − 1/x)/ln 2 and (1/x² − π²/sin² πx)/ln 2, at x = i · 2^-13; limits at 0. -/
def hsAt (i : Nat) (d : Gd) (p : Nat) : Iv :=
  let pi := piI p
  let l2 := ln2I p
  if i = 0 then
    match d with
    | .f => log2I p pi
    | .d1 => Iv.pt 0
    | .d2 => ((Iv.div p (Iv.mul p pi pi) l2).divN 3).neg
  else
    let x : Iv := Iv.pt ((i * 2 ^ (p - 13) : Nat) : Int)
    let th := Iv.mul p pi x
    let sn := sinI p th
    match d with
    | .f => (log2I p sn).sub (log2I p x)
    | .d1 => Iv.div p ((Iv.div p (Iv.mul p pi (cosI p th)) sn).sub (Iv.div p (one p) x)) l2
    | .d2 =>
      let r := Iv.div p pi sn
      Iv.div p ((Iv.div p (Iv.div p (one p) x) x).sub (Iv.mul p r r)) l2

/-- hs kernel (Table 9.4). -/
def kHs (y : Nat) : Int :=
  let i : Nat := y / 2 ^ 27
  fseg (hsAt i .f) (hsAt i .d1) (hsAt i .d2) 13 (y % 2 ^ 27) 27

/-- gf kernel (Table 9.4). -/
def kGf (fn : Fn) (s : Nat) (U : Int) : Int :=
  let n := asr U 28
  let tau := (U - n * 2 ^ 28).toNat
  fseg (gAt fn s n .f) (gAt fn s n .d1) (gAt fn s n .d2) 12 tau 28

/-- The constants of R209. -/
def cC2E : Int := rnReal (fun p => log2I p (log2eI p)) 40
def cLE : Int := rnReal log2eI 40
def cCE : Int := rnReal (fun p => log2I p (Iv.div p ((one p).scale 2) (sqrtI p (piI p)))) 40
def cK40 : Int := rnReal (fun p => log2I p (ln2I p)) 40

/-- pow2v (R210). -/
def pow2v (W : Int) : Int × Int × Int :=
  let n := asr W 40
  let fr := (W - n * 2 ^ 40).toNat
  let V := if n ≥ 0 then kPw fr * 2 ^ n.toNat else asr (kPw fr) (-n).toNat
  let eV : Int := if fr = 0 ∧ n ≥ -40 then 0 else 6 * 2 ^ n.toNat + 1
  (n, V, eV)

/-- negtail (R210). -/
def negtail (U : Int) : Int × Int :=
  let n := asr U 40
  if n ≥ 8 then (-(2 ^ 48), 0)
  else
    let (n, V, eV) := pow2v U
    (-asr (V * cLE) 40, 2 * eV + 2 ^ n.toNat + 1)

/-- fast (R210) on a number (s, e); `none` is the zero input of FSOFTP. The triple is (σ, λ, β). -/
def fastPath (fn : Fn) (s : Nat) (e : Option Int) (F : Nat) : Nat × Int × Int :=
  let U : Int := match e with | some e => e * 2 ^ (40 - F) | none => -(2 ^ 50)
  let expo (ln : Bool) : Nat × Int × Int :=
    let W := U + (if ln then cC2E else 0)
    if asr W 40 ≥ 8 then (0, (if s = 0 then 2 ^ 48 else -(2 ^ 48)), 0)
    else
      let (n, V, eV) := pow2v W
      (0, (if s = 0 then V else -V), eV + (if ln then 2 ^ n.toNat else 0))
  let logs (ln : Bool) : Nat × Int × Int :=
    let ev := e.getD 1
    let a := ev.natAbs
    let p := Nat.log2 a
    let lam : Int := ((p : Int) - F) * 2 ^ 40 + kLg (a * 2 ^ (40 - p) - 2 ^ 40) + (if ln then cK40 else 0)
    (if ev < 0 then 1 else 0, lam, if ln then 6 else 5)
  let trig (cos : Bool) : Nat × Int × Int :=
    let (n, V, eV) := pow2v U
    let sg0 := if cos then 0 else s
    let y0 := fmod (V + (if cos then 2 ^ 39 else 0)) (2 ^ 41)
    let (sg, y1) := if y0 ≥ 2 ^ 40 then (1 - sg0, y0 - 2 ^ 40) else (sg0, y0)
    let y := (if y1 > 2 ^ 39 then 2 ^ 40 - y1 else y1).toNat
    if y = 0 then (sg, -(2 ^ 48), 2 ^ 48)
    else if !cos ∧ n ≤ -2 then (sg, U + kHs y, 8 + 4 * eV)
    else
      let p := Nat.log2 y
      let L : Int := ((p : Int) - 40) * 2 ^ 40 + kLg (y * 2 ^ (40 - p) - 2 ^ 40)
      if (y : Int) ≤ eV then (sg, L + kHs y, 2 ^ 48)
      else (sg, L + kHs y, 8 + 4 * eV + cdiv (3 * eV * 2 ^ 39) y)
  let rest : Nat × Int × Int :=
    let sg := match fn with | .tanh => s | .erf => s | _ => 0
    let (lam, beta) : Int × Int :=
      if U < -(40 * 2 ^ 40) then
        match fn with
        | .tanh => (U, 1)
        | .erf => (U + cCE, 2)
        | .sigm => (-(2 ^ 40), 1)
        | _ => (cK40, 2)
      else if U ≥ 6 * 2 ^ 40 then
        match fn, s with
        | .tanh, _ => (0, 1)
        | .erf, _ => (0, 1)
        | .sigm, 0 => (0, 1)
        | .sigm, _ => negtail U
        | _, 0 => (U, 1)
        | _, _ => negtail U
      else (kGf fn s U, 256)
    (sg, lam, beta)
  match fn with
  | .exp2 => expo false
  | .exp => expo true
  | .log2 => logs false
  | .ln => logs true
  | .sinpi => trig false
  | .cospi => trig true
  | _ => rest

/-- rndlog of a log in units of 2^-40. -/
def rnd40 (s : Nat) (lam : Int) (f : Fmt) (mode : RMode) : Nat × Flags := rndDyadic s lam 40 f mode 0

/-- band (R211): the codes, or the OVF or UNF, of the two ends differ. -/
def inBand (sg : Nat) (lam beta : Int) (f : Fmt) (mode : RMode) : Bool :=
  let a := rnd40 sg (lam - beta) f mode
  let b := rnd40 sg (lam + beta) f mode
  a.1 != b.1 || (a.2 &&& 6) != (b.2 &&& 6)

/-- A log beyond every format's range. -/
def farLog (neg : Bool) : LogVal := ⟨if neg then -(2 ^ 74) else 2 ^ 74, true⟩

/-- The exact log2|f(x)| and the sign of f(x) for an unsettled number (second phase, R212); `none` is zero, for FSOFTP. -/
def exactFn (fn : Fn) (s : Nat) (e : Option Int) (F : Nat) : Nat × LogVal :=
  let ev := e.getD 0
  let n := asr ev F
  let v (p : Nat) : Iv := powAt p ev F
  let expo (ln : Bool) : Nat × LogVal :=
    if n ≥ 10 then (0, farLog (s == 1))
    else if !ln && ev % ((2 ^ F : Nat) : Int) == 0 then
      -- the log is the number 2^n or −2^n itself
      if n ≥ -64 then (0, .dyadic ((if s = 0 then 1 else -1) * ((2 ^ (64 + n).toNat : Nat) : Int)) 64)
      else (0, ⟨if s = 0 then 0 else -1, true⟩)
    else (0, .ofReal fun p =>
      let y := if ln then Iv.mul p (v p) (log2eI p) else v p
      if s = 0 then y else y.neg)
  let trig (cos : Bool) : Nat × LogVal :=
    let half : Nat := if cos then 1 else 0
    let q (p : Nat) : Nat × Int × Iv :=
      let pp := p + n.toNat + 2
      let y := ((v pp).scale 2).add ((one pp).scale (half : Int))
      (pp, asr y.lo (pp + 1), y)
    let fl := floorReal (fun p =>
      let (pp, _, y) := q p
      ⟨asr y.lo (pp - p + 1), asr y.hi (pp - p + 1)⟩) 0
    let sg := (if fl % 2 = 0 then 0 else 1) + (if cos then 0 else s)
    (sg % 2, .ofReal fun p =>
      let (pp, _, y) := q p
      let r : Iv := (y.sub (((one pp).scale fl).scale 2)).shr 1
      let r2 : Iv := if 2 * r.lo > (one pp).lo then (one pp).sub r else r
      log2I pp (sinI pp (Iv.mul pp (piI pp) r2)) |>.shr ((pp - p : Nat) : Int))
  match fn with
  | .exp2 => expo false
  | .exp => expo true
  | .log2 => (if ev < 0 then 1 else 0, .ofRat ev.natAbs (2 ^ F))
  | .ln => (if ev < 0 then 1 else 0, .ofReal fun p =>
      (log2RatI p (max ev.natAbs 1) (2 ^ F)).add (log2I p (ln2I p)))
  | .sinpi => trig false
  | .cospi => trig true
  | .tanh => (s, if n ≥ 6 then ⟨-1, true⟩ else .ofReal fun p => gTanh p (v p) .f)
  | .erf => (s, if n ≥ 3 then ⟨-1, true⟩ else .ofReal fun p => gErf p (v p) .f)
  | .sigm =>
    (0, if s = 0 then (if n ≥ 6 then ⟨-1, true⟩ else .ofReal fun p => gSigm p 0 (v p) .f)
        else if n ≥ 10 then farLog true else .ofReal fun p => gSigm p 1 (v p) .f)
  | .softp =>
    (0, match e with
      | none => .ofReal fun p => log2I p (ln2I p)
      | some _ =>
        if s = 0 then (if n ≥ 6 then ⟨ev * 2 ^ (64 - F), true⟩ else .ofReal fun p => gSoftp p 0 (v p) .f)
        else if n ≥ 10 then farLog true else .ofReal fun p => gSoftp p 1 (v p) .f)

/-- Settled inputs (Table 9.3): the code and its flags. -/
def settled (fn : Fn) (f : Fmt) (mode : RMode) (x : Val) : Option (Nat × Flags) :=
  match x with
  | .nar => some (narCode f, 0)
  | .zero =>
    match fn with
    | .exp2 => some (codeOf f 0 0, 0)
    | .exp => some (codeOf f 0 0, 0)
    | .log2 => some (codeOf f 1 f.emax, fOVF ||| fINX)
    | .ln => some (codeOf f 1 f.emax, fOVF ||| fINX)
    | .sinpi => some (zeroCode f, 0)
    | .cospi => some (codeOf f 0 0, 0)
    | .tanh => some (zeroCode f, 0)
    | .erf => some (zeroCode f, 0)
    | .sigm => some (codeOf f 0 (-((2 ^ f.F : Nat) : Int)), 0)
    | .softp => none
  | .num s e =>
    let n := asr e f.F
    let whole : Bool := e % ((2 ^ f.F : Nat) : Int) == 0
    let h := ((2 ^ (f.F - 1) : Nat) : Int)
    match fn with
    | .exp2 =>
      if whole ∧ n ≥ -40 then
        let y : Int := if n ≥ 0 then 2 ^ n.toNat * 2 ^ 40 else 2 ^ (40 + n).toNat
        some (rndDyadic 0 (if s = 0 then y else -y) 40 f mode 0)
      else none
    | .exp => none
    | .log2 =>
      if s = 1 then some (narCode f, fNAR)
      else if e = 0 then some (zeroCode f, 0)
      else if e.natAbs = 2 ^ Nat.log2 e.natAbs then
        some (codeOf f (if e < 0 then 1 else 0) (((Nat.log2 e.natAbs : Int) - f.F) * ((2 ^ f.F : Nat) : Int)), 0)
      else none
    | .ln => if s = 1 then some (narCode f, fNAR) else if e = 0 then some (zeroCode f, 0) else none
    | .sinpi =>
      if !whole then none
      else if n ≥ 0 then some (zeroCode f, 0)
      else if n = -1 then some (codeOf f s 0, 0)
      else if n = -2 then some (codeOf f s (-h), 0)
      else none
    | .cospi =>
      if !whole then none
      else if n ≥ 1 then some (codeOf f 0 0, 0)
      else if n = 0 then some (codeOf f 1 0, 0)
      else if n = -1 then some (zeroCode f, 0)
      else if n = -2 then some (codeOf f 0 (-h), 0)
      else none
    | _ => none

/-- Sign and exponent of an unsettled input; zero has no exponent. -/
def unsettled (x : Val) : Nat × Option Int := match x with | .num s e => (s, some e) | _ => (0, none)

/-- An element lies in the band: the second phase computes it (R212, R214). -/
def bandElem (fn : Fn) (f : Fmt) (mode : RMode) (c : Nat) : Bool :=
  let x := decodeLog f c
  (settled fn f mode x).isNone &&
    let (sg, lam, beta) := fastPath fn (unsettled x).1 (unsettled x).2 f.F
    inBand sg lam beta f mode

/-- One element of a function instruction (R212, R213). -/
def fnElem (fn : Fn) (aform : Bool) (f : Fmt) (mode : RMode) (c : Nat) : Nat × Flags :=
  let x := decodeLog f c
  match settled fn f mode x with
  | some r => r
  | none =>
    let (s, e) := unsettled x
    let (sg, lam, beta) := fastPath fn s e f.F
    let r :=
      if aform || !inBand sg lam beta f mode then rnd40 sg lam f mode
      else
        let (sf, l) := exactFn fn s e f.F
        rndlog sf l (.rat 1 1) f mode 0
    (r.1, r.2 ||| fINX)

end Sys2Proof.Machine
end

