-- ==== Sys2Proof/Machine/Log.lean ====
section
/-! DEFINITION. Logarithmic arithmetic, conversions, dot products and the elementary functions (rows 0x4_, 0x5_, 0x8_, 0x9_;
chapters 8 and 9). -/

namespace Sys2Proof.Machine

/-- A logarithmic instruction: an operation on the codes of one element position in the format of TYPE (R175, R192). -/
def logBody (f : Full) (op : Fmt → RMode → El → Nat × Flags) : Iss → State → State :=
  let fmt := fmtOf f.ty.toNat
  regBody (elementwise f fmt.w (op fmt (rmodeOf f.rnd.toNat)))

/-- NaR from operands none of which is NaR. -/
def newNar (f : Fmt) : Nat × Flags := (narCode f, fNAR)

-- Multiply, divide, reciprocal, roots (R192) --------------------------------------------------------------------------

def lmulElem (f : Fmt) (m : RMode) (e : El) : Nat × Flags :=
  match decodeLog f e.b, decodeLog f e.c with
  | .nar, _ => (narCode f, 0)
  | _, .nar => (narCode f, 0)
  | .zero, _ => (zeroCode f, 0)
  | _, .zero => (zeroCode f, 0)
  | .num sb eb, .num sc ec => rndDyadic (sb ^^^ sc) (eb + ec) f.F f m e.r

def ldivElem (f : Fmt) (m : RMode) (e : El) : Nat × Flags :=
  match decodeLog f e.b, decodeLog f e.c with
  | .nar, _ => (narCode f, 0)
  | _, .nar => (narCode f, 0)
  | _, .zero => newNar f
  | .zero, _ => (zeroCode f, 0)
  | .num sb eb, .num sc ec => rndDyadic (sb ^^^ sc) (eb - ec) f.F f m e.r

def lrcpElem (f : Fmt) (m : RMode) (e : El) : Nat × Flags :=
  match decodeLog f e.b with
  | .nar => (narCode f, 0)
  | .zero => newNar f
  | .num s x => rndDyadic s (-x) f.F f m e.r

def lsqrtElem (f : Fmt) (m : RMode) (e : El) : Nat × Flags :=
  match decodeLog f e.b with
  | .nar => (narCode f, 0)
  | .zero => (zeroCode f, 0)
  | .num s x => if s = 0 then rndDyadic 0 x (f.F + 1) f m e.r else newNar f

def lrsqElem (f : Fmt) (m : RMode) (e : El) : Nat × Flags :=
  match decodeLog f e.b with
  | .nar => (narCode f, 0)
  | .zero => newNar f
  | .num s x => if s = 0 then rndDyadic 0 (-x) (f.F + 1) f m e.r else newNar f

def execLmulShort (f : Short3) (s : State) : Out := issue (.lmulShort f) (logBody (shortFull f 8) lmulElem) s
def execLmul (f : Full) (s : State) : Out := issue (.lmul f) (logBody f lmulElem) s
def execLdiv (f : Full) (s : State) : Out := issue (.ldiv f) (logBody f ldivElem) s
def execLrcp (f : Full) (s : State) : Out := issue (.lrcp f) (logBody f lrcpElem) s
def execLsqrt (f : Full) (s : State) : Out := issue (.lsqrt f) (logBody f lsqrtElem) s
def execLrsq (f : Full) (s : State) : Out := issue (.lrsq f) (logBody f lrsqElem) s

-- Add, subtract, multiply-accumulate (R193) ---------------------------------------------------------------------------

def laddElem (f : Fmt) (m : RMode) (e : El) : Nat × Flags := addlog e.b e.c f m e.r
def lsubElem (f : Fmt) (m : RMode) (e : El) : Nat × Flags := addlog e.b (negLog f e.c) f m e.r

/-- lmac (R193). -/
def lmacElem (f : Fmt) (m : RMode) (e : El) : Nat × Flags :=
  match decodeLog f e.d, decodeLog f e.b, decodeLog f e.c with
  | .nar, _, _ => (narCode f, 0)
  | _, .nar, _ => (narCode f, 0)
  | _, _, .nar => (narCode f, 0)
  | d, .zero, _ => (d.code f, 0)
  | d, _, .zero => (d.code f, 0)
  | .zero, .num sb eb, .num sc ec => rndDyadic (sb ^^^ sc) (eb + ec) f.F f m e.r
  | .num sd ed, .num sb eb, .num sc ec => addcore sd ed (sb ^^^ sc) (eb + ec) f m e.r

def execLaddShort (f : Short3) (s : State) : Out := issue (.laddShort f) (logBody (shortFull f 8) laddElem) s
def execLadd (f : Full) (s : State) : Out := issue (.ladd f) (logBody f laddElem) s
def execLsubShort (f : Short3) (s : State) : Out := issue (.lsubShort f) (logBody (shortFull f 8) lsubElem) s
def execLsub (f : Full) (s : State) : Out := issue (.lsub f) (logBody f lsubElem) s
def execLmacShort (f : Short3) (s : State) : Out := issue (.lmacShort f) (logBody (shortFull f 8) lmacElem) s
def execLmac (f : Full) (s : State) : Out := issue (.lmac f) (logBody f lmacElem) s

-- Sign and order (R194, R195) -----------------------------------------------------------------------------------------

def labsElem (f : Fmt) (e : El) : Nat :=
  match decodeLog f e.b with
  | .num _ x => codeOf f 0 x
  | v => v.code f

def minMaxElem (max : Bool) (f : Fmt) (e : El) : Nat := (logPick f max (decodeLog f e.b) (decodeLog f e.c)).code f

def execLneg (f : Full) (s : State) : Out := issue (.lneg f) (logBody f fun fmt _ e => (negLog fmt e.b, 0)) s
def execLabs (f : Full) (s : State) : Out := issue (.labs f) (logBody f fun fmt _ e => (labsElem fmt e, 0)) s
def execLminShort (f : Short3) (s : State) : Out :=
  issue (.lminShort f) (logBody (shortFull f 8) fun fmt _ e => (minMaxElem false fmt e, 0)) s
def execLmin (f : Full) (s : State) : Out := issue (.lmin f) (logBody f fun fmt _ e => (minMaxElem false fmt e, 0)) s
def execLmaxShort (f : Short3) (s : State) : Out :=
  issue (.lmaxShort f) (logBody (shortFull f 8) fun fmt _ e => (minMaxElem true fmt e, 0)) s
def execLmax (f : Full) (s : State) : Out := issue (.lmax f) (logBody f fun fmt _ e => (minMaxElem true fmt e, 0)) s

/-- The condition of LCMP (R195). -/
def lcmpTest (n : Nat) (f : Fmt) (b c : Nat) : Bool :=
  match logKey f (decodeLog f b), logKey f (decodeLog f c) with
  | some x, some y => n ≠ 6 && cond n x y
  | _, _ => n == 1 || n == 6

def execLcmp (f : Full) (s : State) : Out :=
  issue (.lcmp f) (cmpBody f fun _ b c => lcmpTest f.xm.toNat (fmtOf f.ty.toNat) b c) s

-- Scale, extract, build, round (R196 to R199) ---------------------------------------------------------------------------

def lscaleElem (fr : Nat) (f : Fmt) (m : RMode) (e : El) : Nat × Flags :=
  match decodeLog f e.b with
  | .nar => (narCode f, 0)
  | .zero => (zeroCode f, 0)
  | .num s x =>
    let n := sext e.c f.w
    if fr ≤ f.F then rndDyadic s (x + n * ((2 ^ (f.F - fr) : Nat) : Int)) f.F f m e.r
    else rndDyadic s (x * ((2 ^ (fr - f.F) : Nat) : Int) + n) fr f m e.r

def lextElem (flr : Bool) (f : Fmt) (e : El) : Nat :=
  match decodeLog f e.b with
  | .zero => 2 ^ (f.w - 1)
  | .nar => 2 ^ (f.w - 1) - 1
  | .num _ x => low (if flr then fdiv x ((2 ^ f.F : Nat) : Int) else x) f.w

def lfromElem (neg : Bool) (f : Fmt) (m : RMode) (e : El) : Nat × Flags :=
  if e.b = 2 ^ (f.w - 1) then (zeroCode f, 0)
  else if e.b = 2 ^ (f.w - 1) - 1 then (narCode f, 0)
  else rndDyadic (if neg then 1 else 0) (sext e.b f.w) f.F f m 0

/-- LRND (R199): rounding by rndlog to F′ fraction bits, then saturation to the grid's largest log. -/
def lrndElem (f : Fmt) (m : RMode) (e : El) : Nat × Flags :=
  let fr := field e.c 0 5
  match decodeLog f e.b with
  | .nar => (narCode f, 0)
  | .zero => (zeroCode f, 0)
  | .num s x =>
    if f.F ≤ fr then (codeOf f s x, 0)
    else
      let g : Fmt := ⟨f.w, fr⟩
      let step : Int := ((2 ^ (f.F - fr) : Nat) : Int)
      let (c, fl) := rndDyadic s x f.F g m e.r
      match decodeLog g c with
      | .num _ y =>
        let top := fdiv f.emax step
        if y > top then (codeOf f s (top * step), fOVF ||| fINX) else (codeOf f s (y * step), fl)
      | _ => (canon f e.b, fl)

def execLscale (f : Full) (s : State) : Out := issue (.lscale f) (logBody f (lscaleElem f.xm.toNat)) s
def execLext (f : Full) (s : State) : Out := issue (.lext f) (logBody f fun fmt _ e => (lextElem (f.xm = 1) fmt e, 0)) s
def execLfrom (f : Full) (s : State) : Out := issue (.lfrom f) (logBody f (lfromElem (f.xm = 1))) s
def execLrnd (f : Full) (s : State) : Out := issue (.lrnd f) (logBody f lrndElem) s

-- Conversions (R200 to R204) --------------------------------------------------------------------------------------------

/-- Element i of the B run becomes element i of the D run; `op` takes the lane, the element and ρ. -/
def convBody (f : Full) (ws wdst : Nat) (op : Word → Nat → Nat → Nat × Flags) : Iss → State → State :=
  regBody fun is g =>
    let b := g.run f.b
    let c := g.src f.c 1
    let r := g.rand f
    g.lanewise f.d is.act is.help fun j l => buildElems wdst fun k =>
      op (cell c 0 l) (runElem b ws l (j * (64 / wdst) + k)) (elem (cell r j l) wdst k)

/-- LCVT of one element with scale k (R200). -/
def lcvtElem (fs fd : Fmt) (k : Int) (m : RMode) (x rho : Nat) : Nat × Flags :=
  match decodeLog fs x with
  | .nar => (narCode fd, 0)
  | .zero => (zeroCode fd, 0)
  | .num s e =>
    let sh := k * ((2 ^ fs.F : Nat) : Int)
    rndDyadic s (if fs.w = 8 then e + sh else e - sh) fs.F fd m rho

def execLcvt (f : Full) (s : State) : Out :=
  let fs := fmtOf (lcvtSource f.xm.toNat)
  let fd := fmtOf f.ty.toNat
  issue (.lcvt f) (convBody f fs.w fd.w fun c x rho => lcvtElem fs fd (sext c.toNat 8) (rmodeOf f.rnd.toNat) x rho) s

/-- A value as an integer of a type (R204). -/
def valToInt (t w s : Nat) (m : Mag) (mode : RMode) : Nat × Flags :=
  let (v, fl) := toInteger (intLo t w) (intHi t w) s m mode
  (low v w, fl)

/-- CVT of one element between two types (Table 8.5). -/
def cvtElem (ts td : Nat) (satur : Bool) (mode : RMode) (x rho : Nat) : Nat × Flags :=
  let ws := tyWidth ts
  let wt := tyWidth td
  if isInt ts then
    let n := intRead ts ws x
    if isInt td then (low (if satur then sat n (intLo td wt) (intHi td wt) else n) wt, 0)
    else
      let s := if n < 0 then 1 else 0
      if isLog td then if n = 0 then (zeroCode (fmtOf td), 0) else rndRat s n.natAbs 1 (fmtOf td) mode rho
      else if n = 0 then (0, 0) else exportIeee (ifmtOf td) false s (.rat n.natAbs 1) mode rho
  else if isLog ts then
    let fs := fmtOf ts
    let v := decodeLog fs x
    if isInt td then
      match v with
      | .nar => (0, fNAR ||| fINX)
      | .zero => (0, 0)
      | .num s e => valToInt td wt s (.pow e fs.F) mode
    else if isLog td then
      match v with
      | .num s e => rndDyadic s e fs.F (fmtOf td) mode rho
      | v => (v.code (fmtOf td), 0)
    else exportLog (ifmtOf td) v fs.F mode rho
  else
    let fi := ifmtOf ts
    if isInt td then
      match decodeIeee fi x with
      | .nan => (0, fNAR ||| fINX)
      | .zero _ => (0, 0)
      | .inf s => (low (if s = 1 then intLo td wt else intHi td wt) wt, fOVF ||| fINX)
      | .fin s n k => valToInt td wt s (magOf n k) mode
    else if isLog td then importLog (decodeIeee fi x) 0 (fmtOf td) mode rho
    else ieeeToIeee fi (ifmtOf td) x mode rho

def execCvt (f : Full) (s : State) : Out :=
  let ts := match f.c with | .reg c => c.num.toNat | _ => 0
  let td := f.ty.toNat
  issue (.cvt f) (regBody fun is g =>
    let b := g.run f.b
    let r := g.rand f
    g.lanewise f.d is.act is.help fun j l => buildElems (tyWidth td) fun k =>
      cvtElem ts td (f.xm = 1) (rmodeOf f.rnd.toNat) (runElem b (tyWidth ts) l (j * (64 / tyWidth td) + k))
        (elem (cell r j l) (tyWidth td) k)) s

-- Dot products (R201) ---------------------------------------------------------------------------------------------------

/-- A leaf: the exact product of two codes of a format, in L32. -/
def dotLeaf (f : Fmt) (m : RMode) (x y : Nat) : Nat × Flags :=
  match decodeLog f x, decodeLog f y with
  | .nar, _ => (narCode l32, 0)
  | _, .nar => (narCode l32, 0)
  | .zero, _ => (zeroCode l32, 0)
  | _, .zero => (zeroCode l32, 0)
  | .num sx ex, .num sy ey => rndDyadic (sx ^^^ sy) (ex + ey) f.F l32 m 0

/-- One accumulation: four products, their tree, and the accumulator. -/
def dot4 (f : Fmt) (m : RMode) (d rho : Nat) (l : List (Nat × Nat)) : Nat × Flags :=
  let nm := if m = .rs then .rn else m
  let leaves := l.map fun (x, y) => dotLeaf f nm x y
  let (root, fl) := treeLog l32 nm 0 (leaves.map (·.1))
  let (acc, fa) := addlog d root l32 m rho
  (acc, unionFlags (leaves.map (·.2)) ||| fl ||| fa)

def execLdot4 (f : Full) (s : State) : Out :=
  let fmt := fmtOf f.ty.toNat
  issue (.ldot4 f) (regBody fun is g =>
    let b := g.run f.b
    let c := match f.c with | .reg r => g.run r | _ => []
    let d := g.run f.d
    let r := g.rand f
    g.lanewise f.d is.act is.help fun j l => buildElems 32 fun k =>
      dot4 fmt (rmodeOf f.rnd.toNat) (elem (cell d j l) 32 k) (elem (cell r j l) 32 k)
        ((List.range 4).map fun i => (runElem b fmt.w l (4 * k + i), runElem c fmt.w l (4 * k + i)))) s

-- Elementary functions (chapter 9) --------------------------------------------------------------------------------------

/-- A function instruction over the rows of its source: element-wise, with the second phase or, in the .A form, the fast path alone (R212, R213). -/
def fnOver (fn : Fn) (aform : Bool) (f : Full) (b : List (List Word)) (act help : Mask) (g : Group) : Group :=
  let fmt := fmtOf f.ty.toNat
  g.lanewise f.d act help fun j l => buildElems fmt.w fun k => fnElem fn aform fmt (rmodeOf f.rnd.toNat) (elem (cell b j l) fmt.w k)

def fnBody (fn : Fn) (aform : Bool) (f : Full) : Iss → State → State :=
  regBody fun is g => fnOver fn aform f (g.run f.b) is.act is.help g

/-- The function and operands of a function instruction other than an .A form, which has no second phase (R214). -/
def fnOf : Instr → Option (Fn × Full)
  | .fexp2 f => some (.exp2, f)
  | .fexp f => some (.exp, f)
  | .flog2 f => some (.log2, f)
  | .fln f => some (.ln, f)
  | .fsinpi f => some (.sinpi, f)
  | .fcospi f => some (.cospi, f)
  | .ftanh f => some (.tanh, f)
  | .fsigm f => some (.sigm, f)
  | .ferf f => some (.erf, f)
  | .fsoftp f => some (.softp, f)
  | _ => none

/-- The pairs of register and lane that a second phase computes: those with an element in the band, in a lane of active(), helpers included (R214). -/
def bandPairs (x : Group) (i : Instr) (act : Mask) : List (Nat × Nat) :=
  match fnOf i with
  | none => []
  | some (fn, f) =>
    let fmt := fmtOf f.ty.toNat
    (List.range (runLen f.d.wid)).flatMap fun j => ((lanesOf act).filter fun l =>
      (List.range (64 / fmt.w)).any fun k => bandElem fn fmt (rmodeOf f.rnd.toNat) (elem (cell (x.run f.b) j l) fmt.w k)).map fun l => (j, l)

def execFexp2 (f : Full) (s : State) : Out := issue (.fexp2 f) (fnBody .exp2 false f) s
def execFexp (f : Full) (s : State) : Out := issue (.fexp f) (fnBody .exp false f) s
def execFlog2 (f : Full) (s : State) : Out := issue (.flog2 f) (fnBody .log2 false f) s
def execFln (f : Full) (s : State) : Out := issue (.fln f) (fnBody .ln false f) s
def execFsinpi (f : Full) (s : State) : Out := issue (.fsinpi f) (fnBody .sinpi false f) s
def execFcospi (f : Full) (s : State) : Out := issue (.fcospi f) (fnBody .cospi false f) s
def execFtanh (f : Full) (s : State) : Out := issue (.ftanh f) (fnBody .tanh false f) s
def execFsigm (f : Full) (s : State) : Out := issue (.fsigm f) (fnBody .sigm false f) s
def execFerf (f : Full) (s : State) : Out := issue (.ferf f) (fnBody .erf false f) s
def execFsoftp (f : Full) (s : State) : Out := issue (.fsoftp f) (fnBody .softp false f) s
def execFexp2A (f : Full) (s : State) : Out := issue (.fexp2A f) (fnBody .exp2 true f) s
def execFexpA (f : Full) (s : State) : Out := issue (.fexpA f) (fnBody .exp true f) s
def execFlog2A (f : Full) (s : State) : Out := issue (.flog2A f) (fnBody .log2 true f) s
def execFlnA (f : Full) (s : State) : Out := issue (.flnA f) (fnBody .ln true f) s
def execFsinpiA (f : Full) (s : State) : Out := issue (.fsinpiA f) (fnBody .sinpi true f) s
def execFcospiA (f : Full) (s : State) : Out := issue (.fcospiA f) (fnBody .cospi true f) s
def execFtanhA (f : Full) (s : State) : Out := issue (.ftanhA f) (fnBody .tanh true f) s
def execFsigmA (f : Full) (s : State) : Out := issue (.fsigmA f) (fnBody .sigm true f) s
def execFerfA (f : Full) (s : State) : Out := issue (.ferfA f) (fnBody .erf true f) s
def execFsoftpA (f : Full) (s : State) : Out := issue (.fsoftpA f) (fnBody .softp true f) s

end Sys2Proof.Machine
end

