-- ==== Sys2Proof/Machine/Cross.lean ====
section
/-! DEFINITION. Cross-lane instructions (row 0xA_, R171 to R174). -/

namespace Sys2Proof.Machine

/-- The source position of SHFL for destination position i (R172), or none where zero is shifted in. -/
def shflFrom (mode w n i c : Nat) : Option Nat :=
  let cs := sext c (min w 16)
  let total := 32 * n
  match mode with
  | 0 => some (c % total)
  | 1 => some ((Int.emod ((i : Int) + cs) (total : Int)).toNat)
  | 2 =>
    let j := (i : Int) + cs
    if 0 ≤ j ∧ j < (total : Int) then some j.toNat else none
  | _ => some (i ^^^ (2 ^ min (c % 16) (Nat.log2 total) - 1))

def execShfl (f : Full) (s : State) : Out :=
  issue (.shfl f) (regBody fun is g =>
    let w := tyWidth f.ty.toNat
    let n := 64 / w
    let b := g.run f.b
    let c := g.src f.c 1
    let vec : Bool := match f.c with | .reg r => r.file == .v | _ => false
    g.lanewise f.d is.act is.help fun _ l =>
      (ofElems w ((List.range n).map fun k =>
        let cw := cell c 0 l
        let cv := if vec then elem cw w k else cw.toNat % 2 ^ 16
        match shflFrom f.xm.toNat w n (l * n + k) cv with
        | some j => elem (cell b 0 (j / n)) w (j % n)
        | none => 0), 0)) s

/-- Each lane of active() takes the value of another lane, register by register (R173). -/
def quadBody (f : Full) (from_ : Nat → Nat) : Iss → State → State :=
  regBody fun is g =>
    let b := g.run f.b
    g.lanewise f.d is.act is.help fun j l => (cell b j (from_ l), 0)

def execQswap (f : Full) (s : State) : Out := issue (.qswap f) (quadBody f fun l => l ^^^ (f.xm.toNat + 1)) s
def execQbcast (f : Full) (s : State) : Out := issue (.qbcast f) (quadBody f fun l => l / 4 * 4 + f.c.immNat % 4) s

/-- Contributing lanes: active() without helpers (R157, R171). -/
def Iss.contrib (is : Iss) : Mask := is.act &&& ~~~is.help

def countMask (m : Mask) : Nat := (lanesOf m).length

/-- The result of VOTE (R171). -/
def voteResult (mode k nc th : Nat) : Bool :=
  match mode with
  | 0 => th ≤ k
  | 1 => k ≤ th
  | 2 => k == th
  | _ => k ≤ th || nc ≤ k + th

def execVote (f : Full) (s : State) : Out :=
  issue (.vote f) (regBody fun is g =>
    let c := is.contrib
    let k := countMask (c &&& g.pred f.b.num.toNat)
    let nc := countMask c
    let n := f.c.immNat
    let v := voteResult f.xm.toNat k nc (if n = 63 then nc else n)
    g.putP f.d.num.toNat is.act (if v then BitVec.allOnes 32 else 0)) s

def execBallot (f : Full) (s : State) : Out :=
  issue (.ballot f) (regBody fun is g =>
    let m := is.contrib &&& g.pred f.b.num.toNat
    let lo := match lowLane m with | some l => l | none => 63
    g.putRun f.d is.act 0 [rowOfWord (wd (m.toNat + countMask m * 2 ^ 32 + lo * 2 ^ 40))]) s

/-- GRED of one position over the contributing elements of an integer type (Table 7.6). -/
def gredInt (op t w : Nat) (l : List Nat) : Nat :=
  match op with
  | 0 => l.foldl (· + ·) 0 % 2 ^ w
  | 1 => match l with | [] => 0 | a :: r => low (r.foldl (fun m x => min m (intRead t w x)) (intRead t w a)) w
  | 2 => match l with | [] => 0 | a :: r => low (r.foldl (fun m x => max m (intRead t w x)) (intRead t w a)) w
  | 3 => l.foldl (· &&& ·) (2 ^ w - 1)
  | 4 => l.foldl (· ||| ·) 0
  | _ => l.foldl (· ^^^ ·) 0

/-- GRED of one position of a logarithmic type: leaves of 32 lanes, none where the lane does not contribute. -/
def gredLog (op : Nat) (f : Fmt) (m : RMode) (rho : Nat) (l : List (Option Nat)) : Nat × Flags :=
  match op with
  | 0 => treeLog f m rho (l.map fun x => match x with | some c => c | none => zeroCode f)
  | _ =>
    match l.filterMap id with
    | [] => (zeroCode f, 0)
    | a :: r => ((r.foldl (fun v c => logPick f (op == 2) v (decodeLog f c)) (decodeLog f a)).code f, 0)

def execGred (f : Full) (s : State) : Out :=
  issue (.gred f) (regBody fun is g =>
    let t := f.ty.toNat
    let w := tyWidth t
    let b := g.run f.b
    let r := g.rand f
    let c := is.contrib
    let rl := match lowLane is.act with | some l => l | none => 0
    let (v, fl) := buildElems w fun k =>
      if isInt t then (gredInt f.xm.toNat t w ((lanesOf c).map fun l => elem (cell b 0 l) w k), 0)
      else gredLog f.xm.toNat (fmtOf t) (rmodeOf f.rnd.toNat) (elem (cell r 0 rl) w k)
        ((List.range 32).map fun l => if c.getLsbD l then some (elem (cell b 0 l) w k) else none)
    (g.putRun f.d is.act 0 [rowOfWord v]).raise fl) s

end Sys2Proof.Machine
end

