-- ==== Sys2Proof/Machine/Access.lean ====
section
/-! DEFINITION. Logged instructions: the entry an instruction takes at issue (R231, R244, R359), the outcomes of performing it, and
loads, stores, atomics, contributions and watches on global memory and the scratchpad (chapters 10 and 11). -/

namespace Sys2Proof.Machine

/-- What performing a logged instruction comes to. `fault` carries the lanes' faults, whether the access writes, and whether the
records name lanes. `nondet` is the NONDET of a matrix instruction met after the grant of the baton (R292). -/
inductive Perf where
  | done (s : State)
  | wait (s : State) (w : Wait) (e : Entry)
  | trap (s : State) (t : Trap) (e : Entry)
  | fault (s : State) (e : Entry) (l : List MemFault) (lanes : Mask) (wr named : Bool)
  | nondet (s : State) (t : Trap)
  | poison (s : State) (addr : Nat)

/-- A change to the entry an outcome leaves. -/
def Perf.onEntry (f : Entry → Entry) : Perf → Perf
  | .wait s w e => .wait s w (f e)
  | .trap s t e => .trap s t (f e)
  | .fault s e l lanes wr named => .fault s (f e) l lanes wr named
  | p => p

/-- Row 0 of an entry's sources. -/
def Entry.bv (e : Entry) (l : Nat) : Word := cell e.b 0 l
def Entry.cv (e : Entry) (l : Nat) : Word := cell e.c 0 l

/-- The lowest lane of active(); an entry exists only when active() is not empty. -/
def Entry.low (e : Entry) : Nat := match lowLane e.act with | some l => l | none => 0

/-- The lanes that make an access: every lane of active(), or the lowest one for a scalar destination (R241). -/
def Entry.accessLanes (e : Entry) (d : Reg) : List Nat :=
  match d.file with
  | .v => lanesOf e.act
  | .s => [e.low]

/-- Access size in bytes per lane (R241). -/
def accessSize (f : Full) : Nat := if f.ty = 0 then 8 * runLen f.d.wid else tyWidth f.ty.toNat / 8

/-- R219. -/
def alignedTo (n va : Nat) : Bool := va % (if n ≤ 16 then n else 16) == 0

def maskOfList (l : List Nat) : Mask := maskOf l.contains

/-- MISALIGN of the lanes that are not helpers: the trap, or none (R219). -/
def misaligned (e : Entry) (n : Nat) (l : List (Nat × Nat)) : Option Trap :=
  let bad := l.filter fun (k, va) => !e.helper.getLsbD k && !alignedTo n va
  match bad.head? with
  | some (_, va) => some ⟨0x06, maskOfList (bad.map (·.1)), wd va⟩
  | none => none

/-- An access of a team's group. -/
def teamAccess (s : State) (t : Nat) (need : Need) (va n : Nat) : Access :=
  let x := s.team t
  { ctx := x.ctx, heap := some x.heap, need, va, n, team := some t }

/-- The checks of R228 on each lane's access, in order of lanes. -/
def checkLanes (s : State) (t : Nat) (need : Need) (n : Nat) :
    List (Nat × Nat) → State × List (Nat × Nat × Except (Nat × Nat) (List Piece))
  | [] => (s, [])
  | (l, va) :: rest =>
    let (s, r) := checkAccess s (teamAccess s t need va n)
    let (s, rs) := checkLanes s t need n rest
    (s, (l, va, r) :: rs)

/-- Faults of the lanes that are not helpers (R228). -/
def laneFaults (e : Entry) (l : List (Nat × Nat × Except (Nat × Nat) (List Piece))) : List MemFault :=
  l.filterMap fun (k, va, r) =>
    match r with
    | .error (kind, page) => if e.helper.getLsbD k then none else some { lane := k, kind, addr := va, page }
    | .ok _ => none

/-- The lanes' pieces that passed. -/
def lanePieces (l : List (Nat × Nat × Except (Nat × Nat) (List Piece))) : List (Nat × Nat × List Piece) :=
  l.filterMap fun (k, va, r) => match r with | .ok p => some (k, va, p) | .error _ => none

/-- Checks of an access by the lanes of an entry: alignment, then R228; the pieces of the lanes that passed. A poisoned page table
entry is a consumption (R372). -/
def checked (s : State) (g : Nat) (e : Entry) (need : Need) (n : Nat) (l : List (Nat × Nat)) :
    State × Except Perf (List (Nat × Nat × List Piece)) :=
  match misaligned e n l with
  | some t => (s, .error (.trap s t e))
  | none =>
    let l := l.filter fun (_, va) => alignedTo n va
    let (s, r) := checkLanes s (s.group g).team need n l
    let faults := laneFaults e r
    match faults.find? fun f => f.kind == 0x10 with
    | some f => (s, .error (.poison s f.page))
    | none =>
      if faults.isEmpty then (s, .ok (lanePieces r))
      else (s, .error (.fault s { e with faults } faults (maskOfList (faults.map (·.lane))) (need == .store) true))

/-- The checks of an access that a group makes once, whichever of its lanes are helpers (R255, R256). -/
def checkedOnce (s : State) (g : Nat) (e : Entry) (need : Need) (n va : Nat) : State × Except Perf (List Piece) :=
  match checked s g { e with helper := 0 } need n [(e.low, va)] with
  | (s, .error p) => (s, .error (p.onEntry fun x => { x with helper := e.helper }))
  | (s, .ok l) => (s, .ok (l.flatMap fun (_, _, p) => p))

/-- Writer index of a group's own stores (Table 13.4). -/
def writerOf (s : State) (g : Nat) (e : Nat) : Writer :=
  let x := s.group g
  let t := s.team x.team
  match t.launch, t.task with
  | some l, _ => ⟨.grp g, 2, [(s.launch l).lseq, t.t * t.ngroups + x.idx, e], t.ctx⟩
  | none, some (q, pop) => ⟨.grp g, 1, [pop, q, x.idx, e], t.ctx⟩
  | none, none => ⟨.grp g, 1, [0, 0, x.idx, e], t.ctx⟩

def State.setView (s : State) (g : Nat) (v : MemView) : State := s.setGroup g { s.group g with view := v }

/-- Scope of a scope code (Table 11.2). -/
def scopeOf (n : Nat) : Scope :=
  match n with
  | 1 => .team
  | 2 => .crew
  | 3 => .device
  | 4 => .node
  | _ => .system

def traceSync (s : State) (kind g : Nat) (m : Mask) (data : Nat) : State := traceGroup s kind g m data

/-- The ambient region of a group's context, on which most of its releases and acquires act (Table 13.3). -/
def State.own (s : State) (g : Nat) : Acts := .ambient (s.team (s.group g).team).ctx

/-- A release by a group, and an acquire by a group. -/
def groupRelease (s : State) (g : Nat) (sc : Scope) (a : Acts) (m : Mask) (data : Nat) : State × Nat :=
  let (s, v, n) := release s (.grp g) (s.group g).view sc a
  (traceSync (s.setView g v) 0x11 g m data, n)

def groupAcquire (s : State) (g : Nat) (sc : Scope) (a : Acts) (extra : List Nat) (m : Mask) (data : Nat) : State :=
  traceSync (s.setView g (acquire s (.grp g) (s.group g).view sc a extra)) 0x10 g m data

/-- Bytes of a lane's access as register values: a run of n64, or one value, sign-extended for the i types (R242, R251). -/
def loadValue (f : Full) (bytes : List Byte) : List Word :=
  if f.ty = 0 then wordsOf bytes
  else
    let n := ofBytes bytes
    let w := tyWidth f.ty.toNat
    [if 4 ≤ f.ty.toNat && f.ty.toNat < 8 then wdI (sext n w) else wd n]

/-- Write lanes' loaded bytes to the destination; a lane without bytes gets zero (R157, R242). -/
def writeLoaded (g : Group) (f : Full) (act : Mask) (l : List (Nat × List Byte)) : Group :=
  let rows := (List.range (runLen f.d.wid)).map fun j => (List.range 32).map fun k =>
    match l.find? fun (n, _) => n == k with
    | some (_, b) => getAt 0 (loadValue f b) j
    | none => 0
  g.putRun f.d act 0 rows

/-- The bytes a lane stores (R242). -/
def storeValue (f : Full) (e : Entry) (l : Nat) : List Byte :=
  if f.ty = 0 then (List.range (runLen f.d.wid)).flatMap fun j => toBytes 8 (cell e.d j l).toNat
  else toBytes (accessSize f) (cell e.d 0 l).toNat

/-- Lane addresses b + c modulo 2^64 (R241). -/
def globalLanes (e : Entry) (d : Reg) : List (Nat × Nat) :=
  (e.accessLanes d).map fun l => (l, (e.bv l + e.cv l).toNat)

-- LD, LDC, ST (R245, R246) ----------------------------------------------------------------------------------------------

/-- A load; a scope code makes it a synchronising read followed by an acquire of the ambient region, in helper lanes as in others (R157, R245). -/
def doLoad (f : Full) (scope : Nat) (g : Nat) (e : Entry) (s : State) : Perf :=
  match checked s g e .load (accessSize f) (globalLanes e f.d) with
  | (_, .error p) => p
  | (s, .ok l) =>
    match (l.filter fun (k, _, _) => !e.helper.getLsbD k).findSome? fun (_, _, p) => poisonPieces s p with
    | some a => .poison s a
    | none =>
      let x := s.group g
      let c := (s.team x.team).ctx
      let got := l.filterMap fun (k, _, p) =>
        if e.helper.getLsbD k && (poisonPieces s p).isSome then none
        else some (k, if scope = 0 then readPieces s (some c) x.view p else readNow s p)
      let s := if scope = 0 then s else
        let v := l.foldl (fun v (_, _, p) => p.foldl (fun v q => observeRange s (.grp g) v (scopeOf scope) q.pa q.len) v) x.view
        groupAcquire (s.setView g v) g (scopeOf scope) (s.own g) [] e.act (match l with | (_, va, _) :: _ => va | [] => 0)
      .done (s.setGroup g (writeLoaded (s.group g) f e.act got))

/-- A store of each lane that is not a helper, in ascending lane order (R243); a scope code makes it a release followed by a
synchronising store. -/
def doStore (f : Full) (scope : Nat) (g : Nat) (e : Entry) (s : State) : Perf :=
  match checked s g e .store (accessSize f) (globalLanes e f.d) with
  | (_, .error p) => p
  | (s, .ok l) =>
    let l := l.filter fun (k, _, _) => !e.helper.getLsbD k
    let s := if scope = 0 then s else
      (groupRelease s g (scopeOf scope) (s.own g) e.act (match l with | (_, va, _) :: _ => va | [] => 0)).1
    let sync := if scope = 0 then none else some (scopeOf scope, (s.group g).view.rels)
    let s := l.foldl (fun s (k, _, p) =>
      let (s, v) := writePieces s (s.group g).view (writerOf s g 0) sync p (storeValue f e k)
      s.setView g v) s
    .done (clearPoison s (l.flatMap fun (_, _, p) => p.map fun q => (q.pa, q.len)))

-- PREF, MONITOR, MWAIT (R249, R259, R260) -------------------------------------------------------------------------------

/-- MONITOR, executed by the lanes that are not helpers (R157): a load of one byte checked, and the watch on its line; host memory leaves no
watch. -/
def doMonitor (g : Nat) (e : Entry) (s : State) : Perf :=
  match lowLane (e.act &&& ~~~e.helper) with
  | none => .done s
  | some k =>
    let va := (e.bv k + e.cv k).toNat
    match checked s g e .load 1 [(k, va)] with
    | (_, .error p) => p
    | (s, .ok l) =>
      let watch : Option Watch := match l with
        | (_, _, p :: _) :: _ => if isHost p.pa then none else some { line := p.pa / 128 * 128, va, armed := s.writes.length, sh := p.sh }
        | _ => none
      .done (s.setGroup g { s.group g with watch })

/-- A write has reached a watched line since it was armed (R260). -/
def watchHit (s : State) (line armed : Nat) : Bool :=
  (s.writes.drop armed).any fun w => w.word / 128 * 128 == line

def doMwait (g : Nat) (e : Entry) (s : State) : Perf :=
  let x := s.group g
  match x.watch with
  | none => .done s
  | some w =>
    if watchHit s w.line w.armed then .done (s.setGroup g { x with watch := none }) else .wait s .mwait e

-- Scratchpad (R234, R235, R247) -----------------------------------------------------------------------------------------

/-- The member of a team's crew with a crew rank (R115). -/
def crewMember (s : State) (t rank : Nat) : Option Nat :=
  let x := s.team t
  if rank = x.t % x.crew then some t
  else match x.launch with
    | none => none
    | some l => (teamIds s fun y => y.launch == some l && y.t == x.t / x.crew * x.crew + rank).head?

/-- A scratchpad address (Table 10.13): the target team and offset, or none for SPFAULT. RANK of a local
address is ignored (DESIGN CHOICE, log 68). -/
def spadTarget (s : State) (t a n : Nat) : Option (Nat × Nat) :=
  let off := field a 0 19
  let target := if field a 29 1 = 1 then
      if field a 30 2 < (s.team t).crew then crewMember s t (field a 30 2) else none
    else some t
  if field a 19 10 ≠ 0 then none
  else match target with
    | none => none
    | some u => if off + n ≤ (s.team u).spadKiB * 1024 then some (u, off) else none

/-- Lane addresses b + c modulo 2^32 (R241). -/
def spadLanes (e : Entry) (d : Reg) : List (Nat × Nat) :=
  (e.accessLanes d).map fun l => (l, (e.bv l + e.cv l).toNat % 2 ^ 32)

/-- Checks of scratchpad accesses: alignment, then SPFAULT (R234); a helper lane that fails has no target. -/
def spadChecked (s : State) (g : Nat) (e : Entry) (n : Nat) (l : List (Nat × Nat)) : Except Perf (List (Nat × Nat × Nat)) :=
  match misaligned e n l with
  | some t => .error (.trap s t e)
  | none =>
    let t := (s.group g).team
    let bad := l.filter fun (k, a) => !e.helper.getLsbD k && (spadTarget s t a n).isNone
    match bad.head? with
    | some (_, a) => .error (.trap s ⟨0x08, maskOfList (bad.map (·.1)), wd a⟩ e)
    | none => .ok (l.filterMap fun (k, a) =>
        if alignedTo n a then (spadTarget s t a n).map fun (u, off) => (k, u, off) else none)

/-- A poisoned granule within a scratchpad range. -/
def spadPoison (t : Team) (off n : Nat) : Bool :=
  !t.sppois.isEmpty && n != 0 && (span (off / 16) ((off + n - 1) / 16 - off / 16 + 1)).any t.sppois.contains

/-- Store bytes in a team's scratchpad; a granule written in full loses its poison mark. -/
def spadStore (s : State) (t off : Nat) (bytes : List Byte) : State :=
  let x := s.team t
  s.setTeam t { x with
    spad := memWrite x.spad off bytes
    sppois := x.sppois.filter fun n => !(off ≤ 16 * n && 16 * n + 16 ≤ off + bytes.length) }

/-- The size, the offset, and whether it clears F, of a lane's access by the LDS.WF or LDS.WFC a group waits in. -/
def waiterAccess (s : State) (w : Waiter) : Option (Entry × Nat × Nat × Bool) :=
  let x := s.group w.g
  match x.log with
  | e :: _ => match e.instr with
    | .lds f => (spadTarget s x.team ((e.bv w.lane + e.cv w.lane).toNat % 2 ^ 32) (accessSize f)).map fun (_, off) => (e, accessSize f, off, f.xm == 2)
    | _ => none
  | [] => none

/-- Serve the waiters of a granule of team t in the order in which they reached it, while its F is 1 (R235). A waiter whose bytes are
poisoned consumes them at its own turn. -/
def serveWaiters (t granule : Nat) : Nat → State → State
  | 0, s => s
  | fuel + 1, s =>
    let x := s.team t
    match x.waiters.find? fun w => w.granule == granule with
    | none => s
    | some w =>
      match waiterAccess s w with
      | none => s
      | some (e, n, off, clears) =>
        if !x.fbits.contains granule || spadPoison x off n then s else
        let y := s.group w.g
        let s := s.setGroup w.g { y with log := { e with kept := e.kept ++ [(w.lane, ofBytes (memRead x.spad off n))] } :: y.log.drop 1 }
        serveWaiters t granule fuel (s.setTeam t { x with
          waiters := x.waiters.filter (· != w), fbits := if clears then x.fbits.filter (· != granule) else x.fbits })

/-- F of a granule becomes 1, and its waiters are served. -/
def setFull (s : State) (t granule : Nat) : State :=
  let x := s.team t
  serveWaiters t granule (x.waiters.length + 1) (s.setTeam t { x with fbits := uni x.fbits [granule] })

def doLds (f : Full) (g : Nat) (e : Entry) (s : State) : Perf :=
  let n := accessSize f
  match spadChecked s g e n (spadLanes e f.d) with
  | .error p => p
  | .ok l =>
    match l.find? fun (k, u, off) => !e.helper.getLsbD k && spadPoison (s.team u) off n with
    | some (_, _, off) => .poison s off
    | none =>
      let got := l.filterMap fun (k, u, off) => if spadPoison (s.team u) off n then none else some (k, memRead (s.team u).spad off n)
      .done (s.setGroup g (writeLoaded (s.group g) f e.act got))

/-- One lane of LDS.WF or LDS.WFC (R235): served when F is 1 and no earlier waiter stands on the granule; otherwise it waits. Answers the
bytes kept, and the offset of poison that a served lane meets (R372). -/
def serveLane (consume : Bool) (g : Nat) (s : State) (kept : List (Nat × Nat)) (n k u off : Nat) : State × List (Nat × Nat) × Option Nat :=
  let x := s.team u
  let gran := off / 16
  let me : Waiter := { g, lane := k, granule := gran }
  let queue := x.waiters.filter fun w => w.granule == gran
  let first := match queue.head? with | none => true | some w => w == me
  if x.fbits.contains gran && first then
    if spadPoison x off n then (s, kept, some off) else
    let s := s.setTeam u { x with
      waiters := x.waiters.filter (· != me)
      fbits := if consume then x.fbits.filter (· != gran) else x.fbits }
    (s, kept ++ [(k, ofBytes (memRead x.spad off n))], none)
  else if queue.contains me then (s, kept, none)
  else (s.setTeam u { x with waiters := x.waiters ++ [me] }, kept, none)

def doLdsWait (f : Full) (consume : Bool) (g : Nat) (e : Entry) (s : State) : Perf :=
  let n := accessSize f
  match spadChecked s g e n (spadLanes e f.d) with
  | .error p => p
  | .ok l =>
    let (s, kept, bad) := l.foldl (fun ((s, kept, bad) : State × List (Nat × Nat) × Option Nat) (k, u, off) =>
      if bad.isSome || kept.any fun (m, _) => m == k then (s, kept, bad)
      else if e.helper.getLsbD k then
        (s, kept ++ [(k, if spadPoison (s.team u) off n then 0 else ofBytes (memRead (s.team u).spad off n))], bad)
      else serveLane consume g s kept n k u off) (s, e.kept, none)
    match bad with
    | some off => .poison s off
    | none =>
      if l.all fun (k, _, _) => kept.any fun (m, _) => m == k then
        .done (s.setGroup g (writeLoaded (s.group g) f e.act (kept.map fun (k, v) => (k, toBytes n v))))
      else .wait s .spad { e with kept }

/-- STS, and STS.F, which sets F after the data (Table 10.14). -/
def doSts (f : Full) (full : Bool) (g : Nat) (e : Entry) (s : State) : Perf :=
  match spadChecked s g e (accessSize f) (spadLanes e f.d) with
  | .error p => p
  | .ok l =>
    .done (l.foldl (fun s (k, u, off) =>
      if e.helper.getLsbD k then s
      else
        let s := spadStore s u off (storeValue f e k)
        if full then setFull s u (off / 16) else s) s)

-- Atomics (R250 to R253) --------------------------------------------------------------------------------------------------

/-- New value of an operation (Table 11.5): operation, type, width, mode, old, operand, compare value, ρ. -/
def atomNew (op t w : Nat) (m : RMode) (old v cmp rho : Nat) : Nat × Flags :=
  if t = 8 then
    match op with
    | 0 => addlog old v l32 m rho
    | 1 => ((logPick l32 false (decodeLog l32 old) (decodeLog l32 v)).code l32, 0)
    | _ => ((logPick l32 true (decodeLog l32 old) (decodeLog l32 v)).code l32, 0)
  else
    let r : Nat := match op with
      | 0 => (old + v) % 2 ^ w
      | 1 => if intRead t w v < intRead t w old then v else old
      | 2 => if intRead t w old < intRead t w v then v else old
      | 3 => old &&& v
      | 4 => old ||| v
      | 5 => old ^^^ v
      | 6 => v
      | _ => if old = cmp then v else old
    (r, 0)

/-- One lane's read-modify-write at the home L2 (R251, R318). -/
def atomLane (f : Full) (g : Nat) (e : Entry) (sc : Scope) (s : State) (k va pa : Nat) : State × Nat × Flags :=
  let t := f.ty.toNat
  let w := tyWidth t
  let old := memNat s.mem pa (w / 8)
  let op := f.xm.toNat
  let v := if op = 7 then (cell e.d 1 k).toNat % 2 ^ w else (cell e.d 0 k).toNat % 2 ^ w
  let (new, fl) := atomNew op t w (rmodeOf f.rnd.toNat) old v ((cell e.d 0 k).toNat % 2 ^ w) ((cell e.r 0 k).toNat % 2 ^ w)
  let x := s.group g
  let v1 := observeRange s (.grp g) x.view sc pa (w / 8)
  let (s, v2) := atomicWrite s v1 (.grp g) (s.team x.team).ctx sc va pa (toBytes (w / 8) new)
  (s.setView g v2, old, fl)

/-- Lanes of an ATOM (lane, address, place) in ascending order, up to one in host memory: another party's operation may come after it (R252). The
state, the old words, the flags, and the lanes that are left. -/
def atomLanes (f : Full) (g : Nat) (e : Entry) (sc : Scope) :
    List (Nat × Nat × Nat) → State → List (Nat × Nat) → Flags → State × List (Nat × Nat) × Flags × List (Nat × Nat × Nat)
  | [], s, olds, fl => (s, olds, fl, [])
  | (k, va, pa) :: l, s, olds, fl =>
    match atomLane f g e sc s k va pa with
    | (s, old, f1) => if isHost pa then (s, olds ++ [(k, old)], fl ||| f1, l) else atomLanes f g e sc l s (olds ++ [(k, old)]) (fl ||| f1)

/-- An ATOM goes on with its remaining lanes, and ends with its acquire, its flags and its old words. Between two lanes the entry keeps the old words,
and under 32 plus and 64 plus the lane what each lane left was checked to: place and address. -/
def atomFrom (f : Full) (g : Nat) (e : Entry) (s : State) (l : List (Nat × Nat × Nat)) (olds : List (Nat × Nat)) : Perf :=
  let cw := f.c.immNat
  let sc := scopeOf (cw % 8)
  match atomLanes f g e sc l s olds 0 with
  | (s, olds, fl, []) =>
    let s := if cw / 8 % 2 = 1 then groupAcquire s g sc (s.own g) [] e.act 0 else s
    let x := (s.group g).raise fl
    let d1 : Reg := ⟨f.d.file, f.d.num, 0⟩
    let w := tyWidth f.ty.toNat / 8
    .done (s.setGroup g (if cw / 32 % 2 = 1 then x else writeLoaded x { f with d := d1 } e.act (olds.map fun (k, v) => (k, toBytes w v))))
  | (s, olds, fl, rest) =>
    .wait (s.setGroup g ((s.group g).raise fl)) .lanes
      { e with stage := 1, kept := olds ++ rest.flatMap fun (k, va, pa) => [(32 + k, pa), (64 + k, va)] }

/-- The lanes an interrupted ATOM has left, from its entry. -/
def atomRest (e : Entry) : List (Nat × Nat × Nat) :=
  (e.kept.filter fun (k, _) => 32 ≤ k && k < 64).map fun (k, pa) =>
    (k - 32, ((e.kept.find? fun (j, _) => j == k + 32).map (·.2)).getD 0, pa)

def doAtom (f : Full) (g : Nat) (e : Entry) (s : State) : Perf :=
  if e.stage ≠ 0 then atomFrom f g e s (atomRest e) (e.kept.filter fun (k, _) => k < 32) else
  let t := f.ty.toNat
  let w := tyWidth t
  let cw := f.c.immNat
  let sc := scopeOf (cw % 8)
  let ord := cw / 8 % 4
  let nr := cw / 32 % 2 == 1
  let lanes := (e.accessLanes f.d).map fun l => (l, (e.bv l).toNat)
  match checked s g e .store (w / 8) lanes with
  | (_, .error p) => p
  | (s, .ok l) =>
    let l := l.filter fun (k, _, _) => !e.helper.getLsbD k
    let pa := fun (p : List Piece) => match p with | q :: _ => q.pa | [] => 0
    let hosts := l.filter fun (_, _, p) => isHost (pa p) && !(t ≠ 8 && (f.xm == 0 || f.xm == 6 || f.xm == 7))
    match hosts.head? with
    | some (_, va, _) => .trap s ⟨0x0A, maskOfList (hosts.map (·.1)), wd va⟩ e
    | none =>
      match if nr then none else l.findSome? fun (_, _, p) => poisonPieces s p with
      | some a => .poison s a
      | none =>
        let s := if ord ≥ 2 then (groupRelease s g sc (s.own g) e.act 0).1 else s
        atomFrom f g e s (l.map fun (k, va, p) => (k, va, pa p)) []

-- The ordered accumulator (R254 to R257) --------------------------------------------------------------------------------

/-- The 32 codes a group contributes (R255). -/
def contribution (e : Entry) : List Nat :=
  (List.range 32).map fun l =>
    if e.act.getLsbD l && !e.helper.getLsbD l then canon l32 ((cell e.d 0 l).toNat % 2 ^ 32) else zeroCode l32

/-- Where single pieces of checked accesses lie. -/
def headPa (l : List Piece) : Nat := match l with | p :: _ => p.pa | [] => 0

/-- Header words of an accumulator object (Table 11.6). -/
structure AccHeader where
  next   : Nat
  acc    : Nat
  count  : Nat
  aval   : Bool
  amode  : Nat
  kfirst : Int
  aflags : Nat
  slots  : Nat
  arrive : Nat

def accHeader (s : State) (pa : Nat) : AccHeader :=
  let w := wordsOf (memRead s.mem pa 64)
  { next := wfield (getAt 0 w 0) 32 32, acc := wfield (getAt 0 w 0) 0 32, count := wfield (getAt 0 w 1) 0 32
    aval := wfield (getAt 0 w 2) 63 1 == 1, amode := wfield (getAt 0 w 2) 60 3, kfirst := sext (wfield (getAt 0 w 2) 0 32) 32
    aflags := wfield (getAt 0 w 3) 0 5, slots := wfield (getAt 0 w 4) 0 57, arrive := wfield (getAt 0 w 5) 0 57 }

/-- Where the slot of the next key stands, once its arrival bit is set. Both are found by the walk of their own pages; one that no page holds any
more, since its own contribution was checked, stops the folds (DESIGN CHOICE, log 67). -/
def readySlot (s : State) (h : AccHeader) (tr : Nat → Option Nat) : Option Nat :=
  match tr (h.arrive + 8 * (h.next / 64)) with
  | none => none
  | some a => if h.next < h.count && memNat s.mem a 8 / 2 ^ (h.next % 64) % 2 == 1 then tr (h.slots + 128 * h.next) else none

/-- The folds that are ready, each one operation of the home L2 placed in the contributing group's order (R256, R314). -/
def foldKeys (g ctx hva hpa : Nat) (tr : Nat → Option Nat) : Nat → State → State
  | 0, s => s
  | fuel + 1, s =>
    let h := accHeader s hpa
    match readySlot s h tr with
    | some slot =>
      let (acc, fl) := (List.range 32).foldl (fun (a, fl) l =>
        let (b, f1) := addlog a (memNat s.mem (slot + 4 * l) 4) l32 (rmodeOf h.amode) 0
        (b, fl ||| f1)) (h.acc, (0 : Flags))
      let poisoned := (poisonIn s slot 128).isSome
      let v := observeRange s (.grp g) (s.group g).view .device hpa 64
      let v := observeRange s (.grp g) v .device slot 128
      let (s, v) := atomicWrite s v (.grp g) ctx .device hva hpa (toBytes 8 ((h.next + 1) * 2 ^ 32 + acc))
      let (s, v) := atomicWrite s v (.grp g) ctx .device (hva + 24) (hpa + 24) (toBytes 8 (h.aflags ||| fl.toNat))
      let s := s.setView g v
      foldKeys g ctx hva hpa tr fuel (if poisoned then markPoison s hpa 8 else s)
    | none => s

/-- The writes of the home L2 to the bytes of an accumulator object, with what precedes them: they stand before its DONE store in the
home L2's own order (R256, R257, R306). -/
def objectWrites (s : State) (a : Acts) : List Nat × List Nat :=
  let ids := (List.range s.writes.length).filter fun i =>
    match s.writes[i]? with | some w => w.cls == 3 && w.sync.isSome && covers s a i | none => false
  (ids, ids.foldl (fun acc i => match s.writes[i]? with | some w => uni acc w.prec | none => acc) ids)

/-- contribute of R256 for the group's entry, at the home L2. -/
def contribute (g : Nat) (e : Entry) (s : State) : Perf :=
  let x := s.group g
  let team := s.team x.team
  let b := (e.bv e.low).toNat
  let key : Int := ((team.t * team.ngroups + x.idx : Nat) : Int) + (e.cv e.low).toInt
  let bad (s : State) (n : Nat) : Perf := .trap s ⟨0x0B, e.lanes, wd (n * 2 ^ 56 + low key 32)⟩ e
  match checkedOnce s g e .store 64 b with
  | (_, .error p) => p
  | (s, .ok l) =>
    let hpa := headPa l
    let h := accHeader s hpa
    if !h.aval || h.amode > 4 then bad s 1
    else if h.count = 0 || h.count > 2 ^ 24 || h.slots % 128 ≠ 0 || h.arrive % 8 ≠ 0 then bad s 4
    else
      let i := key - h.kfirst
      if i < 0 || i ≥ (h.count : Int) then bad s 2
      else
        let n := i.toNat
        let sl := h.slots + 128 * n
        let aw := h.arrive + 8 * (n / 64)
        match checkedOnce s g e .store 128 sl with
        | (_, .error p) => p
        | (s, .ok ls) =>
          match checkedOnce s g e .store 8 aw with
          | (_, .error p) => p
          | (s, .ok la) =>
            let spa := headPa ls
            let apa := headPa la
            if !localRange s.dev spa 128 then .trap s ⟨0x0A, e.lanes, wd sl⟩ e
            else if !localRange s.dev apa 8 then .trap s ⟨0x0A, e.lanes, wd aw⟩ e
            else
              let word := memNat s.mem apa 8
              if word / 2 ^ (n % 64) % 2 = 1 then bad s 3
              else
                let bytes := (contribution e).flatMap (toBytes 4)
                let v := observeRange s (.grp g) (observeRange s (.grp g) x.view .device hpa 64) .device apa 8
                let (s, v) := atomicWrite s v (.grp g) team.ctx .device sl spa bytes
                let (s, v) := atomicWrite s v (.grp g) team.ctx .device aw apa (toBytes 8 (word + 2 ^ (n % 64)))
                let s := clearPoison (s.setView g v) [(spa, 128)]
                let tr := fun va => match (checkAccess s (teamAccess s x.team .load va 1)).2 with
                  | .ok l => some (headPa l)
                  | .error _ => none
                let s := foldKeys g team.ctx b hpa tr (h.count - h.next) s
                let h := accHeader s hpa
                if h.next = h.count then
                  let a : Acts := .bytes team.ctx [(b, 32), (h.slots, 128 * h.count)]
                  let (ids, before) := objectWrites s a
                  let v := (s.group g).view
                  let (s, _, n) := release s (.grp g) { v with reached := uni v.reached ids, know := uni v.know (uni before ids) } .device a
                  let s := traceSync s 0x11 g e.act b
                  let (s, v) := atomicWrite s { v with rels := uni v.rels [n] } (.grp g) team.ctx .device (b + 24) (hpa + 24)
                    (toBytes 8 (2 ^ 63 + h.aflags))
                  .done (s.setView g v)
                else .done s

/-- AACC.O (R255): the header's checks, then the contribution is on its way to the home L2. -/
def doAacc (g : Nat) (e : Entry) (s : State) : Perf :=
  let b := (e.bv e.low).toNat
  if b % 64 ≠ 0 then .trap s ⟨0x06, maskOfList [e.low], wd b⟩ e
  else
    match checkedOnce s g e .store 64 b with
    | (_, .error p) => p
    | (s, .ok l) =>
      let hpa := headPa l
      if !localRange s.dev hpa 64 then .trap s ⟨0x0A, e.lanes, wd b⟩ e
      else .wait s .contrib e

end Sys2Proof.Machine
end

