-- ==== Sys2Proof/Machine/Copy.lean ====
section
/-! DEFINITION. Copy requests, arrival barriers and tile copies (R261 to R273), with the conversions of Table 11.9. -/

namespace Sys2Proof.Machine

-- Requests (Tables 11.7 and 11.8) ---------------------------------------------------------------------------------------

/-- A request's fields. -/
structure CopyDesc where
  dir     : Nat
  mx      : Bool
  mode    : Nat
  gaddr   : Nat
  gf      : Nat
  pf      : Nat
  bar     : Nat
  spaddr  : Nat
  ext     : List Nat
  org     : List Int
  n       : List Nat
  str     : List Int
  scaddr  : Nat
  spscale : Nat
  deriving DecidableEq, Repr

def copyDesc (w : List Word) : CopyDesc :=
  let f := fun k lo n => wfield (getAt 0 w k) lo n
  { dir := f 0 62 2, mx := f 0 61 1 == 1, mode := f 0 58 3, gaddr := f 0 0 57, gf := f 1 59 5, pf := f 1 54 5
    bar := f 1 32 19, spaddr := f 1 0 32
    ext := [f 2 32 32, f 3 40 24, f 4 40 24, f 5 40 24]
    org := [sext (f 2 0 32) 32, sext (f 3 16 24) 24, sext (f 4 16 24) 24, sext (f 5 16 24) 24]
    n := [f 3 0 16 + 1, f 4 0 16 + 1, f 5 0 16 + 1, f 6 0 16 + 1]
    str := [sext (f 6 16 16) 16, sext (f 6 32 32) 32, sext (f 7 0 32) 32, sext (f 7 32 32) 32]
    scaddr := f 8 0 57, spscale := f 9 0 32 }

def isL8 (t : Nat) : Bool := t == 10 || t == 11
def isIeee (t : Nat) : Bool := 12 ≤ t && t ≤ 16
def isWideLog (t : Nat) : Bool := t == 8 || t == 9

/-- A request takes 128 bytes (R261). -/
def CopyDesc.extended (r : CopyDesc) : Bool := r.mx || isL8 r.gf || isL8 r.pf

/-- Rows of Table 11.9. -/
inductive Pair where
  | raw | scaled | ieee | mxBlocks | fromL8
  deriving DecidableEq, Repr

def CopyDesc.pair (r : CopyDesc) : Option Pair :=
  if r.mx then if (r.gf == 15 || r.gf == 16 || r.gf == 17) && isWideLog r.pf then some .mxBlocks else none
  else if r.gf == r.pf then if isL8 r.gf then some .scaled else if r.gf ≤ 16 then some .raw else none
  else if isIeee r.gf && (isWideLog r.pf || isL8 r.pf) then some .ieee
  else if isL8 r.gf && isWideLog r.pf then some .fromL8
  else none

/-- Block size (R263); 0 where there is none. -/
def CopyDesc.bs (r : CopyDesc) : Nat := if r.mx then 32 else if isL8 r.gf || isL8 r.pf then 128 else 0

def CopyDesc.len (r : CopyDesc) (k : Nat) : Nat := getAt 1 r.n k
/-- Elements of the box, and scratchpad-side bytes of its elements and of its scales (R265). -/
def CopyDesc.elems (r : CopyDesc) : Nat := r.len 0 * r.len 1 * r.len 2 * r.len 3
def CopyDesc.ps (r : CopyDesc) : Nat := tyWidth r.pf / 8
def CopyDesc.elemBytes (r : CopyDesc) : Nat := r.ps * r.elems
def CopyDesc.scaleBytes (r : CopyDesc) : Nat := if isL8 r.pf then r.elems / 128 else 0
def CopyDesc.elemChunks (r : CopyDesc) : Nat := ncdiv r.elemBytes 128
def CopyDesc.chunks (r : CopyDesc) : Nat := r.elemChunks + ncdiv r.scaleBytes 128

/-- Scratchpad-side bytes of a chunk: address and length. Element chunks come before scale chunks. -/
def CopyDesc.range (r : CopyDesc) (k : Nat) : Nat × Nat :=
  if k < r.elemChunks then (r.spaddr + 128 * k, min 128 (r.elemBytes - 128 * k))
  else let j := k - r.elemChunks; (r.spscale + 128 * j, min 128 (r.scaleBytes - 128 * j))

/-- Tensor index of box element e (R262). -/
def CopyDesc.index (r : CopyDesc) (e : Nat) : List Int :=
  let j0 := e % r.len 0
  let e1 := e / r.len 0
  let e2 := e1 / r.len 1
  let js := [j0, e1 % r.len 1, e2 % r.len 2, e2 / r.len 2]
  (List.range 4).map fun d => getAt 0 r.org d + ((getAt 0 js d : Nat) : Int)

/-- R237. -/
def CopyDesc.inRange (r : CopyDesc) (e : Nat) : Bool :=
  let i := r.index e
  (List.range 4).all fun d => 0 ≤ getAt 0 i d && getAt 0 i d < ((getAt 0 r.ext d : Nat) : Int)

/-- Position of an element in the tensor, in elements. -/
def CopyDesc.position (r : CopyDesc) (e : Nat) : Int :=
  let i := r.index e
  (List.range 4).foldl (fun acc d => acc + getAt 0 i d * getAt 0 r.str d) 0

/-- Global address of an element's first byte (R262). -/
def CopyDesc.addr (r : CopyDesc) (e : Nat) : Nat :=
  low ((r.gaddr : Int) + fdiv ((tyWidth r.gf : Int) * r.position e) 8) 64

/-- The element is the upper nibble of its byte. -/
def CopyDesc.upper (r : CopyDesc) (e : Nat) : Bool := r.gf == 17 && fmod (r.position e) 2 == 1

/-- The elements of box block b that are in range. -/
def CopyDesc.blockElems (r : CopyDesc) (b : Nat) : List Nat := (span (b * r.bs) r.bs).filter r.inRange

/-- Global address of the scale of box block b (R263). -/
def CopyDesc.scaleAddr (r : CopyDesc) (b : Nat) : Nat :=
  let i := r.index (b * r.bs)
  let e := fun d => ((getAt 0 r.ext d : Nat) : Int)
  let nb : Int := ((ncdiv (getAt 0 r.ext 0) r.bs : Nat) : Int)
  low ((r.scaddr : Int) + (fdiv (getAt 0 i 0) r.bs + nb * (getAt 0 i 1 + e 1 * (getAt 0 i 2 + e 2 * getAt 0 i 3)))) 64

/-- Reasons 0x02 to 0x09 of Table 11.10 on a request, in table order. -/
def copyReason (s : State) (t : Nat) (w : List Word) : Option Nat :=
  let r := copyDesc w
  let f := fun k lo n => wfield (getAt 0 w k) lo n
  let p := r.pair
  let x := r.extended
  let raw := p == some .raw || p == some .scaled
  let reserved := f 0 57 1 != 0 || f 1 51 3 != 0 || (x && (f 8 57 7 != 0 || f 9 32 32 != 0 || (w.drop 10).any (· != 0)))
  let block := r.bs != 0 && (getAt 0 r.str 0 != 1 || fmod (getAt 0 r.org 0) r.bs != 0 || r.len 0 % r.bs != 0)
  let size := (s.team t).spadKiB * 1024
  if r.dir ≥ 2 then some 2
  else if r.mode > 4 || (r.mode ≠ 0 && raw) then some 3
  else if reserved then some 4
  else if p.isNone then some 5
  else if block || (r.gf == 17 && getAt 0 r.str 0 != 1) then some 6
  else if r.gaddr % (max 1 (tyWidth r.gf / 8)) ≠ 0 || (x && (r.scaddr % 16 ≠ 0 || r.spscale % 16 ≠ 0)) then some 7
  else if r.spaddr % 16 ≠ 0 || (spadTarget s t r.spaddr r.elemBytes).isNone
      || (r.scaleBytes ≠ 0 && (spadTarget s t r.spscale r.scaleBytes).isNone)
      || r.bar % 32 ≠ 0 || r.bar + 32 > size then some 8
  else none

-- CPYQ (R266, R270) -------------------------------------------------------------------------------------------------------

/-- The act of a once-per-group instruction is left out when only helper lanes execute it (R157). -/
def Entry.idle (e : Entry) : Bool := (e.act &&& ~~~e.helper) == 0

def cpyErr (s : State) (e : Entry) (addr reason : Nat) : Perf :=
  .trap s ⟨0x0C, e.lanes, wd (reason * 2 ^ 32 + addr % 2 ^ 32)⟩ e

def spFault (s : State) (e : Entry) (addr : Nat) : Perf := .trap s ⟨0x08, e.lanes, wd (addr % 2 ^ 32)⟩ e

/-- A local scratchpad range of a team (R234). -/
def localSpad (s : State) (t a n : Nat) : Bool :=
  field a 29 1 == 0 && field a 19 10 == 0 && field a 0 19 + n ≤ (s.team t).spadKiB * 1024

/-- CPYQ (R266, R270). With helper lanes alone it hands over nothing and takes no SPFAULT; CPYERR, which is no memory fault, it raises all the same
(R157). -/
def doCpyq (g : Nat) (e : Entry) (s : State) : Perf :=
  let a := (e.bv e.low + e.cv e.low).toNat % 2 ^ 32
  let t := (s.group g).team
  let team := s.team t
  let off := field a 0 19
  if a % 64 ≠ 0 || field a 29 1 = 1 then cpyErr s e a 1
  else if !localSpad s t a 64 then if e.idle then .done s else spFault s e a
  else
    let w8 := wordsOf (memRead team.spad off 64)
    let x := (copyDesc w8).extended
    if x && !localSpad s t a 128 then if e.idle then .done s else spFault s e a
    else
      let w := wordsOf (memRead team.spad off (if x then 128 else 64))
      match copyReason s t w with
      | some k => cpyErr s e a k
      | none =>
        if e.idle then .done s else
        let c := s.core team.core
        if c.reqs.length ≥ Config.engineRequests then .wait s .again e
        else
          let (s, _) := groupRelease s g .device (s.own g) e.act 0
          let v := (s.group g).view
          let req : CopyReq :=
            { id := s.fresh, group := g, team := t, pc := e.addr, words := w, left := List.range (copyDesc w).chunks
              start := s.writes.length, view := { know := v.know, reached := uni v.own v.reached } }
          let s := { s with fresh := s.fresh + 1 }
          .done (s.setCore team.core { s.core team.core with reqs := (s.core team.core).reqs ++ [req] })

-- Arrival barriers (R267, R271, R272) -------------------------------------------------------------------------------------

def barWords (s : State) (t off : Nat) : List Word := wordsOf (memRead (s.team t).spad off 32)

def putBar (s : State) (t off : Nat) (w : List Word) : State :=
  spadStore s t off (w.flatMap fun x => toBytes 8 x.toNat)

/-- count of R267: the barrier's words after b bytes with flags arrive, and how many phases complete. -/
def countWords (w : List Word) (b : Nat) (fl : Flags) : List Word × Nat :=
  let w0 := getAt 0 w 0
  let w1 := getAt 0 w 1
  let expect := wfield w0 32 32
  let count := sext (low (sext (wfield w0 0 32) 32 - (b : Int)) 32) 32
  let k : Nat :=
    if count > 0 then 0
    else if 1 ≤ expect && expect ≤ 2 ^ 31 - 1 then (-count).toNat / expect + 1 else 1
  let count := if 1 ≤ expect && expect ≤ 2 ^ 31 - 1 then count + ((k * expect : Nat) : Int) else count
  ([wset w0 0 32 (low count 32), wset (wset w1 0 5 ((wfield w1 0 5) ||| fl.toNat)) 32 32 (wfield w1 32 32 + k)] ++ w.drop 2, k)

/-- One update of a request's barrier. A completed phase is a release of the bytes counted so far, after all that precedes the requests
counted (R314). -/
def countBar (s : State) (r : CopyReq) (off b : Nat) (fl : Flags) : State :=
  let (w, k) := countWords (barWords s r.team off) b fl
  let s := putBar s r.team off w
  let t := s.team r.team
  let t := { t with prior := t.prior ++ (r.view.know.filter fun i => !t.prior.contains (off, i)).map fun i => (off, i) }
  if k = 0 then s.setTeam r.team t else
  let ids := (t.pend.filter fun (o, _) => o == off).map (·.2)
  let ranges := ids.filterMap fun i => match s.writes[i]? with | some x => some (x.va, 4) | none => none
  let rel : Release := { party := .eng r.group r.id, scope := .device, acts := .bytes t.ctx ranges,
                         know := uni ((t.prior.filter fun (o, _) => o == off).map (·.2)) ids, cov := ids }
  { s.setTeam r.team { t with phases := t.phases ++ [(off, s.rels.length)] } with rels := s.rels ++ [rel] }

/-- Address checks of ABINIT and ABWAIT. -/
def abAddr (s : State) (g : Nat) (e : Entry) : Except Perf Nat :=
  let a := (e.bv e.low).toNat % 2 ^ 32
  if a % 32 ≠ 0 then .error (.trap s ⟨0x06, maskOfList [e.low], wd a⟩ e)
  else if !localSpad s (s.group g).team a 32 then .error (spFault s e a)
  else .ok (field a 0 19)

/-- ABINIT (R271). With helper lanes alone it writes nothing and takes no fault for its address; CPYERR of a bad count, which is no memory fault, it
raises all the same (R157). -/
def doAbinit (g : Nat) (e : Entry) (s : State) : Perf :=
  match abAddr s g e with
  | .error p => if e.idle then .done s else p
  | .ok off =>
    let n := (e.cv e.low).toNat
    if n < 1 || n > 2 ^ 31 - 1 then cpyErr s e ((e.bv e.low).toNat) 9
    else if e.idle then .done s
    else
      let t := (s.group g).team
      let s := putBar s t off [wd (n * 2 ^ 32 + n), 0, 0, 0]
      let x := s.team t
      let off_ : List (Nat × Nat) → List (Nat × Nat) := fun l => l.filter (·.1 != off)
      .done (s.setTeam t { x with phases := off_ x.phases, pend := off_ x.pend, prior := off_ x.prior })

/-- ABWAIT (R272). With helper lanes alone it waits and acquires, and neither traps, for its address or for the
request's fault, nor raises flags (R157). -/
def doAbwait (g : Nat) (e : Entry) (s : State) : Perf :=
  match abAddr s g e with
  | .error p => if e.idle then .done s else p
  | .ok off =>
    let t := (s.group g).team
    let w := barWords s t off
    let w1 := getAt 0 w 1
    if sext (low (((e.cv e.low).toNat : Int) - (wfield w1 32 32 : Int)) 32) 32 > 0 then .wait s .again e
    else if wfield w1 31 1 = 1 && !e.idle then
      .trap s ⟨0x07, e.act, wd (wfield w1 27 4 * 2 ^ 60 + wfield (getAt 0 w 2) 0 57)⟩ e
    else
      let team := s.team t
      let rels := (team.phases.filter fun (o, _) => o == off).map (·.2)
      let ranges := rels.flatMap fun r => match s.rels[r]? with
        | some x => match x.acts with | .bytes _ l => l | _ => []
        | none => []
      let s := traceSync (groupAcquire s g .device (.bytes team.ctx ranges) rels e.act 0) 0x15 g e.act off
      .done (if e.idle then s else s.setGroup g ((s.group g).raise (BitVec.ofNat 5 (wfield w1 0 5))))

-- Tile copies (R273). Poison marks pass with the bytes (R372). --------------------------------------------------------------------

def doTcpy (out : Bool) (g : Nat) (e : Entry) (s : State) : Perf :=
  let cw := (e.cv e.low).toNat
  let f := field cw 0 10
  let n := field cw 10 11
  let a := (e.bv e.low).toNat % 2 ^ 32
  let t := (s.group g).team
  let x := s.team t
  let off := field a 0 19
  if e.idle then .done s
  else if cw / 2 ^ 21 ≠ 0 then .trap s ⟨0x09, e.lanes, wd cw⟩ e
  else if n = 0 then .done s
  else if f + n > x.trows then .trap s ⟨0x09, e.lanes, wd (max f x.trows)⟩ e
  else if a % 16 ≠ 0 || !localSpad s t a (1024 * n) then spFault s e a
  else if out then
    let marks := (x.tlpois.filter fun m => 64 * f ≤ m && m < 64 * (f + n)).map fun m => m - 64 * f + off / 16
    let s := spadStore s t off (memRead x.tile (1024 * f) (1024 * n))
    let y := s.team t
    .done (s.setTeam t { y with sppois := uni y.sppois marks })
  else
    let marks := (x.sppois.filter fun m => off / 16 ≤ m && m < off / 16 + 64 * n).map fun m => m - off / 16 + 64 * f
    .done (s.setTeam t { x with
      tile := memWrite x.tile (1024 * f) (memRead x.spad off (1024 * n))
      tlpois := uni (x.tlpois.filter fun m => !(64 * f ≤ m && m < 64 * (f + n))) marks })

-- The engine (R262 to R269) -----------------------------------------------------------------------------------------------

/-- A word as the engine reads it: the group's value at CPYQ, or the current one where another write has arrived since (R266). -/
def engineWord (s : State) (c : Nat) (r : CopyReq) (word : Nat) : BitVec 32 :=
  if ((writesTo s word).any fun (i, _) => r.start ≤ i) && Config.pick ((s.fresh + 1) * 2 ^ 64 + word) then wordNow s word
  else plainWord s (some c) r.view word

def engineBytes (s : State) (c : Nat) (r : CopyReq) (l : List Piece) : List Byte :=
  l.flatMap fun p => (span p.pa p.len).map fun a => wordByte (engineWord s c r (a / 4 * 4)) (a % 4)

/-- Checked global accesses of a chunk: the pieces by access, or the faults; `lane` is the access's position. -/
def engineChecks (s : State) (t : Nat) (need : Need) :
    Nat → List (Nat × Nat) → State × List (List Piece) × List MemFault
  | _, [] => (s, [], [])
  | k, (va, n) :: rest =>
    let (s, r) := checkAccess s (teamAccess s t need va n)
    let (s, ps, fs) := engineChecks s t need (k + 1) rest
    match r with
    | .ok p => (s, p :: ps, fs)
    | .error (kind, page) => (s, [] :: ps, { lane := k, kind, addr := va, page } :: fs)

/-- Code of a global element from its bytes. -/
def CopyDesc.codeOf (r : CopyDesc) (e : Nat) (b : List Byte) : Nat :=
  let x := ofBytes b
  if r.gf = 17 then (if r.upper e then x / 16 else x % 16) else x

/-- The exact zero of a type (R237). -/
def zeroOf (t : Nat) : Nat := if isLog t then zeroCode (fmtOf t) else 0

/-- Log of a decoded value, where it is a number. -/
def valLog (F : Nat) : Val → Option LogVal
  | .num _ e => some (.dyadic e F)
  | _ => none

/-- Log of an IEEE value, where it is a finite nonzero number. -/
def ieeeLog : IVal → Option LogVal
  | .fin _ n k => some (magOf n k).log
  | _ => none

/-- The constant c of a computed scale (R264). -/
def scaleConst (t : Nat) : Int := if t = 10 then 2 else 6

/-- What a chunk of an import needs of global memory: the elements, in range, whose bytes it reads, and the box blocks whose
scale bytes it reads. -/
def CopyDesc.needs (r : CopyDesc) (k : Nat) : List Nat × List Nat :=
  let (a, n) := r.range k
  if k < r.elemChunks then
    let es := (span ((a - r.spaddr) / r.ps) (n / r.ps)).filter r.inRange
    let bs := (es.map (· / r.bs)).foldl (fun acc b => if acc.contains b then acc else acc ++ [b]) []
    match r.pair with
    | some .mxBlocks => (es, bs)
    | some .fromL8 => (es, bs)
    | _ => (es, [])
  else
    let bs := (span (a - r.spscale) n).filter fun b => !(r.blockElems b).isEmpty
    match r.pair with
    | some .scaled => ([], bs)
    | _ => (bs.flatMap r.blockElems, [])

/-- One imported element (Table 11.9): its global code, the block scale where the pair reads one (a byte), the computed scale where
the pair computes one. -/
def importElem (r : CopyDesc) (code scale : Nat) (k : Int) : Nat × Flags :=
  let m := rmodeOf r.mode
  let f := fmtOf r.pf
  match r.pair with
  | some .ieee => importLog (decodeIeee (ifmtOf r.gf) code) (if isL8 r.pf then -k else 0) f m 0
  | some .mxBlocks =>
    if scale = 0xFF then (narCode f, fNAR) else importLog (decodeIeee (ifmtOf r.gf) code) ((scale : Int) - 127) f m 0
  | some .fromL8 => lcvtElem (fmtOf r.gf) f (sext scale 8) m code 0
  | _ => (code, 0)

/-- The scratchpad bytes of an import chunk, with its flags; `code` and `scale` answer what was read. -/
def importChunk (r : CopyDesc) (k : Nat) (code : Nat → Nat) (scale : Nat → Nat) : List Byte × Flags :=
  let (a, n) := r.range k
  let computed := fun b => blockScale (scaleConst r.pf)
    ((r.blockElems b).filterMap fun e => ieeeLog (decodeIeee (ifmtOf r.gf) (code e)))
  if k < r.elemChunks then
    let es := span ((a - r.spaddr) / r.ps) (n / r.ps)
    let kb := if r.pair == some .ieee && isL8 r.pf then match es with | e :: _ => computed (e / 128) | [] => 0 else 0
    let l := es.map fun e => if r.inRange e then importElem r (code e) (scale (e / r.bs)) kb else (zeroOf r.pf, 0)
    (l.flatMap fun (x, _) => toBytes r.ps x, unionFlags (l.map (·.2)))
  else
    ((span (a - r.spscale) n).flatMap fun b =>
      if (r.blockElems b).isEmpty then toBytes 1 0
      else if r.pair == some .scaled then toBytes 1 (scale b)
      else toBytes 1 (low (computed b) 8), 0)

/-- A write of an export: global address, for f4 whether it is the upper nibble of its byte, bytes, and the scratchpad bytes it comes from (address,
length). -/
structure OutWrite where
  va    : Nat
  nib   : Option Bool
  bytes : List Byte
  src   : List (Nat × Nat)

/-- Scratchpad bytes of an element. -/
def CopyDesc.at_ (r : CopyDesc) (e : Nat) : Nat × Nat := (r.spaddr + r.ps * e, r.ps)

/-- The global writes of an export chunk, with its flags. `code` reads a box element from the scratchpad, `pscale` a box block's
scratchpad scale. A block's scale is written with the block's first in-range element. -/
def exportChunk (r : CopyDesc) (k : Nat) (code : Nat → Nat) (pscale : Nat → Nat) : List OutWrite × Flags :=
  let (a, n) := r.range k
  let m := rmodeOf r.mode
  let fp := fmtOf r.pf
  let gb := max 1 (tyWidth r.gf / 8)
  if k < r.elemChunks then
    let es := (span ((a - r.spaddr) / r.ps) (n / r.ps)).filter r.inRange
    let firsts := es.filter fun e => (r.blockElems (e / r.bs)).head? == some e
    match r.pair with
    | some .ieee =>
      let l := es.map fun e =>
        let v := decodeLog fp (code e)
        let v := match v with
          | .num sg x => if isL8 r.pf then .num sg (x + sext (pscale (e / 128)) 8 * ((2 ^ fp.F : Nat) : Int)) else .num sg x
          | v => v
        (e, exportLog (ifmtOf r.gf) v fp.F m 0)
      (l.map fun ((e, x, _) : Nat × Nat × Flags) =>
        ⟨r.addr e, none, toBytes gb x, r.at_ e :: if isL8 r.pf then [(r.spscale + e / 128, 1)] else []⟩, unionFlags (l.map (·.2.2)))
    | some .mxBlocks =>
      let blocks := (firsts.map (· / 32)).map fun b =>
        let be := r.blockElems b
        let (sc, cs, fl) := mxExport r.gf fp.F m (be.map fun e => decodeLog fp (code e))
        let src := be.map r.at_
        ((be.zip cs).map (fun (e, x) => (⟨r.addr e, if r.gf = 17 then some (r.upper e) else none, toBytes gb x, src⟩ : OutWrite)) ++
          [(⟨r.scaleAddr b, none, toBytes 1 sc, src⟩ : OutWrite)], fl)
      (blocks.flatMap (·.1), unionFlags (blocks.map (·.2)))
    | some .fromL8 =>
      let kOf := fun b => blockScale (scaleConst r.gf) ((r.blockElems b).filterMap fun e => valLog fp.F (decodeLog fp (code e)))
      let l := es.map fun e => (e, lcvtElem fp (fmtOf r.gf) (kOf (e / 128)) m (code e) 0)
      let src := fun e => (r.blockElems (e / 128)).map r.at_
      ((l.map fun (e, x, _) => ⟨r.addr e, none, toBytes gb x, src e⟩) ++
        firsts.map (fun e => ⟨r.scaleAddr (e / 128), none, toBytes 1 (low (kOf (e / 128)) 8), src e⟩), unionFlags (l.map (·.2.2)))
    | _ => (es.map fun e => ⟨r.addr e, none, toBytes gb (code e), [r.at_ e]⟩, 0)
  else
    match r.pair with
    | some .scaled =>
      (((span (a - r.spscale) n).filter fun b => !(r.blockElems b).isEmpty).map fun b =>
        ⟨r.scaleAddr b, none, toBytes 1 (pscale b), [(r.spscale + b, 1)]⟩, 0)
    | _ => ([], 0)

def State.setReq (s : State) (core : Nat) (r : CopyReq) : State :=
  let c := s.core core
  s.setCore core { c with reqs := c.reqs.map fun q => if q.id == r.id then r else q }

def State.dropReq (s : State) (core id : Nat) : State :=
  let c := s.core core
  s.setCore core { c with reqs := c.reqs.filter (·.id != id) }

/-- Chunks still to be counted: those left and those that wait. -/
def CopyReq.due (r : CopyReq) : List Nat := r.left ++ r.waiting.map (·.chunk)

/-- Give up a request (R268). -/
def abandonReq (s : State) (core : Nat) (r : CopyReq) (kind addr : Nat) : State :=
  let d := copyDesc r.words
  let b := r.due.foldl (fun n k => n + (d.range k).2) 0
  let w := barWords s r.team d.bar
  let s := if wfield (getAt 0 w 1) 31 1 = 1 then s else
    putBar s r.team d.bar [getAt 0 w 0, wset (wset (getAt 0 w 1) 31 1 1) 27 4 kind, wd (addr % 2 ^ 57), getAt 0 w 3]
  countBar (s.dropReq core r.id) r d.bar b 0

/-- A later request of the engine has already written this byte, whose value stays (R266). -/
def CopyReq.laterWrote (r : CopyReq) (t off : Nat) : Bool := r.lost.any fun (u, o, n) => u == t && o ≤ off && off < o + n

/-- Older requests of the engine lose a range that a request has written. -/
def loseRange (s : State) (core id t off n : Nat) : State :=
  let c := s.core core
  s.setCore core { c with reqs := c.reqs.map fun (q : CopyReq) => if q.id < id then { q with lost := q.lost ++ [(t, off, n)] } else q }

/-- Bytes a request's chunk leaves in the scratchpad, with F set where no chunk due still writes the granule (R265). -/
def importStore (s : State) (core : Nat) (r : CopyReq) (k : Nat) (bytes : List Byte) (bad : List Nat) : State :=
  let d := copyDesc r.words
  let (a, n) := d.range k
  match spadTarget s r.team a n with
  | none => s
  | some (t, off) =>
    let keep := (List.range n).map fun i => if r.laterWrote t (off + i) then memGet (s.team t).spad (off + i) else getAt 0 bytes i
    let s := loseRange (spadStore s t off keep) core r.id t off n
    let x := s.team t
    let s := s.setTeam t { x with sppois := uni x.sppois (bad.map fun i => (off + i) / 16) }
    let others := (r.due.filter (· != k)).map d.range
    let grans := span (off / 16) ((off + n - 1) / 16 - off / 16 + 1)
    grans.foldl (fun s gr =>
      let busy := others.any fun (b, m) =>
        match spadTarget s r.team b m with
        | some (u, o) => u == t && o < 16 * gr + 16 && 16 * gr < o + m
        | none => false
      if busy then s else setFull s t gr) s

/-- What an exported byte leaves of another: an f4 code replaces its nibble alone. -/
def OutByte.over (b : OutByte) (old : Byte) : Byte :=
  match b.nib with
  | none => b.byte
  | some true => BitVec.ofNat 8 (old.toNat % 16 + 16 * (b.byte.toNat % 16))
  | some false => BitVec.ofNat 8 (old.toNat / 16 * 16 + b.byte.toNat % 16)

/-- The bytes of one write at its checked pieces. -/
def OutWrite.outBytes (w : OutWrite) (chunk : Nat) (l : List Piece) : List OutByte :=
  ((l.flatMap fun p => (span 0 p.len).map fun i => (p.pa + i, p.va + i)).zip w.bytes).map fun ((pa, va), byte) =>
    { chunk, pa, va, nib := w.nib, byte }

/-- A word after a request's chunks up to k that have been performed, in the request's own order (R306, R316, R320). -/
def CopyReq.render (s : State) (c : Nat) (r : CopyReq) (word k : Nat) : BitVec 32 :=
  let base := plainWord s (some c) r.view word
  BitVec.ofNat 32 (ofBytes ((List.range 4).map fun i =>
    (r.outs.filter fun b => b.chunk ≤ k && b.pa == word + i).foldl (fun old b => b.over old) (wordByte base i)))

/-- The chunk whose write a record of an engine is: the last but one of its index. -/
def WriteRec.chunk (w : WriteRec) : Nat := getAt 0 w.idx (w.idx.length - 2)

/-- The writes of later chunks that have been performed already hold the bytes an earlier one has now written. -/
def repaint (s : State) (c : Nat) (r : CopyReq) (word k : Nat) : State :=
  if !r.outs.any fun b => k < b.chunk && b.pa / 4 * 4 == word then s else
  let s := { s with writes := s.writes.map fun w =>
    if w.word == word && w.party == .eng r.group r.id && k < w.chunk then { w with val := r.render s c word w.chunk } else w }
  match winner none (writesTo s word) with
  | some (_, w) => { s with mem := memPut s.mem word 4 w.val.toNat }
  | none => s

/-- The words a list of exported bytes touches, each once, with the virtual address. -/
def wordsTouched (l : List OutByte) : List (Nat × Nat) :=
  l.foldl (fun acc b =>
    let word := b.pa / 4 * 4
    if acc.any fun (x, _) => x == word then acc else acc ++ [(word, b.va + word - b.pa)]) []

/-- A chunk whose addresses fail (R268): reported, it waits; otherwise the request is abandoned. -/
def chunkFault (s : State) (core : Nat) (r : CopyReq) (k : Nat) (wr : Bool) (faults : List MemFault) : State :=
  let t := s.team r.team
  let low := fun (l : List MemFault) => l.head?
  let f := match low (faults.filter fun f => immediateKind f.kind) with
    | some f => some f
    | none => low faults
  let (kind, addr) := match f with | some f => (f.kind, f.addr) | none => (0, 0)
  match report s t.ctx t.tag core (s.group r.group).slot r.pc wr false faults with
  | (s, some n) => s.setReq core { r with left := r.left.filter (· != k), waiting := r.waiting ++ [⟨k, n, kind, addr⟩] }
  | (s, none) => abandonReq s core r kind addr

/-- After a chunk: it is counted, and a request with no chunk due leaves the engine (R266, R267). -/
def chunkDone (s : State) (core : Nat) (r : CopyReq) (k : Nat) (fl : Flags) : State :=
  let d := copyDesc r.words
  let r := { r with left := r.left.filter (· != k) }
  let s := if r.due.isEmpty then s.dropReq core r.id else s.setReq core r
  countBar s r d.bar (d.range k).2 fl

/-- A chunk of an import: global to scratchpad. -/
def importRun (s : State) (core : Nat) (r : CopyReq) (k : Nat) : State :=
  let d := copyDesc r.words
  let t := s.team r.team
  let (es, bs) := d.needs k
  let gb := max 1 (tyWidth d.gf / 8)
  let accesses := es.map (fun e => (d.addr e, gb)) ++ bs.map fun b => (d.scaleAddr b, 1)
  let (s, pieces, faults) := engineChecks s r.team .load 0 accesses
  match faults.find? fun f => f.kind == 0x10 with
  | some f => consume s r.group 0x18 f.page
  | none =>
    if !faults.isEmpty then chunkFault s core r k false faults
    else
      let got := pieces.map fun p => ofBytes (engineBytes s t.ctx r p)
      let code := fun e => match findIdx (· == e) es with | some i => d.codeOf e (toBytes 8 (getAt 0 got i)) | none => 0
      let scale := fun b => match findIdx (· == b) bs with | some i => getAt 0 got (es.length + i) | none => 0
      let (bytes, fl) := importChunk d k code scale
      let hurt := (List.range pieces.length).filter fun i => (poisonPieces s (getAt [] pieces i)).isSome
      let badE := hurt.filterMap fun i => es[i]?
      let badB := hurt.filterMap fun i => if i < es.length then none else bs[i - es.length]?
      let whole := d.pair == some .ieee && isL8 d.pf
      let bad := (List.range (d.range k).2).filter fun i =>
        if k < d.elemChunks then
          let e := ((d.range k).1 - d.spaddr + i) / d.ps
          badE.contains e || badB.contains (e / d.bs) || (whole && badE.any fun x => x / 128 == e / 128)
        else
          let b := (d.range k).1 - d.spscale + i
          badB.contains b || badE.any fun x => x / 128 == b
      let s := { s with fresh := s.fresh + 1 }
      chunkDone (importStore s core r k bytes bad) core r k fl

/-- A chunk of an export: scratchpad to global. -/
def exportRun (s : State) (core : Nat) (r : CopyReq) (k : Nat) : State :=
  let d := copyDesc r.words
  let t := s.team r.team
  let code := fun e => match spadTarget s r.team (d.spaddr + d.ps * e) d.ps with
    | some (u, o) => memNat (s.team u).spad o d.ps
    | none => 0
  let pscale := fun b => match spadTarget s r.team (d.spscale + b) 1 with
    | some (u, o) => memNat (s.team u).spad o 1
    | none => 0
  let (outs, fl) := exportChunk d k code pscale
  let (s, pieces, faults) := engineChecks s r.team .store 0 (outs.map fun o => (o.va, o.bytes.length))
  match faults.find? fun f => f.kind == 0x10 with
  | some f => consume s r.group 0x18 f.page
  | none =>
    if !faults.isEmpty then chunkFault s core r k true faults
    else
      let key : Writer :=
        match t.launch, t.task with
        | some l, _ => ⟨.eng r.group r.id, 2, [(s.launch l).lseq, t.t * t.ngroups + (s.group r.group).idx, 1, r.id, k], t.ctx⟩
        | none, some (q, pop) => ⟨.eng r.group r.id, 1, [pop, q, (s.group r.group).idx, 1, r.id, k], t.ctx⟩
        | none, none => ⟨.eng r.group r.id, 1, [0, 0, (s.group r.group).idx, 1, r.id, k], t.ctx⟩
      let first := s.writes.length
      let new := (outs.zip pieces).flatMap fun (o, l) => o.outBytes k l
      let r := { r with outs := (r.outs.filter fun b => b.chunk < k) ++ new ++ r.outs.filter fun b => k < b.chunk }
      let s := (wordsTouched new).foldl (fun s (word, va) =>
        repaint (writeWord s r.view key none [] va word (r.render s t.ctx word k)).1 t.ctx r word k) s
      let ids := span first (s.writes.length - first)
      let bad := fun (o : OutWrite) => o.src.any fun (a, n) =>
        match spadTarget s r.team a n with
        | some (u, off) => spadPoison (s.team u) off n
        | none => false
      let ranges := fun (l : List (List Piece)) => l.flatMap fun p => p.map fun q => (q.pa, q.len)
      let s := clearPoison s (ranges pieces)
      let s := (ranges (((outs.zip pieces).filter fun (o, _) => bad o).map (·.2))).foldl (fun s (pa, n) => markPoison s pa n) s
      let x := s.team r.team
      let s := s.setTeam r.team { x with pend := x.pend ++ ids.map fun i => (d.bar, i) }
      chunkDone s core r k fl

/-- COPY_CHUNK (R266). A chunk the core's engine does not hold, or one that waits, changes nothing. -/
def execCopyChunk (core req chunk : Nat) (s : State) : Out :=
  match (s.core core).reqs.find? fun r => r.id == req with
  | none => .next s
  | some r =>
    if !r.left.contains chunk || !(s.core core).powered || s.dev.status = 7 then .next s
    else if (copyDesc r.words).dir = 0 then .next (importRun s core r chunk)
    else .next (exportRun s core r chunk)

end Sys2Proof.Machine
end

