-- ==== Sys2Proof/Machine/Matrix.lean ====
section
/-! DEFINITION. The matrix array (chapter 12): planes and sparse patterns, column trees and accumulation, the baton, and the
meanings of the matrix instructions over a log entry. Every one completes in the turn that ends its last wait. -/

namespace Sys2Proof.Machine

-- Sparse patterns (R278, R279) ------------------------------------------------------------------------------------------

/-- Whether pair index p of R278 holds column c. -/
def pairHas (p c : Nat) : Bool :=
  match p with
  | 0 => c == 0 || c == 1
  | 1 => c == 0 || c == 2
  | 2 => c == 0 || c == 3
  | 3 => c == 1 || c == 2
  | 4 => c == 1 || c == 3
  | _ => c == 2 || c == 3

/-- The patterns: tuples in which every column is named exactly twice, in ascending order (R278). -/
def patterns : List (List Nat) :=
  ((List.range 1296).map fun n => [n / 216, n / 36 % 6, n / 6 % 6, n % 6]).filter fun p =>
    (List.range 4).all fun c => (p.filter fun q => pairHas q c).length == 2

/-- Block rows that hold column c of a pattern, ascending. -/
def patternRows (p : List Nat) (c : Nat) : List Nat := (List.range 4).filter fun m => pairHas (getAt 0 p m) c

-- Planes (R275, R276) -----------------------------------------------------------------------------------------------------

def Plane.form (p : Plane) : Fmt := fmtOf p.fmt

/-- Stored weight at row r, physical column c; an empty plane stores zeros. -/
def Plane.stored (p : Plane) (r c : Nat) : Val :=
  match p.rows with
  | [] => .zero
  | l => decodeLog p.form (getAt 0 (getAt [] l r) c).toNat

/-- Column scale (R275). -/
def Plane.kw (p : Plane) (c : Nat) : Int := sext (getAt 0 p.scales c).toNat 8

/-- Logical weight W[r][c] (R276, R279). -/
def Plane.weight (p : Plane) (r c : Nat) : Val :=
  if !p.sparse then p.stored r c
  else
    let pat := getAt [] patterns (getAt 0 p.metab (64 * (r / 4) + c / 4)).toNat
    match patternRows pat (c % 4) with
    | [lo, hi] =>
      if r % 4 = lo then p.stored (r / 4 * 2) c
      else if r % 4 = hi then p.stored (r / 4 * 2 + 1) c
      else .zero
    | _ => .zero

/-- The largest column scale. -/
def Plane.kwMax (p : Plane) : Int := (List.range 256).foldl (fun m c => max m (p.kw c)) (p.kw 0)

-- Products and sums (R280, R281) --------------------------------------------------------------------------------------------

/-- prod: decoded stream and weight, their fraction bits, the scale differences; a value of LT. -/
def matProd (fa fw : Nat) (a w : Val) (da dw : Int) : Val :=
  match a, w with
  | .nar, _ => .nar
  | _, .nar => .nar
  | .zero, _ => .zero
  | _, .zero => .zero
  | .num sa ea, .num sw ew =>
    let e := ea * ((2 ^ (12 - fa) : Nat) : Int) + ew * ((2 ^ (12 - fw) : Nat) : Int) + (da + dw) * 4096
    .num (sa ^^^ sw) (sat e (-(2 ^ 20)) (2 ^ 20 - 1))

/-- accstep: the accumulator code after a root of LT with scale ks. -/
def accstep (acc : Nat) (rt : Val) (ks : Int) (mode : RMode) : Nat × Flags :=
  match decodeLog l32 acc, rt with
  | .nar, _ => (narCode l32, 0)
  | _, .nar => (narCode l32, 0)
  | a, .zero => (a.code l32, 0)
  | a, .num srt ert =>
    let lam := ert * 1024 + ks * 4194304
    match a with
    | .num sacc eacc => addcore sacc eacc srt lam l32 mode 0
    | _ => rndDyadic srt lam 22 l32 mode 0

/-- A streamed row: its decoded elements, and the scales of its 128-position blocks with whether each holds an element in range. -/
structure StreamRow where
  a  : List Val
  ka : List (Int × Bool)

def StreamRow.kamax (r : StreamRow) : Int :=
  match r.ka.filter (·.2) with
  | [] => 0
  | x :: l => l.foldl (fun m y => max m y.1) x.1

/-- The N new words of an accumulator row (R276, R280, R281). -/
def matRow (p : Plane) (transposed : Bool) (fa : Nat) (r : StreamRow) (n : Nat) (mode : RMode) (acc : Nat → Nat) : List Nat × Flags :=
  let km := r.kamax
  let ref := p.kwMax
  let cells := (List.range n).map fun o =>
    let leaves := ((List.range r.a.length).zip r.a).map fun (q, a) =>
      let col := if transposed then q else o
      matProd fa p.form.F a (if transposed then p.weight o q else p.weight q o)
        ((getAt (0, false) r.ka (q / 128)).1 - km) (p.kw col - (if transposed then ref else p.kw o))
    let (root, f1) := tree .zero ltnode ltnode leaves
    let (c, f2) := accstep (acc o) root (km + (if transposed then ref else p.kw o)) mode
    (c, f1 ||| f2)
  (cells.map (·.1), unionFlags (cells.map (·.2)))

-- The baton (R290) ----------------------------------------------------------------------------------------------------------

/-- The holder proceeds; any other group takes a free baton or waits in the queue. -/
def withBaton (g : Nat) (e : Entry) (s : State) (f : State → Perf) : Perf :=
  let k := (s.group g).core
  let c := s.core k
  if c.holder = some g then f s
  else if c.holder.isNone && c.queue.isEmpty then f (grantBaton s k g)
  else .wait (s.setCore k { c with queue := uni c.queue [g] }) .baton e

def State.arrayOf (s : State) (g : Nat) : ArrayState := (s.core (s.group g).core).array

def State.setArray (s : State) (g : Nat) (a : ArrayState) : State :=
  let k := (s.group g).core
  s.setCore k { s.core k with array := a }

/-- NONDET of a foreign use under DET = 1 (R292). -/
def foreignUse (g : Nat) (e : Entry) (s : State) (foreign : Bool) (f : Perf) : Perf :=
  if (s.team (s.group g).team).det && foreign then .nondet s ⟨0x0E, e.lanes, 0⟩ else f

-- Control words, descriptors, rows of memory ----------------------------------------------------------------------------------

/-- The control value: a register, or a zero-extended immediate (R294). -/
def controlOf (f : Full) (e : Entry) : Nat :=
  match f.c with
  | .reg _ => (e.cv e.low).toNat
  | c => c.immNat

/-- MATERR (R296). -/
def matErr (g : Nat) (e : Entry) (s : State) (reason detail : Nat) : Perf :=
  .trap s ⟨0x0D, (s.group g).live, wd (reason * 2 ^ 56 + detail % 2 ^ 32)⟩ e

/-- TSBOUND of n rows from f (R236, R295). -/
def rowsBeyond (s : State) (g f n : Nat) : Option Nat :=
  let t := (s.team (s.group g).team).trows
  if n ≠ 0 && f + n > t then some (max f t) else none

def tsBound (s : State) (e : Entry) (row : Nat) : Perf := .trap s ⟨0x09, e.lanes, wd row⟩ e

/-- Register k of the descriptor run. -/
def Entry.desc (e : Entry) (k : Nat) : Word := cell e.b k e.low

/-- The accesses of a byte range, cut at 4 KiB pages. -/
def cutPages : Nat → Nat → Nat → List (Nat × Nat)
  | 0, _, _ => []
  | fuel + 1, va, n =>
    if n = 0 then [] else
    let k := min n (4096 - va % 4096)
    (va, k) :: cutPages fuel ((va + k) % 2 ^ 64) (n - k)

/-- Accesses of several byte ranges. -/
def cutAll (l : List (Nat × Nat)) : List (Nat × Nat) := l.flatMap fun (va, n) => cutPages (n / 4096 + 2) va n

/-- Reads or writes of an array operand, checked before any is performed (R286, R288): the pieces, or what the failing row comes to. -/
def arrayChecks (s : State) (g : Nat) (e : Entry) (need : Need) (l : List (Nat × Nat)) : State × Except Perf (List Piece) :=
  let t := (s.group g).team
  let (s, pieces, faults) := engineChecks s t need 0 (cutAll l)
  match faults.find? fun f => f.kind == 0x10 with
  | some f => (s, .error (.poison s f.page))
  | none =>
    if faults.isEmpty then (s, .ok (pieces.flatMap id))
    else (s, .error (.fault s { e with faults } faults e.lanes (need == .store) false))

/-- Bytes of plain loads by the group; marked bytes are consumed. -/
def arrayRead (s : State) (g : Nat) (e : Entry) (l : List (Nat × Nat)) : State × Except Perf (List Byte) :=
  match arrayChecks s g e .load l with
  | (s, .error p) => (s, .error p)
  | (s, .ok ps) =>
    match poisonPieces s ps with
    | some a => (s, .error (.poison s a))
    | none => (s, .ok (readPieces s (some (s.team (s.group g).team).ctx) (s.group g).view ps))

/-- Bytes of plain stores by the group (R286). -/
def arrayWrite (s : State) (g : Nat) (ps : List Piece) (bytes : List Byte) : State :=
  let (s, v) := writePieces s (s.group g).view (writerOf s g 0) none ps bytes
  clearPoison (s.setView g v) (ps.map fun p => (p.pa, p.len))

/-- Raise flags of a written row. -/
def raiseFlags (s : State) (g : Nat) (f : Flags) : State := s.setGroup g ((s.group g).raise f)

def tileRow (s : State) (g row : Nat) : List Nat :=
  let t := s.team (s.group g).team
  (List.range 256).map fun o => memNat t.tile (1024 * row + 4 * o) 4

def putTile (s : State) (g row : Nat) (words : List Nat) : State :=
  let k := (s.group g).team
  let t := s.team k
  s.setTeam k { t with tile := memWrite t.tile (1024 * row) (words.flatMap (toBytes 4)) }

/-- Row-granular progress (R287): perform rows from the entry's progress up to n. A row that stops ends the instruction there. -/
def rowsFrom (one : Nat → Entry → State → Perf) : Nat → Entry → State → Perf
  | 0, _, s => .done s
  | left + 1, e, s =>
    if e.upto = some e.prog then .wait s .rows { e with upto := none, late := true } else
    match one e.prog e s with
    | .done s => rowsFrom one left { e with prog := e.prog + 1 } s
    | p => p

-- MTAKE, MPASS, MSWAP (R297, R299) ----------------------------------------------------------------------------------------------

def doMtake (g : Nat) (e : Entry) (s : State) : Perf := withBaton g e s .done

def doMpass (g : Nat) (_ : Entry) (s : State) : Perf := .done (giveUp s (s.group g).core g)

def doMswap (g : Nat) (e : Entry) (s : State) : Perf :=
  withBaton g e s fun s =>
    let a := s.arrayOf g
    .done (s.setArray g { a with active := a.shadow, shadow := a.active, af := a.sf, sf := a.af })

-- MWLD (R298) -------------------------------------------------------------------------------------------------------------------

/-- The shadow plane takes what was read: 32,768 weights, 256 scales, metadata. -/
def loadPlane (g : Nat) (e : Entry) (s : State) (fmt : Nat) (sparse : Bool) (w sc m : List Byte) : Perf :=
  let a := s.arrayOf g
  match if sparse then findIdx (fun b : Byte => b.toNat > 89) m else none with
  | some i => matErr g e (s.setArray g { a with shadow := {} }) 3 i
  | none =>
    let rows := (List.range 128).map fun r => (w.drop (256 * r)).take 256
    .done (s.setArray g { a with shadow := { fmt, sparse, rows, scales := sc, metab := if sparse then m else [] }, sf := false })

/-- The first poisoned byte of a team's tile store that MWLD.TS reads from row f on: all of 32 rows, the first 256 bytes of the next, and with
.SP all of the four rows behind it (R298). -/
def tilePoison (t : Team) (f : Nat) (sparse : Bool) : Option Nat :=
  (t.tlpois.find? fun m =>
    (64 * f ≤ m && m < 64 * (f + 32) + 16) || (sparse && 64 * (f + 33) ≤ m && m < 64 * (f + 37))).map (16 * ·)

/-- The first register offset of Table 12.9 whose fields break it. -/
def mwldBad (e : Entry) (sparse : Bool) : Option Nat :=
  let d := fun k => (e.desc k).toNat
  if d 0 / 2 ^ 57 ≠ 0 || d 0 % 16 ≠ 0 then some 0
  else if d 1 / 2 ^ 32 ≠ 0 || d 1 % 16 ≠ 0 then some 1
  else if d 2 / 2 ^ 57 ≠ 0 || d 2 % 16 ≠ 0 then some 2
  else if d 3 / 2 ^ 57 ≠ 0 || d 3 % 16 ≠ 0 || (!sparse && d 3 ≠ 0) then some 3
  else none

def doMwld (f : Full) (g : Nat) (e : Entry) (s : State) : Perf :=
  withBaton g e s fun s =>
    let x := f.xm.toNat
    let sparse := x / 2 % 2 == 1
    let fmt := f.ty.toNat
    if x % 2 = 0 then
      let c := controlOf f e
      let row := c % 1024
      if c / 1024 ≠ 0 then matErr g e s 1 c
      else match rowsBeyond s g row (if sparse then 37 else 33) with
        | some r => tsBound s e r
        | none =>
          let t := s.team (s.group g).team
          let b := memRead t.tile (1024 * row) 33024
          match tilePoison t row sparse with
          | some a => .poison s a
          | none => loadPlane g e s fmt sparse (b.take 32768) (b.drop 32768) (if sparse then memRead t.tile (1024 * (row + 33)) 4096 else [])
    else match mwldBad e sparse with
      | some k => matErr g e s 2 k
      | none =>
        let base := (e.desc 0).toNat
        let str := sext (e.desc 1).toNat 32
        let rows := (List.range 128).map fun (r : Nat) => (low ((base : Int) + str * (r : Int)) 64, 256)
        let l := rows ++ [((e.desc 2).toNat, 256)] ++ if sparse then [((e.desc 3).toNat, 4096)] else []
        match arrayRead s g e l with
        | (_, .error p) => p
        | (s, .ok b) => loadPlane g e s fmt sparse (b.take 32768) ((b.drop 32768).take 256) (b.drop 33024)

-- MMA, MMAT, MZERO (R300, R301) ---------------------------------------------------------------------------------------------------

/-- Bytes per stream element. -/
def streamBytes (ty : Nat) : Nat := if ty = 9 then 2 else 1

/-- The first register offset of Table 12.5 whose fields break it. -/
def streamBad (e : Entry) (ty : Nat) : Option Nat :=
  let d := fun k => (e.desc k).toNat
  let col := sext (d 2) 16
  if d 0 / 2 ^ 57 ≠ 0 || d 0 % 16 ≠ 0 then some 0
  else if field (d 1) 32 32 % 16 ≠ 0 then some 1
  else if fmod (col * (streamBytes ty : Int)) 16 ≠ 0 || (ty ≠ 9 && fmod col 128 ≠ 0) then some 2
  else if d 3 / 2 ^ 57 ≠ 0 || (ty = 9 && d 3 ≠ 0) then some 3
  else none

/-- Read streamed row i of L elements (R285, R237, R238). -/
def streamRow (s : State) (g : Nat) (e : Entry) (ty L i : Nat) : State × Except Perf StreamRow :=
  let d := fun k => (e.desc k).toNat
  let es := streamBytes ty
  let r := sext (d 1) 32 + (i : Int)
  let col0 := sext (d 2) 16
  let kext := field (d 2) 16 16
  let mext := field (d 2) 32 32
  let ok := fun (q : Nat) => 0 ≤ r && r < (mext : Int) && 0 ≤ col0 + (q : Int) && col0 + (q : Int) < (kext : Int)
  let qs := (List.range L).filter ok
  let at_ := fun (q : Nat) => low ((d 0 : Int) + r * sext (field (d 1) 32 32) 32 + (col0 + (q : Int)) * (es : Int)) 64
  let elems := match qs with | [] => [] | q :: _ => [(at_ q, qs.length * es)]
  let blocks := (List.range (L / 128)).map fun b => qs.any fun q => q / 128 == b
  let nb := ncdiv kext 128
  let scale := fun (b : Nat) => low ((d 3 : Int) + fdiv col0 128 + (b : Int) + (nb : Int) * r) 64
  let held := if ty = 9 then [] else (List.range (L / 128)).filter fun b => getAt false blocks b
  match arrayRead s g e (elems ++ held.map fun b => (scale b, 1)) with
  | (s, .error p) => (s, .error p)
  | (s, .ok bytes) =>
    let f := fmtOf ty
    let first := match qs with | [] => 0 | q :: _ => q
    let a := (List.range L).map fun q =>
      if ok q then decodeLog f (ofBytes ((bytes.drop ((q - first) * es)).take es)) else .zero
    let sb := bytes.drop (qs.length * es)
    let ka := (List.range (L / 128)).map fun b =>
      match findIdx (· == b) held with
      | some j => (sext (getAt 0 sb j).toNat 8, true)
      | none => (0, getAt false blocks b)
    (s, .ok { a, ka })

/-- The control word of MMA, MMAT and MZERO: reserved bits or n beyond 1,024 (R295, R296). -/
def controlBad (c : Nat) : Bool := c / 2 ^ 21 != 0 || field c 10 11 > 1024

def doMma (transposed : Bool) (f : Full) (g : Nat) (e : Entry) (s : State) : Perf :=
  withBaton g e s fun s =>
    let p := (s.arrayOf g).active
    let c := controlOf f e
    let n := field c 10 11
    let ty := f.ty.toNat
    foreignUse g e s (s.arrayOf g).af <|
    if controlBad c then matErr g e s 1 c
    else match rowsBeyond s g (c % 1024) n with
      | some r => tsBound s e r
      | none =>
        match streamBad e ty with
        | some k => matErr g e s 2 k
        | none =>
          let L := if transposed || p.sparse then 256 else 128
          let N := if transposed && !p.sparse then 128 else 256
          rowsFrom (fun i e s =>
            match streamRow s g e ty L i with
            | (_, .error q) => q
            | (s, .ok r) =>
              let old := tileRow s g (c % 1024 + i)
              let (words, fl) := matRow p transposed (fmtOf ty).F r N (rmodeOf f.rnd.toNat) (getAt 0 old)
              .done (raiseFlags (putTile s g (c % 1024 + i) words) g fl)) (n - e.prog) e s

def doMzero (f : Full) (g : Nat) (e : Entry) (s : State) : Perf :=
  withBaton g e s fun s =>
    let c := controlOf f e
    let n := field c 10 11
    let row := c % 1024
    if controlBad c then matErr g e s 1 c
    else match rowsBeyond s g row n with
      | some r => tsBound s e r
      | none =>
        rowsFrom (fun i _ s =>
          let s := putTile s g (row + i) (List.replicate 256 (zeroCode l32))
          let k := (s.group g).team
          let t := s.team k
          .done (s.setTeam k { t with tlpois := t.tlpois.filter fun m => m / 64 != row + i })) (n - e.prog) e s

-- MDRAIN (R302, R303) ---------------------------------------------------------------------------------------------------------------

/-- The first register offset of Table 12.10 whose fields break it. -/
def drainBad (e : Entry) (ty : Nat) : Option Nat :=
  let d := fun k => (e.desc k).toNat
  if d 0 / 2 ^ 57 ≠ 0 || d 0 % 16 ≠ 0 then some 0
  else if d 1 / 2 ^ 32 ≠ 0 || d 1 % 16 ≠ 0 then some 1
  else if d 2 / 2 ^ 57 ≠ 0 || (!isL8 ty && d 2 ≠ 0) then some 2
  else if d 3 ≠ 0 then some 3
  else none

/-- Blocks of 128 of a row. -/
def blocksOf {α : Type} (l : List α) : List (List α) :=
  (List.range (ncdiv l.length 128)).map fun b => (l.drop (128 * b)).take 128

/-- An output row: its codes, the scale byte of each block (l8 and l8w), the flags (R303). -/
def drainRow (ty : Nat) (mode : RMode) (words : List Nat) : List Nat × List Nat × Flags :=
  let one := fun (k : Int) (w : Nat) =>
    let v := decodeLog l32 w
    if ty = 8 then (v.code l32, (0 : Flags))
    else if isLog ty then
      match v with
      | .num s x => rndDyadic s (x - k * 4194304) 22 (fmtOf ty) mode 0
      | v => (v.code (fmtOf ty), 0)
    else exportLog (ifmtOf ty) v 22 mode 0
  if isL8 ty then
    let bs := (blocksOf words).map fun b =>
      let k := blockScale (scaleConst ty) (b.filterMap fun w => valLog 22 (decodeLog l32 w))
      (k, b.map (one k))
    (bs.flatMap fun b => b.2.map (·.1), bs.map fun b => low b.1 8, unionFlags (bs.flatMap fun b => b.2.map (·.2)))
  else
    let l := words.map (one 0)
    (l.map (·.1), [], unionFlags (l.map (·.2)))

/-- Counts of a set: 32 bins and the zero count. -/
def histSet (a : ArrayState) (h : Nat) : List Nat := (List.range 33).map (getAt 0 (getAt [] a.hist h))

/-- One accumulator word counted into a set (R303). -/
def countWord (l : List Nat) (w : Nat) : List Nat :=
  let bump := fun j => setAt 0 l j (min (getAt 0 l j + 1) (2 ^ 32 - 1))
  match decodeLog l32 w with
  | .nar => l
  | .zero => bump 32
  | .num _ e => bump (sat (fdiv e 4194304 + 16) 0 31).toNat

def countRow (s : State) (g h : Nat) (words : List Nat) : State :=
  let a := s.arrayOf g
  s.setArray g { a with hist := setAt [] a.hist h (words.foldl countWord (histSet a h)) }

/-- Accumulator words of output row r. -/
def drainWords (s : State) (g f n width : Nat) (turned : Bool) (r : Nat) : List Nat :=
  if turned then (List.range n).map fun j => memNat (s.team (s.group g).team).tile (1024 * (f + j) + 4 * r) 4
  else (tileRow s g (f + r)).take width

/-- Some tile granule that output row r is drained from is poisoned. -/
def drainPoison (s : State) (g f n width : Nat) (turned : Bool) (r : Nat) : Bool :=
  let t := s.team (s.group g).team
  if turned then (List.range n).any fun j => t.tlpois.contains (64 * (f + j) + r / 4)
  else (List.range (width / 4)).any fun k => t.tlpois.contains (64 * (f + r) + k)

/-- Write elements e0 on of the drain order to the D run (R302). -/
def drainReg (x : Group) (d : Reg) (act : Mask) (w e0 : Nat) (codes : List Nat) : Group :=
  ((List.range codes.length).zip codes).foldl (fun (x : Group) (i, c) =>
    let e := e0 + i
    let lane := e * w % 2048 / 64
    let num := d.num.toNat + e * w / 2048
    if act.getLsbD lane then
      let row := x.vrow num
      x.putV num (1 <<< lane) (setAt 0 row lane (setelem (getAt 0 row lane) w (e % (64 / w)) c))
    else x) x

/-- One output row of MDRAIN: width W, row f, n rows. -/
def drainOne (f : Full) (c width : Nat) (g : Nat) (i : Nat) (e : Entry) (s : State) : Perf :=
  let x := f.xm.toNat
  let turned := x % 2 == 1
  let row := c % 1024
  let n := field c 10 11
  let ty := f.ty.toNat
  let words := drainWords s g row n width turned i
  let (codes, scales, fl) := drainRow ty (rmodeOf f.rnd.toNat) words
  let w := tyWidth ty
  let count := fun (s : State) => if x / 2 % 2 = 1 then countRow s g (field c 22 3) words else s
  if 4 ≤ x then
    if drainPoison s g row n width turned i then .poison s (1024 * row) else
    .done (count (raiseFlags (s.setGroup g (drainReg (s.group g) f.d e.act w (i * words.length) codes)) g fl))
  else
    let base := low (((e.desc 0).toNat : Int) + sext (e.desc 1).toNat 32 * (i : Int)) 64
    let sb := ((e.desc 2).toNat + scales.length * i) % 2 ^ 64
    let bytes := codes.flatMap (toBytes (w / 8)) ++ scales.flatMap (toBytes 1)
    match arrayChecks s g e .store [(base, codes.length * w / 8), (sb, scales.length)] with
    | (_, .error p) => p
    | (s, .ok ps) =>
      let s := arrayWrite s g ps bytes
      let s := if drainPoison s g row n width turned i then ps.foldl (fun s p => markPoison s p.pa p.len) s else s
      .done (count (raiseFlags s g fl))

def doMdrain (f : Full) (g : Nat) (e : Entry) (s : State) : Perf :=
  withBaton g e s fun s =>
    let x := f.xm.toNat
    let c := controlOf f e
    let n := field c 10 11
    let width := if field c 21 1 = 1 then 128 else 256
    let h := field c 22 3
    let turned := x % 2 == 1
    let ty := f.ty.toNat
    foreignUse g e s (x / 2 % 2 == 1 && (s.arrayOf g).hf.getLsbD h) <|
    if c / 2 ^ 25 ≠ 0 || n > 1024 then matErr g e s 1 c
    else if (turned && n > 256) || (4 ≤ x && n * width * tyWidth ty ≠ 2048 * runLen f.d.wid) then matErr g e s 4 c
    else match rowsBeyond s g (c % 1024) n with
      | some r => tsBound s e r
      | none =>
        match if 4 ≤ x then none else drainBad e ty with
        | some k => matErr g e s 2 k
        | none =>
          let rows := if turned then (if n = 0 then 0 else width) else n
          rowsFrom (drainOne f c width g) (rows - e.prog) e s

-- MHRD, MPRG (R304) -----------------------------------------------------------------------------------------------------------------

def doMhrd (f : Full) (g : Nat) (e : Entry) (s : State) : Perf :=
  withBaton g e s fun s =>
    let h := f.c.immNat
    foreignUse g e s ((s.arrayOf g).hf.getLsbD h) <|
    let l := histSet (s.arrayOf g) h
    let row := (List.range 32).map fun k =>
      if k < 16 then wd (getAt 0 l (2 * k + 1) * 2 ^ 32 + getAt 0 l (2 * k)) else if k = 16 then wd (getAt 0 l 32) else 0
    .done (s.setGroup g ((s.group g).putRun f.d e.act 0 [row]))

def doMprg (f : Full) (g : Nat) (e : Entry) (s : State) : Perf :=
  withBaton g e s fun s =>
    let m := f.c.immNat
    let a := s.arrayOf g
    .done (s.setArray g { a with
      hist := (List.range 8).map fun h => if m / 2 ^ h % 2 = 1 then [] else getAt [] a.hist h
      hf := a.hf &&& ~~~(BitVec.ofNat 8 m) })

end Sys2Proof.Machine
end

