-- ==== Sys2Proof/Machine/Card.lean ====
section
/-! DEFINITION. Fields of a job card beyond those of Teams.lean (Tables 3.7 to 3.11), the peg board (R86 to R92), and the command
unit's read of a submission queue descriptor (R78 to R81). -/

namespace Sys2Proof.Machine

-- Pegs of a card (R73, R74, R88) ----------------------------------------------------------------------------------------

/-- A peg declaration in use (Table 3.10). -/
structure PegDecl where
  gen  : Nat
  cnt  : Nat
  sh   : Nat
  mul  : Int
  base : Nat

/-- An output peg range in use (Table 3.11). -/
structure PegOut where
  gen  : Nat
  cnt  : Nat
  base : Nat

def pegDecls (card : List Word) : List PegDecl :=
  (List.range 8).filterMap fun n =>
    let w := getAt 0 card (22 + n)
    if wfield w 63 1 = 1 then
      some { gen := wfield w 47 16, cnt := wfield w 40 7, sh := wfield w 36 4, mul := sext (wfield w 24 12) 12, base := wfield w 0 24 }
    else none

def pegOuts (card : List Word) : List PegOut :=
  (List.range 2).filterMap fun n =>
    let w := getAt 0 card (30 + n)
    if wfield w 63 1 = 1 then some { gen := wfield w 47 16, cnt := wfield w 24 23, base := wfield w 0 24 } else none

/-- The first tile team t needs of a declaration (R73). -/
def PegDecl.first (d : PegDecl) (t : Nat) : Int := (d.base : Int) + fdiv ((t : Int) * d.mul) ((2 ^ d.sh : Nat) : Int)

/-- The tiles of a declaration's span over all teams, lowest and highest (R88): the map is monotone in t. -/
def PegDecl.span (d : PegDecl) (teams : Nat) : Nat × Nat :=
  let a := d.first 0
  let b := d.first (teams - 1)
  ((min a b).toNat, (max a b).toNat + d.cnt)

def PegOut.covers (o : PegOut) (tile : Nat) : Bool := o.base ≤ tile && tile ≤ o.base + o.cnt

/-- The generation a card publishes for a tile: its lowest-numbered valid range that covers it (R330). -/
def outGen (card : List Word) (tile : Nat) : Option Nat := ((pegOuts card).find? fun o => o.covers tile).map (·.gen)

/-- gdiff (R86). -/
def gdiff (a b : Nat) : Int := sext (low ((a : Int) - b) 16) 16

-- The peg board (R86 to R90) ----------------------------------------------------------------------------------------------

def pegAt (s : State) (c tile : Nat) : Option Peg := s.pegs.find? fun p => p.ctx == c && p.tile == tile

/-- Replace an entry; the change restarts its age. -/
def setPeg (s : State) (p : Peg) : State :=
  { s with clock := s.clock + 1
           pegs := s.pegs.map fun q => if q.ctx == p.ctx && q.tile == p.tile then { p with age := s.clock + 1 } else q }

/-- Entries free, or reclaimable because nothing reserves them. -/
def pegRoom (s : State) : Nat := Config.pegEntries - (s.pegs.filter fun p => p.count != 0).length

/-- Remove the reclaimable entry longest without a change (R89). -/
def reclaim (s : State) : State :=
  let old := s.pegs.foldl (fun (b : Option Peg) p =>
    if p.count ≠ 0 then b else match b with | none => some p | some q => if p.age < q.age then some p else some q) none
  match old with
  | some p => { s with pegs := s.pegs.filter fun q => !(q.ctx == p.ctx && q.tile == p.tile) }
  | none => s

/-- A new entry, after a reclamation when the board is full. -/
def addPeg (s : State) (p : Peg) : State :=
  let s := if s.pegs.length ≥ Config.pegEntries then reclaim s else s
  { s with clock := s.clock + 1, pegs := s.pegs ++ [{ p with age := s.clock + 1 }] }

/-- PEGPUB of a tile at generation x (Table 4.5): the state, or the newer generation it meets. -/
def publish (s : State) (c tile x rel : Nat) : Except Nat State :=
  match pegAt s c tile with
  | none => .ok (if pegRoom s = 0 then s else addPeg s { ctx := c, tile, gen := x, set := true, rels := [rel] })
  | some p =>
    if !p.set then .ok (setPeg s { p with gen := x, set := true, rels := [rel] })
    else if gdiff x p.gen < 0 then .error p.gen
    else .ok (setPeg s { p with gen := x, rels := if x = p.gen then p.rels ++ [rel] else [rel] })

/-- A producer's retirement for every entry of its context that its ranges cover (Table 4.5): an entry SET at this generation or a newer one is
unchanged, and the retirement made no peg of it met (R92). A tile that both ranges cover takes the generation of the lower-numbered one, as R330
says of PEGPUB (log 28). -/
def retirePegs (s : State) (c : Nat) (card : List Word) (rel : Nat) : State :=
  (s.pegs.filter fun p => p.ctx == c).foldl (fun s q =>
    match pegAt s c q.tile, outGen card q.tile with
    | some p, some x => if !p.set || gdiff x p.gen > 0 then setPeg s { p with gen := x, set := true, rels := [rel] } else s
    | _, _ => s) s

-- Submission queues (R78 to R81) --------------------------------------------------------------------------------------------

/-- A queue the command unit takes no work from until it restarts: a submission queue, or 256 plus a task queue. -/
def stopQueue (s : State) (c q : Nat) : State :=
  let x := s.ctx c
  s.setCtx c { x with stopped := uni x.stopped [q] }

def putPair (l : List (Nat × Nat)) (k v : Nat) : List (Nat × Nat) := l.filter (fun x => x.1 != k) ++ [(k, v)]

/-- The command unit has read a queue's descriptor, which it keeps for the acceptances that follow; of the cards it has met, for the purges (R79,
R100). -/
def keepIndex (s : State) (c q : Nat) (w : List Word) : State :=
  let x := s.ctx c
  s.setCtx c { x with
    widx := match (subQueue w).queued with | some n => putPair x.widx q n | none => x.widx
    queues := x.queues.filter (fun y => y.1 != q) ++ [(q, w)] }

/-- A descriptor read where the queue runs or restarts: it is kept, and its indices are checked. Where several of the errors hold, 0x12 is recorded
before 0x11, and 0x11 before 0x10 (log 29). -/
def readIndex (s : State) (c q : Nat) (w : List Word) : State :=
  let d := subQueue w
  let desc := (s.ctx c).subDesc q
  let s := keepIndex s c q w
  if d.log2 < 4 || d.log2 > 20 || d.base % 4096 ≠ 0 then putErr (stopQueue s c q) c desc 0x12 0 0
  else if d.widx < d.ridx then putErr (stopQueue s c q) c desc 0x11 0 d.widx
  else if d.widx - d.ridx > 2 ^ d.log2 then putErr (stopQueue s c q) c desc 0x10 0 d.widx
  else s

/-- The read of a submission queue's descriptor that a doorbell or a JPOST causes (R79, R332). A doorbell restarts a stopped queue whose error word
software has cleared (R81); where it has not, what was read is kept and the queue stays stopped. Answers whether a doorbell submits host cards: not
where it is ignored, and not where it only restarts a posted queue (R79). -/
def queueRead (s : State) (c q : Nat) (doorbell : Bool) : State × Bool :=
  let x := s.ctx c
  if !x.wen then (s, false) else
  match cuRead s c (x.subDesc q) 64 with
  | (s, .error _) => (s, false)
  | (s, .ok b) =>
    let w := wordsOf b
    let d := subQueue w
    let halted := (s.ctx c).stopped.contains q
    if !d.qen || (!halted && doorbell && d.post) then (s, false)
    else if halted && (!doorbell || d.err) then (keepIndex s c q w, false)
    else
      let y := s.ctx c
      (readIndex (s.setCtx c { y with stopped := y.stopped.filter (· != q) }) c q w, !d.post)

end Sys2Proof.Machine
end

