-- ==== Sys2Proof/Machine/Sync.lean ====
section
/-! DEFINITION. Gates, fences, barriers, PEGPUB, TSPAWN and JPOST over a log entry (R321 to R332). -/

namespace Sys2Proof.Machine

/-- A trap of this chapter: the lanes at the address, reason and address or tile (R322). -/
def syncErr (s : State) (e : Entry) (cause reason n : Nat) : Perf :=
  .trap s ⟨cause, e.lanes, wd (reason * 2 ^ 60 + n % 2 ^ 57)⟩ e

/-- Address in B of the lowest lane, aligned (MISALIGN otherwise). -/
def alignedB (s : State) (e : Entry) (n : Nat) : Except Perf Nat :=
  let a := (e.bv e.low).toNat
  if a % n ≠ 0 then .error (.trap s ⟨0x06, maskOfList [e.low], wd a⟩ e) else .ok a

/-- One access of the group's own, checked (R228): its pieces. A group-once access raises its fault for helper lanes as well. -/
def ownAccess (s : State) (g : Nat) (e : Entry) (need : Need) (va n : Nat) : State × Except Perf (List Piece) :=
  match checkAccess s (teamAccess s (s.group g).team need va n) with
  | (s, .ok l) => (s, .ok l)
  | (s, .error (kind, page)) =>
    if kind = 0x10 then (s, .error (.poison s page))
    else
      let f : MemFault := { lane := e.low, kind, addr := va, page }
      (s, .error (.fault s { e with faults := [f] } [f] (maskOfList [e.low]) (need == .store) true))

-- Gates (R324 to R326) --------------------------------------------------------------------------------------------------

/-- A gate word (Table 14.4): exclusive, shared holds; none when it is malformed. -/
def gateWord (s : State) (pa : Nat) : Option (Bool × Nat) :=
  let n := memNat s.mem pa 8
  let xh := field n 63 1 == 1
  if field n 32 31 ≠ 0 || (xh && field n 0 32 ≠ 0) then none else some (xh, field n 0 32)

def gateBytes (xh : Bool) (scnt : Nat) : List Byte := toBytes 8 ((if xh then 2 ^ 63 else 0) + scnt)

/-- The word a grant leaves, when the request is compatible. SCNT keeps its 32 bits (R8, Table 14.4). -/
def gateGrant (w : Bool × Nat) (shared : Bool) : Option (Bool × Nat) :=
  match w, shared with
  | (false, n), true => some (false, (n + 1) % 2 ^ 32)
  | (false, 0), false => some (true, 0)
  | _, _ => none

/-- A gate operation's read and write at the home L2, for a group at a scope (R318, R325). -/
def gateWrite (s : State) (g : Nat) (sc : Scope) (va pa : Nat) (w : Bool × Nat) : State :=
  let x := s.group g
  let v := observeRange s (.grp g) x.view sc pa 8
  let (s, v) := atomicWrite s v (.grp g) (s.team x.team).ctx sc va pa (gateBytes w.1 w.2)
  s.setView g v

/-- Every earlier release of a gate's regions (R313, rule 1). -/
def gateRels (s : State) (c va : Nat) : List Nat :=
  (List.range s.rels.length).filter fun i => match s.rels[i]? with | some r => r.acts == .gate c va | none => false

/-- A granted request of a group: the word is written and the group acquires. -/
def gateTake (s : State) (g : Nat) (sc : Scope) (va pa : Nat) (w : Bool × Nat) (m : Mask) : State :=
  let s := gateWrite s g sc va pa w
  let c := (s.team (s.group g).team).ctx
  traceSync (groupAcquire s g sc (.gate c va) (gateRels s c va) m va) 0x13 g m va

/-- The oldest entry of a group is complete. -/
def completeHead (s : State) (g : Nat) : State :=
  let x := s.group g
  let rest := x.log.drop 1
  s.setGroup g { x with log := rest, wait := if rest.isEmpty then .none else .again }

/-- The gate address and checks common to both operations: address and physical address. -/
def gateChecks (g : Nat) (e : Entry) (s : State) : State × Except Perf (Nat × Nat) :=
  match alignedB s e 8 with
  | .error p => (s, .error p)
  | .ok va =>
    match ownAccess s g e .store va 8 with
    | (s, .error p) => (s, .error p)
    | (s, .ok l) =>
      let pa := headPa l
      let c := (s.team (s.group g).team).ctx
      if isHost pa then (s, .error (syncErr s e 0x13 1 va))
      else if !((s.ctx c).regions.any fun r => r.gate == va) then (s, .error (syncErr s e 0x13 2 va))
      else (s, .ok (va, pa))

def doGacq (f : Full) (g : Nat) (e : Entry) (s : State) : Perf :=
  let shared := f.c.immNat == 1
  match gateChecks g e s with
  | (_, .error p) => p
  | (s, .ok (va, pa)) =>
    match gateWord s pa with
    | none => syncErr s e 0x13 3 va
    | some w =>
      if s.gateQ.any fun (p, h, _, _) => p == pa && h == .grp g then .wait s (.gate pa) e
      else
        match if s.gateQ.any fun (p, _, _, _) => p == pa then none else gateGrant w shared with
        | some w => .done (gateTake s g (scopeOf f.xm.toNat) va pa w e.act)
        | none => .wait { s with gateQ := s.gateQ ++ [(pa, .grp g, shared, scopeOf f.xm.toNat)] } (.gate pa) e

/-- The view of a party of a peer device. -/
def State.peer (s : State) (p : PeerId) : MemView := match s.peerView.find? fun (k, _) => k == p with | some (_, v) => v | none => {}
def State.setPeer (s : State) (p : PeerId) (v : MemView) : State :=
  { s with peerView := s.peerView.filter (fun (k, _) => k != p) ++ [(p, v)] }

def State.send (s : State) (m : OutMsg) : State := { s with dev := { s.dev with out := s.dev.out ++ [m] } }

/-- A gate operation of a peer at the scope it names: its read and write at the home L2 (R318, R325). -/
def peerGateWrite (s : State) (p : PeerId) (sc : Scope) (pa : Nat) (w : Bool × Nat) : State :=
  let v := observeRange s (.peer p) (s.peer p) sc pa 8
  let (s, v) := atomicWrite s v (.peer p) 64 sc pa pa (gateBytes w.1 w.2)
  s.setPeer p v

/-- A granted request of a peer: the word is written, the peer acquires and is answered. -/
def peerTake (s : State) (p : PeerId) (sc : Scope) (pa : Nat) (w : Bool × Nat) : State :=
  let s := peerGateWrite s p sc pa w
  (s.setPeer p (acquire s (.peer p) (s.peer p) sc .every [])).send (.reply p (gateBytes w.1 w.2))

/-- Grant one waiting request: the word is written and the group acquires, or the peer is answered. None for a request that no live entry makes, nor
for a group after a fatal error, which stops every core (R391). -/
def grantTo (s : State) (pa : Nat) (w : Bool × Nat) (sc : Scope) : Party → Option State
  | .grp h =>
    if s.dev.status = 7 then none else
    (s.group h).log.head?.map fun e => completeHead (gateTake s h sc ((e.bv e.low).toNat) pa w e.act) h
  | .peer p => some (peerTake s p sc pa w)
  | _ => none

/-- Grant the heads of a gate's queue while they are compatible. -/
def grantHeads (s : State) (pa : Nat) : Nat → State
  | 0 => s
  | fuel + 1 =>
    match s.gateQ.find? fun (p, _, _, _) => p == pa with
    | none => s
    | some (_, p, shared, sc) =>
      match (gateWord s pa).bind (gateGrant · shared) with
      | none => s
      | some w =>
        match grantTo { s with gateQ := s.gateQ.eraseP fun (a, q, _, _) => a == pa && q == p } pa w sc p with
        | some s => grantHeads s pa fuel
        | none => s

def doGrel (f : Full) (g : Nat) (e : Entry) (s : State) : Perf :=
  match gateChecks g e s with
  | (_, .error p) => p
  | (s, .ok (va, pa)) =>
    match gateWord s pa with
    | none => syncErr s e 0x13 3 va
    | some (xh, n) =>
      if !xh && n = 0 then syncErr s e 0x13 4 va
      else
        let sc := scopeOf f.xm.toNat
        let c := (s.team (s.group g).team).ctx
        let s := (groupRelease s g sc (.gate c va) e.act va).1
        let s := gateWrite s g sc va pa (if xh then (false, 0) else (false, n - 1))
        .done (grantHeads s pa s.gateQ.length)

-- FENCE (R327) ------------------------------------------------------------------------------------------------------------

/-- Scope of a FENCE (Table 14.2). -/
def fenceScope (xm : Nat) : Scope :=
  match xm with
  | 6 => .lane
  | 7 => .quad
  | 0 => .group
  | n => scopeOf n

def doFence (f : Full) (g : Nat) (e : Entry) (s : State) : Perf :=
  let sc := fenceScope f.xm.toNat
  let s := (groupRelease s g sc (s.own g) e.act 0).1
  .done (groupAcquire s g sc (s.own g) [] e.act 0)

-- BAR, CBAR (R328, R329) ------------------------------------------------------------------------------------------------------

/-- Teams of a team's crew. -/
def crewTeams (s : State) (t : Nat) : List Nat :=
  let x := s.team t
  if x.launch.isNone || x.crew ≤ 1 then [t]
  else teamIds s fun y => y.launch == x.launch && y.t / x.crew == x.t / x.crew

/-- The team that holds a barrier: the team itself, or the crew's member of rank 0. -/
def barHome (s : State) (t : Nat) (crew : Bool) : Nat :=
  if crew then ((crewTeams s t).find? fun u => (s.team u).t % (s.team u).crew == 0).getD t else t

/-- Members of a barrier. -/
def barMembers (s : State) (t : Nat) (crew : Bool) : List Nat :=
  if crew then (crewTeams s t).flatMap fun u => (s.team u).groups else (s.team t).groups

def getBar (s : State) (home : Nat) (crew : Bool) : Bar := if crew then (s.team home).cbar else (s.team home).bar

def setBar (s : State) (home : Nat) (crew : Bool) (b : Bar) : State :=
  let x := s.team home
  s.setTeam home (if crew then { x with cbar := b } else { x with bar := b })

/-- Complete phases while every member has arrived at the current one or has ended; some member must have arrived. -/
def Bar.complete (b : Bar) (s : State) (members : List Nat) : Bar :=
  if (b.arr.any fun (_, p) => p == b.ph) &&
      members.all fun m => (s.group m).ended || b.arr.any fun (k, p) => k == m && p == b.ph then
    { b with ph := b.ph + 1 }
  else b

def doBar (crew : Bool) (g : Nat) (e : Entry) (s : State) : Perf :=
  let t := (s.group g).team
  let home := barHome s t crew
  let sc : Scope := if crew then .crew else .team
  let b := getBar s home crew
  let (s, b) := if b.arr.any fun (k, _) => k == g then (s, b) else
    let (s, r) := groupRelease s g sc (s.own g) e.act 0
    (s, { b with arr := b.arr ++ [(g, b.ph)], rels := b.rels ++ [(b.ph, r)] })
  let b := b.complete s (barMembers s t crew)
  match b.arr.find? fun (k, _) => k == g with
  | some (_, p) =>
    if p < b.ph then
      let rels := (b.rels.filter fun (q, _) => q == p).map (·.2)
      let arr := b.arr.filter fun (k, _) => k != g
      let b := { b with arr, rels := b.rels.filter fun (q, _) => q ≥ b.ph || arr.any fun (_, p) => p == q }
      .done (traceSync (groupAcquire (setBar s home crew b) g sc (s.own g) rels e.act 0) 0x12 g e.act 0)
    else .wait (setBar s home crew b) (if crew then .cbar else .bar) e
  | none => .done s

-- PEGPUB (R330) -----------------------------------------------------------------------------------------------------------------

def doPegpub (f : Full) (g : Nat) (e : Entry) (s : State) : Perf :=
  let base := (e.bv e.low).toNat
  let len := (cell e.b 1 e.low).toNat
  let c := match f.c with | .reg _ => (e.cv e.low).toNat | c => c.immNat
  let tile := c % 2 ^ 24
  let team := s.team (s.group g).team
  match team.launch with
  | none => syncErr s e 0x12 1 tile
  | some l =>
    if base ≥ 2 ^ 57 || len ≥ 2 ^ 48 || c ≥ 2 ^ 24 || base + len > 2 ^ 57 then syncErr s e 0x12 2 tile
    else match outGen (s.launch l).card tile with
      | none => syncErr s e 0x12 3 tile
      | some x =>
        let (s, r) := groupRelease s g .device (.bytes team.ctx [(base, len)]) e.act base
        match publish s team.ctx tile x r with
        | .ok s => .done (traceSync s 0x14 g e.act tile)
        | .error newer => .trap s ⟨0x11, e.lanes, wd (newer * 2 ^ 24 + tile)⟩ e

-- TSPAWN, JPOST (R331, R332) ------------------------------------------------------------------------------------------------------

/-- A queue's descriptor as the group reads it now (R331, R332): its pieces and words; marked bytes are consumed. -/
def descRead (s : State) (g : Nat) (e : Entry) (desc : Nat) : State × Except Perf (List Word) :=
  match ownAccess s g e .load desc 64 with
  | (s, .error p) => (s, .error p)
  | (s, .ok l) =>
    match poisonPieces s l with
    | some a => (s, .error (.poison s a))
    | none => (s, .ok (wordsOf (readNow s l)))

/-- Bytes of a record read as plain loads of the group; marked bytes are consumed. -/
def recordRead (s : State) (g : Nat) (e : Entry) (va n : Nat) : State × Except Perf (List Byte) :=
  match ownAccess s g e .load va n with
  | (s, .error p) => (s, .error p)
  | (s, .ok l) =>
    match poisonPieces s l with
    | some a => (s, .error (.poison s a))
    | none => (s, .ok (readPieces s (some (s.team (s.group g).team).ctx) (s.group g).view l))

/-- A queue's ring slot and index written for the group as operations of the home L2, in the order in which pushes take effect. -/
def queueWrite (s : State) (g va pa : Nat) (bytes : List Byte) : State :=
  let x := s.group g
  let (s, v) := atomicWrite s x.view (.grp g) (s.team x.team).ctx .device va pa bytes
  clearPoison (s.setView g v) [(pa, bytes.length)]

/-- The same over the pieces of an access. -/
def queueWrites (s : State) (g : Nat) : List Piece → List Byte → State
  | [], _ => s
  | p :: l, bytes => queueWrites (queueWrite s g p.va p.pa (bytes.take p.len)) g l (bytes.drop p.len)

/-- The release of step 1, made once for an entry. -/
def releaseOnce (s : State) (g : Nat) (e : Entry) : State × Entry :=
  if e.stage = 0 then
    let (s, r) := groupRelease s g .device (s.own g) e.act 0
    (s, { e with stage := 1, prog := r })
  else (s, e)

def doTspawn (f : Full) (g : Nat) (e : Entry) (s : State) : Perf :=
  let q := f.c.immNat
  let c := (s.team (s.group g).team).ctx
  match alignedB s e 64 with
  | .error p => p
  | .ok va =>
    if !(s.ctx c).wen then syncErr s e 0x14 1 va
    else match recordRead s g e va 128 with
      | (_, .error p) => p
      | (s, .ok record) =>
        let desc := (s.ctx c).taskDesc q
        match descRead s g e desc with
        | (_, .error p) => p
        | (s, .ok d) =>
          if wfield (getAt 0 d 1) 63 1 = 0 then syncErr s e 0x14 1 va
          else match ownAccess s g e .store (desc + 16) 8 with
          | (_, .error p) => p
          | (s, .ok dl) =>
            let (s, e) := releaseOnce s g e
            let head := (getAt 0 d 2).toNat
            let tail := (getAt 0 d 3).toNat
            let ql := wfield (getAt 0 d 1) 0 5
            if head - tail = 2 ^ ql || wfield (getAt 0 d 5) 0 57 ≠ 0 then .wait s .again e
            else
              match ownAccess s g e .store (wfield (getAt 0 d 0) 0 57 + 128 * (head % 2 ^ ql)) 128 with
              | (_, .error p) => p
              | (s, .ok sl) =>
                let s := queueWrites s g sl record
                let s := queueWrite s g (desc + 16) (headPa dl) (toBytes 8 (head + 1))
                let x := s.ctx c
                .done (s.setCtx c { x with taskRels := x.taskRels ++ [(q, head, e.prog)] })

def doJpost (f : Full) (g : Nat) (e : Entry) (s : State) : Perf :=
  let q := f.c.immNat
  let dep := f.xm == 1
  let team := s.team (s.group g).team
  let c := team.ctx
  match alignedB s e 64 with
  | .error p => p
  | .ok va =>
    if !(s.ctx c).wen then syncErr s e 0x15 1 va
    else match recordRead s g e va 256 with
      | (_, .error p) => p
      | (s, .ok card) =>
        let desc := (s.ctx c).subDesc q
        match descRead s g e desc with
        | (_, .error p) => p
        | (s, .ok w) =>
          let d := subQueue w
          if !d.qen || !d.post then syncErr s e 0x15 1 va
          else if dep && team.launch.isNone then syncErr s e 0x15 2 va
          else match ownAccess s g e .store (desc + 16) 8 with
          | (_, .error p) => p
          | (s, .ok dl) =>
            let (s, e) := releaseOnce s g e
            if d.widx - d.ridx = 2 ^ d.log2 then .wait s .again e
            else
              match ownAccess s g e .store (d.base + 256 * (d.widx % 2 ^ d.log2)) 256 with
              | (_, .error p) => p
              | (s, .ok sl) =>
                let card := match dep, team.launch with
                  | true, some l =>
                    let x := s.launch l
                    card.take 144 ++ toBytes 8 (2 ^ 63 + x.queue * 2 ^ 48 + x.pos) ++ card.drop 152
                  | _, _ => card
                let s := queueWrites s g sl card
                let s := queueWrite s g (desc + 16) (headPa dl) (toBytes 8 ((d.widx + 1) % 2 ^ 48))
                let x := s.ctx c
                let s := s.setCtx c { x with postRels := x.postRels ++ [(q, d.widx, e.prog)] }
                .done (queueRead s c q false).1

end Sys2Proof.Machine
end

