-- ==== Sys2Proof/Machine/Whist.lean ====
section
/-! DEFINITION. Collectives: COLL and COLLW, the live link table, trees, chunks, combination and recovery on one rank
(R333 to R348). Messages to other ranks are appended to `dev.out`; those that arrive are arguments of the events. -/

namespace Sys2Proof.Machine

-- Descriptors (Tables 14.5, 14.6) -----------------------------------------------------------------------------------------

structure CollDesc where
  kind  : Nat
  ord   : Bool
  rmode : Nat
  rop   : Nat
  fmt   : Nat
  root  : Nat
  count : Nat
  send  : Nat
  recv  : Nat
  comm  : Nat
  prog  : Nat
  wbuf  : Nat
  wlen  : Nat
  sndsc : Nat
  rcvsc : Nat

def collDesc (w : List Word) : CollDesc :=
  let f := fun k lo n => wfield (getAt 0 w k) lo n
  { kind := f 0 62 2, ord := f 0 61 1 == 1, rmode := f 0 58 3, rop := f 0 56 2, fmt := f 0 51 5, root := f 0 0 18
    count := f 1 0 40, send := f 2 0 57, recv := f 3 0 57, comm := f 4 0 57, prog := f 5 0 57, wbuf := f 6 0 57
    wlen := f 7 0 48, sndsc := f 8 0 57, rcvsc := f 9 0 57 }

/-- Bytes per element in memory, and per element of a chunk (R341). -/
def CollDesc.es (d : CollDesc) : Nat := if d.fmt = 8 then 4 else if d.fmt = 9 then 2 else 1
def CollDesc.ps (d : CollDesc) : Nat := if d.fmt = 9 then 2 else 4
def CollDesc.reduces (d : CollDesc) : Bool := d.kind ≤ 1
/-- Elements of the send and receive buffers (R334), and of the element range (R341). -/
def CollDesc.sendLen (d : CollDesc) (n : Nat) : Nat := if d.kind = 1 then n * d.count else d.count
def CollDesc.recvLen (d : CollDesc) (n : Nat) : Nat := if d.kind = 2 then n * d.count else d.count
def CollDesc.total (d : CollDesc) (n : Nat) : Nat := if d.kind = 1 || d.kind = 2 then n * d.count else d.count
/-- The format of partials (R344). -/
def CollDesc.pfmt (d : CollDesc) : Fmt := if d.fmt = 9 then l16 else l32

/-- SEND and RECV share a byte. -/
def CollDesc.overlap (d : CollDesc) (n : Nat) : Bool :=
  d.send < d.recv + d.recvLen n * d.es && d.recv < d.send + d.sendLen n * d.es

/-- Buffers of Table 14.7, reason 0x4: address, length, alignment. -/
def CollDesc.buffers (d : CollDesc) (n : Nat) : List (Nat × Nat × Nat) :=
  [(d.send, d.sendLen n * d.es, 16), (d.recv, d.recvLen n * d.es, 16), (d.prog, 8 * ncdiv (d.total n * d.ps) 262144, 8), (d.wbuf, d.wlen, 4096)] ++
    if d.fmt = 10 then [(d.sndsc, d.sendLen n / 128, 16), (d.rcvsc, d.recvLen n / 128, 16)] else []

/-- What a collective's completion releases and COLLW acquires: the buffers that the descriptor names, its progress marks (R342) and work buffer among
them, and the descriptor (Table 13.3). -/
def CollDesc.named (d : CollDesc) (n marks desc : Nat) : List (Nat × Nat) :=
  [(d.send, d.sendLen n * d.es), (d.recv, d.recvLen n * d.es), (d.prog, 8 * marks), (d.wbuf, d.wlen), (desc, 128)] ++
    if d.fmt = 10 then [(d.sndsc, d.sendLen n / 128), (d.rcvsc, d.recvLen n / 128)] else []

/-- Reason 0x1 on the words of a descriptor. -/
def collReserved (w : List Word) : Bool :=
  let f := fun k lo n => wfield (getAt 0 w k) lo n
  f 0 18 33 != 0 || f 1 40 24 != 0 || f 7 48 16 != 0 || ([2, 3, 4, 5, 6, 8, 9].any fun k => f k 57 7 != 0) || (w.drop 11).any (· != 0)

/-- Which collective of the fabric this is (R337). -/
def Coll.key (c : Coll) : CollKey := ⟨c.commId, c.seqNo⟩
def Coll.d (c : Coll) : CollDesc := collDesc c.words
def Coll.n (c : Coll) : Nat := c.ents.length
/-- Elements of a chunk, and chunks, of the size chosen; no chunk before one is (R341). -/
def Coll.perChunk (c : Coll) : Nat := c.cs / c.d.ps
def Coll.nch (c : Coll) : Nat := ncdiv (c.d.total c.n) c.perChunk

def State.coll (s : State) (n : Nat) : Coll := getAt {} s.colls n
def State.setColl (s : State) (n : Nat) (c : Coll) : State := { s with colls := setAt {} s.colls n c }

/-- This device's fabric identifier (Table 14.9). -/
def Dev.fabid (d : Dev) : Nat := wfield d.whcfg 32 18

-- COLL and COLLW (R335, R336) -----------------------------------------------------------------------------------------------

def collErr (s : State) (e : Entry) (addr reason : Nat) : Perf := syncErr s e 0x16 reason addr

/-- The communicator's rank and entries, or none where it is malformed (R333). -/
def commOf (s : State) (head entries : List Byte) : Option (Nat × Nat × List Nat) :=
  let w := wordsOf head
  let n := wfield (getAt 0 w 0) 0 18 + 1
  let my := wfield (getAt 0 w 1) 0 18
  let ents := (List.range n).map fun i => ofBytes ((entries.drop (4 * i)).take 4)
  let ok := wfield (getAt 0 w 0) 18 14 == 0 && wfield (getAt 0 w 1) 18 46 == 0 && (w.drop 2).all (· == 0) && my < n &&
    ents.all (fun x => x < 2 ^ 18) && ents.eraseDups.length == n && s.dev.fabid != 0x3FFFF && getAt 0 ents my == s.dev.fabid
  if ok then some (wfield (getAt 0 w 0) 32 32, my, ents) else none

/-- Bytes read as plain loads of the group, with the faults of R228 to R232, and whether they lie in local memory; marked bytes are consumed. -/
def nearRead (s : State) (g : Nat) (e : Entry) (va n : Nat) : State × Except Perf (List Byte × Bool) :=
  match ownAccess s g e .load va n with
  | (s, .error p) => (s, .error p)
  | (s, .ok l) =>
    match poisonPieces s l with
    | some a => (s, .error (.poison s a))
    | none => (s, .ok (readPieces s (some (s.team (s.group g).team).ctx) (s.group g).view l, l.all fun p => localRange s.dev p.pa p.len))

/-- The first check of Table 14.7 that fails, on the words of a descriptor at an address, the communicator's header and its entries; `near` and
`commNear` say that the bytes read lie in local memory. -/
def collReason (s : State) (a : Nat) (w : List Word) (near : Bool) (head entries : List Byte) (commNear : Bool) : Option Nat :=
  let d := collDesc w
  let n := wfield (getAt 0 (wordsOf head) 0) 0 18 + 1
  if a % 64 ≠ 0 || !near || collReserved w then some 1
  else if d.rop = 3 || !(8 ≤ d.fmt && d.fmt ≤ 10) || d.rmode > 4 || d.root ≥ n || (d.kind ≠ 3 && d.root ≠ 0) || d.count = 0 ||
    (d.fmt = 10 && d.count % 128 ≠ 0) then some 2
  else if d.comm % 64 ≠ 0 || !commNear || (commOf s head entries).isNone then some 3
  else if (d.buffers n).any fun (va, len, al) => va % al ≠ 0 || va + len > 2 ^ 57 then some 4
  else none

/-- A valid COLL: the send buffers are released, Whist acquires them and holds the descriptor, and STATUS becomes running. -/
def collGive (s : State) (g : Nat) (e : Entry) (desc : Nat) (w : List Word) (commId my : Nat) (ents : List Nat) : Perf :=
  let d := collDesc w
  let n := ents.length
  let ctx := (s.team (s.group g).team).ctx
  let id := s.colls.length
  let bufs := (d.send, d.sendLen n * d.es) :: if d.fmt = 10 then [(d.sndsc, d.sendLen n / 128)] else []
  match ownAccess s g e .store (desc + 80) 8 with
  | (_, .error p) => p
  | (s, .ok l) =>
    let (s, r) := groupRelease s g .device (.bytes ctx bufs) e.act desc
    let v := (s.group g).view
    let got := match s.rels[r]? with | some x => x.cov | none => []
    let view : MemView := { know := v.know, reached := got }
    let (s, view) := writePieces s view ⟨.whist id, 3, [], ctx⟩ none l (toBytes 1 1)
    let seq := match s.dev.collNo.find? fun (k, _) => k == commId with | some (_, m) => m | none => 0
    let c : Coll :=
      { ctx, group := g, pc := e.addr, desc, words := w, commId, myrank := my, ents, seqNo := seq, start := s.writes.length, view }
    .done { s with colls := s.colls ++ [c], dev := { s.dev with collNo := putPair s.dev.collNo commId (seq + 1) } }

/-- COLL: the descriptor and its communicator are read, with their faults, before any check of Table 14.7 (R335). -/
def doColl (g : Nat) (e : Entry) (s : State) : Perf :=
  let a := (e.bv e.low).toNat
  match nearRead s g e a 128 with
  | (_, .error p) => p
  | (s, .ok (b, near)) =>
    let w := wordsOf b
    let d := collDesc w
    match nearRead s g e d.comm 64 with
    | (_, .error p) => p
    | (s, .ok (head, headNear)) =>
      match nearRead s g e (d.comm + 64) (4 * (wfield (getAt 0 (wordsOf head) 0) 0 18 + 1)) with
      | (_, .error p) => p
      | (s, .ok (entries, entriesNear)) =>
        match collReason s a w near head entries (headNear && entriesNear), commOf s head entries with
        | some r, _ => collErr s e a r
        | none, none => collErr s e a 3
        | none, some (id, my, ents) =>
          if (s.team (s.group g).team).det && !d.ord && d.rop = 0 && d.reduces then .nondet s ⟨0x0E, e.lanes, 0⟩
          else if (s.colls.filter fun c => !c.ended).length ≥ Config.maxCollectives then .wait s .again e
          else collGive s g e a w id my ents

def doCollw (g : Nat) (e : Entry) (s : State) : Perf :=
  let a := (e.bv e.low).toNat
  match ownAccess s g e .load a 128 with
  | (_, .error p) => p
  | (s, .ok l) =>
    match poisonPieces s l with
    | some x => .poison s x
    | none =>
      let w := wordsOf (readNow s l)
      let w10 := getAt 0 w 10
      let st := wfield w10 0 8
      let ctx := (s.team (s.group g).team).ctx
      if st = 1 then .wait s .again e
      else if st = 3 then collErr s e a (wfield w10 44 4)
      else if st = 2 then
        let mine := (s.colls.filter fun c => c.ctx == ctx && c.desc == a).getLast?
        let (n, marks, rels) := match mine with | some c => (c.n, c.nch, c.rel.toList) | none => (1, 0, [])
        let s := s.setGroup g ((s.group g).raise (BitVec.ofNat 5 (wfield w10 8 5)))
        .done (traceSync (groupAcquire s g .fabric (.bytes ctx ((collDesc w).named n marks a)) rels e.act a) 0x16 g e.act a)
      else collErr s e a 9

-- Trees (R339, R340) ----------------------------------------------------------------------------------------------------------

/-- The far end of a link, and whether a rank is at an end. -/
def otherEnd (e : Edge) (u : Nat) : Nat := if e.a = u then e.b else e.a
def hasEnd (e : Edge) (u : Nat) : Bool := e.a == u || e.b == u

/-- Insert into a list kept in ascending (other end's rank, port). -/
def insertEdge (u : Nat) (e : Edge) : List Edge → List Edge
  | [] => [e]
  | f :: l =>
    if otherEnd e u < otherEnd f u || (otherEnd e u == otherEnd f u && e.p < f.p) then e :: f :: l else f :: insertEdge u e l

def edgesAt (u : Nat) (l : List Edge) : List Edge := (l.filter fun e => hasEnd e u).foldr (insertEdge u) []

/-- Breadth-first growth of one tree from the queue of ranks reached. -/
def growTree (edges : List Edge) : Nat → List Nat → List Nat → List Edge → List Nat × List Edge
  | 0, _, seen, tree => (seen, tree)
  | _, [], seen, tree => (seen, tree)
  | fuel + 1, u :: fifo, seen, tree =>
    let (fifo, seen, tree) := (edgesAt u edges).foldl (fun (fifo, seen, tree) e =>
      let v := otherEnd e u
      if seen.contains v then (fifo, seen, tree) else (fifo ++ [v], seen ++ [v], tree ++ [e])) (fifo, seen, tree)
    growTree edges fuel fifo seen tree

/-- build of R340 from tree τ on. -/
def buildTrees (n : Nat) : Nat → Nat → List Edge → List (List Edge × Nat)
  | 0, _, _ => []
  | fuel + 1, tau, edges =>
    let root := tau * n / 4
    let (seen, tree) := growTree edges (n + 1) [root] [root] []
    if seen.length < n then []
    else (tree, root) :: buildTrees n fuel (tau + 1) (edges.filter fun e => !tree.contains e)

/-- The live link table of the flooded links: those that both ends report (R339). -/
def linkTable (fl : List FloodMsg) : List Edge :=
  let has := fun (r : Nat) (e : Edge) => fl.any fun m => m.rank == r && m.edges.contains e
  (fl.flatMap fun m => m.edges.filter fun e => e.a == m.rank && has e.b e).eraseDups

/-- Ranks reached from u over a tree without passing through `avoid`. -/
def sideOf (tree : List Edge) (avoid : Nat) (n u : Nat) : List Nat :=
  (growTree (tree.filter fun e => !hasEnd e avoid) (n + 1) [u] [u] []).1

def neighbours (tree : List Edge) (u : Nat) : List Nat := (edgesAt u tree).map fun e => otherEnd e u

/-- The neighbour of u toward the root, if u is not the root. -/
def parentOf (tree : List Edge) (root n u : Nat) : Option Nat :=
  if u = root then none else (neighbours tree u).find? fun v => (sideOf tree u n v).contains root

def childrenOf (tree : List Edge) (root n u : Nat) : List Nat :=
  (neighbours tree u).filter fun v => some v != parentOf tree root n u

-- Canonical nodes (R345) --------------------------------------------------------------------------------------------------------

/-- Whether [a, b] and [c, d] are the two children, left then right, of a canonical node over n ranks. -/
def siblings (n a b c d : Nat) : Bool :=
  (List.range 19).any fun l => a % 2 ^ (l + 1) == 0 && b + 1 == a + 2 ^ l && c == b + 1 && d + 1 == min (a + 2 ^ (l + 1)) n

/-- Replace one pair of siblings of a list by their node, or answer none. -/
def joinOne (n : Nat) (f : Partial → Partial → Partial) (l : List Partial) : Option (List Partial) :=
  l.findSome? fun x => l.findSome? fun y =>
    if siblings n x.lo x.hi y.lo y.hi then some ((l.filter fun z => z != x && z != y) ++ [f x y]) else none

def joinAll (n : Nat) (f : Partial → Partial → Partial) : Nat → List Partial → List Partial
  | 0, l => l
  | fuel + 1, l => match joinOne n f l with | some m => joinAll n f fuel m | none => l

/-- The number of maximal canonical nodes that cover a set of ranks. -/
def coverCount (n : Nat) (ranks : List Nat) : Nat :=
  (joinAll n (fun x y => { x with hi := y.hi }) ranks.length
    (ranks.map fun r => ⟨r, r, [], 0, []⟩)).length

/-- P(u, τ) + 1 of R343 for each tree: P is 1 in unordered mode, and in ordered mode the partials that u receives, of which a kind that does not
reduce has none. -/
def waits (d : CollDesc) (n u : Nat) (trees : List (List Edge × Nat)) : List Nat :=
  trees.map fun (tree, root) =>
    1 + if !d.ord then 1 else if d.reduces then (childrenOf tree root n u).foldl (fun acc v => acc + coverCount n (sideOf tree u n v)) 0 else 0

/-- Every rank's requirement fits its work buffer: `per` of a list of tree terms, times the chunk size (R343, R346). -/
def fits (d : CollDesc) (n : Nat) (fl : List FloodMsg) (trees : List (List Edge × Nat)) (cs : Nat) (per : List Nat → Nat) : Bool :=
  fl.all fun m => cs * per (waits d n m.rank trees) + (if m.overlap then d.count * d.ps else 0) ≤ m.wlen

def sumList (l : List Nat) : Nat := l.foldl (· + ·) 0
def maxList (l : List Nat) : Nat := l.foldl max 0

/-- The chunk size of R343. -/
def chunkSize (d : CollDesc) (n : Nat) (fl : List FloodMsg) (trees : List (List Edge × Nat)) : Option Nat :=
  ([18, 17, 16, 15, 14, 13, 12].map (2 ^ ·)).find? fun cs => fits d n fl trees cs fun l => 2 * sumList l

-- Whist's accesses (R335, R337) ---------------------------------------------------------------------------------------------------

/-- A collective that still runs fails with a reason (Table 14.8). -/
def collFail (s : State) (id err : Nat) : State :=
  let c := s.coll id
  if c.ended then s else s.setColl id { c with err := if c.err = 0 then err else c.err }

/-- Whist's accesses of a context: the pieces in order, or the faults. Whist stands in no cluster, and uses the translations of the context. -/
def whistPieces (s : State) (c : Nat) (need : Need) : List (Nat × Nat) → State × List Piece × List MemFault
  | [] => (s, [], [])
  | (va, n) :: rest =>
    let (s, r) := checkAccess s (cuAccess s c need va n)
    let (s, ps, fs) := whistPieces s c need rest
    match r with
    | .ok p => (s, p ++ ps, fs)
    | .error (kind, page) => (s, ps, { lane := rest.length, kind, addr := va, page } :: fs)

/-- Checked accesses of Whist, cut at pages: the pieces; otherwise a reported fault waits, or the collective fails with ERR 0x8. For a
collective that has ended there is nothing to report. -/
def whistChecks (s : State) (id : Nat) (need : Need) (l : List (Nat × Nat)) : State × Option (List Piece) :=
  let c := s.coll id
  let (s, pieces, faults) := whistPieces s c.ctx need (l.flatMap fun (va, n) => cutPages (n / 4096 + 2) va n)
  if faults.isEmpty then
    if pieces.all fun p => localRange s.dev p.pa p.len then (s, some pieces) else (collFail s id 8, none)
  else if c.ended then (s, none)
  else if faults.any fun f => f.kind == 0x10 then (collFail s id 8, none)
  else
    let g := s.group c.group
    match report s c.ctx (s.team g.team).tag g.core g.slot c.pc (need == .store) false faults with
    | (s, some n) => (s.setColl id { s.coll id with wait := some n }, none)
    | (s, none) => (collFail s id 8, none)

/-- A word of a send buffer as Whist reads it: what COLL released, or the current value where another write has arrived since. -/
def whistByte (s : State) (c : Coll) (a : Nat) : Byte :=
  let word := a / 4 * 4
  let v := if ((writesTo s word).any fun (i, _) => c.start ≤ i && !c.view.own.contains i) && Config.pick ((s.fresh + 1) * 2 ^ 64 + word)
    then wordNow s word else plainWord s (some c.ctx) c.view word
  wordByte v (a % 4)

def whistRead (s : State) (c : Coll) (l : List Piece) : List Byte := l.flatMap fun p => (span p.pa p.len).map (whistByte s c)

def whistWrite (s : State) (id : Nat) (l : List Piece) (bytes : List Byte) : State :=
  let c := s.coll id
  let (s, v) := writePieces s c.view ⟨.whist id, 3, [], c.ctx⟩ none l bytes
  clearPoison (s.setColl id { s.coll id with view := v }) (l.map fun p => (p.pa, p.len))

-- Chunks (R341, R342, R344) -----------------------------------------------------------------------------------------------------------

/-- Elements of chunk k: first and one past the last. -/
def Coll.bounds (c : Coll) (k : Nat) : Nat × Nat := (k * c.perChunk, min ((k + 1) * c.perChunk) (c.d.total c.n))
def Coll.treeOf (c : Coll) (k : Nat) : List Edge × Nat := getAt ([], 0) c.trees (k % c.trees.length)

/-- Part of chunk k that this rank supplies, in element numbers, and the SEND index of its first element. -/
def Coll.supply (c : Coll) (k : Nat) : Nat × Nat × Nat :=
  let (a, b) := c.bounds k
  if c.d.kind = 2 then
    let lo := max a (c.myrank * c.d.count)
    let hi := min b ((c.myrank + 1) * c.d.count)
    (lo, hi, lo - c.myrank * c.d.count)
  else if c.d.kind = 3 && c.myrank ≠ c.d.root then (a, a, a)
  else (a, b, a)

/-- Part of a range of elements that this rank receives, and the RECV index of its first element. -/
def Coll.receive (c : Coll) (a b : Nat) : Nat × Nat × Nat :=
  if c.d.kind = 1 then
    let lo := max a (c.myrank * c.d.count)
    (lo, min b ((c.myrank + 1) * c.d.count), lo - c.myrank * c.d.count)
  else (a, b, a)

/-- The node of a reduction on two codes (R344). -/
def collNode (d : CollDesc) (x y : Nat) : Nat × Flags :=
  let f := d.pfmt
  if d.rop = 0 then addlog x y f (rmodeOf d.rmode) 0
  else ((logPick f (d.rop == 2) (decodeLog f x) (decodeLog f y)).code f, 0)

def collJoin (d : CollDesc) (x y : Partial) : Partial :=
  let l := (x.codes.zip y.codes).map fun (a, b) => collNode d a b
  { lo := min x.lo y.lo, hi := max x.hi y.hi, codes := l.map (·.1), flags := x.flags ||| y.flags ||| unionFlags (l.map (·.2))
    bad := uni x.bad y.bad }

/-- Codes of a list of element bytes. -/
def codesOf (es : Nat) (b : List Byte) : List Nat := (List.range (b.length / es)).map fun i => ofBytes ((b.drop (es * i)).take es)

/-- A rank's leaves from its codes and block scales; the widening of l8 is exact (R344). A block scale that takes a leaf beyond the range of L32 makes
the widening saturate or underflow; no rule says whether CFLAGS has those flags, and here it has not (DESIGN CHOICE, log 63). -/
def leafPart (d : CollDesc) (rank : Nat) (codes scales : List Nat) (bad : List Nat) : Partial :=
  ⟨rank, rank,
    if d.fmt = 10 then ((List.range codes.length).zip codes).map fun (i, x) => (lcvtElem l8 l32 (sext (getAt 0 scales (i / 128)) 8) (rmodeOf d.rmode) x 0).1
    else codes.map (canon d.pfmt), 0, bad⟩

/-- l32 codes converted back to l8 by 128-element blocks: each block's scale, with its codes and flags (R264, R344). -/
def l8Blocks (d : CollDesc) (codes : List Nat) : List (Nat × List (Nat × Flags)) :=
  (blocksOf codes).map fun b =>
    let k := blockScale 2 (b.filterMap fun w => valLog 22 (decodeLog l32 w))
    (low k 8, b.map fun w => lcvtElem l32 l8 k (rmodeOf d.rmode) w 0)

/-- The result of a chunk from its root partial: it carries the flags of the conversion as well (R344). -/
def rootResult (d : CollDesc) (p : Partial) : Partial :=
  { p with lo := 0, flags := if d.fmt = 10 then p.flags ||| unionFlags ((l8Blocks d p.codes).flatMap fun b => b.2.map (·.2)) else p.flags }

/-- What a rank writes for part of a result: codes and scales of RECV and RCVSC, and the elements with a poison mark. Results of an l8 reduction
are converted back here, at the receiving rank (R344). -/
def landed (d : CollDesc) (codes scales bad : List Nat) : List Nat × List Nat × List Nat :=
  if d.fmt = 10 && d.reduces then
    let bs := l8Blocks d codes
    (bs.flatMap fun b => b.2.map (·.1), bs.map (·.1), (List.range codes.length).filter fun j => bad.any fun i => i / 128 == j / 128)
  else (codes, scales, bad)

def State.setChunk (s : State) (id k : Nat) (x : Chunk) : State :=
  let c := s.coll id
  s.setColl id { c with chunks := setAt {} c.chunks k x }

/-- Send a result outward to every tree neighbour but the one it came from. -/
def spread (s : State) (id k : Nat) (src : Option Nat) (p : Partial) (scales : List Nat) : State :=
  let c := s.coll id
  let (tree, _) := c.treeOf k
  ((neighbours tree c.myrank).filter fun v => some v != src).foldl (fun s v =>
    s.send (.part c.key k v (.down c.epoch c.myrank p scales))) s

/-- A result joins a chunk and goes outward. -/
def addResult (s : State) (id k : Nat) (src : Option Nat) (p : Partial) (scales : List Nat) : State :=
  let x : Chunk := getAt {} (s.coll id).chunks k
  if x.res.any fun (q, _) => q.lo == p.lo then s
  else spread (s.setChunk id k { x with res := x.res ++ [(p, scales)] }) id k src p scales

/-- The mark of a chunk at PROG (R342). -/
def markBytes (epoch state : Nat) : List Byte := toBytes 8 (epoch % 2 ^ 16 * 2 ^ 48 + state)

/-- The overlap of two ranges (address, length): first address and one past the last. -/
def meet (a b : Nat × Nat) : Nat × Nat := (max a.1 b.1, min (a.1 + a.2) (b.1 + b.2))

/-- The send data and send scales that RECV and RCVSC overlap, and where WBUF keeps them (R343; the layout of WBUF is the model's, log 30). -/
def Coll.keptData (c : Coll) : (Nat × Nat) × Nat := (meet (c.d.send, c.d.sendLen c.n * c.d.es) (c.d.recv, c.d.recvLen c.n * c.d.es), c.d.wbuf)
def Coll.keptScales (c : Coll) : (Nat × Nat) × Nat :=
  (meet (c.d.sndsc, c.d.sendLen c.n / 128) (c.d.rcvsc, c.d.recvLen c.n / 128), c.d.wbuf + c.d.count * c.d.es)

/-- Where Whist reads a range of send data: the kept copy stands in WBUF for what it holds. -/
def Coll.source (c : Coll) (kept : (Nat × Nat) × Nat) (va n : Nat) : List (Nat × Nat) :=
  let a := max va kept.1.1
  let b := min (va + n) kept.1.2
  if !c.copied || b ≤ a then [(va, n)]
  else [(va, a - va), (kept.2 + (a - kept.1.1), b - a), (b, va + n - b)].filter (·.2 ≠ 0)

/-- The elements, of es bytes each, of which a byte lies in a marked sector. -/
def badElems (s : State) (l : List Piece) (es n : Nat) : List Nat :=
  if s.poison.isEmpty then [] else
  let places := l.flatMap fun p => span p.pa p.len
  (List.range n).filter fun j => (List.range es).any fun q => s.poison.contains (getAt 0 places (es * j + q) / 32)

/-- Poison marks on the elements, of es bytes each, of a range (R372). -/
def markElems (s : State) (l : List Piece) (es : Nat) (bad : List Nat) : State :=
  let places := l.flatMap fun p => span p.pa p.len
  bad.foldl (fun s j => markPoison s (getAt 0 places (es * j)) es) s

/-- Elements of the send buffer from index i on: their bytes, block scales, and the poisoned ones; none where an access failed. -/
def sendData (s : State) (id i n : Nat) : State × Option (List Byte × List Byte × List Nat) :=
  let c := s.coll id
  let d := c.d
  match whistChecks s id .load (c.source c.keptData (d.send + d.es * i) (d.es * n)) with
  | (s, none) => (s, none)
  | (s, some l) =>
    match if d.fmt = 10 then whistChecks s id .load (c.source c.keptScales (d.sndsc + i / 128) (ncdiv n 128)) else (s, some []) with
    | (s, none) => (s, none)
    | (s, some ls) =>
      let bad := badElems s l d.es n
      let scales := badElems s ls 1 (ncdiv n 128)
      let bad := if scales.isEmpty then bad else (List.range n).filter fun j => bad.contains j || scales.contains (j / 128)
      ({ s with fresh := s.fresh + 1 }, some (whistRead s c l, whistRead s c ls, bad))

/-- Chunks in flight, and those of them on a chunk's tree. -/
def Coll.busy (c : Coll) : List Nat := (List.range c.chunks.length).filter fun j => (getAt {} c.chunks j).state == 1
def Coll.beside (c : Coll) (k : Nat) : List Nat := c.busy.filter fun j => j % c.trees.length == k % c.trees.length

/-- Another chunk may be issued on a chunk's tree: two are in flight on a tree, or one, or one on all the trees together (R343, R346). -/
def Coll.mayIssue (c : Coll) (k : Nat) : Bool := if c.flight = 0 then c.busy.isEmpty else (c.beside k).length < c.flight

/-- The place that a chunk takes at its issue: the lowest that no chunk in flight on its tree has (log 30). -/
def Coll.place (c : Coll) (k : Nat) : Nat :=
  ((List.range 2).find? fun p => (c.beside k).all fun j => (getAt {} c.chunks j).slot != p).getD 0

/-- A mark of PROG, written while the collective runs. -/
def writeMark (s : State) (id k state : Nat) : State × Bool :=
  let c := s.coll id
  if c.ended then (s, true) else
  match whistChecks s id .store [(c.d.prog + 8 * k, 8)] with
  | (s, none) => (s, false)
  | (s, some l) => (whistWrite s id l (markBytes c.epoch state), true)

/-- Issue a chunk: this rank's elements are read, and the mark becomes 1. A rank that supplies none of the chunk's elements sends no result
(R334, R340). Answers whether it could. -/
def issueChunk (s : State) (id k : Nat) : State × Bool :=
  let c := s.coll id
  let d := c.d
  let (a, b, i) := c.supply k
  match sendData s id i (b - a) with
  | (s, none) => (s, false)
  | (s, some (bytes, scales, bad)) =>
    match writeMark s id k 1 with
    | (s, false) => (s, false)
    | (s, true) =>
      let x : Chunk := getAt {} (s.coll id).chunks k
      let codes := codesOf d.es bytes
      let sc := scales.map fun b => b.toNat
      let parts := if d.reduces then x.parts ++ [leafPart d c.myrank codes sc bad] else x.parts
      let s := s.setChunk id k { x with epoch := c.epoch, state := 1, slot := c.place k, parts }
      let own := if d.kind = 2 then c.myrank else 0
      (if !d.reduces && a < b then addResult s id k none ⟨own, own, codes, 0, bad⟩ sc else s, true)

/-- Place j of WBUF for the partials of a chunk that wait (R343, R345; log 30). -/
def Coll.slot (c : Coll) (k j : Nat) : Nat :=
  let w := waits c.d c.n c.myrank c.trees
  let tau := k % c.trees.length
  let first := if c.flight = 0 then 0 else c.flight * sumList (w.take tau) + (getAt {} c.chunks k).slot * getAt 0 w tau
  c.d.wbuf + (if c.d.overlap c.n then c.d.count * c.d.ps else 0) + c.cs * (first + j)

/-- The partials of a chunk, those that wait in WBUF read from there. -/
def fetchParts (s : State) (id k : Nat) : State × Option (List Partial) :=
  let c := s.coll id
  let x : Chunk := getAt {} c.chunks k
  if x.parked = 0 then (s, some x.parts) else
  let (a, b) := c.bounds k
  match whistChecks s id .load ((List.range x.parked).map fun j => (c.slot k j, (b - a) * c.d.ps)) with
  | (s, none) => (s, none)
  | (s, some l) =>
    let n := b - a
    let codes := codesOf c.d.ps (whistRead s c l)
    let bad := badElems s l c.d.ps (x.parked * n)
    let fetched := ((List.range x.parked).zip x.parts).map fun (j, p) =>
      { p with codes := (codes.drop (j * n)).take n, bad := (bad.filter fun i => j * n ≤ i && i < (j + 1) * n).map (· - j * n) }
    (s, some (fetched ++ x.parts.drop x.parked))

/-- Partials that wait are written to WBUF (R345). -/
def parkParts (s : State) (id k : Nat) (parts : List Partial) : State × Bool :=
  let c := s.coll id
  if c.ended then (s, true) else
  let (a, b) := c.bounds k
  match whistChecks s id .store ((List.range parts.length).map fun j => (c.slot k j, (b - a) * c.d.ps)) with
  | (s, none) => (s, false)
  | (s, some l) =>
    let s := whistWrite s id l (parts.flatMap fun p => p.codes.flatMap (toBytes c.d.ps))
    let s := markElems s l c.d.ps (((List.range parts.length).zip parts).flatMap fun (j, p) => p.bad.map (· + j * (b - a)))
    let x : Chunk := getAt {} (s.coll id).chunks k
    (s.setChunk id k { x with parts := parts.map fun p => { p with codes := [], bad := [] }, parked := parts.length }, true)

/-- Combine what a chunk holds, and send it on once the subtree is complete; what cannot be combined waits in WBUF (R345). Answers whether it
could. -/
def combineChunk (s : State) (id k : Nat) : State × Bool :=
  let c := s.coll id
  let d := c.d
  let x : Chunk := getAt {} c.chunks k
  if !d.reduces || x.state ≠ 1 || x.sent || x.parts.length ≤ x.parked then (s, true) else
  match fetchParts s id k with
  | (s, none) => (s, false)
  | (s, some held) =>
    let n := c.n
    let (tree, root) := c.treeOf k
    let parts := if d.ord then joinAll n (collJoin d) (2 * n) held
      else match held with
        | [] => []
        | p :: l => [l.foldl (collJoin d) p]
    let kids := if n = 1 then [] else childrenOf tree root n c.myrank
    let mineIds := c.myrank :: kids.flatMap fun v => sideOf tree c.myrank n v
    let whole := if d.ord then mineIds.all fun r => parts.any fun p => p.lo ≤ r && r ≤ p.hi
      else kids.all x.from_.contains
    let s := s.setChunk id k { x with parts, parked := 0, sent := whole }
    if !whole then parkParts s id k parts
    else match if n = 1 then none else parentOf tree root n c.myrank with
      | some v => (parts.foldl (fun s p => s.send (.part c.key k v (.up c.epoch c.myrank p))) s, true)
      | none =>
        match parts with
        | p :: _ => (addResult s id k none (rootResult d p) [], true)
        | [] => (s, true)

/-- Write the results a chunk holds to RECV and RCVSC, while the collective runs. -/
def writeResults (id k : Nat) : Nat → State → State × Bool
  | 0, s => (s, true)
  | fuel + 1, s =>
    let c := s.coll id
    let d := c.d
    let x : Chunk := getAt {} c.chunks k
    match x.res[x.put]? with
    | none => (s, true)
    | some (p, scales) =>
      if c.ended then writeResults id k fuel (s.setChunk id k { x with put := x.put + 1 }) else
      let (a, b) := c.bounds k
      let first := if d.kind = 2 then max a (p.lo * d.count) else a
      let (lo, hi, i) := c.receive first (min b (first + p.codes.length))
      let n := hi - lo
      match whistChecks s id .store [(d.recv + d.es * i, d.es * n)] with
      | (s, none) => (s, false)
      | (s, some l) =>
        match if d.fmt = 10 then whistChecks s id .store [(d.rcvsc + i / 128, ncdiv n 128)] else (s, some []) with
        | (s, none) => (s, false)
        | (s, some ls) =>
          let (codes, sc, bad) := landed d ((p.codes.drop (lo - first)).take n) ((scales.drop ((lo - first) / 128)).take (ncdiv n 128))
            ((p.bad.filter fun j => lo - first ≤ j && j < lo - first + n).map (· - (lo - first)))
          let s := whistWrite s id l (codes.flatMap (toBytes d.es))
          let s := whistWrite s id ls (sc.flatMap (toBytes 1))
          let s := markElems s l d.es bad
          let s := markElems s ls 1 ((List.range sc.length).filter fun q => (span (128 * q) 128).all bad.contains)
          let x : Chunk := getAt {} (s.coll id).chunks k
          writeResults id k fuel (s.setChunk id k { x with put := x.put + 1 })

/-- The results a chunk waits for: one, or one for each rank whose block it touches in an all-gather. -/
def Coll.expects (c : Coll) (k : Nat) : Nat :=
  let (a, b) := c.bounds k
  if c.d.kind = 2 then (b - 1) / c.d.count - a / c.d.count + 1 else 1

/-- Everything this rank can do for a chunk now (R342). One that has ended still sends what others need after a recovery, and writes nothing
(log 31). -/
def pumpChunk (s : State) (id k : Nat) : State :=
  let c := s.coll id
  if !c.ready || c.err ≠ 0 || c.wait.isSome then s else
  let (s, ok) := if (getAt {} c.chunks k).state = 0 && c.mayIssue k then issueChunk s id k else (s, true)
  if !ok then s else
  match combineChunk s id k with
  | (s, false) => s
  | (s, true) =>
    let (s, ok) := writeResults id k (c.n + 1) s
    let x : Chunk := getAt {} (s.coll id).chunks k
    if !ok || x.state ≠ 1 || x.put < c.expects k then s
    else match writeMark s id k 2 with
      | (s, false) => s
      | (s, true) => s.setChunk id k { getAt {} (s.coll id).chunks k with state := 2 }

def pump (s : State) (id : Nat) : State := (List.range (s.coll id).chunks.length).foldl (fun s k => pumpChunk s id k) s

-- Start, recovery, completion (R337 to R340, R346) -----------------------------------------------------------------------------------

/-- This rank's live links to other ranks (R338, R339); a sealed context uses only those with an IDE stream (R386). -/
def liveEdges (s : State) (c : Coll) : List Edge :=
  ((List.range s.dev.ports.length).zip s.dev.ports).filterMap fun (i, p) =>
    if !p.up || p.quar || ((s.ctx c.ctx).sealed && !p.ide) then none else
    match findIdx (· == p.peer) c.ents with
    | none => none
    | some r => if r = c.myrank then none else if c.myrank < r then some ⟨c.myrank, r, i, p.far⟩ else some ⟨r, c.myrank, p.far, i⟩

/-- What this rank floods at its epoch. -/
def ownFlood (c : Coll) : FloodMsg :=
  let d := c.d
  { rank := c.myrank, epoch := c.epoch, params := [d.kind, if d.ord then 1 else 0, d.rmode, d.rop, d.fmt, d.count, d.root]
    entries := c.ents, edges := c.mine, overlap := d.overlap c.n, wlen := d.wlen
    marks := ((List.range c.chunks.length).zip c.chunks).map fun (k, x) => (k, x.state), cs := c.cs }

/-- Flood this rank's links and marks, replacing what it held of older epochs. -/
def flood (s : State) (id : Nat) : State :=
  let c := s.coll id
  let m := ownFlood c
  (s.setColl id { c with floods := m :: c.floods.filter fun f => f.epoch == c.epoch && f.rank != c.myrank }).send (.flood c.key m)

/-- Floods held at the current epoch. -/
def Coll.heardFloods (c : Coll) : List FloodMsg := c.floods.filter fun f => f.epoch == c.epoch

/-- A rank's parameters or communicator differ from this rank's (R337). -/
def Coll.differs (c : Coll) : Bool :=
  c.heardFloods.any fun f => f.params != (ownFlood c).params || f.entries != c.ents

/-- Floods of every rank are held. -/
def Coll.heard (c : Coll) : Bool := (List.range c.n).all fun r => c.floods.any fun f => f.rank == r && f.epoch == c.epoch

/-- Ranks that the links of the floods held still join to this one. -/
def Coll.reach (c : Coll) : List Nat :=
  let fl := c.heardFloods
  let known := fun r => fl.any fun f => f.rank == r
  let es := (fl.flatMap fun f => f.edges.filter fun e =>
    let far := otherEnd e f.rank
    !known far || fl.any fun h => h.rank == far && h.edges.contains e).eraseDups
  (growTree es (c.n + 1) [c.myrank] [c.myrank] []).1

/-- Every rank that the links can join to this one has flooded, and some rank is not among them: no table connects the ranks. -/
def Coll.cutOff (c : Coll) : Bool :=
  c.reach.all (fun r => c.floods.any fun f => f.rank == r && f.epoch == c.epoch) && !(List.range c.n).all c.reach.contains

/-- One kept range is copied to WBUF, with its poison marks. -/
def keepRange (s : State) (id : Nat) (kept : (Nat × Nat) × Nat) : State × Bool :=
  let n := kept.1.2 - kept.1.1
  match whistChecks s id .load [(kept.1.1, n)] with
  | (s, none) => (s, false)
  | (s, some l) =>
    match whistChecks s id .store [(kept.2, n)] with
    | (s, none) => (s, false)
    | (s, some k) =>
      let bytes := whistRead s (s.coll id) l
      (markElems (whistWrite { s with fresh := s.fresh + 1 } id k bytes) k 1 (badElems s l 1 n), true)

/-- The overlapping send data, with its scales, is kept in WBUF (R343). -/
def keepCopy (s : State) (id : Nat) : State × Bool :=
  let c := s.coll id
  if !c.d.overlap c.n || (c.d.kind = 3 && c.myrank ≠ c.d.root) then (s, true)
  else match keepRange s id c.keptData with
    | (s, false) => (s, false)
    | (s, true) =>
      match if c.d.fmt = 10 && c.keptScales.1.1 < c.keptScales.1.2 then keepRange s id c.keptScales else (s, true) with
      | (s, false) => (s, false)
      | (s, true) => (s.setColl id { s.coll id with copied := true }, true)

/-- The start of the chunks: the kept copy, marks 0, then what can be issued. -/
def beginChunks (s : State) (id : Nat) (trees : List (List Edge × Nat)) (cs flight : Nat) : State :=
  let c := { s.coll id with trees, cs, flight }
  match whistChecks (s.setColl id c) id .store [(c.d.prog, 8 * c.nch)] with
  | (s, none) => s
  | (s, some l) =>
    match keepCopy s id with
    | (s, false) => s
    | (s, true) =>
      let s := whistWrite s id l (List.replicate (8 * c.nch) 0)
      pump (s.setColl id { s.coll id with chunks := List.replicate c.nch {}, ready := true }) id

/-- The number of chunks in flight on a tree that every rank's work buffer has room for, 0 when the trees are worked one at a time (R346). -/
def flightOf (c : Coll) (fl : List FloodMsg) (trees : List (List Edge × Nat)) (cs : Nat) : Option Nat :=
  if fits c.d c.n fl trees cs fun l => 2 * sumList l then some 2
  else if fits c.d c.n fl trees cs sumList then some 1
  else if fits c.d c.n fl trees cs maxList then some 0
  else none

/-- The chunk size and the chunks in flight of a rank that begins its chunks: after a failure, the size of the ranks that began theirs before it,
since every rank takes the same (R343, R346). -/
def startSize (c : Coll) (fl : List FloodMsg) (trees : List (List Edge × Nat)) : Option (Nat × Nat) :=
  match if c.epoch = 0 then none else fl.find? fun f => f.cs != 0 with
  | some f => (flightOf c fl trees f.cs).map fun n => (f.cs, n)
  | none => (chunkSize c.d c.n fl trees).map fun cs => (cs, 2)

/-- The first build, when every rank's flood is held: the trees (R340) and the chunk size (R343) are chosen and the chunks begin. -/
def firstBuild (s : State) (id : Nat) : State :=
  let c := s.coll id
  let fl := c.heardFloods
  let trees := if c.n = 1 then [] else buildTrees c.n 4 0 (linkTable fl)
  if c.n ≠ 1 && trees.isEmpty then collFail s id 6
  else match startSize c fl trees with
    | none => collFail s id 7
    | some (cs, flight) => beginChunks s id trees cs flight

/-- A new epoch (R346): partials and messages of older epochs go, and this rank floods its links and marks. -/
def newEpoch (s : State) (id epoch : Nat) : State :=
  let c := s.coll id
  flood (s.setColl id { c with
    epoch, ready := false, floods := c.floods.filter fun f => f.epoch == epoch
    chunks := c.chunks.map fun x => if x.state = 2 then x else { x with parts := [], parked := 0, from_ := [], sent := false, res := [], put := 0 } }) id

/-- Whether a link stands at a port of this rank. -/
def Coll.uses (c : Coll) (port : Nat) (e : Edge) : Bool := (e.a == c.myrank && e.p == port) || (e.b == c.myrank && e.pb == port)

/-- A quarantined port leaves the links of every collective that uses it; one that still runs floods a notice and recovers at the next epoch. -/
def dropPort (s : State) (port : Nat) : State :=
  (List.range s.colls.length).foldl (fun s id =>
    let c := s.coll id
    match c.mine.find? (c.uses port) with
    | none => s
    | some link =>
      let mine := c.mine.filter fun e => !c.uses port e
      if c.ended || c.err ≠ 0 then s.setColl id { c with mine }
      else
        let s := s.setColl id { c with mine, notices := c.notices ++ [(c.epoch + 1, link)] }
        newEpoch (s.send (.notice c.key (c.epoch + 1) link)) id (c.epoch + 1)) s

/-- A failure notice (R346, step 1): a rank at an end of the link quarantines its own end, whatever the epoch; the notice is passed on once; a new
epoch begins. -/
def takeNotice (s : State) (id epoch : Nat) (link : Edge) : State :=
  let c := s.coll id
  if c.err ≠ 0 || c.notices.contains (epoch, link) then s else
  let s := (s.setColl id { c with notices := c.notices ++ [(epoch, link)], mine := c.mine.filter (· != link) }).send (.notice c.key epoch link)
  let s := match ((List.range s.dev.ports.length).zip s.dev.ports).find? fun (i, _) => c.uses i link with
    | some (i, p) => if p.up && !p.quar then dropPort { s with dev := { s.dev with ports := setAt {} s.dev.ports i { p with quar := true } } } i else s
    | none => s
  if epoch > (s.coll id).epoch then newEpoch s id epoch else s

/-- Another rank's flood: one of a higher epoch is met as a failure notice is; a new one is held and passed on. A flood under a rank already held,
with other parameters or entries, is a new one (R337). -/
def takeFlood (s : State) (id : Nat) (m : FloodMsg) : State :=
  let c := s.coll id
  if c.err ≠ 0 || m.epoch < c.epoch then s else
  let s := if m.epoch > c.epoch then newEpoch s id m.epoch else s
  let c := s.coll id
  if c.floods.any fun f => f.rank == m.rank && f.epoch == m.epoch && f.params == m.params && f.entries == m.entries then s
  else (s.setColl id { c with floods := c.floods ++ [m] }).send (.flood c.key m)

def CollMsg.epoch : CollMsg → Nat
  | .up ep _ _ => ep
  | .down ep _ _ _ => ep

/-- A message for a chunk at the current epoch; one that comes before this rank is ready for it is kept. -/
def takePart (s : State) (id k : Nat) (msg : CollMsg) : State :=
  let c := s.coll id
  let x : Chunk := getAt {} c.chunks k
  if c.err ≠ 0 || CollMsg.epoch msg < c.epoch then s
  else if c.epoch < CollMsg.epoch msg || !c.ready then s.setColl id { c with late := c.late ++ [(k, msg)] }
  else if k ≥ c.chunks.length || x.state = 2 then s
  else match msg with
    | .up _ src p =>
      if (x.parts.any fun q => q.lo ≤ p.lo && p.hi ≤ q.hi && c.d.ord) || (!c.d.ord && x.from_.contains src) then s
      else pump (s.setChunk id k { x with parts := x.parts ++ [p], from_ := uni x.from_ [src] }) id
    | .down _ src p scales => pump (addResult s id k (some src) p scales) id

def takeMsg (s : State) (id : Nat) : InMsg → State
  | .flood m => takeFlood s id m
  | .part k m => takePart s id k m
  | .notice ep link => takeNotice s id ep link

/-- The messages that came early are taken once the chunks may be issued. -/
def takeLate (s : State) (id : Nat) : State :=
  let c := s.coll id
  if !c.ready then s else c.late.foldl (fun s (k, m) => takePart s id k m) (s.setColl id { c with late := [] })

/-- A collective begins: it floods its live links, and takes what has arrived for it (R337, R339). -/
def collBegin (s : State) (id : Nat) : State :=
  let c := s.coll id
  let s := flood (s.setColl id { c with begun := true, mine := liveEdges s c }) id
  let mine := s.dev.inbox.filter fun (k, _) => k == c.key
  let s := { s with dev := { s.dev with inbox := s.dev.inbox.filter fun (k, _) => k != c.key } }
  mine.foldl (fun s (_, m) => takeMsg s id m) s

/-- COLLECTIVE_START. The first occurrence floods; a flood that differs fails the collective (R337); once every rank's flood is held, the trees are
built and the chunks begin. -/
def collStart (s : State) (id : Nat) : State :=
  let c := s.coll id
  if c.ended || c.err ≠ 0 || c.ready || c.wait.isSome then s
  else if !c.begun then collBegin s id
  else if c.epoch ≠ 0 then s
  else if c.differs then collFail s id 5
  else if !c.heard then if c.cutOff then collFail s id 6 else s
  else takeLate (firstBuild s id) id

/-- What step 4 of R346 keeps of the chunks: those final on every rank; the others are issued again. -/
def Coll.keepFinal (c : Coll) (fl : List FloodMsg) : List Chunk :=
  ((List.range c.chunks.length).zip c.chunks).map fun (k, x) => if fl.all fun f => f.marks.contains (k, 2) then x else {}

/-- RECOVERY_REBUILD (R346, steps 3 and 4). A rank that had not begun its chunks begins them here. -/
def collRebuild (s : State) (id : Nat) : State :=
  let c := s.coll id
  if c.err ≠ 0 || c.ready || !c.begun || c.epoch = 0 || c.wait.isSome then s
  else if c.chunks.isEmpty && c.differs then collFail s id 5
  else if !c.heard then
    -- some rank's table cannot come: the links no longer connect the ranks
    if !c.mine.isEmpty && c.cutOff then collFail s id 6 else s
  else if c.chunks.isEmpty then
    let s := s.setColl id { c with recov := if c.built = c.epoch then c.recov else c.recov + 1, built := c.epoch }
    takeLate (firstBuild s id) id
  else
    let s := s.setColl id { c with recov := c.recov + 1 }
    let fl := c.heardFloods
    let trees := buildTrees c.n 4 0 (linkTable fl)
    if trees.isEmpty then collFail s id 6
    else match flightOf c fl trees c.cs with
      | none => collFail s id 7
      | some flight => takeLate (pump (s.setColl id { s.coll id with trees, flight, chunks := c.keepFinal fl, ready := true }) id) id

/-- COLLECTIVE_COMPLETE (R344): every chunk is final, or the collective has failed; the descriptor's word 10 is written. -/
def collComplete (s : State) (id : Nat) : State :=
  let c := s.coll id
  let done := c.ready && c.chunks.all fun x => x.state == 2
  if c.ended || (c.err = 0 && !done) then s
  else
    let flags := unionFlags (c.chunks.map fun x => unionFlags (x.res.map fun (p, _) => p.flags))
    let w := c.recov % 2 ^ 16 * 2 ^ 48 + c.err * 2 ^ 44 + c.trees.length * 2 ^ 32 +
      (if c.err = 0 then flags.toNat * 2 ^ 8 + 2 else 3)
    let s := match whistChecks s id .store [(c.desc + 80, 8)] with
      | (s, some l) => whistWrite s id l (toBytes 8 w)
      | (s, none) => s
    let c := s.coll id
    let (s, v, r) := release s (.whist id) c.view .fabric (.bytes c.ctx (c.d.named c.n c.nch c.desc))
    s.setColl id { c with ended := true, view := v, rel := some r, wait := none }

-- Events ---------------------------------------------------------------------------------------------------------------------------------

/-- An event about a collective; one that names none changes nothing, and after a fatal error Whist has stopped (R391). -/
def collEvent (f : State → Nat → State) (id : Nat) (s : State) : Out :=
  if id < s.colls.length && s.dev.status != 7 then .next (f s id) else .next s

/-- A Ronzia message arrives for the k-th collective of a COMMID (R337); until this device has begun that collective the message is kept. -/
def arrive (key : CollKey) (m : InMsg) (s : State) : Out :=
  if s.dev.status = 7 then .next s else
  match findIdx (fun c => c.begun && c.key == key) s.colls with
  | some id => .next (takeMsg s id m)
  | none => .next { s with dev := { s.dev with inbox := s.dev.inbox ++ [(key, m)] } }

def execCollectiveStart (id : Nat) (s : State) : Out := collEvent collStart id s

/-- TABLE_FLOOD. -/
def execTableFlood (key : CollKey) (m : FloodMsg) (s : State) : Out := arrive key (.flood m) s

/-- COLLECTIVE_PARTIAL. -/
def execCollectivePartial (key : CollKey) (k : Nat) (msg : CollMsg) (s : State) : Out := arrive key (.part k msg) s

/-- FAILURE_NOTICE. -/
def execFailureNotice (key : CollKey) (epoch : Nat) (link : Edge) (s : State) : Out := arrive key (.notice epoch link) s

def execRecoveryRebuild (id : Nat) (s : State) : Out := collEvent collRebuild id s
def execCollectiveComplete (id : Nat) (s : State) : Out := collEvent collComplete id s

/-- ISOLATED_RANK_TIMEOUT: a recovering rank with no live link left fails. -/
def execIsolatedRankTimeout (id : Nat) (s : State) : Out :=
  collEvent (fun s id =>
    let c := s.coll id
    if !c.begun || c.epoch = 0 || !c.mine.isEmpty || c.n = 1 then s else collFail s id 6) id s

end Sys2Proof.Machine
end

