-- ==== Sys2Proof/Machine/Replay.lean ====
section
/-! DEFINITION. The replay log at work: performing an entry, what each outcome leaves, retries, what a save or a watchdog trap makes of
a waiting group, answers to reported faults, and the meanings of the logged rows 0xC_ to 0xE_ (R231, R232, R359, R360, R366). -/

namespace Sys2Proof.Machine

/-- A function instruction from its logged source, the fast path first; the lanes of its entry, which stood at it meanwhile, move past it (R216). -/
def doFn (fn : Fn) (f : Full) (g : Nat) (e : Entry) (s : State) : Perf :=
  .done (s.setGroup g ((fnOver fn false f e.b e.act e.helper (s.group g)).advance e.lanes e.addr e.len))

/-- Shootdowns completed so far (R368). -/
def shotDone (s : State) : Nat := s.dev.shootIn - s.dev.shootQ.length

/-- A shootdown of a context reaches the translation control: a page's address, or every translation; from the host link or a TLBINV. -/
def shoot (s : State) (c : Nat) (va : Option Nat) (host : Bool) : State :=
  { s with dev := { s.dev with shootIn := s.dev.shootIn + 1, shootQ := s.dev.shootQ ++ [⟨c, va, host⟩] } }

/-- TLBINV (R378): the address is checked and the shootdown made, once; the instruction completes when that shootdown has. The older stores of the
group have reached L2. -/
def doTlbinv (f : Full) (g : Nat) (e : Entry) (s : State) : Perf :=
  let va := (e.bv e.low).toNat
  if e.stage ≠ 0 then if e.prog ≤ shotDone s then .done s else .wait s (.shoot e.prog) e
  else if f.xm == 0 && 2 ^ 57 ≤ va then .trap s ⟨0x07, e.lanes, wd (3 * 2 ^ 60 + va % 2 ^ 57)⟩ e
  else
    let s := shoot s (s.team (s.group g).team).ctx (if f.xm = 1 then none else some va) false
    .wait s (.shoot s.dev.shootIn) { e with stage := 1, prog := s.dev.shootIn }

/-- Perform the instruction of an entry. A contribution on its way is accepted by `contribute` (R256). -/
def performEntry (g : Nat) (e : Entry) (s : State) : Perf :=
  match e.instr with
  | .ld f => doLoad f f.xm.toNat g e s
  | .st f => doStore f f.xm.toNat g e s
  | .lds f => if f.xm = 0 then doLds f g e s else doLdsWait f (f.xm == 2) g e s
  | .sts f => doSts f (f.xm == 1) g e s
  | .ldc f => doLoad f 0 g e s
  | .atom f => doAtom f g e s
  | .aaccO _ => if (s.group g).wait = .contrib then contribute g e s else doAacc g e s
  | .monitor _ => doMonitor g e s
  | .mwait _ => doMwait g e s
  | .cpyq _ => doCpyq g e s
  | .abinit _ => doAbinit g e s
  | .abwait _ => doAbwait g e s
  | .tcpy f => doTcpy (f.xm == 1) g e s
  | .gacq f => doGacq f g e s
  | .grel f => doGrel f g e s
  | .fence f => doFence f g e s
  | .bar _ => doBar false g e s
  | .cbar _ => doBar true g e s
  | .pegpub f => doPegpub f g e s
  | .tspawn f => doTspawn f g e s
  | .jpost f => doJpost f g e s
  | .coll _ => doColl g e s
  | .collw _ => doCollw g e s
  | .mwld f => doMwld f g e s
  | .mswap _ => doMswap g e s
  | .mma f => doMma false f g e s
  | .mmat f => doMma true f g e s
  | .mdrain f => doMdrain f g e s
  | .mzero f => doMzero f g e s
  | .mtake _ => doMtake g e s
  | .mpass _ => doMpass g e s
  | .mhrd f => doMhrd f g e s
  | .mprg f => doMprg f g e s
  | .tlbinv f => doTlbinv f g e s
  | i => match fnOf i with
    | some (fn, f) => doFn fn f g e s
    | none => .done s

/-- The oldest entry replaced, with what the group now waits for. -/
def putHead (s : State) (g : Nat) (e : Entry) (w : Wait) : State :=
  let x := s.group g
  s.setGroup g { x with log := e :: x.log.drop 1, wait := w }

/-- The lanes of an entry that issue moved past it stand at it again, and the entry is gone. -/
def unissue (s : State) (g : Nat) (e : Entry) : State :=
  let x := s.group g
  let x := x.mapLanes e.lanes fun _ l => if !l.x && !l.p && l.pc == e.addr + e.len then { l with pc := e.addr } else l
  s.setGroup g { x with log := x.log.drop 1, wait := .none }

/-- TRAP.LANES of an entry's failed fault (R232): the faulting lanes, or for the array the lanes at the address. -/
def faultLanes (e : Entry) : Mask :=
  if 0xE0 ≤ opOf e.instr then e.lanes else maskOfList (e.faults.map (·.lane))

/-- NONDET of a matrix instruction met at its issue has no entry, and every PC stays at the instruction (R292, R350). One that runs again from the log
has lanes that moved on, and its entry is frozen (log 13). -/
def takeNondet (s : State) (g : Nat) (e : Entry) (t : Trap) : State :=
  if e.replay || e.late then enterTrap (putHead s g e .none) g t (e.len / 4) true e.addr
  else enterTrap (unissue s g e) g t (e.len / 4) false e.addr

/-- A function instruction behind a waiting fault ends its second phase: its result, its lanes' advance, and its entry is released (R214, R216). -/
def finishSecond (s : State) (g : Nat) : State :=
  let x := s.group g
  match x.fnBehind with
  | none => s
  | some e =>
    match performEntry g e (s.setGroup g { x with log := x.log.dropLast }) with
    | .done s => s
    | _ => s

/-- A fault of the oldest entry is taken: MFAULT. A second phase behind it ends first (R352). -/
def takeFault (s : State) (g : Nat) (e : Entry) : State :=
  let s := finishSecond s g
  enterTrap (putHead s g { e with fseq := none } .none) g (faultTrap e.faults (faultLanes e)) (e.len / 4) true e.addr

/-- Perform the entries of a group's log from the oldest on, until one waits or traps or none is left (R231, R361). -/
def runLog (g : Nat) : Nat → State → State
  | 0, s => s
  | fuel + 1, s =>
    let x := s.group g
    match x.log with
    | [] => s.setGroup g { x with wait := .none }
    | e :: _ =>
      match performEntry g e s with
      | .done s => runLog g fuel (completeHead s g)
      | .wait s w e => putHead s g e w
      | .trap s t e => enterTrap (putHead s g e .none) g t (e.len / 4) true e.addr
      | .nondet s t => takeNondet s g e t
      | .poison s a => consume s g 0x18 a
      | .fault s e l _ wr named =>
        let t := s.team x.team
        let e := { e with faults := l, late := true }
        match report s t.ctx t.tag x.core x.slot e.addr wr named l with
        | (s, some n) => putHead s g { e with fseq := some n } (.fault n)
        | (s, none) => takeFault s g e

/-- Run a group's log. -/
def runEntries (s : State) (g : Nat) : State := runLog g (Config.logEntries + 1) s

/-- The effect of a logged instruction at issue (R231): its entry with the source values, the PC advance, then the entry is performed, or held
behind those of older instructions. -/
def issueLogged (i : Instr) (f : Full) (is : Iss) (s : State) : State :=
  let x := s.group is.g
  let e : Entry :=
    { instr := i, addr := is.a, len := is.len, lanes := is.at_, act := is.act, helper := is.help
      b := x.run f.b, c := x.src f.c 1, d := x.run f.d, r := x.rand f, late := !x.log.isEmpty }
  let x := x.advance is.at_ is.a is.len
  let s := s.setGroup is.g { x with log := x.log ++ [e] }
  post (if x.log.isEmpty then runEntries s is.g else s) is.g

/-- The issue of a row-granular instruction of which the turn performs n rows (R287, R289). -/
def issueRows (n : Nat) (i : Instr) (f : Full) (is : Iss) (s : State) : State :=
  let x := s.group is.g
  let e : Entry :=
    { instr := i, addr := is.a, len := is.len, lanes := is.at_, act := is.act, helper := is.help
      b := x.run f.b, c := x.src f.c 1, d := x.run f.d, r := x.rand f, late := !x.log.isEmpty, upto := some n }
  let x := x.advance is.at_ is.a is.len
  let s := s.setGroup is.g { x with log := x.log ++ [e] }
  post (if x.log.isEmpty then runEntries s is.g else s) is.g

/-- A group between two rows goes on for n more. -/
def moreRows (s : State) (g n : Nat) : State :=
  let x := s.group g
  post (runEntries (s.setGroup g { x with log := x.log.take 1 |>.map (fun e => { e with upto := some (e.prog + n) }) |>.append (x.log.drop 1) }) g) g

/-- The issue of a function instruction whose second phase outlasts the turn (R214, R216): its entry holds the source values, behind those of a
waiting fault where there is one (R231), and the PCs stay at the instruction until it completes. -/
def issueSecond (i : Instr) (f : Full) (is : Iss) (s : State) : State :=
  let x := s.group is.g
  let e : Entry :=
    { instr := i, addr := is.a, len := is.len, lanes := is.at_, act := is.act, helper := is.help
      b := x.run f.b, c := x.src f.c 1, d := x.run f.d, r := x.rand f }
  s.setGroup is.g { x with log := x.log ++ [e], wait := if x.log.isEmpty then .second else x.wait }

/-- A waiting group tries again. A wait that only another event ends stays. -/
def retry (s : State) (g : Nat) : State :=
  match (s.group g).wait with
  | .again | .spad | .recheck | .baton | .bar | .cbar | .mwait | .contrib | .second | .lanes | .rows => post (runEntries s g) g
  | .fault _ => if (s.group g).inSecond then post (finishSecond s g) g else s
  | _ => s

-- Abandoning a wait (R352, R366) ----------------------------------------------------------------------------------------

/-- A wait's positions in queues are lost; the place of a restored holder that has not got the baton back is not a wait's (R120). -/
def leaveQueues (s : State) (g : Nat) : State :=
  let x := s.group g
  let c := s.core x.core
  let s := s.setCore x.core { c with queue := if (savedArray s g).isSome then c.queue else c.queue.filter (· != g), grows := c.grows.filter (· != g) }
  { s with gateQ := s.gateQ.filter fun (_, p, _, _) => p != .grp g
           teams := s.teams.map fun t => if t.waiters.isEmpty then t else { t with waiters := t.waiters.filter fun w => w.g != g } }

/-- The lanes an ATOM in host memory has left, one operation after another. -/
def endLanes (g : Nat) : Nat → State → State
  | 0, s => s
  | n + 1, s => if (s.group g).wait = .lanes then endLanes g n (runEntries s g) else s

/-- Waits that are completed and not abandoned: MWAIT, a contribution that has been sent, and an ATOM between its lanes (R260, R352, R366, Table
11.3). -/
def settleWait (s : State) (g : Nat) : State :=
  let x := s.group g
  match x.wait with
  | .mwait => completeHead (s.setGroup g { x with watch := none }) g
  | .contrib => runEntries s g
  | .lanes => endLanes g 32 s
  | _ => s

/-- What a save makes of a group's wait (R366): an armed watch is dropped (Table 11.3); fault waits and LDS.WF keep their entries, which are
checked again, and so do a function instruction stopped in its second phase (R216), a row-granular one at its row (R289), and entries that TRET
runs again or that younger instructions have passed; any other entry is given up and its instruction issues again, TLBINV among them (R378).
Records still to be written stay queued and are written (DESIGN CHOICE, log 70). -/
def saveWait (s : State) (g : Nat) : State :=
  let s := leaveQueues (settleWait s g) g
  let s := s.setGroup g { s.group g with watch := none }
  let x := s.group g
  let keep := s.setGroup g { x with
    log := x.log.map fun e => { e with fseq := none, faults := [] }, wait := if x.log.isEmpty then .none else .recheck }
  match x.wait, x.log with
  | .fault _, _ => keep
  | .spad, _ => keep
  | .recheck, _ => keep
  | .second, _ => keep
  | .rows, _ => keep
  | _, e :: _ => if e.replay || e.late then keep else unissue s g e
  | _, [] => s.setGroup g { x with wait := .none }

/-- WDOG at a group's boundary (R352, R358): held while INH = 1, and until a TLBINV has completed, whose wait WDOG does not abandon (log 23). A second
phase and a running row-granular instruction end first. -/
def takeWdog (s : State) (g : Nat) : State :=
  let s := settleWait s g
  let s := if (s.group g).wait = .second ∨ (s.group g).wait = .rows then post (runEntries s g) g else if (s.group g).inSecond then post (finishSecond s g) g else s
  let x := s.group g
  if x.inh || x.ended || (match x.wait with | .shoot _ => true | _ => false) then s
  else
    let s := leaveQueues s g
    let x := s.group g
    let t := s.team x.team
    enterTrap (s.setGroup g { x with wdog := false }) g ⟨0x10, x.live, wd t.budget⟩ 0 false (x.issueAddr.getD 0)

-- Answers to reported faults (R230, R232) -----------------------------------------------------------------------------------

/-- The group whose oldest entry waits on an FSEQ of a context. -/
def waitingGroup (s : State) (c fseq : Nat) : Option Nat :=
  (List.range s.groups.length).find? fun g =>
    let x := s.group g
    !x.ended && x.wait == .fault fseq && (s.team x.team).ctx == c

/-- The core and request of a chunk that waits on an FSEQ. -/
def waitingChunk (s : State) (c fseq : Nat) : Option (Nat × CopyReq × ChunkWait) :=
  ((List.range s.cores.length).findSome? fun k =>
    (s.core k).reqs.findSome? fun r =>
      if (s.team r.team).ctx ≠ c then none else (r.waiting.find? fun w => w.fseq == fseq).map fun w => (k, r, w))

def waitingColl (s : State) (c fseq : Nat) : Option Nat :=
  (List.range s.colls.length).find? fun n => (s.coll n).wait == some fseq && (s.coll n).ctx == c && !(s.coll n).ended

/-- Records of an answered FSEQ that are not yet written are dropped (R229). -/
def dropRecords (s : State) (c fseq : Nat) : State :=
  let x := s.ctx c
  s.setCtx c { x with records := x.records.filter fun r => r.fseq != fseq }

/-- RETRY: checked again, from the logged operands. -/
def answerRetry (s : State) (c fseq : Nat) : State :=
  match waitingGroup s c fseq with
  | some g =>
    let s := dropRecords s c fseq
    let x := s.group g
    post (runEntries (s.setGroup g { x with wait := .again, log := x.log.map fun e => { e with fseq := none, faults := [] } }) g) g
  | none =>
    match waitingChunk s c fseq with
    | some (k, r, w) =>
      (dropRecords s c fseq).setReq k { r with left := r.left ++ [w.chunk], waiting := r.waiting.filter fun v => v.fseq != fseq }
    | none =>
      match waitingColl s c fseq with
      | some n =>
        let s := dropRecords s c fseq
        let s := s.setColl n { s.coll n with wait := none }
        if (s.coll n).ready then pump s n else if (s.coll n).epoch = 0 then collStart s n else collRebuild s n
      | none => s

/-- FAIL: the group traps with MFAULT, or the request is abandoned, or the collective fails. -/
def answerFail (s : State) (c fseq : Nat) : State :=
  match waitingGroup s c fseq with
  | some g =>
    let s := dropRecords s c fseq
    match (s.group g).log with
    | e :: _ => takeFault s g e
    | [] => s
  | none =>
    match waitingChunk s c fseq with
    | some (k, r, w) => abandonReq (dropRecords s c fseq) k r w.kind w.addr
    | none =>
      match waitingColl s c fseq with
      | some n =>
        let s := dropRecords s c fseq
        collFail (s.setColl n { s.coll n with wait := none }) n 8
      | none => s

def execFrespRetry (c fseq : Nat) (s : State) : Out := .next (if s.dev.status = 7 then s else answerRetry s c fseq)
def execFrespFail (c fseq : Nat) (s : State) : Out := .next (if s.dev.status = 7 then s else answerFail s c fseq)

/-- FAULT_RECORD_RESUME (R229): an FSEQ whose record cannot be written is taken at once. -/
def execFaultRecordResume (c : Nat) (s : State) : Out :=
  if s.dev.status = 7 then .next s else
  let (s, failed) := drainRecords s c ((s.ctx c).records.length + 1)
  .next (failed.foldl (fun s n => answerFail s c n) s)

/-- AACC_CONTRIBUTE (R256). -/
def execAaccContribute (g : Nat) (s : State) : Out :=
  if (s.group g).wait = .contrib && !(s.group g).ended && s.dev.status != 7 then .next (post (runEntries s g) g) else .next s

-- Meanings of the logged rows --------------------------------------------------------------------------------------------------

def execLd (f : Full) (s : State) : Out := issue (.ld f) (issueLogged (.ld f) f) s
def execSt (f : Full) (s : State) : Out := issue (.st f) (issueLogged (.st f) f) s
def execLds (f : Full) (s : State) : Out := issue (.lds f) (issueLogged (.lds f) f) s
def execSts (f : Full) (s : State) : Out := issue (.sts f) (issueLogged (.sts f) f) s
def execLdc (f : Full) (s : State) : Out := issue (.ldc f) (issueLogged (.ldc f) f) s
def execPref (f : Full) (s : State) : Out := issue (.pref f) (issueLogged (.pref f) f) s
def execAtom (f : Full) (s : State) : Out := issue (.atom f) (issueLogged (.atom f) f) s
def execAaccO (f : Full) (s : State) : Out := issue (.aaccO f) (issueLogged (.aaccO f) f) s
def execMonitor (f : Full) (s : State) : Out := issue (.monitor f) (issueLogged (.monitor f) f) s
def execMwait (f : Full) (s : State) : Out := issue (.mwait f) (issueLogged (.mwait f) f) s
def execCpyq (f : Full) (s : State) : Out := issue (.cpyq f) (issueLogged (.cpyq f) f) s
def execAbinit (f : Full) (s : State) : Out := issue (.abinit f) (issueLogged (.abinit f) f) s
def execAbwait (f : Full) (s : State) : Out := issue (.abwait f) (issueLogged (.abwait f) f) s
def execTcpy (f : Full) (s : State) : Out := issue (.tcpy f) (issueLogged (.tcpy f) f) s
def execGacq (f : Full) (s : State) : Out := issue (.gacq f) (issueLogged (.gacq f) f) s
def execGrel (f : Full) (s : State) : Out := issue (.grel f) (issueLogged (.grel f) f) s
def execFence (f : Full) (s : State) : Out := issue (.fence f) (issueLogged (.fence f) f) s
def execBar (f : Full) (s : State) : Out := issue (.bar f) (issueLogged (.bar f) f) s
def execCbar (f : Full) (s : State) : Out := issue (.cbar f) (issueLogged (.cbar f) f) s
def execPegpub (f : Full) (s : State) : Out := issue (.pegpub f) (issueLogged (.pegpub f) f) s
def execTspawn (f : Full) (s : State) : Out := issue (.tspawn f) (issueLogged (.tspawn f) f) s
def execJpost (f : Full) (s : State) : Out := issue (.jpost f) (issueLogged (.jpost f) f) s
def execColl (f : Full) (s : State) : Out := issue (.coll f) (issueLogged (.coll f) f) s
def execCollw (f : Full) (s : State) : Out := issue (.collw f) (issueLogged (.collw f) f) s
def execMwld (f : Full) (s : State) : Out := issue (.mwld f) (issueLogged (.mwld f) f) s
def execMswap (f : Full) (s : State) : Out := issue (.mswap f) (issueLogged (.mswap f) f) s
def execMma (f : Full) (s : State) : Out := issue (.mma f) (issueLogged (.mma f) f) s
def execMmat (f : Full) (s : State) : Out := issue (.mmat f) (issueLogged (.mmat f) f) s
def execMdrain (f : Full) (s : State) : Out := issue (.mdrain f) (issueLogged (.mdrain f) f) s
def execMzero (f : Full) (s : State) : Out := issue (.mzero f) (issueLogged (.mzero f) f) s
def execMtake (f : Full) (s : State) : Out := issue (.mtake f) (issueLogged (.mtake f) f) s
def execMpass (f : Full) (s : State) : Out := issue (.mpass f) (issueLogged (.mpass f) f) s
def execMhrd (f : Full) (s : State) : Out := issue (.mhrd f) (issueLogged (.mhrd f) f) s
def execMprg (f : Full) (s : State) : Out := issue (.mprg f) (issueLogged (.mprg f) f) s

end Sys2Proof.Machine
end

