-- ==== Sys2Proof/Machine/Rows.lean ====
section
/-! DEFINITION. Physical register rows of a core: which are free, moves, grows, shrinks and promotions (R104, R107 to R112). -/

namespace Sys2Proof.Machine

/-- Physical rows of a core (Table 5.2). -/
def coreRows : Nat := 1024

/-- Groups in a core's slots, in slot order. -/
def Core.held (c : Core) : List Nat := c.groups.filterMap id

/-- The runs of rows in use on a core (base, length). -/
def rowsUsed (s : State) (core : Nat) : List (Nat × Nat) :=
  (s.core core).held.map fun g => ((s.group g).vbase, (s.group g).vres)

def rowsFree (s : State) (core : Nat) : Nat := coreRows - ((rowsUsed s core).map (·.2)).sum

/-- Rows b to b + n − 1 exist and are free. -/
def runFree (used : List (Nat × Nat)) (b n : Nat) : Bool :=
  decide (b + n ≤ coreRows) && used.all fun (lo, len) => len == 0 || lo + len ≤ b || b + n ≤ lo

/-- One of several places, by the state's next choice (R85, log 1). -/
def pickOf (s : State) (l : List Nat) : State × Nat :=
  ({ s with choices := s.choices.drop 1 }, getAt 0 l (getAt 0 s.choices 0 % l.length))

/-- A free run of n rows: which of them is a placement freedom (R85). -/
def pickRun (s : State) (core n : Nat) : Option (State × Nat) :=
  let used := rowsUsed s core
  let l := (List.range (coreRows + 1 - n)).filter fun b => runFree used b n
  if l.isEmpty then none else some (pickOf s l)

/-- Compaction (R111): the resident runs move down to adjoin each other in slot order. -/
def compact (s : State) (core : Nat) : State :=
  ((s.core core).held.foldl (fun ((s, b) : State × Nat) g =>
    let x := s.group g
    (s.setGroup g { x with vbase := b }, b + x.vres)) (s, 0)).1

/-- A free run of n rows, after compaction where that is needed. -/
def makeRun (s : State) (core n : Nat) : Option (State × Nat) :=
  match pickRun s core n with
  | some r => some r
  | none => if n ≤ rowsFree s core then pickRun (compact s core) core n else none

/-- A group's bound becomes n: the registers it gains are zero, whatever wrote them beyond the old bound, such as a load that TRET ran again (R109).
-/
def Group.bound (x : Group) (n : Nat) : Group :=
  { x with vbound := n, v := x.v.take x.vbound, vbad := x.vbad.filter fun (r, _) => match r with | .v k => k < x.vbound | _ => true }

/-- Steps 1 and 2 of R109 for a group and a bound n above VBOUND. The rows directly above the run number n − VRES. -/
def growNow (s : State) (g n : Nat) : Option State :=
  let x := s.group g
  if runFree (rowsUsed s x.core) (x.vbase + x.vres) (n - x.vres) then some (s.setGroup g { x.bound n with vres := n })
  else match makeRun s x.core n with
    | some (s, b) => some (s.setGroup g { (s.group g).bound n with vbase := b, vres := n })
    | none => none

/-- A waiting instruction that holds no entry is complete: its lanes move past it. -/
def passHead (s : State) (g len : Nat) : State :=
  let x := s.group g
  match x.issueAddr with
  | none => s.setGroup g { x with wait := .none }
  | some a => post (s.setGroup g { x.advance (x.lanesAt a) a len with wait := .none }) g

/-- A waiting grow is met. -/
def endGrow (s : State) (g len : Nat) : State :=
  let core := (s.group g).core
  let c := s.core core
  passHead (s.setCore core { c with grows := c.grows.filter (· != g) }) g len

/-- RGROW_RETRY (R109): the waiting grows of a core in the order of their requests. -/
def retryGrows (s : State) : List Nat → State
  | [] => s
  | g :: l =>
    match (s.group g).wait with
    | .grow n _ len =>
      match growNow s g n with
      | some s => retryGrows (endGrow s g len) l
      | none => retryGrows s l
    | _ => retryGrows s l

def execRgrowRetry (core : Nat) (s : State) : Out := .next (if s.dev.status = 7 then s else retryGrows s (s.core core).grows)

/-- RGROW_TIMEOUT (R109, step 4). -/
def execRgrowTimeout (g : Nat) (s : State) : Out :=
  let x := s.group g
  match x.wait with
  | .grow n since len =>
    if s.dev.status = 7 || (s.core x.core).cycles - since < 4096 then .next s
    else .next (endGrow (s.setGroup g (x.bound n)) g len)
  | _ => .next s

/-- A group of a core that can be promoted, in ascending slot order (R112). -/
def promote (s : State) : List Nat → State
  | [] => s
  | g :: l =>
    let x := s.group g
    if x.vbound ≤ x.vres then promote s l
    else match pickRun s x.core x.vbound with
      | some (s, b) => promote (s.setGroup g { s.group g with vbase := b, vres := x.vbound }) l
      | none => promote s l

/-- REGISTER_PROMOTE (R112): only while no grow waits. -/
def execRegisterPromote (core : Nat) (s : State) : Out :=
  let c := s.core core
  if s.dev.status = 7 || !c.grows.isEmpty then .next s else .next (promote s c.held)

/-- A shrink (R110). -/
def Group.shrink (x : Group) (n : Nat) : Group :=
  { x with vbound := n, vres := min x.vres n, v := x.v.take n
           vbad := x.vbad.filter fun (r, _) => match r with | .v k => k < n | _ => true }

end Sys2Proof.Machine
end

