-- ==== Sys2Proof/Machine/System.lean ====
section
/-! DEFINITION. The system instructions (row 0xF_, R361, R374 to R379). -/

namespace Sys2Proof.Machine

/-- Row-granular instructions (R287). -/
def rowGranular (i : Instr) : Bool :=
  match fullView i with
  | some (0xE4, f) => f.xm.toNat < 4
  | some (op, _) => op == 0xE2 || op == 0xE3 || op == 0xE5
  | none => false

/-- TRAP.STATE (Table 15.4). -/
def Group.trapState (x : Group) : Word :=
  wd ((if x.frozen.isEmpty then 0 else 2 + 4 * (min 8 x.frozen.length - 1)) + (if x.inh then 1 else 0))

/-- GRP.VREG (Table 15.13). -/
def Group.vreg (x : Group) : Word := wd (x.vbase * 2 ^ 32 + x.vbound * 2 ^ 16 + x.vres)

/-- MAT.MROWS (Table 12.2): outside a handler every older instruction has completed. -/
def Group.mrows (x : Group) : Word :=
  if x.inh then match x.frozen.find? fun e => rowGranular e.instr with | some e => wd e.prog | none => 0 else 0

/-- The array state of a group that holds the baton; a restored holder that has not got it back sees what was saved with it (R120). -/
def heldArray (s : State) (g : Nat) : Option ArrayState :=
  let c := s.core (s.group g).core
  if c.holder = some g then some c.array else savedArray s g

/-- MAT.STATE (Table 12.3). A load into the shadow plane is complete before the next instruction issues, so SLD is 0. -/
def matState (s : State) (g : Nat) : Word :=
  match heldArray s g with
  | none => 0
  | some a =>
  let bit := fun (b : Bool) (k : Nat) => if b then 2 ^ k else 0
  wd (a.hf.toNat * 2 ^ 11 + bit a.sf 10 + bit a.af 9 + bit a.shadow.sparse 4 + bit (a.shadow.fmt == 11) 3 + bit a.active.sparse 2
    + bit (a.active.fmt == 11) 1 + 1)

/-- What SYSRD reads, by selector and lane (Table 15.13). -/
def sysValue (s : State) (g sel l : Nat) : Word :=
  let x := s.group g
  let f := x.frame
  match sel with
  | 0x00 => x.flags.setWidth 64
  | 0x10 => f.cause
  | 0x11 => f.lanes.setWidth 64
  | 0x12 => f.info
  | 0x13 => wd (f.pc % 2 ^ 57)
  | 0x14 => (getAt ({} : Lane) f.spcv l).word
  | 0x15 => (getAt 0 f.sj 0).setWidth 64
  | 0x16 => (getAt 0 f.sj 1).setWidth 64
  | 0x17 => (getAt 0 f.sj 2).setWidth 64
  | 0x18 => (getAt 0 f.sj 3).setWidth 64
  | 0x19 => x.trapState
  | 0x20 => (s.team x.team).wdog
  | 0x30 => x.vreg
  | 0x40 => x.mrows
  | 0x41 => matState s g
  | _ => 0

def execSysrd (f : Full) (s : State) : Out :=
  issue (.sysrd f) (fun is s =>
    regBody (fun is x => x.putRun f.d is.act 0 [(List.range 32).map (sysValue s is.g f.c.immNat)]) is s) s

/-- What SYSWR leaves in a group's registers: the flags clear where ones are written (Table 8.2a); TRAP.SPCV takes bits 56:0 of each
live element of a lane of active(); TRAP.SJn bits 31:0. A PC that is no multiple of 4 is kept, and its lane's instructions are fetched and issued
there once TRET restores it (DESIGN CHOICE, log 72). -/
def Group.sysWrite (x : Group) (sel : Nat) (act : Mask) (row : List Word) (w : Word) : Group :=
  let f := x.frame
  if sel = 0 then { x with flags := x.flags &&& ~~~w.setWidth 5 }
  else if sel = 0x14 then
    let put := fun (l : Nat) (y : Lane) => if act.getLsbD l && !y.x then { y with pc := wfield (getAt 0 row l) 0 57 } else y
    { x with frame := { f with spcv := (List.range f.spcv.length).map fun l => put l (getAt {} f.spcv l) } }
  else if 0x15 ≤ sel && sel ≤ 0x18 then { x with frame := { f with sj := setAt 0 f.sj (sel - 0x15) (w.setWidth 32) } }
  else x

def execSyswr (f : Full) (s : State) : Out :=
  issue (.syswr f) (fun is s =>
    let x := s.group is.g
    let row := x.regRow f.b 0
    let w := match lowLane is.act with | some l => getAt 0 row l | none => 0
    let s := if f.c.immNat = 0x20 then s.setTeam x.team { s.team x.team with wdog := w, fired := false } else s
    regBody (fun is x => x.sysWrite f.c.immNat is.act row w) is s) s

/-- TRET (R361). -/
def execTret (f : Full) (s : State) : Out :=
  issue (.tret f) (fun is s => post (runEntries (returnTrap s is.g (f.xm == 1)) is.g) is.g) s

/-- N of RGROW and RSHRINK (R376): bits 31:0 of C, or the immediate. -/
def boundArg (x : Group) (c : Src) : Nat :=
  match c with
  | .reg r => wfield (x.sreg r.num.toNat) 0 32
  | c => c.immNat

def execRgrow (f : Full) (s : State) : Out :=
  issue (.rgrow f) (fun is s =>
    let x := s.group is.g
    let n := boundArg x f.c
    if n == 0 || 256 < n then ownTrap is ⟨0x02, is.at_, wd n⟩ s
    else if n ≤ x.vbound then regBody (fun _ x => x) is s
    else match growNow s is.g n with
      | some s => regBody (fun _ x => x) is s
      | none =>
        let c := s.core x.core
        let s := s.setCore x.core { c with grows := c.grows ++ [is.g] }
        s.setGroup is.g { x with wait := .grow n c.cycles is.len }) s

def execRshrink (f : Full) (s : State) : Out :=
  issue (.rshrink f) (fun is s =>
    let x := s.group is.g
    let n := boundArg x f.c
    if n == 0 || 256 < n then ownTrap is ⟨0x02, is.at_, wd n⟩ s
    else regBody (fun _ x => if n < x.vbound then x.shrink n else x) is s) s

/-- ICSYNC (R377). -/
def execIcsync (f : Full) (s : State) : Out := issue (.icsync f) (regBody fun _ x => { x with buf := [] }) s

/-- TLBINV (R378); SYSPRIV is met before. -/
def execTlbinv (f : Full) (s : State) : Out := issue (.tlbinv f) (issueLogged (.tlbinv f) f) s

/-- TRACEMARK (R379). -/
def execTracemark (f : Full) (s : State) : Out :=
  issue (.tracemark f) (fun is s => regBody (fun _ x => x) is (traceGroup s 0x30 is.g is.act f.c.immNat)) s

end Sys2Proof.Machine
end

