-- ==== Sys2Proof/Machine/Room.lean ====
section
/-! DEFINITION. What a core or a cluster can hold (R104 to R106, R114, R115, R117), and which work comes next (R82 to R84, R121). -/

namespace Sys2Proof.Machine

/-- What one team needs (R105). -/
structure Fit where
  groups : Nat
  vregs  : Nat
  spad   : Nat
  trows  : Nat

/-- What a core offers: team slots, group slots, rows, scratchpad and tile store granules. -/
structure Room where
  teams  : Nat
  groups : Nat
  rows   : Nat
  spad   : Nat
  tile   : Nat

def Launch.fit (l : Launch) : Fit :=
  { groups := l.ngroups, vregs := wfield (l.w 3) 0 9, spad := wfield (l.w 3) 16 10, trows := wfield (l.w 3) 32 11 }

def Team.fit (t : Team) : Fit := { groups := t.ngroups, vregs := t.vregs, spad := t.spadKiB, trows := t.trows }

/-- Room for n teams (R105). -/
def Room.holds (r : Room) (f : Fit) (n : Nat) : Bool :=
  n ≤ r.teams && n * f.groups ≤ r.groups && n * f.groups * f.vregs ≤ r.rows && n * ncdiv f.spad 4 ≤ r.spad && n * ncdiv f.trows 16 ≤ r.tile

/-- How many teams of a crew fit, at most 4. -/
def Room.most (r : Room) (f : Fit) : Nat := ((List.range 5).filter (r.holds f)).length - 1

/-- A team that has left its core keeps its scratchpad until the last member of its crew retires (R115), on the core it left, wherever a save and a
restore take the other members (DESIGN CHOICE, log 64). -/
def keepsSpad (s : State) (t : Nat) : Bool :=
  let x := s.team t
  x.place.over && !x.groups.isEmpty && x.crew > 1 && (crewTeams s t).any fun u => !(s.team u).place.over

/-- What a core offers now; a power-gated core offers nothing (DESIGN CHOICE, log 71). -/
def roomNow (s : State) (k : Nat) : Room :=
  let c := s.core k
  if !(c.usable && c.powered) then ⟨0, 0, 0, 0, 0⟩ else
  let here := teamIds s fun t => t.core == k && t.place.onCore
  let kept := (teamIds s fun t => t.core == k && t.place.over).filter (keepsSpad s)
  let spad := ((here ++ kept).map fun t => ncdiv (s.team t).spadKiB 4).sum
  let tile := (here.map fun t => ncdiv (s.team t).trows 16).sum
  ⟨16 - (c.teams.filterMap id).length, 32 - c.held.length, rowsFree s k, c.spadCap - spad, c.tileCap - tile⟩

/-- What a core offers with every slot empty (R104, R106). -/
def roomFull (s : State) (k : Nat) : Room :=
  let c := s.core k
  if c.usable then ⟨16, 32, coreRows, c.spadCap, c.tileCap⟩ else ⟨0, 0, 0, 0, 0⟩

def coresOf (cluster : Nat) : List Nat := span (4 * cluster) 4

/-- Clusters of a context's partition (R117). -/
def partition (s : State) (c : Nat) : List Nat := (List.range 64).filter (s.ctx c).part.getLsbD

/-- Teams of a crew that the cores of a cluster hold together, as one function of a core's room says. -/
def clusterMost (room : Nat → Room) (f : Fit) (cluster : Nat) : Nat := ((coresOf cluster).map fun k => (room k).most f).sum

/-- Some cluster of the partition has the capacity for one crew (R106, R123). -/
def hasCapacity (s : State) (c : Nat) (f : Fit) (crew : Nat) : Bool :=
  (partition s c).any fun cl => crew ≤ clusterMost (roomFull s) f cl

/-- Eligible cores (R84, R105). -/
def eligibleCores (s : State) (c : Nat) (f : Fit) (crew : Nat) : List Nat :=
  ((partition s c).filter fun cl => crew ≤ clusterMost (roomNow s) f cl).flatMap fun cl =>
    (coresOf cl).filter fun k => 1 ≤ (roomNow s k).most f

/-- The device accepts and deals work: READY, and the backing region is in use (R108, R394). -/
def Dev.ready (d : Dev) : Bool := d.status == 3

/-- Registers of a context take writes: from READY on, in FATAL too (R6, R394). -/
def Dev.takesCtx (d : Dev) : Bool := d.status == 3 || d.status == 7
def State.deals (s : State) : Bool := s.dev.ready && wfield s.dev.rback 0 1 == 1

/-- The command unit deals a context's work: no pre-emption is under way (R366). -/
def Ctx.runs (x : Ctx) : Bool := x.pstate == 0 || x.pstate == 3

-- Dependences (R72) -----------------------------------------------------------------------------------------------------

/-- Valid prior-card dependences of a card: queue and position (Table 3.9). -/
def cardDeps (card : List Word) : List (Nat × Nat) :=
  (List.range 4).filterMap fun n =>
    let w := getAt 0 card (18 + n)
    if wfield w 63 1 = 1 then some (wfield w 48 8, wfield w 0 48) else none

/-- The card at a position of a queue of a context, if it has been accepted or rejected. -/
def cardAt (s : State) (c q pos : Nat) : Option Nat :=
  (List.range s.launches.length).find? fun l => (s.launch l).ctx == c && (s.launch l).queue == q && (s.launch l).pos == pos

def depsMet (s : State) (l : Nat) : Bool :=
  let x := s.launch l
  (cardDeps x.card).all fun (q, pos) => match cardAt s x.ctx q pos with | some m => (s.launch m).retired | none => false

-- Peg needs (R91) ---------------------------------------------------------------------------------------------------------

/-- Condition of a needed tile (Table 4.6). -/
inductive Need3 where
  | met | waits | stale (tile gen : Nat)
  deriving DecidableEq, Repr

def tileNeed (s : State) (x : Launch) (tile gen : Nat) : Need3 :=
  if x.metTiles.contains tile then .met
  else match pegAt s x.ctx tile with
    | none => .waits
    | some p =>
      if !p.set then .waits
      else if gdiff gen p.gen = 0 then .met
      else if gdiff gen p.gen > 0 then .waits
      else .stale tile p.gen

/-- Tiles a team needs with their generations (R73). -/
def teamTiles (x : Launch) (t : Nat) : List (Nat × Nat) :=
  (pegDecls x.card).flatMap fun d => (span (d.first t).toNat (d.cnt + 1)).map fun n => (n, d.gen)

/-- A team's pegs: stale where any tile is, else waiting where any waits. Of several stale tiles the first in the order of the declarations, then of
the tiles, is named: the spec names none (log 33). -/
def teamNeed (s : State) (x : Launch) (t : Nat) : Need3 :=
  let l := (teamTiles x t).map fun (n, g) => tileNeed s x n g
  match l.find? fun n => match n with | .stale _ _ => true | _ => false with
  | some n => n
  | none => if l.contains .waits then .waits else .met

def pegsMet (s : State) (l t : Nat) : Bool :=
  let x := s.launch l
  if x.fallback then x.prods.all fun m => (s.launch m).retired else teamNeed s x t == .met

/-- Undealt eligible teams of a launch, in ascending order (R82). -/
def eligible (s : State) (l : Nat) : List Nat :=
  let x := s.launch l
  if x.retired || !depsMet s l then [] else
  let un := missing x.teams x.gone
  let ok := un.filter (pegsMet s l)
  if x.crew ≤ 1 then ok
  else un.filter fun t => (span (t / x.crew * x.crew) x.crew).all ok.contains

-- Saved teams (R121, R122) ------------------------------------------------------------------------------------------------

def TeamAt.saved? : TeamAt → Bool
  | .saved _ => true
  | _ => false

/-- Room a restore needs: registers never limit it (R122). -/
def Team.restoreFit (t : Team) : Fit := { t.fit with vregs := 0 }

/-- Members of a crew that are saved. -/
def savedCrew (s : State) (t : Nat) : List Nat := (crewTeams s t).filter fun u => (s.team u).place.saved?

/-- A saved team may return to a core that already takes n teams of its crew: there is room, and if it was swapped from there, the core has issued for
another team since (R121). -/
def mayReturn (s : State) (t n k : Nat) : Bool := (s.team t).swapOff != some k && (roomNow s k).holds (s.team t).restoreFit (n + 1)

/-- The cores of a cluster for a list of saved teams: each takes the first, in ascending order, that can hold it beside those before it (R121). -/
def crewPlace (s : State) (cluster : Nat) : List Nat → List Nat → Option (List Nat)
  | [], placed => some placed
  | t :: l, placed =>
    match (coresOf cluster).find? fun k => mayReturn s t (placed.count k) k with
    | some k => crewPlace s cluster l (placed ++ [k])
    | none => none

/-- Clusters that can take a saved team or the saved members of its crew now: its context runs (R121, R122). The members are placed in ascending order
(DEDUCED, log 64). -/
def restoreClusters (s : State) (t : Nat) : List Nat :=
  let x := s.team t
  if !x.place.saved? || !(s.ctx x.ctx).runs then [] else
  (partition s x.ctx).filter fun cl => (crewPlace s cl (savedCrew s t) []).isSome

/-- Cores a saved team could be restored to now. -/
def restoreCores (s : State) (t : Nat) : List Nat :=
  (restoreClusters s t).flatMap fun cl => (coresOf cl).filter (mayReturn s t 0)

/-- The cores a restore uses: in the first cluster, the first core that can hold each team (R121). -/
def restorePlaces (s : State) (t : Nat) : Option (List Nat) :=
  (restoreClusters s t).head?.bind fun cl => crewPlace s cl (savedCrew s t) []

-- The order of R83 ----------------------------------------------------------------------------------------------------------

/-- Work that may come next: a launch's, or a task queue's. -/
inductive Work where
  | launch (l : Nat)
  | task (c q : Nat)
  deriving DecidableEq, Repr

/-- A task queue's descriptor as it stands, without a fault's effects. -/
def peek (s : State) (c va n : Nat) : Option (List Word) :=
  match checkAccess s (cuAccess s c .load va n) with
  | (s, .ok l) => some (wordsOf (readNow s l))
  | (_, .error _) => none

/-- A task descriptor's needs, with the group count of a record (Tables 4.7, 4.8). -/
def taskFit (d r : List Word) : Fit :=
  { groups := wfield (getAt 0 r 3) 0 5, vregs := wfield (getAt 0 d 1) 13 9, spad := wfield (getAt 0 d 1) 22 10, trows := wfield (getAt 0 d 1) 32 11 }

/-- Saved tasks of a queue that some core can take now. -/
def taskRestores (s : State) (c q : Nat) : List Nat :=
  (teamIds s fun t => t.ctx == c && t.place.saved? && (match t.task with | some (n, _) => n == q | none => false)).filter fun t =>
    !(restoreCores s t).isEmpty

/-- The priority of a task queue that has a record to pop, and the cores that can take it (R83). -/
def taskCores (s : State) (c q : Nat) : Option (Nat × List Nat) :=
  let x := s.ctx c
  if !x.wen || !x.runs then none else
  match peek s c (x.taskDesc q) 64 with
  | none => none
  | some d =>
    let w1 := getAt 0 d 1
    let tail := (getAt 0 d 3).toNat
    if wfield w1 63 1 = 0 || getAt 0 d 2 == getAt 0 d 3 || (x.stopped.contains (256 + q) && wfield (getAt 0 d 4) 63 1 == 1) then none
    else
      let r := (peek s c (wfield (getAt 0 d 0) 0 57 + 128 * (tail % 2 ^ wfield w1 0 5)) 128).getD []
      let cores := eligibleCores s c (taskFit d r) 1
      if cores.isEmpty then none else some (wfield w1 43 3, cores)

/-- The priority of a task queue that has work some core can take: a saved task to restore, or a record to pop. -/
def taskWaiting (s : State) (c q : Nat) : Option Nat :=
  match taskRestores s c q with
  | t :: _ => some (s.team t).prio
  | [] => (taskCores s c q).map (·.1)

/-- A launch has work that some core can take: a saved team to restore, or an eligible one. -/
def launchRestores (s : State) (l : Nat) : Bool :=
  (teamIds s fun t => t.launch == some l && t.place.saved?).any fun t => !(restoreCores s t).isEmpty

def launchWaiting (s : State) (l : Nat) : Bool :=
  let x := s.launch l
  (s.ctx x.ctx).runs && !x.retired &&
    (launchRestores s l || (!(eligibleCores s x.ctx x.fit x.crew).isEmpty && !(eligible s l).isEmpty))

/-- Rank of work: priority, 0 for a task or 1 for a launch, then queue number or LSEQ. -/
def workRanks (s : State) : List ((Nat × Nat × Nat) × Work) :=
  ((List.range 64).flatMap fun c => (List.range 8).filterMap fun q => (taskWaiting s c q).map fun p => ((p, 0, q), .task c q)) ++
  (((List.range s.launches.length).filter (launchWaiting s)).map fun l => (((s.launch l).prio, 1, (s.launch l).lseq), .launch l))

/-- The higher priority first; of equal ones tasks, then the lower queue number or LSEQ. -/
def rankBefore (a b : Nat × Nat × Nat) : Bool :=
  b.1 < a.1 || (a.1 == b.1 && (a.2.1 < b.2.1 || (a.2.1 == b.2.1 && a.2.2 < b.2.2)))

/-- The work R83 picks. Of equal rank, the lower context's task queue, or the launch accepted first, is taken: the spec gives no order there
(log 32). -/
def bestWork (s : State) : Option Work :=
  ((workRanks s).foldl (fun (b : Option ((Nat × Nat × Nat) × Work)) w =>
    match b with
    | none => some w
    | some v => if rankBefore w.1 v.1 then some w else some v) none).map (·.2)

end Sys2Proof.Machine
end

