-- ==== Sys2Proof/Machine/Command.lean ====
section
/-! DEFINITION. The command unit: doorbells, acceptance, dealing, dispatch, tasks, retirement and completion records (R67 to R101,
R380, R381). -/

namespace Sys2Proof.Machine

-- Doorbells (R79, R313) -------------------------------------------------------------------------------------------------

/-- DOORBELL: where it submits host cards, the host writes that precede it are passed on to each dispatch of those cards. -/
def execDoorbell (c : Nat) (v : BitVec 32) (s : State) : Out :=
  let q := v.toNat % 256
  if !s.dev.ready then .next s else
  match queueRead s c q true with
  | (s, false) => .next s
  | (s, true) =>
    let (s, view, n) := release s .host s.hostView .system .every
    let s := { s with hostView := view }
    let x := s.ctx c
    .next (s.setCtx c { x with doorRels := putPair x.doorRels q n })

-- Checks of a card (R69 to R74, Table 3.13) -----------------------------------------------------------------------------

/-- A region binding in use (Table 3.8). -/
structure Binding where
  base : Nat
  len  : Nat
  wr   : Bool
  gate : Nat

/-- The binding whose three words begin with w0. -/
def bindingOf (w0 w1 w2 : Word) : Option Binding :=
  if wfield w2 58 1 = 1 then some { base := wfield w0 0 57, len := wfield w1 0 48, wr := wfield w2 59 1 == 1, gate := wfield w2 0 57 } else none

def cardBindings (card : List Word) : List Binding :=
  (List.range 4).filterMap fun n => bindingOf (getAt 0 card (6 + 3 * n)) (getAt 0 card (7 + 3 * n)) (getAt 0 card (8 + 3 * n))

def Binding.overlaps (b : Binding) (base len : Nat) : Bool := b.base < base + len && base < b.base + b.len

def Binding.misaligned (b : Binding) : Bool := b.base % 128 != 0 || b.len == 0 || b.len % 128 != 0 || b.gate % 8 != 0

/-- A gate word takes in some byte of a range. -/
def gateIn (gate base len : Nat) : Bool := base < gate + 8 && gate < base + len

/-- One binding fails R71 against others (base, length, gate): its range, and its own gate word, against theirs. A range over the gate word of a
region already live passes: R71 does not name it, though R309 puts every gate word in the ambient region (DEDUCED, log 60). -/
def Binding.bad (b : Binding) (others : List (Nat × Nat × Nat)) : Bool :=
  b.misaligned || gateIn b.gate b.base b.len ||
  others.any fun (base, len, _) => b.overlaps base len || gateIn b.gate base len

/-- R71 for the bindings of a card, each against the card's others and the live regions. -/
def bindingsBad (live : List (Nat × Nat × Nat)) (l : List Binding) : Bool :=
  live.length + l.length > 64 ||
  (List.range l.length).any fun i =>
    match l[i]? with
    | none => false
    | some b => b.bad (live ++ ((List.range l.length).filterMap fun j => if j = i then none else (l[j]?).map fun x => (x.base, x.len, x.gate)))

def liveRegions (s : State) (c : Nat) : List (Nat × Nat × Nat) := (s.ctx c).regions.map fun r => (r.base, r.len, r.gate)

/-- R73, R74: every range stays inside the tile identifiers. -/
def pegsBad (x : Launch) : Bool :=
  ((pegDecls x.card).any fun d => [0, x.teams - 1].any fun t => d.first t < 0 || d.first t + (d.cnt : Int) ≥ 2 ^ 24) ||
  (pegOuts x.card).any fun o => o.base + o.cnt ≥ 2 ^ 24

def Launch.crec (x : Launch) : Nat := wfield (x.w 5) 0 57
def Launch.validCrec (x : Launch) : Bool := x.crec != 0 && x.crec % 64 == 0

/-- The reason code of the first check that fails, or 0 (R69). -/
def cardReason (s : State) (x : Launch) : Nat :=
  let f := x.fit
  if x.teams = 0 then 1
  else if x.ngroups = 0 || x.ngroups > 16 || x.crew = 0 || x.crew > 4 then 2
  else if x.teams % x.crew ≠ 0 then 3
  else if f.vregs = 0 || f.vregs > 256 || f.groups * f.vregs > 1024 || f.spad > 512 || f.trows > 1024 || !hasCapacity s x.ctx f x.crew then 4
  else if wfield (x.w 0) 0 2 ≠ 0 || wfield (x.w 1) 0 6 ≠ 0 || x.crec % 64 ≠ 0 then 5
  else if bindingsBad (liveRegions s x.ctx) (cardBindings x.card) then 6
  else if pegsBad x then 7
  else if (cardDeps x.card).any fun (q, pos) => q == x.queue && x.pos ≤ pos then 8
  else if wfield (x.w 3) 48 6 ≠ x.ctx then 9
  else 0

-- Producers (R87) and reservations (R88) ----------------------------------------------------------------------------------

/-- Tiles of the union of a card's spans. -/
def spanTiles (x : Launch) : List Nat :=
  (pegDecls x.card).foldl (fun acc d => let (lo, hi) := d.span x.teams; uni acc (span lo (hi + 1 - lo))) []

/-- Accepted cards of a context that have not retired. -/
def openCards (s : State) (c : Nat) : List Nat :=
  (List.range s.launches.length).filter fun l => (s.launch l).ctx == c && !(s.launch l).retired

/-- Cards that wait for a card at (queue, position), by chains of dependences and peg waits. -/
def waitersOf (s : State) (c : Nat) : Nat → List (Nat × Nat) → List Nat → List Nat
  | 0, _, acc => acc
  | fuel + 1, goals, acc =>
    let new := (openCards s c).filter fun l =>
      let x := s.launch l
      !acc.contains l && ((cardDeps x.card).any goals.contains || x.prods.any acc.contains)
    if new.isEmpty then acc
    else waitersOf s c fuel (goals ++ new.map fun l => ((s.launch l).queue, (s.launch l).pos)) (acc ++ new)

def producers (s : State) (x : Launch) : List Nat :=
  let ws := waitersOf s x.ctx (s.launches.length + 1) [(x.queue, x.pos)] []
  let spans := (pegDecls x.card).map fun d => d.span x.teams
  (openCards s x.ctx).filter fun l =>
    !ws.contains l && (pegOuts (s.launch l).card).any fun o => spans.any fun (lo, hi) => o.base ≤ hi && lo ≤ o.base + o.cnt

/-- The reservations of R88: the board and the launch with its tiles, or the fallback path. -/
def reserve (s : State) (x : Launch) : State × Launch :=
  let tiles := spanTiles x
  let have_ := tiles.filter fun n => (pegAt s x.ctx n).isSome
  let covered := fun n => x.prods.any fun l => (pegOuts (s.launch l).card).any fun o => o.covers n
  let make := tiles.filter fun n => (pegAt s x.ctx n).isNone && covered n
  let s' := have_.foldl (fun s n => match pegAt s x.ctx n with | some p => setPeg s { p with count := p.count + 1 } | none => s) s
  if pegRoom s' < make.length then (s, { x with fallback := true })
  else
    let s' := make.foldl (fun s n => addPeg s { ctx := x.ctx, tile := n, count := 1 }) s'
    (s', { x with held := have_ ++ make, metTiles := tiles.filter fun n => !have_.contains n && !make.contains n })

-- Completion records (R75, R76) ---------------------------------------------------------------------------------------------

def Launch.status (x : Launch) : Nat := if x.purged then 4 else if x.placeK then 5 else if x.killed ≠ 0 then 2 else 1

/-- Words 0 to 7 (Table 3.12). Where no team was killed, FINFO is 0 as FCAUSE is, and so are the counts, FINFO and MAXCYC of a rejected card, which
the table does not give (DESIGN CHOICE, log 59). -/
def Launch.record (x : Launch) (status reason : Nat) : List Nat :=
  let b := fun (p : Bool) (k : Nat) => if p then 2 ^ k else 0
  let (ft, fc, fi) := x.first.getD (0, 0, 0)
  [x.tag * 2 ^ 32 + b x.purged 18 + b x.det 17 + b x.fallback 16 + reason * 2 ^ 8 + status,
   x.lseq, x.killed * 2 ^ 32 + x.done, x.flags.toNat, ft * 2 ^ 16 + fc, fi, x.maxcyc, 0]

/-- The view whose release covers what a launch's parties wrote and acquired (Table 13.3). -/
def launchView (s : State) (l : Nat) : MemView :=
  retireView s ((teamIds s fun t => t.launch == some l).flatMap fun t => (s.team t).groups)

/-- A release by the command unit at system scope of what a view holds and of the command unit's own earlier writes, which precede it in its order
(R312, R314). -/
def cuRelease (s : State) (v : MemView) : State × Nat :=
  let cu := cuView s []
  let (s, _, n) := release s .cu { own := uni v.own cu.own, know := uni v.know cu.own, reached := v.reached } .system .every
  (s, n)

/-- Write a completion record: words 1 to 7, then word 0 as a release at system scope of all that is given and of those words. -/
def writeRecord (s : State) (l status reason : Nat) (v : MemView) : State :=
  let x := s.launch l
  let c := x.ctx
  if !x.validCrec then s else
  let w := (x.record status reason).map (toBytes 8)
  let s := match cuCheck s c .store x.crec 64 with
    | (s, .error _) => putErr s c ((s.ctx c).subDesc x.queue) 0x15 0 x.pos
    | (s, .ok _) =>
      let s := (cuWrite s c (x.crec + 8) (w.drop 1).flatten none).1
      let (s, n) := cuRelease s v
      (cuWrite s c x.crec (w.headD []) (some (.system, [n]))).1
  if x.posted then s else signal s c 0

-- Acceptance (R80, R81) -------------------------------------------------------------------------------------------------------

/-- The launch a card at a position makes, before its checks. The first card of a context has LSEQ 0: the spec counts positions and does not say
from what (log 34). -/
def newLaunch (s : State) (c q pos : Nat) (posted : Bool) (card : List Word) : Launch :=
  let x := s.ctx c
  { card, ctx := c, queue := q, pos, posted, lseq := x.lseq
    toks := (x.doorRels.filterMap fun (k, r) => if k = q then some r else none) ++
      (x.postRels.filterMap fun (k, p, r) => if k = q && p = pos then some r else none) ++
      s.launches.filterMap fun y => y.rel }

/-- A rejected card: it counts as retired (R81). -/
def rejectCard (s : State) (c desc : Nat) (x : Launch) (reason : Nat) : State :=
  let l := s.launches.length
  let s := { s with launches := s.launches ++ [{ x with retired := true }] }
  if x.validCrec then writeRecord s l 3 reason {} else putErr s c desc 0x13 reason x.pos

/-- An accepted card: producers, reservations and regions; a purge that queued it ends it (R100). -/
def acceptCard (s : State) (x : Launch) : State :=
  let l := s.launches.length
  let x := if (pegDecls x.card).isEmpty then x else { x with prods := producers s x }
  let (s, x) := if (pegDecls x.card).isEmpty then (s, x) else reserve s x
  let s := { s with launches := s.launches ++ [x] }
  let y := s.ctx x.ctx
  let s := s.setCtx x.ctx { y with regions := y.regions ++ (cardBindings x.card).map fun b =>
    { owner := some l, base := b.base, len := b.len, wr := b.wr, gate := b.gate } }
  match y.purges.find? fun p => p.tag == x.tag && p.q == x.queue && x.pos < p.upto with
  | some p => killUndealt (s.setLaunch l { s.launch l with purged := true }) l p.cause p.info (List.range x.teams)
  | none => s

/-- CARD_ACCEPT: the next card of a queue, when the command unit knows of one, by the descriptor that the last doorbell or JPOST read (R79) and the
RIDX the command unit has reached. -/
def execCardAccept (c q : Nat) (s : State) : Out :=
  let x := s.ctx c
  if !s.dev.ready || !x.wen || x.stopped.contains q then .next s else
  match x.queues.find? fun (k, _) => k == q with
  | none => .next s
  | some (_, w) =>
    let desc := x.subDesc q
    let d := subQueue w
    if d.widx ≤ d.ridx then .next s
    else match cuRead s c (d.base + 256 * (d.ridx % 2 ^ d.log2)) 256 with
      | (s, .error _) => .next (putErr (stopQueue s c q) c desc 0x14 0 d.ridx)
      | (s, .ok card) =>
        let l := newLaunch s c q d.ridx d.post (wordsOf card)
        let y := s.ctx c
        let ridx := wd ((d.ridx + 1) % 2 ^ 48)
        let s := s.setCtx c { y with
          lseq := y.lseq + 1, queues := y.queues.map fun (k, v) => (k, if k = q then setAt 0 v 3 ridx else v) }
        let reason := cardReason s l
        let s := if reason ≠ 0 then rejectCard s c desc l reason else acceptCard s l
        .next (cuWrite s c (desc + 24) (toBytes 8 ridx.toNat) (some (.system, []))).1

-- Dealing (R83, R84, R91) -----------------------------------------------------------------------------------------------------

/-- Kill the crews of a launch that have a stale member, each with the values of its lowest one (R91). -/
def killStale (s : State) (l : Nat) : State :=
  let x := s.launch l
  if x.retired || x.fallback || (pegDecls x.card).isEmpty then s else
  let un := missing x.teams x.gone
  let stale := un.filterMap fun t => match teamNeed s x t with | .stale n g => some (t, g * 2 ^ 24 + n) | _ => none
  stale.foldl (fun s (t, info) =>
    let crew := x.crew
    killUndealt s l 0x11 info ((span (t / crew * crew) crew).filter fun u => !(s.launch l).gone.contains u)) s

/-- A team dealt to a cluster, with the releases of the publications that made its pegs met (R92): none for a tile met at acceptance, nor on the
fallback path. -/
def dealTeam (s : State) (l cluster t : Nat) : State :=
  let x := s.launch l
  let f := x.fit
  let tiles := if x.fallback then [] else (teamTiles x t).filter fun (n, _) => !x.metTiles.contains n
  let tokens := tiles.foldl (fun acc (n, _) => match pegAt s x.ctx n with | some p => uni acc p.rels | none => acc) []
  let team : Team :=
    { ctx := x.ctx, launch := some l, t, ngroups := x.ngroups, crew := x.crew, vregs := f.vregs, spadKiB := f.spad, trows := f.trows
      det := x.det, prio := x.prio, tag := x.tag, budget := (x.w 4).toNat, entry := wfield (x.w 0) 0 57, place := .dealt cluster, tokens }
  ({ s with teams := s.teams ++ [team] }).setLaunch l { x with gone := x.gone ++ [t] }

/-- The chunk size of R84. -/
def chunkOf (e r crew : Nat) : Nat := ncdiv (max 1 (ncdiv r (2 * e))) crew * crew

/-- DEALING_PASS: pegs are evaluated, then a chunk of the launch R83 picks goes to the cluster. -/
def execDealingPass (cluster : Nat) (s : State) : Out :=
  if !s.deals then .next s else
  let s := (List.range s.launches.length).foldl killStale s
  match bestWork s with
  | some (.launch l) =>
    let x := s.launch l
    let cores := eligibleCores s x.ctx x.fit x.crew
    if launchRestores s l || !(cores.any fun k => k / 4 == cluster) then .next s
    else
      let el := eligible s l
      .next ((el.take (chunkOf cores.length el.length x.crew)).foldl (fun s t => dealTeam s l cluster t) s)
  | _ => .next s

-- Dispatch (R68, R94, R107, R114) -----------------------------------------------------------------------------------------------

def freeSlots (l : List (Option Nat)) (n : Nat) : List Nat := (List.range n).filter fun i => (getAt none l i).isNone

/-- Start one group of a team. Its dispatch acquires every region, as Table 13.3 gives it; for a task R94 names the ambient region alone (log 36). -/
def startGroup (s : State) (t core : Nat) (sregs : List Word) (sc : Scope) (toks : List Nat) (idx : Nat) : State :=
  let team := s.team t
  let g := s.groups.length
  let (s, base) := (makeRun s core team.vregs).getD (s, 0)
  let (s, slot) := pickOf s (freeSlots (s.core core).groups 32)
  let x : Group :=
    { team := t, idx, core, slot, lanes := List.replicate 32 { pc := team.entry }, s := sregs, vbase := base, vbound := team.vregs, vres := team.vregs }
  let s := { s with groups := s.groups ++ [x] }
  let c := s.core core
  let s := s.setCore core { c with groups := setAt none c.groups slot (some g) }
  let s := s.setTeam t { s.team t with groups := (s.team t).groups ++ [g] }
  s.setGroup g { x with view := acquire s (.grp g) {} sc .every toks }

def startGroups (s : State) (t core : Nat) (sregs : List Word) (sc : Scope) (toks : List Nat) : List Nat → State
  | [] => s
  | i :: l => startGroups (startGroup s t core sregs sc toks i) t core sregs sc toks l

/-- A team takes its place on a core: slots, rows, its latched registers (R223, R351, R355), and its groups. -/
def startTeam (s : State) (t core : Nat) (sregs : List Word) (sc : Scope) (toks : List Nat) : State :=
  let team := s.team t
  let x := s.ctx team.ctx
  let (s, slot) := pickOf s (freeSlots (s.core core).teams 16)
  let c := s.core core
  let s := s.setCore core { c with teams := setAt none c.teams slot (some t) }
  let s := s.setTeam t { team with place := .resident, core, slot, heap := (x.heapbase, x.heaplen, x.heapoff), vec := x.trapvec, brk := x.brk }
  let s := startGroups s t core sregs sc toks (List.range team.ngroups)
  trace s 0x20 (s.team t) core slot 0 team.t

/-- Releases every dispatch of a launch's team acquires (R313, rule 3). -/
def dispatchToks (s : State) (t : Nat) : List Nat :=
  let team := s.team t
  match team.launch with
  | none => team.tokens
  | some l =>
    let x := s.launch l
    let deps := (cardDeps x.card).filterMap fun (q, pos) => cardAt s x.ctx q pos
    uni (uni team.tokens x.toks) ((deps ++ x.prods).filterMap fun m => (s.launch m).rel)

/-- One team of a launch starts with its argument record in S0 to S7, or is killed when the record cannot be read (R68, Table 4.10). -/
def dispatchTeam (s : State) (t core : Nat) : State :=
  let team := s.team t
  match team.launch with
  | none => s
  | some l =>
    let va := wfield ((s.launch l).w 1) 0 57 + 64 * team.t
    match cuRead s team.ctx va 64 with
    | (s, .error (kind, _)) => killTeam s t 0x07 (wd (kind * 2 ^ 60 + va % 2 ^ 57))
    | (s, .ok b) => startTeam s t core (wordsOf b) .system (dispatchToks s t)

def dispatchAll (s : State) : List (Nat × Nat) → State
  | [] => s
  | (t, k) :: l => dispatchAll (dispatchTeam s t k) l

/-- TEAM_DISPATCH: a dealt team, or its whole crew in order of rank, starts on cores of its cluster that can hold it.
A CTX.PART written since does not hold a dealt team back (DESIGN CHOICE, log 71). -/
def execTeamDispatch (team : Nat) (cores : List Nat) (s : State) : Out :=
  let x := s.team team
  match x.place, x.launch with
  | .dealt cl, some l =>
    let ms := crewTeams s team
    let earlier := teamIds s fun t => t.launch == some l && t.place == .dealt cl && t.t / t.crew < x.t / x.crew
    if s.deals && (s.ctx x.ctx).runs && earlier.isEmpty && cores.length == ms.length && (ms.all fun t => (s.team t).place == .dealt cl) &&
        cores.all fun k => k / 4 == cl && cores.count k ≤ (roomNow s k).most x.fit then
      .next (dispatchAll s (ms.zip cores))
    else .next s
  | _, _ => .next s

-- Tasks (R94 to R97, R106) --------------------------------------------------------------------------------------------------------

/-- Checks of a task record in order (R95). -/
def recordBad (r : List Word) : Bool :=
  let n := wfield (getAt 0 r 3) 0 5
  n = 0 || n > 16 || wfield (getAt 0 r 0) 0 2 ≠ 0 || wfield (getAt 0 r 2) 0 8 ≠ 0 ||
    wfield (getAt 0 r 0) 57 7 ≠ 0 || wfield (getAt 0 r 2) 57 7 ≠ 0 || wfield (getAt 0 r 3) 5 43 ≠ 0 || (span 4 4).any fun i => getAt 0 r i ≠ 0

/-- A stopping error of a task queue. -/
def taskStop (s : State) (c q desc code epos : Nat) : State := putErr (stopQueue s c (256 + q)) c desc code 0 epos

/-- TAIL advances by one. -/
def taskTail (s : State) (c desc tail : Nat) : State := (cuWrite s c (desc + 24) (toBytes 8 (tail + 1)) (some (.device, []))).1

/-- A task starts on a core (R94). -/
def startTask (s : State) (c q core tail : Nat) (d r : List Word) : State :=
  let f := taskFit d r
  let w1 := getAt 0 d 1
  let t := s.teams.length
  let team : Team :=
    { ctx := c, task := some (q, tail), jaddr := wfield (getAt 0 r 2) 0 57, ngroups := f.groups, vregs := f.vregs, spadKiB := f.spad
      trows := f.trows, det := wfield w1 62 1 == 1, prio := wfield w1 43 3, tag := wfield (getAt 0 r 3) 48 16, budget := (getAt 0 d 6).toNat
      entry := wfield (getAt 0 r 0) 0 57 }
  let x := s.ctx c
  let toks := x.taskRels.filterMap fun (k, p, rel) => if k = q && p = tail then some rel else none
  let s := taskTail s c ((s.ctx c).taskDesc q) tail
  startTeam { s with teams := s.teams ++ [team] } t core (setAt 0 ((r.drop 8).take 8) 60 (getAt 0 r 1)) .device toks

/-- A queue's descriptor names resources that no core of the partition has (R106). The descriptor gives no group count, so the test takes one group;
a record whose groups no core can hold waits at TAIL. VREGS of 0 or above 256, which no rule names for a task, count as too many (DESIGN CHOICE,
log 35). -/
def taskTooBig (s : State) (c : Nat) (d : List Word) : Bool :=
  let f := taskFit d []
  f.vregs = 0 || f.vregs > 256 || f.spad > 512 || f.trows > 1024 || !hasCapacity s c { f with groups := 1 } 1

/-- The pop of the record at TAIL by a core. -/
def popRecord (s : State) (c q core : Nat) (d : List Word) : State :=
  let desc := (s.ctx c).taskDesc q
  let ql := wfield (getAt 0 d 1) 0 5
  let qb := wfield (getAt 0 d 0) 0 57
  let tail := (getAt 0 d 3).toNat
  if ql < 4 || ql > 20 || qb % 4096 ≠ 0 then taskStop s c q desc 0x12 0
  else if !(s.ctx c).popped.contains q && taskTooBig s c d then taskStop s c q desc 0x22 0
  else match cuRead (s.setCtx c { s.ctx c with popped := uni (s.ctx c).popped [q] }) c (qb + 128 * (tail % 2 ^ ql)) 128 with
    | (s, .error _) => taskStop s c q desc 0x23 tail
    | (s, .ok b) =>
      let r := wordsOf b
      if (s.ctx c).purges.any fun p => p.q == 256 + q && tail < p.upto && p.tag == wfield (getAt 0 r 3) 48 16 then taskTail s c desc tail
      else if recordBad r then putErr (taskTail s c desc tail) c desc 0x20 0 tail
      else if (roomNow s core).most (taskFit d r) = 0 || !(s.ctx c).part.getLsbD (core / 4) || !(taskRestores s c q).isEmpty ||
           (bestWork s ≠ some (.task c q)) then s
      else startTask s c q core tail d r

/-- TASK_POP: a stopped queue goes on once software has cleared its error word. -/
def execTaskPop (c q core : Nat) (s : State) : Out :=
  let x := s.ctx c
  if !s.deals || !x.wen || !x.runs || 8 ≤ q then .next s else
  match cuRead s c (x.taskDesc q) 64 with
  | (s, .error _) => .next s
  | (s, .ok b) =>
    let d := wordsOf b
    let x := s.ctx c
    if wfield (getAt 0 d 1) 63 1 = 0 || getAt 0 d 2 = getAt 0 d 3 || (x.stopped.contains (256 + q) && wfield (getAt 0 d 4) 63 1 = 1) then .next s
    else .next (popRecord (s.setCtx c { x with stopped := x.stopped.filter (· != 256 + q) }) c q core d)

/-- PEND_PUSH (R97): the oldest pending continuation of a queue with space. One whose ring slot fails its checks is recorded as 0x24 and stays at
the head, where the next PEND_PUSH tries it again (DESIGN CHOICE, log 62). -/
def execPendPush (c q : Nat) (s : State) : Out :=
  let x := s.ctx c
  if !s.dev.ready || !x.wen || 8 ≤ q then .next s else
  let desc := x.taskDesc q
  match cuRead s c desc 64 with
  | (s, .error _) => .next s
  | (s, .ok b) =>
    let d := wordsOf b
    let j := wfield (getAt 0 d 5) 0 57
    let head := (getAt 0 d 2).toNat
    let ql := wfield (getAt 0 d 1) 0 5
    let slot := wfield (getAt 0 d 0) 0 57 + 128 * (head % 2 ^ ql)
    if j = 0 || head - (getAt 0 d 3).toNat ≥ 2 ^ ql then .next s
    else
      let (mq, pop) := match ((s.ctx c).pendBy.find? fun (o, _, _) => o == j) with | some (_, mq, pop) => (mq, pop) | none => (q, 0)
      match cuRead s c j 256 with
      | (s, .error _) => .next (putErr s c ((s.ctx c).taskDesc mq) 0x24 0 pop)
      | (s, .ok obj) =>
        match cuChecks s c [(.store, slot, 128), (.store, desc + 16, 8), (.store, desc + 40, 8)] with
        | (s, false) => .next (putErr s c ((s.ctx c).taskDesc mq) 0x24 0 pop)
        | (s, true) =>
          let pa := match checkAccess s (cuAccess s c .load j 8) with | (_, .ok (p :: _)) => p.pa | _ => 0
          let s := (cuWrite s c (desc + 40) (toBytes 8 (wfield (getAt 0 (wordsOf obj) 2) 0 57)) none).1
          let y := s.ctx c
          let s := s.setCtx c { y with pendBy := y.pendBy.filter fun (o, _, _) => o != j }
          .next (pushTask s c q head (wfield (getAt 0 d 0) 0 57) ql (obj.drop 128) (relsOfWord s (pa / 4 * 4)))

-- Retirement (R94, R380, R381) ------------------------------------------------------------------------------------------------------

/-- A resident team whose groups have ended and whose copy requests are gone (R380). -/
def mayRetire (s : State) (t : Nat) : Bool :=
  let x := s.team t
  s.dev.status != 7 && x.place == .resident && (x.groups.all fun g => (s.group g).ended) && !((s.core x.core).reqs.any fun r => r.team == t)

/-- A team leaves its core. -/
def leaveCore (s : State) (t : Nat) : State :=
  let s := freeTeam s t
  let x := s.team t
  trace (s.setTeam t { x with place := .retired }) 0x21 x x.core 0 0 x.t

/-- TASK_RETIRE (R94, R97). -/
def execTaskRetire (team : Nat) (s : State) : Out :=
  let x := s.team team
  match x.task with
  | some (q, pop) =>
    if !mayRetire s team then .next s else
    let (s, rels) := releaseTeam s x.ctx x.groups
    .next (joinDec (leaveCore s team) x.ctx q pop x.jaddr rels)
  | none => .next s

/-- TEAM_RETIRE (R380). -/
def execTeamRetire (team : Nat) (s : State) : Out :=
  let x := s.team team
  match x.launch with
  | some l =>
    if !mayRetire s team then .next s else
    let s := leaveCore (enterUnion s l x) team
    let y := s.launch l
    .next (s.setLaunch l { y with done := y.done + 1 })
  | none => .next s

/-- A launch's reservations go (Table 4.5). -/
def dropReservations (s : State) (x : Launch) : State :=
  x.held.foldl (fun s n => match pegAt s x.ctx n with | some p => setPeg s { p with count := p.count - 1 } | none => s) s

/-- LAUNCH_RETIRE (R381), its steps in order. -/
def execLaunchRetire (launch : Nat) (s : State) : Out :=
  let x := s.launch launch
  if s.launches.length ≤ launch || x.retired || !s.dev.ready || !(missing x.teams x.gone).isEmpty ||
      !(teamIds s fun t => t.launch == some launch && !t.place.over).isEmpty then .next s
  else
    let v := launchView s launch
    let (s, n) := cuRelease s v
    let s := retirePegs s x.ctx x.card n
    let s := dropReservations s x
    let y := s.ctx x.ctx
    let s := s.setCtx x.ctx { y with regions := y.regions.filter fun r => r.owner != some launch }
    let s := writeRecord s launch x.status 0 v
    .next (s.setLaunch launch { s.launch launch with retired := true, rel := some n })

-- Kills and purges (R354, R373) -------------------------------------------------------------------------------------------------------

/-- TEAM_KILL: a kill with a cause of Table 15.1, alone or from inside a handler. -/
def execTeamKill (team cause info : Nat) (s : State) : Out :=
  let code := cause % 0x100
  if s.dev.status = 7 || s.teams.length ≤ team || code = 0 || 0x1A < code || 0x200 ≤ cause then .next s
  else .next (killTeam s team cause (wd info))

/-- POISON_PURGE: a consumption by a group (R372, R373). -/
def execPoisonPurge (g cause info : Nat) (s : State) : Out :=
  if s.dev.status = 7 || s.groups.length ≤ g || (s.group g).ended || (cause ≠ 0x05 && cause ≠ 0x18) then .next s
  else .next (consume s g cause info)

end Sys2Proof.Machine
end

