-- ==== Sys2Proof/Machine/Fetch.lean ====
section
/-! DEFINITION. What happens at a group's issue address before an instruction issues: fetch, breakpoints, undecodable words, and the
entry of an asynchronous trap (R134, R137 to R143, R352, R355). -/

namespace Sys2Proof.Machine

/-- A code word: its value, or the fault, or the poison. -/
inductive CodeWord where
  | word (w : IWord)
  | fault
  | poison

/-- Latent poison that arrives with code (R143). -/
def logPoison (s : State) (g va : Nat) : State :=
  let t := s.team (s.group g).team
  logError s { ctx := t.ctx, what := 0x05, addr := va, tag := t.tag }

/-- A 128-byte line of code reaches the L1 instruction cache: one that carries a mark is dropped from it and logged, with the address of its first
marked word (R140, R143). -/
def arriveLine (s : State) (g va pa : Nat) : State :=
  match (List.range 32).find? fun k => (poisonIn s (pa / 128 * 128 + 4 * k) 4).isSome with
  | some k => logPoison s g (va / 128 * 128 + 4 * k)
  | none => s

/-- The value a fetch takes among the newest one and those that writes replaced, newest first: a free choice (log 8). -/
def pickWord (n : Nat) (now : IWord) : List IWord → Nat × IWord
  | [] => (n, now)
  | w :: l => if Config.pick n then (n + 1, w) else pickWord (n + 1) now l

/-- A code word as a group's fetch reads it (R141): each write behind which the release and the acquire stand is read; one without them, after the
last that has them, may be met or not, for each word by itself. -/
def codeValue (s : State) (g word : Nat) : State × IWord :=
  let v := (s.group g).view
  let loose := (writesTo s word).reverse.takeWhile fun (i, _) => !v.code.contains i
  match pickWord s.fresh (wordNow s word) (loose.map fun (_, w) => w.old) with
  | (n, w) => ({ s with fresh := n }, w)

/-- What stands at a code word's physical address. -/
def codeAt (s : State) (g pa : Nat) : State × CodeWord :=
  if (poisonIn s pa 4).isSome then (s, .poison) else
  match codeValue s g pa with
  | (s, w) => (s, .word w)

/-- The translation of a fetch's address, or a fault kind (R137): `ask` as in `translateAs`. -/
def codeXlat (s : State) (t : Nat) (ask : Option Bool) (va : Nat) : State × Except Nat Xlat :=
  if 2 ^ 57 ≤ va then (s, .error 3) else
  match translateAs s ask (s.team t).ctx (some t) va with
  | (s, .error (kind, _)) => (s, .error kind)
  | (s, .ok e) =>
    if !e.allows .fetch then (s, .error 2) else (s, .ok e)

/-- Where a code word stands by a translation. -/
def Xlat.codePiece (e : Xlat) (d : Dev) (va : Nat) : Piece := { va, pa := homeAddr d (e.pa + va % 2 ^ e.sh), len := 4, sh := e.sh }

/-- Read a code word at a place. Its line arrives with the first word that a fetch reads of it. -/
def codeThere (s : State) (g : Nat) (enters : Bool) (p : Piece) : State × CodeWord :=
  codeAt (if enters || p.va % 128 = 0 then arriveLine s g p.va p.pa else s) g p.pa

/-- Read a code word for a group through the page tables (R137): where it stands, and what the words of a later page of the same instruction use
where there is a choice (R142). Poison that the walk meets ends the fetch as a marked word does (DESIGN CHOICE, log 65). -/
def codeWord (s : State) (g : Nat) (enters : Bool) (ask : Option Bool) (va : Nat) : State × CodeWord × Option (Piece × Option Bool) :=
  let t := (s.group g).team
  match codeXlat s t ask va with
  | (s, .error kind) => if kind = 0x10 then (logPoison s g va, .poison, none) else (s, .fault, none)
  | (u, .ok e) =>
    let p := e.codePiece u.dev va
    match codeThere u g enters p with
    | (u, w) => (u, w, some (p, settles s (s.team t).ctx (some t) va e))

/-- The words after one that stands at a place: those in the same page use its translation, so that one instruction does not read two, and those in
the next use what it settled (R142). -/
def codeWords (s : State) (g va : Nat) (at_ : Option (Piece × Option Bool)) : Nat → State × Except (Nat × Bool) (List IWord)
  | 0 => (s, .ok [])
  | n + 1 =>
    let r := match at_ with
      | some (p, ask) =>
        if va / 2 ^ p.sh = p.va / 2 ^ p.sh then
          match codeThere s g false { p with va, pa := p.pa + (va - p.va) } with
          | (s, w) => (s, w, at_)
        else codeWord s g false ask va
      | none => codeWord s g false none va
    match r with
    | (s, .fault, _) => (s, .error (va, false))
    | (s, .poison, _) => (s, .error (va, true))
    | (s, .word w, p) =>
      match codeWords s g (va + 4) p n with
      | (s, .ok l) => (s, .ok (w :: l))
      | r => r

/-- The instruction whose word 0 has been read. Only LEN of word 0 is looked at. -/
def codeFrom (g va : Nat) : State × CodeWord × Option (Piece × Option Bool) → State × Except (Nat × Bool) (List IWord)
  | (s, .fault, _) => (s, .error (va, false))
  | (s, .poison, _) => (s, .error (va, true))
  | (s, .word w, p) =>
    match codeWords s g (va + 4) p (lenWords w - 1) with
    | (s, .ok l) => (s, .ok (w :: l))
    | r => r

/-- Word 0 stands in a page by a translation that its tables no longer hold, and the instruction's last word stands in a page that only its tables
translate: the two would combine, so word 0 is read anew (R142). -/
def wouldMix (s : State) (g va : Nat) : CodeWord × Option (Piece × Option Bool) → Bool
  | (.word w, some (p, some true)) =>
    let last := va + 4 * (lenWords w - 1)
    let t := (s.group g).team
    last / 2 ^ p.sh != va / 2 ^ p.sh && onlyNow s (s.team t).ctx (some t) last
  | _ => false

/-- An instruction's words, or the address of the first word that fails and whether poison is why. Of an instruction on two pages, one of which is
in no cache, both are read as the tables stand (DEDUCED, log 66). -/
def codeInstr (s : State) (g : Nat) (enters : Bool) (va : Nat) : State × Except (Nat × Bool) (List IWord) :=
  let r := codeWord s g enters none va
  codeFrom g va (if wouldMix r.1 g va r.2 then codeWord r.1 g false (some false) va else r)

def wordBytes (l : List IWord) : List Byte := l.flatMap fun w => toBytes 4 w.toNat

/-- Fill ahead with whole instructions up to 64 bytes; a failure or a marked word stops it silently (R137, R139, R143). -/
def fillAhead (s : State) (g : Nat) : Nat → Bool → Nat → List Byte → State × List Byte
  | 0, _, _, buf => (s, buf)
  | n + 1, enters, va, buf =>
    match codeInstr s g enters va with
    | (s, .ok l) =>
      if buf.length + 4 * l.length ≤ 64 then fillAhead s g n false (va + 4 * l.length) (buf ++ wordBytes l) else (s, buf)
    | (s, .error _) => (s, buf)

/-- Length in words of the instruction at an address, from word 0 where it can be read, else 1. -/
def lengthAt (s : State) (g a : Nat) : Nat :=
  match codeWord s g true none a with
  | (_, .word w, _) => lenWords w
  | _ => 1

/-- A fetch for the issue address, which is read from PCV (R137 to R139, R143, R370), with up to `ahead` further instructions. A marked word that it
needs is consumed: L2, which the fetch reads, still has the mark. -/
def fetchAt (s : State) (g a ahead : Nat) : State :=
  let x := s.group g
  if x.pcvBad then consumePcv s g
  else if !(x.fetched a).isEmpty then
    let held := x.fetched a
    let (s, buf) := fillAhead s g ahead true (a + held.length) held
    s.setGroup g { s.group g with buf, bufAt := a }
  else match codeInstr s g true a with
    | (s, .ok l) =>
      let (s, buf) := fillAhead s g ahead false (a + 4 * l.length) (wordBytes l)
      s.setGroup g { s.group g with buf, bufAt := a }
    | (s, .error (va, true)) => consume s g 0x05 va
    | (s, .error (va, false)) => enterTrap s g ⟨0x04, x.lanesAt a, wd va⟩ (lengthAt s g a) false a

/-- The instructions of a buffer before the one that holds an address, or all of them where none does. -/
def bufferUpto : Nat → Nat → List Byte → Nat → List Byte
  | 0, _, l, _ => l
  | fuel + 1, at_, l, va =>
    let n := 4 * lenWords (headWord l)
    if l.isEmpty || va < at_ then l
    else if va < at_ + n then []
    else l.take n ++ bufferUpto fuel (at_ + n) (l.drop n) va

/-- A code word reaches a group's core with a mark that L2 has not: the event is logged, and the group fetches the word again when it is needed
(R143). -/
def badCode (s : State) (g va : Nat) : State :=
  let x := s.group g
  if s.groups.length ≤ g || x.ended then s
  else (logPoison s g va).setGroup g { x with buf := bufferUpto 17 x.bufAt x.buf va }

/-- The enabled breakpoint that an address matches (R355). -/
def Team.breakAt (t : Team) (a : Nat) : Option Nat :=
  (List.range 4).find? fun n => let w := getAt 0 t.brk n; wfield w 0 1 == 1 && wfield w 2 55 * 4 == a

/-- The breakpoint a group meets at its issue address; after a return from its trap the same address does not match again. -/
def State.breakpoint (s : State) (g : Nat) : Option (Nat × Nat) :=
  let x := s.group g
  if x.inh then none
  else match x.issueAddr with
    | none => none
    | some a => if x.skipBrk = some a then none else ((s.team x.team).breakAt a).map fun n => (a, n)

/-- BRKPT at a group's issue address, which is read from PCV (R370). -/
def takeBreak (s : State) (g a n : Nat) : State :=
  let x := s.group g
  if x.pcvBad then consumePcv s g else enterTrap s g ⟨0x17, x.lanesAt a, wd n⟩ (lengthAt s g a) false a

/-- BREAKPOINT. -/
def execBreakpoint (g : Nat) (s : State) : Out :=
  let x := s.group g
  if s.groups.length ≤ g || x.ended || !onCore s x || !(x.wait == .none) then .next s
  else match s.breakpoint g with
    | none => .next s
    | some (a, n) => .next (takeBreak s g a n)

/-- FETCH. A breakpoint at the issue address traps before the fetch (R355). While a reported fault is waited on, a fetch that would fail is left
for later (R231). -/
def execFetch (g ahead : Nat) (s : State) : Out :=
  let x := s.group g
  if s.groups.length ≤ g || x.ended || !onCore s x then .next s
  else match x.issueAddr, x.wait with
    | some a, .none =>
      match s.breakpoint g with
      | some (b, n) => .next (takeBreak s g b n)
      | none => .next (fetchAt s g a ahead)
    | some a, .fault _ =>
      match codeInstr s g true a with
      | (_, .ok _) => .next (fetchAt s g a ahead)
      | (_, .error _) => .next (if x.pcvBad then consumePcv s g else s)
    | _, _ => .next s

/-- The 32-bit words of a byte list. -/
def wordsIn (l : List Byte) : List IWord := (List.range (l.length / 4)).map fun i => headWord (l.drop (4 * i))

/-- What stands at a group's issue address in its fetch buffer: nothing, words that do not decode, or an instruction. -/
inductive AtIssue where
  | empty
  | bad (ilen w0 w1 : Nat)
  | instr (i : Instr)
  deriving DecidableEq, Repr

def Group.atIssue (x : Group) : AtIssue :=
  match x.issueAddr with
  | none => .empty
  | some a =>
    match wordsIn (x.fetched a) with
    | [] => .empty
    | w0 :: l =>
      match decode (w0 :: l) with
      | .ok i => .instr i
      | .error _ => .bad (lenWords w0) w0.toNat (l.headD 0).toNat

/-- TRAP.INFO of ILL for the words at the issue address (R135): word 1 belongs to LEN 0b01 and 0b10. -/
def badInfo (w0 w1 : Nat) : Word :=
  let len := w0 % 4
  wd (w0 % 2 ^ 32 + if len = 1 || len = 2 then w1 % 2 ^ 32 * 2 ^ 32 else 0)

/-- ILLEGAL_INSTRUCTION_TRAP (R134, R135): only for the words that stand at the issue address, where they decode to no instruction. -/
def execIllegalInstructionTrap (g ilen w0 w1 : Nat) (s : State) : Out :=
  let x := s.group g
  if s.groups.length ≤ g || x.ended || !onCore s x || !(x.wait == .none) then .next s
  else match x.issueAddr with
    | none => .next s
    | some a =>
      if x.atIssue = .bad ilen w0 w1 && (s.breakpoint g).isNone then
        .next (if x.pcvBad then consumePcv s g else enterTrap s g ⟨0x01, x.lanesAt a, badInfo w0 w1⟩ ilen false a)
      else .next s

/-- TRAP_ENTRY: the watchdog trap that is due at a group's boundary (R352, R353). -/
def execTrapEntry (g : Nat) (s : State) : Out :=
  let x := s.group g
  if s.groups.length ≤ g || x.ended || !onCore s x || !x.wdog || x.inh then .next s else .next (takeWdog s g)

end Sys2Proof.Machine
end

