-- ==== Sys2Proof/Machine/Place.lean ====
section
/-! DEFINITION. Saving, swapping and restoring teams, pre-emption, placement errors (R118 to R123, R363 to R367), the watchdog (R357,
R358), the passing of cycles, and debug halts (R356). -/

namespace Sys2Proof.Machine

-- Save records (R363, R364) ---------------------------------------------------------------------------------------------

def TeamAt.record? : TeamAt → Option Nat
  | .saved r => some r
  | .placeErr r => some r
  | _ => none

def Ctx.nrec (x : Ctx) : Nat := wfield x.save 0 13

/-- Free records of a context, ascending. -/
def freeRecords (s : State) (c : Nat) : List Nat :=
  let used := (teamIds s fun t => t.ctx == c).filterMap fun t => (s.team t).place.record?
  (List.range (s.ctx c).nrec).filter fun r => !used.contains r

/-- Store bytes of a record: translated by pages; a sealed context's bytes are encrypted (R363, R386). -/
def putSave (s : State) (c va : Nat) (bytes : List Byte) : State :=
  match checkAccess s { ctx := c, heap := none, need := .store, va, n := bytes.length } with
  | (s, .error (kind, _)) => cuFail s c kind va
  | (s, .ok l) =>
    let x := s.ctx c
    let out := if x.sealed then
        (l.foldl (fun ((acc, rest) : List Byte × List Byte) p =>
          (acc ++ cipher x.key.toNat (p.pa / 32) (rest.take p.len), rest.drop p.len)) ([], bytes)).1
      else bytes
    clearPoison (writePieces s (cuView s []) ⟨.cu, 3, [], c⟩ none l out).1 (l.map fun p => (p.pa, p.len))

/-- Bytes that the header's private layout leaves open (R364, log 8). -/
def headerBytes (save lo n : Nat) : List Byte := (span lo n).map (Config.saveHeader save)

/-- Write a team's record (Table 15.9). -/
def writeSave (s : State) (t r : Nat) : State :=
  let x := s.team t
  let c := x.ctx
  let base := (wfield (s.ctx c).save 22 35 + r) * 2 ^ 22
  let n := s.fresh
  let s := putSave { s with fresh := n + 1 } c base (headerBytes n 0 0x10000)
  let s := x.groups.foldl (fun s g =>
    let y := s.group g
    putSave s c (base + 0x10000 + 0x10000 * y.idx) ((List.range y.vbound).flatMap fun v => (y.vrow v).flatMap fun w => toBytes 8 w.toNat)) s
  let s := putSave s c (base + 0x110000) ((List.range (x.spadKiB * 1024)).map (memGet x.spad))
  let s := putSave s c (base + 0x190000) ((List.range 4096).map fun k =>
    BitVec.ofNat 8 ((List.range 8).foldl (fun n i => n + if x.fbits.contains (8 * k + i) then 2 ^ i else 0) 0))
  let s := putSave s c (base + 0x191000) ((List.range (x.trows * 1024)).map (memGet x.tile))
  if x.array.isSome then putSave s c (base + 0x291000) (headerBytes n 0x291000 0x14000) else s

/-- Groups of a team reach their boundaries (R366). -/
def saveWaits (s : State) : List Nat → State
  | [] => s
  | g :: l => saveWaits (if (s.group g).ended then s else saveWait s g) l

/-- A resident team halts for a save, unless what its waits complete kills it (R373). -/
def haltTeam (s : State) (t : Nat) : State :=
  if (s.team t).place ≠ .resident then s else
  let s := saveWaits s (s.team t).groups
  if (s.team t).place ≠ .resident then s else s.setTeam t { s.team t with place := .halting }

/-- A halted team is written to a record and leaves its core: its copy requests and, for the baton's holder, the array state go with
it (R120, R269, R366), and what remains of that on the core passes as empty (R291). -/
def saveTeam (s : State) (t r : Nat) : State :=
  let x := s.team t
  let c := s.core x.core
  let reqs := (c.reqs.filter fun q => q.team == t).map fun q => { q with left := q.left ++ q.waiting.map (·.chunk), waiting := [] }
  let held := match c.holder with | some g => if x.groups.contains g then some (g, c.array) else none | none => none
  let s := s.setTeam t { x with reqs, array := held.or x.array }
  let s := writeSave s t r
  let s := if held.isSome then s.setCore x.core { s.core x.core with last := none, array := {} } else s
  let s := freeTeam s t
  let s := { s with groups := (List.range s.groups.length).map fun g => if x.groups.contains g then { s.group g with buf := [] } else s.group g }
  s.setTeam t { s.team t with place := .saved r }

-- Pre-emption (R365 to R367) ----------------------------------------------------------------------------------------------

/-- The bound of R363. -/
def recordBound (s : State) (c : Nat) : Nat :=
  16 * (((partition s c).flatMap coresOf).filter fun k => (s.core k).usable).length

def haltTeams (s : State) : List Nat → State
  | [] => s
  | t :: l => haltTeams (haltTeam s t) l

/-- A write of REQ in state 00 or 11. After a fatal error the register takes its state and no team is halted: its core is stopped (log 39). -/
def preemptReq (s : State) (c : Nat) : State :=
  let x := s.ctx c
  if !s.dev.takesCtx || !x.runs then s
  else if x.nrec < recordBound s c then s.setCtx c { x with pstate := 3 }
  else
    let s := s.setCtx c { x with pstate := 1 }
    if s.dev.status = 7 then s else haltTeams s (teamIds s fun t => t.ctx == c && t.place == .resident)

/-- PREEMPT_REQ. -/
def execPreemptReq (c : Nat) (s : State) : Out := .next (preemptReq s c)

def saveTeams (s : State) (c : Nat) : List Nat → State
  | [] => s
  | t :: l =>
    match freeRecords s c with
    | r :: _ => saveTeams (saveTeam s t r) c l
    | [] => saveTeams s c l

/-- PREEMPT_SAVE_DONE. -/
def execPreemptSaveDone (c : Nat) (s : State) : Out :=
  let ts := teamIds s fun t => t.ctx == c && t.place == .halting
  if (s.ctx c).pstate ≠ 1 || s.dev.status = 7 then .next s
  else
    let s := saveTeams s c ts
    .next (signal (s.setCtx c { s.ctx c with pstate := 2 }) c 2)

/-- A write of RESUME in state 10 or 11. -/
def preemptResume (s : State) (c : Nat) : State :=
  let x := s.ctx c
  if x.pstate = 2 || x.pstate = 3 then s.setCtx c { x with pstate := 0 } else s

/-- PREEMPT_RESUME. -/
def execPreemptResume (c : Nat) (s : State) : Out := .next (if s.dev.takesCtx then preemptResume s c else s)

-- The forward-progress swap (R118 to R121) ------------------------------------------------------------------------------------

/-- Some work waits for a core (R118). -/
def workWaits (s : State) (k : Nat) : Bool :=
  !(teamIds s fun t => t.place == .dealt (k / 4) && (s.ctx t.ctx).runs).isEmpty ||
  (teamIds s fun t => t.place.saved?).any (fun t => (restoreCores s t).contains k) ||
  ((List.range s.launches.length).any fun l =>
    let x := s.launch l
    !x.retired && (s.ctx x.ctx).runs && !(eligible s l).isEmpty && (eligibleCores s x.ctx x.fit x.crew).contains k) ||
  ((List.range 64).any fun c => (List.range 8).any fun q =>
    match taskCores s c q with | some (_, l) => l.contains k | none => false)

/-- The stall window in cycles, none when the swap is off (Table 5.5). -/
def window (s : State) : Option Nat :=
  let n := s.dev.fpwin.toNat
  if n = 0 then none else some (max n 4096)

def stalled (s : State) (k : Nat) : Bool :=
  match window s with
  | none => false
  | some w => decide (w ≤ (s.core k).stall) && workWaits s k

/-- LSEQ of a team's launch; a task has none, and ranks as 0 (DESIGN CHOICE, log 32). -/
def teamLseq (s : State) (t : Nat) : Nat :=
  match (s.team t).launch with
  | some l => (s.launch l).lseq
  | none => 0

/-- Order of R119: lowest PRIO, then highest LSEQ, then highest flat index. -/
def swapBefore (s : State) (a b : Nat) : Bool :=
  let x := s.team a
  let y := s.team b
  x.prio < y.prio || (x.prio == y.prio && (teamLseq s a > teamLseq s b || (teamLseq s a == teamLseq s b && x.t > y.t)))

/-- The team R119 chooses on a stalled core; of teams that its order leaves equal, the first by identity (DESIGN CHOICE, log 32). -/
def swapChoice (s : State) (k : Nat) : Option Nat :=
  let cands := (teamIds s fun t => t.core == k && t.place == .resident).filter fun t =>
    (crewTeams s t).all fun u => (s.team u).place.over || ((s.team u).place == .resident && stalled s (s.team u).core)
  cands.foldl (fun b t => match b with | none => some t | some u => if swapBefore s t u then some t else some u) none

/-- Save a swapped team, which may not return to its core until that core has issued for another. -/
def swapTeams (s : State) (c : Nat) : List Nat → State
  | [] => s
  | t :: l =>
    match freeRecords s c with
    | r :: _ =>
      let k := (s.team t).core
      let s := haltTeam s t
      if (s.team t).place ≠ .halting then swapTeams s c l else
      let s := saveTeam s t r
      let s := s.setTeam t { s.team t with swapOff := some k }
      swapTeams (s.setCore k { s.core k with stall := 0 }) c l
    | [] => swapTeams s c l

/-- FORWARD_PROGRESS_SWAP. -/
def execForwardProgressSwap (core : Nat) (s : State) : Out :=
  if !stalled s core || s.dev.status = 7 then .next s
  else match swapChoice s core with
    | none => .next s
    | some t =>
      let c := (s.team t).ctx
      let ms := (crewTeams s t).filter fun u => (s.team u).place == .resident
      let resident := (teamIds s fun y => y.ctx == c && y.place.onCore).length
      if (freeRecords s c).length < ms.length || (freeRecords s c).length - ms.length < resident - ms.length then .next s
      else .next (swapTeams s c ms)

-- Restore (R120 to R123) ------------------------------------------------------------------------------------------------------

/-- One group of a restored team: as many of its registers as fit in a free run are resident, and the others stand in the backing area of its new
slot (R122). -/
def restoreGroup (s : State) (core g : Nat) : State :=
  let x := s.group g
  if x.ended then s.setGroup g { x with core } else
  let n := min x.vbound (rowsFree s core)
  let (s, base) := (makeRun s core n).getD (s, 0)
  let (s, slot) := pickOf s (freeSlots (s.core core).groups 32)
  let c := s.core core
  let s := s.setCore core { c with groups := setAt none c.groups slot (some g) }
  backRows (s.setGroup g { s.group g with core, slot, vbase := base, vres := n, buf := [] }) g

def restoreGroups (s : State) (core : Nat) : List Nat → State
  | [] => s
  | g :: l => restoreGroups (restoreGroup s core g) core l

/-- A team returns to a core: its latched registers are taken afresh, a holder of the baton enters the queue at the front. -/
def restoreTeam (s : State) (t core : Nat) : State :=
  let x := s.team t
  let y := s.ctx x.ctx
  let (s, slot) := pickOf s (freeSlots (s.core core).teams 16)
  let c := s.core core
  let s := s.setCore core { c with teams := setAt none c.teams slot (some t), reqs := c.reqs ++ x.reqs }
  let s := s.setTeam t { x with
    place := .resident, core, slot, reqs := [], swapOff := none
    heap := (y.heapbase, y.heaplen, y.heapoff), vec := y.trapvec, brk := y.brk }
  let s := restoreGroups s core x.groups
  match x.array with
  | none => s
  | some (g, _) =>
    let c := s.core core
    let s := s.setCore core { c with queue := g :: c.queue }
    if c.holder.isNone then passBaton s core else s

def restoreAll (s : State) : List (Nat × Nat) → State
  | [] => s
  | (t, k) :: l => restoreAll (restoreTeam s t k) l

/-- The work a team belongs to, in the order of R83. -/
def teamWork (s : State) (t : Nat) : Option Work :=
  match (s.team t).launch, (s.team t).task with
  | some l, _ => some (.launch l)
  | none, some (q, _) => some (.task (s.team t).ctx q)
  | none, none => none

/-- No core or cluster of the partition can ever hold the team or crew (R123). -/
def nowhere (s : State) (t : Nat) : Bool :=
  !hasCapacity s (s.team t).ctx (s.team t).restoreFit (crewTeams s t).length

def placeErrors (s : State) : List Nat → State
  | [] => s
  | t :: l =>
    let x := s.team t
    match x.place with
    | .saved r => placeErrors (s.setTeam t { x with place := .placeErr r }) l
    | _ => placeErrors s l

/-- TEAM_RESTORE: a saved team, or its crew, returns when R83 picks its work; or PLACE is raised. -/
def execTeamRestore (team : Nat) (cores : List Nat) (s : State) : Out :=
  let x := s.team team
  let c := x.ctx
  if !x.place.saved? || !s.deals || !(s.ctx c).runs then .next s
  else
    let ms := savedCrew s team
    if nowhere s team then
      let s := placeErrors s ms
      .next (signal (s.setCtx c { s.ctx c with plerr := true }) c 3)
    else if restorePlaces s team == some cores && bestWork s == teamWork s team then
      .next (restoreAll s (ms.zip cores))
    else .next s

/-- One answered PLACE error (R123). -/
def answerPlace (s : State) : List Nat → State
  | [] => s
  | t :: l =>
    let x := s.team t
    match x.place with
    | .placeErr r => answerPlace (if nowhere s t then killTeam s t 0x19 0 else s.setTeam t { x with place := .saved r }) l
    | _ => answerPlace s l

/-- A write of 1 to PLERR: the bit clears, and the errors that wait are answered, unless a fatal error has stopped the command unit (log 39). -/
def plerrAck (s : State) (c : Nat) : State :=
  if !s.dev.takesCtx then s else
  let s := s.setCtx c { s.ctx c with plerr := false }
  if s.dev.status = 7 then s else answerPlace s (teamIds s fun t => t.ctx == c)

/-- PLERR_ACK. -/
def execPlerrAck (c : Nat) (s : State) : Out := .next (plerrAck s c)

-- Cycles and the watchdog (R357, R358) -------------------------------------------------------------------------------------------

/-- Cycles until a team's count next reaches a threshold whose event has not happened. -/
def Team.untilDog (t : Team) (n : Nat) : Nat :=
  let w := t.wdog.toNat
  if t.budget = 0 then n
  else if 2 * t.budget ≤ w then 0
  else if w < t.budget then min n (t.budget - w)
  else if w = t.budget && !t.fired then 0
  else min n (2 * t.budget - w)

/-- n cycles pass on a core, or fewer when a watchdog threshold falls within them (R118, R161, R356, R357). -/
def elapse (s : State) (k n : Nat) : State :=
  let c := s.core k
  if !c.powered || s.dev.status = 7 then s else
  let halted := coreHalted s k
  let here := teamIds s fun t => t.core == k && t.place.onCore
  let n := if halted then n else here.foldl (fun n t => (s.team t).untilDog n) n
  let stall := if halted then c.stall else if workWaits s k then c.stall + n else 0
  let s := s.setCore k { c with cycles := c.cycles + n, stall }
  here.foldl (fun s t =>
    let x := s.team t
    s.setTeam t { x with cycles := x.cycles + n, wdog := if halted || x.budget = 0 then x.wdog else x.wdog + wd n }) s

/-- WDOG is due for each group. -/
def raiseDog (s : State) : List Nat → State
  | [] => s
  | g :: l => raiseDog (if (s.group g).ended then s else s.setGroup g { s.group g with wdog := true }) l

/-- WDOG_BUDGET (R358). -/
def execWdogBudget (team : Nat) (s : State) : Out :=
  let x := s.team team
  if s.dev.status = 7 || !x.place.onCore || x.budget = 0 || x.wdog.toNat ≠ x.budget || x.fired then .next s
  else if wfield x.vec 0 1 = 0 then .next (killTeam s team 0x10 (wd x.budget))
  else .next (raiseDog (s.setTeam team { x with fired := true }) x.groups)

/-- WDOG_KILL (R358). -/
def execWdogKill (team : Nat) (s : State) : Out :=
  let x := s.team team
  if s.dev.status = 7 || !x.place.onCore || x.budget = 0 || x.wdog.toNat < 2 * x.budget then .next s
  else .next (killTeam s team 0x10 (wd x.budget))

-- Debug halts (R356, R386) ---------------------------------------------------------------------------------------------------------

/-- A write of DEV.DBG. -/
def writeDbg (s : State) (core : Nat) (halt : Bool) : State :=
  let s := { s with dev := { s.dev with dbgCore := core, dbgHalt := halt } }
  if halt && sealedHere s core then s else s.setCore core { s.core core with halted := halt }

def execHaltCore (core : Nat) (s : State) : Out := if 256 ≤ core then .next s else .next (writeDbg s core true)
def execUnhaltCore (core : Nat) (s : State) : Out := if 256 ≤ core then .next s else .next (writeDbg s core false)

end Sys2Proof.Machine
end

