-- ==== Sys2Proof/Machine/Device.lean ====
section
/-! DEFINITION. The device around the work: registers (R6, R388, R393), shootdowns (R368, R369), region tables (R310, R311), power and
temperature (R389, R390), fatal errors and dumps (R391), bring-up (R394), sealing and attestation (R386, R387), the node and the peer
ports (R338, R409), trace index reads, the host link, peer transactions and the management port (R392). -/

namespace Sys2Proof.Machine

-- Shootdowns --------------------------------------------------------------------------------------------------------------

/-- A translation concerns a shootdown: its page holds the address, or the whole context is named. -/
def Xlat.dropped (e : Xlat) : Option Nat → Bool
  | none => true
  | some va => e.holds va

/-- The shootdown that a write of DEV.SHOOT asks for. -/
def shootOf (s : State) (v : Word) : Shoot :=
  ⟨wfield v 0 6, if wfield v 7 1 = 1 then none else some (wfield s.dev.shootVA 12 45 * 4096), true⟩

/-- A write of DEV.SHOOT; one that finds 16 of them queued is held on the host link (R368). -/
def writeShoot (s : State) (v : Word) : State :=
  let r := shootOf s v
  if 16 ≤ (s.dev.shootQ.filter (·.host)).length || !s.dev.shootHeld.isEmpty then { s with dev := { s.dev with shootHeld := s.dev.shootHeld ++ [r] } }
  else shoot s r.ctx r.va true

/-- The oldest held write enters the queue when a slot is free. -/
def takeHeld (s : State) : State :=
  match s.dev.shootHeld with
  | r :: l =>
    if 16 ≤ (s.dev.shootQ.filter (·.host)).length then s
    else shoot { s with dev := { s.dev with shootHeld := l } } r.ctx r.va true
  | [] => s

def execShootdownPage (v : BitVec 64) (s : State) : Out := if wfield v 7 1 = 1 then .next s else .next (writeShoot s v)
def execShootdownAll (v : BitVec 64) (s : State) : Out := if wfield v 7 1 = 0 then .next s else .next (writeShoot s v)

/-- An upper entry concerns a shootdown: it stands for the address, or the whole context is named. -/
def WalkEnt.dropped (w : WalkEnt) : Option Nat → Bool
  | none => true
  | some va => w.va == va / 2 ^ (12 + 9 * w.level)

/-- A watch ends with a shootdown of the translation its MONITOR used; one made inside the heap window used none (R260). -/
def Watch.dropped (w : Watch) : Option Nat → Bool
  | none => w.sh != 0
  | some va => w.sh != 0 && va / 2 ^ w.sh == w.va / 2 ^ w.sh

/-- Every cached translation and upper entry that matches goes, and the watches made under them end (R369). -/
def dropXlats (s : State) (c : Nat) (va : Option Nat) : State :=
  let s := s.setCtx c { s.ctx c with tlb := (s.ctx c).tlb.filter fun e => !e.dropped va }
  { s with
    teams := s.teams.map fun (t : Team) => if t.ctx == c then { t with tlb := t.tlb.filter fun e => !e.dropped va } else t
    clusters := s.clusters.map fun (k : Cluster) =>
      { tlb := k.tlb.filter fun (n, e) => !(n == c && e.dropped va), walks := k.walks.filter fun w => !(w.ctx == c && w.dropped va) }
    groups := (List.range s.groups.length).map fun g =>
      let x := s.group g
      match x.watch with
      | some w => if (s.team x.team).ctx == c && w.dropped va then { x with watch := none } else x
      | none => x }

/-- TLBINVs whose shootdowns have completed. -/
def wakeShoots (s : State) : List Nat → State
  | [] => s
  | g :: l =>
    match (s.group g).wait with
    | .shoot n => wakeShoots (if n ≤ shotDone s then post (runEntries s g) g else s) l
    | _ => wakeShoots s l

/-- SHOOTDOWN_COMPLETE (R369), for the oldest one. -/
def execShootdownComplete (s : State) : Out :=
  match s.dev.shootQ with
  | [] => .next s
  | r :: q =>
    if s.dev.status = 7 then .next s else
    let s := dropXlats { s with dev := { s.dev with shootQ := q, shootDone := s.dev.shootDone + 1 } } r.ctx r.va
    .next (takeHeld (wakeShoots s (List.range s.groups.length)))

-- Region tables (R310, R311) ------------------------------------------------------------------------------------------------

/-- A context holds no accepted launch that has not retired and no task queued or resident (R311). -/
def idleCtx (s : State) (c : Nat) : Bool :=
  (openCards s c).isEmpty && (teamIds s fun t => t.ctx == c && !t.place.over).isEmpty &&
  (!(s.ctx c).wen || (List.range 8).all fun q =>
    match peek s c ((s.ctx c).taskDesc q) 64 with
    | some d => wfield (getAt 0 d 1) 63 1 == 0 || getAt 0 d 2 == getAt 0 d 3
    | none => true)

/-- Entries in use of a region table, with their indices. -/
def tableEntries (w : List Word) : List (Nat × Binding) :=
  (List.range 64).filterMap fun n => (bindingOf (getAt 0 w (4 * n)) (getAt 0 w (4 * n + 1)) (getAt 0 w (4 * n + 2))).map fun b => (n, b)

/-- An entry fails a check of R71 against the other entries of the table (R310). -/
def entryBad (l : List (Nat × Binding)) (n : Nat) (b : Binding) : Bool :=
  b.bad (l.filterMap fun (k, x) => if k = n then none else some (x.base, x.len, x.gate))

/-- The 64 entries are read once and every standing region is replaced. A table that cannot be read makes no region (log 24). -/
def applyRegions (s : State) (c : Nat) (v : Word) : State :=
  let put (s : State) (regions : List Region) (rej : Nat) : State :=
    s.setCtx c { s.ctx c with regtab := v, regPend := none, rej, regions }
  if wfield v 0 1 = 0 then put s [] 0 else
  let va := wfield v 11 46 * 2048
  match checkAccess s { ctx := c, heap := none, need := .load, va, n := 2048 } with
  | (s, .error (kind, _)) => put (cuFail s c kind va) [] 0
  | (s, .ok l) =>
    let es := tableEntries (wordsOf (readNow s l))
    let good := es.filter fun (n, b) => !entryBad es n b
    let bad := es.filter fun (n, b) => entryBad es n b
    put s (good.map fun (_, b) => { owner := none, base := b.base, len := b.len, wr := b.wr, gate := b.gate })
      (match bad with | (n, _) :: _ => n + 1 | [] => 0)

/-- REGTAB_APPLY. -/
def execRegtabApply (c : Nat) (s : State) : Out :=
  match (s.ctx c).regPend with
  | none => .next s
  | some v => if idleCtx s c && s.dev.status != 7 then .next (applyRegions s c v) else .next s

-- Peer ports (R338) -----------------------------------------------------------------------------------------------------------

def State.port (s : State) (n : Nat) : Port := getAt {} s.dev.ports n
def State.setPort (s : State) (n : Nat) (p : Port) : State := { s with dev := { s.dev with ports := setAt {} s.dev.ports n p } }

def Port.live (p : Port) : Bool := p.up && !p.quar

/-- LINK_TRAINED. -/
def execLinkTrained (port peer far : Nat) (ide : Bool) (s : State) : Out :=
  if 8 ≤ port then .next s else .next (s.setPort port { s.port port with up := true, peer := peer % 2 ^ 18, far := far % 8, ide })

/-- PORT_LINK_DOWN: a live port is quarantined and the collectives that use it recover, unless a fatal error has stopped Whist (R338, R391). -/
def execPortLinkDown (port : Nat) (s : State) : Out :=
  let p := s.port port
  if 8 ≤ port || !p.up then .next s
  else
    let s := s.setPort port { p with up := false, quar := true, ide := false }
    .next (if p.live && s.dev.status != 7 then dropPort s port else s)

/-- ACK_TIMEOUT; Whist, once stopped, has no message outstanding. -/
def execAckTimeout (port : Nat) (s : State) : Out :=
  let p := s.port port
  if 8 ≤ port || !p.live || s.dev.status = 7 then .next s else .next (dropPort (s.setPort port { p with quar := true }) port)

/-- A write of 1 to QUAR. -/
def clearQuar (s : State) (port : Nat) : State := s.setPort port { s.port port with quar := false }

/-- QUARANTINE_CLEAR. -/
def execQuarantineClear (port : Nat) (s : State) : Out := if 8 ≤ port then .next s else .next (clearQuar s port)

-- Register writes (R6, R393) ----------------------------------------------------------------------------------------------------

/-- The bits of a value in some fields (low bit, width). -/
def keepBits (v : Word) (l : List (Nat × Nat)) : Word := wd ((l.map fun (lo, n) => wfield v lo n * 2 ^ lo).sum)

/-- A write of CTX.PREEMPT, by the state it finds (R365). -/
def writePreempt (s : State) (c : Nat) (v : Word) : State :=
  let st := (s.ctx c).pstate
  let s := if wfield v 7 1 = 1 then plerrAck s c else s
  if st = 2 then if wfield v 1 1 = 1 then preemptResume s c else s
  else if wfield v 0 1 = 1 then preemptReq s c
  else if wfield v 1 1 = 1 then preemptResume s c
  else s

/-- A write of CTX.FRESP; a fatal error has stopped what it would answer (log 39). -/
def writeFresp (s : State) (c : Nat) (v : Word) : State :=
  if s.dev.status = 7 then s
  else if wfield v 62 2 = 1 then answerRetry s c (wfield v 0 48)
  else if wfield v 62 2 = 2 then answerFail s c (wfield v 0 48) else s

/-- A write to a register of a context (Table 16.7); ignored before READY (R394). A write of CTX.WORKTAB leaves what the command unit has read of
the queues, and the marks of those it has stopped or purged (DESIGN CHOICE, log 61). -/
def writeCtx (s : State) (c off : Nat) (v : Word) : State :=
  let x := s.ctx c
  if !s.dev.takesCtx || 64 ≤ c then s else
  match off with
  | 0x000 => s.setCtx c { x with worktab := keepBits v [(12, 45), (0, 1)], popped := [] }
  | 0x008 => s.setCtx c { x with part := v }
  | 0x010 => s.setCtx c { x with heapbase := keepBits v [(21, 36), (0, 1)] }
  | 0x018 => s.setCtx c { x with heaplen := keepBits v [(21, 31), (0, 1)] }
  | 0x020 => s.setCtx c { x with heapoff := keepBits v [(21, 43)] }
  | 0x028 => s.setCtx c { x with ptroot := keepBits v [(12, 40), (0, 1)] }
  | 0x030 => s.setCtx c { x with faultq := keepBits v [(12, 45), (0, 6)] }
  | 0x038 => s.setCtx c { x with fqTail := v.setWidth 32 }
  | 0x040 => writeFresp s c v
  | 0x048 => s.setCtx c { x with regPend := some (keepBits v [(11, 46), (0, 1)]) }
  | 0x050 => s.setCtx c { x with trapvec := keepBits v [(0, 57)] }
  | 0x058 => s.setCtx c { x with brk := setAt 0 x.brk 0 (keepBits v [(2, 55), (0, 1)]) }
  | 0x060 => s.setCtx c { x with brk := setAt 0 x.brk 1 (keepBits v [(2, 55), (0, 1)]) }
  | 0x068 => s.setCtx c { x with brk := setAt 0 x.brk 2 (keepBits v [(2, 55), (0, 1)]) }
  | 0x070 => s.setCtx c { x with brk := setAt 0 x.brk 3 (keepBits v [(2, 55), (0, 1)]) }
  | 0x078 => s.setCtx c { x with save := keepBits v [(22, 35), (0, 13)] }
  | 0x080 => writePreempt s c v
  | _ => s

/-- A write to a register of the physical function (Table 16.6). -/
def writeDev (s : State) (off : Nat) (v : Word) : State :=
  let d := s.dev
  match off with
  | 0x0010 => { s with dev := { d with rback := keepBits v [(30, 27), (0, 1)] } }
  | 0x0018 => writeDbg s (wfield v 0 8) (wfield v 8 1 == 1)
  | 0x0020 => writeShoot s v
  | 0x0028 => { s with dev := { d with shootVA := keepBits v [(12, 45)] } }
  | 0x0030 => { s with dev := { d with dump := keepBits v [(26, 26), (0, 1)] } }
  | 0x0040 => { s with dev := { d with trace := keepBits v [(12, 40), (7, 5), (0, 3)], twidx := 0 } }
  | 0x0048 => { s with dev := { d with trctx := v } }
  | 0x0060 => { s with dev := { d with fpwin := v.setWidth 32 } }
  | 0x0068 => { s with dev := { d with node := keepBits v [(8, 1), (0, 6)] } }
  | 0x0070 => { s with dev := { d with nodemap := v } }
  | 0x0100 => if wfield v 19 8 ≤ wfield v 11 8 then s else { s with dev := { d with pwrctl := keepBits v [(0, 27)] } }
  | 0x0800 => { s with dev := { d with whcfg := keepBits v [(0, 50)] } }
  | _ =>
    if 0x0840 ≤ off && off < 0x0880 && off % 8 = 0 then if wfield v 62 1 = 1 then clearQuar s ((off - 0x0840) / 8) else s
    else if 0x100000 ≤ off && off < 0x140000 then writeCtx s ((off - 0x100000) / 0x1000) (off % 0x1000) v
    else s

-- Register reads (R6, R388, R393) --------------------------------------------------------------------------------------------------

/-- The capability list (Table 16.3): the entries' identifiers and contents. How contents are laid out is the model's choice where the table does
not say (log 37). -/
def capEntries (d : Dev) (cores : List Core) : List (Nat × List Byte) :=
  let core := fun (c : Core) => toBytes 4 ((if c.usable then 2 ^ 31 else 0) + c.spadCap / 16 * 2 ^ 8 + c.tileCap / 8)
  [(0x0001, toBytes 8 (2 ^ 24 + 2 ^ 16 + 2 ^ 8)), (0x0002, cores.flatMap core), (0x0003, toBytes 8 d.capacity ++ toBytes 8 4096),
   (0x0004, toBytes 4 8 ++ toBytes 4 64), (0x0005, toBytes 4 128 ++ toBytes 4 1400),
   (0x0010, []), (0x0011, []), (0x0012, []), (0x0013, []), (0x0014, [])]

/-- Entries laid out one after another from an offset on: identifier, length and the next entry's offset, 0 for the last (R388). -/
def capBytes (off : Nat) : List (Nat × List Byte) → List Byte
  | [] => []
  | (n, b) :: l =>
    let next := off + 8 + b.length
    toBytes 8 (n + (8 + b.length) * 2 ^ 16 + (if l.isEmpty then 0 else next) * 2 ^ 32) ++ b ++ capBytes next l

def capList (s : State) : List Byte := capBytes 0x1000 (capEntries s.dev s.cores)

def padTo (n : Nat) (l : List Byte) : List Byte := (l ++ List.replicate n 0).take n

/-- What a register of a context reads (Table 16.7, R6): WO and reserved bits, and offsets the table does not list, read as zero. A pending write of
CTX.REGTAB reads as written. -/
def readCtx (s : State) (c off : Nat) : Word :=
  let x := s.ctx c
  match off with
  | 0x000 => x.worktab
  | 0x008 => x.part
  | 0x010 => x.heapbase
  | 0x018 => x.heaplen
  | 0x020 => x.heapoff
  | 0x028 => x.ptroot
  | 0x030 => x.faultq
  | 0x038 => x.fqHead ++ x.fqTail
  | 0x048 => (x.regPend.getD x.regtab) + wd ((if x.regPend.isSome then 2 ^ 8 else 0) + x.rej * 2)
  | 0x050 => x.trapvec
  | 0x058 => getAt 0 x.brk 0
  | 0x060 => getAt 0 x.brk 1
  | 0x068 => getAt 0 x.brk 2
  | 0x070 => getAt 0 x.brk 3
  | 0x078 => x.save
  | 0x080 => wd ((if x.plerr then 2 ^ 7 else 0) + x.pstate.toNat * 4)
  | 0x088 => if x.sealed then 1 else 0
  | _ => 0

/-- What a register of the physical function reads (Table 16.6). -/
def readDev (s : State) (off : Nat) : Word :=
  let d := s.dev
  match off with
  | 0x0000 => d.status.setWidth 64
  | 0x0008 => 0x1000
  | 0x0010 => d.rback
  | 0x0018 => wd ((if coreHalted s d.dbgCore then 2 ^ 9 else 0) + (if d.dbgHalt then 2 ^ 8 else 0) + d.dbgCore)
  | 0x0020 => wd (d.shootDone.toNat * 2 ^ 16)
  | 0x0028 => d.shootVA
  | 0x0030 => d.dump
  | 0x0040 => d.trace
  | 0x0048 => d.trctx
  | 0x0050 => wd (d.drops.toNat * 2 ^ 32 + d.twidx % 2 ^ 32)
  | 0x0060 => d.fpwin.setWidth 64
  | 0x0068 => d.node
  | 0x0070 => d.nodemap
  | 0x0100 => d.pwrctl
  | 0x0800 => d.whcfg
  | _ =>
    if 0x0400 ≤ off && off < 0x0800 then
      let n := (off - 0x0400) / 8
      wd (getAt 0 d.temp n * 2 ^ 8 + getAt 0 d.floor n * 2 ^ 4 + getAt 0 d.level n)
    else if 0x0840 ≤ off && off < 0x0880 then
      let p := getAt ({} : Port) d.ports ((off - 0x0840) / 8)
      wd ((if p.up then 2 ^ 63 else 0) + (if p.quar then 2 ^ 62 else 0) + p.peer)
    else if 0x1000 ≤ off && off < 0x2000 then wd (ofBytes ((padTo 0x1000 (capList s)).drop (off - 0x1000) |>.take 8))
    else if 0x100000 ≤ off && off < 0x140000 then readCtx s ((off - 0x100000) / 0x1000) (off % 0x1000)
    else 0

/-- A read over the host link of BAR0, of a context's virtual function or of the physical function. The spec gives aligned 8-byte reads; of any
other the model returns nothing (log 38). A read of DEV.TRIDX clears DROPS (RC). -/
def regRead (s : State) (ctx : Option Nat) (off n : Nat) : State :=
  if n ≠ 8 || off % 8 ≠ 0 then { s with dev := { s.dev with hostData := [] } } else
  match ctx with
  | some c => { s with dev := { s.dev with hostData := toBytes 8 (if off < 0x1000 then readCtx s c off else 0).toNat } }
  | none =>
    let d := { s.dev with hostData := toBytes 8 (readDev s off).toNat }
    { s with dev := if off = 0x0050 then { d with drops := 0 } else d }

/-- A read over the host link of a context's doorbell page: QDOORBELL is write-only and reads as zero, as does every other offset (R6, Table 4.3). -/
def bellRead (s : State) (_ctx _off n : Nat) : State := { s with dev := { s.dev with hostData := List.replicate n 0 } }

/-- A write to a register narrower than 8 bytes is ignored; the doorbell, in BAR2, takes its 4 bytes by DOORBELL (R393). -/
def regNarrow (s : State) (_ctx : Option Nat) (_off : Nat) (_data : List Byte) : State := s

/-- What the management port reads (R392): 0 the temperatures, 1 the power settings and levels, 2 the error log, 3 the capability list, 4
DEV.STATUS. The format on the port is the model's choice (log 38). -/
def mgmtData (s : State) (what : Nat) : List Byte :=
  let d := s.dev
  match what with
  | 0 => (List.range 128).map fun n => BitVec.ofNat 8 (getAt 0 d.temp n)
  | 1 => toBytes 8 d.pwrctl.toNat ++ (List.range 128).map fun n => BitVec.ofNat 8 (getAt 0 d.level n)
  | 2 => d.errlog.flatMap fun r => toBytes 8 r.ctx ++ toBytes 8 r.what ++ toBytes 8 r.addr ++ toBytes 8 r.tag
  | 3 => capList s
  | 4 => toBytes 8 d.status.toNat
  | _ => []

/-- REGISTER_WRITE: an aligned 8-byte write in BAR0 of a context's virtual function, or of the physical function. -/
def execRegisterWrite (ctx : Option Nat) (off : Nat) (v : BitVec 64) (s : State) : Out :=
  match ctx with
  | some c => .next (writeCtx s c off v)
  | none => .next (writeDev s off v)

/-- TRACE_INDEX_READ (R382): DROPS and WIDX are returned, and DROPS clears. -/
def execTraceIndexRead (s : State) : Out :=
  .next (regRead s none 0x0050 8)

-- Fatal errors, power, temperature (R389 to R391) ------------------------------------------------------------------------------------

/-- Bytes of a dump at a physical address, where memory is populated there; they end the marks of the sectors they fill (R372). -/
def dumpTo (s : State) (pa : Nat) (bytes : List Byte) : State :=
  if !populated s.dev pa bytes.length then s else
  let a := homeAddr s.dev pa
  clearPoison { s with mem := memWrite s.mem a bytes } [(a, bytes.length)]

/-- The dump at DBASE, while DEN is 1: the header and the 256 KiB of each core, in local, peer or host memory (R391). Its header depends on the
cause and the error log; what the manual does not lay out of it is free (log 8). A part whose place has no memory behind it is not written (log 55).
-/
def writeDump (s : State) (cause : Nat) : State :=
  let base := wfield s.dev.dump 26 26 * 2 ^ 26
  if wfield s.dev.dump 0 1 = 0 then s
  else
    let n := s.fresh
    let header := (List.range 4096).map (Config.dumpHeader n cause (s.dev.errlog.map fun r => (r.ctx, r.what, r.addr, r.tag)))
    let core := fun (s : State) (c : Nat) =>
      dumpTo s (base + 0x100000 + 0x40000 * c) ((span (0x100000 + 0x40000 * c) 0x40000).map (Config.dumpByte n))
    (List.range 256).foldl core (dumpTo { s with fresh := n + 1 } base header)

/-- A fatal error: everything stops, the dump is written, FATAL is set and the host signalled (R391). -/
def fatal (s : State) (cause : Nat) : State :=
  if s.dev.status = 7 then s else
  let s := writeDump (logError s { ctx := 0, what := cause, addr := 0 }) cause
  { s with dev := { s.dev with status := 7, alarm := true } }

def execFatalError (cause : Nat) (s : State) : Out := .next (fatal s cause)
def execFirmwareWatchdogExpiry (s : State) : Out := .next (fatal s 0)

/-- DUMP_REQUEST over the management port (R392). -/
def execDumpRequest (s : State) : Out := .next (writeDump s 0)

/-- The applied level of an island: the greater of the arbiter's level and the thermal floor (R389). -/
def applied (power floor : List Nat) : List Nat := (List.range 128).map fun i => max (getAt 0 power i) (getAt 0 floor i)

/-- POWER_ARBITRATION: a level from 0 to 15 for each island. -/
def execPowerArbitration (levels : List Nat) (s : State) : Out :=
  if levels.length ≠ 128 || levels.any (15 < ·) then .next s
  else .next { s with dev := { s.dev with power := levels, level := applied levels s.dev.floor } }

/-- A thermal floor after a sample (R390). -/
def newFloor (thi tlo temp floor : Nat) : Nat := if thi ≤ temp then min 15 (floor + 1) else if temp ≤ tlo then floor - 1 else floor

/-- THERMAL_SAMPLE: a temperature for each island. -/
def execThermalSample (temps : List Nat) (s : State) : Out :=
  if temps.length ≠ 128 || temps.any (255 < ·) then .next s
  else
    let d := s.dev
    let floor := (List.range 128).map fun i => newFloor (wfield d.pwrctl 19 8) (wfield d.pwrctl 11 8) (getAt 0 temps i) (getAt 0 d.floor i)
    let s := { s with dev := { d with temp := temps, floor, level := applied d.power floor } }
    .next (if temps.any (105 ≤ ·) then fatal s 1 else s)

/-- POWER_GATING: only a core that holds no team (R161, R369). -/
def execPowerGating (core : Nat) (on : Bool) (s : State) : Out :=
  if 256 ≤ core || !(teamIds s fun t => t.core == core && t.place.onCore).isEmpty then .next s
  else .next (s.setCore core { s.core core with powered := on })

/-- STRIKE_REPORT (R371): what the core discards it computes again from the same logged sources, so no value changes. -/
def execStrikeReport (_core : Nat) (s : State) : Out := .next s

-- Reset and bring-up (R394) -----------------------------------------------------------------------------------------------------------

/-- DEVICE_RESET: the reset state; memory beyond the host link and the peer ports is not the device's to reset, nor what the peers hold. That local
memory reads as zero afterwards is the model's choice (log 3). -/
def execDeviceReset (s : State) : Out :=
  let r := State.reset
  .next { r with
    mem := s.mem.filter fun c => nodeWindow 0 ≤ c.1
    agenda := s.agenda, cur := s.cur, fresh := s.fresh, choices := s.choices, clock := s.clock
    dev := { r.dev with seals := s.dev.seals, named := s.dev.named, trfresh := s.dev.trfresh } }

/-- Capacities of a core from the configuration image: 64 KiB units of scratchpad, units of 128 tile store rows (Table 5.2). -/
def coreFrom (c : Core) (u : Nat × Nat) : Core :=
  { c with spadCap := 16 * min 8 u.1, tileCap := 8 * min 8 u.2, usable := u.1 != 0 || u.2 != 0 }

/-- BRINGUP_STAGE: verified firmware; the configuration image, with the identity, the capacity and what is harvested, and memory; the links. An
image is valid only when both its signatures verify, and one that is not is refused (R387, R394). -/
def execBringupStage (image : Image) (usable : List (Nat × Nat)) (s : State) : Out :=
  let d := s.dev
  let valid := Config.ecdsaValid image.bytes && Config.lmsValid image.bytes
  if d.status = 0 then .next (if valid then { s with dev := { d with status := 1, firmware := Config.sha384 image.bytes } } else s)
  else if d.status = 1 then
    .next (if valid then { s with
      dev := { d with status := 2, capacity := image.capacity, config := Config.sha384 image.bytes, identity := Config.identity image.bytes }
      cores := (List.range 256).map fun k => coreFrom (s.core k) (getAt (8, 8) usable k) } else s)
  else if d.status = 2 then .next { s with dev := { d with status := 3 } }
  else .next s

-- Sealing and attestation (R386, R387) --------------------------------------------------------------------------------------------------

/-- SEAL_CONTEXT: refused unless every live port carries an IDE stream. -/
def execSealContext (c : Nat) (s : State) : Out :=
  let x := s.ctx c
  if !s.dev.ready || 64 ≤ c || x.sealed || s.dev.ports.any fun p => p.live && !p.ide then .next s
  else .next (({ s with dev := { s.dev with seals := s.dev.seals + 1 } }).setCtx c { x with sealed := true, tkey := Config.freshKey s.dev.seals })

/-- ATTESTATION_REPORT: what R387 lists, for the owner's key and the context's loaded images, with both signatures; the trace key leaves only here,
wrapped (R385). -/
def execAttestationReport (c : Nat) (ask : ReportAsk) (s : State) : Out :=
  let x := s.ctx c
  let d := s.dev
  if !d.ready || !x.sealed then .next s
  else
    let n := s.fresh
    let imgs := Config.sha384 ask.images
    let eph := Config.ephemeral n
    let key := Config.wrapKey x.tkey ask.owner
    let parts := [d.identity, d.firmware, d.config, imgs, toBytes 48 ask.nonce, eph, key]
    let r : Report := { identity := d.identity, firmware := d.firmware, config := d.config, images := imgs, nonce := ask.nonce, ephemeral := eph, traceKey := key
                        ecdsa := Config.ecdsaSign n d.identity parts, lms := Config.lmsSign n d.identity parts }
    .next ({ s with fresh := n + 1, dev := { d with reports := d.reports ++ [r] } }.setCtx c { x with eph := some n })

/-- KEY_UNWRAP: the content key, wrapped to the ephemeral key of the context's last report, enters the context's key slot. -/
def execKeyUnwrap (c : Nat) (wrapped : List (BitVec 8)) (s : State) : Out :=
  let x := s.ctx c
  match x.eph with
  | none => .next s
  | some n => if !s.dev.ready || !x.sealed then .next s else .next (s.setCtx c { x with key := Config.unwrapKey n wrapped })

-- The node (R409) ---------------------------------------------------------------------------------------------------------------------------

/-- NODE_CAPACITY_LEARNED: once software has set the member's bit. -/
def execNodeCapacityLearned (d capacity : Nat) (s : State) : Out :=
  if !s.dev.member d then .next s else .next { s with dev := { s.dev with nodeCap := putPair s.dev.nodeCap d capacity } }

-- The host link and peers (R252, R316, R386, R392) ----------------------------------------------------------------------------------------------

/-- A physical address range meets the heap window of a sealed context, by either of its names. -/
def inSealedWindow (s : State) (pa n : Nat) : Bool :=
  let a := homeAddr s.dev pa
  s.ctxs.any fun x =>
    let base := homeAddr s.dev ((wfield x.heapbase 21 36 * 2 ^ 21 + wfield x.heapoff 21 43 * 2 ^ 21) % 2 ^ 52)
    let len := wfield x.heaplen 21 31 * 2 ^ 21
    x.sealed && wfield x.heapbase 0 1 == 1 && base < a + n && a < base + len

/-- Writes the command unit has made, which the host's writes come after: R81 lets software clear an error word (log 25). -/
def cuWrites (s : State) : List Nat :=
  (List.range s.writes.length).filter fun i => match s.writes[i]? with | some w => w.party == .cu | none => false

/-- A foreign party's synchronising write and read at the home L2: class 0. What the party did before on its own side is not seen here; that a release
of its earlier writes precedes each of them is the model's choice (log 40). -/
def foreignWrite (s : State) (p : Party) (rank : Nat) (sc : Scope) (v : MemView) (pa : Nat) (data : List Byte) : State × MemView :=
  let v := if p == .host then { v with know := uni v.know (cuWrites s) } else v
  let (s, v, _) := release s p v sc .every
  let (s, v) := storeBytes s v ⟨p, 0, [rank], 64⟩ (some (sc, v.rels)) pa pa data
  (clearPoison s [(pa, data.length)], v)

def foreignRead (s : State) (p : Party) (sc : Scope) (v : MemView) (pa n : Nat) : MemView :=
  acquire s p (observeRange s p v sc (pa / 4 * 4) (n + pa % 4)) sc .every []

/-- HOST_LINK_ACCESS: a write of data, or a read of n bytes. Outside local memory, or in a sealed window, it is an Unsupported Request,
which returns nothing. -/
def execHostLinkAccess (pa : Nat) (data : List (BitVec 8)) (n : Nat) (s : State) : Out :=
  let len := if data.isEmpty then n else data.length
  if len = 0 || !localRange s.dev pa len || inSealedWindow s pa len then .next { s with dev := { s.dev with hostData := [] } }
  else
    let a := homeAddr s.dev pa
    if data.isEmpty then
      .next { s with hostView := foreignRead s .host .system s.hostView a n, dev := { s.dev with hostData := memRead s.mem a n } }
    else
      let (s, v) := foreignWrite s .host 128 .system s.hostView a data
      .next { s with hostView := v }

/-- A peer's plain store: it arrives as a foreign party's write and synchronises nothing (R313). -/
def peerStore (s : State) (p : PeerId) (a : Nat) (data : List Byte) : State :=
  let (s, v) := storeBytes s (s.peer p) ⟨.peer p, 0, [p.dev], 64⟩ none a a data
  (clearPoison s [(a, data.length)]).setPeer p v

/-- A peer's atomic operation, performed at this home L2 as one operation of class 3 (R317, R318), a release and an acquire where it says so; the old
value is its answer. -/
def peerAtomic (s : State) (p : PeerId) (a op ty rnd v cmp rho : Nat) (rel acq : Bool) (sc : Scope) : State :=
  let w := tyWidth ty
  let old := memNat s.mem a (w / 8)
  let new := (atomNew op ty w (rmodeOf rnd) old (v % 2 ^ w) (cmp % 2 ^ w) (rho % 2 ^ w)).1
  let s := if rel then let (s, v, _) := release s (.peer p) (s.peer p) sc .every; s.setPeer p v else s
  let (s, view) := atomicWrite s (observeRange s (.peer p) (s.peer p) sc a (w / 8)) (.peer p) 64 sc a a (toBytes (w / 8) new)
  (s.setPeer p (if acq then acquire s (.peer p) view sc .every [] else view)).send (.reply p (toBytes (w / 8) old))

/-- A peer's GACQ: granted at once, or queued behind earlier requests (R325). A malformed gate word is answered with nothing, for the peer to trap
(DEDUCED, log 40). -/
def peerGacq (s : State) (p : PeerId) (a : Nat) (shared : Bool) (sc : Scope) : State :=
  match gateWord s a with
  | none => s.send (.reply p [])
  | some w =>
    match if s.gateQ.any fun (q, _, _, _) => q == a then none else gateGrant w shared with
    | some w => peerTake s p sc a w
    | none => { s with gateQ := s.gateQ ++ [(a, .peer p, shared, sc)] }

/-- A peer's GREL: a hold is returned, and the queue's heads are granted (R325). -/
def peerGrel (s : State) (p : PeerId) (a : Nat) (sc : Scope) : State :=
  match gateWord s a with
  | none => s.send (.reply p [])
  | some (xh, n) =>
    if !xh && n = 0 then s.send (.reply p []) else
    let (s, v, _) := release s (.peer p) (s.peer p) sc .every
    let left := if xh then (false, 0) else (false, n - 1)
    grantHeads ((peerGateWrite (s.setPeer p v) p sc a left).send (.reply p (gateBytes left.1 left.2))) a s.gateQ.length

/-- A party outside writes, or with no data reads, host memory or a peer's, at their own home (R221): the host, or a party of a peer device. A plain
load of it leaves nothing here to see. Local memory it reaches by the rows of the table. -/
def away (s : State) (p : Option PeerId) (pa : Nat) (data : List Byte) (n sc : Nat) : State :=
  let len := if data.isEmpty then n else data.length
  if len = 0 || !populated s.dev pa len || isLocal s.dev pa then s else
  match p with
  | none =>
    if data.isEmpty then { s with hostView := foreignRead s .host .system s.hostView pa n }
    else
      let (s, v) := foreignWrite s .host 128 .system s.hostView pa data
      { s with hostView := v }
  | some p =>
    if data.isEmpty then if sc = 0 then s else s.setPeer p (foreignRead s (.peer p) (scopeOf sc) (s.peer p) pa n)
    else if sc = 0 then peerStore s p pa data
    else
      let (s, v) := foreignWrite s (.peer p) p.dev (scopeOf sc) (s.peer p) pa data
      s.setPeer p v

/-- Bytes a peer's operation takes in. -/
def peerSpan : PeerOp → Nat
  | .load n => n
  | .store data => data.length
  | .atomic _ ty _ _ _ _ _ _ => tyWidth ty / 8
  | .gacq _ => 8
  | .grel => 8

/-- The operand of an operation at the home L2 is aligned, and its operation and type are ones of Table 11.5. -/
def peerFine (pa : Nat) : PeerOp → Bool
  | .atomic op ty _ _ _ _ _ _ => pa % (tyWidth ty / 8) == 0 && (ty == 8 && op < 3 || op < 8 && [0, 1, 4, 5].contains ty)
  | .gacq _ => pa % 8 == 0
  | .grel => pa % 8 == 0
  | _ => true

/-- What a peer's load returns: with scope 0 what a plain load of that party does (R315), else the current bytes. -/
def peerLoad (s : State) (p : PeerId) (a n : Nat) (sc : Nat) : State :=
  if sc = 0 then s.send (.reply p (plainBytes s none (s.peer p) a n))
  else (s.setPeer p (foreignRead s (.peer p) (scopeOf sc) (s.peer p) a n)).send (.reply p (memRead s.mem a n))

/-- PEER_MEMORY_TRANSACTION (R392): a load's data, an atomic's old value or a gate's grant goes back as the answer. One outside local memory is
answered with nothing. -/
def execPeerMemoryTransaction (peer : PeerId) (pa : Nat) (op : PeerOp) (sc : Nat) (s : State) : Out :=
  let n := peerSpan op
  if n = 0 || !localRange s.dev pa n || !peerFine pa op then .next (s.send (.reply peer []))
  else
    let a := homeAddr s.dev pa
    match op with
    | .load n => .next (peerLoad s peer a n sc)
    | .store data =>
      if sc = 0 then .next (peerStore s peer a data)
      else
        let (s, v) := foreignWrite s (.peer peer) peer.dev (scopeOf sc) (s.peer peer) a data
        .next (s.setPeer peer v)
    | .atomic op ty rnd v cmp rho rel acq => .next (peerAtomic s peer a op ty rnd v cmp rho rel acq (scopeOf sc))
    | .gacq shared => .next (peerGacq s peer a shared (scopeOf sc))
    | .grel => .next (peerGrel s peer a (scopeOf sc))

end Sys2Proof.Machine
end

