-- ==== Sys2Proof/Machine/Dispatch.lean ====
section
/-! DEFINITION. One arm for each constructor of Instr: the meaning of each row of the opcode table. -/

namespace Sys2Proof.Machine

def exec (i : Instr) (s : State) : Host.Outcome State Fault Refusal :=
  match i with
  | .iaddShort f => Sys2Proof.Machine.execIaddShort f s
  | .iadd f => Sys2Proof.Machine.execIadd f s
  | .isubShort f => Sys2Proof.Machine.execIsubShort f s
  | .isub f => Sys2Proof.Machine.execIsub f s
  | .imul24 f => Sys2Proof.Machine.execImul24 f s
  | .imul32 f => Sys2Proof.Machine.execImul32 f s
  | .imulhi f => Sys2Proof.Machine.execImulhi f s
  | .imad24 f => Sys2Proof.Machine.execImad24 f s
  | .idiv f => Sys2Proof.Machine.execIdiv f s
  | .imin f => Sys2Proof.Machine.execImin f s
  | .imax f => Sys2Proof.Machine.execImax f s
  | .lea f => Sys2Proof.Machine.execLea f s
  | .andShort f => Sys2Proof.Machine.execAndShort f s
  | .and f => Sys2Proof.Machine.execAnd f s
  | .orShort f => Sys2Proof.Machine.execOrShort f s
  | .or f => Sys2Proof.Machine.execOr f s
  | .xorShort f => Sys2Proof.Machine.execXorShort f s
  | .xor f => Sys2Proof.Machine.execXor f s
  | .andn f => Sys2Proof.Machine.execAndn f s
  | .shlShort f => Sys2Proof.Machine.execShlShort f s
  | .shl f => Sys2Proof.Machine.execShl f s
  | .shrShort f => Sys2Proof.Machine.execShrShort f s
  | .shr f => Sys2Proof.Machine.execShr f s
  | .sarShort f => Sys2Proof.Machine.execSarShort f s
  | .sar f => Sys2Proof.Machine.execSar f s
  | .popc f => Sys2Proof.Machine.execPopc f s
  | .clz f => Sys2Proof.Machine.execClz f s
  | .bfx f => Sys2Proof.Machine.execBfx f s
  | .bfi f => Sys2Proof.Machine.execBfi f s
  | .icmp f => Sys2Proof.Machine.execIcmp f s
  | .isel f => Sys2Proof.Machine.execIsel f s
  | .movShort f => Sys2Proof.Machine.execMovShort f s
  | .mov f => Sys2Proof.Machine.execMov f s
  | .moviShort f => Sys2Proof.Machine.execMoviShort f s
  | .movi f => Sys2Proof.Machine.execMovi f s
  | .immhi f => Sys2Proof.Machine.execImmhi f s
  | .addpc f => Sys2Proof.Machine.execAddpc f s
  | .idrd f => Sys2Proof.Machine.execIdrd f s
  | .lmulShort f => Sys2Proof.Machine.execLmulShort f s
  | .lmul f => Sys2Proof.Machine.execLmul f s
  | .ldiv f => Sys2Proof.Machine.execLdiv f s
  | .lrcp f => Sys2Proof.Machine.execLrcp f s
  | .lsqrt f => Sys2Proof.Machine.execLsqrt f s
  | .lrsq f => Sys2Proof.Machine.execLrsq f s
  | .laddShort f => Sys2Proof.Machine.execLaddShort f s
  | .ladd f => Sys2Proof.Machine.execLadd f s
  | .lsubShort f => Sys2Proof.Machine.execLsubShort f s
  | .lsub f => Sys2Proof.Machine.execLsub f s
  | .lmacShort f => Sys2Proof.Machine.execLmacShort f s
  | .lmac f => Sys2Proof.Machine.execLmac f s
  | .lneg f => Sys2Proof.Machine.execLneg f s
  | .labs f => Sys2Proof.Machine.execLabs f s
  | .lminShort f => Sys2Proof.Machine.execLminShort f s
  | .lmin f => Sys2Proof.Machine.execLmin f s
  | .lmaxShort f => Sys2Proof.Machine.execLmaxShort f s
  | .lmax f => Sys2Proof.Machine.execLmax f s
  | .lcmp f => Sys2Proof.Machine.execLcmp f s
  | .lscale f => Sys2Proof.Machine.execLscale f s
  | .lext f => Sys2Proof.Machine.execLext f s
  | .lfrom f => Sys2Proof.Machine.execLfrom f s
  | .lcvt f => Sys2Proof.Machine.execLcvt f s
  | .ldot4 f => Sys2Proof.Machine.execLdot4 f s
  | .lrnd f => Sys2Proof.Machine.execLrnd f s
  | .cvt f => Sys2Proof.Machine.execCvt f s
  | .fexp2 f => Sys2Proof.Machine.execFexp2 f s
  | .fexp f => Sys2Proof.Machine.execFexp f s
  | .flog2 f => Sys2Proof.Machine.execFlog2 f s
  | .fln f => Sys2Proof.Machine.execFln f s
  | .fsinpi f => Sys2Proof.Machine.execFsinpi f s
  | .fcospi f => Sys2Proof.Machine.execFcospi f s
  | .ftanh f => Sys2Proof.Machine.execFtanh f s
  | .fsigm f => Sys2Proof.Machine.execFsigm f s
  | .ferf f => Sys2Proof.Machine.execFerf f s
  | .fsoftp f => Sys2Proof.Machine.execFsoftp f s
  | .fexp2A f => Sys2Proof.Machine.execFexp2A f s
  | .fexpA f => Sys2Proof.Machine.execFexpA f s
  | .flog2A f => Sys2Proof.Machine.execFlog2A f s
  | .flnA f => Sys2Proof.Machine.execFlnA f s
  | .fsinpiA f => Sys2Proof.Machine.execFsinpiA f s
  | .fcospiA f => Sys2Proof.Machine.execFcospiA f s
  | .ftanhA f => Sys2Proof.Machine.execFtanhA f s
  | .fsigmA f => Sys2Proof.Machine.execFsigmA f s
  | .ferfA f => Sys2Proof.Machine.execFerfA f s
  | .fsoftpA f => Sys2Proof.Machine.execFsoftpA f s
  | .shfl f => Sys2Proof.Machine.execShfl f s
  | .qswap f => Sys2Proof.Machine.execQswap f s
  | .qbcast f => Sys2Proof.Machine.execQbcast f s
  | .vote f => Sys2Proof.Machine.execVote f s
  | .ballot f => Sys2Proof.Machine.execBallot f s
  | .gred f => Sys2Proof.Machine.execGred f s
  | .braShort imm => Sys2Proof.Machine.execBraShort imm s
  | .bra f => Sys2Proof.Machine.execBra f s
  | .brc f => Sys2Proof.Machine.execBrc f s
  | .callShort imm => Sys2Proof.Machine.execCallShort imm s
  | .call f => Sys2Proof.Machine.execCall f s
  | .calli f => Sys2Proof.Machine.execCalli f s
  | .retShort => Sys2Proof.Machine.execRetShort s
  | .ret f => Sys2Proof.Machine.execRet f s
  | .join f => Sys2Proof.Machine.execJoin f s
  | .wait f => Sys2Proof.Machine.execWait f s
  | .exitShort => Sys2Proof.Machine.execExitShort s
  | .exit f => Sys2Proof.Machine.execExit f s
  | .trap f => Sys2Proof.Machine.execTrap f s
  | .nopShort => Sys2Proof.Machine.execNopShort s
  | .nop f => Sys2Proof.Machine.execNop f s
  | .ld f => Sys2Proof.Machine.execLd f s
  | .st f => Sys2Proof.Machine.execSt f s
  | .lds f => Sys2Proof.Machine.execLds f s
  | .sts f => Sys2Proof.Machine.execSts f s
  | .ldc f => Sys2Proof.Machine.execLdc f s
  | .pref f => Sys2Proof.Machine.execPref f s
  | .atom f => Sys2Proof.Machine.execAtom f s
  | .aaccO f => Sys2Proof.Machine.execAaccO f s
  | .monitor f => Sys2Proof.Machine.execMonitor f s
  | .mwait f => Sys2Proof.Machine.execMwait f s
  | .cpyq f => Sys2Proof.Machine.execCpyq f s
  | .abinit f => Sys2Proof.Machine.execAbinit f s
  | .abwait f => Sys2Proof.Machine.execAbwait f s
  | .tcpy f => Sys2Proof.Machine.execTcpy f s
  | .gacq f => Sys2Proof.Machine.execGacq f s
  | .grel f => Sys2Proof.Machine.execGrel f s
  | .fence f => Sys2Proof.Machine.execFence f s
  | .bar f => Sys2Proof.Machine.execBar f s
  | .cbar f => Sys2Proof.Machine.execCbar f s
  | .pegpub f => Sys2Proof.Machine.execPegpub f s
  | .tspawn f => Sys2Proof.Machine.execTspawn f s
  | .jpost f => Sys2Proof.Machine.execJpost f s
  | .coll f => Sys2Proof.Machine.execColl f s
  | .collw f => Sys2Proof.Machine.execCollw f s
  | .mwld f => Sys2Proof.Machine.execMwld f s
  | .mswap f => Sys2Proof.Machine.execMswap f s
  | .mma f => Sys2Proof.Machine.execMma f s
  | .mmat f => Sys2Proof.Machine.execMmat f s
  | .mdrain f => Sys2Proof.Machine.execMdrain f s
  | .mzero f => Sys2Proof.Machine.execMzero f s
  | .mtake f => Sys2Proof.Machine.execMtake f s
  | .mpass f => Sys2Proof.Machine.execMpass f s
  | .mhrd f => Sys2Proof.Machine.execMhrd f s
  | .mprg f => Sys2Proof.Machine.execMprg f s
  | .sysrd f => Sys2Proof.Machine.execSysrd f s
  | .syswr f => Sys2Proof.Machine.execSyswr f s
  | .tret f => Sys2Proof.Machine.execTret f s
  | .rgrow f => Sys2Proof.Machine.execRgrow f s
  | .rshrink f => Sys2Proof.Machine.execRshrink f s
  | .icsync f => Sys2Proof.Machine.execIcsync f s
  | .tlbinv f => Sys2Proof.Machine.execTlbinv f s
  | .tracemark f => Sys2Proof.Machine.execTracemark f s
  | .fetch g ahead => Sys2Proof.Machine.execFetch g ahead s
  | .breakpoint g => Sys2Proof.Machine.execBreakpoint g s
  | .faultRecordResume ctx => Sys2Proof.Machine.execFaultRecordResume ctx s
  | .trapEntry g => Sys2Proof.Machine.execTrapEntry g s
  | .teamKill team cause info => Sys2Proof.Machine.execTeamKill team cause info s
  | .poisonPurge g cause info => Sys2Proof.Machine.execPoisonPurge g cause info s
  | .strikeReport core => Sys2Proof.Machine.execStrikeReport core s
  | .doorbell ctx v => Sys2Proof.Machine.execDoorbell ctx v s
  | .cardAccept ctx q => Sys2Proof.Machine.execCardAccept ctx q s
  | .dealingPass cluster => Sys2Proof.Machine.execDealingPass cluster s
  | .teamDispatch team cores => Sys2Proof.Machine.execTeamDispatch team cores s
  | .taskPop ctx q core => Sys2Proof.Machine.execTaskPop ctx q core s
  | .taskRetire team => Sys2Proof.Machine.execTaskRetire team s
  | .pendPush ctx q => Sys2Proof.Machine.execPendPush ctx q s
  | .teamRetire team => Sys2Proof.Machine.execTeamRetire team s
  | .launchRetire launch => Sys2Proof.Machine.execLaunchRetire launch s
  | .rgrowRetry core => Sys2Proof.Machine.execRgrowRetry core s
  | .rgrowTimeout g => Sys2Proof.Machine.execRgrowTimeout g s
  | .registerPromote core => Sys2Proof.Machine.execRegisterPromote core s
  | .forwardProgressSwap core => Sys2Proof.Machine.execForwardProgressSwap core s
  | .teamRestore team cores => Sys2Proof.Machine.execTeamRestore team cores s
  | .plerrAck ctx => Sys2Proof.Machine.execPlerrAck ctx s
  | .preemptReq ctx => Sys2Proof.Machine.execPreemptReq ctx s
  | .preemptSaveDone ctx => Sys2Proof.Machine.execPreemptSaveDone ctx s
  | .preemptResume ctx => Sys2Proof.Machine.execPreemptResume ctx s
  | .haltCore core => Sys2Proof.Machine.execHaltCore core s
  | .unhaltCore core => Sys2Proof.Machine.execUnhaltCore core s
  | .shootdownPage v => Sys2Proof.Machine.execShootdownPage v s
  | .shootdownAll v => Sys2Proof.Machine.execShootdownAll v s
  | .shootdownComplete => Sys2Proof.Machine.execShootdownComplete s
  | .frespRetry ctx fseq => Sys2Proof.Machine.execFrespRetry ctx fseq s
  | .frespFail ctx fseq => Sys2Proof.Machine.execFrespFail ctx fseq s
  | .copyChunk core req chunk => Sys2Proof.Machine.execCopyChunk core req chunk s
  | .aaccContribute g => Sys2Proof.Machine.execAaccContribute g s
  | .wdogBudget team => Sys2Proof.Machine.execWdogBudget team s
  | .wdogKill team => Sys2Proof.Machine.execWdogKill team s
  | .regtabApply ctx => Sys2Proof.Machine.execRegtabApply ctx s
  | .powerArbitration levels => Sys2Proof.Machine.execPowerArbitration levels s
  | .thermalSample temps => Sys2Proof.Machine.execThermalSample temps s
  | .fatalError cause => Sys2Proof.Machine.execFatalError cause s
  | .firmwareWatchdogExpiry => Sys2Proof.Machine.execFirmwareWatchdogExpiry s
  | .dumpRequest => Sys2Proof.Machine.execDumpRequest s
  | .deviceReset => Sys2Proof.Machine.execDeviceReset s
  | .bringupStage image usable => Sys2Proof.Machine.execBringupStage image usable s
  | .sealContext ctx => Sys2Proof.Machine.execSealContext ctx s
  | .attestationReport ctx ask => Sys2Proof.Machine.execAttestationReport ctx ask s
  | .nodeCapacityLearned d capacity => Sys2Proof.Machine.execNodeCapacityLearned d capacity s
  | .linkTrained port peer far ide => Sys2Proof.Machine.execLinkTrained port peer far ide s
  | .portLinkDown port => Sys2Proof.Machine.execPortLinkDown port s
  | .ackTimeout port => Sys2Proof.Machine.execAckTimeout port s
  | .quarantineClear port => Sys2Proof.Machine.execQuarantineClear port s
  | .collectiveStart coll => Sys2Proof.Machine.execCollectiveStart coll s
  | .collectivePartial key chunk msg => Sys2Proof.Machine.execCollectivePartial key chunk msg s
  | .failureNotice key epoch link => Sys2Proof.Machine.execFailureNotice key epoch link s
  | .recoveryRebuild coll => Sys2Proof.Machine.execRecoveryRebuild coll s
  | .collectiveComplete coll => Sys2Proof.Machine.execCollectiveComplete coll s
  | .traceIndexRead => Sys2Proof.Machine.execTraceIndexRead s
  | .registerWrite ctx off v => Sys2Proof.Machine.execRegisterWrite ctx off v s
  | .illegalInstructionTrap g ilen w0 w1 => Sys2Proof.Machine.execIllegalInstructionTrap g ilen w0 w1 s
  | .hostLinkAccess pa data n => Sys2Proof.Machine.execHostLinkAccess pa data n s
  | .peerMemoryTransaction peer pa op scope => Sys2Proof.Machine.execPeerMemoryTransaction peer pa op scope s
  | .tableFlood key msg => Sys2Proof.Machine.execTableFlood key msg s
  | .isolatedRankTimeout coll => Sys2Proof.Machine.execIsolatedRankTimeout coll s
  | .keyUnwrap ctx wrapped => Sys2Proof.Machine.execKeyUnwrap ctx wrapped s
  | .powerGating core on => Sys2Proof.Machine.execPowerGating core on s

end Sys2Proof.Machine
end

