-- ==== Sys2Proof/Machine/Turn.lean ====
section
/-! DEFINITION. What a turn of a group comes to before an instruction runs, the errors that strike stored state (R370), and how an
instruction is placed where a group issues it. -/

namespace Sys2Proof.Machine

/-- WDOG is due, and the next instruction does not issue or has no synchronous cause that comes before it (R350, R353). -/
def wdogFirst (s : State) (g : Nat) (i : Instr) : Bool :=
  let x := s.group g
  match x.issueAddr with
  | none => false
  | some a =>
    let at_ := x.lanesAt a
    x.wdog && !x.inh &&
      (!mayIssue x i || (precheck s { g, a, len := Instr.bytes i, at_, act := x.active at_ (ctlOf? i), help := x.helpers } i).isNone)

/-- What a group does at its turn. -/
inductive GroupTurn where
  | nothing
  | trapEntry
  | again
  | breakpoint
  | fetch
  | bad (ilen w0 w1 : Nat)
  | run (i : Instr)

/-- In order: a wait is tried again, or given up for WDOG; a breakpoint; a fetch; an undecodable word; WDOG; the instruction. While a reported fault
is waited on, a breakpoint, a fetch that fails and an undecodable word stop issue and are not taken (R231). -/
def groupTurn (s : State) (g : Nat) : GroupTurn :=
  let x := s.group g
  if s.groups.length ≤ g || x.ended || !onCore s x then .nothing
  else
    let dog := x.wdog && !x.inh
    let held := x.wait != .none
    let stop := if dog then .trapEntry else .nothing
    if held && (match x.wait with | .fault _ => x.inSecond | _ => true) then if dog then .trapEntry else .again
    else match x.issueAddr with
      | none => stop
      | some _ =>
        if (s.breakpoint g).isSome then if held then stop else .breakpoint
        else match x.atIssue with
          | .empty => if held && dog then .trapEntry else .fetch
          | .bad n w0 w1 => if held then stop else .bad n w0 w1
          | .instr i => if wdogFirst s g i then .trapEntry else .run i

/-- The function instruction that a group's turn would issue, behind a waiting fault or not, with its operands, when it has a second phase (R214,
R231). -/
def secondPhase (s : State) (g : Nat) : Option (Instr × Full) :=
  match groupTurn s g with
  | .run i =>
    let x := s.group g
    match fnOf i, x.issueAddr with
    | some (_, f), some a => if (bandPairs x i (x.active (x.lanesAt a) (ctlOf? i))).isEmpty then none else some (i, f)
    | _, _ => none
  | _ => none

/-- The operands of a row-granular instruction (R287). -/
def rowsOf : Instr → Option Full
  | .mma f => some f
  | .mmat f => some f
  | .mzero f => some f
  | .mdrain f => some f
  | _ => none

/-- The row-granular instruction that a group's turn would issue. -/
def rowPhase (s : State) (g : Nat) : Option (Instr × Full) :=
  match groupTurn s g with
  | .run i => (rowsOf i).map fun f => (i, f)
  | _ => none

/-- A group between two rows is tried again at its turn. -/
def rowsGoOn (s : State) (g : Nat) : Bool :=
  match groupTurn s g with
  | .again => (s.group g).wait == .rows
  | _ => false

/-- An uncorrectable error in stored state (R370, R372). -/
def strike (s : State) : Turn → State
  | .badSector n => if isLocal s.dev (32 * n) then markPoison s (32 * n) 32 else s
  | .badGranule t n => if s.teams.length ≤ t then s else s.setTeam t { s.team t with sppois := uni (s.team t).sppois [n] }
  | .badTile t n => if s.teams.length ≤ t then s else s.setTeam t { s.team t with tlpois := uni (s.team t).tlpois [n] }
  | .badReg g r lane =>
    let x := s.group g
    let fits := match r with | .v _ => decide (lane < 32) | .s _ => lane == 0 | .p _ => lane == 0 | .j _ => lane == 0 | _ => false
    if s.groups.length ≤ g || x.ended || !fits || x.vbad.contains (r, lane) then s else s.setGroup g { x with vbad := x.vbad ++ [(r, lane)] }
  | .badCode g va => badCode s g va
  | .badPcv g => if s.groups.length ≤ g || (s.group g).ended then s else s.setGroup g { s.group g with pcvBad := true }
  | _ => s

/-- What the host, the management port and the other members of the node do beside the rows of the table (R221, R392, R393, R409). -/
def outside (s : State) : Turn → State
  | .regRead ctx off n => regRead s ctx off n
  | .regNarrow ctx off data => regNarrow s ctx off data
  | .bellRead ctx off n => bellRead s ctx off n
  | .mgmtRead what => { s with dev := { s.dev with mgmt := mgmtData s what } }
  | .peerMaps names => { s with dev := { s.dev with named := names } }
  | .away p pa data n sc => away s p pa data n sc
  | t => strike s t

/-- The words of an instruction laid out from its number, with zeros above nbits up to the longest instruction. -/
def fetchBytes (nbits w : Nat) : List Byte :=
  let x := w % 2 ^ nbits
  toBytes (4 * lenWords (BitVec.ofNat 32 x)) x

/-- A launch of one team of one group, as the placing of a program needs it (log 20). -/
def placedCard : List Word := [wd 0x1000, 0, wd (2 ^ 37 + 2 ^ 32 + 1), wd 256]

/-- A READY device on which the first group of one team stands at address 0x1000 of core 0 with an empty fetch buffer. -/
def placeGroup (s : State) : State :=
  let l := s.launches.length
  let t := s.teams.length
  let g := s.groups.length
  let c := s.core 0
  { s with
    dev := { s.dev with status := 3 }
    launches := s.launches ++ [{ card := placedCard, gone := [0] }]
    teams := s.teams ++ [{ launch := some l, vregs := 256, entry := 0x1000, groups := [g] }]
    groups := s.groups ++ [{ team := t, lanes := List.replicate 32 { pc := 0x1000 }, vbound := 256, vres := 256 }]
    cores := setAt {} s.cores 0 { c with halted := false, powered := true, teams := c.teams ++ [some t], groups := c.groups ++ [some g] }
    agenda := []
    cur := g }

/-- The current group issues when its turn comes. -/
def curIssues (s : State) : Bool :=
  match groupTurn s s.cur with
  | .fetch => s.agenda.isEmpty
  | .bad _ _ _ => s.agenda.isEmpty
  | .run _ => s.agenda.isEmpty
  | _ => false

/-- The instruction's bytes in the current group's fetch buffer, from which it issues (R137). -/
def fillBuffer (s : State) (bytes : List Byte) : State :=
  let x := s.group s.cur
  s.setGroup s.cur { x with buf := bytes, bufAt := x.issueAddr.getD 0 }

end Sys2Proof.Machine
end

