-- ==== Sys2Proof/Machine/Step.lean ====
section
/-! DEFINITION. One step: the head of the agenda, or the turn of the current group when the agenda is empty. -/

namespace Sys2Proof.Machine

/-- A group's turn. -/
def stepGroup (s : State) (g : Nat) : Out :=
  match groupTurn s g with
  | .nothing => .next s
  | .again => .next (retry s g)
  | .trapEntry => exec (.trapEntry g) s
  | .breakpoint => exec (.breakpoint g) s
  | .fetch => exec (.fetch g 0) s
  | .bad n w0 w1 => exec (.illegalInstructionTrap g n w0 w1) s
  | .run i => exec i s

/-- One turn. An instruction row on the agenda is no event and does nothing. -/
def stepTurn (s : State) : Turn → Out
  | .group g => stepGroup { s with cur := g } g
  | .second g =>
    let s := { s with cur := g }
    match secondPhase s g with
    | some (i, f) => issue i (issueSecond i f) s
    | none => stepGroup s g
  | .rows g n =>
    let s := { s with cur := g }
    if rowsGoOn s g then .next (moreRows s g n) else
    match rowPhase s g with
    | some (i, f) => issue i (issueRows n i f) s
    | none => stepGroup s g
  | .event i => if (view i).isSome then .next s else exec i s
  | .elapse core n => .next (elapse s core n)
  | t => .next (outside s t)

/-- One step. -/
def step (s : State) : Host.Outcome State Fault Refusal :=
  match s.agenda with
  | [] => stepGroup s s.cur
  | t :: l => stepTurn { s with agenda := l } t

/-- The state with an instruction placed where step takes its next one (log 20). -/
def State.withFetchWord (s : State) (nbits w : Nat) : State :=
  fillBuffer (if curIssues s then s else placeGroup s) (fetchBytes nbits w)

end Sys2Proof.Machine
end

