-- ==== Sys2Proof/Safety.lean ====
section
/-! DEFINITION. What a safe state and a safe run are, and the terms in which statements speak of one instruction: when it is ready to
issue, and what it leaves as it was. -/

namespace Sys2Proof.Safety

open Machine

/-- Every byte memory of the machine is canonical: physical memory, each scratchpad and each tile store. -/
def Canonical (s : State) : Prop :=
  Memory.wf s.mem = true ∧ ∀ t ∈ s.teams, Memory.wf t.spad = true ∧ Memory.wf t.tile = true

/-- DEV.STATUS holds a value that Table 16.5 uses. -/
def StatusLegal (s : State) : Prop :=
  s.dev.status = 0 ∨ s.dev.status = 1 ∨ s.dev.status = 2 ∨ s.dev.status = 3 ∨ s.dev.status = 7

/-- An outcome that goes on. -/
def GoesOn (o : Host.Outcome State Fault Refusal) : Prop := ∃ s, o = .next s

/-- A run of n steps that never stops. -/
def SafeRun : Nat → State → Prop
  | 0, _ => True
  | n + 1, s => ∃ t, step s = .next t ∧ SafeRun n t

-- When an instruction is ready --------------------------------------------------------------------------------------------

/-- The group whose turn it is can issue instruction i at its issue address (R151, R231), no cause of R350 comes before its effect, and
nothing that it or the release behind it reads has failed (R370). `is` gathers what the rules call the address, its lanes, active() and the helper lanes. -/
structure Ready (s : State) (i : Instr) (is : Iss) : Prop where
  isGroup : is.g = s.cur
  exists_ : s.cur < s.groups.length
  going   : (s.group s.cur).ended = false
  onCore  : onCore s (s.group s.cur) = true
  free    : mayIssue (s.group s.cur) i = true
  addr    : (s.group s.cur).issueAddr = some is.a
  len     : is.len = Instr.bytes i
  here    : is.at_ = (s.group s.cur).lanesAt is.a
  act     : is.act = (s.group s.cur).active is.at_ (ctlOf? i)
  help    : is.help = (s.group s.cur).helpers
  clear   : precheck s is i = none
  sound   : (s.group s.cur).pcvBad = false
  clean   : badRead (s.group s.cur) i is.act = none
  joins   : (s.group s.cur).badJoin = none

/-- The state at the start of an instruction's own effect: the issue is counted and traced, the lookahead windows move (R160) and the
instruction leaves the fetch buffer (R137). -/
def issued (s : State) (i : Instr) (is : Iss) : State :=
  let x := s.group is.g
  (traceGroup (countIssue s x) 0x01 is.g is.act is.a).setGroup is.g 
    { (x.lookahead i is.a is.len).unbuffer is.a is.len with skipBrk := x.skipBrk.filter (· != is.a) }

/-- The entry of a logged instruction, with its source values (R231, R359). -/
def entryOf (s : State) (i : Instr) (f : Full) (is : Iss) : Entry :=
  let x := s.group is.g
  { instr := i, addr := is.a, len := is.len, lanes := is.at_, act := is.act, helper := is.help
    b := x.run f.b, c := x.src f.c 1, d := x.run f.d, r := x.rand f }

/-- The state in which a logged instruction is performed: its lanes have moved past it and its entry is the log. -/
def entered (s : State) (i : Instr) (f : Full) (is : Iss) : State :=
  let x := (issued s i is).group is.g
  (issued s i is).setGroup is.g { x.advance is.at_ is.a is.len with log := [entryOf s i f is] }

/-- The state after a group's only entry has been performed: the entry is gone, the group waits for nothing, and release follows. -/
def finished (s : State) (g : Nat) : State := post (completeHead s g) g

-- What is left as it was ------------------------------------------------------------------------------------------------------

/-- A byte of the trace ring while it is enabled (R382). -/
def TraceByte (s : State) (a : Nat) : Prop :=
  wfield s.dev.trace 0 1 = 1 ∧ ∃ k, k < 2 ^ (wfield s.dev.trace 7 5 - 5) ∧
    homeAddr s.dev (wfield s.dev.trace 12 40 * 4096 + 32 * k) ≤ a ∧ a < homeAddr s.dev (wfield s.dev.trace 12 40 * 4096 + 32 * k) + 32

/-- A byte of a group's rows in the backing region while it is enabled (R107, R108). -/
def BackByte (s : State) (g a : Nat) : Prop :=
  wfield s.dev.rback 0 1 = 1 ∧ ∃ v, (v < 256 ∨ v < (s.group g).vbound) ∧
    homeAddr s.dev (wfield s.dev.rback 30 27 * 2 ^ 30 + (32 * (s.group g).core + (s.group g).slot) * 65536 + 256 * v) ≤ a ∧
    a < homeAddr s.dev (wfield s.dev.rback 30 27 * 2 ^ 30 + (32 * (s.group g).core + (s.group g).slot) * 65536 + 256 * v) + 256

/-- Bytes that an instruction of a group may change although it stores nothing. -/
def SideByte (s : State) (g a : Nat) : Prop := TraceByte s a ∨ BackByte s g a

/-- Every byte of physical memory outside the trace ring and the group's backing rows reads as before. -/
def MemKept (s t : State) (g : Nat) : Prop := ∀ a, ¬ SideByte s g a → memGet t.mem a = memGet s.mem a

/-- The same but for `n` bytes from `pa` on. -/
def MemKeptBut (s t : State) (g : Nat) (l : List (Nat × Nat)) : Prop :=
  ∀ a, ¬ SideByte s g a → (∀ p ∈ l, ¬ (p.1 ≤ a ∧ a < p.1 + p.2)) → memGet t.mem a = memGet s.mem a

/-- Poison marks are as they were, but that one may go from a sector whose every byte the trace ring or the group's backing rows may fill (R372). -/
def MarksKept (s t : State) (g : Nat) : Prop :=
  (∀ n ∈ t.poison, n ∈ s.poison) ∧ ∀ n ∈ s.poison, n ∈ t.poison ∨ ∀ a, 32 * n ≤ a → a < 32 * n + 32 → SideByte s g a

/-- Every group but one is as it was. -/
def GroupsKept (s t : State) (g : Nat) : Prop := t.groups.length = s.groups.length ∧ ∀ h, h ≠ g → t.group h = s.group h

/-- A team is as it was, but that a swap-out on its core may be undone by the issue (R121). -/
def TeamSame (x y : Team) : Prop := ∃ k, y = { x with swapOff := k }

/-- A core is as it was, but for its counts of issues and of stalled cycles. -/
def CoreSame (x y : Core) : Prop := ∃ n k, y = { x with issued := n, stall := k }

/-- The device's registers are as they were, but for the trace unit's counts. -/
def DevSame (s t : State) : Prop := ∃ n k m, t.dev = { s.dev with drops := n, twidx := k, trfresh := m }

/-- A team is as it was, but for what TeamSame allows and the translations its L1 TLB pair holds (R116, R227). -/
def TeamAccessed (x y : Team) : Prop := ∃ k l, y = { x with swapOff := k, tlb := l }

/-- The parts of the machine that no group's registers make up, as an instruction that acts on its own group's registers leaves them. -/
structure MachineKept (s t : State) (g : Nat) : Prop where
  writes   : t.writes = s.writes
  rels     : t.rels = s.rels
  poison   : MarksKept s t g
  dev      : DevSame s t
  ctxs     : t.ctxs = s.ctxs
  launches : t.launches = s.launches
  teams    : t.teams.length = s.teams.length ∧ ∀ k, TeamSame (s.team k) (t.team k)
  cores    : ∀ k, CoreSame (s.core k) (t.core k)
  clusters : t.clusters = s.clusters
  pegs     : t.pegs = s.pegs
  colls    : t.colls = s.colls
  gateQ    : t.gateQ = s.gateQ
  hostView : t.hostView = s.hostView
  peerView : t.peerView = s.peerView
  agenda   : t.agenda = s.agenda
  cur      : t.cur = s.cur
  choices  : t.choices = s.choices
  clock    : t.clock = s.clock

/-- The fields of a group that an instruction which neither waits, traps, ends it nor changes its bound leaves as they were: its place,
its bounds, the trap frame and frozen entries, the watch, its view of memory. -/
structure PlaceKept (x y : Group) : Prop where
  team   : y.team = x.team
  idx    : y.idx = x.idx
  core   : y.core = x.core
  slot   : y.slot = x.slot
  ended  : y.ended = x.ended
  vbase  : y.vbase = x.vbase
  vbound : y.vbound = x.vbound
  vres   : y.vres = x.vres
  wait   : y.wait = x.wait
  log    : y.log = x.log
  inh    : y.inh = x.inh
  frame  : y.frame = x.frame
  frozen : y.frozen = x.frozen
  wdog   : y.wdog = x.wdog
  watch  : y.watch = x.watch
  pcvBad : y.pcvBad = x.pcvBad
  view   : y.view = x.view

/-- Lane l of vector register n. -/
def vcell (x : Group) (n l : Nat) : Word := getAt 0 (x.vrow n) l

def VectorsKept (x y : Group) : Prop := ∀ n l, l < 32 → vcell y n l = vcell x n l
def ScalarsKept (x y : Group) : Prop := ∀ n, y.sreg n = x.sreg n
def PredsKept (x y : Group) : Prop := ∀ n, y.pred n = x.pred n
def JoinsKept (x y : Group) : Prop := ∀ n, getAt 0 y.j n = getAt 0 x.j n

/-- The lanes at the address have moved past the instruction; a lane elsewhere that is not parked stands where it stood. -/
def Advanced (x y : Group) (is : Iss) : Prop :=
  (∀ l, l < 32 → is.at_.getLsbD l = true → y.lane l = { x.lane l with pc := is.a + is.len }) ∧
  (∀ l, l < 32 → is.at_.getLsbD l = false → (x.lane l).p = false → y.lane l = x.lane l)

/-- The registers after a write of a destination run (R127, R176): register j of a vector run takes `val j l` in lane l of active(); a
scalar run takes the values of the lowest lane of active(). Every other lane and register is as it was. -/
def RunWritten (x y : Group) (d : Reg) (act : Mask) (val : Nat → Nat → Word) : Prop :=
  (∀ n l, l < 32 → vcell y n l =
    if d.file = .v ∧ d.num.toNat ≤ n ∧ n < d.num.toNat + runLen d.wid ∧ act.getLsbD l = true then val (n - d.num.toNat) l else vcell x n l) ∧
  (∀ n, y.sreg n = match lowLane act with
    | some l => if d.file = .s ∧ d.num.toNat ≤ n ∧ n < d.num.toNat + runLen d.wid then val (n - d.num.toNat) l else x.sreg n
    | none => x.sreg n)

/-- A flag is set after the instruction exactly when it was, or when the value of some position raises it in a lane of active() that is no
helper (R180). -/
def FlagsRaised (x y : Group) (d : Reg) (act help : Mask) (fl : Nat → Nat → Flags) : Prop :=
  ∀ b, b < 5 → (y.flags.getLsbD b = true ↔ x.flags.getLsbD b = true ∨
    ∃ j l, j < runLen d.wid ∧ l < 32 ∧ (fl j l).getLsbD b = true ∧ act.getLsbD l = true ∧ help.getLsbD l = false)

/-- The predicate register a compare writes: the bits of active(). -/
def PredWritten (x y : Group) (n : Nat) (act : Mask) (test : Nat → Bool) : Prop :=
  (∀ l, l < 32 → (getAt 0 y.p n).getLsbD l = if act.getLsbD l then test l else (getAt 0 x.p n).getLsbD l) ∧
  ∀ m, m ≠ n → getAt 0 y.p m = getAt 0 x.p m

/-- Elements at position k of register j, lane l, of the sources of layout F: B, C, D and the random operand (R175, R176). -/
def elAt (x : Group) (f : Full) (w j l k : Nat) : El :=
  { b := elem (cell (x.srcs f).b j l) w k, c := elemC f w (cell (x.srcs f).c j l) k, d := elem (cell (x.srcs f).d j l) w k
    r := elem (cell (x.srcs f).r j l) w k }

/-- What every row that acts on its group's own registers leaves: its lanes have moved on, and the group's place, the other groups, the
machine and memory are as they were. -/
def Settled (s t : State) (is : Iss) : Prop :=
  Advanced (s.group is.g) (t.group is.g) is ∧ PlaceKept (s.group is.g) (t.group is.g) ∧ GroupsKept s t is.g ∧ MachineKept s t is.g ∧
    MemKept s t is.g

/-- An instruction that writes its destination run, raises the flags of the values it writes, moves its lanes on, and changes nothing
else. -/
def RunRow (i : Instr) (d : Reg) (val : State → Iss → Nat → Nat → Word × Flags) : Prop :=
  ∀ s is, Ready s i is → is.act ≠ 0 → Memory.wf s.mem = true → ∃ t, exec i s = .next t ∧
    RunWritten (s.group is.g) (t.group is.g) d is.act (fun j l => (val s is j l).1) ∧
    FlagsRaised (s.group is.g) (t.group is.g) d is.act is.help (fun j l => (val s is j l).2) ∧
    PredsKept (s.group is.g) (t.group is.g) ∧ JoinsKept (s.group is.g) (t.group is.g) ∧ Settled s t is

/-- An instruction that computes each element of its destination run from the elements of its sources. -/
def ElementWise (i : Instr) (f : Full) (w : Nat) (op : El → Nat × Flags) : Prop :=
  RunRow i f.d fun s is j l => buildElems w fun k => op (elAt (s.group is.g) f w j l k)

/-- An instruction that writes a predicate register in the lanes of active(), and nothing else. -/
def PredRow (i : Instr) (n : Nat) (test : State → Iss → Nat → Bool) : Prop :=
  ∀ s is, Ready s i is → is.act ≠ 0 → Memory.wf s.mem = true → ∃ t, exec i s = .next t ∧
    PredWritten (s.group is.g) (t.group is.g) n is.act (test s is) ∧
    VectorsKept (s.group is.g) (t.group is.g) ∧ ScalarsKept (s.group is.g) (t.group is.g) ∧
    (t.group is.g).flags = (s.group is.g).flags ∧ JoinsKept (s.group is.g) (t.group is.g) ∧ Settled s t is

/-- Registers, flags, predicates and join registers as they were. -/
def RegsKept (x y : Group) : Prop :=
  VectorsKept x y ∧ ScalarsKept x y ∧ PredsKept x y ∧ JoinsKept x y ∧ y.flags = x.flags

/-- The group and every lane of it as a row that neither writes a register nor moves memory leaves them. -/
def Quiet (s t : State) (is : Iss) : Prop := RegsKept (s.group is.g) (t.group is.g) ∧ Settled s t is

/-- An instruction that changes nothing but the place of its lanes. -/
def QuietRow (i : Instr) : Prop :=
  ∀ s is, Ready s i is → is.act ≠ 0 → Memory.wf s.mem = true → ∃ t, exec i s = .next t ∧ Quiet s t is

/-- An instruction row of the table; the other rows are device events. -/
def isRow (i : Instr) : Prop := view i ≠ none

/-- The group whose turn it is stands at instruction i and would issue it, whatever the checks of R350 find. -/
structure Due (s : State) (i : Instr) (is : Iss) : Prop where
  isGroup : is.g = s.cur
  exists_ : s.cur < s.groups.length
  going   : (s.group s.cur).ended = false
  onCore  : onCore s (s.group s.cur) = true
  free    : mayIssue (s.group s.cur) i = true
  addr    : (s.group s.cur).issueAddr = some is.a
  len     : is.len = Instr.bytes i
  here    : is.at_ = (s.group s.cur).lanesAt is.a
  act     : is.act = (s.group s.cur).active is.at_ (ctlOf? i)
  help    : is.help = (s.group s.cur).helpers

/-- The lanes at the address have gone to their targets: those of active() where `target` says, the others past the instruction. -/
def Moved (x y : Group) (is : Iss) (target : Nat → Nat) : Prop :=
  (∀ l, l < 32 → is.at_.getLsbD l = true →
    y.lane l = { x.lane l with pc := if is.act.getLsbD l then target l else is.a + is.len }) ∧
  (∀ l, l < 32 → is.at_.getLsbD l = false → (x.lane l).p = false → y.lane l = x.lane l)

/-- What a transfer of control leaves: all but the lanes, and the registers where a link is written. -/
def MovedOn (s t : State) (is : Iss) (target : Nat → Nat) : Prop :=
  Moved (s.group is.g) (t.group is.g) is target ∧ PlaceKept (s.group is.g) (t.group is.g) ∧ GroupsKept s t is.g ∧ MachineKept s t is.g ∧
    MemKept s t is.g

/-- The trap frame and the lanes after a handler entry (R352): the frame holds the cause, the lanes, the information, the address, PCV and
the join registers; every live lane stands at the handler; nothing else of the group's registers changes. -/
def HandlerEntered (x y : Group) (handler : Nat) (t : Trap) (ilen : Nat) (logged : Bool) (pc : Nat) : Prop :=
  wfield y.frame.cause 0 8 = t.cause ∧ wfield y.frame.cause 8 1 = (if logged then 1 else 0) ∧ wfield y.frame.cause 12 2 = ilen ∧
  y.frame.lanes = t.lanes ∧ y.frame.info = t.info ∧ y.frame.pc = pc ∧ y.frame.spcv = x.lanes ∧
  (∀ n, n < 4 → getAt 0 y.frame.sj n = getAt 0 x.j n) ∧ (∀ n, getAt 0 y.j n = 0) ∧ y.frozen = x.log ∧ y.log = [] ∧ y.wait = .none ∧
  y.inh = true ∧ y.buf = [] ∧ y.lanes.length = x.lanes.length ∧
  (∀ l, l < x.lanes.length → y.lane l = if (x.lane l).x then x.lane l else { x.lane l with p := false, n := 0, pc := handler }) ∧
  VectorsKept x y ∧ ScalarsKept x y ∧ PredsKept x y ∧ y.flags = x.flags ∧ y.vbound = x.vbound ∧ y.vres = x.vres ∧ y.vbase = x.vbase

/-- The parts of the machine that no group's registers make up, as a logged instruction leaves them whatever it does to memory, writes,
releases and marks: checks of an access may change what translations are cached (R227). -/
structure RestKept (s t : State) : Prop where
  dev      : DevSame s t
  ctxs     : t.ctxs = s.ctxs
  launches : t.launches = s.launches
  teams    : ∀ k, TeamAccessed (s.team k) (t.team k)
  cores    : ∀ k, CoreSame (s.core k) (t.core k)
  pegs     : t.pegs = s.pegs
  colls    : t.colls = s.colls
  gateQ    : t.gateQ = s.gateQ
  hostView : t.hostView = s.hostView
  peerView : t.peerView = s.peerView
  agenda   : t.agenda = s.agenda
  cur      : t.cur = s.cur
  choices  : t.choices = s.choices
  clock    : t.clock = s.clock

/-- What an access to memory leaves: its lanes have moved on, and all but registers, the group's view and memory is as it was. -/
def Accessed (s t : State) (is : Iss) : Prop :=
  Advanced (s.group is.g) (t.group is.g) is ∧ PlaceKept (s.group is.g) { t.group is.g with view := (s.group is.g).view } ∧
    GroupsKept s t is.g ∧ RestKept s t

/-- The pieces a lane's access was checked into. -/
def piecesOf (l : List (Nat × Nat × List Piece)) (k : Nat) : Option (List Piece) := (l.find? fun p => p.1 == k).map (·.2.2)

/-- The words of physical memory that pieces touch: address and length in bytes. -/
def wordsTouched (l : List (Nat × Nat × List Piece)) : List (Nat × Nat) :=
  l.flatMap fun p => p.2.2.map fun q => (q.pa / 4 * 4, (q.pa + q.len + 3) / 4 * 4 - q.pa / 4 * 4)

/-- The lanes of an entry that are not helpers. -/
def nonHelpers (e : Entry) (l : List (Nat × Nat × List Piece)) : List (Nat × Nat × List Piece) :=
  l.filter fun p => !e.helper.getLsbD p.1

/-- A logged instruction's own trap (R350, step 8): its entry is frozen and every live lane starts at the handler. -/
def trapped (u : State) (is : Iss) (e : Entry) (c : Trap) : State :=
  post (enterTrap (putHead u is.g e .none) is.g c (is.len / 4) true is.a) is.g

/-- An access of n bytes at va by a party of a context with a heap window HEAPBASE, HEAPLEN, HEAPOFF lies in the window, where it may be
written, and names local memory from pa on (R223, R224); no gated region that forbids writing takes in a byte of it (R309). Its checks leave the
state as it is, and its bytes are one piece. -/
def HeapHolds (s : State) (ctx : Nat) (heap : Word × Word × Word) (va n pa : Nat) : Prop :=
  let base := wfield heap.1 21 36 * 2 ^ 21
  0 < n ∧ va + n ≤ 2 ^ 57 ∧ wfield heap.1 0 1 = 1 ∧ wfield heap.2.1 0 1 = 1 ∧ base ≤ va ∧
    va + n ≤ base + wfield heap.2.1 21 31 * 2 ^ 21 ∧
    (∀ i, i < n → homeAddr s.dev ((va + i + wfield heap.2.2 21 43 * 2 ^ 21) % 2 ^ 52) = pa + i) ∧ pa + n ≤ s.dev.capacity ∧
    ∀ r ∈ (s.ctx ctx).regions, r.wr = true ∨ r.base + r.len ≤ va ∨ va + n ≤ r.base

/-- An access of a team's groups lies in the window the team latched (R223). -/
def InWindow (s : State) (team va n pa : Nat) : Prop := HeapHolds s (s.team team).ctx (s.team team).heap va n pa

/-- An access of the command unit for a context lies in the window its registers name (R101). -/
def InCtxWindow (s : State) (c va n pa : Nat) : Prop := HeapHolds s c ((s.ctx c).heapbase, (s.ctx c).heaplen, (s.ctx c).heapoff) va n pa

/-- The trap of an entry that is performed again after a wait (R350, step 8). -/
def retrapped (u : State) (g : Nat) (e : Entry) (c : Trap) : State :=
  post (enterTrap (putHead u g e .none) g c (e.len / 4) true e.addr) g

/-- The next write that a party of view v makes at the home L2 to a word, being of class 3 and after every operation there, gives the word its
current value (R316, R317): every earlier write of the word is of a lower class or an operation of the home L2, and no identity in play is
that of a write still to come. -/
def HomeNext (s : State) (v : MemView) (word : Nat) : Prop :=
  (∀ m ∈ v.know, m < s.writes.length) ∧
  ∀ p ∈ writesTo s word, (p.2.cls < 3 ∨ (p.2.cls = 3 ∧ p.2.sync.isSome = true)) ∧ ∀ m ∈ p.2.prec, m < s.writes.length

/-- The same for every word of a range of bytes. -/
def HomeNextRange (s : State) (v : MemView) (pa n : Nat) : Prop := ∀ word, word % 4 = 0 → pa ≤ word → word < pa + n → HomeNext s v word

/-- No write has been made to a word of a range of bytes, and no identity in play in a view is that of a write still to come. -/
def Unwritten (s : State) (v : MemView) (pa n : Nat) : Prop :=
  (∀ m ∈ v.know, m < s.writes.length) ∧ ∀ word, word % 4 = 0 → pa / 4 * 4 ≤ word → word < pa + n → writesTo s word = []

/-- Two ranges of bytes have none in common. -/
def Apart (a n b m : Nat) : Prop := a + n ≤ b ∨ b + m ≤ a

/-- No byte of a range is one that the instruction of a group may change although it stores nothing. -/
def NoSide (s : State) (g pa n : Nat) : Prop := ∀ a, SideByte s g a → ¬ (pa ≤ a ∧ a < pa + n)

/-- A release made by group g in state s and found in t as the next one (R312, R314): its scope, what it acts on, all that precedes it, and
the writes among the group's own and those that have reached it that it covers. -/
def Released (s t : State) (g : Nat) (sc : Scope) (a : Acts) : Prop :=
  let v := (s.group g).view
  t.rels[s.rels.length]? = some { party := .grp g, scope := sc, acts := a, know := v.know, cov := (uni v.own v.reached).filter (covers s a) }

/-- An acquire by group g in state s, found done in t (R312 to R315): of each release in the list that pairs with it, all that precedes it
precedes the group's next event, and the writes it covers in what the acquire acts on have reached the group; and none of those bytes is in
the group's current quantum. -/
def Acquired (s t : State) (g : Nat) (sc : Scope) (a : Acts) (from_ : List Nat) : Prop :=
  (∀ n r, n ∈ from_ → s.rels[n]? = some r → mayPair s r.scope r.party sc (.grp g) = true →
    (∀ m ∈ r.know, m ∈ (t.group g).view.know) ∧ ∀ m ∈ r.cov, covers s a m = true → m ∈ (t.group g).view.reached) ∧
  ∀ m ∈ (t.group g).view.quantum, covers s a m = false

/-- The releases that a synchronising read of a word observes when its value is that of write n (R313, rule 2): those which precede n or an
earlier synchronising write of the word, at a scope that takes in both parties. -/
def observed (s : State) (g : Nat) (sc : Scope) (word n : Nat) : List Nat :=
  (writesTo s word).flatMap fun p => match p.2.sync with
    | some (sc', rels) => if p.1 ≤ n ∧ mayPair s sc' p.2.party sc (.grp g) = true then rels else []
    | none => []

-- Elements in plain arithmetic ------------------------------------------------------------------------------------------------

/-- The low n bits of x read by a type: unsigned for n8 to n64, in two's complement for i8 to i64 (R175, R183). -/
def readAs (t n x : Nat) : Int := if t < 4 then ((x % 2 ^ n : Nat) : Int) else Int.bmod x (2 ^ n)

/-- The least and the greatest value of an integer type of width w (R182). -/
def leastOf (t w : Nat) : Int := if t < 4 then 0 else -(2 ^ (w - 1))
def mostOf (t w : Nat) : Int := if t < 4 then 2 ^ w - 1 else 2 ^ (w - 1) - 1

/-- The low w bits of an integer. -/
def wrapped (w : Nat) (x : Int) : Nat := (x % 2 ^ w).toNat

/-- An integer row: each element is a function of the type, the width and the elements of the sources, kept modulo 2^w; no flag. -/
def IntRow (i : Instr) (f : Full) (r : Nat → Nat → El → Int) : Prop :=
  ElementWise i f (tyWidth f.ty.toNat) fun e => (wrapped (tyWidth f.ty.toNat) (r f.ty.toNat (tyWidth f.ty.toNat) e), 0)

/-- A logarithmic row: each element is a function of the format, the rounding mode and the elements of the sources. -/
def LogRow (i : Instr) (f : Full) (r : Fmt → RMode → El → Nat × Flags) : Prop :=
  ElementWise i f (fmtOf f.ty.toNat).w (r (fmtOf f.ty.toNat) (rmodeOf f.rnd.toNat))

/-- The number whose bit k below w is given. -/
def bitsTo (w : Nat) (b : Nat → Bool) : Nat := (((List.range w).filter b).map (2 ^ ·)).sum

/-- The code of sign s and log e · 2^-F, and its flags: the log itself within the range, the largest log above it, underflow below it. -/
def exactCode (f : Fmt) (m : RMode) (s : Nat) (e : Int) (rho : Nat) : Nat × Flags :=
  if f.emax < e then (codeOf f s f.emax, fOVF ||| fINX)
  else if e < f.emin then underflow s (.dyadic e f.F) (.pow e f.F) f m rho
  else (codeOf f s e, 0)

/-- The code of a positive number of log e/2 · 2^-F: an odd e lies halfway between two codes (R23, R24). -/
def halfCode (f : Fmt) (m : RMode) (e : Int) (rho : Nat) : Nat × Flags :=
  let up : Bool := match m with
    | .rn => e / 2 % 2 == 1
    | .ra => true
    | .rz => false
    | .ru => true
    | .rd => false
    | .rs => decide (2 ^ (f.w - 1) ≤ rho)
  if e % 2 = 0 then (codeOf f 0 (e / 2), 0) else (codeOf f 0 (if up then e / 2 + 1 else e / 2), fINX)

-- Device events -----------------------------------------------------------------------------------------------------------------

/-- A group that can have its turn: it exists, has not ended, and stands on a core that issues. -/
def InTurn (s : State) (g : Nat) : Prop := g < s.groups.length ∧ (s.group g).ended = false ∧ onCore s (s.group g) = true

/-- Memory, the writes made to it and its poison marks are as they were. -/
def StoreKept (s t : State) : Prop := t.mem = s.mem ∧ t.writes = s.writes ∧ t.poison = s.poison

/-- Launches, teams and groups are as they were. -/
def WorkKept (s t : State) : Prop := t.launches = s.launches ∧ t.teams = s.teams ∧ t.groups = s.groups

/-- Registers and lanes of every group are as they were. -/
def AllRegsKept (s t : State) : Prop := ∀ g, RegsKept (s.group g) (t.group g) ∧ (t.group g).lanes = (s.group g).lanes

/-- A group with nothing outstanding: it has ended, or it waits for nothing and holds no entry. -/
def AtRest (x : Group) : Prop := x.ended = true ∨ (x.wait = .none ∧ x.log = [])

/-- Records of writes that store 64-bit words, two 32-bit words each, the low one first (R316): the physical addresses and the values in
order. -/
def Wrote (l : List WriteRec) (ws : List (Nat × Nat)) : Prop :=
  l.length = 2 * ws.length ∧ ∀ (k : Nat) (w : WriteRec), l[k]? = some w →
    w.word = (getAt (0, 0) ws (k / 2)).1 + 4 * (k % 2) ∧ w.val = BitVec.ofNat 32 ((getAt (0, 0) ws (k / 2)).2 / 2 ^ (32 * (k % 2)))

/-- The 64-bit words of an object at an address, as pairs of address and value. -/
def wordsAt (pa n : Nat) (val : Nat → Nat) : List (Nat × Nat) := (List.range n).map fun k => (pa + 8 * k, val k)

/-- A team is killed (R354): its groups have ended with nothing outstanding, the groups of other teams are as they were, and its launch has
counted it, as the first killed where none was before (R76). -/
def TeamKilled (s t : State) (team cause info : Nat) : Prop :=
  let x := s.team team
  (t.team team).place = .killed ∧
  (∀ g ∈ x.groups, (t.group g).ended = true ∧ (t.group g).log = [] ∧ (t.group g).frozen = [] ∧ (t.group g).wait = .none) ∧
  (∀ g, g ∉ x.groups → t.group g = s.group g) ∧
  ∀ l, x.launch = some l →
    (t.launch l).killed = (s.launch l).killed + 1 ∧ (t.launch l).done = (s.launch l).done ∧
    ((s.launch l).first = none → (t.launch l).first = some (x.t, cause, info)) ∧
    (t.launch l).placeK = ((s.launch l).placeK || cause == 0x19)

/-- The lanes at a group's issue address have moved past an instruction of `len` bytes; a lane elsewhere that is not parked stands where
it stood. -/
def WaitPassed (x y : Group) (len : Nat) : Prop :=
  y.wait = .none ∧ ∀ a, x.issueAddr = some a → ∀ l, l < 32 → l < x.lanes.length →
    ((x.lanesAt a).getLsbD l = true → y.lane l = { x.lane l with pc := a + len }) ∧
    ((x.lanesAt a).getLsbD l = false → (x.lane l).p = false → y.lane l = x.lane l)

end Sys2Proof.Safety
end

