-- ==== Sys2Proof/Certificates/Slice0/Obligations.lean ====
section
/-! DEFINITION. The statements of this model, one Prop each. -/

section

open Sys2Proof Sys2Proof.Machine Sys2Proof.Safety

-- Integer rows ----------------------------------------------------------------------------------------------------------------

/-- R182, Table 8.3: the element results of the integer adds, orders, logic and shifts, modulo 2^w or saturated, and no flag; nothing
else changes. -/
def Obligations.IntegerElements : Prop :=
  (∀ f, IntRow (.iadd f) f fun t w e =>
    if f.xm = 1 then max (leastOf t w) (min (mostOf t w) (readAs t w e.b + readAs t w e.c)) else readAs t w e.b + readAs t w e.c) ∧
  (∀ f, IntRow (.isub f) f fun t w e =>
    if f.xm = 1 then max (leastOf t w) (min (mostOf t w) (readAs t w e.b - readAs t w e.c)) else readAs t w e.b - readAs t w e.c) ∧
  (∀ f, IntRow (.iaddShort f) (shortFull f 4) fun t w e => readAs t w e.b + readAs t w e.c) ∧
  (∀ f, IntRow (.isubShort f) (shortFull f 4) fun t w e => readAs t w e.b - readAs t w e.c) ∧
  (∀ f, IntRow (.imin f) f fun t w e => if readAs t w e.b ≤ readAs t w e.c then readAs t w e.b else readAs t w e.c) ∧
  (∀ f, IntRow (.imax f) f fun t w e => if readAs t w e.b ≤ readAs t w e.c then readAs t w e.c else readAs t w e.b) ∧
  (∀ f, IntRow (.and f) f fun _ w e => bitsTo w fun k => e.b.testBit k && e.c.testBit k) ∧
  (∀ f, IntRow (.or f) f fun _ w e => bitsTo w fun k => e.b.testBit k || e.c.testBit k) ∧
  (∀ f, IntRow (.xor f) f fun _ w e => bitsTo w fun k => e.b.testBit k != e.c.testBit k) ∧
  (∀ f, IntRow (.andn f) f fun _ w e => bitsTo w fun k => e.b.testBit k && !e.c.testBit k) ∧
  (∀ f, IntRow (.andShort f) (shortFull f 4) fun _ w e => bitsTo w fun k => e.b.testBit k && e.c.testBit k) ∧
  (∀ f, IntRow (.orShort f) (shortFull f 4) fun _ w e => bitsTo w fun k => e.b.testBit k || e.c.testBit k) ∧
  (∀ f, IntRow (.xorShort f) (shortFull f 4) fun _ w e => bitsTo w fun k => e.b.testBit k != e.c.testBit k) ∧
  (∀ f, IntRow (.shl f) f fun _ w e => bitsTo w fun k => decide (e.c ≤ k) && e.b.testBit (k - e.c)) ∧
  (∀ f, IntRow (.shr f) f fun _ w e => bitsTo w fun k => decide (k + e.c < w) && e.b.testBit (k + e.c)) ∧
  (∀ f, IntRow (.sar f) f fun _ w e => bitsTo w fun k => e.b.testBit (min (k + e.c) (w - 1))) ∧
  (∀ f, IntRow (.shlShort f) (shortFull f 4) fun _ w e => bitsTo w fun k => decide (e.c ≤ k) && e.b.testBit (k - e.c)) ∧
  (∀ f, IntRow (.shrShort f) (shortFull f 4) fun _ w e => bitsTo w fun k => decide (k + e.c < w) && e.b.testBit (k + e.c)) ∧
  (∀ f, IntRow (.sarShort f) (shortFull f 4) fun _ w e => bitsTo w fun k => e.b.testBit (min (k + e.c) (w - 1)))

/-- R183: the products of 24-bit, w-bit and high halves, read by the type; no flag. -/
def Obligations.MultiplyElements : Prop :=
  (∀ f, IntRow (.imul24 f) f fun t _ e =>
    if f.xm = 1 then (readAs t 24 e.b * readAs t 24 e.c % 2 ^ 48) / 2 ^ 16 else readAs t 24 e.b * readAs t 24 e.c) ∧
  (∀ f, IntRow (.imad24 f) f fun t _ e => (e.d : Int) + readAs t 24 e.b * readAs t 24 e.c) ∧
  (∀ f, IntRow (.imul32 f) f fun t w e => readAs t w e.b * readAs t w e.c) ∧
  (∀ f, IntRow (.imulhi f) f fun t w e => Int.fdiv (readAs t w e.b * readAs t w e.c) (2 ^ w))

/-- R184: quotient and remainder, with the two defined corners; no flag. -/
def Obligations.DivideElements : Prop :=
  ∀ f, IntRow (.idiv f) f fun t w e =>
    let b := readAs t w e.b
    let c := readAs t w e.c
    if c = 0 then (if f.xm = 1 then b else -1)
    else if 4 ≤ t ∧ b = -(2 ^ (w - 1)) ∧ c = -1 then (if f.xm = 1 then 0 else -(2 ^ (w - 1)))
    else if f.xm = 1 then b - c * Int.tdiv b c else Int.tdiv b c

/-- R185: bit counts, and bit fields by the control value of C. -/
def Obligations.BitElements : Prop :=
  (∀ f, IntRow (.popc f) f fun _ w e => (((List.range w).filter fun k => e.b.testBit k).length : Nat)) ∧
  (∀ f, IntRow (.clz f) f fun _ w e => (((List.range w).filter fun k => (span (w - 1 - k) (k + 1)).all fun j => !e.b.testBit j).length : Nat)) ∧
  (∀ f, IntRow (.bfx f) f fun t w e =>
    let pos := e.c % 64
    let len := e.c / 64 % 64 + 1
    readAs t len (if pos < w then e.b / 2 ^ pos % 2 ^ len else 0)) ∧
  (∀ f, IntRow (.bfi f) f fun _ w e =>
    let pos := e.c % 64
    let len := e.c / 64 % 64 + 1
    bitsTo w fun k => if pos ≤ k ∧ k < pos + len then e.b.testBit (k - pos) else e.d.testBit k)

/-- R186, R187, R190: ICMP writes the predicate of its condition on element 0, ISEL selects whole lane values by a predicate, LEA adds the
scaled index; a compare into P7 is illegal. -/
def Obligations.CompareSelectAddress : Prop :=
  (∀ f, PredRow (.icmp f) f.d.num.toNat fun s is l =>
    let w := tyWidth f.ty.toNat
    let b := readAs f.ty.toNat w (elAt (s.group is.g) f w 0 l 0).b
    let c := readAs f.ty.toNat w (elAt (s.group is.g) f w 0 l 0).c
    match f.xm.toNat with
    | 0 => decide (b = c) | 1 => decide (b ≠ c) | 2 => decide (b < c) | 3 => decide (b ≤ c) | 4 => decide (c < b) | _ => decide (c ≤ b)) ∧
  (∀ f, f.d.num = 7 → Instr.wf (.icmp f) = false) ∧
  (∀ f, RunRow (.isel f) f.d fun s is j l =>
    let x := s.group is.g
    (if f.xm = 7 ∨ (getAt 0 x.p f.xm.toNat).getLsbD l = true then cell (x.srcs f).b j l else cell (x.srcs f).c j l, 0)) ∧
  (∀ f, RunRow (.lea f) f.d fun s is j l =>
    let x := (s.group is.g).srcs f
    let c := cell x.c j l
    let index : Int := if f.c.isImm = true ∨ f.ty = 0 ∨ f.ty = 4 then c.toInt else readAs f.ty.toNat 32 c.toNat
    (BitVec.ofInt 64 ((cell x.b j l).toNat + index * 2 ^ f.xm.toNat), 0))

/-- R188, R189, R191: moves copy registers, constants are the sign-extended immediate, the high immediate, or the instruction's own
address plus it, and IDRD reads the identifiers of Table 7.4; no flag. Two values of IDRD are the model's choice: LAMISS (selector 19) counts the pair
that the IDRD itself makes (assumption log 53), and LSEQ (selector 20) reads 0 in a task (assumption log 34). -/
def Obligations.MovesConstantsIdentifiers : Prop :=
  (∀ f, RunRow (.movShort f) ⟨f.k, f.d.setWidth 8, 0⟩ fun s is _ l =>
    (match f.k with | .v => vcell (s.group is.g) f.b.toNat l | .s => (s.group is.g).sreg f.b.toNat, 0)) ∧
  (∀ f, RunRow (.mov f) f.d fun s is j l =>
    (match f.b.file with | .v => vcell (s.group is.g) (f.b.num.toNat + j) l | .s => (s.group is.g).sreg (f.b.num.toNat + j), 0)) ∧
  (∀ f, RunRow (.moviShort f) ⟨f.k, f.d.setWidth 8, 0⟩ fun _ _ _ _ => (BitVec.ofInt 64 f.imm.toInt, 0)) ∧
  (∀ f, RunRow (.movi f) f.d fun _ _ _ _ =>
    (match f.c with | .imm i => BitVec.ofInt 64 i.toInt | .lit l => BitVec.ofInt 64 l.toInt | .reg _ => 0, 0)) ∧
  (∀ f i, f.imm = .imm20 i → RunRow (.immhi f) f.d fun _ _ _ _ => (BitVec.ofInt 64 (i.toInt * 4096), 0)) ∧
  (∀ f i, f.imm = .imm20 i → RunRow (.addpc f) f.d fun _ is _ _ => (BitVec.ofInt 64 (is.a + i.toInt * 4096), 0)) ∧
  (∀ f, RunRow (.idrd f) f.d fun s is _ l =>
    let x := s.group is.g
    let t := s.team x.team
    (match f.c.immNat with
      | 0 => wd l | 1 => wd (l / 4) | 2 => wd x.idx | 3 => wd t.ngroups | 4 => wd t.t
      | 5 => wd (match t.launch with | some n => (s.launch n).teams | none => 1)
      | 6 => wd (t.t % t.crew) | 7 => wd (t.t / t.crew) | 8 => wd ((t.t * t.ngroups + x.idx) * 32 + l)
      | 9 => (x.lane l).word | 10 => wd t.ctx | 16 => wd x.core | 17 => wd (x.core / 4) | 18 => wd (s.core x.core).cycles
      | 19 => ((issued s (.idrd f) is).group is.g).lamiss.setWidth 64 | _ => wd (match t.launch with | some n => (s.launch n).lseq | none => 0), 0))

-- Logarithmic rows ------------------------------------------------------------------------------------------------------------

/-- R192, Table 8.4: products, quotients, reciprocals and roots of logs; NaR operands give NaR without a flag, the corners of the last
column raise NAR, and a product or quotient rounds only beyond the range. -/
def Obligations.LogMultiplyElements : Prop :=
  let mul : Fmt → RMode → El → Nat × Flags := fun fmt m e =>
    match decodeLog fmt e.b, decodeLog fmt e.c with
    | .nar, _ => (narCode fmt, 0)
    | _, .nar => (narCode fmt, 0)
    | .num sb eb, .num sc ec => exactCode fmt m (sb ^^^ sc) (eb + ec) e.r
    | _, _ => (zeroCode fmt, 0)
  (∀ f, LogRow (.lmul f) f mul) ∧
  (∀ f, LogRow (.lmulShort f) (shortFull f 8) mul) ∧
  (∀ f, LogRow (.ldiv f) f fun fmt m e =>
    match decodeLog fmt e.b, decodeLog fmt e.c with
    | .nar, _ => (narCode fmt, 0)
    | _, .nar => (narCode fmt, 0)
    | _, .zero => (narCode fmt, fNAR)
    | .zero, _ => (zeroCode fmt, 0)
    | .num sb eb, .num sc ec => exactCode fmt m (sb ^^^ sc) (eb - ec) e.r) ∧
  (∀ f, LogRow (.lrcp f) f fun fmt m e =>
    match decodeLog fmt e.b with
    | .nar => (narCode fmt, 0)
    | .zero => (narCode fmt, fNAR)
    | .num s x => exactCode fmt m s (-x) e.r) ∧
  (∀ f, LogRow (.lsqrt f) f fun fmt m e =>
    match decodeLog fmt e.b with
    | .nar => (narCode fmt, 0)
    | .zero => (zeroCode fmt, 0)
    | .num 0 x => halfCode fmt m x e.r
    | .num _ _ => (narCode fmt, fNAR)) ∧
  (∀ f, LogRow (.lrsq f) f fun fmt m e =>
    match decodeLog fmt e.b with
    | .nar => (narCode fmt, 0)
    | .zero => (narCode fmt, fNAR)
    | .num 0 x => halfCode fmt m (-x) e.r
    | .num _ _ => (narCode fmt, fNAR))

/-- R193, R25, R35 to R44: LADD and LSUB are addlog of b with c or its negative, LMAC adds the exact product to D with one rounding. addlog is NaR
of a NaR, the other operand of a zero, and else addcore: from the larger log a, 256·a plus the value v of sb or db at the difference dd, in units of
2^-(F+8), rounded by rndlog, with INX unless the sum is exact. v is read from the segments of R38 to R42 or the tables of R43, whose entries are the
nearest integers to sb(d) = log2(1 + 2^-d), db(d) = log2(1 - 2^-d) and their derivatives, given here by enclosures; the formulas of R43 serve every
difference, and past 64 they round to 0. rndlog takes a log in units of 2^-64 and whether something lies above it; the nearest multiple, saturation
and underflow are R25's. -/
def Obligations.LogAddElements : Prop :=
  let add : Fmt → RMode → El → Nat × Flags := fun fmt m e => addlog e.b e.c fmt m e.r
  let sub : Fmt → RMode → El → Nat × Flags := fun fmt m e => addlog e.b (negLog fmt e.c) fmt m e.r
  let mac : Fmt → RMode → El → Nat × Flags := fun fmt m e =>
    match decodeLog fmt e.d, decodeLog fmt e.b, decodeLog fmt e.c with
    | .nar, _, _ => (narCode fmt, 0)
    | _, .nar, _ => (narCode fmt, 0)
    | _, _, .nar => (narCode fmt, 0)
    | _, .zero, _ => (canon fmt e.d, 0)
    | _, _, .zero => (canon fmt e.d, 0)
    | .zero, .num sb eb, .num sc ec => exactCode fmt m (sb ^^^ sc) (eb + ec) e.r
    | .num sd ed, .num sb eb, .num sc ec => addcore sd ed (sb ^^^ sc) (eb + ec) fmt m e.r
  let fmts : List Fmt := [l32, l16, l8, l8w]
  let pow := fun (n : Int) (k p : Nat) => (exp2Dyadic p n k).2.shr (-(exp2Dyadic p n k).1)
  let sb := fun (n k p : Nat) => log2I p ((one p).add (pow (-(n : Int)) k p))
  let db := fun (n k p : Nat) => log2I p ((one p).sub (pow (-(n : Int)) k p))
  let sb1 := fun (n k p : Nat) => Iv.div p ((one p).neg) ((one p).add (pow n k p))
  let db1 := fun (n k p : Nat) => Iv.div p (one p) ((pow n k p).sub (one p))
  let sb2 := fun (n k p : Nat) =>
    Iv.mul p (ln2I p) (Iv.div p (Iv.div p (pow n k p) ((one p).add (pow n k p))) ((one p).add (pow n k p)))
  let db2 := fun (n k p : Nat) =>
    (Iv.mul p (ln2I p) (Iv.div p (Iv.div p (pow n k p) ((pow n k p).sub (one p))) ((pow n k p).sub (one p)))).neg
  let seg : Int → Int → Int → Nat → Int := fun b0 b1 b2 tau => b0 + Int.fdiv (b1 * tau) (2 ^ 16) + Int.fdiv (b2 * (tau * tau / 2 ^ 16 : Nat)) (2 ^ 16)
  let sbAt : Nat → Int := fun dd =>
    let n := dd - dd % 2 ^ 16
    seg (if n = 0 then 2 ^ 30 else rnReal (sb n 22) 30) (rnReal (fun p => (sb1 n 22 p).shr 6) 30) (rnReal (fun p => (sb2 n 22 p).shr 13) 30) (dd % 2 ^ 16)
  let dbAt : Nat → Nat → Nat → Int := fun dd low w =>
    let n := dd - dd % 2 ^ low
    seg (rnReal (db n 22) 30) (rnReal (fun p => (db1 n 22 p).shr w) 30) (rnReal (fun p => (db2 n 22 p).shr (2 * w + 1)) 30) (dd % 2 ^ low * 2 ^ (16 - low))
  let dbTop : Nat → Int := fun dd => if dd = 2 ^ 22 then -(2 ^ 30) else dbAt dd 14 8
  let near : Nat → Int := fun dd =>
    let n := Nat.log2 dd
    let mm := dd * 2 ^ (15 - n)
    let i := mm / 2 ^ 9 % 64
    let h : Nat := mm % 2 ^ 9
    let g0 : Int := if i = 0 then 0 else rnReal (fun p => log2RatI p (64 + i) 64) 30
    let g1 := rnReal (fun p => Iv.div p ((one p).scale 64) ((ln2I p).scale (64 + i : Nat))) 23
    let g2 := rnReal (fun p => Iv.div p ((one p).scale 2048) ((ln2I p).scale ((64 + i) * (64 + i) : Nat))) 20
    n * 2 ^ 30 + g0 + Int.fdiv (g1 * h) (2 ^ 8) - Int.fdiv (g2 * h * h) (2 ^ 20) - 22 * 2 ^ 30 - 567758570 - dd * 2 ^ 7
  (∀ fmt ∈ fmts, ∀ x y m rho, addlog x y fmt m rho = match decodeLog fmt x, decodeLog fmt y with
    | .nar, _ => (narCode fmt, 0)
    | _, .nar => (narCode fmt, 0)
    | .zero, _ => (canon fmt y, 0)
    | _, .zero => (canon fmt x, 0)
    | .num sx ex, .num sy ey => addcore sx ex sy ey fmt m rho) ∧
  (∀ fmt ∈ fmts, ∀ sx sy (ex ey : Int) m rho,
    let s := if ey ≤ ex then sx else sy
    let a := max ex ey
    let dd := (ex - ey).natAbs
    let r := rndDyadic s (a * 256 + if sx = sy then sbv fmt dd else dbv fmt dd) (fmt.F + 8) fmt m rho
    addcore sx ex sy ey fmt m rho =
      if sx ≠ sy ∧ dd = 0 then (zeroCode fmt, 0)
      else if dd = 0 ∨ (sx ≠ sy ∧ dd = 2 ^ fmt.F) then r else (r.1, r.2 ||| fINX)) ∧
  (∀ dd, sbv l32 dd = if dd < 0x04000000 then sbAt dd else if dd < 0x05000000 then Int.fdiv (sbAt (dd - 0x01000000)) 16
    else if dd < 0x06000000 then Int.fdiv (sbAt (dd - 0x02000000)) 256 else 0) ∧
  (∀ dd, 0 < dd → dbv l32 dd = if dd < 0x00010000 then near dd
    else if dd < 0x00400000 then dbAt dd (Nat.log2 dd - 8) (30 - Nat.log2 dd)
    else if dd < 0x04000000 then dbTop dd else if dd < 0x05000000 then Int.fdiv (dbTop (dd - 0x01000000)) 16
    else if dd < 0x06000000 then Int.fdiv (dbTop (dd - 0x02000000)) 256 else 0) ∧
  (∀ dd, sbv l16 dd = if 4096 ≤ dd then 0 else
    (if dd < 16 then 2 ^ 16 else rnReal (sb (dd - dd % 16) 8) 16) +
      Int.fdiv (rnReal (fun p => (sb1 (dd - dd % 16) 8 p).shr 4) 16 * (dd % 16 : Nat)) 16) ∧
  (∀ dd, 0 < dd → dbv l16 dd = if 4096 ≤ dd then 0 else if dd < 256 then rnReal (db dd 8) 16 else
    (if dd < 260 then -(2 ^ 16) else rnReal (db (dd - dd % 4) 8) 16) +
      Int.fdiv (rnReal (fun p => (db1 (dd - dd % 4) 8 p).shr 6) 16 * (dd % 4 : Nat)) 4) ∧
  (∀ fmt ∈ [l8, l8w], ∀ dd, 0 < dd → sbv fmt 0 = 2 ^ (fmt.F + 8) ∧
    (dd < 64 * 2 ^ fmt.F → sbv fmt dd = rnReal (sb dd fmt.F) (fmt.F + 8) ∧
      dbv fmt dd = if dd = 2 ^ fmt.F then -(2 ^ (fmt.F + 8)) else rnReal (db dd fmt.F) (fmt.F + 8)) ∧
    (64 * 2 ^ fmt.F ≤ dd → sbv fmt dd = 0 ∧ dbv fmt dd = 0)) ∧
  dbv l32 1 = -24190078826 ∧ sbv l16 261 = 37909 ∧ sbv l16 0 = 65536 ∧
  (∀ f k (r : Int), 2 ^ 97 * r ≤ 2 * (f 96).lo * 2 ^ k + 2 ^ 96 → 2 * (f 96).hi * 2 ^ k + 2 ^ 96 < 2 ^ 97 * (r + 1) → (f 96).lo ≤ (f 96).hi →
    rnReal f k = r) ∧
  (∀ fmt ∈ fmts, ∀ s n k m rho, k ≤ 64 → rndDyadic s n k fmt m rho = rndlog s ⟨n * 2 ^ (64 - k), false⟩ (.pow n k) fmt m rho) ∧
  (∀ fmt ∈ fmts, ∀ s (c : Int) above mag m rho, s < 2 →
    let d := 64 - fmt.F
    let m0 := Int.fdiv c (2 ^ d)
    let q := c - m0 * 2 ^ d
    let inexact := q ≠ 0 ∨ above = true
    let up : Bool := match m with
      | .rn => decide (2 ^ d < 2 * q ∨ (2 * q = 2 ^ d ∧ (above = true ∨ m0 % 2 = 1)))
      | .ra => decide (2 ^ d ≤ 2 * q)
      | .rz => false
      | .ru => decide (inexact ∧ s = 0)
      | .rd => decide (inexact ∧ s = 1)
      | .rs => decide ((2 : Int) ^ fmt.w ≤ Int.fdiv (q * 2 ^ fmt.w) (2 ^ d) + rho)
    let r := if up then m0 + 1 else m0
    let vanishes : Bool := match m with
      | .rn => decide (c < fmt.emin * 2 ^ d - 2 ^ 64)
      | .ra => decide (c < fmt.emin * 2 ^ d - 2 ^ 64)
      | .rz => true
      | .ru => decide (s = 1)
      | .rd => decide (s = 0)
      | .rs => decide ((mag.scaled (fmt.w - Int.fdiv fmt.emin (2 ^ fmt.F))).1 + rho < 2 ^ fmt.w)
    rndlog s ⟨c, above⟩ mag fmt m rho =
      if (m = .rs ∧ m0 < fmt.emin) ∨ r < fmt.emin then (if vanishes then zeroCode fmt else codeOf fmt s fmt.emin, fUNF ||| fINX)
      else if fmt.emax < r then (codeOf fmt s fmt.emax, fOVF ||| fINX)
      else (codeOf fmt s r, if inexact then fINX else 0)) ∧
  (∀ fmt ∈ fmts, fmt.emin = -(2 ^ (fmt.w - 3)) ∧ fmt.emax = 2 ^ (fmt.w - 3) - 1 ∧ zeroCode fmt = 2 ^ (fmt.w - 2) ∧ narCode fmt = 3 * 2 ^ (fmt.w - 2) ∧
    (∀ z, z < 2 ^ (fmt.w - 2) → decodeLog fmt (2 ^ (fmt.w - 2) + z) = .zero ∧ decodeLog fmt (3 * 2 ^ (fmt.w - 2) + z) = .nar) ∧
    ∀ s (e : Int), fmt.emin ≤ e → e ≤ fmt.emax → s < 2 → decodeLog fmt (codeOf fmt s e) = .num s e ∧ codeOf fmt s e < 2 ^ fmt.w) ∧
  (∀ f, LogRow (.ladd f) f add) ∧ (∀ f, LogRow (.laddShort f) (shortFull f 8) add) ∧
  (∀ f, LogRow (.lsub f) f sub) ∧ (∀ f, LogRow (.lsubShort f) (shortFull f 8) sub) ∧
  (∀ f, LogRow (.lmac f) f mac) ∧ (∀ f, LogRow (.lmacShort f) (shortFull f 8) mac)

/-- R194, R195: signs and order. LNEG flips and LABS clears the sign of a number and leaves zero and NaR; LMIN and LMAX give the value of
lesser or greater key, or NaR; LCMP writes the predicate of its condition on the keys. No flag. -/
def Obligations.LogSignAndOrder : Prop :=
  let least : Fmt → RMode → El → Nat × Flags := fun fmt _ e =>
    match logKey fmt (decodeLog fmt e.b), logKey fmt (decodeLog fmt e.c) with
    | some x, some y => (if y < x then canon fmt e.c else canon fmt e.b, 0)
    | _, _ => (narCode fmt, 0)
  let greatest : Fmt → RMode → El → Nat × Flags := fun fmt _ e =>
    match logKey fmt (decodeLog fmt e.b), logKey fmt (decodeLog fmt e.c) with
    | some x, some y => (if x < y then canon fmt e.c else canon fmt e.b, 0)
    | _, _ => (narCode fmt, 0)
  (∀ f, LogRow (.lneg f) f fun fmt _ e =>
    (match decodeLog fmt e.b with | .num s x => codeOf fmt (1 - s) x | .zero => zeroCode fmt | .nar => narCode fmt, 0)) ∧
  (∀ f, LogRow (.labs f) f fun fmt _ e =>
    (match decodeLog fmt e.b with | .num _ x => codeOf fmt 0 x | .zero => zeroCode fmt | .nar => narCode fmt, 0)) ∧
  (∀ f, LogRow (.lmin f) f least) ∧ (∀ f, LogRow (.lminShort f) (shortFull f 8) least) ∧
  (∀ f, LogRow (.lmax f) f greatest) ∧ (∀ f, LogRow (.lmaxShort f) (shortFull f 8) greatest) ∧
  (∀ fmt : Fmt, ∀ e : Int, logKey fmt .zero = some 0 ∧ logKey fmt .nar = none ∧
    logKey fmt (.num 0 e) = some (e + 2 ^ (fmt.w - 3) + 1) ∧ logKey fmt (.num 1 e) = some (-(e + 2 ^ (fmt.w - 3) + 1))) ∧
  (∀ f, PredRow (.lcmp f) f.d.num.toNat fun s is l =>
    let fmt := fmtOf f.ty.toNat
    let e := elAt (s.group is.g) f (tyWidth f.ty.toNat) 0 l 0
    match logKey fmt (decodeLog fmt e.b), logKey fmt (decodeLog fmt e.c) with
    | some x, some y => (match f.xm.toNat with
      | 0 => decide (x = y) | 1 => decide (x ≠ y) | 2 => decide (x < y) | 3 => decide (x ≤ y) | 4 => decide (y < x) | 5 => decide (y ≤ x)
      | _ => false)
    | _, _ => decide (f.xm = 1 ∨ f.xm = 6))

/-- R196 to R199: LSCALE adds n · 2^-f to the log, LEXT writes the log or its floor, LFROM builds a code from an integer log, LRND rounds
to fewer fraction bits; zero and NaR by their rules. -/
def Obligations.LogScaleExtractBuildRound : Prop :=
  (∀ f, LogRow (.lscale f) f fun fmt m e =>
    match decodeLog fmt e.b with
    | .nar => (narCode fmt, 0)
    | .zero => (zeroCode fmt, 0)
    | .num s x =>
      let n := Int.bmod e.c (2 ^ fmt.w)
      let fr := f.xm.toNat
      if fr ≤ fmt.F then exactCode fmt m s (x + n * 2 ^ (fmt.F - fr)) e.r
      else rndDyadic s (x * 2 ^ (fr - fmt.F) + n) fr fmt m e.r) ∧
  (∀ f, LogRow (.lext f) f fun fmt _ e =>
    (match decodeLog fmt e.b with
    | .zero => 2 ^ (fmt.w - 1)
    | .nar => 2 ^ (fmt.w - 1) - 1
    | .num _ x => wrapped fmt.w (if f.xm = 1 then Int.fdiv x (2 ^ fmt.F) else x), 0)) ∧
  (∀ f, LogRow (.lfrom f) f fun fmt m e =>
    let n := Int.bmod e.b (2 ^ fmt.w)
    if n = -(2 ^ (fmt.w - 1)) then (zeroCode fmt, 0)
    else if n = 2 ^ (fmt.w - 1) - 1 then (narCode fmt, 0)
    else exactCode fmt m (if f.xm = 1 then 1 else 0) n 0) ∧
  (∀ f, LogRow (.lrnd f) f fun fmt m e =>
    let fr := e.c % 32
    match decodeLog fmt e.b with
    | .nar => (narCode fmt, 0)
    | .zero => (zeroCode fmt, 0)
    | .num s x =>
      if fmt.F ≤ fr then (canon fmt e.b, 0)
      else
        let step : Int := 2 ^ (fmt.F - fr)
        let top := Int.fdiv fmt.emax step
        let q := Int.fdiv x step
        let rest := x - q * step
        let up : Bool := match m with
          | .rn => decide (step < 2 * rest) || (decide (2 * rest = step) && q % 2 == 1)
          | .ra => decide (step ≤ 2 * rest)
          | .rz => false
          | .ru => rest != 0 && s == 0
          | .rd => rest != 0 && s == 1
          | .rs => decide ((2 : Int) ^ fmt.w ≤ rest * 2 ^ (fmt.w + fr - fmt.F) + e.r)
        let r := if up then q + 1 else q
        if top < r then (codeOf fmt s (top * step), fOVF ||| fINX) else (codeOf fmt s (r * step), if rest = 0 then 0 else fINX))

/-- R200 to R204: LCVT moves elements between an 8-bit format and a wider one through a scale; LDOT4 accumulates two four-term dot products,
each leaf the exact product rounded into L32; CVT takes the exact value of each element (R22, Table 1.5) and rounds it by its pair of types:
integers keep the low bits or saturate, logs round by rndlog, IEEE destinations by R29, integer destinations in the linear domain. The log of a
rational is exact for a power of two and else the floor of its enclosed value with something above it (R28). R29 to R31: an export rounds the
magnitude, a rational or a power of two given by its floors, at the last bit of its binade, no lower than the smallest subnormal's; what rounds
beyond the largest finite value, and in a format without infinities what lies beyond it, overflows by its mode; INX is raised when something is
discarded, and UNF when the magnitude also lies below the smallest normal. -/
def Obligations.ConversionsAndDotProducts : Prop :=
  (∀ fmt ∈ [l32, l16, l8, l8w], ∀ s n d m rho, 0 < n → 0 < d →
    (∀ e : Int, (n * 2 ^ (-e).toNat = d * 2 ^ e.toNat) → rndRat s n d fmt m rho = rndlog s ⟨e * 2 ^ 64, false⟩ (.rat n d) fmt m rho) ∧
    ((∀ e : Int, n * 2 ^ (-e).toNat ≠ d * 2 ^ e.toNat) →
      rndRat s n d fmt m rho = rndlog s ⟨floorReal (fun p => log2RatI p n d) 64, true⟩ (.rat n d) fmt m rho)) ∧
  (∀ n d (k : Int), 0 < n → 0 < d →
    (Mag.rat n d).scaled k = (n * 2 ^ k.toNat / (d * 2 ^ (-k).toNat), decide (n * 2 ^ k.toNat % (d * 2 ^ (-k).toNat) ≠ 0)) ∧
    ∀ e : Int, d * 2 ^ e.toNat ≤ n * 2 ^ (-e).toNat → n * 2 ^ (-e).toNat < 2 * (d * 2 ^ e.toNat) → (Mag.rat n d).exp = e) ∧
  (∀ (n : Int) F (k : Int), (Mag.pow n F).exp = Int.fdiv n (2 ^ F) ∧
    (n % 2 ^ F = 0 → (Mag.pow n F).scaled k = if 0 ≤ Int.fdiv n (2 ^ F) + k then (2 ^ (Int.fdiv n (2 ^ F) + k).toNat, false) else (0, true)) ∧
    (n % 2 ^ F ≠ 0 → (Mag.pow n F).scaled k = if Int.fdiv n (2 ^ F) + k < -1 then (0, true)
      else ((floorReal (fun p => (exp2Dyadic p n F).2) (Int.fdiv n (2 ^ F) + k)).toNat, true))) ∧
  (∀ f : IFmt, f ∈ (List.range 6).map (fun i => ifmtOf (12 + i)) → ∀ block sg mag m rho, sg < 2 →
    let emin : Int := 1 - (f.bias : Int)
    let e := max emin (Mag.exp mag)
    let cut := Mag.scaled mag (f.mb - e + 64)
    let k : Nat := cut.1 / 2 ^ 64
    let rest : Nat := cut.1 % 2 ^ 64
    let inexact := rest ≠ 0 ∨ cut.2 = true
    let up : Bool := match m with
      | .rn => decide (2 ^ 63 < rest ∨ (rest = 2 ^ 63 ∧ (cut.2 = true ∨ k % 2 = 1)))
      | .ra => decide (2 ^ 63 ≤ rest)
      | .rz => false
      | .ru => decide (inexact ∧ sg = 0)
      | .rd => decide (inexact ∧ sg = 1)
      | .rs => decide (2 ^ f.width ≤ rest / 2 ^ (64 - f.width) + rho)
    let place := (e - emin).toNat * 2 ^ f.mb
    let code := place + if up then k + 1 else k
    let saturates := f.inf = false ∨ block = true
    let largest := if f.inf then f.infCode - 1 else if f.nan then 2 ^ (f.eb + f.mb) - 2 else 2 ^ (f.eb + f.mb) - 1
    let most : Nat := if saturates then largest else match m with
      | .rn => f.infCode
      | .ra => f.infCode
      | .rz => largest
      | .rs => largest
      | .ru => if sg = 0 then f.infCode else largest
      | .rd => if sg = 1 then f.infCode else largest
    exportIeee f block sg mag m rho =
      if largest < code ∨ (saturates ∧ place + k = largest ∧ inexact) then (sg * 2 ^ (f.eb + f.mb) + most, fOVF ||| fINX)
      else (sg * 2 ^ (f.eb + f.mb) + code, (if inexact then fINX else 0) ||| (if inexact ∧ Mag.exp mag < emin then fUNF else 0))) ∧
  (∀ f, RunRow (.lcvt f) f.d fun s is j l =>
    let x := s.group is.g
    let fs := fmtOf (8 + f.xm.toNat % 4)
    let fd := fmtOf f.ty.toNat
    let k := Int.bmod ((cell (x.src f.c 1) 0 l).toNat % 256) 256
    buildElems fd.w fun n =>
      match decodeLog fs (runElem (x.run f.b) fs.w l (j * (64 / fd.w) + n)) with
      | .nar => (narCode fd, 0)
      | .zero => (zeroCode fd, 0)
      | .num sg e => rndDyadic sg (if fs.w = 8 then e + k * 2 ^ fs.F else e - k * 2 ^ fs.F) fs.F fd (rmodeOf f.rnd.toNat)
          (elem (cell (x.rand f) j l) fd.w n)) ∧
  (∀ f c, f.c = .reg c → RunRow (.ldot4 f) f.d fun s is j l =>
    let x := s.group is.g
    let fmt := fmtOf f.ty.toNat
    let m := rmodeOf f.rnd.toNat
    let nm := if m = .rs then .rn else m
    buildElems 32 fun k =>
      let leaf : Nat → Nat × Flags := fun i =>
        match decodeLog fmt (runElem (x.run f.b) fmt.w l (4 * k + i)), decodeLog fmt (runElem (x.run c) fmt.w l (4 * k + i)) with
        | .nar, _ => (narCode l32, 0)
        | _, .nar => (narCode l32, 0)
        | .zero, _ => (zeroCode l32, 0)
        | _, .zero => (zeroCode l32, 0)
        | .num sx ex, .num sy ey => rndDyadic (sx ^^^ sy) (ex + ey) fmt.F l32 nm 0
      let left := addlog (leaf 0).1 (leaf 1).1 l32 nm 0
      let right := addlog (leaf 2).1 (leaf 3).1 l32 nm 0
      let root := addlog left.1 right.1 l32 nm 0
      let acc := addlog (elem (cell (x.run f.d) j l) 32 k) root.1 l32 m (elem (cell (x.rand f) j l) 32 k)
      (acc.1, (leaf 0).2 ||| (leaf 1).2 ||| (leaf 2).2 ||| (leaf 3).2 ||| left.2 ||| right.2 ||| root.2 ||| acc.2)) ∧
  (∀ f c, f.c = .reg c → RunRow (.cvt f) f.d fun s is j l =>
    let x := s.group is.g
    let ts := c.num.toNat
    let td := f.ty.toNat
    let m := rmodeOf f.rnd.toNat
    let w := tyWidth td
    let int : Int × Flags → Nat × Flags := fun r => (wrapped w r.1, r.2)
    buildElems w fun k =>
      let v := runElem (x.run f.b) (tyWidth ts) l (j * (64 / w) + k)
      let rho := elem (cell (x.rand f) j l) w k
      if ts < 8 then
        let n := readAs ts (tyWidth ts) v
        let sg := if n < 0 then 1 else 0
        if td < 8 then (wrapped w (if f.xm = 1 then max (leastOf td w) (min (mostOf td w) n) else n), 0)
        else if td < 12 then if n = 0 then (zeroCode (fmtOf td), 0) else rndRat sg n.natAbs 1 (fmtOf td) m rho
        else if n = 0 then (0, 0) else exportIeee (ifmtOf td) false sg (.rat n.natAbs 1) m rho
      else if ts < 12 then
        match decodeLog (fmtOf ts) v with
        | .nar => if td < 8 then (0, fNAR ||| fINX) else if td < 12 then (narCode (fmtOf td), 0)
            else if (ifmtOf td).nan then ((ifmtOf td).nanCode, 0) else (0, fNAR ||| fINX)
        | .zero => if 8 ≤ td ∧ td < 12 then (zeroCode (fmtOf td), 0) else (0, 0)
        | .num sg e =>
          if td < 8 then int (toInteger (leastOf td w) (mostOf td w) sg (.pow e (fmtOf ts).F) m)
          else if td < 12 then rndDyadic sg e (fmtOf ts).F (fmtOf td) m rho
          else exportIeee (ifmtOf td) false sg (.pow e (fmtOf ts).F) m rho
      else
        match decodeIeee (ifmtOf ts) v with
        | .nan => if td < 8 then (0, fNAR ||| fINX) else if td < 12 then (narCode (fmtOf td), fNAR)
            else if (ifmtOf td).nan then ((ifmtOf td).nanCode, 0) else (0, fNAR ||| fINX)
        | .inf sg => if td < 8 then (wrapped w (if sg = 1 then leastOf td w else mostOf td w), fOVF ||| fINX)
            else if td < 12 then (codeOf (fmtOf td) sg (fmtOf td).emax, fINF)
            else if (ifmtOf td).inf then ((ifmtOf td).signed sg (ifmtOf td).infCode, 0)
            else ((ifmtOf td).signed sg (ifmtOf td).maxCode, fOVF ||| fINX)
        | .zero sg => if td < 8 then (0, 0) else if td < 12 then (zeroCode (fmtOf td), 0) else ((ifmtOf td).signed sg 0, 0)
        | .fin sg a e =>
          let num := if 0 ≤ e then a * 2 ^ e.toNat else a
          let den := if 0 ≤ e then 1 else 2 ^ (-e).toNat
          if td < 8 then int (toInteger (leastOf td w) (mostOf td w) sg (.rat num den) m)
          else if td < 12 then rndRat sg num den (fmtOf td) m rho
          else exportIeee (ifmtOf td) false sg (.rat num den) m rho) ∧
  (∀ t w sg a b m, 0 < a → 0 < b → 0 < w → w ≤ 64 → sg < 2 →
    let q := a / b
    let up : Bool := match m with
      | .rn => decide (b < 2 * (a % b) ∨ b = 2 * (a % b) ∧ q % 2 = 1)
      | .ra => decide (b ≤ 2 * (a % b))
      | .ru => decide (a % b ≠ 0 ∧ sg = 0)
      | .rd => decide (a % b ≠ 0 ∧ sg = 1)
      | _ => false
    let r : Int := ((if up then q + 1 else q : Nat) : Int)
    let v := if sg = 1 then -r else r
    toInteger (leastOf t w) (mostOf t w) sg (.rat a b) m =
      if v < leastOf t w then (leastOf t w, fOVF ||| fINX) else if mostOf t w < v then (mostOf t w, fOVF ||| fINX)
      else (v, if a % b = 0 then 0 else fINX)) ∧
  (∀ t w sg F m (n : Int), 0 < w → w ≤ 64 → toInteger (leastOf t w) (mostOf t w) sg (.pow (n * 2 ^ F) F) m =
    toInteger (leastOf t w) (mostOf t w) sg (.rat (2 ^ n.toNat) (2 ^ (-n).toNat)) m) ∧
  (∀ t c : Nat, 12 ≤ t → t ≤ 17 →
    let f := ifmtOf t
    let sg : Nat := c / 2 ^ (f.eb + f.mb) % 2
    let e : Nat := c / 2 ^ f.mb % 2 ^ f.eb
    let a : Nat := c % 2 ^ f.mb
    (e = 0 → a = 0 → decodeIeee f c = .zero sg) ∧ (e = 0 → a ≠ 0 → decodeIeee f c = .fin sg a (1 - (f.bias : Int) - f.mb)) ∧
    (e ≠ 0 → (f.nan = false ∨ e ≠ 2 ^ f.eb - 1 ∨ (f.inf = false ∧ a ≠ 2 ^ f.mb - 1)) →
      decodeIeee f c = .fin sg (2 ^ f.mb + a) ((e : Int) - f.bias - f.mb)) ∧
    (f.inf = true → e = 2 ^ f.eb - 1 → decodeIeee f c = if a = 0 then .inf sg else .nan) ∧
    (f.inf = false → f.nan = true → e = 2 ^ f.eb - 1 → a = 2 ^ f.mb - 1 → decodeIeee f c = .nan))

/-- R205, R207, R209 to R213: each function instruction writes, element by element, NaR for NaR without a flag, the result of Table 9.3 for a
settled input, and otherwise, with INX, the rounded estimate of the fast path, or, in a plain form whose two ends of the estimate round to
other codes or other OVF and UNF, the rounded exact log of the function's value with the sign of that value. `U` is the input log in units
of 2^-40, n and fr its split; a result that is no number's is the zero input of FSOFTP. kPw, kLg, kHs and kGf are the kernels of Table 9.4,
cC2E, cLE, cCE and cK40 the constants of R209; the exact logs are given by enclosures of the formulas of Tables 9.1 and 9.5. -/
def Obligations.FunctionElements : Prop :=
  let top : Int := 2 ^ 48
  let pow2 : Int → Int × Int × Int := fun W =>
    let n := Int.fdiv W (2 ^ 40)
    let fr := (W - n * 2 ^ 40).toNat
    (n, if 0 ≤ n then kPw fr * 2 ^ n.toNat else Int.fdiv (kPw fr) (2 ^ (-n).toNat),
      if fr = 0 ∧ -40 ≤ n then 0 else 6 * 2 ^ n.toNat + 1)
  let tail : Int → Int × Int := fun U =>
    let p := pow2 U
    if 8 ≤ p.1 then (-top, 0) else (-Int.fdiv (p.2.1 * cLE) (2 ^ 40), 2 * p.2.2 + 2 ^ p.1.toNat + 1)
  let fast : Fn → Nat → Int → Fmt → Nat × Int × Int := fun fn sg e fmt =>
    let U := e * 2 ^ (40 - fmt.F)
    let expo : Int → Bool → Nat × Int × Int := fun W ln =>
      let p := pow2 W
      if 8 ≤ p.1 then (0, if sg = 0 then top else -top, 0)
      else (0, if sg = 0 then p.2.1 else -p.2.1, p.2.2 + if ln then 2 ^ p.1.toNat else 0)
    let logs : Int → Int → Nat × Int × Int := fun add beta =>
      let p := Nat.log2 e.natAbs
      (if e < 0 then 1 else 0, ((p : Int) - fmt.F) * 2 ^ 40 + kLg (e.natAbs * 2 ^ (40 - p) - 2 ^ 40) + add, beta)
    let trig : Bool → Nat × Int × Int := fun cos =>
      let p := pow2 U
      let y0 := Int.emod (p.2.1 + if cos then 2 ^ 39 else 0) (2 ^ 41)
      let s0 := if cos then 0 else sg
      let s1 := if 2 ^ 40 ≤ y0 then 1 - s0 else s0
      let y1 := if 2 ^ 40 ≤ y0 then y0 - 2 ^ 40 else y0
      let y := (if 2 ^ 39 < y1 then 2 ^ 40 - y1 else y1).toNat
      let q := Nat.log2 y
      let lam := ((q : Int) - 40) * 2 ^ 40 + kLg (y * 2 ^ (40 - q) - 2 ^ 40)
      if y = 0 then (s1, -top, top)
      else if cos = false ∧ p.1 ≤ -2 then (s1, U + kHs y, 8 + 4 * p.2.2)
      else if (y : Int) ≤ p.2.2 then (s1, lam + kHs y, top)
      else (s1, lam + kHs y, 8 + 4 * p.2.2 + cdiv (3 * p.2.2 * 2 ^ 39) y)
    let branch : Int × Int → Int × Int → Int × Int := fun small large =>
      if U < -(40 * 2 ^ 40) then small else if 6 * 2 ^ 40 ≤ U then large else (kGf fn sg U, 256)
    match fn with
    | .exp2 => expo U false
    | .exp => expo (U + cC2E) true
    | .log2 => logs 0 5
    | .ln => logs cK40 6
    | .sinpi => trig false
    | .cospi => trig true
    | .tanh => (sg, branch (U, 1) (0, 1))
    | .erf => (sg, branch (U + cCE, 2) (0, 1))
    | .sigm => (0, branch (-(2 ^ 40), 1) (if sg = 0 then (0, 1) else tail U))
    | .softp => (0, branch (cK40, 2) (if sg = 0 then (U, 1) else tail U))
  let atZero : Fn → Fmt → Option (Nat × Flags) := fun fn fmt =>
    match fn with
    | .exp2 => some (codeOf fmt 0 0, 0)
    | .exp => some (codeOf fmt 0 0, 0)
    | .log2 => some (codeOf fmt 1 fmt.emax, fOVF ||| fINX)
    | .ln => some (codeOf fmt 1 fmt.emax, fOVF ||| fINX)
    | .sinpi => some (zeroCode fmt, 0)
    | .cospi => some (codeOf fmt 0 0, 0)
    | .tanh => some (zeroCode fmt, 0)
    | .erf => some (zeroCode fmt, 0)
    | .sigm => some (codeOf fmt 0 (-(2 ^ fmt.F)), 0)
    | .softp => none
  let atNumber : Fn → Fmt → RMode → Nat → Int → Option (Nat × Flags) := fun fn fmt m sg e =>
    let n := Int.fdiv e (2 ^ fmt.F)
    let whole := e - n * 2 ^ fmt.F = 0
    let half := -(2 ^ (fmt.F - 1) : Int)
    match fn with
    | .exp2 =>
      let y : Int := 2 ^ (40 + n).toNat
      if whole ∧ -40 ≤ n then some (rndDyadic 0 (if sg = 0 then y else -y) 40 fmt m 0) else none
    | .log2 =>
      if sg = 1 then some (narCode fmt, fNAR)
      else if e = 0 then some (zeroCode fmt, 0)
      else if e.natAbs = 2 ^ Nat.log2 e.natAbs
        then some (codeOf fmt (if e < 0 then 1 else 0) (((Nat.log2 e.natAbs : Int) - fmt.F) * 2 ^ fmt.F), 0)
      else none
    | .ln => if sg = 1 then some (narCode fmt, fNAR) else if e = 0 then some (zeroCode fmt, 0) else none
    | .sinpi =>
      if ¬ whole then none
      else if 0 ≤ n then some (zeroCode fmt, 0)
      else if n = -1 then some (codeOf fmt sg 0, 0)
      else if n = -2 then some (codeOf fmt sg half, 0)
      else none
    | .cospi =>
      if ¬ whole then none
      else if 1 ≤ n then some (codeOf fmt 0 0, 0)
      else if n = 0 then some (codeOf fmt 1 0, 0)
      else if n = -1 then some (zeroCode fmt, 0)
      else if n = -2 then some (codeOf fmt 0 half, 0)
      else none
    | _ => none
  let exact : Fn → Nat → Int → Fmt → Nat × LogVal := fun fn sg e fmt =>
    let n := Int.fdiv e (2 ^ fmt.F)
    let v := fun p => powAt p e fmt.F
    let huge : Bool → LogVal := fun neg => ⟨if neg then -(2 ^ 74) else 2 ^ 74, true⟩
    let expo : Bool → Nat × LogVal := fun ln =>
      if 10 ≤ n then (0, huge (sg == 1))
      else if ln = false ∧ e % 2 ^ fmt.F = 0 then
        if -64 ≤ n then (0, .dyadic ((if sg = 0 then 1 else -1) * 2 ^ (64 + n).toNat) 64) else (0, ⟨if sg = 0 then 0 else -1, true⟩)
      else (0, .ofReal fun p =>
        let y := if ln then Iv.mul p (v p) (log2eI p) else v p
        if sg = 0 then y else y.neg)
    let trig : Bool → Nat × LogVal := fun cos =>
      let deep := fun p : Nat => p + n.toNat + 2
      let turned := fun p => ((v (deep p)).scale 2).add ((one (deep p)).scale (if cos then 1 else 0))
      let k := floorReal (fun p => ⟨asr (turned p).lo (deep p - p + 1), asr (turned p).hi (deep p - p + 1)⟩) 0
      (((if k % 2 = 0 then 0 else 1) + if cos then 0 else sg) % 2, .ofReal fun p =>
        let r := ((turned p).sub (((one (deep p)).scale k).scale 2)).shr 1
        let r := if (one (deep p)).lo < 2 * r.lo then (one (deep p)).sub r else r
        (log2I (deep p) (sinI (deep p) (Iv.mul (deep p) (piI (deep p)) r))).shr ((deep p - p : Nat) : Int))
    match fn with
    | .exp2 => expo false
    | .exp => expo true
    | .log2 => (if e < 0 then 1 else 0, .ofRat e.natAbs (2 ^ fmt.F))
    | .ln => (if e < 0 then 1 else 0, .ofReal fun p => (log2RatI p (max e.natAbs 1) (2 ^ fmt.F)).add (log2I p (ln2I p)))
    | .sinpi => trig false
    | .cospi => trig true
    | .tanh => (sg, if 6 ≤ n then ⟨-1, true⟩ else .ofReal fun p => gTanh p (v p) .f)
    | .erf => (sg, if 3 ≤ n then ⟨-1, true⟩ else .ofReal fun p => gErf p (v p) .f)
    | .sigm => (0, if sg = 0 then (if 6 ≤ n then ⟨-1, true⟩ else .ofReal fun p => gSigm p 0 (v p) .f)
        else if 10 ≤ n then huge true else .ofReal fun p => gSigm p 1 (v p) .f)
    | .softp => (0, if sg = 0 then (if 6 ≤ n then ⟨e * 2 ^ (64 - fmt.F), true⟩ else .ofReal fun p => gSoftp p 0 (v p) .f)
        else if 10 ≤ n then huge true else .ofReal fun p => gSoftp p 1 (v p) .f)
  let unsettled : Bool → Fmt → RMode → Nat × Int × Int → Nat × LogVal → Nat × Flags := fun short fmt m t x =>
    let near := rndDyadic t.1 t.2.1 40 fmt m 0
    let low := rndDyadic t.1 (t.2.1 - t.2.2) 40 fmt m 0
    let high := rndDyadic t.1 (t.2.1 + t.2.2) 40 fmt m 0
    let decided := low.1 = high.1 ∧ low.2 &&& (fOVF ||| fUNF) = high.2 &&& (fOVF ||| fUNF)
    let far := rndlog x.1 x.2 (.rat 1 1) fmt m 0
    if short = true ∨ decided then (near.1, near.2 ||| fINX) else (far.1, far.2 ||| fINX)
  let row : Fn → Bool → Fmt → RMode → El → Nat × Flags := fun fn short fmt m x =>
    match decodeLog fmt x.b with
    | .nar => (narCode fmt, 0)
    | .zero => (atZero fn fmt).getD (unsettled short fmt m (0, cK40, 2) (0, .ofReal fun p => log2I p (ln2I p)))
    | .num sg e => (atNumber fn fmt m sg e).getD (unsettled short fmt m (fast fn sg e fmt) (exact fn sg e fmt))
  (∀ f, LogRow (.fexp2 f) f (row .exp2 false)) ∧ (∀ f, LogRow (.fexp f) f (row .exp false)) ∧
  (∀ f, LogRow (.flog2 f) f (row .log2 false)) ∧ (∀ f, LogRow (.fln f) f (row .ln false)) ∧
  (∀ f, LogRow (.fsinpi f) f (row .sinpi false)) ∧ (∀ f, LogRow (.fcospi f) f (row .cospi false)) ∧
  (∀ f, LogRow (.ftanh f) f (row .tanh false)) ∧ (∀ f, LogRow (.fsigm f) f (row .sigm false)) ∧
  (∀ f, LogRow (.ferf f) f (row .erf false)) ∧ (∀ f, LogRow (.fsoftp f) f (row .softp false)) ∧
  (∀ f, LogRow (.fexp2A f) f (row .exp2 true)) ∧ (∀ f, LogRow (.fexpA f) f (row .exp true)) ∧
  (∀ f, LogRow (.flog2A f) f (row .log2 true)) ∧ (∀ f, LogRow (.flnA f) f (row .ln true)) ∧
  (∀ f, LogRow (.fsinpiA f) f (row .sinpi true)) ∧ (∀ f, LogRow (.fcospiA f) f (row .cospi true)) ∧
  (∀ f, LogRow (.ftanhA f) f (row .tanh true)) ∧ (∀ f, LogRow (.fsigmA f) f (row .sigm true)) ∧
  (∀ f, LogRow (.ferfA f) f (row .erf true)) ∧ (∀ f, LogRow (.fsoftpA f) f (row .softp true))

-- Cross-lane rows -------------------------------------------------------------------------------------------------------------

/-- R171, R172, R173: VOTE compares the number of contributing lanes whose predicate is true with a threshold; BALLOT writes their mask,
number and lowest; SHFL moves elements along the sequence of the 32 lanes' elements; QSWAP and QBCAST move whole values within a quad. No
flag. -/
def Obligations.CrossLaneRows : Prop :=
  let ones : Mask → Nat := fun m => ((List.range 32).filter fun l => m.getLsbD l).length
  (∀ f, PredRow (.vote f) f.d.num.toNat fun s is _ =>
    let c := is.act &&& ~~~is.help
    let k := ones (c &&& (s.group is.g).pred f.b.num.toNat)
    let th := if f.c.immNat = 63 then ones c else f.c.immNat
    match f.xm.toNat with
    | 0 => decide (th ≤ k) | 1 => decide (k ≤ th) | 2 => decide (k = th) | _ => decide (k ≤ th ∨ (ones c : Int) - th ≤ k)) ∧
  (∀ f, RunRow (.ballot f) f.d fun s is _ _ =>
    let m := is.act &&& ~~~is.help &&& (s.group is.g).pred f.b.num.toNat
    let lowest := match (List.range 32).find? fun l => m.getLsbD l with | some l => l | none => 63
    (BitVec.ofNat 64 (m.toNat + ones m * 2 ^ 32 + lowest * 2 ^ 40), 0)) ∧
  (∀ f, RunRow (.shfl f) f.d fun s is _ l =>
    let x := s.group is.g
    let w := tyWidth f.ty.toNat
    let n := 64 / w
    (ofElems w ((List.range n).map fun k =>
      let v := cell (x.src f.c 1) 0 l
      let c : Nat := match f.c with | .reg ⟨.v, _, _⟩ => elem v w k | _ => v.toNat % 2 ^ 16
      let cs := Int.bmod c (2 ^ min w 16)
      let i := l * n + k
      let from_ := fun j => elem (cell (x.run f.b) 0 (j / n)) w (j % n)
      match f.xm.toNat with
      | 0 => from_ (c % (32 * n))
      | 1 => from_ (((i : Int) + cs) % (32 * n : Nat)).toNat
      | 2 => if 0 ≤ (i : Int) + cs ∧ (i : Int) + cs < (32 * n : Nat) then from_ ((i : Int) + cs).toNat else 0
      | _ => from_ (i ^^^ (2 ^ min (c % 16) (Nat.log2 (32 * n)) - 1))), 0)) ∧
  (∀ f, RunRow (.qswap f) f.d fun s is j l => (cell ((s.group is.g).run f.b) j (l ^^^ (f.xm.toNat + 1)), 0)) ∧
  (∀ f, RunRow (.qbcast f) f.d fun s is j l => (cell ((s.group is.g).run f.b) j (4 * (l / 4) + f.c.immNat % 4), 0))

/-- R174, R47 to R49: GRED reduces each element position over the contributing lanes, in every lane of active() of a vector D or once for a
scalar: the integer operations, the fixed tree of addlog over the 32 lanes' leaves with a zero where a lane does not contribute, its root
rounded in the instruction's mode, or the least or greatest logarithmic value. The flags are those of the tree's nodes. That a logarithmic MIN or MAX
to which no lane contributes gives the code of zero is the model's choice (assumption log 53). -/
def Obligations.Reduction : Prop :=
  ∀ f s is, Ready s (.gred f) is → is.act ≠ 0 → Memory.wf s.mem = true → ∃ t, exec (.gred f) s = .next t ∧
    let x := s.group is.g
    let w := tyWidth f.ty.toNat
    let fmt := fmtOf f.ty.toNat
    let m := rmodeOf f.rnd.toNat
    let inner := if m = .rs then .rn else m
    let gives := fun l => is.act.getLsbD l && !is.help.getLsbD l
    let at_ := fun k => ((List.range 32).filter gives).map fun l => elem (cell (x.run f.b) 0 l) w k
    let rho := fun k => elem (cell (x.rand f) 0 ((lowLane is.act).getD 0)) w k
    let key := fun a => logKey fmt (decodeLog fmt a)
    let better : Nat → Nat → Bool := fun a b => match key a, key b with
      | some i, some j => if f.xm = 1 then decide (j < i) else decide (i < j)
      | _, _ => false
    let value : Nat → Nat × Flags := fun k =>
      if f.ty.toNat < 8 then
        (match f.xm.toNat with
        | 0 => (at_ k).sum % 2 ^ w
        | 1 => (match (at_ k).map (readAs f.ty.toNat w) with | [] => 0 | a :: r => wrapped w (r.foldl min a))
        | 2 => (match (at_ k).map (readAs f.ty.toNat w) with | [] => 0 | a :: r => wrapped w (r.foldl max a))
        | 3 => (at_ k).foldl (· &&& ·) (2 ^ w - 1)
        | 4 => (at_ k).foldl (· ||| ·) 0
        | _ => (at_ k).foldl (· ^^^ ·) 0, 0)
      else if f.xm = 0 then
        let leaf : Nat → Nat × Flags := fun l => (if gives l then elem (cell (x.run f.b) 0 l) w k else zeroCode fmt, 0)
        let level : (Nat → Nat × Flags) → Nat → Nat × Flags := fun t i =>
          let r := addlog (t (2 * i)).1 (t (2 * i + 1)).1 fmt inner 0
          (r.1, (t (2 * i)).2 ||| (t (2 * i + 1)).2 ||| r.2)
        let t := level (level (level (level leaf)))
        let root := addlog (t 0).1 (t 1).1 fmt m (rho k)
        (root.1, (t 0).2 ||| (t 1).2 ||| root.2)
      else if (at_ k).any (fun a => key a == none) then (narCode fmt, 0)
      else match at_ k with
        | [] => (zeroCode fmt, 0)
        | a :: r => (canon fmt (r.foldl (fun v c => if better v c then c else v) a), 0)
    RunWritten x (t.group is.g) f.d is.act (fun _ _ => (buildElems w value).1) ∧
    (t.group is.g).flags = x.flags ||| (buildElems w value).2 ∧
    PredsKept x (t.group is.g) ∧ JoinsKept x (t.group is.g) ∧ Settled s t is

-- Control flow ----------------------------------------------------------------------------------------------------------------

/-- R163, R164: a branch sends the lanes of active() that take it to the address plus the offset and every other lane at the address on; a
call writes the link to its register; with a bad target the group takes BADPC and nothing is written. -/
def Obligations.BranchesAndCalls : Prop :=
  let good : Int → Prop := fun a => 0 ≤ a ∧ a < 2 ^ 57 ∧ a % 4 = 0
  let off : FullU → Int := fun f => match f.imm with | .imm20 i => 4 * i.toInt | .lit l => l.toInt
  let goes : Instr → Int → (State → Iss → Nat → Bool) → Option Reg → Prop := fun i n takes link =>
    ∀ s is, Ready s i is → is.act ≠ 0 → Memory.wf s.mem = true → (∃ l, is.act.getLsbD l = true ∧ takes s is l = true) → good (is.a + n) →
      ∃ t, exec i s = .next t ∧
        MovedOn s t is (fun l => if takes s is l then ((is.a : Int) + n).toNat else is.a + is.len) ∧
        PredsKept (s.group is.g) (t.group is.g) ∧ JoinsKept (s.group is.g) (t.group is.g) ∧
        (t.group is.g).flags = (s.group is.g).flags ∧
        match link with
        | none => VectorsKept (s.group is.g) (t.group is.g) ∧ ScalarsKept (s.group is.g) (t.group is.g)
        | some d => RunWritten (s.group is.g) (t.group is.g) d is.act fun _ _ => wd (is.a + is.len)
  let bad : Instr → Int → (State → Iss → Nat → Bool) → Prop := fun i n takes =>
    ∀ s is, Ready s i is → is.act ≠ 0 → (∃ l, is.act.getLsbD l = true ∧ takes s is l = true) → ¬ good (is.a + n) →
      exec i s = .next (enterTrap (issued s i is) is.g
        ⟨0x04, maskOf fun l => is.act.getLsbD l && takes s is l, BitVec.ofInt 64 (is.a + n)⟩ (is.len / 4) false is.a)
  let all : State → Iss → Nat → Bool := fun _ _ _ => true
  (∀ i, goes (.braShort i) (4 * i.toInt) all none ∧ bad (.braShort i) (4 * i.toInt) all) ∧
  (∀ f, goes (.bra f) (off f) all none ∧ bad (.bra f) (off f) all) ∧
  (∀ f, let nz := fun (s : State) (is : Iss) l => cell ((s.group is.g).run f.b) 0 l != 0
    goes (.brc f) (off f) nz none ∧ bad (.brc f) (off f) nz) ∧
  (∀ i, goes (.callShort i) (4 * i.toInt) all (some ⟨.s, 62, 0⟩) ∧ bad (.callShort i) (4 * i.toInt) all) ∧
  (∀ f, goes (.call f) (off f) all (some f.d) ∧ bad (.call f) (off f) all) ∧
  (∀ f s is, Ready s (.brc f) is → is.act ≠ 0 → Memory.wf s.mem = true → (∀ l, is.act.getLsbD l = true → cell ((s.group is.g).run f.b) 0 l = 0) →
    ∃ t, exec (.brc f) s = .next t ∧ Quiet s t is)

/-- R163, R165: an indirect call or return sends each lane of active() to the value of its register, the link being written after the
targets are read; the lanes whose target is bad make the group take BADPC, with the value of the lowest of them. -/
def Obligations.IndirectTransfers : Prop :=
  let good : Word → Prop := fun a => a.toNat < 2 ^ 57 ∧ a.toNat % 4 = 0
  let row : Instr → Reg → Option Reg → Prop := fun i b link =>
    ∀ s is, Ready s i is → is.act ≠ 0 →
      let x := s.group is.g
      let target := fun l => getAt 0 (x.regRow b 0) l
      ((∀ l, is.act.getLsbD l = true → good (target l)) → Memory.wf s.mem = true → ∃ t, exec i s = .next t ∧
        MovedOn s t is (fun l => (target l).toNat) ∧ PredsKept x (t.group is.g) ∧ JoinsKept x (t.group is.g) ∧
        (t.group is.g).flags = x.flags ∧
        match link with
        | none => VectorsKept x (t.group is.g) ∧ ScalarsKept x (t.group is.g)
        | some d => RunWritten x (t.group is.g) d is.act fun _ _ => wd (is.a + is.len)) ∧
      (∀ l, is.act.getLsbD l = true → ¬ good (target l) → (∀ k, k < l → is.act.getLsbD k = true → good (target k)) →
        exec i s = .next (enterTrap (issued s i is) is.g
          ⟨0x04, maskOf fun k => is.act.getLsbD k && decide (¬ good (target k)), target l⟩ (is.len / 4) false is.a))
  (∀ f, row (.calli f) f.b (some f.d)) ∧ row .retShort ⟨.s, 62, 0⟩ none ∧ (∀ f, row (.ret f) f.b none)

/-- R166, R167, R168, R170 with the frame of each: JOIN sets one join register, WAIT parks the lanes of active() or, when every lane the
join register still awaits is there, lets them pass, EXIT ends lanes or with .H makes helpers of those whose quad stays, NOP only moves
on; a group whose lanes have all exited ends, gives up its slot and, as holder, passes the baton on (R102, R297). No memory changes.
Behind each of JOIN, WAIT and EXIT the group performs release (R154): `freed` is a lane that release has seen, every lane parked under one
join register at one address being freed together once each lane the register names has exited or is parked with them. -/
def Obligations.JoinWaitExitNop : Prop :=
  let freed : (Nat → Mask) → (Nat → Lane) → Nat → Lane := fun j before_ l =>
    let b := before_ l
    if b.p && !b.x && decide (b.n < 4) && (List.range 32).all fun k => !(j b.n).getLsbD k || (before_ k).x ||
        ((before_ k).p && (before_ k).n == b.n && (before_ k).pc == b.pc) then
      { b with p := false, n := 0, pc := b.pc + 8 }
    else b
  QuietRow .nopShort ∧ (∀ f, QuietRow (.nop f)) ∧
  (∀ f s is, Ready s (.join f) is → is.act ≠ 0 → Memory.wf s.mem = true → ∃ t, exec (.join f) s = .next t ∧
    (∀ n, getAt 0 (t.group is.g).j n = if n = f.d.num.toNat then
      (if f.xm = 1 then ((s.group is.g).sreg f.b.num.toNat).setWidth 32 else is.act) else getAt 0 (s.group is.g).j n) ∧
    VectorsKept (s.group is.g) (t.group is.g) ∧ ScalarsKept (s.group is.g) (t.group is.g) ∧ PredsKept (s.group is.g) (t.group is.g) ∧
    (t.group is.g).flags = (s.group is.g).flags ∧ Settled s t is ∧
    ∀ l, l < 32 → (t.group is.g).lane l = freed (getAt 0 (t.group is.g).j) (fun k =>
      if is.at_.getLsbD k then { (s.group is.g).lane k with pc := is.a + is.len } else (s.group is.g).lane k) l) ∧
  (∀ f s is, Ready s (.wait f) is → is.act ≠ 0 → Memory.wf s.mem = true → ∃ t, exec (.wait f) s = .next t ∧
    let x := s.group is.g
    let n := f.d.num.toNat
    let here := fun l => is.act.getLsbD l || (decide (l < x.lanes.length) && !(x.lane l).x && (x.lane l).p && (x.lane l).n == n && (x.lane l).pc == is.a)
    let free := ∀ l, l < 32 → (getAt 0 x.j n).getLsbD l = true → here l = true ∨ (x.lane l).x = true
    (free → ∀ l, l < 32 → is.act.getLsbD l = true → (t.group is.g).lane l = { x.lane l with p := false, n := 0, pc := is.a + 8 }) ∧
    (¬ free → ∀ l, l < 32 → is.act.getLsbD l = true → (t.group is.g).lane l = { x.lane l with p := true, n }) ∧
    (∀ l, l < 32 → is.at_.getLsbD l = true → is.act.getLsbD l = false → (t.group is.g).lane l = { x.lane l with pc := is.a + is.len }) ∧
    (∀ l, l < 32 → (t.group is.g).lane l = freed (getAt 0 x.j) (fun k =>
      if is.act.getLsbD k then { x.lane k with p := true, n }
      else if is.at_.getLsbD k then { x.lane k with pc := is.a + is.len } else x.lane k) l) ∧
    RegsKept x (t.group is.g) ∧ PlaceKept x (t.group is.g) ∧ GroupsKept s t is.g ∧ MachineKept s t is.g ∧ MemKept s t is.g) ∧
  (∀ i h, (i = .exitShort ∧ h = false ∨ ∃ f, i = .exit f ∧ h = (f.xm == 1)) → ∀ s is, Ready s i is → is.act ≠ 0 → Memory.wf s.mem = true →
    ∃ t, exec i s = .next t ∧
    let x := s.group is.g
    let y := t.group is.g
    let stays := fun l => (span (l / 4 * 4) 4).any fun m =>
      decide (m < x.lanes.length) && !(x.lane m).x && !(x.lane m).h && !is.act.getLsbD m
    let allGone := ∀ l, l < 32 → l < x.lanes.length → stays l = false
    (∀ l, l < 32 → l < x.lanes.length → stays l = false → (y.lane l).x = true) ∧
    (∀ l, l < 32 → stays l = true → is.act.getLsbD l = true →
      y.lane l = if h then { x.lane l with h := true, pc := is.a + is.len } else { x := true }) ∧
    (∀ l, l < 32 → stays l = true → is.act.getLsbD l = false → (x.lane l).p = false →
      y.lane l = if is.at_.getLsbD l then { x.lane l with pc := is.a + is.len } else x.lane l) ∧
    VectorsKept x y ∧ ScalarsKept x y ∧ PredsKept x y ∧ JoinsKept x y ∧ y.flags = x.flags ∧ (y.ended = true ↔ allGone) ∧
    GroupsKept s t is.g ∧ MemKept s t is.g ∧ t.writes = s.writes ∧ t.rels = s.rels ∧ MarksKept s t is.g ∧
    (¬ allGone → PlaceKept x y ∧ MachineKept s t is.g ∧ ∀ l, l < 32 → y.lane l = freed (getAt 0 x.j) (fun k =>
      if k < x.lanes.length ∧ stays k = false then { x := true }
      else if is.act.getLsbD k then if h then { x.lane k with h := true, pc := is.a + is.len } else { x := true }
      else if is.at_.getLsbD k then { x.lane k with pc := is.a + is.len } else x.lane k) l) ∧
    (allGone → MachineKept s { t with cores := s.cores, teams := s.teams } is.g ∧ (∀ k, k ≠ x.core → CoreSame (s.core k) (t.core k)) ∧
      (∀ n, getAt none (t.core x.core).groups n ≠ some is.g) ∧
      ((s.core x.core).holder ≠ some is.g → savedArray s is.g = none →
        (∀ k, TeamSame (s.team k) (t.team k)) ∧ (t.core x.core).holder = (s.core x.core).holder ∧
          (t.core x.core).queue = (s.core x.core).queue ∧ (t.core x.core).array = (s.core x.core).array) ∧
      ((s.core x.core).holder = some is.g →
        (t.core x.core).holder = (s.core x.core).queue.head? ∧ (t.core x.core).queue = (s.core x.core).queue.drop 1)))

-- Traps and system rows ---------------------------------------------------------------------------------------------------------

/-- R352, R361, R370: taking a handler cause saves PCV, the join registers and the cause, and starts every live lane at the handler, unless
the handler is disabled or the group is in one, which kills the team, or PCV or a join register fails parity as it is saved, which consumes
poison; returning restores PCV and the join registers, so that entry and return leave live lanes and join registers as they were. -/
def Obligations.TrapEntryAndReturn : Prop :=
  (∀ s g (c : Trap) ilen logged pc, g < s.groups.length → (s.group g).inh = false → wfield (s.team (s.group g).team).vec 0 1 = 1 →
    (s.group g).pcvBad = false → (∀ r ∈ (s.group g).vbad, ∀ n, r.1 ≠ .j n) →
    c.cause < 256 → ilen < 4 → Memory.wf s.mem = true →
    let u := enterTrap s g c ilen logged pc
    HandlerEntered (s.group g) (u.group g) (4 * wfield (s.team (s.group g).team).vec 2 55) c ilen logged pc ∧ GroupsKept s u g ∧
    MachineKept s u g ∧ MemKept s u g ∧
    (∀ n, n < 4 → getAt 0 ((returnTrap u g false).group g).j n = getAt 0 (s.group g).j n) ∧
    (∀ l, l < (s.group g).lanes.length → ((s.group g).lane l).x = false → ((returnTrap u g false).group g).lane l = (s.group g).lane l)) ∧
  (∀ s g (c : Trap) ilen logged pc, (s.group g).inh = true →
    enterTrap s g c ilen logged pc = killTeam s (s.group g).team (0x100 + c.cause) c.info) ∧
  (∀ s g (c : Trap) ilen logged pc, (s.group g).inh = false → wfield (s.team (s.group g).team).vec 0 1 = 0 →
    enterTrap s g c ilen logged pc = killTeam s (s.group g).team c.cause c.info) ∧
  (∀ s g (c : Trap) ilen logged pc n l, (s.group g).inh = false → wfield (s.team (s.group g).team).vec 0 1 = 1 → n < 4 →
    ((s.group g).pcvBad = true → enterTrap s g c ilen logged pc = consume s g 0x18 (2 ^ 63 + Config.physRow 4 0)) ∧
    ((s.group g).pcvBad = false → (.j n, l) ∈ (s.group g).vbad → (∀ r ∈ (s.group g).vbad, ∀ m, m < n → r.1 ≠ .j m) →
      enterTrap s g c ilen logged pc = consume s g 0x18 (2 ^ 63 + Config.physRow 3 n))) ∧
  (∀ s g skip, g < s.groups.length →
    let x := s.group g
    let y := (returnTrap s g skip).group g
    let logged := wfield x.frame.cause 8 1 = 1
    y.inh = false ∧ y.frozen = [] ∧ (∀ n, getAt 0 y.j n = getAt 0 x.frame.sj n) ∧
    y.log.length = (if skip = true ∧ logged then x.frozen.length - 1 else x.frozen.length) ∧ (∀ e ∈ y.log, e.replay = true) ∧
    (∀ l, l < x.lanes.length →
      let was := getAt {} x.frame.spcv l
      y.lane l = if (x.lane l).x = true ∨ was.x = true then { x := true }
        else if skip = true ∧ ¬ logged ∧ x.frame.lanes.getLsbD l = true ∧ was.pc = x.frame.pc
          then { was with pc := x.frame.pc + 4 * wfield x.frame.cause 12 2 } else was) ∧
    VectorsKept x y ∧ ScalarsKept x y ∧ PredsKept x y ∧ y.flags = x.flags ∧ GroupsKept s (returnTrap s g skip) g)

/-- R169, R361: TRAP moves the lanes at its address on and takes SWTRAP with its code for the lanes of active(); TRET returns from the
handler, performs the frozen entries again and releases. -/
def Obligations.TrapAndReturnRows : Prop :=
  (∀ f s is, Ready s (.trap f) is → is.act ≠ 0 → Memory.wf s.mem = true → (s.group is.g).inh = false →
    wfield (s.team (s.group is.g).team).vec 0 1 = 1 → (∀ r ∈ (s.group is.g).vbad, ∀ n, r.1 ≠ .j n) → ∃ t, exec (.trap f) s = .next t ∧
    HandlerEntered ((s.group is.g).advance is.at_ is.a is.len) (t.group is.g) (4 * wfield (s.team (s.group is.g).team).vec 2 55)
      ⟨0x0F, is.act, wd f.c.immNat⟩ (is.len / 4) false is.a ∧ GroupsKept s t is.g ∧ MachineKept s t is.g ∧ MemKept s t is.g) ∧
  (∀ f s is, Ready s (.tret f) is → is.act ≠ 0 →
    exec (.tret f) s = .next (post (runEntries (returnTrap (issued s (.tret f) is) is.g (f.xm == 1)) is.g) is.g)) ∧
  (∀ f s is, Ready s (.tret f) is → is.act ≠ 0 → Memory.wf s.mem = true → (s.group is.g).frozen = [] →
    (∃ l, l < 32 ∧ l < (s.group is.g).lanes.length ∧ ((s.group is.g).lane l).x = false ∧ (getAt {} (s.group is.g).frame.spcv l).x = false) →
    ∃ t, exec (.tret f) s = .next t ∧
    let x := s.group is.g
    let y := t.group is.g
    y.inh = false ∧ y.log = [] ∧ y.wait = .none ∧ (∀ n, getAt 0 y.j n = getAt 0 x.frame.sj n) ∧
    (∀ l, l < 32 → l < x.lanes.length →
      let was := getAt {} x.frame.spcv l
      was.p = false →
      y.lane l = if (x.lane l).x = true ∨ was.x = true then { x := true }
        else if f.xm = 1 ∧ wfield x.frame.cause 8 1 ≠ 1 ∧ x.frame.lanes.getLsbD l = true ∧ was.pc = x.frame.pc
          then { was with pc := x.frame.pc + 4 * wfield x.frame.cause 12 2 } else was) ∧
    VectorsKept x y ∧ ScalarsKept x y ∧ PredsKept x y ∧ y.flags = x.flags ∧ GroupsKept s t is.g ∧ MachineKept s t is.g ∧ MemKept s t is.g)

/-- R375: SYSRD writes the register its selector names in Table 15.13, and changes no flag; SYSWR clears the flags in which ones are
written, sets TEAM.WDOG, or in a handler writes the saved join registers and the program counters of saved live lanes; nothing else
changes. -/
def Obligations.SystemRegisterRows : Prop :=
  (∀ f, RunRow (.sysrd f) f.d fun s is _ l =>
    let x := s.group is.g
    (match f.c.immNat with
      | 0x00 => x.flags.setWidth 64 | 0x10 => x.frame.cause | 0x11 => x.frame.lanes.setWidth 64 | 0x12 => x.frame.info
      | 0x13 => wd (x.frame.pc % 2 ^ 57) | 0x14 => (getAt ({} : Lane) x.frame.spcv l).word
      | 0x15 => (getAt 0 x.frame.sj 0).setWidth 64 | 0x16 => (getAt 0 x.frame.sj 1).setWidth 64
      | 0x17 => (getAt 0 x.frame.sj 2).setWidth 64 | 0x18 => (getAt 0 x.frame.sj 3).setWidth 64
      | 0x19 => wd ((if x.inh then 1 else 0) + (if x.frozen = [] then 0 else 2 + 4 * (min 8 x.frozen.length - 1)))
      | 0x20 => (s.team x.team).wdog | 0x30 => wd (x.vbase * 2 ^ 32 + x.vbound * 2 ^ 16 + x.vres)
      | 0x40 => x.mrows | 0x41 => matState s is.g | _ => 0, 0)) ∧
  (∀ f s is, Ready s (.syswr f) is → is.act ≠ 0 → Memory.wf s.mem = true → ∃ t, exec (.syswr f) s = .next t ∧
    let x := s.group is.g
    let y := t.group is.g
    let sel := f.c.immNat
    let w := fun l => getAt 0 (x.regRow f.b 0) l
    let w0 := w ((lowLane is.act).getD 0)
    (y.flags = if sel = 0 then x.flags &&& ~~~(w0.setWidth 5) else x.flags) ∧
    (t.team x.team = if sel = 0x20 then { s.team x.team with wdog := w0, fired := false } else s.team x.team) ∧
    (∀ k, k < 4 → getAt 0 y.frame.sj k = if sel = 0x15 + k then w0.setWidth 32 else getAt 0 x.frame.sj k) ∧
    y.frame.spcv.length = x.frame.spcv.length ∧
    (∀ l, l < x.frame.spcv.length → getAt {} y.frame.spcv l =
      let was := getAt ({} : Lane) x.frame.spcv l
      if sel = 0x14 ∧ is.act.getLsbD l = true ∧ was.x = false then { was with pc := wfield (w l) 0 57 } else was) ∧
    y.frame.cause = x.frame.cause ∧ y.frame.lanes = x.frame.lanes ∧ y.frame.info = x.frame.info ∧ y.frame.pc = x.frame.pc ∧
    VectorsKept x y ∧ ScalarsKept x y ∧ PredsKept x y ∧ JoinsKept x y ∧ Advanced x y is ∧ PlaceKept x { y with frame := x.frame } ∧
    GroupsKept s t is.g ∧ (∀ k, k ≠ x.team → TeamSame (s.team k) (t.team k)) ∧ MachineKept s { t with teams := s.teams } is.g ∧
    MemKept s t is.g)

/-- R109, R110, R350, R376 to R379, R384: a grow within the bound changes nothing, one into free rows above the run stays in place, one that finds
a run or enough rows moves there, compaction moving only bases, and one that finds neither waits; the registers gained read zero; a shrink
lowers the bound and keeps the registers below it; a bound of 0 or beyond 256 is VRBOUND; ICSYNC empties the fetch buffer; TLBINV checks its
address, which raises NONCANON with its entry frozen, and otherwise queues a shootdown, its entry waiting for that one; TRACEMARK changes
nothing the program sees, and leaves a record in the trace ring or counts a drop. No byte of memory but those of the trace ring and of backing
rows changes. Three clauses are the model's choice: which lanes VRBOUND and NONCANON name (assumption log 11), that the rows the first step of
R109 looks for above the run number N - VRES where the rule's sentence says N - VBOUND, and how compaction packs the runs (assumption log 42). -/
def Obligations.BoundsFetchAndShootdownRows : Prop :=
  let bound := fun (x : Group) (c : Src) => match c with | .reg r => (x.sreg r.num.toNat).toNat % 2 ^ 32 | c => c.immNat
  let grown : Group → Group → Prop := fun x y => (∀ k l, l < 32 → vcell y k l = if k < x.vbound then vcell x k l else 0) ∧
    ScalarsKept x y ∧ PredsKept x y ∧ JoinsKept x y ∧ y.flags = x.flags
  (∀ f s is, Ready s (.rgrow f) is → is.act ≠ 0 → Memory.wf s.mem = true →
    let x := s.group is.g
    let n := bound x f.c
    let used := rowsUsed s x.core
    let above := runFree used (x.vbase + x.vres) (n - x.vres) = true
    let elsewhere := (∃ b, b + n ≤ 1024 ∧ runFree used b n = true) ∨ n + (used.map (·.2)).sum ≤ 1024
    ((n = 0 ∨ 256 < n) → exec (.rgrow f) s = .next (enterTrap (issued s (.rgrow f) is) is.g ⟨0x02, is.at_, wd n⟩ (is.len / 4) false is.a)) ∧
    (0 < n → n ≤ 256 → n ≤ x.vbound → ∃ t, exec (.rgrow f) s = .next t ∧ Quiet s t is) ∧
    (n ≤ 256 → x.vbound < n → above → ∃ t, exec (.rgrow f) s = .next t ∧
      (t.group is.g).vbound = n ∧ (t.group is.g).vres = n ∧ (t.group is.g).vbase = x.vbase ∧
      grown x (t.group is.g) ∧ Advanced x (t.group is.g) is ∧ GroupsKept s t is.g ∧ MachineKept s t is.g ∧ MemKept s t is.g) ∧
    (n ≤ 256 → x.vbound < n → ¬ above → elsewhere → ∃ t, exec (.rgrow f) s = .next t ∧
      (t.group is.g).vbound = n ∧ (t.group is.g).vres = n ∧ grown x (t.group is.g) ∧ Advanced x (t.group is.g) is ∧
      (∀ g, g ≠ is.g → ∃ b, t.group g = { s.group g with vbase := b }) ∧ MachineKept s { t with choices := s.choices } is.g ∧ MemKept s t is.g) ∧
    (n ≤ 256 → x.vbound < n → ¬ above → ¬ elsewhere → ∃ t, exec (.rgrow f) s = .next t ∧
      (t.group is.g).wait = .grow n (s.core x.core).cycles is.len ∧ (t.group is.g).lanes = x.lanes ∧
      (t.core x.core).grows = (s.core x.core).grows ++ [is.g] ∧ RegsKept x (t.group is.g) ∧
      PlaceKept x { t.group is.g with wait := x.wait } ∧ GroupsKept s t is.g ∧ MachineKept s { t with cores := s.cores } is.g ∧
      (∀ k, k ≠ x.core → CoreSame (s.core k) (t.core k)) ∧ MemKept s t is.g)) ∧
  (∀ f s is, Ready s (.rshrink f) is → is.act ≠ 0 → Memory.wf s.mem = true →
    let x := s.group is.g
    let n := bound x f.c
    ((n = 0 ∨ 256 < n) → exec (.rshrink f) s = .next (enterTrap (issued s (.rshrink f) is) is.g ⟨0x02, is.at_, wd n⟩ (is.len / 4) false is.a)) ∧
    (0 < n → n ≤ 256 → ∃ t, exec (.rshrink f) s = .next t ∧
      (t.group is.g).vbound = min n x.vbound ∧ (t.group is.g).vres = (if n < x.vbound then min x.vres n else x.vres) ∧
      (t.group is.g).vbase = x.vbase ∧ (∀ k l, k < min n x.vbound → l < 32 → vcell (t.group is.g) k l = vcell x k l) ∧
      ScalarsKept x (t.group is.g) ∧ PredsKept x (t.group is.g) ∧ JoinsKept x (t.group is.g) ∧ (t.group is.g).flags = x.flags ∧
      Advanced x (t.group is.g) is ∧ GroupsKept s t is.g ∧ MachineKept s t is.g ∧ MemKept s t is.g)) ∧
  (∀ f s is, Ready s (.icsync f) is → is.act ≠ 0 → Memory.wf s.mem = true → ∃ t, exec (.icsync f) s = .next t ∧ (t.group is.g).buf = [] ∧
    Quiet s t is) ∧
  (∀ f s is, Ready s (.tlbinv f) is → is.act ≠ 0 → Memory.wf s.mem = true →
    let x := s.group is.g
    let va := (x.sreg f.b.num.toNat).toNat
    let e := entryOf s (.tlbinv f) f is
    (f.xm = 0 → 2 ^ 57 ≤ va → exec (.tlbinv f) s =
      .next (trapped (entered s (.tlbinv f) f is) is e ⟨0x07, is.at_, wd (3 * 2 ^ 60 + va % 2 ^ 57)⟩)) ∧
    ((f.xm ≠ 0 ∨ va < 2 ^ 57) → ∃ t, exec (.tlbinv f) s = .next t ∧
      t.dev.shootQ = s.dev.shootQ ++ [⟨(s.team x.team).ctx, if f.xm = 1 then none else some va, false⟩] ∧
      t.dev.shootIn = s.dev.shootIn + 1 ∧ DevSame s { t with dev := { t.dev with shootQ := s.dev.shootQ, shootIn := s.dev.shootIn } } ∧
      (t.group is.g).wait = .shoot (s.dev.shootIn + 1) ∧ (t.group is.g).log = [{ e with stage := 1, prog := s.dev.shootIn + 1 }] ∧
      RegsKept x (t.group is.g) ∧ Advanced x (t.group is.g) is ∧ PlaceKept x { t.group is.g with wait := x.wait, log := x.log } ∧
      GroupsKept s t is.g ∧ MachineKept s { t with dev := s.dev } is.g ∧ MemKept s t is.g)) ∧
  (∀ f, QuietRow (.tracemark f)) ∧
  (∀ f s is, Ready s (.tracemark f) is → is.act ≠ 0 → Memory.wf s.mem = true → wfield s.dev.rback 0 1 = 0 →
    let x := s.group is.g
    let m := s.team x.team
    let tr := s.dev.trace
    let n := s.dev.twidx
    let place := wfield tr 12 40 * 4096 + 32 * (n % 2 ^ (wfield tr 7 5 - 5))
    let lseq := match m.launch with | some l => (s.launch l).lseq | none => 0
    wfield tr 0 1 = 1 → 12 ≤ wfield tr 7 5 → wfield tr 7 5 ≤ 30 → wfield tr 1 2 < 3 → s.dev.trctx.getLsbD m.ctx = true →
    (s.ctx m.ctx).sealed = false → localRange s.dev place 32 = true →
    (Config.traceFull s.dev.trfresh = false → ∃ t, exec (.tracemark f) s = .next t ∧ t.dev.twidx = n + 1 ∧ t.dev.drops = s.dev.drops ∧
      memRead t.mem (homeAddr s.dev place) 32 =
        toBytes 8 (0x30 * 2 ^ 56 + m.ctx * 2 ^ 48 + x.core * 2 ^ 40 + x.slot * 2 ^ 35 + is.act.toNat) ++
        toBytes 8 (s.core x.core).cycles ++ toBytes 8 (m.tag * 2 ^ 48 + lseq % 2 ^ 48) ++ toBytes 8 f.c.immNat) ∧
    (Config.traceFull s.dev.trfresh = true → ∃ t, exec (.tracemark f) s = .next t ∧ t.dev.twidx = n ∧ t.mem = s.mem ∧
      t.dev.drops = if s.dev.drops = BitVec.allOnes 32 then s.dev.drops else s.dev.drops + 1))

-- Logged rows -------------------------------------------------------------------------------------------------------------------

/-- R229, R231, R232, R244, R359: a logged instruction takes an entry with its source values, moves its lanes on and is performed; its entry
ends with it, waits with the group, is frozen by a trap of the handler, or carries a poisoned address to the purge of the request's work. A
memory fault is reported under the context's next FSEQ, with one record for each page, and the group waits on it; a fault of an immediate
kind, or of a context without a usable fault queue, is MFAULT at once. A NONDET that an entry meets when it is performed again, its lanes having
moved on, freezes it: that is the model's choice (assumption log 13). -/
def Obligations.LoggedOutcomes : Prop :=
  (∀ s g e rest u c, (s.group g).log = e :: rest → performEntry g e s = .nondet u c → (e.replay = true ∨ e.late = true) →
    runEntries s g = enterTrap (putHead u g e .none) g c (e.len / 4) true e.addr) ∧
  (∀ i f s is op, fullView i = some (op, f) → 0xC0 ≤ op → op < 0xF0 → Ready s i is → is.act ≠ 0 →
    let e := entryOf s i f is
    let g := is.g
    (∀ u e', performEntry g e (entered s i f is) = .done u → (u.group g).log = [e'] → g < u.groups.length →
      exec i s = .next (finished u g)) ∧
    (∀ u w e', performEntry g e (entered s i f is) = .wait u w e' → exec i s = .next (post (putHead u g e' w) g)) ∧
    (∀ u c e', performEntry g e (entered s i f is) = .trap u c e' →
      exec i s = .next (post (enterTrap (putHead u g e' .none) g c (is.len / 4) true is.a) g)) ∧
    (∀ u c, performEntry g e (entered s i f is) = .nondet u c →
      exec i s = .next (post (enterTrap (unissue u g e) g c (is.len / 4) false is.a) g)) ∧
    (∀ u a, performEntry g e (entered s i f is) = .poison u a → exec i s = .next (post (consume u g 0x18 a) g)) ∧
    (∀ u e' l lanes wr named, performEntry g e (entered s i f is) = .fault u e' l lanes wr named → e'.addr = is.a → e'.len = is.len →
      let x := s.group g
      let t := s.team x.team
      (∀ v n, report u t.ctx t.tag x.core x.slot is.a wr named l = (v, some n) →
        exec i s = .next (post (putHead v g { e' with faults := l, fseq := some n, late := true } (.fault n)) g)) ∧
      (∀ v, report u t.ctx t.tag x.core x.slot is.a wr named l = (v, none) → (v.group g).fnBehind = none → exec i s =
        .next (post (enterTrap (putHead v g { e' with faults := l, fseq := none, late := true } .none) g
          (faultTrap l (faultLanes { e' with faults := l })) (is.len / 4) true is.a) g)))) ∧
  (∀ s c tag core slot pc wr named (l : List MemFault),
    let x := s.ctx c
    let usable := wfield x.faultq 5 1 = 1 ∧ 4 ≤ wfield x.faultq 0 5 ∧ wfield x.faultq 0 5 ≤ 16
    let full := (x.fqHead - x.fqTail).toNat = 2 ^ wfield x.faultq 0 5
    let taken := s.setCtx c { x with fseq := x.fseq + 1, records := x.records ++ faultRecords x.fseq.toNat tag core slot pc wr named l }
    ((∃ f ∈ l, 3 ≤ f.kind ∧ f.kind ≤ 6) → report s c tag core slot pc wr named l = (s, none)) ∧
    (¬ usable → report s c tag core slot pc wr named l = (s, none)) ∧
    (usable → l ≠ [] → (∀ f ∈ l, f.kind < 3) → (x.records ≠ [] ∨ full) → c < s.ctxs.length →
      report s c tag core slot pc wr named l = (taken, some x.fseq.toNat)) ∧
    (∀ f p v, l = [f] → usable → f.kind < 3 → x.records = [] → ¬ full → c < s.ctxs.length → Memory.wf s.mem = true →
      let va := wfield x.faultq 12 45 * 4096 + 32 * (x.fqHead.toNat % 2 ^ wfield x.faultq 0 5)
      checkAccess taken { ctx := c, heap := none, need := .store, va, n := 32 } = (v, .ok [p]) → p.len = 32 → p.pa % 4 = 0 →
      ∃ u, report s c tag core slot pc wr named l = (u, some x.fseq.toNat) ∧ (u.ctx c).records = [] ∧ (u.ctx c).fseq = x.fseq + 1 ∧
        (u.ctx c).fqHead = x.fqHead + 1 ∧ (u.ctx c).signals.getLsbD 1 = true ∧ u.groups = s.groups ∧
        ∃ new, u.writes = s.writes ++ new ∧ new.length = 8 ∧ ∀ k w, new[k]? = some w → w.word = p.pa + 4 * k ∧ w.cls = 3 ∧
          w.val = BitVec.ofNat 32 ((getAt 0 (match faultRecords x.fseq.toNat tag core slot pc wr named l with | r :: _ => r.words | [] => [])
            (k / 2)).toNat / 2 ^ (32 * (k % 2))))) ∧
  (∀ n tag core slot pc wr named (f : MemFault), faultRecords n tag core slot pc wr named [f] = [⟨n, true, [
    wd (f.page / 4096 * 4096 % 2 ^ 57 + 2 ^ 11 + (if wr then 2 ^ 10 else 0) + f.kind * 2 ^ 6), wd (tag * 2 ^ 48 + n % 2 ^ 48),
    wd ((if named ∧ f.lane < 32 then 2 ^ f.lane else 0) * 2 ^ 32 + core * 2 ^ 5 + slot), wd (pc % 2 ^ 57)]⟩]) ∧
  (∀ n tag core slot pc wr named (l : List MemFault), l ≠ [] → (∀ f ∈ l, f.kind < 16) →
    let r := faultRecords n tag core slot pc wr named l
    (∀ k p, r[k]? = some p → p.fseq = n ∧ (p.first = true ↔ k = 0)) ∧
    (∀ f ∈ l, ∃ p ∈ r, wfield (getAt 0 p.words 0) 12 45 = f.page / 4096 % 2 ^ 45) ∧
    r.length = (l.map fun f => f.page / 4096).dedup.length) ∧
  (∀ (l : List MemFault) lanes f, f ∈ l → (∀ h ∈ l, f.lane ≤ h.lane) → (∀ h ∈ l, h ≠ f → f.lane < h.lane) →
    (∀ h ∈ l, ¬ (3 ≤ h.kind ∧ h.kind ≤ 6)) → faultTrap l lanes = ⟨0x07, lanes, wd (f.kind * 2 ^ 60 + f.addr % 2 ^ 57)⟩)

/-- R219, R223 to R228, R233, R241, R242, R245, R313, R314: a load forms each lane's address and size, tests alignment, checks heap window,
pages and permission, and gives each accessing lane the bytes there, extended by the type, and a helper lane that may not read zero: as its
view holds them for a plain load, the current ones at L2 for an acquire load, which then brings what the releases it observed, in helper lanes as in
others (R157), cover into the group's view. Nothing else changes but cached translations and the view. A prefetch changes nothing. -/
def Obligations.Loads : Prop :=
  let where_ : List Piece → List Nat := fun p => p.flatMap fun q => (List.range q.len).map (q.pa + ·)
  let row : Instr → Full → Prop := fun i f =>
    ∀ s is u l, Ready s i is → is.act ≠ 0 → Memory.wf s.mem = true →
      let e := entryOf s i f is
      checked (entered s i f is) is.g e .load (accessSize f) (globalLanes e f.d) = (u, .ok l) →
      (∀ p ∈ nonHelpers e l, poisonPieces u p.2.2 = none) →
      ∃ t, exec i s = .next t ∧
        let x := s.group is.g
        RunWritten x (t.group is.g) f.d is.act (fun j k => match piecesOf l k with
          | some p => if is.help.getLsbD k = true ∧ (poisonPieces u p).isSome = true then 0
              else getAt 0 (loadValue f ((where_ p).map (plainByte u (some (s.team x.team).ctx) x.view))) j
          | none => 0) ∧
        PredsKept x (t.group is.g) ∧ JoinsKept x (t.group is.g) ∧ (t.group is.g).flags = x.flags ∧ (t.group is.g).view = x.view ∧
        Accessed s t is ∧ t.writes = s.writes ∧ t.rels = s.rels ∧ MarksKept s t is.g ∧ MemKept s t is.g
  let misaligned_ : Instr → Full → Prop := fun i f =>
    ∀ s is, Ready s i is → is.act ≠ 0 →
      let e := entryOf s i f is
      let bad := (globalLanes e f.d).filter fun p => !is.help.getLsbD p.1 && p.2 % min (accessSize f) 16 != 0
      ∀ p l, bad = p :: l → exec i s = .next (trapped (entered s i f is) is e ⟨0x06, maskOfList (bad.map (·.1)), wd p.2⟩)
  (∀ f, f.xm = 0 → row (.ld f) f) ∧ (∀ f, row (.ldc f) f) ∧ (∀ f, QuietRow (.pref f)) ∧
  (∀ f, misaligned_ (.ld f) f ∧ misaligned_ (.ldc f) f) ∧
  (∀ f s is u l, f.xm ≠ 0 → Ready s (.ld f) is → is.act ≠ 0 → Memory.wf s.mem = true →
    let e := entryOf s (.ld f) f is
    let sc := scopeOf f.xm.toNat
    let c := (s.team (s.group is.g).team).ctx
    checked (entered s (.ld f) f is) is.g e .load (accessSize f) (globalLanes e f.d) = (u, .ok l) →
    (∀ p ∈ nonHelpers e l, poisonPieces u p.2.2 = none) →
    ∃ t, exec (.ld f) s = .next t ∧
      let x := s.group is.g
      RunWritten x (t.group is.g) f.d is.act (fun j k => match piecesOf l k with
        | some p => if is.help.getLsbD k = true ∧ (poisonPieces u p).isSome = true then 0
            else getAt 0 (loadValue f ((where_ p).map (memGet u.mem))) j
        | none => 0) ∧
      PredsKept x (t.group is.g) ∧ JoinsKept x (t.group is.g) ∧ (t.group is.g).flags = x.flags ∧
      Acquired s t is.g sc (.ambient c) x.view.seen ∧
      (∀ p ∈ l, ∀ q ∈ p.2.2, ∀ word n w, word % 4 = 0 → q.pa / 4 * 4 ≤ word → word < q.pa + q.len →
        winner none (writesTo s word) = some (n, w) → w.sync.isSome = true → Acquired s t is.g sc (.ambient c) (observed s is.g sc word n)) ∧
      Accessed s t is ∧ t.writes = s.writes ∧ t.rels = s.rels ∧ MarksKept s t is.g ∧ MemKept s t is.g) ∧
  (∀ (f : Full), accessSize f = if f.ty = 0 then 8 * 2 ^ f.d.wid.toNat else tyWidth f.ty.toNat / 8) ∧
  (∀ (e : Entry) (d : Reg),
    let va := fun l => ((cell e.b 0 l).toNat + (cell e.c 0 l).toNat) % 2 ^ 64
    (d.file = .v → globalLanes e d = ((List.range 32).filter fun l => e.act.getLsbD l).map fun l => (l, va l)) ∧
    (d.file = .s → ∀ l, e.act.getLsbD l = true → (∀ k, k < l → e.act.getLsbD k = false) → globalLanes e d = [(l, va l)])) ∧
  (∀ f (b : List Byte),
    (f.ty = 0 → ∀ j, 8 * j + 8 ≤ b.length → getAt 0 (loadValue f b) j = BitVec.ofNat 64 (ofBytes ((b.drop (8 * j)).take 8))) ∧
    (f.ty ≠ 0 → f.ty.toNat < 4 → loadValue f b = [BitVec.ofNat 64 (ofBytes b)]) ∧
    (4 ≤ f.ty.toNat → f.ty.toNat < 8 → loadValue f b = [BitVec.ofInt 64 (Int.bmod (ofBytes b) (2 ^ tyWidth f.ty.toNat))])) ∧
  (∀ s g (e : Entry) need n k va l,
    let own := checkAccess s (teamAccess s (s.group g).team need va n)
    checked s g e need n [] = (s, .ok []) ∧
    (∀ v p u r, va % min n 16 = 0 → own = (v, .ok p) → checked v g e need n l = (u, .ok r) →
      checked s g e need n ((k, va) :: l) = (u, .ok ((k, va, p) :: r))) ∧
    (∀ u r, e.helper.getLsbD k = true → va % min n 16 ≠ 0 → checked s g e need n l = (u, .ok r) →
      checked s g e need n ((k, va) :: l) = (u, .ok r)) ∧
    (∀ v y u r, e.helper.getLsbD k = true → va % min n 16 = 0 → own = (v, .error y) → checked v g e need n l = (u, .ok r) →
      checked s g e need n ((k, va) :: l) = (u, .ok r)) ∧
    (∀ v kind page, e.helper.getLsbD k = false → va % min n 16 = 0 → own = (v, .error (kind, page)) →
      checked s g e need n [(k, va)] = (v, .error (if kind = 0x10 then .poison v page else
        .fault v { e with faults := [⟨k, kind, va, page⟩] } [⟨k, kind, va, page⟩] (maskOfList [k]) (need == .store) true)))) ∧
  (∀ s (a : Access),
    (2 ^ 57 ≤ a.va → checkAccess s a = (s, .error (3, a.va))) ∧
    (∀ b len off, a.heap = some (b, len, off) → a.va < 2 ^ 57 → wfield b 0 1 = 1 →
      let base := wfield b 21 36 * 2 ^ 21
      let lim := base + wfield len 21 31 * 2 ^ 21
      let pa := (a.va + wfield off 21 43 * 2 ^ 21) % 2 ^ 52
      let barred := a.need = .store ∧ ∃ r ∈ (s.ctx a.ctx).regions, r.wr = false ∧ r.base < a.va + a.n ∧ a.va < r.base + r.len
      (base ≤ a.va → a.va + a.n ≤ lim →
        (localRange s.dev pa a.n = false → checkAccess s a = (s, .error (5, a.va))) ∧
        (localRange s.dev pa a.n = true → a.need = .store → wfield len 0 1 = 0 → checkAccess s a = (s, .error (2, a.va))) ∧
        (localRange s.dev pa a.n = true → (a.need ≠ .store ∨ wfield len 0 1 = 1) →
          (barred → checkAccess s a = (s, .error (6, a.va))) ∧
          (¬ barred → checkAccess s a = (s, .ok [⟨a.va, homeAddr s.dev pa, a.n, 0⟩])))) ∧
      (¬ (base ≤ a.va ∧ a.va + a.n ≤ lim) → a.va < lim → base < a.va + a.n → checkAccess s a = (s, .error (4, a.va)))) ∧
    (∀ (table : Nat → Nat) level, level ≤ 2 → a.va < 2 ^ 57 →
      (∀ b len off, a.heap = some (b, len, off) → wfield b 0 1 = 0 ∨ a.va + a.n ≤ wfield b 21 36 * 2 ^ 21 ∨
        wfield b 21 36 * 2 ^ 21 + wfield len 21 31 * 2 ^ 21 ≤ a.va) →
      0 < a.n → a.va % 4096 + a.n ≤ 4096 →
      cachedFor s a.ctx a.team = ([], []) →
      let root := (s.ctx a.ctx).ptroot
      let ok := fun k => localRange s.dev (table k) 4096 = true
      let entry := fun k i => memNat s.mem (homeAddr s.dev (table k) + 8 * i) 8
      let clean := fun k i => poisonIn s (homeAddr s.dev (table k) + 8 * i) 8 = none
      let idx := fun k => a.va / 2 ^ (12 + 9 * k) % 512
      let plain := fun e => e % 2 = 1 ∧ e / 2 ^ 52 % 2 ^ 12 = 0 ∧ e / 2 ^ 5 % 2 ^ 7 = 0
      wfield root 0 1 = 1 → table 4 = wfield root 12 40 * 4096 →
      (∀ k, level < k → k ≤ 4 → ok k ∧ clean k (idx k) ∧ plain (entry k (idx k)) ∧ entry k (idx k) / 8 % 2 = 0 ∧
        entry k (idx k) / 16 % 2 = 0 ∧ table (k - 1) = entry k (idx k) / 2 ^ 12 % 2 ^ 40 * 4096) →
      ok level →
      let i := if level = 0 ∧ entry 0 (idx 0 / 16 * 16) / 16 % 2 = 1 then idx 0 / 16 * 16 else idx level
      let e := entry level i
      let sh := if level = 2 then 30 else if level = 1 then 21 else if e / 16 % 2 = 1 then 16 else 12
      let pa := e / 2 ^ 12 % 2 ^ 40 * 4096
      clean level i → plain e → e / 8 % 2 = 1 → pa % 2 ^ sh = 0 → (e / 16 % 2 = 1 → level = 0 ∧ i % 16 = 0) → populated s.dev pa (2 ^ sh) = true →
      let allowed := a.need = .load ∨ (a.need = .store ∧ e / 2 % 2 = 1) ∨ (a.need = .fetch ∧ e / 4 % 2 = 1)
      let barred := a.need = .store ∧ ∃ r ∈ (s.ctx a.ctx).regions, r.wr = false ∧ r.base < a.va + a.n ∧ a.va < r.base + r.len
      (checkAccess s a).2 = if ¬ allowed then .error (2, a.va) else if barred then .error (6, a.va)
        else .ok [⟨a.va, homeAddr s.dev (pa + a.va % 2 ^ sh), a.n, sh⟩])) ∧
  (∀ s level idx e, level ≤ 4 → idx < 512 → e < 2 ^ 64 →
    let leaf := e / 8 % 2 = 1
    let c64 := e / 16 % 2 = 1
    let sh := if level = 2 then 30 else if level = 1 then 21 else if c64 then 16 else 12
    let pa := e / 2 ^ 12 % 2 ^ 40 * 4096
    (e % 2 = 0 → classify s level idx e = .bad 1) ∧
    (e % 2 = 1 → (e / 2 ^ 52 ≠ 0 ∨ e / 2 ^ 5 % 2 ^ 7 ≠ 0 ∨ (3 ≤ level ∧ leaf) ∨ (level = 0 ∧ ¬ leaf) ∨ (leaf ∧ pa % 2 ^ sh ≠ 0) ∨
      (c64 ∧ (1 ≤ level ∨ idx % 16 ≠ 0)) ∨ (leaf ∧ populated s.dev pa (2 ^ sh) = false)) → classify s level idx e = .bad 5)) ∧
  (∀ d pa n, populated d pa n = true ↔
    (0x800000000000 ≤ pa ∧ pa < 0x1000000000000 ∧ pa + n ≤ 0x1000000000000) ∨
    (∃ k c, k < 64 ∧ d.windowCap k = some c ∧ nodeWindow k ≤ pa ∧ pa < nodeWindow k + min c (2 ^ 40) ∧ pa + n ≤ nodeWindow k + c) ∨
    (pa < nodeWindow 0 ∧ pa < d.capacity ∧ pa + n ≤ d.capacity) ∨
    (0x1000000000000 ≤ pa ∧ pa < d.capacity ∧ pa + n ≤ d.capacity)) ∧
  (∀ (i : Instr) (f : Full) (s : State) (is : Iss), (i = .ld f ∨ i = .ldc f) → Ready s i is → is.act ≠ 0 → Memory.wf s.mem = true → s.poison = [] →
    (∀ p ∈ globalLanes (entryOf s i f is) f.d, p.2 % min (accessSize f) 16 = 0 ∧
      ∃ pa : Nat, InWindow s (s.group is.g).team p.2 (accessSize f) pa) →
    ∃ t : State, exec i s = .next t ∧ Accessed s t is)

/-- R219, R241 to R243, R245, R314, R316, R317: a store writes the bytes of the lanes that are no helpers in ascending lane order, word by
word, as writes of the group under its writer index, after a release of the ambient region where it names a scope; each byte then reads as
the highest lane that stores it left it; no register changes, and no byte outside the words it touches. A misaligned lane is MISALIGN. -/
def Obligations.Stores : Prop :=
  (∀ f s is u l, Ready s (.st f) is → is.act ≠ 0 → Memory.wf s.mem = true →
    let e := entryOf s (.st f) f is
    let x := s.group is.g
    let m := s.team x.team
    checked (entered s (.st f) f is) is.g e .store (accessSize f) (globalLanes e f.d) = (u, .ok l) →
    ∃ t, exec (.st f) s = .next t ∧
      RegsKept x (t.group is.g) ∧ Accessed s t is ∧ MemKeptBut s t is.g (wordsTouched (nonHelpers e l)) ∧
      (∃ new, t.writes = s.writes ++ new ∧ ∀ k w, new[k]? = some w → w.party = .grp is.g ∧ w.ctx = m.ctx ∧
        (w.sync.isSome = true ↔ f.xm ≠ 0) ∧ (∃ p ∈ wordsTouched (nonHelpers e l), p.1 ≤ w.word ∧ w.word < p.1 + p.2) ∧
        (∀ n, m.launch = some n → w.cls = 2 ∧
          w.idx = [(s.launch n).lseq, m.t * m.ngroups + x.idx, 0, s.writes.length + k]) ∧
        (∀ q pop, m.launch = none → m.task = some (q, pop) → w.cls = 1 ∧ w.idx = [pop, q, x.idx, 0, s.writes.length + k]) ∧
        (∀ n ∈ x.view.know, n ∈ w.prec) ∧ (∀ j, j < k → s.writes.length + j ∈ w.prec)) ∧
      (f.xm = 0 → t.rels = s.rels) ∧
      (f.xm ≠ 0 → t.rels.length = s.rels.length + 1 ∧ Released s t is.g (scopeOf f.xm.toNat) (.ambient m.ctx)) ∧
      (∀ k va q before_ after, nonHelpers e l = before_ ++ (k, va, [q]) :: after → q.len = (storeValue f e k).length → ∀ n, n < q.len →
        (∀ p ∈ after, ∀ r ∈ p.2.2, ¬ (r.pa ≤ q.pa + n ∧ q.pa + n < r.pa + r.len)) →
        plainByte t (some m.ctx) (t.group is.g).view (q.pa + n) = getAt 0 (storeValue f e k) n)) ∧
  (∀ (f : Full) (e : Entry) k,
    (f.ty = 0 → storeValue f e k = (List.range (2 ^ f.d.wid.toNat)).flatMap fun j => toBytes 8 (cell e.d j k).toNat) ∧
    (f.ty ≠ 0 → storeValue f e k = toBytes (tyWidth f.ty.toNat / 8) (cell e.d 0 k).toNat)) ∧
  (∀ f s is, Ready s (.st f) is → is.act ≠ 0 →
    let e := entryOf s (.st f) f is
    let bad := (globalLanes e f.d).filter fun p => !is.help.getLsbD p.1 && p.2 % min (accessSize f) 16 != 0
    ∀ p l, bad = p :: l → exec (.st f) s = .next (trapped (entered s (.st f) f is) is e ⟨0x06, maskOfList (bad.map (·.1)), wd p.2⟩)) ∧
  (∀ (f : Full) (s : State) (is : Iss), Ready s (.st f) is → is.act ≠ 0 → Memory.wf s.mem = true →
    (∀ p ∈ globalLanes (entryOf s (.st f) f is) f.d, p.2 % min (accessSize f) 16 = 0 ∧
      ∃ pa : Nat, InWindow s (s.group is.g).team p.2 (accessSize f) pa) →
    ∃ t : State, exec (.st f) s = .next t ∧ RegsKept (s.group is.g) (t.group is.g) ∧ Accessed s t is)

/-- R219, R234, R235, R241, R247: an LDS gives each lane the bytes at its checked place; LDS.WF and LDS.WFC of granules that are full and on
which no one waits do the same, .WFC clearing F, and a lane whose granule is empty waits in the granule's queue; a store writes the bytes of
the lanes that are no helpers, and with .F marks their granules full, which serves a waiter; no other byte of any scratchpad and no byte of
memory changes. A misaligned lane is MISALIGN, and one whose place does not exist SPFAULT. R234 asks only that OFF lies below SPAD * 1024: that an
access which starts there and runs past the end does not exist as a whole is the model's choice (assumption log 52). -/
def Obligations.ScratchpadRows : Prop :=
  let value := fun (s : State) (f : Full) (l : List (Nat × Nat × Nat)) j k => match l.find? fun p => p.1 == k with
    | some p => if spadPoison (s.team p.2.1) p.2.2 (accessSize f) = true then 0
        else getAt 0 (loadValue f (memRead (s.team p.2.1).spad p.2.2 (accessSize f))) j
    | none => 0
  (∀ f s is l, f.xm = 0 → Ready s (.lds f) is → is.act ≠ 0 → Memory.wf s.mem = true →
    let e := entryOf s (.lds f) f is
    spadChecked (entered s (.lds f) f is) is.g e (accessSize f) (spadLanes e f.d) = .ok l →
    (∀ p ∈ l, is.help.getLsbD p.1 = false → spadPoison (s.team p.2.1) p.2.2 (accessSize f) = false) →
    ∃ t, exec (.lds f) s = .next t ∧
      let x := s.group is.g
      RunWritten x (t.group is.g) f.d is.act (value s f l) ∧
      PredsKept x (t.group is.g) ∧ JoinsKept x (t.group is.g) ∧ (t.group is.g).flags = x.flags ∧ Settled s t is) ∧
  (∀ f s is l, f.xm ≠ 0 → Ready s (.lds f) is → is.act ≠ 0 → Memory.wf s.mem = true →
    let e := entryOf s (.lds f) f is
    let x := s.group is.g
    let own := l.filter fun p => !is.help.getLsbD p.1
    spadChecked (entered s (.lds f) f is) is.g e (accessSize f) (spadLanes e f.d) = .ok l →
    (∀ p ∈ l, is.help.getLsbD p.1 = false → spadPoison (s.team p.2.1) p.2.2 (accessSize f) = false) →
    (∀ p ∈ own, ∀ w ∈ (s.team p.2.1).waiters, w.granule ≠ p.2.2 / 16) →
    ((∀ p ∈ own, p.2.2 / 16 ∈ (s.team p.2.1).fbits) → (f.xm = 2 → (own.map fun p => (p.2.1, p.2.2 / 16)).Nodup) →
      ∃ t, exec (.lds f) s = .next t ∧
        RunWritten x (t.group is.g) f.d is.act (value s f l) ∧
        (∀ u n, n ∈ (t.team u).fbits ↔ n ∈ (s.team u).fbits ∧ (f.xm = 2 → ∀ p ∈ own, p.2.1 = u → p.2.2 / 16 ≠ n)) ∧
        (∀ u, (t.team u).spad = (s.team u).spad ∧ (t.team u).tile = (s.team u).tile ∧ (t.team u).waiters = (s.team u).waiters) ∧
        PredsKept x (t.group is.g) ∧ JoinsKept x (t.group is.g) ∧ (t.group is.g).flags = x.flags ∧ Advanced x (t.group is.g) is ∧
        GroupsKept s t is.g ∧ t.writes = s.writes ∧ t.rels = s.rels ∧ MemKept s t is.g) ∧
    (∀ k u off, own = [(k, u, off)] → l = own → off / 16 ∉ (s.team u).fbits → ∃ t, exec (.lds f) s = .next t ∧
      (t.group is.g).wait = .spad ∧ (t.group is.g).log = [e] ∧ (t.team u).waiters = (s.team u).waiters ++ [⟨is.g, k, off / 16⟩] ∧
      (∀ v, (t.team v).spad = (s.team v).spad ∧ (t.team v).fbits = (s.team v).fbits) ∧ RegsKept x (t.group is.g) ∧
      GroupsKept s t is.g ∧ t.writes = s.writes ∧ MemKept s t is.g)) ∧
  (∀ f s is l, Ready s (.sts f) is → is.act ≠ 0 → Canonical s →
    let e := entryOf s (.sts f) f is
    spadChecked (entered s (.sts f) f is) is.g e (accessSize f) (spadLanes e f.d) = .ok l →
    (f.xm = 1 → ∀ p ∈ l, ∀ w ∈ (s.team p.2.1).waiters, w.granule ≠ p.2.2 / 16) →
    ∃ t, exec (.sts f) s = .next t ∧ RegsKept (s.group is.g) (t.group is.g) ∧
      (∀ u a, (∀ p ∈ l, is.help.getLsbD p.1 = false → p.2.1 = u → ¬ (p.2.2 ≤ a ∧ a < p.2.2 + accessSize f)) →
        memGet (t.team u).spad a = memGet (s.team u).spad a) ∧
      (∀ u n, n ∈ (t.team u).fbits ↔ n ∈ (s.team u).fbits ∨
        (f.xm = 1 ∧ ∃ p ∈ l, is.help.getLsbD p.1 = false ∧ p.2.1 = u ∧ p.2.2 / 16 = n)) ∧
      (∀ k u off before_ after, l = before_ ++ (k, u, off) :: after → is.help.getLsbD k = false → ∀ n, n < accessSize f →
        (∀ p ∈ after, is.help.getLsbD p.1 = false → p.2.1 = u → ¬ (p.2.2 ≤ off + n ∧ off + n < p.2.2 + accessSize f)) →
        memGet (t.team u).spad (off + n) = getAt 0 (storeValue f e k) n) ∧
      (∀ u, (t.team u).tile = (s.team u).tile) ∧ t.writes = s.writes ∧ t.rels = s.rels ∧
      Advanced (s.group is.g) (t.group is.g) is ∧ GroupsKept s t is.g ∧ MemKept s t is.g) ∧
  (∀ f lf s is k u off h n e1 rest, f.xm = 1 → Ready s (.sts f) is → is.act ≠ 0 → Canonical s → h ≠ is.g → h < s.groups.length →
    let e := entryOf s (.sts f) f is
    spadChecked (entered s (.sts f) f is) is.g e (accessSize f) (spadLanes e f.d) = .ok [(k, u, off)] → is.help.getLsbD k = false →
    (s.team u).waiters = [⟨h, n, off / 16⟩] → (s.group h).log = e1 :: rest → e1.instr = .lds lf → u < s.teams.length →
    (s.team u).sppois = [] → spadTarget s (s.group h).team ((e1.bv n + e1.cv n).toNat % 2 ^ 32) (accessSize lf) = some (u, off) →
    accessSize lf = accessSize f → ∃ t, exec (.sts f) s = .next t ∧ (t.team u).waiters = [] ∧
      (off / 16 ∈ (t.team u).fbits ↔ lf.xm ≠ 2) ∧
      (t.group h).log = { e1 with kept := e1.kept ++ [(n, ofBytes (storeValue f e k))] } :: rest) ∧
  (∀ (e : Entry) (d : Reg),
    let a := fun l => ((cell e.b 0 l).toNat + (cell e.c 0 l).toNat) % 2 ^ 32
    (d.file = .v → spadLanes e d = ((List.range 32).filter fun l => e.act.getLsbD l).map fun l => (l, a l)) ∧
    (d.file = .s → ∀ l, e.act.getLsbD l = true → (∀ k, k < l → e.act.getLsbD k = false) → spadLanes e d = [(l, a l)])) ∧
  (∀ s t a n, 0 < n → spadTarget s t a n =
    if a / 2 ^ 19 % 2 ^ 10 ≠ 0 then none
    else if a / 2 ^ 29 % 2 = 0 then (if a % 2 ^ 19 + n ≤ (s.team t).spadKiB * 1024 then some (t, a % 2 ^ 19) else none)
    else if (s.team t).crew ≤ a / 2 ^ 30 % 4 then none
    else match crewMember s t (a / 2 ^ 30 % 4) with
      | none => none
      | some u => if a % 2 ^ 19 + n ≤ (s.team u).spadKiB * 1024 then some (u, a % 2 ^ 19) else none) ∧
  (∀ i f s is, (i = .lds f ∨ i = .sts f) → Ready s i is → is.act ≠ 0 →
    let e := entryOf s i f is
    let n := accessSize f
    let own := (spadLanes e f.d).filter fun p => !is.help.getLsbD p.1
    let odd := own.filter fun p => p.2 % min n 16 != 0
    let bad := own.filter fun p => (spadTarget s (s.group is.g).team p.2 n).isNone
    (∀ p l, odd = p :: l → exec i s = .next (trapped (entered s i f is) is e ⟨0x06, maskOfList (odd.map (·.1)), wd p.2⟩)) ∧
    (odd = [] → (∀ p l, bad = p :: l →
      exec i s = .next (trapped (entered s i f is) is e ⟨0x08, maskOfList (bad.map (·.1)), wd p.2⟩))))

/-- R157, R259, R260: the lanes of MONITOR that are no helpers watch the 128-byte line of the byte that their lowest checks, from the writes
there are; host memory leaves no watch, and helper lanes alone arm none. MWAIT without a watch changes nothing, ends a watch whose line has
been written since, and else waits. -/
def Obligations.MonitorAndWait : Prop :=
  (∀ f s is k u va p l, Ready s (.monitor f) is → is.act ≠ 0 → Memory.wf s.mem = true →
    let e := entryOf s (.monitor f) f is
    is.act.getLsbD k = true → is.help.getLsbD k = false → (∀ m, m < k → is.act.getLsbD m = true → is.help.getLsbD m = true) →
    checked (entered s (.monitor f) f is) is.g e .load 1 [(k, ((cell e.b 0 k).toNat + (cell e.c 0 k).toNat) % 2 ^ 64)] =
      (u, .ok [(k, va, p :: l)]) →
    ∃ t, exec (.monitor f) s = .next t ∧
      (t.group is.g).watch = (if 0x800000000000 ≤ p.pa ∧ p.pa < 0x1000000000000 then none else
        some ⟨p.pa / 128 * 128, ((cell e.b 0 k).toNat + (cell e.c 0 k).toNat) % 2 ^ 64, s.writes.length, p.sh⟩) ∧
      RegsKept (s.group is.g) (t.group is.g) ∧ Advanced (s.group is.g) (t.group is.g) is ∧
      PlaceKept (s.group is.g) { t.group is.g with watch := (s.group is.g).watch } ∧ GroupsKept s t is.g ∧ RestKept s t ∧
      t.writes = s.writes ∧ t.rels = s.rels ∧ MarksKept s t is.g ∧ MemKept s t is.g) ∧
  (∀ f s is, Ready s (.monitor f) is → is.act ≠ 0 → Memory.wf s.mem = true → is.act &&& ~~~is.help = 0 →
    ∃ t, exec (.monitor f) s = .next t ∧ Quiet s t is) ∧
  (∀ f s is, Ready s (.mwait f) is → is.act ≠ 0 → Memory.wf s.mem = true →
    ((s.group is.g).watch = none → ∃ t, exec (.mwait f) s = .next t ∧ Quiet s t is) ∧
    (∀ w, (s.group is.g).watch = some w → (∃ n x, w.armed ≤ n ∧ s.writes[n]? = some x ∧ x.word / 128 * 128 = w.line) →
      ∃ t, exec (.mwait f) s = .next t ∧
      (t.group is.g).watch = none ∧ (t.group is.g).wait = .none ∧ RegsKept (s.group is.g) (t.group is.g) ∧
      Advanced (s.group is.g) (t.group is.g) is ∧ GroupsKept s t is.g ∧ MachineKept s t is.g ∧ MemKept s t is.g) ∧
    (∀ w, (s.group is.g).watch = some w → (∀ n x, w.armed ≤ n → s.writes[n]? = some x → x.word / 128 * 128 ≠ w.line) →
      ∃ t, exec (.mwait f) s = .next t ∧
      (t.group is.g).watch = some w ∧ (t.group is.g).wait = .mwait ∧ (t.group is.g).log = [entryOf s (.mwait f) f is] ∧
      RegsKept (s.group is.g) (t.group is.g) ∧ GroupsKept s t is.g ∧ MachineKept s t is.g ∧ MemKept s t is.g)) ∧
  (∀ (f : Full) (s : State) (is : Iss) (k pa : Nat), Ready s (.monitor f) is → is.act ≠ 0 → Memory.wf s.mem = true →
    let e := entryOf s (.monitor f) f is
    let va := ((cell e.b 0 k).toNat + (cell e.c 0 k).toNat) % 2 ^ 64
    is.act.getLsbD k = true → is.help.getLsbD k = false → (∀ m, m < k → is.act.getLsbD m = true → is.help.getLsbD m = true) →
    InWindow s (s.group is.g).team va 1 pa → pa < 0x800000000000 → ∃ t : State, exec (.monitor f) s = .next t ∧
      (t.group is.g).watch = some ⟨pa / 128 * 128, va, s.writes.length, 0⟩ ∧ RegsKept (s.group is.g) (t.group is.g) ∧
      Advanced (s.group is.g) (t.group is.g) is)

/-- R219, R250 to R253, R313, R314, R318, Table 11.5: an atomic of lanes that name words apart, or that all name one word, gives each lane, in
ascending order, the old value of its word at L2, unless NR says no return, and writes the new value as an operation of the home L2; on l32 the sum
is addlog, with its flags. .REL and .AR release the ambient region before, .ACQ and .AR acquire it after. After a lane in host memory that is not
the last the group's turn ends, so that another party may come between (R252), and its later turn goes on with the next lane. A misaligned lane is
MISALIGN; a lane in host memory whose operation the link lacks is ATOMSP, whose lanes are the model's choice (assumption log 11). That an atomic is
recorded as a write of class 3 whose party is the group is the model's choice for R314's writes of the home L2 (assumption log 50). -/
def Obligations.Atomics : Prop :=
  let int := fun (f : Full) n => readAs f.ty.toNat (tyWidth f.ty.toNat) n
  let key := fun n => logKey l32 (decodeLog l32 n)
  let operand := fun (f : Full) (e : Entry) k => (cell e.d (if f.xm = 7 then 1 else 0) k).toNat % 2 ^ tyWidth f.ty.toNat
  let new : Full → Entry → Nat → Nat → Nat × Flags := fun f e k old =>
    let w := tyWidth f.ty.toNat
    let v := operand f e k
    if f.ty = 8 then
      (match f.xm.toNat with
      | 0 => addlog old v l32 (rmodeOf f.rnd.toNat) ((cell e.r 0 k).toNat % 2 ^ w)
      | 1 => (match key old, key v with | some a, some b => if b < a then canon l32 v else canon l32 old | _, _ => narCode l32, 0)
      | _ => (match key old, key v with | some a, some b => if a < b then canon l32 v else canon l32 old | _, _ => narCode l32, 0))
    else
      (match f.xm.toNat with
      | 0 => (old + v) % 2 ^ w
      | 1 => if int f v < int f old then v else old
      | 2 => if int f old < int f v then v else old
      | 3 => old &&& v | 4 => old ||| v | 5 => old ^^^ v | 6 => v
      | _ => if old = (cell e.d 0 k).toNat % 2 ^ w then v else old, 0)
  let returned := fun (f : Full) old => if 4 ≤ f.ty.toNat ∧ f.ty.toNat < 8 then BitVec.ofInt 64 (int f old) else BitVec.ofNat 64 old
  let lanes := fun (f : Full) (e : Entry) => (e.accessLanes f.d).map fun n => (n, (cell e.b 0 n).toNat)
  let usual := fun (s : State) (f : Full) (is : Iss) (t : State) =>
    let cw := f.c.immNat
    let sc := scopeOf (cw % 8)
    let x := s.group is.g
    let c := (s.team x.team).ctx
    PredsKept x (t.group is.g) ∧ JoinsKept x (t.group is.g) ∧ Accessed s t is ∧ MarksKept s t is.g ∧
    (cw / 16 % 2 = 0 → t.rels = s.rels) ∧
    (cw / 16 % 2 = 1 → t.rels.length = s.rels.length + 1 ∧ Released s t is.g sc (.ambient c)) ∧
    (cw / 8 % 2 = 1 → Acquired s t is.g sc (.ambient c) x.view.seen)
  (∀ f s is u (l : List (Nat × Nat × Piece)), Ready s (.atom f) is → is.act ≠ 0 → Memory.wf s.mem = true →
    let e := entryOf s (.atom f) f is
    let w := tyWidth f.ty.toNat
    let nr := f.c.immNat / 32 % 2 = 1
    let x := s.group is.g
    checked (entered s (.atom f) f is) is.g e .store (w / 8) (lanes f e) = (u, .ok (l.map fun p => (p.1, p.2.1, [p.2.2]))) →
    let own := l.filter fun p => !is.help.getLsbD p.1
    own.Pairwise (fun p q => p.2.2.pa + w / 8 ≤ q.2.2.pa ∨ q.2.2.pa + w / 8 ≤ p.2.2.pa) →
    (∀ p ∈ own.dropLast, isHost p.2.2.pa = false) →
    (∀ p ∈ own, isHost p.2.2.pa = true → f.ty ≠ 8 ∧ (f.xm = 0 ∨ 6 ≤ f.xm.toNat)) →
    (¬ nr → ∀ p ∈ own, poisonPieces u [p.2.2] = none) →
    (∀ p ∈ own, ∀ a, TraceByte s a → ¬ (p.2.2.pa ≤ a ∧ a < p.2.2.pa + w / 8)) →
    let old := fun k => match own.find? fun p => p.1 == k with | some p => memNat s.mem p.2.2.pa (w / 8) | none => 0
    ∃ t, exec (.atom f) s = .next t ∧
      (nr → VectorsKept x (t.group is.g) ∧ ScalarsKept x (t.group is.g)) ∧
      (¬ nr → RunWritten x (t.group is.g) ⟨f.d.file, f.d.num, 0⟩ is.act fun _ k =>
        if own.any (fun p => p.1 == k) then returned f (old k) else 0) ∧
      (t.group is.g).flags = own.foldl (fun fl p => fl ||| (new f e p.1 (old p.1)).2) x.flags ∧
      (∃ recs, t.writes = s.writes ++ recs ∧ recs.length = own.length * (w / 32) ∧ ∀ i p, own[i]? = some p → ∀ n, n < w / 32 →
        ∃ r, recs[i * (w / 32) + n]? = some r ∧ r.word = p.2.2.pa + 4 * n ∧ r.cls = 3 ∧ r.party = .grp is.g ∧ r.sync.isSome = true ∧
          r.val = BitVec.ofNat 32 ((new f e p.1 (old p.1)).1 / 2 ^ (32 * n))) ∧
      (∀ p ∈ own, (∀ n, n < w / 32 → writesTo s (p.2.2.pa + 4 * n) = []) →
        memNat t.mem p.2.2.pa (w / 8) = (new f e p.1 (old p.1)).1 % 2 ^ w ∨
        ∃ a, SideByte s is.g a ∧ p.2.2.pa ≤ a ∧ a < p.2.2.pa + w / 8) ∧
      (f.c.immNat / 8 % 2 = 1 → ∀ p ∈ own, ∀ n q, n < w / 32 → winner none (writesTo s (p.2.2.pa + 4 * n)) = some q →
        q.2.sync.isSome = true →
        Acquired s t is.g (scopeOf (f.c.immNat % 8)) (.ambient (s.team x.team).ctx) (observed s is.g (scopeOf (f.c.immNat % 8)) (p.2.2.pa + 4 * n) q.1)) ∧
      usual s f is t ∧ MemKeptBut s t is.g (own.map fun p => (p.2.2.pa, w / 8))) ∧
  (∀ f s is u q (ks : List (Nat × Nat)), Ready s (.atom f) is → is.act ≠ 0 → Memory.wf s.mem = true →
    let e := entryOf s (.atom f) f is
    let w := tyWidth f.ty.toNat
    let x := s.group is.g
    checked (entered s (.atom f) f is) is.g e .store (w / 8) (lanes f e) = (u, .ok (ks.map fun p => (p.1, p.2, [q]))) →
    (∀ p ∈ ks, is.help.getLsbD p.1 = false) → (ks.map (·.1)).Nodup → isHost q.pa = false →
    f.c.immNat / 32 % 2 = 0 → poisonPieces u [q] = none → (∀ a, TraceByte s a → ¬ (q.pa ≤ a ∧ a < q.pa + w / 8)) →
    (∀ n, n < w / 32 → writesTo s (q.pa + 4 * n) = []) →
    let first := memNat s.mem q.pa (w / 8)
    let lane := fun i => (getAt (0, 0) ks i).1
    let holds := fun i => (ks.take i).foldl (fun old p => (new f e p.1 old).1 % 2 ^ w) first
    ∃ t, exec (.atom f) s = .next t ∧
      RunWritten x (t.group is.g) ⟨f.d.file, f.d.num, 0⟩ is.act (fun _ n =>
        match (List.range ks.length).find? fun i => lane i == n with | some i => returned f (holds i) | none => 0) ∧
      (t.group is.g).flags = (List.range ks.length).foldl (fun fl i => fl ||| (new f e (lane i) (holds i)).2) x.flags ∧
      (memNat t.mem q.pa (w / 8) = holds ks.length ∨ ∃ a, SideByte s is.g a ∧ q.pa ≤ a ∧ a < q.pa + w / 8) ∧
      usual s f is t ∧ MemKeptBut s t is.g [(q.pa, w / 8)]) ∧
  (∀ f s is u (l pre rest : List (Nat × Nat × Piece)) p q, Ready s (.atom f) is → is.act ≠ 0 → Memory.wf s.mem = true →
    let e := entryOf s (.atom f) f is
    let w := tyWidth f.ty.toNat
    let x := s.group is.g
    checked (entered s (.atom f) f is) is.g e .store (w / 8) (lanes f e) = (u, .ok (l.map fun p => (p.1, p.2.1, [p.2.2]))) →
    (l.filter fun p => !is.help.getLsbD p.1) = pre ++ p :: q :: rest →
    (∀ r ∈ pre, isHost r.2.2.pa = false) → isHost p.2.2.pa = true → f.ty ≠ 8 → (f.xm = 0 ∨ 6 ≤ f.xm.toNat) →
    (f.c.immNat / 32 % 2 = 0 → ∀ r ∈ pre ++ p :: q :: rest, poisonPieces u [r.2.2] = none) →
    let done := pre ++ [p]
    done.Pairwise (fun p q => p.2.2.pa + w / 8 ≤ q.2.2.pa ∨ q.2.2.pa + w / 8 ≤ p.2.2.pa) →
    (∀ r ∈ done, ∀ a, TraceByte s a → ¬ (r.2.2.pa ≤ a ∧ a < r.2.2.pa + w / 8)) →
    let old := fun (r : Nat × Nat × Piece) => memNat s.mem r.2.2.pa (w / 8)
    ∃ t, exec (.atom f) s = .next t ∧ (t.group is.g).wait = .lanes ∧
      (t.group is.g).log = [{ e with stage := 1
                                     kept := (done.map fun r => (r.1, old r)) ++ (q :: rest).flatMap fun r => [(32 + r.1, r.2.2.pa), (64 + r.1, r.2.1)] }] ∧
      RegsKept x { t.group is.g with flags := x.flags } ∧
      (t.group is.g).flags = done.foldl (fun fl r => fl ||| (new f e r.1 (old r)).2) x.flags ∧
      (∃ recs, t.writes = s.writes ++ recs ∧ recs.length = done.length * (w / 32) ∧ ∀ i r, done[i]? = some r → ∀ n, n < w / 32 →
        ∃ c, recs[i * (w / 32) + n]? = some c ∧ c.word = r.2.2.pa + 4 * n ∧ c.cls = 3 ∧ c.party = .grp is.g ∧
          c.val = BitVec.ofNat 32 ((new f e r.1 (old r)).1 / 2 ^ (32 * n))) ∧
      GroupsKept s t is.g ∧ MemKeptBut s t is.g (done.map fun r => (r.2.2.pa, w / 8))) ∧
  (∀ s g, (s.group g).wait = .lanes → retry s g = post (runEntries s g) g) ∧
  (∀ f s g (e : Entry) k va pa (olds : List (Nat × Nat)), g < s.groups.length → Memory.wf s.mem = true →
    let w := tyWidth f.ty.toNat
    e.instr = .atom f → e.stage ≠ 0 → f.ty.toNat ∈ [0, 1, 4, 5] → (∀ p ∈ olds, p.1 < 32 ∧ p.2 < 2 ^ w) → k < 32 →
    e.kept = olds ++ [(32 + k, pa), (64 + k, va)] →
    let old := memNat s.mem pa (w / 8)
    ∃ t, performEntry g e s = .done t ∧
      (f.c.immNat / 32 % 2 = 1 → VectorsKept (s.group g) (t.group g) ∧ ScalarsKept (s.group g) (t.group g)) ∧
      (f.c.immNat / 32 % 2 = 0 → RunWritten (s.group g) (t.group g) ⟨f.d.file, f.d.num, 0⟩ e.act fun _ n =>
        match (olds ++ [(k, old)]).find? fun p => p.1 == n with | some p => returned f p.2 | none => 0) ∧
      PredsKept (s.group g) (t.group g) ∧ (t.group g).flags = (s.group g).flags ||| (new f e k old).2 ∧
      (∃ recs, t.writes = s.writes ++ recs ∧ recs.length = w / 32 ∧ ∀ n, n < w / 32 → ∃ c, recs[n]? = some c ∧ c.word = pa + 4 * n ∧
        c.cls = 3 ∧ c.party = .grp g ∧ c.val = BitVec.ofNat 32 ((new f e k old).1 / 2 ^ (32 * n))) ∧
      GroupsKept s t g ∧ MemKeptBut s t g [(pa, w / 8)]) ∧
  (∀ f s is, Ready s (.atom f) is → is.act ≠ 0 →
    let e := entryOf s (.atom f) f is
    let w := tyWidth f.ty.toNat
    let bad := (lanes f e).filter fun p => !is.help.getLsbD p.1 && p.2 % (w / 8) != 0
    (∀ p l, bad = p :: l →
      exec (.atom f) s = .next (trapped (entered s (.atom f) f is) is e ⟨0x06, maskOfList (bad.map (·.1)), wd p.2⟩)) ∧
    (∀ u l, checked (entered s (.atom f) f is) is.g e .store (w / 8) (lanes f e) = (u, .ok l) → (f.ty = 8 ∨ 1 ≤ f.xm.toNat ∧ f.xm.toNat ≤ 5) →
      let host := l.filter fun p => !is.help.getLsbD p.1 && match p.2.2 with | q :: _ => isHost q.pa | [] => false
      ∀ p r, host = p :: r → exec (.atom f) s = .next (trapped u is e ⟨0x0A, maskOfList (host.map (·.1)), wd p.2.1⟩))) ∧
  (∀ (f : Full) (s : State) (is : Iss), Ready s (.atom f) is → is.act ≠ 0 → Memory.wf s.mem = true → s.poison = [] →
    let w := tyWidth f.ty.toNat
    (∀ p ∈ lanes f (entryOf s (.atom f) f is), p.2 % (w / 8) = 0 ∧
      ∃ pa : Nat, InWindow s (s.group is.g).team p.2 (w / 8) pa ∧ pa < 0x800000000000) →
    ∃ t : State, exec (.atom f) s = .next t ∧ Accessed s t is)

/-- R255, R256, R257, R318, Table 11.6: AACC.O sends its contribution to the home L2 of its header and waits. There, for an object in the heap
window with a sound header, the group's 32 codes fill the slot of its key and the key's bit is set; then every key that is ready from NEXT on is
folded in the order of lanes by addlog, header words 0 and 3 take the result and its flags, and whenever NEXT has come to COUNT a release of the
object's words and slots comes before the store of DONE. A header, key or slot that fails its check is AACCERR with its reason; a header not aligned
is MISALIGN, and one that is not local ATOMSP. The model's choices here are which lanes MISALIGN and ATOMSP name (assumption log 11) and how the
accesses of the home L2 are recorded (assumption log 50). -/
def Obligations.OrderedAccumulation : Prop :=
  (∀ (f : Full) (s : State) (is : Iss) (u : State) (l : List Piece), Ready s (.aaccO f) is → is.act ≠ 0 → Memory.wf s.mem = true →
    let e := entryOf s (.aaccO f) f is
    let b := (e.bv e.low).toNat
    (b % 64 ≠ 0 → exec (.aaccO f) s = .next (trapped (entered s (.aaccO f) f is) is e ⟨0x06, maskOfList [e.low], wd b⟩)) ∧
    (b % 64 = 0 → checkedOnce (entered s (.aaccO f) f is) is.g e .store 64 b = (u, .ok l) →
      (localRange s.dev (headPa l) 64 = false → exec (.aaccO f) s = .next (trapped u is e ⟨0x0A, is.at_, wd b⟩)) ∧
      (localRange s.dev (headPa l) 64 = true → ∃ t, exec (.aaccO f) s = .next t ∧
        (t.group is.g).wait = .contrib ∧ (t.group is.g).log = [e] ∧
        RegsKept (s.group is.g) (t.group is.g) ∧ Advanced (s.group is.g) (t.group is.g) is ∧ GroupsKept s t is.g ∧ RestKept s t ∧
        t.writes = s.writes ∧ t.rels = s.rels ∧ MemKept s t is.g))) ∧
  (∀ (g : Nat) (s : State) (e : Entry) (f : Full) (hpa : Nat), g < s.groups.length → (s.group g).wait = .contrib → (s.group g).ended = false → s.dev.status ≠ 7 →
    (s.group g).log = [e] → e.instr = .aaccO f → Memory.wf s.mem = true →
    let x := s.group g
    let team := s.team x.team
    let b := (e.bv e.low).toNat
    let h : Nat → Nat := fun k => memNat s.mem (hpa + 8 * k) 8
    let count : Nat := h 1 % 2 ^ 32
    let next : Nat := h 0 / 2 ^ 32
    let slots := h 4 % 2 ^ 57
    let arrive := h 5 % 2 ^ 57
    let key : Int := (team.t * team.ngroups + x.idx : Nat) + (e.cv e.low).toInt
    let first := Int.bmod (h 2 % 2 ^ 32) (2 ^ 32)
    let err := fun (reason : Nat) => exec (.aaccContribute g) s =
      .next (retrapped s g e ⟨0x0B, e.lanes, wd (reason * 2 ^ 56 + (key % 2 ^ 32).toNat)⟩)
    let shape := 0 < count ∧ count ≤ 2 ^ 24 ∧ slots % 128 = 0 ∧ arrive % 8 = 0
    b % 64 = 0 → InWindow s x.team b 64 hpa →
    (h 2 / 2 ^ 63 = 0 ∨ 4 < h 2 / 2 ^ 60 % 8 → err 1) ∧
    (h 2 / 2 ^ 63 = 1 → h 2 / 2 ^ 60 % 8 ≤ 4 →
      (¬ shape → err 4) ∧
      (shape → key < first ∨ first + count ≤ key → err 2) ∧
      (∀ n spa apa : Nat, shape → key = first + (n : Nat) → n < count → InWindow s x.team slots (128 * count) spa →
        InWindow s x.team arrive (8 * ((count + 63) / 64)) apa →
        let bits : Nat := memNat s.mem (apa + 8 * (n / 64)) 8
        (bits / 2 ^ (n % 64) % 2 = 1 → err 3) ∧
        (bits / 2 ^ (n % 64) % 2 = 0 → s.poison = [] → ∀ m : Nat,
          (∀ p ∈ [(hpa, 64), (spa, 128 * count), (apa, 8 * ((count + 63) / 64))], HomeNextRange s x.view p.1 p.2 ∧ NoSide s g p.1 p.2) →
          Apart hpa 64 spa (128 * count) → Apart hpa 64 apa (8 * ((count + 63) / 64)) → Apart spa (128 * count) apa (8 * ((count + 63) / 64)) →
          let arrived := fun (k : Nat) => k = n ∨ memNat s.mem (apa + 8 * (k / 64)) 8 / 2 ^ (k % 64) % 2 = 1
          let mine : Nat → Nat := fun l => if e.act.getLsbD l = true ∧ e.helper.getLsbD l = false then canon l32 ((cell e.d 0 l).toNat % 2 ^ 32)
            else zeroCode l32
          let code : Nat → Nat → Nat := fun k l => if k = n then mine l else memNat s.mem (spa + 128 * k + 4 * l) 4
          next ≤ m → (∀ k, next ≤ k → k < m → k < count ∧ arrived k) → (count ≤ m ∨ ¬ arrived m) →
          let sum := (List.range (m - next)).foldl (fun a k => (List.range 32).foldl (fun a l =>
            let r := addlog a.1 (code (next + k) l) l32 (rmodeOf (h 2 / 2 ^ 60 % 8)) 0
            (r.1, a.2 ||| r.2)) a) (h 0 % 2 ^ 32, (0 : Flags))
          let flags := h 3 % 32 ||| sum.2.toNat
          let last := m = count
          ∃ t, exec (.aaccContribute g) s = .next t ∧ (t.group g).wait = .none ∧ (t.group g).log = [] ∧
            (∀ l, l < 32 → memNat t.mem (spa + 128 * n + 4 * l) 4 = mine l) ∧
            memNat t.mem (apa + 8 * (n / 64)) 8 = bits + 2 ^ (n % 64) ∧
            memNat t.mem hpa 8 = m * 2 ^ 32 + sum.1 ∧
            (last → memNat t.mem (hpa + 24) 8 = 2 ^ 63 + flags ∧
              ∃ r : Release, t.rels = s.rels ++ [r] ∧ r.party = .grp g ∧ r.scope = .device ∧
                r.acts = .bytes team.ctx [(b, 32), (slots, 128 * count)] ∧
                (∀ (i : Nat) (w : WriteRec), i + 2 < t.writes.length → t.writes[i]? = some w → (s.writes.length ≤ i ∨ w.cls = 3 ∧ w.sync.isSome = true) →
                  covers t r.acts i = true → i ∈ r.cov) ∧
                ∃ (w : WriteRec) (rels : List Nat), t.writes[t.writes.length - 1]? = some w ∧ w.sync = some (.device, rels) ∧ s.rels.length ∈ rels) ∧
            (¬ last → t.rels = s.rels ∧ memNat t.mem (hpa + 24) 8 = if next < m then flags else h 3) ∧
            t.poison = [] ∧ RegsKept x (t.group g) ∧ GroupsKept s t g ∧
            MemKeptBut s t g [(hpa, 8), (hpa + 24, 8), (spa + 128 * n, 128), (apa + 8 * (n / 64), 8)])) ∧
      (∀ (n : Nat) (u : State) (l : List Piece), shape → key = first + (n : Nat) → n < count → checkedOnce s g e .store 128 (slots + 128 * n) = (u, .ok l) →
        (localRange s.dev (headPa l) 128 = false → ∀ (v : State) (k : List Piece), checkedOnce u g e .store 8 (arrive + 8 * (n / 64)) = (v, .ok k) →
          exec (.aaccContribute g) s = .next (retrapped v g e ⟨0x0A, e.lanes, wd (slots + 128 * n)⟩)))))

/-- R261, R265, R266, R270 to R273, Tables 11.7, 11.8, 11.10: CPYQ hands a sound request to the core's engine, with a release of the ambient region
that the engine acquires, and waits while the engine is full; ABINIT sets a barrier's count; ABWAIT waits for its phase, then takes MFAULT of an
abandoned request, or raises the barrier's flags and acquires what its phases released; TCPY copies rows between scratchpad and tile store. Each
check that fails traps: CPYERR with its reason, SPFAULT, MISALIGN, TSBOUND. With helper lanes alone ABWAIT waits and acquires all the same, but
raises neither a trap nor a flag; the others do nothing, but that CPYQ and ABINIT take CPYERR, which is no memory fault (R157). The model's choices
here are which lanes MISALIGN and TSBOUND name (assumption log 11), that a misaligned barrier offset is CPYERR 8 (assumption log 15), and that a
range past the scratchpad's end does not exist as a whole (assumption log 52). -/
def Obligations.CopyRows : Prop :=
  (∀ s t a n, localSpad s t a n = true ↔ a / 2 ^ 19 % 2 ^ 11 = 0 ∧ a % 2 ^ 19 + n ≤ (s.team t).spadKiB * 1024) ∧
  (∀ f s is, Ready s (.tcpy f) is → is.act ≠ 0 → Memory.wf s.mem = true → is.act &&& ~~~is.help = 0 → ∃ t, exec (.tcpy f) s = .next t ∧ Quiet s t is) ∧
  (∀ f s is, Ready s (.cpyq f) is → is.act ≠ 0 → Memory.wf s.mem = true →
    let idle := is.act &&& ~~~is.help = 0
    let nothing := ∃ z, exec (.cpyq f) s = .next z ∧ Quiet s z is
    let e := entryOf s (.cpyq f) f is
    let x := s.group is.g
    let a := ((e.bv e.low).toNat + (e.cv e.low).toNat) % 2 ^ 32
    let t := x.team
    let w8 := wordsOf (memRead (s.team t).spad (a % 2 ^ 19) 64)
    let long := wfield (getAt 0 w8 0) 61 1 = 1 ∨ wfield (getAt 0 w8 1) 59 5 ∈ [10, 11] ∨ wfield (getAt 0 w8 1) 54 5 ∈ [10, 11]
    let err := fun cause info => exec (.cpyq f) s = .next (trapped (entered s (.cpyq f) f is) is e ⟨cause, is.at_, wd info⟩)
    (a % 64 ≠ 0 ∨ a / 2 ^ 29 % 2 = 1 → err 0x0C (2 ^ 32 + a)) ∧
    (a % 64 = 0 → a / 2 ^ 29 % 2 = 0 → a / 2 ^ 19 % 2 ^ 10 ≠ 0 ∨ (s.team t).spadKiB * 1024 < a % 2 ^ 19 + (if long then 128 else 64) →
      (¬ idle → err 0x08 a) ∧ (idle → nothing)) ∧
    (a % 64 = 0 → a / 2 ^ 19 % 2 ^ 11 = 0 → a % 2 ^ 19 + (if long then 128 else 64) ≤ (s.team t).spadKiB * 1024 →
      let w := wordsOf (memRead (s.team t).spad (a % 2 ^ 19) (if long then 128 else 64))
      (∀ k, copyReason s t w = some k → err 0x0C (k * 2 ^ 32 + a)) ∧
      (copyReason s t w = none → idle → nothing) ∧
      (copyReason s t w = none → ¬ idle → Config.engineRequests ≤ (s.core (s.team t).core).reqs.length → ∃ z, exec (.cpyq f) s = .next z ∧
        (z.group is.g).wait = .again ∧ (z.group is.g).log = [e] ∧ RegsKept x (z.group is.g) ∧ GroupsKept s z is.g ∧ MachineKept s z is.g ∧
        MemKept s z is.g) ∧
      (copyReason s t w = none → ¬ idle → (s.core (s.team t).core).reqs.length < Config.engineRequests → ∃ z, exec (.cpyq f) s = .next z ∧
        (∃ r, (z.core (s.team t).core).reqs = (s.core (s.team t).core).reqs ++ [r] ∧ r.words = w ∧ r.group = is.g ∧ r.team = t ∧ r.pc = is.a ∧
          r.left = List.range (copyDesc w).chunks ∧ r.waiting = [] ∧ r.lost = [] ∧ r.outs = [] ∧ r.start = s.writes.length ∧
          r.view = { know := x.view.know, reached := uni x.view.own x.view.reached }) ∧
        z.rels.length = s.rels.length + 1 ∧ Released s z is.g .device (.ambient (s.team t).ctx) ∧
        RegsKept x (z.group is.g) ∧ Advanced x (z.group is.g) is ∧ GroupsKept s z is.g ∧ z.writes = s.writes ∧ MemKept s z is.g))) ∧
  (∀ s t (w : List Word),
    let f := fun k lo n => wfield (getAt 0 w k) lo n
    let gf := f 1 59 5
    let pf := f 1 54 5
    let mx := f 0 61 1 = 1
    let l8 := gf ∈ [10, 11] ∨ pf ∈ [10, 11]
    let bs := if mx then 32 else if l8 then 128 else 0
    let elems := (f 3 0 16 + 1) * (f 4 0 16 + 1) * (f 5 0 16 + 1) * (f 6 0 16 + 1)
    let bad : Nat → Prop := fun k => match k with
      | 2 => 2 ≤ f 0 62 2
      | 3 => 4 < f 0 58 3 ∨ (f 0 58 3 ≠ 0 ∧ ¬ mx ∧ gf = pf ∧ gf ≤ 16)
      | 4 => f 0 57 1 ≠ 0 ∨ f 1 51 3 ≠ 0 ∨ ((mx ∨ l8) ∧ (f 8 57 7 ≠ 0 ∨ f 9 32 32 ≠ 0 ∨ ∃ x ∈ w.drop 10, x ≠ 0))
      | 5 => ¬ ((mx ∧ gf ∈ [15, 16, 17] ∧ pf ∈ [8, 9]) ∨ (¬ mx ∧ ((gf = pf ∧ gf ≤ 16) ∨ (12 ≤ gf ∧ gf ≤ 16 ∧ 8 ≤ pf ∧ pf ≤ 11) ∨
          (gf ∈ [10, 11] ∧ pf ∈ [8, 9]))))
      | 6 => (bs ≠ 0 ∧ (f 6 16 16 ≠ 1 ∨ f 2 0 32 % bs ≠ 0 ∨ (f 3 0 16 + 1) % bs ≠ 0)) ∨ (gf = 17 ∧ f 6 16 16 ≠ 1)
      | 7 => f 0 0 57 % max 1 (tyWidth gf / 8) ≠ 0 ∨ ((mx ∨ l8) ∧ (f 8 0 57 % 16 ≠ 0 ∨ f 9 0 32 % 16 ≠ 0))
      | _ => f 1 0 32 % 16 ≠ 0 ∨ spadTarget s t (f 1 0 32) (tyWidth pf / 8 * elems) = none ∨
          (pf ∈ [10, 11] ∧ elems / 128 ≠ 0 ∧ spadTarget s t (f 9 0 32) (elems / 128) = none) ∨
          f 1 32 19 % 32 ≠ 0 ∨ (s.team t).spadKiB * 1024 < f 1 32 19 + 32
    (∀ k, 2 ≤ k → k ≤ 8 → bad k → (∀ j, 2 ≤ j → j < k → ¬ bad j) → copyReason s t w = some k) ∧
    ((∀ k, 2 ≤ k → k ≤ 8 → ¬ bad k) → copyReason s t w = none)) ∧
  (∀ f s is, Ready s (.abinit f) is → is.act ≠ 0 → Canonical s →
    let idle := is.act &&& ~~~is.help = 0
    let nothing := ∃ z, exec (.abinit f) s = .next z ∧ Quiet s z is
    let e := entryOf s (.abinit f) f is
    let a := (e.bv e.low).toNat % 2 ^ 32
    let n := (e.cv e.low).toNat
    let t := (s.group is.g).team
    let err := fun cause lanes info => exec (.abinit f) s = .next (trapped (entered s (.abinit f) f is) is e ⟨cause, lanes, wd info⟩)
    (¬ idle → a % 32 ≠ 0 → err 0x06 (maskOfList [e.low]) a) ∧
    (¬ idle → a % 32 = 0 → localSpad s t a 32 = false → err 0x08 is.at_ a) ∧
    (idle → a % 32 ≠ 0 ∨ localSpad s t a 32 = false → nothing) ∧
    (a % 32 = 0 → localSpad s t a 32 = true → n < 1 ∨ 2 ^ 31 ≤ n → err 0x0C is.at_ (9 * 2 ^ 32 + a)) ∧
    (idle → a % 32 = 0 → localSpad s t a 32 = true → 1 ≤ n → n < 2 ^ 31 → nothing) ∧
    (¬ idle → a % 32 = 0 → localSpad s t a 32 = true → 1 ≤ n → n < 2 ^ 31 →
    ∃ z, exec (.abinit f) s = .next z ∧ barWords z t (field a 0 19) = [wd (n * 2 ^ 32 + n), 0, 0, 0] ∧
      (∀ u b, (u = t → ¬ (field a 0 19 ≤ b ∧ b < field a 0 19 + 32)) → memGet (z.team u).spad b = memGet (s.team u).spad b) ∧
      (∀ p, p ∈ (z.team t).phases ↔ p ∈ (s.team t).phases ∧ p.1 ≠ field a 0 19) ∧
      RegsKept (s.group is.g) (z.group is.g) ∧ Advanced (s.group is.g) (z.group is.g) is ∧ GroupsKept s z is.g ∧ z.writes = s.writes ∧
      MemKept s z is.g)) ∧
  (∀ f s is, Ready s (.abwait f) is → is.act ≠ 0 → Memory.wf s.mem = true →
    let idle := is.act &&& ~~~is.help = 0
    let e := entryOf s (.abwait f) f is
    let a := (e.bv e.low).toNat % 2 ^ 32
    let t := (s.group is.g).team
    let w1 := getAt 0 (barWords s t (field a 0 19)) 1
    let ahead := Int.bmod ((e.cv e.low).toNat - wfield w1 32 32) (2 ^ 32)
    let err := fun cause lanes info => exec (.abwait f) s = .next (trapped (entered s (.abwait f) f is) is e ⟨cause, lanes, wd info⟩)
    (¬ idle → a % 32 ≠ 0 → err 0x06 (maskOfList [e.low]) a) ∧
    (¬ idle → a % 32 = 0 → localSpad s t a 32 = false → err 0x08 is.at_ a) ∧
    (idle → a % 32 ≠ 0 ∨ localSpad s t a 32 = false → ∃ z, exec (.abwait f) s = .next z ∧ Quiet s z is) ∧
    (a % 32 = 0 → localSpad s t a 32 = true →
      (0 < ahead → ∃ z, exec (.abwait f) s = .next z ∧ (z.group is.g).wait = .again ∧ (z.group is.g).log = [e] ∧
        RegsKept (s.group is.g) (z.group is.g) ∧ GroupsKept s z is.g ∧ MachineKept s z is.g ∧ MemKept s z is.g) ∧
      (ahead ≤ 0 → wfield w1 31 1 = 1 → ¬ idle →
        err 0x07 is.act (wfield w1 27 4 * 2 ^ 60 + wfield (getAt 0 (barWords s t (field a 0 19)) 2) 0 57)) ∧
      (ahead ≤ 0 → wfield w1 31 1 = 0 ∨ idle → ∃ z, exec (.abwait f) s = .next z ∧
        ((idle → (z.group is.g).flags = (s.group is.g).flags) ∧
          (¬ idle → (z.group is.g).flags = (s.group is.g).flags ||| BitVec.ofNat 5 (wfield w1 0 5))) ∧
        (let done := ((s.team t).phases.filter fun p => p.1 == field a 0 19).map (·.2)
         let ranges := done.flatMap fun n => match s.rels[n]? with
           | some r => (match r.acts with | .bytes _ l => l | _ => [])
           | none => []
         Acquired s z is.g .device (.bytes (s.team t).ctx ranges) done) ∧
        VectorsKept (s.group is.g) (z.group is.g) ∧ ScalarsKept (s.group is.g) (z.group is.g) ∧ PredsKept (s.group is.g) (z.group is.g) ∧
        JoinsKept (s.group is.g) (z.group is.g) ∧ Accessed s z is ∧ z.writes = s.writes ∧ z.rels = s.rels ∧ MemKept s z is.g))) ∧
  (∀ f s is, Ready s (.tcpy f) is → is.act ≠ 0 → Canonical s → is.act &&& ~~~is.help ≠ 0 →
    let e := entryOf s (.tcpy f) f is
    let cw := (e.cv e.low).toNat
    let row := cw % 1024
    let n := cw / 1024 % 2048
    let a := (e.bv e.low).toNat % 2 ^ 32
    let t := (s.group is.g).team
    let err := fun cause info => exec (.tcpy f) s = .next (trapped (entered s (.tcpy f) f is) is e ⟨cause, is.at_, wd info⟩)
    (2 ^ 21 ≤ cw → err 0x09 cw) ∧
    (cw < 2 ^ 21 → n = 0 → ∃ z, exec (.tcpy f) s = .next z ∧ Quiet s z is) ∧
    (cw < 2 ^ 21 → 0 < n → (s.team t).trows < row + n → err 0x09 (max row (s.team t).trows)) ∧
    (cw < 2 ^ 21 → 0 < n → row + n ≤ (s.team t).trows → a % 16 ≠ 0 ∨ localSpad s t a (1024 * n) = false → err 0x08 a) ∧
    (cw < 2 ^ 21 → 0 < n → row + n ≤ (s.team t).trows → a % 16 = 0 → localSpad s t a (1024 * n) = true →
    ∃ z, exec (.tcpy f) s = .next z ∧
      (f.xm = 1 → memRead (z.team t).spad (field a 0 19) (1024 * n) = memRead (s.team t).tile (1024 * row) (1024 * n) ∧
        (z.team t).tile = (s.team t).tile ∧
        ∀ b, ¬ (field a 0 19 ≤ b ∧ b < field a 0 19 + 1024 * n) → memGet (z.team t).spad b = memGet (s.team t).spad b) ∧
      (f.xm ≠ 1 → memRead (z.team t).tile (1024 * row) (1024 * n) = memRead (s.team t).spad (field a 0 19) (1024 * n) ∧
        (z.team t).spad = (s.team t).spad ∧
        ∀ b, ¬ (1024 * row ≤ b ∧ b < 1024 * (row + n)) → memGet (z.team t).tile b = memGet (s.team t).tile b) ∧
      (z.team t).fbits = (s.team t).fbits ∧ (∀ u, u ≠ t → TeamSame (s.team u) (z.team u)) ∧ RegsKept (s.group is.g) (z.group is.g) ∧
      Advanced (s.group is.g) (z.group is.g) is ∧ GroupsKept s z is.g ∧ z.writes = s.writes ∧ MemKept s z is.g))

/-- R313, R324, R325, R326, Table 14.4: a gate request that finds no queue and a word that admits it is granted: the word counts it and the group
acquires the gate's regions from every earlier release of them. Else it joins the queue and waits. GREL releases the regions, takes a hold
off the word, and grants the heads of the queue that the word then admits, shared ones together, each at the scope its GACQ named; SCNT keeps its
32 bits. A gate word that is misaligned is MISALIGN; one in host memory, without a live region, malformed or not held is GATEERR 1, 2, 3 or 4. That
the waiting GACQs are performed in the same step as the GREL (assumption log 14) and which lane MISALIGN names (assumption log 11) are the model's
choice. -/
def Obligations.GateRows : Prop :=
  let rels := fun (s : State) (c va : Nat) => (List.range s.rels.length).filter fun n => (s.rels[n]?).any fun r => r.acts == .gate c va
  (∀ (i : Instr) (f : Full) (s : State) (is : Iss), (i = .gacq f ∨ i = .grel f) → Ready s i is → is.act ≠ 0 → Memory.wf s.mem = true →
    let e := entryOf s i f is
    let va := (e.bv e.low).toNat
    let c := (s.team (s.group is.g).team).ctx
    (va % 8 ≠ 0 → exec i s = .next (trapped (entered s i f is) is e ⟨0x06, maskOfList [e.low], wd va⟩)) ∧
    (∀ u l, va % 8 = 0 → ownAccess (entered s i f is) is.g e .store va 8 = (u, .ok l) →
      let pa := headPa l
      let n := memNat u.mem pa 8
      let err := fun (reason : Nat) => exec i s = .next (trapped u is e ⟨0x13, is.at_, wd (reason * 2 ^ 60 + va % 2 ^ 57)⟩)
      (isHost pa = true → err 1) ∧
      (isHost pa = false → (∀ r ∈ (s.ctx c).regions, r.gate ≠ va) → err 2) ∧
      (isHost pa = false → (∃ r ∈ (s.ctx c).regions, r.gate = va) →
        (n / 2 ^ 32 % 2 ^ 31 ≠ 0 ∨ (n / 2 ^ 63 = 1 ∧ n % 2 ^ 32 ≠ 0) → err 3) ∧ (i = .grel f → n = 0 → err 4)))) ∧
  (∀ (f : Full) (s : State) (is : Iss) (u : State) (l : List Piece), Ready s (.gacq f) is → is.act ≠ 0 → Memory.wf s.mem = true →
    let e := entryOf s (.gacq f) f is
    let x := s.group is.g
    let va := (e.bv e.low).toNat
    let c := (s.team x.team).ctx
    let pa := headPa l
    let n := memNat u.mem pa 8
    let shared := f.c.immNat = 1
    let new := if shared then (n + 1) % 2 ^ 32 else 2 ^ 63
    let free := (∀ q ∈ s.gateQ, q.1 ≠ pa) ∧ n / 2 ^ 63 = 0 ∧ (shared ∨ n = 0)
    va % 8 = 0 → ownAccess (entered s (.gacq f) f is) is.g e .store va 8 = (u, .ok l) → isHost pa = false →
    (∃ r ∈ (s.ctx c).regions, r.gate = va) → n / 2 ^ 32 % 2 ^ 31 = 0 → (n / 2 ^ 63 = 1 → n % 2 ^ 32 = 0) →
    (free → ∃ t : State, exec (.gacq f) s = .next t ∧
      (∃ r0 r1 : WriteRec, t.writes = s.writes ++ [r0, r1] ∧ r0.word = pa ∧ r1.word = pa + 4 ∧ r0.cls = 3 ∧ r1.cls = 3 ∧
        r0.val = BitVec.ofNat 32 new ∧ r1.val = BitVec.ofNat 32 (new / 2 ^ 32) ∧ r0.sync.isSome = true ∧ r1.sync.isSome = true) ∧
      (HomeNextRange s x.view pa 8 → NoSide s is.g pa 8 → memNat t.mem pa 8 = new) ∧
      Acquired s t is.g (scopeOf f.xm.toNat) (.gate c va) (rels s c va) ∧
      RegsKept x (t.group is.g) ∧ Accessed s t is ∧ t.rels = s.rels ∧ MemKeptBut s t is.g [(pa, 8)]) ∧
    (¬ free → (∀ q ∈ s.gateQ, q.1 = pa → q.2.1 ≠ .grp is.g) → ∃ t : State, exec (.gacq f) s = .next t ∧
      t.gateQ = s.gateQ ++ [(pa, .grp is.g, f.c.immNat == 1, scopeOf f.xm.toNat)] ∧
      (t.group is.g).wait = .gate pa ∧ (t.group is.g).log = [e] ∧ RegsKept x (t.group is.g) ∧
      GroupsKept s t is.g ∧ t.writes = s.writes ∧ t.rels = s.rels ∧ MemKept s t is.g)) ∧
  (∀ (f : Full) (s : State) (is : Iss) (u : State) (l : List Piece) (hs : List (Nat × Scope)) (rest : List (Nat × Party × Bool × Scope)), Ready s (.grel f) is → is.act ≠ 0 → Memory.wf s.mem = true →
    let e := entryOf s (.grel f) f is
    let x := s.group is.g
    let va := (e.bv e.low).toNat
    let c := (s.team x.team).ctx
    let pa := headPa l
    let n := memNat u.mem pa 8
    let left := if n / 2 ^ 63 = 1 then 0 else n - 1
    va % 8 = 0 → ownAccess (entered s (.grel f) f is) is.g e .store va 8 = (u, .ok l) → isHost pa = false →
    (∃ r ∈ (s.ctx c).regions, r.gate = va) → n / 2 ^ 32 % 2 ^ 31 = 0 → (n / 2 ^ 63 = 1 → n % 2 ^ 32 = 0) → n ≠ 0 →
    ∀ shared : Bool, s.gateQ.filter (fun q => q.1 == pa) = hs.map (fun h => (pa, .grp h.1, shared, h.2)) ++ rest →
    ((s.gateQ.filter fun q => q.1 == pa).map (·.2.1)).Nodup →
    ((shared = true ∧ (∀ q, rest.head? = some q → q.2.2.1 = false) ∧ (rest = [] ∨ 0 < (left + hs.length) % 2 ^ 32)) ∨
      (shared = false ∧ left = 0 ∧ hs.length = 1)) →
    (∀ h ∈ hs, h.1 ≠ is.g ∧ h.1 < s.groups.length ∧ ∃ (eh : Entry) (fh : Full), (s.group h.1).log = [eh] ∧ eh.instr = .gacq fh) →
    (hs ≠ [] ∨ rest ≠ [] → ∀ h ∈ is.g :: hs.map (·.1), HomeNextRange s (s.group h).view pa 8 ∧ NoSide s h pa 8) →
    ∃ t : State, exec (.grel f) s = .next t ∧
      t.gateQ = s.gateQ.filter (fun q => !(q.1 == pa && hs.any fun h => q.2.1 == .grp h.1)) ∧
      t.rels.length = s.rels.length + 1 ∧ Released s t is.g (scopeOf f.xm.toNat) (.gate c va) ∧
      (∃ new : List WriteRec, t.writes = s.writes ++ new ∧ new.length = 2 + 2 * hs.length ∧
        ∀ w ∈ new, (w.word = pa ∨ w.word = pa + 4) ∧ w.cls = 3 ∧ w.sync.isSome = true) ∧
      ((∀ h ∈ is.g :: hs.map (·.1), HomeNextRange s (s.group h).view pa 8 ∧ NoSide s h pa 8) →
        memNat t.mem pa 8 = if shared then (left + hs.length) % 2 ^ 32 else 2 ^ 63) ∧
      (∀ h sc, (h, sc) ∈ hs → (t.group h).wait = .none ∧ (t.group h).log = [] ∧ RegsKept (s.group h) (t.group h) ∧
        ∀ (eh : Entry) (fh : Full), (s.group h).log = [eh] → eh.instr = .gacq fh →
          let ch := (s.team (s.group h).team).ctx
          let vh := (eh.bv eh.low).toNat
          Acquired { s with rels := t.rels } t h sc (.gate ch vh) (rels t ch vh)) ∧
      (∀ h, h ≠ is.g → h ∉ hs.map (·.1) → t.group h = s.group h) ∧ RegsKept x (t.group is.g) ∧ Advanced x (t.group is.g) is ∧
      MemKeptBut s t is.g [(pa, 8)]) ∧
  (∀ (i : Instr) (f : Full) (s : State) (is : Iss) (pa : Nat), (i = .gacq f ∨ i = .grel f) → Ready s i is → is.act ≠ 0 → Memory.wf s.mem = true →
    let va := ((entryOf s i f is).bv (entryOf s i f is).low).toNat
    let n := memNat s.mem pa 8
    va % 8 = 0 → InWindow s (s.group is.g).team va 8 pa → NoSide s is.g pa 8 → pa < 0x800000000000 →
    (∃ r ∈ (s.ctx (s.team (s.group is.g).team).ctx).regions, r.gate = va) → (∀ q ∈ s.gateQ, q.1 ≠ pa) →
    (i = .gacq f → n = 0) → (i = .grel f → (0 < n ∧ n < 2 ^ 32) ∨ n = 2 ^ 63) →
    ∃ t : State, exec i s = .next t ∧ (t.group is.g).wait = (s.group is.g).wait ∧ RegsKept (s.group is.g) (t.group is.g) ∧
      Advanced (s.group is.g) (t.group is.g) is)

/-- R312 to R314, R327, R328, R329: a fence releases the ambient region at its scope, then acquires it there. An arrival at a barrier is a
release; the last one completes the phase and goes on, having acquired what every arrival of the phase released; an earlier one waits,
and at its first turn after the completion departs with the same acquire. -/
def Obligations.FenceAndBarrierRows : Prop :=
  (∀ f s is, Ready s (.fence f) is → is.act ≠ 0 → Memory.wf s.mem = true → ∃ t, exec (.fence f) s = .next t ∧
    (let sc : Scope := match f.xm.toNat with
        | 0 => .group | 1 => .team | 2 => .crew | 3 => .device | 4 => .node | 5 => .system | 6 => .lane | _ => .quad
     t.rels.length = s.rels.length + 1 ∧ Released s t is.g sc (.ambient (s.team (s.group is.g).team).ctx) ∧ Acquired s t is.g sc (.ambient (s.team (s.group is.g).team).ctx) (s.group is.g).view.seen) ∧
    RegsKept (s.group is.g) (t.group is.g) ∧ Accessed s t is ∧ t.writes = s.writes ∧ MemKept s t is.g) ∧
  (∀ i f crew s is, (crew = false ∧ i = .bar f ∨ crew = true ∧ i = .cbar f) → Ready s i is → is.act ≠ 0 → Memory.wf s.mem = true →
    let t := (s.group is.g).team
    let home := barHome s t crew
    let b := getBar s home crew
    let others := (barMembers s t crew).filter (· ≠ is.g)
    let sc : Scope := if crew then .crew else .team
    (∀ p ∈ b.arr, p.1 ≠ is.g) →
    ((∀ m ∈ others, (s.group m).ended = true ∨ (m, b.ph) ∈ b.arr) → ∃ z, exec i s = .next z ∧
      (getBar z home crew).ph = b.ph + 1 ∧ (getBar z home crew).arr = b.arr ∧ (z.group is.g).wait = .none ∧ (z.group is.g).log = [] ∧
      z.rels.length = s.rels.length + 1 ∧ Released s z is.g sc (.ambient (s.team t).ctx) ∧
      Acquired { s with rels := z.rels } z is.g sc (.ambient (s.team t).ctx) ((b.rels.filter fun p => p.1 == b.ph).map (·.2) ++ [s.rels.length]) ∧
      RegsKept (s.group is.g) (z.group is.g) ∧ Advanced (s.group is.g) (z.group is.g) is ∧ GroupsKept s z is.g ∧ z.writes = s.writes ∧
      MemKept s z is.g) ∧
    ((∃ m ∈ others, (s.group m).ended = false ∧ (m, b.ph) ∉ b.arr) → ∃ z, exec i s = .next z ∧
      (getBar z home crew).ph = b.ph ∧ (getBar z home crew).arr = b.arr ++ [(is.g, b.ph)] ∧
      (getBar z home crew).rels = b.rels ++ [(b.ph, s.rels.length)] ∧
      (z.group is.g).wait = (if crew then .cbar else .bar) ∧ (z.group is.g).log = [entryOf s i f is] ∧
      z.rels.length = s.rels.length + 1 ∧ Released s z is.g sc (.ambient (s.team t).ctx) ∧
      RegsKept (s.group is.g) (z.group is.g) ∧ GroupsKept s z is.g ∧ z.writes = s.writes ∧ MemKept s z is.g)) ∧
  (∀ s h e f crew l, s.agenda = .group h :: l → InTurn s h → (s.group h).wdog = false → (s.group h).log = [e] → Memory.wf s.mem = true →
    (crew = false ∧ e.instr = .bar f ∧ (s.group h).wait = .bar ∨ crew = true ∧ e.instr = .cbar f ∧ (s.group h).wait = .cbar) →
    let home := barHome s (s.group h).team crew
    let b := getBar s home crew
    let sc : Scope := if crew then .crew else .team
    ∀ p, b.arr.find? (fun q => q.1 == h) = some p → p.2 < b.ph → ∃ z, step s = .next z ∧
      (z.group h).wait = .none ∧ (z.group h).log = [] ∧ (∀ q ∈ (getBar z home crew).arr, q.1 ≠ h) ∧
      Acquired s z h sc (.ambient (s.team (s.group h).team).ctx) ((b.rels.filter fun q => q.1 == p.2).map (·.2)) ∧
      RegsKept (s.group h) (z.group h) ∧ GroupsKept s z h ∧ z.rels = s.rels ∧ z.writes = s.writes ∧ MemKept s z h)

/-- R330, R331, R332, Tables 4.5, 4.7, 14.1: PEGPUB releases its byte range, whose length may be 0, and publishes for the tile the generation its
launch's card gives it; TSPAWN and JPOST release the ambient region, wait while their queue is full, and else copy the record or card
unchanged, but for word 18 of a JPOST.DEP, into the slot of HEAD or WIDX, which then moves on by one. The checks that fail are MISALIGN,
PEGERR 1 to 3, STALEPEG, TASKERR 1, and JPOSTERR 1 and 2. No register of the group changes. Two points are the model's choice: which lane MISALIGN
names (assumption log 11), and that the words of the record, of the card and of HEAD or WIDX are written as operations of the home L2, of class 3
(assumption log 17). -/
def Obligations.PublishAndPushRows : Prop :=
  (∀ f s is, Ready s (.pegpub f) is → is.act ≠ 0 → Memory.wf s.mem = true →
    let i := Instr.pegpub f
    let e := entryOf s i f is
    let base := (e.bv e.low).toNat
    let len := (cell e.b 1 e.low).toNat
    let c := match f.c with | .reg _ => (e.cv e.low).toNat | c => c.immNat
    let team := s.team (s.group is.g).team
    let err := fun reason => exec i s = .next (trapped (entered s i f is) is e ⟨0x12, is.at_, wd (reason * 2 ^ 60 + c % 2 ^ 24)⟩)
    let sound := base + len ≤ 2 ^ 57 ∧ base < 2 ^ 57 ∧ len < 2 ^ 48 ∧ c < 2 ^ 24
    (team.launch = none → err 1) ∧
    (∀ l, team.launch = some l → (¬ sound → err 2) ∧ (sound → outGen (s.launch l).card c = none → err 3)) ∧
    (∀ l gen, team.launch = some l → sound → outGen (s.launch l).card c = some gen →
      (∀ p, pegAt s team.ctx c = some p → p.set = true → gdiff gen p.gen < 0 →
        exec i s = .next (trapped (groupRelease (entered s i f is) is.g .device (.bytes team.ctx [(base, len)]) is.act base).1 is e
          ⟨0x11, is.at_, wd (p.gen * 2 ^ 24 + c)⟩)) ∧
      ((∀ p, pegAt s team.ctx c = some p → p.set = false ∨ 0 ≤ gdiff gen p.gen) → ∃ t, exec i s = .next t ∧
        (pegAt s team.ctx c = none → pegRoom s = 0 → t.pegs = s.pegs) ∧
        (pegAt s team.ctx c ≠ none ∨ pegRoom s ≠ 0 → ∃ p, pegAt t team.ctx c = some p ∧ p.gen = gen ∧ p.set = true ∧ s.rels.length ∈ p.rels ∧
          ∀ q, pegAt s team.ctx c = some q → p.count = q.count ∧
            p.rels = if q.set = true ∧ q.gen = gen then q.rels ++ [s.rels.length] else [s.rels.length]) ∧
        (pegAt s team.ctx c ≠ none ∨ s.pegs.length < Config.pegEntries →
          ∀ c' k, (c', k) ≠ (team.ctx, c) → pegAt t c' k = pegAt s c' k) ∧
        t.rels.length = s.rels.length + 1 ∧ Released s t is.g .device (.bytes team.ctx [(base, len)]) ∧
        (len = 0 → ∀ r, t.rels[s.rels.length]? = some r → r.cov = []) ∧
        RegsKept (s.group is.g) (t.group is.g) ∧ Advanced (s.group is.g) (t.group is.g) is ∧ GroupsKept s t is.g ∧ t.writes = s.writes ∧
        MemKept s t is.g))) ∧
  (∀ i f s is, (i = .tspawn f ∨ i = .jpost f) → Ready s i is → is.act ≠ 0 →
    let e := entryOf s i f is
    let va := (e.bv e.low).toNat
    let cause := if i = .tspawn f then 0x14 else 0x15
    (va % 64 ≠ 0 → exec i s = .next (trapped (entered s i f is) is e ⟨0x06, maskOfList [e.low], wd va⟩)) ∧
    (va % 64 = 0 → wfield (s.ctx (s.team (s.group is.g).team).ctx).worktab 0 1 = 0 →
      exec i s = .next (trapped (entered s i f is) is e ⟨cause, is.at_, wd (2 ^ 60 + va % 2 ^ 57)⟩))) ∧
  (∀ f s is ra da, Ready s (.tspawn f) is → is.act ≠ 0 → Memory.wf s.mem = true → s.poison = [] →
    let i := Instr.tspawn f
    let e := entryOf s i f is
    let x := s.group is.g
    let c := (s.team x.team).ctx
    let va := (e.bv e.low).toNat
    let desc := wfield (s.ctx c).worktab 12 45 * 4096 + 0x4000 + 64 * f.c.immNat
    let d : Nat → Nat := fun k => memNat s.mem (da + 8 * k) 8
    let log2 := d 1 % 2 ^ 5
    let head := d 2
    let full := head - d 3 = 2 ^ log2 ∨ d 5 % 2 ^ 57 ≠ 0
    va % 64 = 0 → wfield (s.ctx c).worktab 0 1 = 1 → InWindow s x.team va 128 ra → InWindow s x.team desc 64 da →
    NoSide s is.g ra 128 → NoSide s is.g da 64 →
    (d 1 / 2 ^ 63 = 0 → exec i s = .next (trapped (entered s i f is) is e ⟨0x14, is.at_, wd (2 ^ 60 + va % 2 ^ 57)⟩)) ∧
    (d 1 / 2 ^ 63 = 1 → full → ∃ t, exec i s = .next t ∧ (t.group is.g).wait = .again ∧
      (t.group is.g).log = [{ e with stage := 1, prog := s.rels.length }] ∧ t.rels.length = s.rels.length + 1 ∧
      Released s t is.g .device (.ambient c) ∧ RegsKept x (t.group is.g) ∧ GroupsKept s t is.g ∧ t.writes = s.writes ∧ MemKept s t is.g) ∧
    (d 1 / 2 ^ 63 = 1 → ¬ full → ∀ sa, InWindow s x.team (d 0 % 2 ^ 57 + 128 * (head % 2 ^ log2)) 128 sa → NoSide s is.g sa 128 →
      Apart sa 128 (da + 16) 8 → HomeNextRange s x.view sa 128 → HomeNextRange s x.view (da + 16) 8 → ∃ t, exec i s = .next t ∧
        (∀ k, k < 128 → memGet t.mem (sa + k) = plainByte s (some c) x.view (ra + k)) ∧
        memNat t.mem (da + 16) 8 = (head + 1) % 2 ^ 64 ∧
        (t.ctx c).taskRels = (s.ctx c).taskRels ++ [(f.c.immNat, head, s.rels.length)] ∧
        t.rels.length = s.rels.length + 1 ∧ Released s t is.g .device (.ambient c) ∧
        RegsKept x (t.group is.g) ∧ Advanced x (t.group is.g) is ∧ GroupsKept s t is.g ∧
        MemKeptBut s t is.g [(sa, 128), (da + 16, 8)])) ∧
  (∀ f s is ra da, Ready s (.jpost f) is → is.act ≠ 0 → Memory.wf s.mem = true → s.poison = [] →
    let i := Instr.jpost f
    let e := entryOf s i f is
    let x := s.group is.g
    let team := s.team x.team
    let c := team.ctx
    let q := f.c.immNat
    let va := (e.bv e.low).toNat
    let desc := wfield (s.ctx c).worktab 12 45 * 4096 + 64 * q
    let d : Nat → Nat := fun k => memNat s.mem (da + 8 * k) 8
    let log2 := d 1 % 2 ^ 5
    let widx := d 2 % 2 ^ 48
    let ridx := d 3 % 2 ^ 48
    let open_ := d 1 / 2 ^ 62 = 3
    let err := fun reason => exec i s = .next (trapped (entered s i f is) is e ⟨0x15, is.at_, wd (reason * 2 ^ 60 + va % 2 ^ 57)⟩)
    va % 64 = 0 → wfield (s.ctx c).worktab 0 1 = 1 → InWindow s x.team va 256 ra → InWindow s x.team desc 64 da →
    NoSide s is.g ra 256 → NoSide s is.g da 64 →
    (¬ open_ → err 1) ∧ (open_ → f.xm = 1 → team.launch = none → err 2) ∧
    (open_ → (f.xm = 1 → team.launch ≠ none) → widx - ridx = 2 ^ log2 → ∃ t, exec i s = .next t ∧ (t.group is.g).wait = .again ∧
      (t.group is.g).log = [{ e with stage := 1, prog := s.rels.length }] ∧ t.rels.length = s.rels.length + 1 ∧
      Released s t is.g .device (.ambient c) ∧ RegsKept x (t.group is.g) ∧ GroupsKept s t is.g ∧ t.writes = s.writes ∧ MemKept s t is.g) ∧
    (open_ → (f.xm = 1 → team.launch ≠ none) → widx - ridx ≠ 2 ^ log2 → ∀ sa,
      InWindow s x.team (d 0 % 2 ^ 57 + 256 * (widx % 2 ^ log2)) 256 sa → NoSide s is.g sa 256 → Apart sa 256 da 64 →
      HomeNextRange s x.view sa 256 → HomeNextRange s x.view (da + 16) 8 → InCtxWindow s c desc 64 da → q ∉ (s.ctx c).stopped →
      4 ≤ log2 → log2 ≤ 20 → d 0 % 2 ^ 12 = 0 → ridx ≤ widx → widx + 1 < 2 ^ 48 → widx - ridx < 2 ^ log2 →
      ∃ t, exec i s = .next t ∧
        (∀ k, k < 256 → memGet t.mem (sa + k) =
          match (if f.xm = 1 ∧ 144 ≤ k ∧ k < 152 then team.launch else none) with
          | some l => BitVec.ofNat 8 ((2 ^ 63 + (s.launch l).queue * 2 ^ 48 + (s.launch l).pos) / 2 ^ (8 * (k - 144)))
          | none => plainByte s (some c) x.view (ra + k)) ∧
        memNat t.mem (da + 16) 8 = widx + 1 ∧
        (q, widx, s.rels.length) ∈ (t.ctx c).postRels ∧ (q, widx + 1) ∈ (t.ctx c).widx ∧
        (∃ w, (q, w) ∈ (t.ctx c).queues ∧ (subQueue w).widx = widx + 1 ∧ (subQueue w).ridx = ridx) ∧
        t.rels.length = s.rels.length + 1 ∧ Released s t is.g .device (.ambient c) ∧
        RegsKept x (t.group is.g) ∧ Advanced x (t.group is.g) is ∧ GroupsKept s t is.g ∧
        MemKeptBut s t is.g [(sa, 256), (da + 16, 8)]))

/-- R333 to R337, Tables 14.5 to 14.7: COLL of a descriptor and communicator that pass the checks of Table 14.7 in order releases the send
buffers, sets STATUS to 0x01 and hands the collective to Whist, which acquires that release, under the number of this COLL on its
communicator; it waits while 16 run. A check that fails is COLLERR with its reason; a COLL that DET forbids is NONDET. COLLW waits while STATUS
is 0x01, takes COLLERR of a failed or unissued collective, and else raises the flags and acquires what the collective's completion released of the
buffers the descriptor names, PROG and WBUF among them. That
scale arrays are aligned to 16 bytes, and that SNDSC and RCVSC are ignored unless the format is l8, is the model's choice (assumption log 16). -/
def Obligations.CollectiveRows : Prop :=
  (∀ (f : Full) (s : State) (is : Iss) da ca, Ready s (.coll f) is → is.act ≠ 0 → Memory.wf s.mem = true → s.poison = [] →
    let i := Instr.coll f
    let e := entryOf s i f is
    let x := s.group is.g
    let team := s.team x.team
    let c := team.ctx
    let a := (e.bv e.low).toNat
    let byte := plainByte s (some c) x.view
    let num := fun pa n => ofBytes ((List.range n).map fun k => byte (pa + k))
    let d : Nat → Nat := fun k => num (da + 8 * k) 8
    let comm := d 4 % 2 ^ 57
    let h : Nat → Nat := fun k => num (ca + 8 * k) 8
    let n := h 0 % 2 ^ 18 + 1
    let my := h 1 % 2 ^ 18
    let ent := fun r => num (ca + 64 + 4 * r) 4
    let kind := d 0 / 2 ^ 62
    let ord := d 0 / 2 ^ 61 % 2
    let rop := d 0 / 2 ^ 56 % 4
    let fmt := d 0 / 2 ^ 51 % 2 ^ 5
    let root := d 0 % 2 ^ 18
    let count := d 1 % 2 ^ 40
    let es := if fmt = 8 then 4 else if fmt = 9 then 2 else 1
    let sent := if kind = 1 then n * count else count
    let got := if kind = 2 then n * count else count
    let whole := if kind = 1 ∨ kind = 2 then n * count else count
    let bufs := [(d 2 % 2 ^ 57, sent * es, 16), (d 3 % 2 ^ 57, got * es, 16),
      (d 5 % 2 ^ 57, 8 * ((whole * (if fmt = 9 then 2 else 4) + 262143) / 262144), 8), (d 6 % 2 ^ 57, d 7 % 2 ^ 48, 4096)] ++
      if fmt = 10 then [(d 8 % 2 ^ 57, sent / 128, 16), (d 9 % 2 ^ 57, got / 128, 16)] else []
    let bad : Nat → Prop := fun k => match k with
      | 1 => a % 64 ≠ 0 ∨ d 0 / 2 ^ 18 % 2 ^ 33 ≠ 0 ∨ 2 ^ 40 ≤ d 1 ∨ 2 ^ 48 ≤ d 7 ∨ (∃ k ∈ [2, 3, 4, 5, 6, 8, 9], 2 ^ 57 ≤ d k) ∨
          ∃ k, 11 ≤ k ∧ k < 16 ∧ d k ≠ 0
      | 2 => rop = 3 ∨ fmt < 8 ∨ 10 < fmt ∨ 4 < d 0 / 2 ^ 58 % 8 ∨ n ≤ root ∨ (kind ≠ 3 ∧ root ≠ 0) ∨ count = 0 ∨ (fmt = 10 ∧ count % 128 ≠ 0)
      | 3 => comm % 64 ≠ 0 ∨ h 0 / 2 ^ 18 % 2 ^ 14 ≠ 0 ∨ 2 ^ 18 ≤ h 1 ∨ (∃ k, 2 ≤ k ∧ k < 8 ∧ h k ≠ 0) ∨ n ≤ my ∨
          (∃ r, r < n ∧ 2 ^ 18 ≤ ent r) ∨ (∃ r q, r < q ∧ q < n ∧ ent r = ent q) ∨ wfield s.dev.whcfg 32 18 = 0x3FFFF ∨
          ent my ≠ wfield s.dev.whcfg 32 18
      | _ => ∃ p ∈ bufs, p.1 % p.2.2 ≠ 0 ∨ 2 ^ 57 < p.1 + p.2.1
    let barred := team.det = true ∧ ord = 0 ∧ rop = 0 ∧ kind ≤ 1
    let running := (s.colls.filter fun c => !c.ended).length
    InWindow s x.team a 128 da → InWindow s x.team comm (64 + 4 * n) ca → NoSide s is.g da 128 → NoSide s is.g ca (64 + 4 * n) →
    (∀ k, 1 ≤ k → k ≤ 4 → bad k → (∀ j, 1 ≤ j → j < k → ¬ bad j) →
      exec i s = .next (trapped (entered s i f is) is e ⟨0x16, is.at_, wd (k * 2 ^ 60 + a % 2 ^ 57)⟩)) ∧
    ((∀ k, 1 ≤ k → k ≤ 4 → ¬ bad k) →
      (barred → exec i s = .next (post (enterTrap (unissue (entered s i f is) is.g e) is.g ⟨0x0E, is.at_, 0⟩ (is.len / 4) false is.a) is.g)) ∧
      (¬ barred → 16 ≤ running → ∃ t : State, exec i s = .next t ∧ (t.group is.g).wait = .again ∧ (t.group is.g).log = [e] ∧
        RegsKept x (t.group is.g) ∧ GroupsKept s t is.g ∧ t.colls = s.colls ∧ t.writes = s.writes ∧ MemKept s t is.g) ∧
      (¬ barred → running < 16 → ∃ t : State, exec i s = .next t ∧
        (∃ o, t.colls = s.colls ++ [o] ∧ o.ctx = c ∧ o.group = is.g ∧ o.pc = is.a ∧ o.desc = a ∧ o.words = (List.range 16).map (fun k => wd (d k)) ∧
          o.commId = h 0 / 2 ^ 32 ∧ o.myrank = my ∧ o.ents = (List.range n).map ent ∧ o.ended = false ∧ o.begun = false ∧ o.err = 0 ∧
          (∀ m, s.dev.collNo.find? (fun p => p.1 == h 0 / 2 ^ 32) = some m → o.seqNo = m.2) ∧
          (s.dev.collNo.find? (fun p => p.1 == h 0 / 2 ^ 32) = none → o.seqNo = 0) ∧ (h 0 / 2 ^ 32, o.seqNo + 1) ∈ t.dev.collNo ∧
          ∃ r : Release, t.rels[s.rels.length]? = some r ∧ o.view.reached = r.cov) ∧
        (writesTo s (da + 80) = [] → memGet t.mem (da + 80) = 1 ∧ ∀ k, k < 3 → memGet t.mem (da + 81 + k) = memGet s.mem (da + 81 + k)) ∧
        t.rels.length = s.rels.length + 1 ∧ Released s t is.g .device (.bytes c ((d 2 % 2 ^ 57, sent * es) ::
          if fmt = 10 then [(d 8 % 2 ^ 57, sent / 128)] else [])) ∧
        RegsKept x (t.group is.g) ∧ Advanced x (t.group is.g) is ∧ GroupsKept s t is.g ∧ MemKeptBut s t is.g [(da + 80, 4)]))) ∧
  (∀ (f : Full) (s : State) (is : Iss) u l, Ready s (.collw f) is → is.act ≠ 0 → Memory.wf s.mem = true →
    let i := Instr.collw f
    let e := entryOf s i f is
    let a := (e.bv e.low).toNat
    let c := (s.team (s.group is.g).team).ctx
    ownAccess (entered s i f is) is.g e .load a 128 = (u, .ok l) → poisonPieces u l = none →
    let w := getAt 0 (wordsOf (readNow u l)) 10
    let err := fun reason => exec i s = .next (trapped u is e ⟨0x16, is.at_, wd (reason * 2 ^ 60 + a % 2 ^ 57)⟩)
    (w.toNat % 256 = 2 → ∃ t : State, exec i s = .next t ∧
      (t.group is.g).flags = (s.group is.g).flags ||| BitVec.ofNat 5 (w.toNat / 256 % 32) ∧
      (∀ o r, (s.colls.filter fun o => o.ctx == c && o.desc == a).getLast? = some o → o.rel = some r →
        Acquired s t is.g .fabric (.bytes c ((collDesc (wordsOf (readNow u l))).named o.ents.length o.nch a)) [r]) ∧
      VectorsKept (s.group is.g) (t.group is.g) ∧ ScalarsKept (s.group is.g) (t.group is.g) ∧ PredsKept (s.group is.g) (t.group is.g) ∧
      JoinsKept (s.group is.g) (t.group is.g) ∧ Accessed s t is ∧ t.writes = s.writes ∧ t.rels = s.rels ∧ MemKept s t is.g) ∧
    (w.toNat % 256 = 1 → ∃ t : State, exec i s = .next t ∧ (t.group is.g).wait = .again ∧ (t.group is.g).log = [e] ∧
      RegsKept (s.group is.g) (t.group is.g) ∧ GroupsKept s t is.g ∧ RestKept s t ∧ t.writes = s.writes ∧ MemKept s t is.g) ∧
    (w.toNat % 256 = 3 → err (w.toNat / 2 ^ 44 % 16)) ∧
    (w.toNat % 256 = 0 ∨ 3 < w.toNat % 256 → err 9)) ∧
  (∀ (f : Full) (s : State) (is : Iss) (da : Nat), Ready s (.collw f) is → is.act ≠ 0 → Memory.wf s.mem = true → s.poison = [] →
    let a := ((entryOf s (.collw f) f is).bv (entryOf s (.collw f) f is).low).toNat
    InWindow s (s.group is.g).team a 128 da → NoSide s is.g da 128 → memGet s.mem (da + 80) = 2 →
    ∃ t : State, exec (.collw f) s = .next t ∧ Accessed s t is) ∧
  (∀ (d : CollDesc) (n marks desc va : Nat), (∃ p ∈ d.named n marks desc, p.1 ≤ va ∧ va < p.1 + p.2) ↔
    (d.send ≤ va ∧ va < d.send + d.sendLen n * d.es) ∨ (d.recv ≤ va ∧ va < d.recv + d.recvLen n * d.es) ∨
    (d.prog ≤ va ∧ va < d.prog + 8 * marks) ∨ (d.wbuf ≤ va ∧ va < d.wbuf + d.wlen) ∨ (desc ≤ va ∧ va < desc + 128) ∨
    (d.fmt = 10 ∧ ((d.sndsc ≤ va ∧ va < d.sndsc + d.sendLen n / 128) ∨ (d.rcvsc ≤ va ∧ va < d.rcvsc + d.recvLen n / 128))))

-- Matrix rows -------------------------------------------------------------------------------------------------------------------

/-- R120, R289 to R292, R296, R297, R299, R301, R304: MTAKE and every matrix instruction take a free baton, with the array state that passes to
the new holder, or wait for a held one; MPASS passes it to the head of its queue, and takes a restored holder out of the queue. With the baton
MSWAP exchanges the planes and their marks, MZERO writes zeros to its tile rows, in one turn or, stopped at a row whose number its entry keeps, in
several, and a save leaves it at its row (R289); MHRD reads a set's counts and MPRG clears the chosen sets.
A control word that breaks its rule is MATERR 1, a row beyond TROWS is TSBOUND, and a foreign set under DET is NONDET. The model's choices: the
baton is taken before the form's own causes are looked at (log 13), MPASS takes a restored holder out of the queue (log 46), MZERO clears the poison
marks of its rows (log 51), and the lanes TSBOUND names (log 11). -/
def Obligations.BatonPlaneAndHistogramRows : Prop :=
  let core := fun (s : State) (is : Iss) => s.core (s.group is.g).core
  let passed : State → Nat → Nat → ArrayState := fun s k g =>
    let t := (s.group g).team
    let rule : ArrayState := match (s.core k).last with
      | none => {}
      | some (t', g') => if t' ≠ t then {} else if g' = g then (s.core k).array
        else { (s.core k).array with af := true, sf := true, hf := 0xFF }
    match (s.team t).array with
    | some (g', a) => if g' = g then a else rule
    | none => rule
  let granted : State → Nat → State := fun s g =>
    let k := (s.group g).core
    let t := (s.group g).team
    let u := s.setCore k { s.core k with holder := some g, last := some (t, g), array := passed s k g }
    match (s.team t).array with
    | some (g', _) => if g' = g then u.setTeam t { s.team t with array := none } else u
    | none => u
  let fed : State → Iss → Instr → Full → Nat → Nat → Prop := fun s is i f cause info =>
    exec i s = .next (trapped (entered s i f is) is (entryOf s i f is)
      ⟨cause, if cause = 0x0D then (s.group is.g).live else is.at_, wd info⟩)
  (∀ i f s is, i ∈ [Instr.mtake f, .mwld f, .mswap f, .mma f, .mmat f, .mdrain f, .mzero f, .mhrd f, .mprg f] →
    Ready s i is → is.act ≠ 0 → Memory.wf s.mem = true → (core s is).holder ≠ some is.g → is.g ∉ (core s is).queue →
    ((core s is).holder = none → (core s is).queue = [] → exec i s = exec i (granted s is.g)) ∧
    ((core s is).holder ≠ none ∨ (core s is).queue ≠ [] → ∃ t, exec i s = .next t ∧
      (t.core (s.group is.g).core).holder = (core s is).holder ∧ (t.core (s.group is.g).core).queue = (core s is).queue ++ [is.g] ∧
      (t.core (s.group is.g).core).array = (core s is).array ∧ (t.group is.g).wait = .baton ∧ (t.group is.g).log = [entryOf s i f is] ∧
      RegsKept (s.group is.g) (t.group is.g) ∧ GroupsKept s t is.g ∧ t.writes = s.writes ∧ MemKept s t is.g)) ∧
  (∀ f s is, Ready s (.mtake f) is → is.act ≠ 0 → Memory.wf s.mem = true →
    ((core s is).holder = some is.g → ∃ t, exec (.mtake f) s = .next t ∧ Quiet s t is) ∧
    ((core s is).holder = none → (core s is).queue = [] → ∃ t, exec (.mtake f) s = .next t ∧
      (t.core (s.group is.g).core).holder = some is.g ∧ (t.core (s.group is.g).core).array = passed s (s.group is.g).core is.g ∧
      RegsKept (s.group is.g) (t.group is.g) ∧ Advanced (s.group is.g) (t.group is.g) is ∧ GroupsKept s t is.g ∧ t.writes = s.writes ∧
      MemKept s t is.g)) ∧
  (∀ f s is, Ready s (.mpass f) is → is.act ≠ 0 → Memory.wf s.mem = true →
    let k := (s.group is.g).core
    let saved := (s.team (s.group is.g).team).array
    ((core s is).holder ≠ some is.g → (∀ a, saved ≠ some (is.g, a)) → ∃ t, exec (.mpass f) s = .next t ∧ Quiet s t is) ∧
    (∀ a, (core s is).holder ≠ some is.g → saved = some (is.g, a) → ∃ t, exec (.mpass f) s = .next t ∧
      (t.core k).holder = (core s is).holder ∧ (t.core k).queue = (core s is).queue.filter (· != is.g) ∧
      (t.team (s.group is.g).team).array = none ∧
      RegsKept (s.group is.g) (t.group is.g) ∧ Advanced (s.group is.g) (t.group is.g) is ∧ GroupsKept s t is.g ∧ t.writes = s.writes ∧
      MemKept s t is.g) ∧
    ((core s is).holder = some is.g → ∃ t, exec (.mpass f) s = .next t ∧
      (t.core k).holder = (core s is).queue.head? ∧ (t.core k).queue = (core s is).queue.drop 1 ∧
      (∀ h, (core s is).queue.head? = some h → (t.core k).array = passed s k h) ∧
      ((core s is).queue = [] → (t.core k).array = (core s is).array ∧ (t.core k).last = (core s is).last) ∧
      RegsKept (s.group is.g) (t.group is.g) ∧ Advanced (s.group is.g) (t.group is.g) is ∧ GroupsKept s t is.g ∧ t.writes = s.writes ∧
      MemKept s t is.g)) ∧
  (∀ f s is, Ready s (.mswap f) is → is.act ≠ 0 → Memory.wf s.mem = true → (core s is).holder = some is.g → ∃ t, exec (.mswap f) s = .next t ∧
    let a := (core s is).array
    (t.core (s.group is.g).core).array = { a with active := a.shadow, shadow := a.active, af := a.sf, sf := a.af } ∧
    RegsKept (s.group is.g) (t.group is.g) ∧ Advanced (s.group is.g) (t.group is.g) is ∧ GroupsKept s t is.g ∧ t.teams.length = s.teams.length ∧
    t.writes = s.writes ∧ MemKept s t is.g) ∧
  (∀ f s is, Ready s (.mzero f) is → is.act ≠ 0 → Canonical s → (core s is).holder = some is.g →
    let e := entryOf s (.mzero f) f is
    let c := controlOf f e
    let row := c % 1024
    let n := c / 1024 % 2048
    let t := (s.group is.g).team
    (2 ^ 21 ≤ c ∨ 1024 < n → fed s is (.mzero f) f 0x0D (2 ^ 56 + c % 2 ^ 32)) ∧
    (c < 2 ^ 21 → n ≤ 1024 → n ≠ 0 → (s.team t).trows < row + n → fed s is (.mzero f) f 0x09 (max row (s.team t).trows)) ∧
    (c < 2 ^ 21 → n ≤ 1024 → (n = 0 ∨ row + n ≤ (s.team t).trows) → ∃ z, exec (.mzero f) s = .next z ∧
      (∀ r k, row ≤ r → r < row + n → k < 256 → memNat (z.team t).tile (1024 * r + 4 * k) 4 = 2 ^ 30) ∧
      (∀ b, ¬ (1024 * row ≤ b ∧ b < 1024 * (row + n)) → memGet (z.team t).tile b = memGet (s.team t).tile b) ∧
      (∀ m ∈ (z.team t).tlpois, m ∈ (s.team t).tlpois ∧ ¬ (row ≤ m / 64 ∧ m / 64 < row + n)) ∧
      RegsKept (s.group is.g) (z.group is.g) ∧ Advanced (s.group is.g) (z.group is.g) is ∧ GroupsKept s z is.g ∧ z.writes = s.writes ∧
      MemKept s z is.g)) ∧
  (∀ f s is m, Ready s (.mzero f) is → is.act ≠ 0 → Canonical s → (core s is).holder = some is.g → (s.group is.g).log = [] →
    let e := entryOf s (.mzero f) f is
    let c := controlOf f e
    let row := c % 1024
    let n := c / 1024 % 2048
    let t := (s.group is.g).team
    c < 2 ^ 21 → n ≤ 1024 → row + n ≤ (s.team t).trows → m < n → ∃ z, issue (.mzero f) (issueRows m (.mzero f) f) s = .next z ∧
      (z.group is.g).wait = .rows ∧ (z.group is.g).log = [{ e with prog := m, late := true }] ∧
      (∀ r k, row ≤ r → r < row + m → k < 256 → memNat (z.team t).tile (1024 * r + 4 * k) 4 = 2 ^ 30) ∧
      (∀ b, ¬ (1024 * row ≤ b ∧ b < 1024 * (row + m)) → memGet (z.team t).tile b = memGet (s.team t).tile b) ∧
      RegsKept (s.group is.g) (z.group is.g) ∧ Advanced (s.group is.g) (z.group is.g) is ∧ GroupsKept s z is.g ∧ z.writes = s.writes ∧
      MemKept s z is.g) ∧
  (∀ f s g e m, g < s.groups.length → (s.group g).team < s.teams.length → Canonical s → (s.core (s.group g).core).holder = some g → (s.group g).log = [e] →
    e.instr = .mzero f → (s.group g).badJoin = none → (s.group g).live ≠ 0 →
    let c := controlOf f e
    let row := c % 1024
    let n := c / 1024 % 2048
    let t := (s.group g).team
    c < 2 ^ 21 → n ≤ 1024 → row + n ≤ (s.team t).trows → e.prog < n →
    let z := moreRows s g m
    let last := min n (e.prog + m)
    (∀ r k, row + e.prog ≤ r → r < row + last → k < 256 → memNat (z.team t).tile (1024 * r + 4 * k) 4 = 2 ^ 30) ∧
    (∀ b, ¬ (1024 * (row + e.prog) ≤ b ∧ b < 1024 * (row + last)) → memGet (z.team t).tile b = memGet (s.team t).tile b) ∧
    (last < n → (z.group g).wait = .rows ∧ (z.group g).log = [{ e with prog := last, upto := none, late := true }]) ∧
    (last = n → (z.group g).log = [])) ∧
  (∀ s g e, g < s.groups.length → (s.group g).wait = .rows → (s.group g).log = [e] →
    ((saveWait s g).group g).log = [{ e with fseq := none, faults := [] }] ∧ ((saveWait s g).group g).wait = .recheck) ∧
  (∀ f s is, Ready s (.mhrd f) is → is.act ≠ 0 → Memory.wf s.mem = true → (core s is).holder = some is.g →
    ((s.team (s.group is.g).team).det = true → (core s is).array.hf.getLsbD f.c.immNat = true → exec (.mhrd f) s =
      .next (post (enterTrap (unissue (entered s (.mhrd f) f is) is.g (entryOf s (.mhrd f) f is)) is.g ⟨0x0E, is.at_, 0⟩ (is.len / 4) false is.a)
        is.g)) ∧
    ((s.team (s.group is.g).team).det = false ∨ (core s is).array.hf.getLsbD f.c.immNat = false → ∃ t, exec (.mhrd f) s = .next t ∧
    let count := fun k => getAt 0 (getAt [] (core s is).array.hist f.c.immNat) k
    RunWritten (s.group is.g) (t.group is.g) ⟨f.d.file, f.d.num, 0⟩ is.act (fun _ l =>
      if l < 16 then BitVec.ofNat 64 (count (2 * l) + count (2 * l + 1) * 2 ^ 32) else if l = 16 then BitVec.ofNat 64 (count 32) else 0) ∧
    PredsKept (s.group is.g) (t.group is.g) ∧ JoinsKept (s.group is.g) (t.group is.g) ∧ (t.group is.g).flags = (s.group is.g).flags ∧
    Settled s t is)) ∧
  (∀ f s is, Ready s (.mprg f) is → is.act ≠ 0 → Memory.wf s.mem = true → (core s is).holder = some is.g → ∃ t, exec (.mprg f) s = .next t ∧
    let a := (core s is).array
    let b := (t.core (s.group is.g).core).array
    (∀ h k, h < 8 → getAt 0 (getAt [] b.hist h) k = if f.c.immNat.testBit h then 0 else getAt 0 (getAt [] a.hist h) k) ∧
    (∀ h, h < 8 → b.hf.getLsbD h = (a.hf.getLsbD h && !f.c.immNat.testBit h)) ∧ b.active = a.active ∧ b.shadow = a.shadow ∧
    RegsKept (s.group is.g) (t.group is.g) ∧ Advanced (s.group is.g) (t.group is.g) is ∧ GroupsKept s t is.g ∧ t.writes = s.writes ∧
    MemKept s t is.g)

/-- R285, R286, R292, R295, R296, R298, R300, R302, R303, Tables 12.5, 12.7 to 12.10: with the baton, MWLD makes the shadow plane of the bytes of
the tile store or of memory; MMA and MMAT of n streamed rows write the words of their column trees to n tile rows and raise their flags; MDRAIN
converts each row, corner-turned or not, writes its codes and block scales to memory or to the D run, and with .H counts its words. A control
word, descriptor or metadata that breaks its rule is MATERR 1 to 4, a row beyond TROWS TSBOUND, and a foreign use under DET NONDET. The last
clauses say what matRow is: the 90 patterns of R278, the logical weight of R279, the product of R280, the node of R44 with its pairwise tree
(R47), and the step of R281 that enters the root into an accumulator word. The model's choices: the lanes and address a MATERR names (log 11),
and that the baton is taken before the form's own causes and NONDET completes nothing (log 13). -/
def Obligations.MatrixStreamRows : Prop :=
  let holds := fun (q c : Nat) => (getAt (0, 0) [(0, 1), (0, 2), (0, 3), (1, 2), (1, 3), (2, 3)] q).1 == c ||
    (getAt (0, 0) [(0, 1), (0, 2), (0, 3), (1, 2), (1, 3), (2, 3)] q).2 == c
  let rank := fun (q : List Nat) => 216 * getAt 0 q 0 + 36 * getAt 0 q 1 + 6 * getAt 0 q 2 + getAt 0 q 3
  let columnScale := fun (p : Plane) (c : Nat) => Int.bmod (getAt 0 p.scales c).toNat 256
  let storedAt := fun (p : Plane) (r c : Nat) => if p.rows = [] then Val.zero else decodeLog (fmtOf p.fmt) (getAt 0 (getAt [] p.rows r) c).toNat
  let weightAt := fun (p : Plane) (r c : Nat) => if p.sparse = false then storedAt p r c else
    let row := fun m => holds (getAt 0 (getAt [] patterns (getAt 0 p.metab (64 * (r / 4) + c / 4)).toNat) m) (c % 4)
    if row (r % 4) then storedAt p (r / 4 * 2 + ((List.range (r % 4)).filter row).length) c else .zero
  let product : Nat → Nat → Val → Val → Int → Int → Val := fun fa fw a w da dw => match a, w with
    | .nar, _ => .nar
    | _, .nar => .nar
    | .zero, _ => .zero
    | _, .zero => .zero
    | .num sa ea, .num sw ew =>
      let e := ea * (2 : Int) ^ (12 - fa) + ew * (2 : Int) ^ (12 - fw) + (da + dw) * 4096
      .num (sa ^^^ sw) (max (-(2 ^ 20)) (min e (2 ^ 20 - 1)))
  let node : Val → Val → Val × Flags := fun x y => match x, y with
    | .nar, _ => (.nar, 0)
    | _, .nar => (.nar, 0)
    | .zero, _ => (y, 0)
    | _, .zero => (x, 0)
    | .num sx ex, .num sy ey =>
      let dd := (ex - ey).natAbs
      let pow := fun p => (exp2Dyadic p (-(dd : Int)) 12).2.shr (-(exp2Dyadic p (-(dd : Int)) 12).1)
      let v : Int := if 65536 ≤ dd then 0 else if sx = sy then (if dd = 0 then 4096 else rnReal (fun p => log2I p ((one p).add (pow p))) 12)
        else if dd = 4096 then -4096 else rnReal (fun p => log2I p ((one p).sub (pow p))) 12
      if sx ≠ sy ∧ dd = 0 then (.zero, 0) else
        (.num (if ey ≤ ex then sx else sy) (max (-(2 ^ 20)) (min (max ex ey + v) (2 ^ 20 - 1))),
          if dd = 0 ∨ (sx ≠ sy ∧ dd = 4096) then 0 else fINX)
  let treeAt : (Nat → Val) → Nat → Nat → Val × Flags := fun leaf levels =>
    Nat.rec (fun k => (leaf k, 0)) (fun _ below k =>
      let x := below (2 * k)
      let y := below (2 * k + 1)
      ((node x.1 y.1).1, x.2 ||| y.2 ||| (node x.1 y.1).2)) levels
  let enter : Nat → Val → Int → RMode → Nat × Flags := fun acc rt ks mode => match decodeLog l32 acc, rt with
    | .nar, _ => (narCode l32, 0)
    | _, .nar => (narCode l32, 0)
    | _, .zero => (canon l32 acc, 0)
    | .zero, .num srt ert => rndDyadic srt (ert * 2 ^ 10 + ks * 2 ^ 22) 22 l32 mode 0
    | .num sacc eacc, .num srt ert => addcore sacc eacc srt (ert * 2 ^ 10 + ks * 2 ^ 22) l32 mode 0
  let core := fun (s : State) (is : Iss) => s.core (s.group is.g).core
  let fed : State → Iss → Instr → Full → Nat → Nat → Prop := fun s is i f cause info =>
    exec i s = .next (trapped (entered s i f is) is (entryOf s i f is)
      ⟨cause, if cause = 0x0D then (s.group is.g).live else is.at_, wd info⟩)
  let nondet : State → Iss → Instr → Full → Prop := fun s is i f =>
    exec i s = .next (post (enterTrap (unissue (entered s i f is) is.g (entryOf s i f is)) is.g ⟨0x0E, is.at_, 0⟩ (is.len / 4) false is.a) is.g)
  let aligned := fun (x : Nat) => x < 2 ^ 57 ∧ x % 16 = 0
  let short := fun (x : Nat) => Int.bmod (x % 2 ^ 32) (2 ^ 32)
  let kept := fun (s t : State) (is : Iss) =>
    PredsKept (s.group is.g) (t.group is.g) ∧ ScalarsKept (s.group is.g) (t.group is.g) ∧ JoinsKept (s.group is.g) (t.group is.g) ∧
    Advanced (s.group is.g) (t.group is.g) is ∧ GroupsKept s t is.g ∧ t.rels = s.rels
  let shadowed := fun (s t : State) (is : Iss) (fmt : Nat) (sparse : Bool) (weight : Nat → Nat → Byte) (scale meta_ : Nat → Byte) =>
    let p := (t.core (s.group is.g).core).array.shadow
    p.fmt = fmt ∧ p.sparse = sparse ∧ (∀ r k, r < 128 → k < 256 → getAt 0 (getAt [] p.rows r) k = weight r k) ∧
    (∀ k, k < 256 → getAt 0 p.scales k = scale k) ∧ (sparse = true → ∀ m, m < 4096 → getAt 0 p.metab m = meta_ m) ∧
    (t.core (s.group is.g).core).array.active = (core s is).array.active ∧ (t.core (s.group is.g).core).array.sf = false
  (∀ f s is, Ready s (.mwld f) is → is.act ≠ 0 → Memory.wf s.mem = true → (core s is).holder = some is.g → s.poison = [] →
    (s.team (s.group is.g).team).tlpois = [] →
    let i := Instr.mwld f
    let e := entryOf s i f is
    let c := controlOf f e
    let team := s.team (s.group is.g).team
    let sparse : Bool := f.xm.toNat / 2 % 2 == 1
    let rows := if sparse then 37 else 33
    let d : Nat → Nat := fun k => (cell e.b k e.low).toNat
    let view := plainByte s (some team.ctx) (s.group is.g).view
    let done := fun (weight : Nat → Nat → Byte) (scale meta_ : Nat → Byte) =>
      ((sparse = true → ∀ m, m < 4096 → (meta_ m).toNat ≤ 89) → ∃ t, exec i s = .next t ∧ shadowed s t is f.ty.toNat sparse weight scale meta_ ∧
        kept s t is ∧ VectorsKept (s.group is.g) (t.group is.g) ∧ (t.group is.g).flags = (s.group is.g).flags ∧ t.writes = s.writes ∧
        MemKept s t is.g) ∧
      (∀ m, sparse = true → m < 4096 → 89 < (meta_ m).toNat → (∀ n, n < m → (meta_ n).toNat ≤ 89) → exec i s = .next (trapped
        ((entered s i f is).setArray is.g { (core s is).array with shadow := {} }) is e ⟨0x0D, (s.group is.g).live, wd (3 * 2 ^ 56 + m)⟩))
    (f.xm.toNat % 2 = 0 →
      (1024 ≤ c → fed s is i f 0x0D (2 ^ 56 + c % 2 ^ 32)) ∧
      (c < 1024 → team.trows < c + rows → fed s is i f 0x09 (max c team.trows)) ∧
      (c < 1024 → c + rows ≤ team.trows → done (fun r k => memGet team.tile (1024 * c + 256 * r + k))
        (fun k => memGet team.tile (1024 * (c + 32) + k)) fun m => memGet team.tile (1024 * (c + 33) + m))) ∧
    (f.xm.toNat % 2 = 1 →
      let bad := fun k => if k = 1 then 2 ^ 32 ≤ d 1 ∨ d 1 % 16 ≠ 0 else if k = 3 then ¬ aligned (d 3) ∨ (sparse = false ∧ d 3 ≠ 0) else ¬ aligned (d k)
      (∀ k, k < 4 → bad k → (∀ j, j < k → ¬ bad j) → fed s is i f 0x0D (2 * 2 ^ 56 + k)) ∧
      ((∀ k, k < 4 → ¬ bad k) → ∀ (pa : Nat → Nat) sa ma,
        (∀ r, r < 128 → InWindow s (s.group is.g).team (((d 0 : Int) + short (d 1) * r) % 2 ^ 64).toNat 256 (pa r) ∧ NoSide s is.g (pa r) 256) →
        InWindow s (s.group is.g).team (d 2) 256 sa → NoSide s is.g sa 256 →
        (sparse = true → InWindow s (s.group is.g).team (d 3) 4096 ma ∧ NoSide s is.g ma 4096) →
        done (fun r k => view (pa r + k)) (fun k => view (sa + k)) fun m => view (ma + m)))) ∧
  (∀ i f turned s is (pa : Nat → Nat → Nat) (spa : Nat → Nat → Nat), (turned = false ∧ i = .mma f ∨ turned = true ∧ i = .mmat f) →
    Ready s i is → is.act ≠ 0 → Canonical s → (core s is).holder = some is.g → s.poison = [] →
    let e := entryOf s i f is
    let c := controlOf f e
    let row := c % 1024
    let n := c / 1024 % 2048
    let tm := (s.group is.g).team
    let team := s.team tm
    let p := (core s is).array.active
    let ty := f.ty.toNat
    let es : Nat := if ty = 9 then 2 else 1
    let d : Nat → Nat := fun k => (cell e.b k e.low).toNat
    let col0 := Int.bmod (d 2 % 2 ^ 16) (2 ^ 16)
    let kext : Nat := d 2 / 2 ^ 16 % 2 ^ 16
    let mext : Nat := d 2 / 2 ^ 32 % 2 ^ 32
    let bad := fun k => if k = 0 then ¬ aligned (d 0) else if k = 1 then d 1 / 2 ^ 32 % 16 ≠ 0 else
      if k = 2 then col0 * (es : Int) % 16 ≠ 0 ∨ (ty ≠ 9 ∧ col0 % 128 ≠ 0) else 2 ^ 57 ≤ d 3 ∨ (ty = 9 ∧ d 3 ≠ 0)
    let foreign := team.det = true ∧ (core s is).array.af = true
    (foreign → nondet s is i f) ∧
    (¬ foreign → 2 ^ 21 ≤ c ∨ 1024 < n → fed s is i f 0x0D (2 ^ 56 + c % 2 ^ 32)) ∧
    (¬ foreign → c < 2 ^ 21 → n ≤ 1024 → n ≠ 0 → team.trows < row + n → fed s is i f 0x09 (max row team.trows)) ∧
    (¬ foreign → c < 2 ^ 21 → n ≤ 1024 → (n = 0 ∨ row + n ≤ team.trows) →
      (∀ k, k < 4 → bad k → (∀ j, j < k → ¬ bad j) → fed s is i f 0x0D (2 * 2 ^ 56 + k)) ∧
      ((∀ k, k < 4 → ¬ bad k) →
        let L := if turned || p.sparse then 256 else 128
        let N := if turned && !p.sparse then 128 else 256
        let r := fun (j : Nat) => short (d 1) + (j : Int)
        let ok := fun (j q : Nat) => decide (0 ≤ r j) && decide (r j < mext) && decide (0 ≤ col0 + (q : Int)) && decide (col0 + (q : Int) < kext)
        let block := fun (j b : Nat) => (List.range L).any fun q => q / 128 == b && ok j q
        let at_ := fun (j q : Nat) => (((d 0 : Int) + r j * short (d 1 / 2 ^ 32) + (col0 + (q : Int)) * (es : Int)) % 2 ^ 64).toNat
        let sat_ := fun (j b : Nat) => (((d 3 : Int) + Int.fdiv col0 128 + (b : Int) + (((kext + 127) / 128 : Nat) : Int) * r j) % 2 ^ 64).toNat
        let view := plainByte s (some team.ctx) (s.group is.g).view
        (∀ j q, j < n → q < L → ok j q = true → InWindow s tm (at_ j q) es (pa j q) ∧ NoSide s is.g (pa j q) es) →
        (∀ j b, j < n → b < L / 128 → ty ≠ 9 → block j b = true → InWindow s tm (sat_ j b) 1 (spa j b) ∧ NoSide s is.g (spa j b) 1) →
        let streamed : Nat → StreamRow := fun j =>
          { a := (List.range L).map fun q => if ok j q then
              decodeLog (fmtOf ty) (ofBytes ((List.range es).map fun k => view (pa j q + k))) else .zero
            ka := (List.range (L / 128)).map fun b =>
              (if ty ≠ 9 ∧ block j b = true then Int.bmod (view (spa j b)).toNat 256 else 0, block j b) }
        let out := fun (j : Nat) => matRow p turned (fmtOf ty).F (streamed j) N (rmodeOf f.rnd.toNat) fun o =>
          memNat team.tile (1024 * (row + j) + 4 * o) 4
        ∃ z, exec i s = .next z ∧
          (∀ j o, j < n → o < N → memNat (z.team tm).tile (1024 * (row + j) + 4 * o) 4 = getAt 0 (out j).1 o) ∧
          (∀ b, (∀ j, j < n → ¬ (1024 * (row + j) ≤ b ∧ b < 1024 * (row + j) + 4 * N)) → memGet (z.team tm).tile b = memGet team.tile b) ∧
          (z.group is.g).flags = (List.range n).foldl (fun fl j => fl ||| (out j).2) (s.group is.g).flags ∧
          kept s z is ∧ VectorsKept (s.group is.g) (z.group is.g) ∧ z.writes = s.writes ∧ MemKept s z is.g))) ∧
  (∀ f s is (pa spa : Nat → Nat), Ready s (.mdrain f) is → is.act ≠ 0 → Canonical s → (core s is).holder = some is.g → s.poison = [] →
    let i := Instr.mdrain f
    let e := entryOf s i f is
    let x := s.group is.g
    let c := controlOf f e
    let row := c % 1024
    let n := c / 1024 % 2048
    let width := if c / 2 ^ 21 % 2 = 1 then 128 else 256
    let h := c / 2 ^ 22 % 8
    let team := s.team x.team
    let turned := f.xm.toNat % 2 = 1
    let counted := f.xm.toNat / 2 % 2 = 1
    let toReg := 4 ≤ f.xm.toNat
    let ty := f.ty.toNat
    let w := tyWidth ty
    let l8 := ty = 10 ∨ ty = 11
    let d : Nat → Nat := fun k => (cell e.b k e.low).toNat
    let bad := fun k => if k = 0 then ¬ aligned (d 0) else if k = 1 then 2 ^ 32 ≤ d 1 ∨ d 1 % 16 ≠ 0 else
      if k = 2 then 2 ^ 57 ≤ d 2 ∨ (¬ l8 ∧ d 2 ≠ 0) else d 3 ≠ 0
    let foreign := team.det = true ∧ counted ∧ (core s is).array.hf.getLsbD h = true
    let misfit := (turned ∧ 256 < n) ∨ (toReg ∧ n * width * w ≠ 2048 * 2 ^ f.d.wid.toNat)
    let sound := 8 ≤ ty ∧ ty ≤ 14 ∧ ¬ foreign ∧ c < 2 ^ 25 ∧ n ≤ 1024 ∧ ¬ misfit
    let rows := if turned then if n = 0 then 0 else width else n
    let cols := if turned then n else width
    let word := fun (r j : Nat) => memNat team.tile (if turned then 1024 * (row + j) + 4 * r else 1024 * (row + r) + 4 * j) 4
    let out := fun (r : Nat) => drainRow ty (rmodeOf f.rnd.toNat) ((List.range cols).map (word r))
    let scales := if l8 then (cols + 127) / 128 else 0
    (foreign → nondet s is i f) ∧
    (¬ foreign → 2 ^ 25 ≤ c ∨ 1024 < n → fed s is i f 0x0D (2 ^ 56 + c % 2 ^ 32)) ∧
    (¬ foreign → c < 2 ^ 25 → n ≤ 1024 → misfit → fed s is i f 0x0D (4 * 2 ^ 56 + c % 2 ^ 32)) ∧
    (sound → n ≠ 0 → team.trows < row + n → fed s is i f 0x09 (max row team.trows)) ∧
    (sound → (n = 0 ∨ row + n ≤ team.trows) → ¬ toReg → ∀ k, k < 4 → bad k → (∀ j, j < k → ¬ bad j) → fed s is i f 0x0D (2 * 2 ^ 56 + k)) ∧
    (sound → (n = 0 ∨ row + n ≤ team.trows) → (¬ toReg → ∀ k, k < 4 → ¬ bad k) → team.tlpois = [] →
      (¬ toReg → ∀ r, r < rows → InWindow s x.team (((d 0 : Int) + short (d 1) * r) % 2 ^ 64).toNat (cols * w / 8) (pa r) ∧
        NoSide s is.g (pa r) (cols * w / 8) ∧ Unwritten s x.view (pa r) (cols * w / 8) ∧
        (l8 → InWindow s x.team ((d 2 + scales * r) % 2 ^ 64) scales (spa r) ∧ NoSide s is.g (spa r) scales ∧ Unwritten s x.view (spa r) scales) ∧
        ∀ q, q < rows → (r ≠ q → Apart (pa r) (cols * w / 8) (pa q) (cols * w / 8) ∧ (l8 → Apart (spa r) scales (spa q) scales)) ∧
          (l8 → Apart (pa r) (cols * w / 8) (spa q) scales)) →
      ∃ t, exec i s = .next t ∧
        (t.group is.g).flags = (List.range rows).foldl (fun fl r => fl ||| (out r).2.2) x.flags ∧
        (¬ counted → (t.core x.core).array = (core s is).array) ∧
        (counted → ∀ b : Nat, b < 33 →
          let all := (List.range rows).flatMap fun r => (List.range cols).map (word r)
          let hits := (all.filter fun v => match decodeLog l32 v with
            | .nar => false
            | .zero => b == 32
            | .num _ e => decide ((b : Int) = max 0 (min 31 (Int.fdiv e (2 ^ 22) + 16)))).length
          let old := getAt 0 (getAt [] (core s is).array.hist h) b
          getAt 0 (getAt [] (t.core x.core).array.hist h) b = if hits = 0 then old else min (old + hits) (2 ^ 32 - 1)) ∧
        (∀ r j, toReg → r < rows → j < cols →
          let k := r * cols + j
          let lane := k * w % 2048 / 64
          is.act.getLsbD lane = true →
            vcell (t.group is.g) (f.d.num.toNat + k * w / 2048) lane / 2 ^ (w * (k % (64 / w))) % 2 ^ w = getAt 0 (out r).1 j) ∧
        (∀ v l, l < 32 → ¬ (toReg ∧ is.act.getLsbD l = true ∧ f.d.num.toNat ≤ v ∧ v < f.d.num.toNat + 2 ^ f.d.wid.toNat) →
          vcell (t.group is.g) v l = vcell x v l) ∧
        (¬ toReg → (∀ r j, r < rows → j < cols → memNat t.mem (pa r + j * (w / 8)) (w / 8) = getAt 0 (out r).1 j) ∧
          (∀ r b, r < rows → b < scales → (memGet t.mem (spa r + b)).toNat = getAt 0 (out r).2.1 b) ∧
          MemKeptBut s t is.g ((List.range rows).flatMap fun r => (pa r, cols * w / 8) :: if l8 then [(spa r, scales)] else [])) ∧
        (toReg → t.writes = s.writes ∧ MemKept s t is.g) ∧ (t.team x.team).tile = team.tile ∧ kept s t is)) ∧
  (∀ ty mode (words : List Nat) j v, words[j]? = some v →
    let row := drainRow ty mode words
    let block := (words.drop (j / 128 * 128)).take 128
    let num : Nat → Option Int := fun v => match decodeLog l32 v with | .num _ e => some e | _ => none
    let scaled : Int → Nat × Flags := fun k => match decodeLog l32 v with
      | .num sg e => rndDyadic sg (e - k * 2 ^ 22) 22 (fmtOf ty) mode 0
      | .zero => (zeroCode (fmtOf ty), 0)
      | .nar => (narCode (fmtOf ty), 0)
    let scale := Int.bmod (getAt 0 row.2.1 (j / 128)) 256
    row.1.length = words.length ∧
    (ty = 8 → row.1[j]? = some (canon l32 v)) ∧
    (ty = 9 → row.1[j]? = some (scaled 0).1) ∧
    (ty = 10 ∨ ty = 11 → row.1[j]? = some (scaled scale).1 ∧
      ((∀ u ∈ block, num u = none) → scale = 0) ∧
      (∀ m, (∃ u ∈ block, num u = some m) → (∀ u ∈ block, ∀ e, num u = some e → e ≤ m) →
        scale = max (-128) (min 127 (Int.fdiv m (2 ^ 22) - if ty = 10 then 2 else 6)))) ∧
    (12 ≤ ty → row.1[j]? = some (exportLog (ifmtOf ty) (decodeLog l32 v) 22 mode 0).1)) ∧
  (∀ i f turned s is u r, (turned = false ∧ i = .mma f ∨ turned = true ∧ i = .mmat f) → Ready s i is → is.act ≠ 0 → Canonical s →
    (s.core (s.group is.g).core).holder = some is.g → (s.team (s.group is.g).team).det = false →
    let e := entryOf s i f is
    let c := controlOf f e
    let t := (s.group is.g).team
    let p := (s.core (s.group is.g).core).array.active
    c < 2 ^ 21 → c / 1024 % 2048 = 1 → c % 1024 + 1 ≤ (s.team t).trows → streamBad e f.ty.toNat = none →
    streamRow (entered s i f is) is.g e f.ty.toNat (if turned || p.sparse then 256 else 128) 0 = (u, .ok r) →
    let w := matRow p turned (fmtOf f.ty.toNat).F r (if turned && !p.sparse then 128 else 256) (rmodeOf f.rnd.toNat)
      (fun o => getAt 0 (tileRow s is.g (c % 1024)) o)
    ∃ z, exec i s = .next z ∧
      memRead (z.team t).tile (1024 * (c % 1024)) (4 * w.1.length) = w.1.flatMap (toBytes 4) ∧
      (∀ b, ¬ (1024 * (c % 1024) ≤ b ∧ b < 1024 * (c % 1024) + 4 * w.1.length) → memGet (z.team t).tile b = memGet (s.team t).tile b) ∧
      (z.group is.g).flags = (s.group is.g).flags ||| w.2 ∧
      VectorsKept (s.group is.g) (z.group is.g) ∧ ScalarsKept (s.group is.g) (z.group is.g) ∧ PredsKept (s.group is.g) (z.group is.g) ∧
      Advanced (s.group is.g) (z.group is.g) is ∧ GroupsKept s z is.g ∧ z.writes = s.writes ∧ MemKept s z is.g) ∧
  (∀ f s is u ps, f.xm = 0 → Ready s (.mdrain f) is → is.act ≠ 0 → Memory.wf s.mem = true →
    (s.core (s.group is.g).core).holder = some is.g →
    let e := entryOf s (.mdrain f) f is
    let c := controlOf f e
    let width := if c / 2 ^ 21 % 2 = 1 then 128 else 256
    let row := drainRow f.ty.toNat (rmodeOf f.rnd.toNat) ((tileRow s is.g (c % 1024)).take width)
    c < 2 ^ 25 → c / 1024 % 2048 = 1 → c % 1024 + 1 ≤ (s.team (s.group is.g).team).trows → drainBad e f.ty.toNat = none →
    arrayChecks (entered s (.mdrain f) f is) is.g { e with prog := 0 } .store
      [(((e.desc 0).toNat) % 2 ^ 64, row.1.length * tyWidth f.ty.toNat / 8), ((e.desc 2).toNat % 2 ^ 64, row.2.1.length)] = (u, .ok ps) →
    ∃ t, exec (.mdrain f) s = .next t ∧
      (t.group is.g).flags = (s.group is.g).flags ||| row.2.2 ∧
      (∃ new, t.writes = s.writes ++ new ∧ ∀ w ∈ new, w.party = .grp is.g ∧ w.sync = none) ∧
      MemKeptBut s t is.g (ps.map fun q => (q.pa / 4 * 4, (q.pa + q.len + 3) / 4 * 4 - q.pa / 4 * 4)) ∧
      VectorsKept (s.group is.g) (t.group is.g) ∧ ScalarsKept (s.group is.g) (t.group is.g) ∧ PredsKept (s.group is.g) (t.group is.g) ∧
      Advanced (s.group is.g) (t.group is.g) is ∧ GroupsKept s t is.g) ∧
  (∀ q : List Nat, q ∈ patterns ↔ q.length = 4 ∧ (∀ m, m < 4 → getAt 0 q m < 6) ∧
    ∀ c, c < 4 → ((List.range 4).filter fun m => holds (getAt 0 q m) c).length = 2) ∧
  patterns.length = 90 ∧
  (∀ i j, i < j → j < 90 → rank (getAt [] patterns i) < rank (getAt [] patterns j)) ∧
  (∀ (p : Plane) (turned : Bool) fa (r : StreamRow) n mode acc (km kr : Int), r.a.length = 128 ∨ r.a.length = 256 →
    r.ka.length = r.a.length / 128 → (p.sparse = true → ∀ m, m < 4096 → (getAt 0 p.metab m).toNat < 90) →
    (∀ k ∈ r.ka, k.2 = true → k.1 ≤ km) → (if r.ka.any (·.2) then (km, true) ∈ r.ka else km = 0) →
    (∀ c, c < 256 → columnScale p c ≤ kr) → (∃ c, c < 256 ∧ columnScale p c = kr) →
    let kwref := fun o => if turned then kr else columnScale p o
    let leaf := fun (o q : Nat) =>
      let col := if turned then q else o
      product fa (fmtOf p.fmt).F (getAt .zero r.a q) (if turned then weightAt p o q else weightAt p q o)
        ((getAt (0, false) r.ka (q / 128)).1 - km) (columnScale p col - kwref o)
    let root := fun (o : Nat) => treeAt (leaf o) (if r.a.length = 128 then 7 else 8) 0
    let new := fun (o : Nat) => enter (acc o) (root o).1 (km + kwref o) mode
    matRow p turned fa r n mode acc =
      ((List.range n).map fun o => (new o).1, (List.range n).foldl (fun fl o => fl ||| ((root o).2 ||| (new o).2)) 0))

-- The machine as a whole ----------------------------------------------------------------------------------------------------------

/-- Tables 5.5, 10.3a, 14.9, 15.10, 16.1, 16.4, 16.5, 16.8 and R161: the device and context registers after reset, with nothing queued, held or
cached. That memory then reads zero and that no work exists is the model's choice (log 3, log 20), and so is the capacity before bring-up, that of
ordering code M512 (log 5), the zeros of what the tables give no reset value for, shootVA, brk, fseq, twidx, the pegs and a core's cycle count among
them (log 4), and that LSEQ starts at 0 (log 34). -/
def Obligations.ResetValues : Prop :=
  let s := State.reset
  let d := s.dev
  d.status = 0 ∧ d.rback = 0 ∧ d.shootQ = [] ∧ d.shootHeld = [] ∧ d.shootDone = 0 ∧ d.shootVA = 0 ∧ d.dump = 0 ∧ d.trace = 0 ∧ d.trctx = 0 ∧
  d.drops = 0 ∧ d.twidx = 0 ∧ d.fpwin = 0x10000 ∧ d.node = 0 ∧ d.nodemap = 0 ∧ d.named = 0 ∧ wfield d.pwrctl 19 8 = 90 ∧ wfield d.pwrctl 11 8 = 80 ∧
  wfield d.pwrctl 0 11 = 1400 ∧ wfield d.pwrctl 27 37 = 0 ∧ (∀ i, getAt 0 d.temp i = 0 ∧ getAt 0 d.floor i = 0 ∧ getAt 0 d.level i = 0) ∧
  wfield d.whcfg 32 18 = 0x3FFFF ∧ wfield d.whcfg 0 32 = 0x186A0 ∧ (∀ n, (s.port n).up = false ∧ (s.port n).quar = false) ∧
  d.capacity = 512 * 10 ^ 9 ∧ d.errlog = [] ∧ d.reports = [] ∧ d.inbox = [] ∧ d.out = [] ∧ d.alarm = false ∧
  s.ctxs.length = 64 ∧ s.cores.length = 256 ∧ s.clusters.length = 64 ∧
  (∀ c, let x := s.ctx c
    x.worktab = 0 ∧ x.part = 0 ∧ x.heapbase = 0 ∧ x.heaplen = 0 ∧ x.heapoff = 0 ∧ x.ptroot = 0 ∧ x.faultq = 0 ∧ x.fqHead = 0 ∧ x.fqTail = 0 ∧
    x.regtab = 0 ∧ x.regPend = none ∧ x.rej = 0 ∧ x.trapvec = 0 ∧ (∀ n, getAt 0 x.brk n = 0) ∧ x.save = 0 ∧ x.pstate = 0 ∧ x.plerr = false ∧
    x.sealed = false ∧ x.eph = none ∧ x.fseq = 0 ∧ x.lseq = 0 ∧ x.regions = [] ∧ x.tlb = [] ∧ x.queues = [] ∧ x.stopped = [] ∧ x.records = [] ∧
    x.purges = [] ∧ x.signals = 0) ∧
  (∀ k, (s.core k).halted = false ∧ (s.core k).cycles = 0 ∧ (s.core k).holder = none ∧ (s.core k).queue = [] ∧ (s.core k).reqs = []) ∧
  (∀ k, (s.cluster k).tlb = [] ∧ (s.cluster k).walks = []) ∧
  s.launches = [] ∧ s.teams = [] ∧ s.groups = [] ∧ s.pegs = [] ∧ s.colls = [] ∧ s.gateQ = [] ∧ s.writes = [] ∧ s.rels = [] ∧ s.poison = [] ∧
  ∀ a, memGet s.mem a = 0

/-- The invariants of this file hold at reset: every memory is canonical, DEV.STATUS is a state of Table 16.5. -/
def Obligations.ResetInvariants : Prop := Canonical State.reset ∧ StatusLegal State.reset

/-- Table 16.5 and the memory form: every step keeps physical memory, the scratchpads and the tile stores canonical, and leaves DEV.STATUS one
of the states that Table 16.5 uses. -/
def Obligations.StepKeepsInvariants : Prop :=
  ∀ s t, Canonical s ∧ StatusLegal s → step s = .next t → Canonical t ∧ StatusLegal t

/-- A group's turn runs the instruction that its fetch buffer holds at its issue address (R137, R151): when no breakpoint and no watchdog
trap is due, the step is exec of the decoded instruction. That with an empty agenda the current group's turn comes, and otherwise the agenda's first
entry acts, is the model's own scheduling (log 1). -/
def Obligations.StepRunsDecoded : Prop :=
  let stands : State → Nat → Instr → Prop := fun s g i =>
    let x := s.group g
    g < s.groups.length ∧ x.ended = false ∧ onCore s x = true ∧ (x.wait = .none ∨ (∃ n, x.wait = .fault n) ∧ x.inSecond = false) ∧ s.breakpoint g = none ∧
    (x.wdog = false ∨ x.inh = true) ∧ ∃ a, x.issueAddr = some a ∧ decode (wordsIn (x.fetched a)) = .ok i
  (∀ s i, s.agenda = [] → stands s s.cur i → step s = exec i s) ∧
  (∀ s g l i, s.agenda = .group g :: l → stands s g i → step s = exec i { s with agenda := l, cur := g }) ∧
  (∀ s i l, s.agenda = .event i :: l → view i = none → step s = exec i { s with agenda := l })

/-- Table 6.1 to 6.4 and the chapters' encodings: words written out by hand decode to the instruction they stand for. -/
def Obligations.DecodedWords : Prop :=
  decode [0x000002DC] = .ok .exitShort ∧
  decode [0x05010155, 0x08002B07] =
    .ok (.cvt ⟨⟨.v, 4, 0⟩, ⟨.v, 5, 0⟩, .reg ⟨.v, 8, 0⟩, 0, 5, 3, none, ⟨0, false, 7⟩⟩) ∧
  decode [0x0202814D, 0x03005007] =
    .ok (.ldot4 ⟨⟨.v, 10, 0⟩, ⟨.v, 2, 0⟩, .reg ⟨.v, 3, 0⟩, 0, 10, 0, none, ⟨0, false, 7⟩⟩) ∧
  decode [0x12441115, 0x14404A2B] =
    .ok (.ladd ⟨⟨.v, 16, 1⟩, ⟨.v, 18, 1⟩, .reg ⟨.v, 20, 1⟩, 0, 9, 2, none, ⟨2, true, 3⟩⟩)

/-- Decoding an encoded well-formed instruction gives it back, whatever words follow. -/
def Obligations.DecodeEncode : Prop := ∀ i rest, Instr.wf i = true → decode (encode i ++ rest) = .ok i

/-- What decodes is well formed, and its encoding is the words it was decoded from: no two encodings of one instruction, and no bit of a
legal word is ignored. -/
def Obligations.DecodeSound : Prop := ∀ ws i, decode ws = .ok i → Instr.wf i = true ∧ ∃ rest, ws = encode i ++ rest

/-- R134, steps 1 and 2: LEN = 0b11 and every opcode that Table 6.8 does not assign are refused; and words at the issue address that do not
decode make the group take ILL with the words in TRAP.INFO (R135), or, where PCV fails parity as their address is read, consume poison (R370). -/
def Obligations.RefusedEncodings : Prop :=
  let isAssigned := fun op : Nat => 0x01 ≤ op ∧ op ≤ 0x0A ∨ 0x10 ≤ op ∧ op ≤ 0x1C ∨ 0x20 ≤ op ∧ op ≤ 0x24 ∨ 0x40 ≤ op ∧ op ≤ 0x4D ∨
    0x50 ≤ op ∧ op ≤ 0x55 ∨ 0x80 ≤ op ∧ op ≤ 0x89 ∨ 0x90 ≤ op ∧ op ≤ 0x99 ∨ 0xA0 ≤ op ∧ op ≤ 0xA5 ∨ 0xB0 ≤ op ∧ op ≤ 0xB9 ∨
    0xC0 ≤ op ∧ op ≤ 0xCD ∨ 0xD0 ≤ op ∧ op ≤ 0xD9 ∨ 0xE0 ≤ op ∧ op ≤ 0xE9 ∨ 0xF0 ≤ op ∧ op ≤ 0xF7
  (∀ w0 rest, bitsOf w0 0 2 = 3 → decode (w0 :: rest) = .error (.ill .len)) ∧
  (∀ w0 rest, bitsOf w0 0 2 ≠ 3 → lenWords w0 ≤ rest.length + 1 → ¬ isAssigned (bitsOf w0 2 8).toNat →
    decode (w0 :: rest) = .error (.ill .unassigned)) ∧
  (∀ (s : State) w0 l e a, s.agenda = [] → s.cur < s.groups.length → (s.group s.cur).ended = false → onCore s (s.group s.cur) = true →
    (s.group s.cur).wait = .none → s.breakpoint s.cur = none → (s.group s.cur).issueAddr = some a →
    wordsIn ((s.group s.cur).fetched a) = w0 :: l → decode (w0 :: l) = .error e →
    step s = .next (if (s.group s.cur).pcvBad = true then consume s s.cur 0x18 (2 ^ 63 + Config.physRow 4 0)
      else enterTrap s s.cur ⟨0x01, (s.group s.cur).lanesAt a, badInfo w0.toNat (l.headD 0).toNat⟩ (lenWords w0) false a))

/-- R350, causes 3 to 7: the first that applies is taken before the instruction has any effect, whatever active() holds, with every PC at
the instruction. R370: where PCV fails parity, or a register element that the instruction reads, poison is consumed, but that a vector, scalar or
predicate register may instead be repaired from its producer's log entry, which ends the mark and changes nothing else (whether it is, is a free
choice, log 8); an error that strikes an element marks that element alone, and a write of the element ends the mark; and a join register that fails
as release reads it, because some lane is parked under it, consumes poison behind the instruction (R154). The model's choices: the lanes and the
value TRAP.INFO gives for VRBOUND, NONDET and SYSPRIV (log 11), and the row numbers and the marks per element (log 51). -/
def Obligations.FirstCauseIsTaken : Prop :=
  (∀ (i : Instr) (s : State) (is : Iss), isRow i → Due s i is →
    let x := s.group is.g
    let uses := (usesOf i).1 ++ (usesOf i).2
    let takes : Nat → Word → Prop := fun cause info => exec i s = .next (enterTrap s is.g ⟨cause, is.at_, info⟩ (is.len / 4) false is.a)
    let legal := Instr.wf i = true ∧ stateIll x i = false
    let inBound := ∀ m, Res.v m ∈ uses → m < x.vbound
    let converged := converges (opOf i) = true → x.live = is.at_
    (x.pcvBad = true → exec i s = .next (consume s is.g 0x18 (2 ^ 63 + Config.physRow 4 0))) ∧
    (x.pcvBad = false → ¬ legal → takes 0x01 (illInfo (encode i))) ∧
    (∀ n, x.pcvBad = false → legal → Res.v n ∈ uses → x.vbound ≤ n → (∀ m, Res.v m ∈ uses → x.vbound ≤ m → n ≤ m) → takes 0x02 (wd n)) ∧
    (x.pcvBad = false → legal → inBound → ¬ converged → takes 0x03 ((x.live &&& ~~~is.at_).setWidth 64)) ∧
    (x.pcvBad = false → legal → inBound → converged → (s.team x.team).det = true → nondet i = true → takes 0x0E 0) ∧
    (∀ f, i = .tlbinv f → x.pcvBad = false → legal → inBound → converged → wfield (s.team x.team).vec 1 1 = 0 →
      takes 0x1A (if f.xm = 0 then x.sreg f.b.num.toNat else 0))) ∧
  (∀ (i : Instr) (s : State) (is : Iss) (r : Res) (l : Nat), isRow i → Due s i is →
    let x := s.group is.g
    let lost := fun (q : Res) (m : Nat) => (q, m) ∈ x.vbad ∧ q ∈ (usesOf i).1 ∧
      ((∃ n, q = .v n) → m < 32 ∧ (is.act.getLsbD m = true ∨ 0xA0 ≤ opOf i ∧ opOf i ≤ 0xA2))
    x.pcvBad = false → precheck s is i = none → is.act ≠ 0 → lost r l → (∀ q m, lost q m → q = r) →
    let t := { s with fresh := s.fresh + 1 }
    let row := match r with
      | .v n => if n < x.vres then x.vbase + n else Config.physRow 0 n
      | .s n => Config.physRow 1 n
      | .p n => Config.physRow 2 n
      | .j n => Config.physRow 3 n
      | _ => Config.physRow 4 1
    ((∃ n, r = .j n) → exec i s = .next (consume s is.g 0x18 (2 ^ 63 + row))) ∧
    ((∀ n, r ≠ .j n) → exec i s = .next (if Config.pick s.fresh then t.setGroup is.g { x with vbad := x.vbad.filter fun p => p.1 != r }
      else consume t is.g 0x18 (2 ^ 63 + row)))) ∧
  (∀ (s : State) (is : Iss) (n : Nat), Due s .nopShort is →
    let x := s.group is.g
    let lost := fun m => (∃ l, (Res.j m, l) ∈ x.vbad) ∧ ∃ l, l < x.lanes.length ∧ (x.lane l).p = true ∧ (x.lane l).x = false ∧ (x.lane l).n = m
    x.wait = .none → x.pcvBad = false → precheck s is .nopShort = none → n < 4 → lost n → (∀ m, m < n → ¬ lost m) →
    let t := issued s .nopShort is
    exec .nopShort s = .next (consume (t.setGroup is.g ((t.group is.g).advance is.at_ is.a is.len)) is.g 0x18 (2 ^ 63 + Config.physRow 3 n))) ∧
  (∀ (s : State) (g : Nat) (r : Res) (l : Nat) (rest : List Turn), s.agenda = .badReg g r l :: rest → g < s.groups.length →
    (s.group g).ended = false → ((∃ n, r = .v n) ∧ l < 32 ∨ (∃ n, r = .s n ∨ r = .p n ∨ r = .j n) ∧ l = 0) → (r, l) ∉ (s.group g).vbad →
    step s = .next ({ s with agenda := rest }.setGroup g { s.group g with vbad := (s.group g).vbad ++ [(r, l)] })) ∧
  (∀ (s : State) (g : Nat) (rest : List Turn), s.agenda = .badPcv g :: rest → g < s.groups.length → (s.group g).ended = false →
    step s = .next ({ s with agenda := rest }.setGroup g { s.group g with pcvBad := true })) ∧
  (∀ (f : Full) (s : State) (is : Iss), Ready s (.mov f) is → is.act ≠ 0 → Memory.wf s.mem = true → ∃ t, exec (.mov f) s = .next t ∧
    ∀ r l, (r, l) ∈ (t.group is.g).vbad ↔ (r, l) ∈ (s.group is.g).vbad ∧
      ¬ ∃ n, f.d.num.toNat ≤ n ∧ n < f.d.num.toNat + runLen f.d.wid ∧ (f.d.file = .v ∧ r = .v n ∧ is.act.getLsbD l = true ∨ f.d.file = .s ∧ r = .s n))

/-- R152: when active() is empty, an instruction writes nothing, raises no flag and takes no trap of its own entry: its only effect is the
PC advance. -/
def Obligations.NoActiveLanes : Prop :=
  ∀ i s is, isRow i → Ready s i is → is.act = 0 → Memory.wf s.mem = true → ∃ t, exec i s = .next t ∧ Quiet s t is

/-- R315, R316: a plain load of a word returns the latest write of the party's current quantum; otherwise the value of the write that, among those
that are its own or have reached it, precedes no other of them and has the greatest writer index; otherwise the value the word held before any party
wrote it. R317: writer indices are compared by class and then lexicographically; a group of a launch has class 2 and (LSEQ, G, e), one of a task
class 1 and (pop index, queue, g, e), and another context's class 0 and 64 plus that context, with equal indices by arrival. That such a context's
writes rank so in a plain load, and that the arrival number ends each index, is the model's reading (assumption log 50). -/
def Obligations.PlainLoadValue : Prop :=
  ∀ (s : State) (rd : Option Nat) (v : MemView) (word : Nat),
    let wrote := fun (n : Nat) (w : WriteRec) => s.writes[n]? = some w ∧ w.word = word
    let known := fun n : Nat => n ∈ v.own ∨ n ∈ v.reached
    (∀ n w, wrote n w → n ∈ v.quantum → (∀ m x, wrote m x → m ∈ v.quantum → m ≤ n) → plainWord s rd v word = w.val) ∧
    ((∀ n w, wrote n w → n ∉ v.quantum) → ∀ n w, wrote n w → known n →
      (∀ m x, wrote m x → known m → n ∉ x.prec) →
      (∀ m x, wrote m x → known m → m ≠ n → (∀ k y, wrote k y → known k → m ∉ y.prec) → rankLt (rank rd x) (rank rd w) = true) →
      plainWord s rd v word = w.val) ∧
    ((∀ n w, wrote n w → n ∉ v.quantum ∧ ¬ known n) → ∀ n w, wrote n w → (∀ m x, wrote m x → n ≤ m) → plainWord s rd v word = w.old) ∧
    ((∀ n w, ¬ wrote n w) → plainWord s rd v word = BitVec.ofNat 32 (memNat s.mem word 4)) ∧
    (∀ w : WriteRec, let other := (w.cls = 1 ∨ w.cls = 2) ∧ ∃ c, rd = some c ∧ w.ctx ≠ c
      (¬ other → rank rd w = (w.cls, w.idx)) ∧ (other → rank rd w = (0, (64 + w.ctx) :: w.idx.drop (w.idx.length - 1)))) ∧
    (∀ a b : Nat × List Nat, a.2.length = b.2.length → (rankLt a b = true ↔ a.1 < b.1 ∨ a.1 = b.1 ∧
      ∃ k, k < a.2.length ∧ (∀ j, j < k → getAt 0 a.2 j = getAt 0 b.2 j) ∧ getAt 0 a.2 k < getAt 0 b.2 k)) ∧
    (∀ g e, let x := s.group g
      let m := s.team x.team
      (∀ l, m.launch = some l → writerOf s g e = ⟨.grp g, 2, [(s.launch l).lseq, m.t * m.ngroups + x.idx, e], m.ctx⟩) ∧
      (∀ q pop, m.launch = none → m.task = some (q, pop) → writerOf s g e = ⟨.grp g, 1, [pop, q, x.idx, e], m.ctx⟩)) ∧
    (∀ k sync extra va val, ∃ r, (writeWord s v k sync extra va word val).1.writes = s.writes ++ [r] ∧ r.word = word ∧ r.va = va ∧ r.val = val ∧
      r.ctx = k.ctx ∧ r.party = k.party ∧ r.cls = k.cls ∧ r.idx = k.idx ++ [s.writes.length] ∧ r.sync = sync ∧
      ∀ n, n ∈ r.prec ↔ n ∈ v.know ∨ n ∈ extra)

-- Events of a group and of a team -------------------------------------------------------------------------------------------------

/-- R137, R139, R143, R355, R135, R353: a fetch fills the buffer with the words at the issue address and whole instructions after them, to 64 bytes;
a word that fails is IFAULT with its address, and one marked as poison is consumed; a line of code that carries a mark is logged when it arrives,
and so is a mark that only the core's copy has, whose words are fetched again; a code word is the newest of the writes behind which the release and
the acquire stand, or for each later write it may be the value from before it (R141); a breakpoint at the issue address is BRKPT with its number,
before the fetch; an undecodable word is ILL with its words, and no other word is; WDOG at a boundary enters the handler with the live lanes and the
budget. The model's choices: ILEN of BRKPT and of IFAULT, and the PC of a WDOG whose lanes are all parked (log 11); that a TLBINV completes before
WDOG is taken (log 23); the free choice between old and new (log 8). An instruction's bytes come from a page that allows execution, found below 2^57
by the page tables alone, whatever the heap window says (R137, R224); further lines fill the buffer with whole instructions until one does not fit
or fails. Where PCV fails parity, each of these reads of it consumes poison (R370). A fetch whose walk meets poison ends as one of a marked word,
and that is the model's choice (log 65). -/
def Obligations.FetchAndTrapEvents : Prop :=
  (∀ (s : State) g ahead a n w0 l e, InTurn s g → (s.group g).wait = .none → (s.group g).issueAddr = some a → (s.group g).pcvBad = true →
    let poisoned := Host.Outcome.next (consume s g 0x18 (2 ^ 63 + Config.physRow 4 0))
    exec (.fetch g ahead) s = poisoned ∧ (s.breakpoint g = some n → exec (.breakpoint g) s = poisoned) ∧
    (s.breakpoint g = none → wordsIn ((s.group g).fetched a) = w0 :: l → decode (w0 :: l) = .error e →
      exec (.illegalInstructionTrap g (lenWords w0) w0.toNat (l.headD 0).toNat) s = poisoned)) ∧
  (∀ (s : State) g enters va v r,
    let t := (s.group g).team
    checkAccess s { ctx := (s.team t).ctx, team := some t, heap := none, need := .fetch, va, n := 4 } = (v, r) → va % 4 = 0 →
    (∀ p, r = .ok [p] →
      let n := lenWords (wordNow v p.pa)
      va % 2 ^ p.sh + 4 * n ≤ 2 ^ p.sh → (∀ k, k < n → poisonIn v (p.pa + 4 * k) 4 = none ∧ writesTo v (p.pa + 4 * k) = []) →
      (codeInstr s g enters va).2 = .ok ((List.range n).map fun k => wordNow v (p.pa + 4 * k))) ∧
    (∀ kind page, r = .error (kind, page) → kind ≠ 0x10 → codeInstr s g enters va = (v, .error (va, false))) ∧
    (∀ page, r = .error (0x10, page) → codeInstr s g enters va = ({ v with dev := { v.dev with errlog := v.dev.errlog ++
      [{ ctx := (v.team (v.group g).team).ctx, what := 0x05, addr := va, tag := (v.team (v.group g).team).tag }] } }, .error (va, true)))) ∧
  (∀ (s : State) g enters va u ws, codeInstr s g enters va = (u, .ok ws) → (∃ w0, ws.head? = some w0 ∧ ws.length = lenWords w0) ∧
    ∀ k, k < ws.length → ∃ j x y ask e, j ≤ k ∧ va + 4 * j < 2 ^ 57 ∧ codeXlat x (s.group g).team ask (va + 4 * j) = (y, .ok e) ∧ e.x = true ∧
      (va + 4 * j) / 2 ^ e.sh = (va + 4 * k) / 2 ^ e.sh) ∧
  (∀ (s : State) g n enters va buf u r, codeInstr s g enters va = (u, r) →
    fillAhead s g 0 enters va buf = (s, buf) ∧
    (∀ ws, r = .ok ws → buf.length + 4 * ws.length ≤ 64 →
      fillAhead s g (n + 1) enters va buf = fillAhead u g n false (va + 4 * ws.length) (buf ++ ws.flatMap fun w => toBytes 4 w.toNat)) ∧
    (∀ ws, r = .ok ws → 64 < buf.length + 4 * ws.length → fillAhead s g (n + 1) enters va buf = (u, buf)) ∧
    (∀ x, r = .error x → fillAhead s g (n + 1) enters va buf = (u, buf))) ∧
  (∀ (s : State) g ahead a, InTurn s g → (s.group g).wait = .none → s.breakpoint g = none → (s.group g).issueAddr = some a →
    (s.group g).pcvBad = false →
    let held := (s.group g).fetched a
    (held ≠ [] → ∃ t, exec (.fetch g ahead) s = .next t ∧ (t.group g).buf = (fillAhead s g ahead true (a + held.length) held).2 ∧ (t.group g).bufAt = a) ∧
    (∀ u ws, held = [] → codeInstr s g true a = (u, .ok ws) → ∃ t, exec (.fetch g ahead) s = .next t ∧
      (t.group g).buf = (fillAhead u g ahead false (a + 4 * ws.length) (ws.flatMap fun w => toBytes 4 w.toNat)).2)) ∧
  (∀ (s : State) g ahead a u ws, InTurn s g → (s.group g).wait = .none → s.breakpoint g = none → (s.group g).issueAddr = some a →
    (s.group g).pcvBad = false →
    (s.group g).fetched a = [] → codeInstr s g true a = (u, .ok ws) → ∃ t more, exec (.fetch g ahead) s = .next t ∧
      t.group g = { s.group g with buf := (ws.flatMap fun w => toBytes 4 w.toNat) ++ more, bufAt := a } ∧
      (more = [] ∨ (t.group g).buf.length ≤ 64) ∧
      (ahead = 0 → more = [] ∧ t = u.setGroup g { s.group g with buf := ws.flatMap fun w => toBytes 4 w.toNat, bufAt := a }) ∧
      GroupsKept s t g ∧ StoreKept s t ∧ WorkKept { s with groups := t.groups } t ∧ t.rels = s.rels) ∧
  (∀ (s : State) g ahead a u va, InTurn s g → (s.group g).wait = .none → s.breakpoint g = none → (s.group g).issueAddr = some a →
    (s.group g).pcvBad = false → (s.group g).fetched a = [] →
    (codeInstr s g true a = (u, .error (va, false)) →
      exec (.fetch g ahead) s = .next (enterTrap u g ⟨0x04, (s.group g).lanesAt a, wd va⟩ (lengthAt u g a) false a)) ∧
    (codeInstr s g true a = (u, .error (va, true)) → exec (.fetch g ahead) s = .next (consume u g 0x05 va))) ∧
  (∀ (s : State) g enters (p : Piece) u w, codeThere s g enters p = (u, w) →
    let team := s.team (s.group g).team
    let bad := fun k => poisonIn s (p.pa / 128 * 128 + 4 * k) 4 ≠ none
    (∀ k, (enters = true ∨ p.va % 128 = 0) → k < 32 → bad k → (∀ j, j < k → ¬ bad j) → u.dev = { s.dev with
      errlog := s.dev.errlog ++ [{ ctx := team.ctx, what := 0x05, addr := p.va / 128 * 128 + 4 * k, tag := team.tag }] }) ∧
    ((enters = false ∧ p.va % 128 ≠ 0 ∨ ∀ k, k < 32 → ¬ bad k) → u.dev = s.dev) ∧
    (poisonIn s p.pa 4 ≠ none → w = .poison) ∧
    (poisonIn s p.pa 4 = none → ∃ v, w = .word v ∧
      ((∀ i r, (i, r) ∈ writesTo s p.pa → i ∈ (s.group g).view.code) → v = wordNow s p.pa) ∧
      (v = wordNow s p.pa ∨ ∃ i r, (i, r) ∈ writesTo s p.pa ∧ v = r.old ∧
        ∀ j q, (j, q) ∈ writesTo s p.pa → i ≤ j → j ∉ (s.group g).view.code))) ∧
  (∀ (s : State) g va rest, s.agenda = .badCode g va :: rest → g < s.groups.length → (s.group g).ended = false →
    let x := s.group g
    let team := s.team x.team
    let t : State := { s with agenda := rest, dev := { s.dev with
      errlog := s.dev.errlog ++ [{ ctx := team.ctx, what := 0x05, addr := va, tag := team.tag }] } }
    x.buf.length ≤ 64 → ∃ n, step s = .next (t.setGroup g { x with buf := x.buf.take n }) ∧ (x.bufAt ≤ va → n ≤ va - x.bufAt ∨ x.buf.length ≤ va - x.bufAt) ∧ (va < x.bufAt → x.buf.length ≤ n)) ∧
  (∀ (s : State) i g ahead a n, (i = .breakpoint g ∨ i = .fetch g ahead) → InTurn s g → (s.group g).wait = .none → (s.group g).inh = false →
    (s.group g).issueAddr = some a → (s.group g).pcvBad = false → (s.group g).skipBrk ≠ some a → n < 4 →
    let matches_ := fun m => let w := getAt 0 (s.team (s.group g).team).brk m; wfield w 0 1 = 1 ∧ wfield w 2 55 * 4 = a
    matches_ n → (∀ m, m < n → ¬ matches_ m) →
    exec i s = .next (enterTrap s g ⟨0x17, (s.group g).lanesAt a, wd n⟩ (lengthAt s g a) false a)) ∧
  (∀ (s : State) g a w0 l e, InTurn s g → (s.group g).wait = .none → s.breakpoint g = none → (s.group g).issueAddr = some a →
    (s.group g).pcvBad = false → wordsIn ((s.group g).fetched a) = w0 :: l → decode (w0 :: l) = .error e →
    let n0 := w0.toNat
    let n1 := (l.headD 0).toNat
    exec (.illegalInstructionTrap g (lenWords w0) n0 n1) s = .next (enterTrap s g
      ⟨0x01, (s.group g).lanesAt a, wd (if n0 % 4 = 1 ∨ n0 % 4 = 2 then n0 + n1 * 2 ^ 32 else n0)⟩ (lenWords w0) false a)) ∧
  (∀ (s : State) g a i ilen n0 n1, (s.group g).issueAddr = some a → decode (wordsIn ((s.group g).fetched a)) = .ok i →
    exec (.illegalInstructionTrap g ilen n0 n1) s = .next s) ∧
  (∀ (s : State) g, InTurn s g → (s.group g).wdog = true → (s.group g).inh = false → (s.group g).wait ≠ .mwait → (s.group g).wait ≠ .contrib →
    (s.group g).wait ≠ .second → (s.group g).wait ≠ .lanes → (s.group g).wait ≠ .rows → (s.group g).inSecond = false →
    (∀ n, (s.group g).wait ≠ .shoot n) → (s.group g).pcvBad = false → (∀ r ∈ (s.group g).vbad, ∀ n, r.1 ≠ .j n) →
    wfield (s.team (s.group g).team).vec 0 1 = 1 → Memory.wf s.mem = true → ∃ t, exec (.trapEntry g) s = .next t ∧
      HandlerEntered (s.group g) (t.group g) (4 * wfield (s.team (s.group g).team).vec 2 55)
        ⟨0x10, (s.group g).live, wd (s.team (s.group g).team).budget⟩ 0 false ((s.group g).issueAddr.getD 0) ∧
      (t.group g).wdog = false ∧ GroupsKept s t g ∧ t.writes = s.writes ∧ MemKept s t g) ∧
  (∀ (s : State) g n, (s.group g).wait = .shoot n → exec (.trapEntry g) s = .next s)

/-- R349, R354, R357, R358, R371, R373: a kill ends a team and counts it, one of a task logs the cause's 8-bit code; the watchdog raises WDOG at
BUDGET or kills without a handler, kills at twice BUDGET; a consumption of poison kills every team of the context with the tag and marks its
launches, and a strike changes no value. After a fatal error nothing of it happens (R391). The model's choices: a report of a strike leaves the state
as it was (log 48), and a group at twice BUDGET or more is killed (log 23). -/
def Obligations.KillAndWatchdogEvents : Prop :=
  (∀ (s : State) team cause info, s.dev.status ≠ 7 → team < s.teams.length → (s.team team).place.over = false → 0 < cause % 0x100 →
    cause % 0x100 ≤ 0x1A → cause < 0x200 → info < 2 ^ 64 → ∃ t, exec (.teamKill team cause info) s = .next t ∧ TeamKilled s t team cause info ∧
      ((s.team team).launch = none → (s.team team).task ≠ none → ∃ l m, t.dev.errlog = s.dev.errlog ++ l ++
        { ctx := (s.team team).ctx, what := cause % 0x100, addr := info, tag := (s.team team).tag } :: m)) ∧
  (∀ (s : State) g cause info, s.dev.status ≠ 7 → g < s.groups.length → (s.group g).ended = false → (cause = 0x05 ∨ cause = 0x18) →
    let x := s.team (s.group g).team
    ∃ t, exec (.poisonPurge g cause info) s = .next t ∧
      (∀ k, k < s.teams.length → (s.team k).ctx = x.ctx → (s.team k).tag = x.tag → (t.team k).place.over = true) ∧
      (∀ l, l < s.launches.length → (s.launch l).ctx = x.ctx → (s.launch l).tag = x.tag → (s.launch l).retired = false →
        (t.launch l).purged = true ∧ ∀ n, n < (s.launch l).teams → n ∈ (t.launch l).gone) ∧
      (∃ more, t.dev.errlog = s.dev.errlog ++ { ctx := x.ctx, what := cause, addr := info, tag := x.tag } :: more) ∧
      (t.ctx x.ctx).signals.getLsbD 3 = true) ∧
  (∀ (s : State) team, s.dev.status ≠ 7 → team < s.teams.length → (s.team team).place.onCore = true → (s.team team).budget ≠ 0 →
    (s.team team).wdog.toNat = (s.team team).budget → (s.team team).fired = false →
    (wfield (s.team team).vec 0 1 = 1 → ∃ t, exec (.wdogBudget team) s = .next t ∧
      (∀ g, t.group g = if g ∈ (s.team team).groups ∧ (s.group g).ended = false then { s.group g with wdog := true } else s.group g) ∧
      (t.team team).fired = true ∧ StoreKept s t ∧ t.launches = s.launches) ∧
    (wfield (s.team team).vec 0 1 = 0 → ∃ t, exec (.wdogBudget team) s = .next t ∧
      TeamKilled s t team 0x10 (wd (s.team team).budget).toNat)) ∧
  (∀ (s : State) team, s.dev.status ≠ 7 → team < s.teams.length → (s.team team).place.onCore = true → (s.team team).budget ≠ 0 →
    2 * (s.team team).budget ≤ (s.team team).wdog.toNat → ∃ t, exec (.wdogKill team) s = .next t ∧
      TeamKilled s t team 0x10 (wd (s.team team).budget).toNat) ∧
  (∀ (s : State) core, exec (.strikeReport core) s = .next s) ∧
  (∀ (s : State) team g cause info, s.dev.status = 7 → exec (.teamKill team cause info) s = .next s ∧ exec (.poisonPurge g cause info) s = .next s ∧
    exec (.wdogBudget team) s = .next s ∧ exec (.wdogKill team) s = .next s)

/-- R69, R75, R79 to R84, R87, R88, R91: a doorbell of a submitting queue makes the command unit learn WIDX and the host's release precede the
queue's cards; one restarts a stopped queue, host or posted, whose error word is clear, and does no more to a posted one; and one that is ignored
changes no queue. A descriptor is kept, and an unsound one stops the queue with its error word (of several errors, 0x12 comes before 0x11 and
0x10: the model's choice, log 29). The card at RIDX is accepted, or rejected with the first reason of Table 3.13 that holds, which its completion
record or the queue's error word then carries (the record's words that Table 3.12 gives no value for are zero: log 59); RIDX advances. An accepted
card's producers, board reservations, and the fallback path where the board has no room for the entries to be made; when a team is eligible and when
stale; the work that a pass picks, no waiting work coming before it by R83; and a dealing pass deals a chunk of the eligible teams of the launch it
picks, in ascending order, to a cluster. The model's choices also: LSEQ counts from 0 (log 34); a binding whose range covers the gate word of a region
already live passes R71, so that cardReason answers 0 where nothing else is wrong (log 60, read from R71's words and unsafe); the release by the host
that a doorbell stands for, the count of what is posted and the doorbell that is ignored (log 45); and the order in which a pass takes clusters,
launches and equal candidates (log 43, log 32). -/
def Obligations.DoorbellCardAndDealing : Prop :=
  (∀ (s : State) c v u b, s.dev.status = 3 → (s.ctx c).wen = true →
    let q := v.toNat % 256
    let d := subQueue (wordsOf b)
    cuRead s c ((s.ctx c).subDesc q) 64 = (u, .ok b) →
    (d.qen = true → (d.post = true → q ∈ (s.ctx c).stopped) → (q ∈ (s.ctx c).stopped → d.err = false) →
      4 ≤ d.log2 → d.log2 ≤ 20 → d.base % 4096 = 0 → d.ridx ≤ d.widx → d.widx ≤ d.ridx + 2 ^ d.log2 →
      ∃ t, exec (.doorbell c v) s = .next t ∧ (t.ctx c).widx.find? (fun p => p.1 == q) = some (q, d.widx) ∧
        (t.ctx c).queues.find? (fun p => p.1 == q) = some (q, wordsOf b) ∧ (t.ctx c).stopped = (s.ctx c).stopped.filter (· != q) ∧
        (d.post = false → (t.ctx c).doorRels.find? (fun p => p.1 == q) = some (q, s.rels.length) ∧
          ∃ r : Release, t.rels = s.rels ++ [r] ∧ r.party = .host ∧ r.scope = .system ∧ r.acts = .every ∧ r.know = s.hostView.know) ∧
        (d.post = true → (t.ctx c).doorRels = (s.ctx c).doorRels ∧ t.rels = s.rels) ∧ StoreKept s t ∧ WorkKept s t) ∧
    (d.qen = false ∨ (q ∉ (s.ctx c).stopped ∧ d.post = true) → exec (.doorbell c v) s = .next u) ∧
    (d.qen = true → q ∈ (s.ctx c).stopped → d.err = true → ∃ t, exec (.doorbell c v) s = .next t ∧ q ∈ (t.ctx c).stopped ∧
      (t.ctx c).queues.find? (fun p => p.1 == q) = some (q, wordsOf b) ∧ (t.ctx c).doorRels = (s.ctx c).doorRels ∧ t.rels = s.rels ∧
      StoreKept s t ∧ WorkKept s t ∧ (4 ≤ d.log2 → d.log2 ≤ 20 → d.ridx ≤ d.widx → d.widx ≤ d.ridx + 2 ^ d.log2 →
        (t.ctx c).widx.find? (fun p => p.1 == q) = some (q, d.widx)))) ∧
  (∀ (s : State) c v pa, s.dev.status = 3 → (s.ctx c).wen = true →
    let q := v.toNat % 256
    let d := subQueue (wordsOf (memRead s.mem pa 64))
    let bad := d.log2 < 4 ∨ 20 < d.log2 ∨ d.base % 4096 ≠ 0
    InCtxWindow s c ((s.ctx c).subDesc q) 64 pa → pa % 4 = 0 → d.qen = true → (d.post = true → q ∈ (s.ctx c).stopped) → d.err = false →
    ∀ code epos, (code = 0x12 ∧ epos = 0 ∧ bad) ∨ (code = 0x11 ∧ epos = d.widx ∧ ¬ bad ∧ d.widx < d.ridx) ∨
        (code = 0x10 ∧ epos = d.widx ∧ ¬ bad ∧ d.ridx + 2 ^ d.log2 < d.widx) →
      ∃ t l, exec (.doorbell c v) s = .next t ∧ q ∈ (t.ctx c).stopped ∧ t.writes = s.writes ++ l ∧
        Wrote l [(pa + 32, 2 ^ 63 + code * 2 ^ 56 + epos)] ∧
        (t.ctx c).queues.find? (fun p => p.1 == q) = some (q, wordsOf (memRead s.mem pa 64)) ∧ WorkKept s t) ∧
  (∀ (s : State) c q w u card, s.dev.status = 3 → (s.ctx c).wen = true → q ∉ (s.ctx c).stopped →
    (s.ctx c).queues.find? (fun p => p.1 == q) = some (q, w) →
    let d := subQueue w
    d.ridx < d.widx → cuRead s c (d.base + 256 * (d.ridx % 2 ^ d.log2)) 256 = (u, .ok card) →
    let n := s.launches.length
    let reason := cardReason u (newLaunch u c q d.ridx d.post (wordsOf card))
    ∃ t, exec (.cardAccept c q) s = .next t ∧ t.launches.length = n + 1 ∧ (t.launch n).card = wordsOf card ∧ (t.launch n).ctx = c ∧
      (t.launch n).queue = q ∧ (t.launch n).pos = d.ridx ∧ (t.launch n).lseq = (s.ctx c).lseq ∧ (t.ctx c).lseq = (s.ctx c).lseq + 1 ∧
      ((t.launch n).retired = true ↔ reason ≠ 0) ∧
      (t.ctx c).regions = (s.ctx c).regions ++ (if reason ≠ 0 then [] else (cardBindings (wordsOf card)).map fun b =>
        { owner := some n, base := b.base, len := b.len, wr := b.wr, gate := b.gate }) ∧
      (∃ w', (t.ctx c).queues.find? (fun p => p.1 == q) = some (q, w') ∧ (subQueue w').ridx = (d.ridx + 1) % 2 ^ 48 ∧
        (subQueue w').widx = d.widx ∧ (subQueue w').base = d.base ∧ (subQueue w').log2 = d.log2) ∧
      (∀ da, InCtxWindow s c ((s.ctx c).subDesc q) 64 da → da % 4 = 0 →
        let k := fun (i : Nat) => getAt 0 (wordsOf card) i
        let crec := wfield (k 5) 0 57
        let moved := [(da + 24, (d.ridx + 1) % 2 ^ 48)]
        let desc := (s.ctx c).subDesc q
        (reason = 0 → (∀ b ∈ cardBindings (wordsOf card), b.wr = true ∨ b.base + b.len ≤ desc + 24 ∨ desc + 32 ≤ b.base) →
          ∃ new, t.writes = s.writes ++ new ∧ Wrote new moved) ∧
        (reason ≠ 0 → crec ≠ 0 → crec % 64 = 0 → ∀ pa, InCtxWindow s c crec 64 pa → pa % 4 = 0 → (∃ new, t.writes = s.writes ++ new ∧
            Wrote new ([(pa + 8, (s.ctx c).lseq)] ++ wordsAt (pa + 16) 6 (fun _ => 0) ++
              [(pa, wfield (k 2) 48 16 * 2 ^ 32 + (if wfield (k 2) 43 1 = 1 then 2 ^ 17 else 0) + reason * 2 ^ 8 + 3)] ++ moved)) ∧
          (d.post = false → (t.ctx c).signals.getLsbD 0 = true)) ∧
        (reason ≠ 0 → crec = 0 ∨ crec % 64 ≠ 0 → memNat s.mem (da + 32) 8 / 2 ^ 63 = 0 → ∃ new, t.writes = s.writes ++ new ∧
          Wrote new ([(da + 32, 2 ^ 63 + 0x13 * 2 ^ 56 + reason * 2 ^ 48 + d.ridx)] ++ moved))) ∧
      t.teams = s.teams ∧ t.groups = s.groups ∧ ∀ l, l < n → t.launch l = s.launch l) ∧
  (∀ (s : State) (x : Launch),
    let w := fun (k : Nat) => getAt 0 x.card k
    let teams := wfield (w 2) 0 32
    let groups := wfield (w 2) 32 5
    let crew := wfield (w 2) 37 3
    let vregs := wfield (w 3) 0 9
    let spad := wfield (w 3) 16 10
    let trows := wfield (w 3) 32 11
    let fits := fun (k n : Nat) => n = 0 ∨ (s.core k).usable = true ∧ n ≤ 4 ∧ n * groups ≤ 32 ∧ n * groups * vregs ≤ 1024 ∧
      n * ((spad + 3) / 4) ≤ (s.core k).spadCap ∧ n * ((trows + 15) / 16) ≤ (s.core k).tileCap
    let holds := ∃ cl, cl < 64 ∧ (s.ctx x.ctx).part.getLsbD cl = true ∧ ∃ n0 n1 n2 n3, fits (4 * cl) n0 ∧ fits (4 * cl + 1) n1 ∧
      fits (4 * cl + 2) n2 ∧ fits (4 * cl + 3) n3 ∧ crew ≤ n0 + n1 + n2 + n3
    let bs := cardBindings x.card
    let live := (s.ctx x.ctx).regions
    let inside := fun (gate base len : Nat) => base < gate + 8 ∧ gate < base + len
    let clash := fun (b : Binding) (base len : Nat) => (b.base < base + len ∧ base < b.base + b.len) ∨ inside b.gate base len
    let badBindings := 64 < live.length + bs.length ∨ ∃ (i : Nat) (b : Binding), bs[i]? = some b ∧ (b.base % 128 ≠ 0 ∨ b.len = 0 ∨ b.len % 128 ≠ 0 ∨ b.gate % 8 ≠ 0 ∨
      inside b.gate b.base b.len ∨ (∃ r ∈ live, clash b r.base r.len) ∨ ∃ (j : Nat) (y : Binding), j ≠ i ∧ bs[j]? = some y ∧ clash b y.base y.len)
    let fromTile := fun (d : PegDecl) (t : Nat) => (d.base : Int) + fdiv ((t : Int) * d.mul) ((2 ^ d.sh : Nat) : Int)
    let badPegs := (∃ d ∈ pegDecls x.card, ∃ t ∈ [0, teams - 1], fromTile d t < 0 ∨ 2 ^ 24 ≤ fromTile d t + d.cnt) ∨
      ∃ o ∈ pegOuts x.card, 2 ^ 24 ≤ o.base + o.cnt
    let conds : List Prop := [teams = 0, groups = 0 ∨ 16 < groups ∨ crew = 0 ∨ 4 < crew, teams % crew ≠ 0,
      vregs = 0 ∨ 256 < vregs ∨ 1024 < groups * vregs ∨ 512 < spad ∨ 1024 < trows ∨ ¬ holds,
      wfield (w 0) 0 2 ≠ 0 ∨ wfield (w 1) 0 6 ≠ 0 ∨ wfield (w 5) 0 57 % 64 ≠ 0, badBindings, badPegs,
      ∃ n, n < 4 ∧ wfield (w (18 + n)) 63 1 = 1 ∧ wfield (w (18 + n)) 48 8 = x.queue ∧ x.pos ≤ wfield (w (18 + n)) 0 48,
      wfield (w 3) 48 6 ≠ x.ctx]
    (∀ k, k < 9 → getAt False conds k → (∀ j, j < k → ¬ getAt False conds j) → cardReason s x = k + 1) ∧
    ((∀ k, k < 9 → ¬ getAt False conds k) → cardReason s x = 0)) ∧
  (∀ (s : State) (x : Launch) (l : Nat),
    let open_ := fun (m : Nat) => m < s.launches.length ∧ (s.launch m).ctx = x.ctx ∧ (s.launch m).retired = false
    let waitsOn := fun (m q pos : Nat) => (q, pos) ∈ cardDeps (s.launch m).card
    let closed := fun (W : List Nat) => ∀ m, open_ m → (waitsOn m x.queue x.pos ∨
      ∃ k ∈ W, waitsOn m (s.launch k).queue (s.launch k).pos ∨ k ∈ (s.launch m).prods) → m ∈ W
    l ∈ producers s x ↔ open_ l ∧ (∃ o ∈ pegOuts (s.launch l).card, ∃ d ∈ pegDecls x.card,
      o.base ≤ (d.span x.teams).2 ∧ (d.span x.teams).1 ≤ o.base + o.cnt) ∧ ∃ W, closed W ∧ l ∉ W) ∧
  (∀ (s : State) (x : Launch), x.fallback = false → x.metTiles = [] →
    let r := reserve s x
    let spanned := fun (n : Nat) => ∃ d ∈ pegDecls x.card, (d.span x.teams).1 ≤ n ∧ n ≤ (d.span x.teams).2
    let covered := fun (n : Nat) => ∃ l ∈ x.prods, ∃ o ∈ pegOuts (s.launch l).card, o.base ≤ n ∧ n ≤ o.base + o.cnt
    let makes := fun (n : Nat) => spanned n ∧ pegAt s x.ctx n = none ∧ covered n
    let kept := s.pegs.filter fun p => p.count != 0 || (p.ctx == x.ctx &&
      (pegDecls x.card).any fun d => (d.span x.teams).1 ≤ p.tile && p.tile ≤ (d.span x.teams).2)
    (r.2.fallback = true ↔ ∃ l : List Nat, l.Nodup ∧ (∀ n ∈ l, makes n) ∧ 65536 - kept.length < l.length) ∧
    (r.2.fallback = true → r = (s, { x with fallback := true })) ∧
    (r.2.fallback = false → ∀ n, spanned n →
      (∀ p, pegAt s x.ctx n = some p → n ∈ r.2.held ∧ ∃ q, pegAt r.1 x.ctx n = some q ∧ q.count = p.count + 1 ∧ q.gen = p.gen ∧ q.set = p.set) ∧
      (pegAt s x.ctx n = none → covered n → n ∈ r.2.held ∧ ∃ q, pegAt r.1 x.ctx n = some q ∧ q.count = 1 ∧ q.set = false) ∧
      (n ∈ r.2.metTiles ↔ pegAt s x.ctx n = none ∧ ¬ covered n))) ∧
  (∀ (s : State) (l t : Nat),
    let x := s.launch l
    let tileMet := fun (n gen : Nat) => n ∈ x.metTiles ∨ ∃ p, pegAt s x.ctx n = some p ∧ p.set = true ∧ gdiff gen p.gen = 0
    let met := fun (t : Nat) => if x.fallback then ∀ m ∈ x.prods, (s.launch m).retired = true else ∀ p ∈ teamTiles x t, tileMet p.1 p.2
    let free := fun (t : Nat) => t < x.teams ∧ t ∉ x.gone
    t ∈ eligible s l ↔ x.retired = false ∧ (∀ p ∈ cardDeps x.card, ∃ m, cardAt s x.ctx p.1 p.2 = some m ∧ (s.launch m).retired = true) ∧
      free t ∧ if x.crew ≤ 1 then met t else ∀ u, t / x.crew * x.crew ≤ u → u < t / x.crew * x.crew + x.crew → free u ∧ met u) ∧
  (∀ (s : State) (l : Nat), (eligible s l).Pairwise (· < ·)) ∧
  (∀ (s : State) (c : Nat) (f : Fit) (crew k : Nat),
    let fits := fun (m n : Nat) => n = 0 ∨ n ≤ 4 ∧ (roomNow s m).holds f n = true
    let cl := k / 4
    k ∈ eligibleCores s c f crew ↔ cl < 64 ∧ (s.ctx c).part.getLsbD cl = true ∧ fits k 1 ∧
      ∃ n0 n1 n2 n3, fits (4 * cl) n0 ∧ fits (4 * cl + 1) n1 ∧ fits (4 * cl + 2) n2 ∧ fits (4 * cl + 3) n3 ∧ crew ≤ n0 + n1 + n2 + n3) ∧
  (∀ (s : State) (c q p : Nat),
    let saved := fun (t : Nat) => t < s.teams.length ∧ (s.team t).ctx = c ∧ (s.team t).place.saved? = true ∧
      (∃ n, (s.team t).task = some (q, n)) ∧ restoreCores s t ≠ []
    let toPop := ∃ d, (s.ctx c).wen = true ∧ (s.ctx c).runs = true ∧ peek s c ((s.ctx c).taskDesc q) 64 = some d ∧
      wfield (getAt 0 d 1) 63 1 = 1 ∧ getAt 0 d 2 ≠ getAt 0 d 3 ∧ (256 + q ∈ (s.ctx c).stopped → wfield (getAt 0 d 4) 63 1 = 0) ∧
      let rec_ := (peek s c (wfield (getAt 0 d 0) 0 57 + 128 * ((getAt 0 d 3).toNat % 2 ^ wfield (getAt 0 d 1) 0 5)) 128).getD []
      eligibleCores s c (taskFit d rec_) 1 ≠ [] ∧ p = wfield (getAt 0 d 1) 43 3
    taskWaiting s c q = some p ↔ (∃ t, saved t ∧ p = (s.team t).prio ∧ ∀ u, saved u → t ≤ u) ∨ (∀ t, ¬ saved t) ∧ toPop) ∧
  (∀ (s : State),
    let restores := fun (l : Nat) => ∃ t, t < s.teams.length ∧ (s.team t).launch = some l ∧ (s.team t).place.saved? = true ∧ restoreCores s t ≠ []
    let waits : Work → Nat → Nat → Nat → Prop := fun w prio kind age => match w with
      | .task c q => c < 64 ∧ q < 8 ∧ taskWaiting s c q = some prio ∧ kind = 0 ∧ age = q
      | .launch l => let x := s.launch l
        l < s.launches.length ∧ (s.ctx x.ctx).runs = true ∧ x.retired = false ∧
        (restores l ∨ (eligibleCores s x.ctx x.fit x.crew ≠ [] ∧ eligible s l ≠ [])) ∧ prio = x.prio ∧ kind = 1 ∧ age = x.lseq
    (∀ w, bestWork s = some w → ∃ p k a, waits w p k a ∧ ∀ w' p' k' a', waits w' p' k' a' → ¬ (p < p' ∨ p = p' ∧ (k' < k ∨ k' = k ∧ a' < a))) ∧
    (bestWork s = none ↔ ∀ w p k a, ¬ waits w p k a)) ∧
  (∀ (s : State) (l : Nat), (s.launch l).retired = false → (s.launch l).fallback = false → 1 ≤ (s.launch l).crew →
    let x := s.launch l
    let stale := fun (t : Nat) => ∃ p ∈ teamTiles x t, p.1 ∉ x.metTiles ∧ ∃ e, pegAt s x.ctx p.1 = some e ∧ e.set = true ∧ gdiff p.2 e.gen < 0
    ∀ t, t ∈ ((killStale s l).launch l).gone ↔ t ∈ x.gone ∨ ∃ v, v < x.teams ∧ v ∉ x.gone ∧ stale v ∧ v / x.crew = t / x.crew) ∧
  (∀ (s : State) cluster l, s.deals = true →
    let u := (List.range s.launches.length).foldl killStale s
    let x := u.launch l
    let cores := eligibleCores u x.ctx x.fit x.crew
    let able := eligible u l
    let dealt := able.take (ncdiv (max 1 (ncdiv able.length (2 * cores.length))) x.crew * x.crew)
    bestWork u = some (.launch l) → launchRestores u l = false → (∃ k ∈ cores, k / 4 = cluster) →
    ∃ t, exec (.dealingPass cluster) s = .next t ∧ t.teams.length = s.teams.length + dealt.length ∧
      (t.launch l).gone = x.gone ++ dealt ∧
      (∀ k, k < dealt.length → let y := t.team (s.teams.length + k)
        y.place = .dealt cluster ∧ y.launch = some l ∧ y.t = getAt 0 dealt k ∧ y.ctx = x.ctx ∧ y.groups = [] ∧ y.entry = wfield (x.w 0) 0 57 ∧
        y.ngroups = x.ngroups ∧ y.vregs = wfield (x.w 3) 0 9 ∧ y.spadKiB = wfield (x.w 3) 16 10 ∧ y.trows = wfield (x.w 3) 32 11 ∧
        (y.det = true ↔ wfield (x.w 2) 43 1 = 1) ∧ y.budget = (x.w 4).toNat ∧ y.prio = wfield (x.w 2) 40 3 ∧ y.tag = wfield (x.w 2) 48 16 ∧
        y.crew = x.crew ∧ y.spad = [] ∧ y.fbits = [] ∧ y.tile = [] ∧
        (x.fallback = true → y.tokens = []) ∧ (x.fallback = false → ∀ n, n ∈ y.tokens ↔ ∃ p ∈ teamTiles x y.t, p.1 ∉ x.metTiles ∧
          ∃ e, pegAt u x.ctx p.1 = some e ∧ n ∈ e.rels)) ∧
      (∀ k, k < s.teams.length → t.team k = s.team k) ∧ t.groups = s.groups ∧ StoreKept s t)

/-- R68, R94, R95, R106, R114, R115, R223, R313, R351: a dealt team starts on a core of its cluster with its argument record in S0 to S7, and so
does every member of a crew, each on its core of the one cluster; a task starts with its record's arguments in S0 to S7 and its pointer in S60, and
with its descriptor's DET, budget and resources; an illegal record is discarded with 0x20 and no join; each group starts with every lane at the
entry, its bound granted and no other register set; the team latches the heap window, the handler and the breakpoints; what the doorbells of its
launch's queue released precedes a group's first event and has reached it; and the pop advances TAIL. The checks of the descriptor's resources are
made at its first pop alone, with one group (log 35). That an argument record which cannot be read kills that team alone is the model's choice (log
43). -/
def Obligations.DispatchAndTaskPop : Prop :=
  let startedAt : State → State → Nat → Nat → Nat → Nat → List Word → Prop := fun s t team k first ngroups sregs =>
    let y := t.team team
    let c := s.ctx y.ctx
    y.place = .resident ∧ y.core = k ∧ y.heap = (c.heapbase, c.heaplen, c.heapoff) ∧ y.vec = c.trapvec ∧ y.brk = c.brk ∧
    y.groups = (List.range ngroups).map (first + ·) ∧
    ∀ i, i < ngroups → let x := t.group (first + i)
      x.team = team ∧ x.idx = i ∧ x.core = k ∧ x.ended = false ∧ x.lanes = List.replicate 32 { pc := y.entry } ∧ x.v = [] ∧ x.s = sregs ∧
      x.p = [] ∧ x.j = [] ∧ x.flags = 0 ∧ x.vbound = y.vregs ∧ x.vres = y.vregs ∧ x.log = [] ∧ x.wait = .none ∧ x.inh = false ∧ x.buf = [] ∧
      x.vbad = [] ∧ x.pcvBad = false ∧ x.watch = none
  let grew : State → State → Nat → Prop := fun s t n => t.groups.length = s.groups.length + n ∧
    ∀ g, g < s.groups.length → ∃ b, t.group g = { s.group g with vbase := b }
  let started : State → State → Nat → Nat → Nat → List Word → Prop := fun s t team k ngroups sregs =>
    startedAt s t team k s.groups.length ngroups sregs ∧ grew s t ngroups
  (∀ (s : State) (team cl l k : Nat) (u : State) (b : List Byte), s.deals = true → team < s.teams.length →
    let x := s.team team
    x.place = .dealt cl → x.launch = some l → x.crew ≤ 1 → x.groups = [] → (s.ctx x.ctx).runs = true →
    (∀ v, v < s.teams.length → (s.team v).launch = some l → (s.team v).place = .dealt cl → x.t / x.crew ≤ (s.team v).t / (s.team v).crew) →
    k / 4 = cl → 1 ≤ (roomNow s k).most x.fit → (∀ g ∈ (s.core k).held, g < s.groups.length) →
    cuRead s x.ctx (wfield ((s.launch l).w 1) 0 57 + 64 * x.t) 64 = (u, .ok b) →
    ∃ t, exec (.teamDispatch team [k]) s = .next t ∧ started s t team k x.ngroups (wordsOf b) ∧ (t.team team).t = x.t ∧
      (t.team team).det = x.det ∧ (t.team team).budget = x.budget ∧ (t.team team).wdog = x.wdog ∧ (t.team team).spad = x.spad ∧
      (t.team team).entry = x.entry ∧ t.writes = s.writes ∧ t.launches = s.launches ∧
      ∀ (i n : Nat) (r : Release), i < x.ngroups → n ∈ (s.launch l).toks ∨ n ∈ x.tokens → s.rels[n]? = some r → r.scope = .system →
        (∀ m ∈ r.know, m ∈ (t.group (s.groups.length + i)).view.know) ∧
        ∀ m ∈ r.cov, m < s.writes.length → m ∈ (t.group (s.groups.length + i)).view.reached) ∧
  (∀ (s : State) (team cl l k : Nat) (u : State) (kind page : Nat), s.deals = true → team < s.teams.length →
    let x := s.team team
    let va := wfield ((s.launch l).w 1) 0 57 + 64 * x.t
    x.place = .dealt cl → x.launch = some l → x.crew ≤ 1 → (s.ctx x.ctx).runs = true →
    (∀ v, v < s.teams.length → (s.team v).launch = some l → (s.team v).place = .dealt cl → x.t / x.crew ≤ (s.team v).t / (s.team v).crew) →
    k / 4 = cl → 1 ≤ (roomNow s k).most x.fit → cuRead s x.ctx va 64 = (u, .error (kind, page)) →
    exec (.teamDispatch team [k]) s = .next (killTeam u team 0x07 (wd (kind * 2 ^ 60 + va % 2 ^ 57)))) ∧
  (∀ (s : State) (team cl l : Nat) (cores : List Nat), s.deals = true → team < s.teams.length →
    let x := s.team team
    let members := crewTeams s team
    let va := fun (m : Nat) => wfield ((s.launch l).w 1) 0 57 + 64 * (s.team m).t
    x.place = .dealt cl → x.launch = some l → (s.ctx x.ctx).runs = true →
    (∀ v, v < s.teams.length → (s.team v).launch = some l → (s.team v).place = .dealt cl → x.t / x.crew ≤ (s.team v).t / (s.team v).crew) →
    cores.length = members.length →
    (∀ k ∈ cores, k / 4 = cl ∧ cores.count k ≤ (roomNow s k).most x.fit ∧ ∀ g ∈ (s.core k).held, g < s.groups.length) →
    (∀ m ∈ members, (s.team m).place = .dealt cl ∧ (s.team m).groups = [] ∧ ∃ pa, InCtxWindow s (s.team m).ctx (va m) 64 pa ∧
      ∀ a, TraceByte s a → ¬ (pa ≤ a ∧ a < pa + 64)) →
    ∃ t, exec (.teamDispatch team cores) s = .next t ∧ grew s t (members.map fun m => (s.team m).ngroups).sum ∧ t.writes = s.writes ∧
      t.launches = s.launches ∧ ∀ (i m k pa : Nat), members[i]? = some m → cores[i]? = some k → InCtxWindow s (s.team m).ctx (va m) 64 pa →
        startedAt s t m k (s.groups.length + ((members.take i).map fun m => (s.team m).ngroups).sum) (s.team m).ngroups
          (wordsOf (memRead s.mem pa 64)) ∧ (t.team m).entry = (s.team m).entry ∧ (t.team m).t = (s.team m).t) ∧
  (∀ (s : State) (c q k : Nat) (u : State) (b : List Byte) (u2 : State) (r : List Byte), s.deals = true → (s.ctx c).wen = true →
    (s.ctx c).runs = true → q < 8 → cuRead s c ((s.ctx c).taskDesc q) 64 = (u, .ok b) →
    let d := wordsOf b
    let w1 := getAt 0 d 1
    let tail := (getAt 0 d 3).toNat
    let v := u.setCtx c { u.ctx c with stopped := (u.ctx c).stopped.filter (· != 256 + q) }
    let v' := v.setCtx c { v.ctx c with popped := uni (v.ctx c).popped [q] }
    wfield w1 63 1 = 1 → getAt 0 d 2 ≠ getAt 0 d 3 → (256 + q ∈ (s.ctx c).stopped → wfield (getAt 0 d 4) 63 1 = 0) →
    4 ≤ wfield w1 0 5 → wfield w1 0 5 ≤ 20 → wfield (getAt 0 d 0) 0 57 % 4096 = 0 →
    (q ∈ (s.ctx c).popped ∨ taskTooBig v c d = false) →
    cuRead v' c (wfield (getAt 0 d 0) 0 57 + 128 * (tail % 2 ^ wfield w1 0 5)) 128 = (u2, .ok r) →
    let rec_ := wordsOf r
    (s.ctx c).purges = [] → recordBad rec_ = false → 1 ≤ (roomNow u2 k).most (taskFit d rec_) → (s.ctx c).part.getLsbD (k / 4) = true →
    taskRestores u2 c q = [] → bestWork u2 = some (.task c q) → (∀ g ∈ (s.core k).held, g < s.groups.length) →
    ∃ t, exec (.taskPop c q k) s = .next t ∧ t.teams.length = s.teams.length + 1 ∧
      started s t s.teams.length k (wfield (getAt 0 rec_ 3) 0 5) (setAt 0 ((rec_.drop 8).take 8) 60 (getAt 0 rec_ 1)) ∧
      (∀ pa, InCtxWindow s c ((s.ctx c).taskDesc q) 64 pa → pa % 4 = 0 → ∃ l, t.writes = s.writes ++ l ∧ Wrote l [(pa + 24, tail + 1)]) ∧
      let y := t.team s.teams.length
      y.task = some (q, tail) ∧ y.launch = none ∧ y.ctx = c ∧ y.jaddr = wfield (getAt 0 rec_ 2) 0 57 ∧
      y.entry = wfield (getAt 0 rec_ 0) 0 57 ∧ y.vregs = wfield w1 13 9 ∧ y.budget = (getAt 0 d 6).toNat ∧ (y.det = true ↔ wfield w1 62 1 = 1) ∧
      y.crew = 1 ∧ y.t = 0 ∧ y.prio = wfield w1 43 3 ∧ y.tag = wfield (getAt 0 rec_ 3) 48 16 ∧ y.spadKiB = wfield w1 22 10 ∧
      y.trows = wfield w1 32 11 ∧ y.spad = [] ∧ y.fbits = [] ∧ y.tile = [] ∧ y.wdog = 0) ∧
  (∀ (s : State) (c q k da ra : Nat), s.deals = true → (s.ctx c).wen = true → (s.ctx c).runs = true → q < 8 → Memory.wf s.mem = true →
    InCtxWindow s c ((s.ctx c).taskDesc q) 64 da → da % 4 = 0 →
    let d := wordsOf (memRead s.mem da 64)
    let w1 := getAt 0 d 1
    let base := wfield (getAt 0 d 0) 0 57
    let tail := (getAt 0 d 3).toNat
    wfield w1 63 1 = 1 → getAt 0 d 2 ≠ getAt 0 d 3 → wfield (getAt 0 d 4) 63 1 = 0 → 4 ≤ wfield w1 0 5 → wfield w1 0 5 ≤ 20 → base % 4096 = 0 →
    (q ∈ (s.ctx c).popped ∨ taskTooBig s c d = false) → InCtxWindow s c (base + 128 * (tail % 2 ^ wfield w1 0 5)) 128 ra →
    let w := fun (i : Nat) => memNat s.mem (ra + 8 * i) 8
    let groups := w 3 % 2 ^ 5
    let reserved := w 0 / 2 ^ 57 ≠ 0 ∨ w 2 / 2 ^ 57 ≠ 0 ∨ w 3 / 2 ^ 5 % 2 ^ 43 ≠ 0 ∨ ∃ i, 4 ≤ i ∧ i ≤ 7 ∧ w i ≠ 0
    groups = 0 ∨ 16 < groups ∨ w 0 % 2 ^ 57 % 4 ≠ 0 ∨ w 2 % 2 ^ 57 % 256 ≠ 0 ∨ reserved →
    (∀ p ∈ (s.ctx c).purges, ¬ (p.q = 256 + q ∧ tail < p.upto ∧ p.tag = w 3 / 2 ^ 48)) →
    ∃ t new, exec (.taskPop c q k) s = .next t ∧ t.writes = s.writes ++ new ∧
      Wrote new [(da + 24, tail + 1), (da + 32, 2 ^ 63 + 0x20 * 2 ^ 56 + tail % 2 ^ 48)] ∧ 256 + q ∉ (t.ctx c).stopped ∧ WorkKept s t ∧
      t.rels = s.rels)

/-- R75, R76, R90, R94, R96, R97, R314, R380, R381: a team whose groups have ended and whose copies are done retires, its flags and cycles enter its
launch; a task releases at device scope all that its groups and their copies wrote, and decrements its join counter; a counter that reaches zero
pushes its continuation's record at HEAD, or puts the object at the end of the pend list of a queue that is full or has one; one at zero or below
records 0x21; a pending continuation is pushed once there is space; and a launch whose teams are all gone releases at system scope what its teams
and the command unit wrote, sets the pegs its ranges cover where they are unset or older, gives its reservations back, loses its regions, writes its
completion record, word 0 last, and is retired. The words of a record that the table gives no value for are zero (log 59). -/
def Obligations.RetirementEvents : Prop :=
  let ready : State → Nat → Prop := fun s t => s.dev.status ≠ 7 ∧ (s.team t).place = .resident ∧ (∀ g ∈ (s.team t).groups, (s.group g).ended = true) ∧
    ∀ r ∈ (s.core (s.team t).core).reqs, r.team ≠ t
  let record : State → Nat → Nat → List (Nat × Nat) := fun s src dst => wordsAt dst 16 fun k => memNat s.mem (src + 128 + 8 * k) 8
  let readable : State → Nat → Nat → Nat → Nat → Prop := fun s c va n pa =>
    InCtxWindow (s.setCtx c { s.ctx c with regions := [] }) c va n pa
  (∀ (s : State) team l, team < s.teams.length → (s.team team).launch = some l → ready s team → ∃ t, exec (.teamRetire team) s = .next t ∧
    (t.team team).place = .retired ∧ (t.launch l).done = (s.launch l).done + 1 ∧ (t.launch l).killed = (s.launch l).killed ∧
    (t.launch l).flags = (s.team team).groups.foldl (fun f g => f ||| (s.group g).flags) (s.launch l).flags ∧
    (t.launch l).maxcyc = max (s.launch l).maxcyc (s.team team).cycles ∧
    (∀ n, getAt none (t.core (s.team team).core).teams n ≠ some team) ∧ (t.team team).tlb = [] ∧
    t.groups = s.groups ∧ t.writes = s.writes ∧ t.rels = s.rels) ∧
  (∀ (s : State) team q pop, team < s.teams.length → (s.team team).task = some (q, pop) → ready s team →
    ∃ (u : State) (r : Release), exec (.taskRetire team) s = .next (joinDec u (s.team team).ctx q pop (s.team team).jaddr [s.rels.length]) ∧
      (u.team team).place = .retired ∧ u.writes = s.writes ∧ u.rels = s.rels ++ [r] ∧
      r.party = .grp ((s.team team).groups.headD 0) ∧ r.scope = .device ∧ r.acts = .ambient (s.team team).ctx ∧
      (∀ (m : Nat) (w : WriteRec) (g : Nat), s.writes[m]? = some w → g ∈ (s.team team).groups → (w.party = .grp g ∨ ∃ n, w.party = .eng g n) →
        m ∈ r.know ∧ (covers s (.ambient (s.team team).ctx) m = true → m ∈ r.cov)) ∧
      ∀ g ∈ (s.team team).groups, (∀ m ∈ (s.group g).view.know, m ∈ r.know) ∧
        ∀ m ∈ (s.group g).view.reached, covers s (.ambient (s.team team).ctx) m = true → m ∈ r.cov) ∧
  (∀ (s : State) c q pop (rels : List Nat), joinDec s c q pop 0 rels = s) ∧
  (∀ (s : State) c q pop j (rels : List Nat) pa, j ≠ 0 → InCtxWindow s c j 8 pa → readable s c j 256 pa → pa % 4 = 0 → Memory.wf s.mem = true →
    let t := joinDec s c q pop j rels
    let old := memNat s.mem pa 8
    let w1 := memNat s.mem (pa + 8) 8
    let cq := w1 % 8
    let dec := [(pa, (old + 2 ^ 64 - 1) % 2 ^ 64)]
    ((1 < old ∧ old < 2 ^ 63) ∨ (old = 1 ∧ w1 / 2 ^ 63 = 0) → ∃ l, t.writes = s.writes ++ l ∧ Wrote l dec ∧
      ∀ r ∈ l, r.sync = some (.device, rels)) ∧
    (old = 0 ∨ 2 ^ 63 ≤ old → ∀ ma, InCtxWindow s c ((s.ctx c).taskDesc q) 64 ma → ma % 4 = 0 → Apart pa 8 ma 64 →
      memNat s.mem (ma + 32) 8 / 2 ^ 63 = 0 → ∃ l, t.writes = s.writes ++ l ∧
        Wrote l (dec ++ [(ma + 32, 2 ^ 63 + 0x21 * 2 ^ 56 + pop % 2 ^ 48)])) ∧
    (old = 1 → w1 / 2 ^ 63 = 1 → ∀ da, InCtxWindow s c ((s.ctx c).taskDesc cq) 64 da → da % 4 = 0 →
      let d := fun (k : Nat) => memNat s.mem (da + 8 * k) 8
      let log2 := d 1 % 2 ^ 5
      (d 2 - d 3 < 2 ^ log2 → d 5 % 2 ^ 57 = 0 → ∀ sa, InCtxWindow s c (d 0 % 2 ^ 57 + 128 * (d 2 % 2 ^ log2)) 128 sa → sa % 4 = 0 →
        ∃ l, t.writes = s.writes ++ l ∧ Wrote l (dec ++ record s pa sa ++ [(da + 16, d 2 + 1)]) ∧
          ∀ n ∈ rels, (cq, d 2, n) ∈ (t.ctx c).taskRels) ∧
      (∀ (chain : List (Nat × Nat)) (last : Nat × Nat),
        let l := chain ++ [last]
        chain.length < 2 ^ 50 → (l.head?.map Prod.fst) = some (d 5 % 2 ^ 57) →
        (∀ p ∈ l, p.1 ≠ 0 ∧ InCtxWindow s c (p.1 + 16) 8 p.2 ∧ p.2 % 4 = 0) →
        (∀ (i : Nat) (p n : Nat × Nat), l[i]? = some p → l[i + 1]? = some n → memNat s.mem p.2 8 % 2 ^ 57 = n.1) →
        memNat s.mem last.2 8 % 2 ^ 57 = 0 → ∃ new, t.writes = s.writes ++ new ∧ Wrote new (dec ++ [(last.2, j)]) ∧
          (j, q, pop) ∈ (t.ctx c).pendBy) ∧
      (2 ^ log2 ≤ d 2 - d 3 → d 5 % 2 ^ 57 = 0 → ∃ l, t.writes = s.writes ++ l ∧ Wrote l (dec ++ [(da + 40, j)]) ∧
        (j, q, pop) ∈ (t.ctx c).pendBy))) ∧
  (∀ (s : State) c q pa da sa, s.dev.status = 3 → (s.ctx c).wen = true → q < 8 → Memory.wf s.mem = true →
    InCtxWindow s c ((s.ctx c).taskDesc q) 64 da → da % 4 = 0 →
    let d := fun (k : Nat) => memNat s.mem (da + 8 * k) 8
    let log2 := d 1 % 2 ^ 5
    let j := d 5 % 2 ^ 57
    j ≠ 0 → d 2 - d 3 < 2 ^ log2 → readable s c j 256 pa → pa % 4 = 0 →
    InCtxWindow s c (d 0 % 2 ^ 57 + 128 * (d 2 % 2 ^ log2)) 128 sa → sa % 4 = 0 →
    ∃ t l, exec (.pendPush c q) s = .next t ∧ t.writes = s.writes ++ l ∧
      Wrote l ([(da + 40, memNat s.mem (pa + 16) 8 % 2 ^ 57)] ++ record s pa sa ++ [(da + 16, d 2 + 1)]) ∧
      (t.ctx c).pendBy = (s.ctx c).pendBy.filter (fun p => p.1 != j) ∧ WorkKept s t ∧ t.rels = s.rels) ∧
  (∀ (s : State) l, l < s.launches.length → s.dev.status = 3 → (s.launch l).retired = false →
    (∀ n, n < (s.launch l).teams → n ∈ (s.launch l).gone) →
    (∀ k, k < s.teams.length → (s.team k).launch = some l → (s.team k).place.over = true) →
    let x := s.launch l
    let w := fun (k : Nat) => getAt 0 x.card k
    let crec := wfield (w 5) 0 57
    ∃ t, exec (.launchRetire l) s = .next t ∧ (t.launch l).retired = true ∧ (t.launch l).rel = some s.rels.length ∧
      (∃ r : Release, t.rels[s.rels.length]? = some r ∧ r.party = .cu ∧ r.scope = .system ∧ r.acts = .every ∧
        ∀ (m : Nat) (q : WriteRec), s.writes[m]? = some q → (q.party = .cu ∨ ∃ k g, k < s.teams.length ∧ (s.team k).launch = some l ∧
          g ∈ (s.team k).groups ∧ (q.party = .grp g ∨ ∃ n, q.party = .eng g n)) → m ∈ r.know ∧ m ∈ r.cov) ∧
      (t.ctx x.ctx).regions = (s.ctx x.ctx).regions.filter (fun r => r.owner != some l) ∧
      (∀ pa, crec ≠ 0 → crec % 64 = 0 → InCtxWindow s x.ctx crec 64 pa → pa % 4 = 0 →
        let status := if x.purged then 4 else if x.placeK then 5 else if x.killed ≠ 0 then 2 else 1
        let first := x.first.getD (0, 0, 0)
        let bit := fun (b : Bool) (k : Nat) => if b then 2 ^ k else 0
        (∃ new, t.writes = s.writes ++ new ∧ Wrote new [(pa + 8, x.lseq), (pa + 16, x.killed * 2 ^ 32 + x.done), (pa + 24, x.flags.toNat),
          (pa + 32, first.1 * 2 ^ 16 + first.2.1), (pa + 40, first.2.2), (pa + 48, x.maxcyc), (pa + 56, 0),
          (pa, wfield (w 2) 48 16 * 2 ^ 32 + bit x.purged 18 + bit (wfield (w 2) 43 1 == 1) 17 + bit x.fallback 16 + status)]) ∧
        (x.posted = false → (t.ctx x.ctx).signals.getLsbD 0 = true)) ∧
      (∀ n, let gen := ((pegOuts x.card).find? fun o => o.base ≤ n && n ≤ o.base + o.cnt).map (·.gen)
        (pegAt s x.ctx n = none → pegAt t x.ctx n = none) ∧
        ∀ p, pegAt s x.ctx n = some p → ∃ q, pegAt t x.ctx n = some q ∧ q.count = p.count - x.held.count n ∧
          (∀ g, gen = some g → p.set = false ∨ 0 < gdiff g p.gen → q.set = true ∧ q.gen = g ∧ q.rels = [s.rels.length]) ∧
          (gen = none ∨ (p.set = true ∧ ∀ g, gen = some g → gdiff g p.gen ≤ 0) → q.set = p.set ∧ q.gen = p.gen ∧ q.rels = p.rels)) ∧
      t.teams = s.teams ∧ t.groups = s.groups ∧ ∀ m, m ≠ l → t.launch m = s.launch m)

/-- R109, R112: when rows are released, a waiting grow that finds them free above its run is met, one that finds no room still waits; a
grow 4,096 cycles old is met in the backing area; and a group is promoted into a free run when no grow waits. No register below the bound changes, and
those a grow gains are zero. The model's reading (log 42): the rows above the run number N minus VRES, where R109's step 1 has N minus VBOUND, the
order of the retries and what ends the 4,096 cycles. -/
def Obligations.RowEvents : Prop :=
  let grown := fun (x y : Group) => RegsKept x { y with v := x.v } ∧
    ∀ k l, l < 32 → vcell y k l = if k < x.vbound then vcell x k l else 0
  (∀ (s : State) g core n since len, s.dev.status ≠ 7 → g < s.groups.length → (s.core core).grows = [g] → (s.group g).core = core →
    (s.group g).wait = .grow n since len → (s.group g).badJoin = none →
    (runFree (rowsUsed s core) ((s.group g).vbase + (s.group g).vres) (n - (s.group g).vres) = true →
      ∃ t, exec (.rgrowRetry core) s = .next t ∧ (t.group g).vbound = n ∧ (t.group g).vres = n ∧ (t.group g).vbase = (s.group g).vbase ∧
        WaitPassed (s.group g) (t.group g) len ∧ grown (s.group g) (t.group g) ∧ (t.core core).grows = [] ∧ GroupsKept s t g ∧
        t.writes = s.writes) ∧
    (growNow s g n = none → exec (.rgrowRetry core) s = .next s)) ∧
  (∀ (s : State) g n since len, s.dev.status ≠ 7 → g < s.groups.length → (s.group g).wait = .grow n since len → (s.group g).badJoin = none →
    (4096 ≤ (s.core (s.group g).core).cycles - since → ∃ t, exec (.rgrowTimeout g) s = .next t ∧ (t.group g).vbound = n ∧
      (t.group g).vres = (s.group g).vres ∧ WaitPassed (s.group g) (t.group g) len ∧ grown (s.group g) (t.group g) ∧
      g ∉ (t.core (s.group g).core).grows ∧ GroupsKept s t g ∧ t.writes = s.writes) ∧
    ((s.core (s.group g).core).cycles - since < 4096 → exec (.rgrowTimeout g) s = .next s)) ∧
  (∀ (s : State) g core u b, s.dev.status ≠ 7 → g < s.groups.length → (s.core core).grows = [] → (s.core core).held = [g] →
    (s.group g).core = core → (s.group g).vres < (s.group g).vbound → pickRun s core (s.group g).vbound = some (u, b) →
    ∃ t, exec (.registerPromote core) s = .next t ∧
      (t.group g).vres = (s.group g).vbound ∧ (t.group g).vbase = b ∧ (t.group g).vbound = (s.group g).vbound ∧
      RegsKept (s.group g) (t.group g) ∧ (t.group g).lanes = (s.group g).lanes ∧ GroupsKept s t g ∧ StoreKept s t)

/-- R83, R119 to R123: a stalled core swaps out the team that R119 chooses into the lowest free record, with its watches dropped: of its candidates
the one of the lowest priority, then the highest LSEQ, which counts as 0 for a task (log 32), then the highest index. The cores of a restore lie on
the first cluster of the partition that can take every saved member of the crew, in ascending order, each on the first core that can hold it beside
those before it and that has issued for another team since it left (the order of the members is the model's, log 64). A saved team that R83 picks
returns to a core that can hold it with its registers, as many of them resident as fit and the others in the backing area of its new slot, and its
handler and heap window latched afresh, or raises PLACE; and an acknowledged PLACE error is tested again. -/
def Obligations.SwapRestoreAndPlace : Prop :=
  (∀ (s : State) core t r rest, s.dev.status ≠ 7 → t < s.teams.length → stalled s core = true → swapChoice s core = some t →
    (s.team t).core = core → (s.team t).place = .resident → (s.team t).crew ≤ 1 → freeRecords s (s.team t).ctx = r :: rest →
    (teamIds s fun y => y.ctx == (s.team t).ctx && y.place.onCore).length ≤ (r :: rest).length →
    (∀ g ∈ (s.team t).groups, AtRest (s.group g)) →
    ∃ z, exec (.forwardProgressSwap core) s = .next z ∧ (z.team t).place = .saved r ∧ (z.team t).swapOff = some core ∧ (z.team t).tlb = [] ∧
      (z.core core).stall = 0 ∧ AllRegsKept s z ∧
      ∀ g ∈ (s.team t).groups, (z.group g).buf = [] ∧ ((s.group g).ended = false → (z.group g).watch = none)) ∧
  (∀ (s : State) team r, team < s.teams.length → (s.team team).place = .saved r → s.deals = true → (s.ctx (s.team team).ctx).runs = true →
    (s.team team).crew ≤ 1 →
    let x := s.team team
    let c := s.ctx x.ctx
    (∀ k, nowhere s team = false → restorePlaces s team = some [k] → 1 ≤ (roomNow s k).most x.restoreFit → bestWork s = teamWork s team →
      (∀ g ∈ x.groups ++ (s.core k).held, g < s.groups.length) →
      ∃ z, exec (.teamRestore team [k]) s = .next z ∧ (z.team team).place = .resident ∧ (z.team team).core = k ∧
        (z.team team).swapOff = none ∧ (z.team team).heap = (c.heapbase, c.heaplen, c.heapoff) ∧ (z.team team).vec = c.trapvec ∧
        (z.team team).brk = c.brk ∧ (∀ g ∈ x.groups, (z.group g).core = k ∧ (z.group g).vbound = (s.group g).vbound) ∧ AllRegsKept s z ∧
        z.writes = s.writes ∧ z.rels = s.rels ∧
        ∀ g, x.groups = [g] → (s.group g).team = team → (s.group g).ended = false → (s.group g).vbound ≤ 256 → k < 256 → c.sealed = false → Memory.wf s.mem = true →
          let n := min (s.group g).vbound (rowsFree s k)
          (z.group g).vres = n ∧ (z.group g).slot < 32 ∧ ∀ v, n ≤ v → v < (s.group g).vbound →
            memRead z.mem (homeAddr s.dev (wfield s.dev.rback 30 27 * 2 ^ 30 + (32 * k + (z.group g).slot) * 65536 + 256 * v)) 256 =
              ((s.group g).vrow v).flatMap fun w => toBytes 8 w.toNat) ∧
    (∀ cores, nowhere s team = true → ∃ z, exec (.teamRestore team cores) s = .next z ∧ (z.team team).place = .placeErr r ∧
      (z.ctx x.ctx).plerr = true ∧ (z.ctx x.ctx).signals.getLsbD 3 = true ∧ z.groups = s.groups ∧ StoreKept s z) ∧
    (∀ cores, nowhere s team = false → bestWork s ≠ teamWork s team → exec (.teamRestore team cores) s = .next s)) ∧
  (∀ (s : State) c, s.dev.status = 3 → ∃ z, exec (.plerrAck c) s = .next z ∧ (z.ctx c).plerr = false ∧
    ∀ t r, t < s.teams.length → (s.team t).ctx = c → (s.team t).place = .placeErr r →
      (z.team t).place = if nowhere s t = true then .killed else .saved r) ∧
  (∀ (s : State) c, s.dev.status = 7 → exec (.plerrAck c) s = .next (s.setCtx c { s.ctx c with plerr := false })) ∧
  (∀ (s : State) core,
    let candidate := fun t => t < s.teams.length ∧ (s.team t).core = core ∧ (s.team t).place = .resident ∧
      ∀ u ∈ crewTeams s t, (s.team u).place.over = true ∨ (s.team u).place = .resident ∧ stalled s (s.team u).core = true
    let lseq := fun t => match (s.team t).launch with | some l => (s.launch l).lseq | none => 0
    let before_ := fun a b => (s.team a).prio < (s.team b).prio ∨ (s.team a).prio = (s.team b).prio ∧
      (lseq b < lseq a ∨ lseq b = lseq a ∧ (s.team b).t < (s.team a).t)
    (∀ t, swapChoice s core = some t → candidate t ∧ ∀ u, candidate u → ¬ before_ u t) ∧
    ((∃ t, candidate t) → swapChoice s core ≠ none)) ∧
  (∀ (s : State) team cores, restorePlaces s team = some cores →
    let part := fun n => n < 64 ∧ (s.ctx (s.team team).ctx).part.getLsbD n = true
    let fits := fun (u n k : Nat) => (s.team u).swapOff ≠ some k ∧ n ≤ (roomNow s k).teams ∧ n * (s.team u).ngroups ≤ (roomNow s k).groups ∧
      n * (((s.team u).spadKiB + 3) / 4) ≤ (roomNow s k).spad ∧
      n * (((s.team u).trows + 15) / 16) ≤ (roomNow s k).tile
    ∃ cl, part cl ∧ (∀ n, n < cl → part n → crewPlace s n (savedCrew s team) [] = none) ∧ cores.length = (savedCrew s team).length ∧
      ∀ i k u, cores[i]? = some k → (savedCrew s team)[i]? = some u →
        let n := (cores.take i).count k + 1
        k / 4 = cl ∧ fits u n k ∧ ∀ j, j / 4 = cl → j < k → ¬ fits u ((cores.take i).count j + 1) j)

/-- R356, R363, R365, R366, R367, R386: REQ is refused when NREC is below its bound and otherwise halts the context's teams, the save puts each
halted team into a record and reaches STATE 10, RESUME returns to 00, and DEV.DBG halts and resumes a core; a core that holds a team of a sealed
context does not stop for a halt. R378: the save abandons the wait of a TLBINV, which issues again. The bound is 16 records for each usable core of
the partition. After a fatal error CTX.PREEMPT takes its state, and no team is halted: that is the model's choice (log 39). -/
def Obligations.PreemptionAndHalt : Prop :=
  let shooting := fun (x : Group) (e : Entry) => x.ended = false ∧ x.log = [e] ∧ e.replay = false ∧ e.late = false ∧ ∃ n, x.wait = .shoot n
  (∀ (s : State) c, recordBound s c = 16 * ((List.range 256).filter fun k => (s.ctx c).part.getLsbD (k / 4) && (s.core k).usable).length) ∧
  (∀ (s : State) c, s.dev.status = 7 → (s.ctx c).pstate = 0 ∨ (s.ctx c).pstate = 3 →
    exec (.preemptReq c) s = .next (s.setCtx c { s.ctx c with pstate := if (s.ctx c).nrec < recordBound s c then 3 else 1 })) ∧
  (∀ (s : State) c, s.dev.status = 3 → ((s.ctx c).pstate = 0 ∨ (s.ctx c).pstate = 3) →
    ((s.ctx c).nrec < recordBound s c → exec (.preemptReq c) s = .next (s.setCtx c { s.ctx c with pstate := 3 })) ∧
    (recordBound s c ≤ (s.ctx c).nrec →
      (∀ k, k < s.teams.length → (s.team k).ctx = c → (s.team k).place = .resident → ∀ g ∈ (s.team k).groups,
        AtRest (s.group g) ∨ ∃ e, shooting (s.group g) e) →
      ∃ t, exec (.preemptReq c) s = .next t ∧ (t.ctx c).pstate = 1 ∧
        (∀ k, k < s.teams.length → (t.team k).place =
          if (s.team k).ctx = c ∧ (s.team k).place = .resident then .halting else (s.team k).place) ∧
        (∀ g, RegsKept (s.group g) (t.group g)) ∧
        (∀ g, (∀ e, ¬ shooting (s.group g) e) → (t.group g).lanes = (s.group g).lanes) ∧
        (∀ k g e, k < s.teams.length → (s.team k).ctx = c → (s.team k).place = .resident → g ∈ (s.team k).groups → shooting (s.group g) e →
          (t.group g).wait = .none ∧ (t.group g).log = [] ∧ ∀ l, l < 32 → (t.group g).lane l = let y := (s.group g).lane l
            if e.lanes.getLsbD l = true ∧ l < (s.group g).lanes.length ∧ y.x = false ∧ y.p = false ∧ y.pc = e.addr + e.len
            then { y with pc := e.addr } else y) ∧
        t.mem = s.mem ∧ t.writes = s.writes)) ∧
  (∀ (s : State) c, s.dev.status ≠ 7 → (s.ctx c).pstate = 1 →
    (teamIds s fun t => t.ctx == c && t.place == .halting).length ≤ (freeRecords s c).length →
    ∃ t, exec (.preemptSaveDone c) s = .next t ∧ (t.ctx c).pstate = 2 ∧ (t.ctx c).signals.getLsbD 2 = true ∧
      (∀ k, k < s.teams.length → (s.team k).ctx = c → (s.team k).place = .halting →
        ∃ r, r < (s.ctx c).nrec ∧ (t.team k).place = .saved r ∧ ∀ m, m ≠ k → (t.team m).ctx = c → (t.team m).place.record? ≠ some r) ∧
      AllRegsKept s t) ∧
  (∀ (s : State) c, (s.dev.status = 3 ∨ s.dev.status = 7) → ((s.ctx c).pstate = 2 ∨ (s.ctx c).pstate = 3) →
    exec (.preemptResume c) s = .next (s.setCtx c { s.ctx c with pstate := 0 })) ∧
  (∀ (s : State) c, (s.ctx c).pstate = 0 ∨ (s.ctx c).pstate = 1 → exec (.preemptResume c) s = .next s) ∧
  (∀ (s : State) core, core < 256 → ∃ t, exec (.haltCore core) s = .next t ∧
    (t.core core).halted = (!sealedHere s core || (s.core core).halted) ∧ t.dev = { s.dev with dbgCore := core, dbgHalt := true } ∧
    WorkKept s t ∧ StoreKept s t) ∧
  (∀ (s : State) core, core < 256 → ∃ t, exec (.unhaltCore core) s = .next t ∧
    (t.core core) = { s.core core with halted := false } ∧ t.dev = { s.dev with dbgCore := core, dbgHalt := false } ∧
    WorkKept s t ∧ StoreKept s t) ∧
  (∀ (s : State) (x : Group), onCore s x = true ↔ (s.team x.team).place = .resident ∧ (s.core x.core).powered = true ∧ s.dev.status ≠ 7 ∧
    ((s.core x.core).halted = true → ∃ k, k < s.teams.length ∧ (s.team k).core = x.core ∧ (s.team k).place.onCore = true ∧
      (s.ctx (s.team k).ctx).sealed = true))

/-- R229, R230, R232, R260, R264 to R268, R368, R369: a write of DEV.SHOOT queues a shootdown, or is held while 16 writes are queued; the oldest
one completes by dropping what it names of the context's translations and upper entries, ending the watches made under them and letting the
TLBINVs it answers go on; an answered fault, of a group or of a copy's chunk, is checked again, or is MFAULT, before which a second phase behind it
ends (R216), or an abandoned request; a record
is written to the ring; and a chunk of a copy writes its bytes in either direction, sets F of the granules it completes, and is counted at the
barrier, whose completed phases are releases, whatever other requests the core's engine holds. A chunk's elements are converted as Table 11.9 says,
MX blocks and blocks of l8 with the scale of R33 and R264. The model's choices: how a box is cut into chunks, the scale written with its block's first
in-range element (log 15), and that infinity is not counted in a computed scale (log 18). -/
def Obligations.ShootdownFaultAndCopyEvents : Prop :=
  let counted := fun (s z : State) (r : CopyReq) (b : Nat) (fl : Nat → Prop) =>
    let off := (copyDesc r.words).bar
    let w := fun (n : Nat) => getAt 0 (barWords s r.team off) n
    let y := fun (n : Nat) => getAt 0 (barWords z r.team off) n
    let expect := wfield (w 0) 32 32
    let sound := 1 ≤ expect ∧ expect ≤ 2 ^ 31 - 1
    let count := Int.bmod ((wfield (w 0) 0 32 : Int) - b) (2 ^ 32)
    let m : Nat := if 0 < count then 0 else if sound then (-count).toNat / expect + 1 else 1
    wfield (y 0) 32 32 = expect ∧ wfield (y 0) 0 32 = wrapped 32 (if sound then count + m * expect else count) ∧
    wfield (y 1) 32 32 = (wfield (w 1) 32 32 + m) % 2 ^ 32 ∧
    (∀ n : Nat, n < 5 → (wfield (y 1) n 1 = 1 ↔ wfield (w 1) n 1 = 1 ∨ fl n)) ∧
    (m = 0 → z.rels = s.rels) ∧
    (0 < m → (off, s.rels.length) ∈ (z.team r.team).phases ∧ ∃ rel : Release, z.rels = s.rels ++ [rel] ∧ rel.party = .eng r.group r.id ∧
      rel.scope = .device ∧ rel.cov = ((z.team r.team).pend.filter fun p => p.1 == off).map (·.2) ∧
      (∀ i ∈ r.view.know, i ∈ rel.know) ∧ ∀ i ∈ rel.cov, i ∈ rel.know)
  (∀ (s : State) (v : BitVec 64) (i : Instr), s.dev.status = 3 →
    i = (if wfield v 7 1 = 1 then .shootdownAll v else .shootdownPage v) →
    let r : Shoot := ⟨wfield v 0 6, if wfield v 7 1 = 1 then none else some (wfield s.dev.shootVA 12 45 * 4096), true⟩
    ((s.dev.shootQ.filter (·.host)).length < 16 → s.dev.shootHeld = [] →
      exec i s = .next { s with dev := { s.dev with shootIn := s.dev.shootIn + 1, shootQ := s.dev.shootQ ++ [r] } }) ∧
    (16 ≤ (s.dev.shootQ.filter (·.host)).length ∨ s.dev.shootHeld ≠ [] →
      exec i s = .next { s with dev := { s.dev with shootHeld := s.dev.shootHeld ++ [r] } })) ∧
  (∀ (s : State) (r : Shoot) (q : List Shoot), s.dev.shootQ = r :: q → s.dev.status ≠ 7 →
    (∀ (g n : Nat), g < s.groups.length → (s.group g).wait = .shoot n → (s.group g).badJoin = none ∧ (s.group g).live ≠ 0 ∧
      ∃ (e : Entry) (f : Full), (s.group g).log = [e] ∧ e.instr = .tlbinv f ∧ e.stage ≠ 0 ∧ e.prog = n) → ∃ t : State, exec .shootdownComplete s = .next t ∧
    let gone := fun (e : Xlat) => match r.va with | none => true | some a => decide (e.va / 2 ^ e.sh = a / 2 ^ e.sh)
    (t.ctx r.ctx).tlb = (s.ctx r.ctx).tlb.filter (fun e => !gone e) ∧
    (∀ n : Nat, n < s.teams.length → (t.team n).tlb = if (s.team n).ctx = r.ctx then (s.team n).tlb.filter (fun e => !gone e) else (s.team n).tlb) ∧
    (∀ n : Nat, n < s.clusters.length → (t.cluster n).tlb = (s.cluster n).tlb.filter (fun p => !(p.1 == r.ctx && gone p.2)) ∧
      (t.cluster n).walks = (s.cluster n).walks.filter (fun w => !(w.ctx == r.ctx &&
        match r.va with | none => true | some a => decide (w.va = a / 2 ^ (12 + 9 * w.level))))) ∧
    t.dev.shootDone = s.dev.shootDone + 1 ∧
    (s.dev.shootHeld = [] → t.dev.shootQ = q ∧ t.dev.shootIn = s.dev.shootIn) ∧
    (∀ (h : Shoot) (l : List Shoot), s.dev.shootHeld = h :: l → (q.filter (·.host)).length < 16 → h.host = true →
      t.dev.shootQ = q ++ [h] ∧ t.dev.shootHeld = l ∧ t.dev.shootIn = s.dev.shootIn + 1) ∧
    (∀ g : Nat, g < s.groups.length → RegsKept (s.group g) (t.group g) ∧
      (∀ w : Watch, (s.group g).watch = some w → (t.group g).watch =
        if (s.team (s.group g).team).ctx = r.ctx ∧ w.sh ≠ 0 ∧ (r.va = none ∨ ∃ a : Nat, r.va = some a ∧ a / 2 ^ w.sh = w.va / 2 ^ w.sh)
        then none else some w) ∧
      (∀ l, l < 32 → ((s.group g).lane l).p = false → (t.group g).lane l = (s.group g).lane l) ∧
      (∀ n : Nat, (s.group g).wait = .shoot n →
        if n ≤ s.dev.shootIn - q.length then (t.group g).wait = .none ∧ (t.group g).log = []
        else (t.group g).wait = .shoot n ∧ (t.group g).log = (s.group g).log)) ∧
    t.writes = s.writes ∧ t.teams.length = s.teams.length) ∧
  (∀ (s : State) (c fseq g : Nat) (e : Entry) (z : State) (e' : Entry), s.dev.status ≠ 7 → waitingGroup s c fseq = some g →
    (s.group g).log = [e] →
    let u := dropRecords s c fseq
    let e0 := { e with fseq := none, faults := [] }
    performEntry g e0 (u.setGroup g { s.group g with wait := .again, log := [e0] }) = .done z → (z.group g).log = [e'] → g < z.groups.length →
    exec (.frespRetry c fseq) s = .next (finished z g)) ∧
  (∀ (s : State) (c fseq k : Nat) (older newer : List CopyReq) (r : CopyReq) (w : ChunkWait), s.dev.status ≠ 7 → waitingGroup s c fseq = none →
    waitingChunk s c fseq = some (k, r, w) → (s.core k).reqs = older ++ r :: newer → (∀ q ∈ older ++ newer, q.id ≠ r.id) →
    ∃ t : State, exec (.frespRetry c fseq) s = .next t ∧
      (t.core k).reqs = older ++ [{ r with left := r.left ++ [w.chunk], waiting := r.waiting.filter fun v => v.fseq != fseq }] ++ newer ∧
      (t.ctx c).records = (s.ctx c).records.filter (fun p => p.fseq != fseq) ∧ StoreKept s t ∧ WorkKept s t ∧ t.dev = s.dev) ∧
  (∀ (s : State) (c fseq : Nat), waitingGroup s c fseq = none → waitingChunk s c fseq = none → waitingColl s c fseq = none →
    exec (.frespRetry c fseq) s = .next s ∧ exec (.frespFail c fseq) s = .next s) ∧
  (∀ (s : State) (c fseq g : Nat) (e : Entry) (l : List Entry), s.dev.status ≠ 7 → waitingGroup s c fseq = some g → (s.group g).log = e :: l →
    (s.group g).fnBehind = none → (s.group g).inh = false → (s.group g).pcvBad = false → (∀ r ∈ (s.group g).vbad, ∀ n : Nat, r.1 ≠ .j n) →
    wfield (s.team (s.group g).team).vec 0 1 = 1 → Memory.wf s.mem = true → ∃ t : State, exec (.frespFail c fseq) s = .next t ∧
      HandlerEntered { s.group g with log := { e with fseq := none } :: l, wait := .none } (t.group g)
        (4 * wfield (s.team (s.group g).team).vec 2 55) (faultTrap e.faults (faultLanes e)) (e.len / 4 % 4) true e.addr ∧
      (t.ctx c).records = (s.ctx c).records.filter (fun r => r.fseq != fseq) ∧ GroupsKept s t g ∧ t.writes = s.writes ∧ MemKept s t g) ∧
  (∀ (s : State) (c fseq g : Nat) (e b : Entry) (l : List Entry) (z : State), s.dev.status ≠ 7 → waitingGroup s c fseq = some g →
    (s.group g).log = e :: l → (s.group g).fnBehind = some b →
    performEntry g b ((dropRecords s c fseq).setGroup g { (dropRecords s c fseq).group g with log := (s.group g).log.dropLast }) = .done z →
    exec (.frespFail c fseq) s =
      .next (enterTrap (putHead z g { e with fseq := none } .none) g (faultTrap e.faults (faultLanes e)) (e.len / 4) true e.addr)) ∧
  (∀ (s : State) (c fseq k : Nat) (older newer : List CopyReq) (r : CopyReq) (w : ChunkWait), s.dev.status ≠ 7 → waitingGroup s c fseq = none →
    waitingChunk s c fseq = some (k, r, w) → (s.core k).reqs = older ++ r :: newer → (∀ q ∈ older ++ newer, q.id ≠ r.id) → Canonical s → ∃ t : State, exec (.frespFail c fseq) s = .next t ∧
      let off := (copyDesc r.words).bar
      let y := fun (n : Nat) => getAt 0 (barWords t r.team off) n
      let was := fun (n : Nat) => getAt 0 (barWords s r.team off) n
      (t.core k).reqs = older ++ newer ∧
      (wfield (was 1) 31 1 = 0 → wfield (y 1) 31 1 = 1 ∧ wfield (y 1) 27 4 = w.kind % 16 ∧ (y 2).toNat = w.addr % 2 ^ 57) ∧
      (wfield (was 1) 31 1 = 1 → wfield (y 1) 31 1 = 1 ∧ wfield (y 1) 27 4 = wfield (was 1) 27 4 ∧ y 2 = was 2) ∧
      counted s t r (((r.left ++ r.waiting.map (·.chunk)).map fun j => ((copyDesc r.words).range j).2).sum) (fun _ => False) ∧
      (∀ (n b : Nat), (n = r.team → ¬ (off ≤ b ∧ b < off + 32)) → memGet (t.team n).spad b = memGet (s.team n).spad b) ∧
      (∀ n : Nat, (t.team n).fbits = (s.team n).fbits) ∧
      (t.ctx c).records = (s.ctx c).records.filter (fun p => p.fseq != fseq) ∧ StoreKept s t ∧ t.groups = s.groups) ∧
  (∀ (s : State) (c : Nat) (r : PendRec) (p : Piece) (u : State), s.dev.status ≠ 7 → (s.ctx c).records = [r] → (s.ctx c).fqUsable = true →
    ((s.ctx c).fqHead - (s.ctx c).fqTail).toNat ≠ 2 ^ wfield (s.ctx c).faultq 0 5 → r.words.length = 4 →
    let va := wfield (s.ctx c).faultq 12 45 * 4096 + 32 * ((s.ctx c).fqHead.toNat % 2 ^ wfield (s.ctx c).faultq 0 5)
    checkAccess s ⟨c, none, .store, va, 32, none⟩ = (u, .ok [p]) →
    p.len = 32 → p.pa % 4 = 0 → ∃ t : State, exec (.faultRecordResume c) s = .next t ∧ (t.ctx c).records = [] ∧
      (t.ctx c).fqHead = (s.ctx c).fqHead + 1 ∧ (r.first = true → (t.ctx c).signals.getLsbD 1 = true) ∧
      (∃ l : List WriteRec, t.writes = s.writes ++ l ∧ Wrote l (wordsAt p.pa 4 fun n => (getAt 0 r.words n).toNat)) ∧ WorkKept s t) ∧
  (∀ (c : Int) (l : List LogVal), (l = [] → blockScale c l = 0) ∧
    ∀ v ∈ l, (∀ u ∈ l, u.c ≤ v.c) → blockScale c l = max (-128) (min 127 (Int.fdiv v.c (2 ^ 64) - c))) ∧
  (∀ (sg n : Nat) (k : Int), ieeeLog (.zero sg) = none ∧ ieeeLog (.inf sg) = none ∧ ieeeLog .nan = none ∧
    ieeeLog (.fin sg n k) = some (Mag.rat (n * 2 ^ k.toNat) (2 ^ (-k).toNat)).log) ∧
  (∀ (s : State) (core k : Nat) (older newer : List CopyReq) (r : CopyReq) (u : State) (pieces : List (List Piece)),
    (s.core core).reqs = older ++ r :: newer → (∀ q ∈ older ++ newer, q.id ≠ r.id) → k ∈ r.left → r.left.Nodup →
    r.waiting = [] → (s.core core).powered = true → s.dev.status ≠ 7 → Canonical s → s.poison = [] →
    (s.team r.team).sppois = [] → (s.team r.team).waiters = [] → (s.team r.team).spadKiB ≤ 512 → copyReason s r.team r.words = none →
    s.writes.length ≤ r.start → r.team < s.teams.length →
    let d := copyDesc r.words
    let t := s.team r.team
    (∀ j ∈ r.left, j < d.chunks) → d.spaddr / 2 ^ 29 % 2 = 0 → (d.scaleBytes ≠ 0 → d.spscale / 2 ^ 29 % 2 = 0) →
    d.dir = 0 →
    let es := (d.needs k).1
    let bs := (d.needs k).2
    engineChecks s r.team .load 0 (es.map (fun e => (d.addr e, max 1 (tyWidth d.gf / 8))) ++ bs.map fun b => (d.scaleAddr b, 1)) = (u, pieces, []) →
    let off := (d.range k).1 % 2 ^ 19
    let n := (d.range k).2
    (off + n ≤ d.bar ∨ d.bar + 32 ≤ off) →
    let got := fun (j : Nat) => ofBytes (readPieces s (some t.ctx) r.view (getAt [] pieces j))
    let code := fun (e : Nat) =>
      let x := got (es.idxOf e)
      if d.gf = 17 then (if d.position e % 2 = 1 then x / 16 else x % 16) else x
    let scale := fun (b : Nat) => got (es.length + bs.idxOf b)
    let ks := fun (b : Nat) => blockScale (if d.pf = 10 then 2 else 6) ((d.blockElems b).filterMap fun e => ieeeLog (decodeIeee (ifmtOf d.gf) (code e)))
    let f := fmtOf d.pf
    let m := rmodeOf d.mode
    let val : Nat → Nat × Flags := fun e =>
      if d.inRange e = false then (if 8 ≤ d.pf ∧ d.pf < 12 then zeroCode f else 0, 0)
      else if d.mx = true then
        if scale (e / 32) = 255 then (narCode f, fNAR) else importLog (decodeIeee (ifmtOf d.gf) (code e)) ((scale (e / 32) : Int) - 127) f m 0
      else if d.gf = d.pf then (code e, 0)
      else if 12 ≤ d.gf then importLog (decodeIeee (ifmtOf d.gf) (code e)) (if d.pf = 10 ∨ d.pf = 11 then -(ks (e / 128)) else 0) f m 0
      else match decodeLog (fmtOf d.gf) (code e) with
        | .nar => (narCode f, 0)
        | .zero => (zeroCode f, 0)
        | .num sg x => rndDyadic sg (x + Int.bmod (scale (e / 128)) 256 * 2 ^ (fmtOf d.gf).F) (fmtOf d.gf).F f m 0
    let ps := tyWidth d.pf / 8
    let later := fun (i : Nat) => r.lost.any fun p => p.1 == r.team && decide (p.2.1 ≤ off + i) && decide (off + i < p.2.1 + p.2.2)
    let left := r.left.filter (· != k)
    let loses := fun (q : CopyReq) => if q.id < r.id then { q with lost := q.lost ++ [(r.team, off, n)] } else q
    ∃ z : State, exec (.copyChunk core r.id k) s = .next z ∧
      (∀ i : Nat, i < n → later i = true → memGet (z.team r.team).spad (off + i) = memGet t.spad (off + i)) ∧
      (k < d.elemChunks → ∀ i : Nat, i < n → later i = false → memGet (z.team r.team).spad (off + i) =
        BitVec.ofNat 8 ((val ((128 * k + i) / ps)).1 / 2 ^ (8 * (i % ps)))) ∧
      (d.elemChunks ≤ k → ∀ i : Nat, i < n → later i = false → memGet (z.team r.team).spad (off + i) =
        (let b := 128 * (k - d.elemChunks) + i
         if d.blockElems b = [] then 0 else BitVec.ofNat 8 (if d.gf = d.pf then scale b else wrapped 8 (ks b)))) ∧
      (∀ b : Nat, ¬ (off ≤ b ∧ b < off + n) → ¬ (d.bar ≤ b ∧ b < d.bar + 32) → memGet (z.team r.team).spad b = memGet t.spad b) ∧
      (∀ gr : Nat, gr ∈ (z.team r.team).fbits ↔ gr ∈ t.fbits ∨ (off < 16 * gr + 16 ∧ 16 * gr < off + n ∧
        ∀ j ∈ r.left, j ≠ k → let o := (d.range j).1 % 2 ^ 19
          16 * gr + 16 ≤ o ∨ o + (d.range j).2 ≤ 16 * gr)) ∧
      counted s z r n (fun b => k < d.elemChunks ∧ ∃ i : Nat, i < n ∧ (val ((128 * k + i) / ps)).2.getLsbD b = true) ∧
      (z.core core).reqs = older.map loses ++ (if left = [] then [] else [{ r with left }]) ++ newer.map loses ∧
      (∀ j : Nat, j ≠ r.team → TeamAccessed (s.team j) (z.team j)) ∧ z.groups = s.groups ∧ z.mem = s.mem ∧ z.writes = s.writes) ∧
  (∀ (s : State) (core k : Nat) (older newer : List CopyReq) (r : CopyReq) (u : State) (pieces : List (List Piece)),
    (s.core core).reqs = older ++ r :: newer → (∀ q ∈ older ++ newer, q.id ≠ r.id) → k ∈ r.left → r.left.Nodup →
    r.waiting = [] → r.outs = [] → (s.core core).powered = true → s.dev.status ≠ 7 → Canonical s → s.poison = [] →
    (s.team r.team).sppois = [] → (s.team r.team).spadKiB ≤ 512 → copyReason s r.team r.words = none → r.team < s.teams.length →
    let d := copyDesc r.words
    let t := s.team r.team
    (∀ j ∈ r.left, j < d.chunks) → d.spaddr / 2 ^ 29 % 2 = 0 → (d.scaleBytes ≠ 0 → d.spscale / 2 ^ 29 % 2 = 0) →
    d.dir = 1 →
    let ps := tyWidth d.pf / 8
    let gb := max 1 (tyWidth d.gf / 8)
    let fp := fmtOf d.pf
    let m := rmodeOf d.mode
    let n := (d.range k).2
    let here := fun (e : Nat) => memNat t.spad (d.spaddr % 2 ^ 19 + ps * e) ps
    let kAt := fun (b : Nat) => (memNat t.spad (d.spscale % 2 ^ 19 + b) 1)
    let es := ((List.range d.elems).filter fun e => decide (128 * k ≤ ps * e ∧ ps * e < 128 * k + n)).filter d.inRange
    let bs := ((List.range (d.elems / 128)).filter fun b => decide (128 * (k - d.elemChunks) ≤ b ∧ b < 128 * (k - d.elemChunks) + n)).filter
      fun b => !(d.blockElems b).isEmpty
    let firsts := (List.range (d.elems / d.bs)).filter fun b => match (d.blockElems b).head? with | some e => es.contains e | none => false
    let logs := fun b => (d.blockElems b).filterMap fun e => match decodeLog fp (here e) with | .num _ x => some x | _ => none
    let kOf := fun b => blockScale (if d.gf = 10 then 2 else 6) ((logs b).map fun x => LogVal.dyadic x fp.F)
    let lost := fun b => (d.blockElems b).any fun e => decodeLog fp (here e) == .nar
    let mxScale : Nat → Int := fun b => if lost b then 255 else match logs b with
      | [] => 127
      | x :: l => max 0 (min 254 (Int.fdiv (l.foldl max x) (2 ^ fp.F) - (if d.gf = 15 then 8 else if d.gf = 16 then 15 else 2) + 127))
    let val : Nat → Nat × Flags := fun e =>
      if d.mx = true then (if lost (e / 32) then (0, fNAR) else match decodeLog fp (here e) with
        | .num sg x => exportIeee (ifmtOf d.gf) true sg (.pow (x - (mxScale (e / 32) - 127) * 2 ^ fp.F) fp.F) m 0
        | _ => (0, 0))
      else if d.gf = d.pf then (here e, 0)
      else match decodeLog fp (here e) with
        | .zero => (if 12 ≤ d.gf then 0 else zeroCode (fmtOf d.gf), 0)
        | .nar => if d.gf < 12 then (narCode (fmtOf d.gf), 0) else if (ifmtOf d.gf).nan then ((ifmtOf d.gf).nanCode, 0) else (0, fNAR ||| fINX)
        | .num sg x => if d.gf < 12 then rndDyadic sg (x - kOf (e / 128) * 2 ^ fp.F) fp.F (fmtOf d.gf) m 0 else
          exportIeee (ifmtOf d.gf) false sg (.pow (if d.pf = 10 ∨ d.pf = 11 then x + Int.bmod (kAt (e / 128)) 256 * 2 ^ fp.F else x) fp.F) m 0
    let nib := fun e => if d.gf ≠ 17 then 0 else if d.position e % 2 = 1 then 2 else 1
    let out := fun e => (d.addr e, gb, (val e).1, nib e)
    let outs : List (Nat × Nat × Nat × Nat) :=
      if d.elemChunks ≤ k then (if d.gf = d.pf then bs.map fun b => (d.scaleAddr b, 1, kAt b, 0) else [])
      else if d.mx = true then firsts.flatMap fun b => (d.blockElems b).map out ++ [(d.scaleAddr b, 1, (mxScale b).toNat, 0)]
      else if d.gf ≠ d.pf ∧ d.gf < 12 then es.map out ++ firsts.map fun b => (d.scaleAddr b, 1, wrapped 8 (kOf b), 0)
      else es.map out
    engineChecks s r.team .store 0 (outs.map fun o => (o.1, o.2.1)) = (u, pieces, []) →
    (∀ l ∈ pieces, ∀ p ∈ l, Unwritten s r.view p.pa p.len) →
    ∃ z : State, exec (.copyChunk core r.id k) s = .next z ∧
      (∀ (j : Nat) (o : Nat × Nat × Nat × Nat) (i : Nat) (p : Piece), outs[j]? = some o → pieces[j]? = some [p] → p.len = o.2.1 → i < p.len →
        (∀ (j' : Nat) (q : Piece), j < j' → q ∈ getAt [] pieces j' → Apart q.pa q.len (p.pa + i) 1 ∨
          ∃ o', outs[j']? = some o' ∧ o.2.2.2 ≠ 0 ∧ o'.2.2.2 ≠ 0 ∧ o.2.2.2 ≠ o'.2.2.2) →
        let b := memGet z.mem (p.pa + i)
        (o.2.2.2 = 0 → b = BitVec.ofNat 8 (o.2.2.1 / 2 ^ (8 * i))) ∧
        (o.2.2.2 = 1 → b.toNat % 16 = o.2.2.1 % 16) ∧ (o.2.2.2 = 2 → b.toNat / 16 = o.2.2.1 % 16)) ∧
      (∀ a : Nat, (∀ l ∈ pieces, ∀ p ∈ l, Apart p.pa p.len a 1) → memGet z.mem a = memGet s.mem a) ∧
      (∀ b : Nat, ¬ (d.bar ≤ b ∧ b < d.bar + 32) → memGet (z.team r.team).spad b = memGet t.spad b) ∧
      (z.team r.team).fbits = t.fbits ∧
      counted s z r n (fun b => k < d.elemChunks ∧ ∃ e ∈ es, (val e).2.getLsbD b = true) ∧
      (∃ outs', (z.core core).reqs =
        older ++ (if r.left.filter (· != k) = [] then [] else [{ r with left := r.left.filter (· != k), outs := outs' }]) ++ newer) ∧
      (∀ j : Nat, j ≠ r.team → TeamAccessed (s.team j) (z.team j)) ∧ z.groups = s.groups)

-- Events of the device ---------------------------------------------------------------------------------------------------------------

/-- R6, R310, R311, R365, R382, R388, R390, R392, R393, R394 and the register tables: a register write keeps the bits of the register's fields and
an offset no table lists ignores it; a context's registers ignore writes before READY and take them after a fatal error too, when, by the model's
choice (log 39), no fault is answered and no team halted or tested again; CTX.WORKTAB takes effect at once: that it forgets the pops in progress
(log 44) and keeps the queue descriptors read, the marks of stopped queues and the purges (log 61) is the model's choice; CTX.REGTAB waits until the
context holds no work; a register reads its current value, with reserved bits, what is write-only and unlisted offsets as zero, DEV.CAPPTR the
offset of the capability list, which lists Table 16.3's entries in the model's layout (log 37); a read of DEV.TRIDX clears DROPS; a write narrower
than 8 bytes does nothing; a read of the doorbell page gives zeros; a write of DEV.DBG halts a core or lets it go on, and one of CTX.PREEMPT
acknowledges, requests or resumes by its bits and the state. The model's choices: what a read of another width and the management port return (log
38), that a write of DEV.TRACE starts the ring's index at zero (log 21), that overlapping entries of a region table are both rejected and that
CTX.REGTAB reads as written while it is pending (log 47). -/
def Obligations.RegisterEvents : Prop :=
  (∀ (s : State) (c : Nat) (v : BitVec 64), (s.dev.status = 3 ∨ s.dev.status = 7) → c < 64 →
    let x := s.ctx c
    let put := fun (off : Nat) (y : Ctx) => exec (.registerWrite (some c) off v) s = .next (s.setCtx c y)
    put 0x000 { x with worktab := v &&& 0x01FFFFFFFFFFF001, popped := [] } ∧ put 0x008 { x with part := v } ∧
    put 0x010 { x with heapbase := v &&& 0x01FFFFFFFFE00001 } ∧ put 0x018 { x with heaplen := v &&& 0x000FFFFFFFE00001 } ∧
    put 0x020 { x with heapoff := v &&& 0xFFFFFFFFFFE00000 } ∧ put 0x028 { x with ptroot := v &&& 0x000FFFFFFFFFF001 } ∧
    put 0x030 { x with faultq := v &&& 0x01FFFFFFFFFFF03F } ∧ put 0x038 { x with fqTail := v.extractLsb' 0 32 } ∧
    put 0x048 { x with regPend := some (v &&& 0x01FFFFFFFFFFF801) } ∧ put 0x050 { x with trapvec := v &&& 0x01FFFFFFFFFFFFFF } ∧
    put 0x078 { x with save := v &&& 0x01FFFFFFFFC01FFF } ∧
    (∀ n : Nat, n < 4 → put (0x058 + 8 * n) { x with brk := setAt 0 x.brk n (v &&& 0x01FFFFFFFFFFFFFD) }) ∧
    (wfield v 62 2 = 1 → exec (.registerWrite (some c) 0x040 v) s = exec (.frespRetry c (wfield v 0 48)) s) ∧
    (wfield v 62 2 = 2 → exec (.registerWrite (some c) 0x040 v) s = exec (.frespFail c (wfield v 0 48)) s) ∧
    (wfield v 62 2 = 0 ∨ wfield v 62 2 = 3 → exec (.registerWrite (some c) 0x040 v) s = .next s) ∧
    (let rest := fun (u : State) => if x.pstate = 2 then (if wfield v 1 1 = 1 then exec (.preemptResume c) u else .next u)
        else if wfield v 0 1 = 1 then exec (.preemptReq c) u else if wfield v 1 1 = 1 then exec (.preemptResume c) u else .next u
      ∀ ack : Nat, wfield v 7 1 = ack →
        (ack = 0 → exec (.registerWrite (some c) 0x080 v) s = rest s) ∧
        (ack = 1 → wfield v 0 2 = 0 → exec (.registerWrite (some c) 0x080 v) s = exec (.plerrAck c) s) ∧
        (ack = 1 → (∀ t r : Nat, t < s.teams.length → (s.team t).ctx = c → (s.team t).place ≠ .placeErr r) →
          exec (.registerWrite (some c) 0x080 v) s = rest (s.setCtx c { x with plerr := false }))) ∧
    (∀ off : Nat, (0x088 ≤ off ∨ off % 8 ≠ 0) → exec (.registerWrite (some c) off v) s = .next s)) ∧
  (∀ (s : State) (c off : Nat) (v : BitVec 64), s.dev.status ≠ 3 → s.dev.status ≠ 7 → exec (.registerWrite (some c) off v) s = .next s) ∧
  (∀ (s : State) (v : BitVec 64), let d := s.dev
    let put := fun (off : Nat) (y : Dev) => exec (.registerWrite none off v) s = .next { s with dev := y }
    put 0x0010 { d with rback := v &&& 0x01FFFFFFC0000001 } ∧ put 0x0028 { d with shootVA := v &&& 0x01FFFFFFFFFFF000 } ∧
    put 0x0030 { d with dump := v &&& 0x000FFFFFFC000001 } ∧ put 0x0040 { d with trace := v &&& 0x000FFFFFFFFFFF87, twidx := 0 } ∧
    put 0x0048 { d with trctx := v } ∧ put 0x0060 { d with fpwin := v.extractLsb' 0 32 } ∧ put 0x0068 { d with node := v &&& 0x13F } ∧
    put 0x0070 { d with nodemap := v } ∧ put 0x0800 { d with whcfg := v &&& 0x0003FFFFFFFFFFFF } ∧
    put 0x0100 (if wfield v 19 8 ≤ wfield v 11 8 then d else { d with pwrctl := v &&& 0x7FFFFFF }) ∧
    exec (.registerWrite none 0x0018 v) s = (if wfield v 8 1 = 1 then exec (.haltCore (wfield v 0 8)) s else exec (.unhaltCore (wfield v 0 8)) s) ∧
    exec (.registerWrite none 0x0020 v) s = (if wfield v 7 1 = 1 then exec (.shootdownAll v) s else exec (.shootdownPage v) s) ∧
    (∀ n : Nat, n < 8 → exec (.registerWrite none (0x0840 + 8 * n) v) s = if wfield v 62 1 = 1 then exec (.quarantineClear n) s else .next s) ∧
    put 0x0000 d ∧ put 0x0008 d ∧ put 0x0050 d ∧ (∀ n : Nat, n < 128 → put (0x0400 + 8 * n) d) ∧ (∀ off : Nat, 0x1000 ≤ off → off < 0x2000 → put off d) ∧
    (∀ off : Nat, off ∉ [0x0010, 0x0018, 0x0020, 0x0028, 0x0030, 0x0040, 0x0048, 0x0060, 0x0068, 0x0070, 0x0100, 0x0800] →
      (off < 0x0840 ∨ 0x0880 ≤ off ∨ off % 8 ≠ 0) → (off < 0x100000 ∨ 0x140000 ≤ off) → put off d) ∧
    (∀ c off : Nat, c < 64 → off < 0x1000 →
      exec (.registerWrite none (0x100000 + 0x1000 * c + off) v) s = exec (.registerWrite (some c) off v) s)) ∧
  (∀ (s : State) (c : Nat) (v : Word), s.dev.status ≠ 7 → (s.ctx c).regPend = some v →
    (idleCtx s c = false → exec (.regtabApply c) s = .next s) ∧
    (idleCtx s c = true → wfield v 0 1 = 0 → exec (.regtabApply c) s =
      .next (s.setCtx c { s.ctx c with regtab := v, regPend := none, rej := 0, regions := [] })) ∧
    (∀ (u : State) (l : List Piece), idleCtx s c = true → wfield v 0 1 = 1 →
      checkAccess s ⟨c, none, .load, wfield v 11 46 * 2048, 2048, none⟩ = (u, .ok l) →
      ∃ t : State, exec (.regtabApply c) s = .next t ∧ (t.ctx c).regtab = v ∧ (t.ctx c).regPend = none ∧
        let es := tableEntries (wordsOf (readNow u l))
        let bad := es.filter fun p => entryBad es p.1 p.2
        (t.ctx c).regions = (es.filter fun p => !entryBad es p.1 p.2).map (fun p =>
          { owner := none, base := p.2.base, len := p.2.len, wr := p.2.wr, gate := p.2.gate }) ∧
        (t.ctx c).rej = (match bad with | p :: _ => p.1 + 1 | [] => 0) ∧ WorkKept s t ∧ StoreKept s t)) ∧
  (∀ (s : State) (c : Nat), s.dev.status = 7 → exec (.regtabApply c) s = .next s) ∧
  (∀ s : State, exec .traceIndexRead s = .next { s with dev := { s.dev with
    hostData := toBytes 8 (s.dev.drops.toNat * 2 ^ 32 + s.dev.twidx % 2 ^ 32), drops := 0 } }) ∧
  (∀ (s : State) (l : List Turn) (c off : Nat), let x := s.ctx c
    let reads := fun (w : Nat) => s.agenda = .regRead (some c) off 8 :: l →
      step s = .next { s with agenda := l, dev := { s.dev with hostData := toBytes 8 w } }
    (off = 0x000 → reads x.worktab.toNat) ∧ (off = 0x008 → reads x.part.toNat) ∧ (off = 0x010 → reads x.heapbase.toNat) ∧
    (off = 0x018 → reads x.heaplen.toNat) ∧ (off = 0x020 → reads x.heapoff.toNat) ∧ (off = 0x028 → reads x.ptroot.toNat) ∧
    (off = 0x030 → reads x.faultq.toNat) ∧ (off = 0x038 → reads (x.fqHead.toNat * 2 ^ 32 + x.fqTail.toNat)) ∧ (off = 0x040 → reads 0) ∧
    (off = 0x048 → reads ((x.regPend.getD x.regtab) + wd ((if x.regPend.isSome then 2 ^ 8 else 0) + x.rej * 2)).toNat) ∧
    (off = 0x050 → reads x.trapvec.toNat) ∧ (∀ n : Nat, n < 4 → off = 0x058 + 8 * n → reads (getAt 0 x.brk n).toNat) ∧
    (off = 0x078 → reads x.save.toNat) ∧ (off = 0x080 → reads ((if x.plerr then 2 ^ 7 else 0) + x.pstate.toNat * 4)) ∧
    (off = 0x088 → reads (if x.sealed then 1 else 0)) ∧ (0x088 < off → off % 8 = 0 → reads 0)) ∧
  (∀ (s : State) (l : List Turn) (off : Nat), let d := s.dev
    let reads := fun (w : Nat) => s.agenda = .regRead none off 8 :: l →
      step s = .next { s with agenda := l, dev := { s.dev with hostData := toBytes 8 w } }
    (off = 0x0000 → reads d.status.toNat) ∧ (off = 0x0008 → reads 0x1000) ∧ (off = 0x0010 → reads d.rback.toNat) ∧
    (off = 0x0018 → reads (wd ((if coreHalted s d.dbgCore then 2 ^ 9 else 0) + (if d.dbgHalt then 2 ^ 8 else 0) + d.dbgCore)).toNat) ∧
    (off = 0x0020 → reads (d.shootDone.toNat * 2 ^ 16)) ∧ (off = 0x0028 → reads d.shootVA.toNat) ∧ (off = 0x0030 → reads d.dump.toNat) ∧
    (off = 0x0040 → reads d.trace.toNat) ∧ (off = 0x0048 → reads d.trctx.toNat) ∧
    (off = 0x0050 → s.agenda = .regRead none off 8 :: l → step s = exec .traceIndexRead { s with agenda := l }) ∧
    (off = 0x0060 → reads d.fpwin.toNat) ∧ (off = 0x0068 → reads d.node.toNat) ∧ (off = 0x0070 → reads d.nodemap.toNat) ∧
    (off = 0x0100 → reads d.pwrctl.toNat) ∧ (off = 0x0800 → reads d.whcfg.toNat) ∧
    (∀ n : Nat, n < 128 → off = 0x0400 + 8 * n →
      reads (wd (getAt 0 d.temp n * 2 ^ 8 + getAt 0 d.floor n * 2 ^ 4 + getAt 0 d.level n)).toNat) ∧
    (∀ n : Nat, n < 8 → off = 0x0840 + 8 * n →
      reads (wd ((if (s.port n).up then 2 ^ 63 else 0) + (if (s.port n).quar then 2 ^ 62 else 0) + (s.port n).peer)).toNat) ∧
    (∀ n : Nat, n < 512 → off = 0x1000 + 8 * n → reads (ofBytes ((padTo 0x1000 (capList s)).drop (8 * n) |>.take 8))) ∧
    (0x2000 ≤ off → off < 0x100000 ∨ 0x140000 ≤ off → off % 8 = 0 → reads 0) ∧
    (off ∈ [0x0038, 0x0058, 0x0078] → reads 0) ∧
    (∀ c o : Nat, c < 64 → o < 0x1000 → off = 0x100000 + 0x1000 * c + o → s.agenda = .regRead none off 8 :: l →
      step s = step { s with agenda := .regRead (some c) o 8 :: l })) ∧
  (∀ s : State, let es := capEntries s.dev s.cores
    es.map (·.1) = [0x0001, 0x0002, 0x0003, 0x0004, 0x0005, 0x0010, 0x0011, 0x0012, 0x0013, 0x0014] ∧
    getAt [] (es.map (·.2)) 1 = s.cores.flatMap (fun c : Core =>
      toBytes 4 ((if c.usable then 2 ^ 31 else 0) + c.spadCap / 16 * 2 ^ 8 + c.tileCap / 8)) ∧
    (getAt [] (es.map (·.2)) 2).take 8 = toBytes 8 s.dev.capacity ∧
    (let at_ := fun (n : Nat) => 0x1000 + ((es.take n).map fun p => 8 + p.2.length).sum
     ∀ n : Nat, n < es.length → ((capList s).drop (at_ n - 0x1000)).take 8 =
      toBytes 8 (getAt 0 (es.map (·.1)) n + (8 + (getAt [] (es.map (·.2)) n).length) * 2 ^ 16 + (if n = 9 then 0 else at_ (n + 1) * 2 ^ 32)) ∧
      ((capList s).drop (at_ n - 0x1000 + 8)).take (getAt [] (es.map (·.2)) n).length = getAt [] (es.map (·.2)) n)) ∧
  (∀ (s : State) (l : List Turn) (ctx : Option Nat) (off : Nat) (data : List (BitVec 8)), s.agenda = .regNarrow ctx off data :: l →
    step s = .next { s with agenda := l }) ∧
  (∀ (s : State) (l : List Turn) (ctx off n : Nat), s.agenda = .bellRead ctx off n :: l →
    step s = .next { s with agenda := l, dev := { s.dev with hostData := List.replicate n 0 } }) ∧
  (∀ (s : State) (l : List Turn) (what : Nat), s.agenda = .mgmtRead what :: l → 
    step s = .next { s with agenda := l, dev := { s.dev with mgmt := mgmtData { s with agenda := l } what } }) ∧
  (∀ (s : State) (l : List Turn) (names : Word), s.agenda = .peerMaps names :: l → 
    step s = .next { s with agenda := l, dev := { s.dev with named := names } })

/-- R384, R387, R389, R390, R391, R392, R394, Table 16.5: the arbiter's levels and the thermal floors make the applied levels, 105 degrees is
fatal; a fatal error sets FATAL and signals, and then no group issues and no engine of the device works; a dump stays within its parts, and a core's
part is written where memory is populated (what the header and the parts hold is free, log 8, and a part with no memory behind it is left out, log
55); reset
leaves the reset registers and no work (that memory then reads zero is the model's choice, log 3); and bring-up passes through its states in
order, refusing an image of which either signature fails. That after a fatal error CTX.FRESP answers nothing, and that CTX.PREEMPT changes no more
than itself, is the model's choice (log 39). The model's choices also: which stage verifies which image (log 41), and that a core is gated
only while it holds no team (log 46). -/
def Obligations.PowerFatalAndBringup : Prop :=
  let outside := fun (s : State) (a : Nat) =>
    let base := wfield s.dev.dump 26 26 * 2 ^ 26
    let part := fun (pa n : Nat) => homeAddr s.dev pa ≤ a ∧ a < homeAddr s.dev pa + n
    ¬ part base 0x1000 ∧ ∀ k : Nat, k < 256 → ¬ part (base + 0x100000 + 0x40000 * k) 0x40000
  (∀ (s : State) (levels : List Nat), levels.length = 128 → (∀ q ∈ levels, q ≤ 15) → ∃ t : State, exec (.powerArbitration levels) s = .next t ∧
    t.dev.power = levels ∧ (∀ i : Nat, i < 128 → getAt 0 t.dev.level i = max (getAt 0 levels i) (getAt 0 s.dev.floor i)) ∧
    t = { s with dev := { s.dev with power := t.dev.power, level := t.dev.level } }) ∧
  (∀ (s : State) (temps : List Nat), temps.length = 128 → (∀ x ∈ temps, x < 105) → ∃ t : State, exec (.thermalSample temps) s = .next t ∧
    t.dev.temp = temps ∧
    (∀ i : Nat, i < 128 → let f := getAt 0 s.dev.floor i
      let x := getAt 0 temps i
      getAt 0 t.dev.floor i = (if wfield s.dev.pwrctl 19 8 ≤ x then min 15 (f + 1) else if x ≤ wfield s.dev.pwrctl 11 8 then f - 1 else f) ∧
      getAt 0 t.dev.level i = max (getAt 0 s.dev.power i) (getAt 0 t.dev.floor i)) ∧
    t = { s with dev := { s.dev with temp := t.dev.temp, floor := t.dev.floor, level := t.dev.level } }) ∧
  (∀ (s : State) (temps : List Nat), temps.length = 128 → (∀ x ∈ temps, x ≤ 255) → (∃ x ∈ temps, 105 ≤ x) →
    ∃ t : State, exec (.thermalSample temps) s = .next t ∧ t.dev.temp = temps ∧ t.dev.status = 7) ∧
  (∀ (s : State) (i : Instr), (i = .firmwareWatchdogExpiry ∨ ∃ cause : Nat, i = .fatalError cause) → s.dev.status ≠ 7 →
    ∃ t : State, exec i s = .next t ∧ t.dev.status = 7 ∧ t.dev.alarm = true ∧
      (∃ r : LogRec, t.dev.errlog = s.dev.errlog ++ [r] ∧ ∀ cause : Nat, i = .fatalError cause → r.what = cause) ∧ WorkKept s t ∧
      (∀ x : Group, onCore t x = false) ∧ (wfield s.dev.dump 0 1 = 0 → t.mem = s.mem) ∧
      ∀ a : Nat, outside s a → Memory.wf s.mem = true → memGet t.mem a = memGet s.mem a) ∧
  (∀ (s : State) (i : Instr), (i = .firmwareWatchdogExpiry ∨ ∃ cause : Nat, i = .fatalError cause) → s.dev.status = 7 → exec i s = .next s) ∧
  (∀ (s : State) (n req chunk q : Nat) (v : BitVec 32) (cores : List Nat) (key : CollKey) (msg : CollMsg) (m : FloodMsg) (link : Edge) (i : Instr),
    s.dev.status = 7 →
    i ∈ [Instr.doorbell n v, .cardAccept n q, .dealingPass n, .teamDispatch n cores, .taskPop n q req, .taskRetire n, .pendPush n q, .teamRetire n, .launchRetire n,
      .rgrowRetry n, .rgrowTimeout n, .registerPromote n, .forwardProgressSwap n, .teamRestore n cores, .preemptSaveDone n,
      .copyChunk n req chunk, .aaccContribute n, .frespRetry n q, .frespFail n q, .faultRecordResume n, .regtabApply n, .shootdownComplete,
      .collectiveStart n, .collectivePartial key n msg, .failureNotice key n link, .recoveryRebuild n, .collectiveComplete n, .tableFlood key m,
      .isolatedRankTimeout n, .fetch n q, .breakpoint n, .trapEntry n, .illegalInstructionTrap n q req chunk] → exec i s = .next s) ∧
  (∀ (s : State) (c : Nat) (i : Instr), s.dev.status = 7 → c < s.ctxs.length → i ∈ [Instr.preemptReq c, .plerrAck c, .preemptResume c] →
    ∃ t : State, exec i s = .next t ∧ t = s.setCtx c { s.ctx c with pstate := (t.ctx c).pstate, plerr := (t.ctx c).plerr }) ∧
  (∀ s : State, Memory.wf s.mem = true → ∃ t : State, exec .dumpRequest s = .next t ∧ t.dev = s.dev ∧ WorkKept s t ∧
    (∀ a : Nat, (wfield s.dev.dump 0 1 = 1 → outside s a) → memGet t.mem a = memGet s.mem a) ∧
    let base := wfield s.dev.dump 26 26 * 2 ^ 26
    (∀ k i : Nat, wfield s.dev.dump 0 1 = 1 → s.dev.nen = false → k < 256 → i < 0x40000 → populated s.dev (base + 0x100000 + 0x40000 * k) 0x40000 = true →
      memGet t.mem (base + 0x100000 + 0x40000 * k + i) = Config.dumpByte s.fresh (0x100000 + 0x40000 * k + i))) ∧
  (∀ s : State, Memory.wf s.mem = true → ∃ t : State, exec .deviceReset s = .next t ∧ t.launches = [] ∧ t.teams = [] ∧ t.groups = [] ∧
    t.colls = [] ∧ t.pegs = [] ∧ t.gateQ = [] ∧ t.clusters = State.reset.clusters ∧
    t.ctxs = State.reset.ctxs ∧ t.cores = State.reset.cores ∧ t.poison = [] ∧ t.writes = [] ∧ t.rels = [] ∧
    t.dev = { Dev.reset with seals := s.dev.seals, named := s.dev.named, trfresh := s.dev.trfresh } ∧
    (∀ a : Nat, a < nodeWindow 0 → memGet t.mem a = 0) ∧ ∀ a : Nat, nodeWindow 0 ≤ a → memGet t.mem a = memGet s.mem a) ∧
  (∀ (s : State) (image : Image) (usable : List (Nat × Nat)),
    let out := exec (.bringupStage image usable) s
    let valid := Config.ecdsaValid image.bytes = true ∧ Config.lmsValid image.bytes = true
    (s.dev.status = 0 → valid → out = .next { s with dev := { s.dev with status := 1, firmware := Config.sha384 image.bytes } }) ∧
    (s.dev.status = 1 → valid → ∃ t : State, out = .next t ∧ t.dev = { s.dev with
        status := 2, capacity := image.capacity, config := Config.sha384 image.bytes, identity := Config.identity image.bytes } ∧
      (∀ k : Nat, k < 256 → (t.core k).spadCap = 16 * min 8 (getAt (8, 8) usable k).1 ∧ (t.core k).tileCap = 8 * min 8 (getAt (8, 8) usable k).2 ∧
        ((t.core k).usable = true ↔ (getAt (8, 8) usable k).1 ≠ 0 ∨ (getAt (8, 8) usable k).2 ≠ 0)) ∧ WorkKept s t ∧ StoreKept s t) ∧
    (s.dev.status = 0 ∨ s.dev.status = 1 → ¬ valid → out = .next s) ∧
    (s.dev.status = 2 → out = .next { s with dev := { s.dev with status := 3 } }) ∧
    (s.dev.status = 3 ∨ s.dev.status = 7 → out = .next s)) ∧
  (∀ (s : State) (core : Nat) (on : Bool), core < 256 →
    (∀ k : Nat, k < s.teams.length → (s.team k).core = core → (s.team k).place.onCore = false) →
    exec (.powerGating core on) s = .next (s.setCore core { s.core core with powered := on })) ∧
  (∀ (s : State) (core k : Nat) (on : Bool), k < s.teams.length → (s.team k).core = core → (s.team k).place.onCore = true →
    exec (.powerGating core on) s = .next s)

/-- R338, R346, R385, R386, R387, R409: a context is sealed, with a new trace key, unless a live port carries no IDE stream; a report for a sealed
context holds what R387 lists, with the trace key wrapped to the owner's key and both signatures, and a content key wrapped to its ephemeral key
is taken; a member's capacity is learned once its bit is set; a port comes up, goes down quarantined and returns; and the collectives that used
a lost port leave its links, those still running with a notice at the next epoch, unless a fatal error has stopped Whist. -/
def Obligations.SealNodeAndPortEvents : Prop :=
  (∀ (s : State) (c : Nat), s.dev.status = 3 → c < 64 → (s.ctx c).sealed = false →
    ((∀ p ∈ s.dev.ports, p.up = true → p.quar = false → p.ide = true) → ∃ t : State, exec (.sealContext c) s = .next t ∧
      t.ctx c = { s.ctx c with sealed := true, tkey := Config.freshKey s.dev.seals } ∧ (∀ d : Nat, d ≠ c → t.ctx d = s.ctx d) ∧
      t.dev = { s.dev with seals := s.dev.seals + 1 } ∧ WorkKept s t ∧ StoreKept s t) ∧
    ((∃ p ∈ s.dev.ports, p.up = true ∧ p.quar = false ∧ p.ide = false) → exec (.sealContext c) s = .next s)) ∧
  (∀ (s : State) (c : Nat), (s.dev.status ≠ 3 ∨ (s.ctx c).sealed = true) → exec (.sealContext c) s = .next s) ∧
  (∀ (s : State) (c nonce : Nat) (owner images : List (BitVec 8)),
    (s.dev.status = 3 → (s.ctx c).sealed = true → ∃ (t : State) (r : Report), exec (.attestationReport c ⟨nonce, owner, images⟩) s = .next t ∧
      t.dev = { s.dev with reports := s.dev.reports ++ [r] } ∧
      r.identity = s.dev.identity ∧ r.firmware = s.dev.firmware ∧ r.config = s.dev.config ∧ r.images = Config.sha384 images ∧ r.nonce = nonce ∧
      r.ephemeral = Config.ephemeral s.fresh ∧ r.traceKey = Config.wrapKey (s.ctx c).tkey owner ∧
      (let parts := [r.identity, r.firmware, r.config, r.images, toBytes 48 nonce, r.ephemeral, r.traceKey]
       r.ecdsa = Config.ecdsaSign s.fresh s.dev.identity parts ∧ r.lms = Config.lmsSign s.fresh s.dev.identity parts) ∧
      t.ctx c = { s.ctx c with eph := some s.fresh } ∧ s.fresh < t.fresh ∧ (∀ d : Nat, d ≠ c → t.ctx d = s.ctx d) ∧ WorkKept s t ∧ StoreKept s t) ∧
    (s.dev.status ≠ 3 ∨ (s.ctx c).sealed = false → exec (.attestationReport c ⟨nonce, owner, images⟩) s = .next s)) ∧
  (∀ (s : State) (c : Nat) (wrapped : List (BitVec 8)),
    (∀ n : Nat, s.dev.status = 3 → (s.ctx c).sealed = true → (s.ctx c).eph = some n →
      exec (.keyUnwrap c wrapped) s = .next (s.setCtx c { s.ctx c with key := Config.unwrapKey n wrapped })) ∧
    (s.dev.status ≠ 3 ∨ (s.ctx c).sealed = false ∨ (s.ctx c).eph = none → exec (.keyUnwrap c wrapped) s = .next s)) ∧
  (∀ (s : State) (d capacity : Nat), (s.dev.member d = true → ∃ t : State, exec (.nodeCapacityLearned d capacity) s = .next t ∧
      (s.dev.nen = true → d ≠ s.dev.nodeId → t.dev.windowCap d = some capacity) ∧
      (∀ e : Nat, e ≠ d → t.dev.windowCap e = s.dev.windowCap e) ∧ WorkKept s t ∧ StoreKept s t) ∧
    (s.dev.member d = false → exec (.nodeCapacityLearned d capacity) s = .next s)) ∧
  (∀ (s : State) (port peer far : Nat) (ide : Bool), port < 8 → peer < 2 ^ 18 → far < 8 → exec (.linkTrained port peer far ide) s =
    .next (s.setPort port { s.port port with up := true, peer, far, ide })) ∧
  (∀ (s : State) (port : Nat), port < 8 → exec (.quarantineClear port) s = .next (s.setPort port { s.port port with quar := false })) ∧
  (∀ (s : State) (port : Nat), port < 8 → (s.port port).up = true → (s.port port).quar = true →
    exec (.portLinkDown port) s = .next (s.setPort port { s.port port with up := false, ide := false })) ∧
  (∀ (s : State) (port : Nat), port < 8 → (s.port port).up = false →
    exec (.portLinkDown port) s = .next s ∧ exec (.ackTimeout port) s = .next s) ∧
  (∀ (s : State) (port : Nat), port < 8 → (s.port port).up = true → (s.port port).quar = false → s.dev.status = 7 →
    exec (.portLinkDown port) s = .next (s.setPort port { s.port port with up := false, quar := true, ide := false }) ∧
    exec (.ackTimeout port) s = .next s) ∧
  (∀ (s : State) (port : Nat) (i : Instr), port < 8 → (i = .portLinkDown port ∨ i = .ackTimeout port) → (s.port port).up = true →
    (s.port port).quar = false → s.dev.status ≠ 7 → ∃ (t : State) (sent : List OutMsg), exec i s = .next t ∧ (t.port port).quar = true ∧
      (t.port port).up = decide (i = .ackTimeout port) ∧ t.dev.out = s.dev.out ++ sent ∧
      (∀ n : Nat, n < s.colls.length → let c := s.coll n
        let uses := fun e : Edge => (e.a == c.myrank && e.p == port) || (e.b == c.myrank && e.pb == port)
        let left := c.mine.filter fun e => !uses e
        (left = c.mine → t.coll n = c) ∧
        (left ≠ c.mine → (c.ended = true ∨ c.err ≠ 0) → t.coll n = { c with mine := left }) ∧
        (left ≠ c.mine → c.ended = false → c.err = 0 → (t.coll n).epoch = c.epoch + 1 ∧ (t.coll n).ready = false ∧ (t.coll n).mine = left ∧
          (∃ e ∈ c.mine, uses e = true ∧ (t.coll n).notices = c.notices ++ [(c.epoch + 1, e)] ∧
            .notice ⟨c.commId, c.seqNo⟩ (c.epoch + 1) e ∈ sent) ∧
          ∃ m ∈ (t.coll n).floods, m.rank = c.myrank ∧ m.epoch = c.epoch + 1 ∧ m.edges = left ∧ .flood ⟨c.commId, c.seqNo⟩ m ∈ sent)) ∧
      WorkKept s t ∧ StoreKept s t)

/-- R337, R339, R340, R343 to R346, R386, R391: a collective first floods its live links; once every rank's flood is held it fails where parameters
differ (5), links join no tree (6) or no chunk size fits (7), and else builds its trees: up to four, tree τ from rank τ·N/4, each taking an unused
link at the rank reached earliest, of those at it the one to the lowest other rank and then of the lowest port; a flood is held and passed on once,
a higher epoch begins a recovery; a failure notice is passed on once, quarantines an own end of its link, and begins its epoch; a chunk's message
waits for this rank to be ready; the rebuild takes the trees and the chunks in flight that fit; an isolated rank fails; and at the end the status is
written and released at fabric scope. Sums of partials are the sums of their codes; in ordered mode two partials combine only as the two children,
lower ranks on the left, of one canonical node, for as long as such a pair is present, and what remains goes to the parent once the subtree is
complete. The model's choices: both ends must flood a link before it stands in the table, a notice of an old epoch still quarantines the own end, a
flood carries the chunk size so that a rank which had not begun takes that of those that had (log 16), and a rank that has ended still takes floods
and notices (log 31). -/
def Obligations.CollectiveEvents : Prop :=
  let stands := fun (s : State) (key : CollKey) (id : Nat) => id < s.colls.length ∧ (s.coll id).begun = true ∧
    (⟨(s.coll id).commId, (s.coll id).seqNo⟩ : CollKey) = key ∧
    ∀ j : Nat, j < id → ¬ ((s.coll j).begun = true ∧ (⟨(s.coll j).commId, (s.coll j).seqNo⟩ : CollKey) = key)
  (∀ (s : State) (id : Nat), id < s.colls.length → s.dev.status ≠ 7 →
    let c := s.coll id
    let key : CollKey := ⟨c.commId, c.seqNo⟩
    let fl := c.floods.filter fun f => f.epoch == 0
    let trees := if c.n = 1 then [] else buildTrees c.n 4 0 (linkTable fl)
    let alike := ∀ f ∈ fl, f.params = (ownFlood c).params ∧ f.entries = c.ents
    let failed := fun (err : Nat) => exec (.collectiveStart id) s = .next (s.setColl id { c with err })
    c.ended = false → c.err = 0 → c.ready = false → c.wait = none → c.epoch = 0 →
    (c.begun = false → (∀ p ∈ s.dev.inbox, p.1 ≠ key) → ∃ (t : State) (m : FloodMsg), exec (.collectiveStart id) s = .next t ∧
      (t.coll id).begun = true ∧ (t.coll id).mine = m.edges ∧ t.dev.out = s.dev.out ++ [.flood key m] ∧ m ∈ (t.coll id).floods ∧
      m.rank = c.myrank ∧ m.epoch = 0 ∧ m.entries = c.ents ∧ m.params = (ownFlood c).params ∧
      (∀ e : Edge, e ∈ m.edges ↔ ∃ i : Nat, i < s.dev.ports.length ∧ (s.port i).up = true ∧ (s.port i).quar = false ∧
        ((s.ctx c.ctx).sealed = true → (s.port i).ide = true) ∧
        (let r := c.ents.idxOf (s.port i).peer
         r < c.ents.length ∧ r ≠ c.myrank ∧ e = if c.myrank < r then ⟨c.myrank, r, i, (s.port i).far⟩ else ⟨r, c.myrank, (s.port i).far, i⟩)) ∧
      (∀ n : Nat, n ≠ id → t.coll n = s.coll n) ∧ WorkKept s t ∧ StoreKept s t) ∧
    (∀ m : FloodMsg, c.begun = false → s.dev.inbox = [(key, .flood m)] → m.epoch = 0 → m.rank ≠ c.myrank →
      (∀ f ∈ c.floods, f.rank ≠ m.rank) → ∃ t : State, exec (.collectiveStart id) s = .next t ∧ (t.coll id).begun = true ∧
        m ∈ (t.coll id).floods ∧ t.dev.inbox = [] ∧ .flood key m ∈ t.dev.out) ∧
    (c.begun = true → ¬ alike → failed 5) ∧
    (c.begun = true → alike → c.heard = false → c.cutOff = false → exec (.collectiveStart id) s = .next s) ∧
    (c.begun = true → alike → c.heard = false → c.cutOff = true → failed 6) ∧
    (c.begun = true → c.heard = true → alike → c.n ≠ 1 → trees = [] → failed 6) ∧
    (c.begun = true → c.heard = true → alike → (c.n = 1 ∨ trees ≠ []) →
      let need := fun (m : FloodMsg) (cs : Nat) => cs * (2 * (waits c.d c.n m.rank trees).sum) + if m.overlap then c.d.count * c.d.ps else 0
      let fit := fun (cs : Nat) => ∀ m ∈ fl, need m cs ≤ m.wlen
      ((∀ n : Nat, 12 ≤ n → n ≤ 18 → ¬ fit (2 ^ n)) → failed 7) ∧
      (∀ (n : Nat) (u : State) (l : List Piece), 12 ≤ n → n ≤ 18 → fit (2 ^ n) → (∀ k : Nat, n < k → k ≤ 18 → ¬ fit (2 ^ k)) →
        c.d.overlap c.n = false →
        whistChecks (s.setColl id { c with trees, cs := 2 ^ n, flight := 2 }) id .store [(c.d.prog, 8 * ({ c with trees, cs := 2 ^ n } : Coll).nch)] = (u, some l) →
        ∃ t : State, exec (.collectiveStart id) s = .next t ∧ (t.coll id).trees = trees ∧ (t.coll id).cs = 2 ^ n ∧ (t.coll id).flight = 2 ∧ (t.coll id).ready = true ∧
          (t.coll id).chunks.length = ({ c with trees, cs := 2 ^ n } : Coll).nch ∧ t.teams.length = s.teams.length))) ∧
  (∀ (s : State) (key : CollKey), s.dev.status ≠ 7 → (∀ c ∈ s.colls, ¬ (c.begun = true ∧ (⟨c.commId, c.seqNo⟩ : CollKey) = key)) →
    (∀ m : FloodMsg, exec (.tableFlood key m) s = .next { s with dev := { s.dev with inbox := s.dev.inbox ++ [(key, .flood m)] } }) ∧
    (∀ (k : Nat) (m : CollMsg), exec (.collectivePartial key k m) s = .next { s with dev := { s.dev with inbox := s.dev.inbox ++ [(key, .part k m)] } }) ∧
    (∀ (ep : Nat) (e : Edge), exec (.failureNotice key ep e) s = .next { s with dev := { s.dev with inbox := s.dev.inbox ++ [(key, .notice ep e)] } })) ∧
  (∀ (s : State) (key : CollKey) (id : Nat) (m : FloodMsg), s.dev.status ≠ 7 → stands s key id →
    let c := s.coll id
    let same := fun (f : FloodMsg) => f.rank == m.rank && f.epoch == m.epoch && f.params == m.params && f.entries == m.entries
    let held := fun (c : Coll) => c.floods.any same
    (c.err ≠ 0 ∨ m.epoch < c.epoch ∨ (m.epoch = c.epoch ∧ held c = true) → exec (.tableFlood key m) s = .next s) ∧
    (c.err = 0 → m.epoch = c.epoch → held c = false →
      exec (.tableFlood key m) s = .next ((s.setColl id { c with floods := c.floods ++ [m] }).send (.flood key m))) ∧
    (c.err = 0 → c.epoch < m.epoch → ∃ t : State, exec (.tableFlood key m) s = .next t ∧
      let own : FloodMsg := { ownFlood c with epoch := m.epoch }
      let kept := own :: c.floods.filter fun f => f.epoch == m.epoch && f.rank != c.myrank
      let new := if kept.any same then [] else [m]
      (t.coll id).epoch = m.epoch ∧ (t.coll id).ready = false ∧ (t.coll id).floods = kept ++ new ∧ (t.coll id).mine = c.mine ∧
      own.rank = c.myrank ∧ own.edges = c.mine ∧ own.entries = c.ents ∧ own.cs = c.cs ∧
      (∀ k : Nat, k < c.chunks.length → (k, (getAt ({} : Chunk) c.chunks k).state) ∈ own.marks) ∧
      (t.coll id).chunks = c.chunks.map (fun x => if x.state = 2 then x else
        { x with parts := [], parked := 0, from_ := [], sent := false, res := [], put := 0 }) ∧
      t.dev.out = s.dev.out ++ .flood key own :: new.map (fun f => .flood key f) ∧ (∀ n : Nat, n ≠ id → t.coll n = s.coll n) ∧ WorkKept s t ∧
      StoreKept s t)) ∧
  (∀ (s : State) (key : CollKey) (id epoch : Nat) (link : Edge), s.dev.status ≠ 7 → stands s key id →
    let c := s.coll id
    let ends := fun (p : Nat) => (link.a = c.myrank ∧ link.p = p) ∨ (link.b = c.myrank ∧ link.pb = p)
    (c.err ≠ 0 ∨ (epoch, link) ∈ c.notices → exec (.failureNotice key epoch link) s = .next s) ∧
    (c.err = 0 → (epoch, link) ∉ c.notices → ∃ t : State, exec (.failureNotice key epoch link) s = .next t ∧
      .notice key epoch link ∈ t.dev.out ∧ (epoch, link) ∈ (t.coll id).notices ∧ link ∉ (t.coll id).mine ∧
      (∀ p : Nat, p < s.dev.ports.length → ends p → (∀ q : Nat, q < p → ¬ ends q) → (s.port p).up = true → (t.port p).quar = true) ∧
      (∀ p : Nat, ¬ ends p → t.port p = s.port p) ∧
      (c.epoch < epoch → (t.coll id).epoch = epoch ∧ (t.coll id).ready = false) ∧
      (epoch ≤ c.epoch → (∀ p : Nat, ends p → ∀ e ∈ c.mine, e ≠ link → ¬ ((e.a = c.myrank ∧ e.p = p) ∨ (e.b = c.myrank ∧ e.pb = p))) →
        (t.coll id).epoch = c.epoch ∧ (t.coll id).ready = c.ready ∧ (t.coll id).mine = c.mine.filter (· != link)) ∧
      WorkKept s t ∧ StoreKept s t)) ∧
  (∀ (s : State) (key : CollKey) (id k : Nat) (m : CollMsg), s.dev.status ≠ 7 → stands s key id →
    let c := s.coll id
    let x := getAt ({} : Chunk) c.chunks k
    let ep := match m with | .up e _ _ => e | .down e _ _ _ => e
    (c.err ≠ 0 ∨ ep < c.epoch → exec (.collectivePartial key k m) s = .next s) ∧
    (c.err = 0 → c.epoch < ep ∨ (c.epoch = ep ∧ c.ready = false) →
      exec (.collectivePartial key k m) s = .next (s.setColl id { c with late := c.late ++ [(k, m)] })) ∧
    (c.err = 0 → c.epoch = ep → c.ready = true → (c.chunks.length ≤ k ∨ x.state = 2) → exec (.collectivePartial key k m) s = .next s) ∧
    (∀ (src : Nat) (p : Partial), m = .up ep src p → c.err = 0 → c.epoch = ep → c.ready = true → k < c.chunks.length → x.state ≠ 2 →
      (c.d.ord = true → ∀ q ∈ x.parts, ¬ (q.lo ≤ p.lo ∧ p.hi ≤ q.hi)) → (c.d.ord = false → src ∉ x.from_) →
      exec (.collectivePartial key k m) s = .next (pump (s.setChunk id k { x with parts := x.parts ++ [p], from_ := uni x.from_ [src] }) id)) ∧
    (∀ (src : Nat) (p : Partial) (scales : List Nat), m = .down ep src p scales → c.err = 0 → c.epoch = ep → c.ready = true →
      k < c.chunks.length → x.state ≠ 2 → (∀ q ∈ x.res, q.1.lo ≠ p.lo) →
      let u := s.setChunk id k { x with res := x.res ++ [(p, scales)] }
      exec (.collectivePartial key k m) s = .next (pump (((neighbours (c.treeOf k).1 c.myrank).filter fun v => some v != some src).foldl
        (fun s v => s.send (.part key k v (.down c.epoch c.myrank p scales))) u) id))) ∧
  (∀ (s : State) (id : Nat), id < s.colls.length → s.dev.status ≠ 7 →
    let c := s.coll id
    let fl := c.floods.filter fun f => f.epoch == c.epoch
    let trees := buildTrees c.n 4 0 (linkTable fl)
    let need := fun (m : FloodMsg) (cs : Nat) (per : List Nat → Nat) =>
      cs * per (waits c.d c.n m.rank trees) + if m.overlap then c.d.count * c.d.ps else 0
    let fit := fun (cs : Nat) (per : List Nat → Nat) => ∀ m ∈ fl, need m cs per ≤ m.wlen
    let two := fun (l : List Nat) => 2 * l.sum
    let one := fun (l : List Nat) => l.sum
    let single := fun (l : List Nat) => l.foldl max 0
    let alike := c.chunks ≠ [] ∨ ∀ f ∈ fl, f.params = (ownFlood c).params ∧ f.entries = c.ents
    let out := exec (.recoveryRebuild id) s
    c.ended = false → c.err = 0 → c.ready = false → c.begun = true → c.wait = none → c.epoch ≠ 0 →
    (¬ alike → out = .next (s.setColl id { c with err := 5 })) ∧
    (alike → c.heard = false → (c.mine = [] ∨ c.cutOff = false) → out = .next s) ∧
    (alike → c.heard = false → c.mine ≠ [] → c.cutOff = true → out = .next (s.setColl id { c with err := 6 })) ∧
    (c.heard = true → c.chunks ≠ [] → trees = [] → out = .next (s.setColl id { c with recov := c.recov + 1, err := 6 })) ∧
    (c.heard = true → c.chunks ≠ [] → trees ≠ [] → ¬ fit c.cs two → ¬ fit c.cs one → ¬ fit c.cs single →
      out = .next (s.setColl id { c with recov := c.recov + 1, err := 7 })) ∧
    (c.heard = true → c.chunks ≠ [] → trees ≠ [] → fit c.cs two ∨ fit c.cs one ∨ fit c.cs single →
      ∃ t : State, out = .next t ∧ (t.coll id).trees = trees ∧ (t.coll id).ready = true ∧
        (t.coll id).recov = c.recov + 1 ∧ (t.coll id).epoch = c.epoch ∧ (t.coll id).chunks.length = c.chunks.length ∧
        (t.coll id).flight = (if fit c.cs two then 2 else if fit c.cs one then 1 else 0) ∧ t.teams.length = s.teams.length) ∧
    (alike → c.heard = true → c.chunks = [] → c.n ≠ 1 →
      let recov := if c.built = c.epoch then c.recov else c.recov + 1
      let c' := { c with recov, built := c.epoch }
      (trees = [] → out = .next (s.setColl id { c' with err := 6 })) ∧
      (trees ≠ [] → ∀ cs : Nat, ((∃ f ∈ fl, f.cs ≠ 0) → (∀ f ∈ fl, f.cs = 0 ∨ f.cs = cs) ∧ cs ≠ 0) →
        ((∀ f ∈ fl, f.cs = 0) → (∃ n : Nat, 12 ≤ n ∧ n ≤ 18 ∧ cs = 2 ^ n ∧ ∀ k : Nat, n < k → k ≤ 18 → ¬ fit (2 ^ k) two) ∧ (fit cs two ∨ cs = 2 ^ 12)) →
        let sized := ∃ f ∈ fl, f.cs ≠ 0
        let fits_ := fit cs two ∨ (sized ∧ (fit cs one ∨ fit cs single))
        let flight := if fit cs two then 2 else if fit cs one then 1 else 0
        let began := { c' with trees, cs, flight }
        (¬ fits_ → out = .next (s.setColl id { c' with err := 7 })) ∧
        (∀ (u : State) (l : List Piece), fits_ → c.d.overlap c.n = false →
          whistChecks (s.setColl id began) id .store [(c.d.prog, 8 * began.nch)] = (u, some l) →
          ∃ t : State, out = .next t ∧ (t.coll id).trees = trees ∧ (t.coll id).cs = cs ∧ (t.coll id).flight = flight ∧ (t.coll id).ready = true ∧
            (t.coll id).recov = recov ∧ (t.coll id).chunks.length = began.nch ∧ t.teams.length = s.teams.length)))) ∧
  (∀ (d : CollDesc) (x y : Partial), (collJoin d x y).lo = min x.lo y.lo ∧ (collJoin d x y).hi = max x.hi y.hi ∧
    (d.rop = 0 → (collJoin d x y).codes = List.zipWith (fun a b => (addlog a b d.pfmt (rmodeOf d.rmode) 0).1) x.codes y.codes) ∧
    (d.rop ≠ 0 → (collJoin d x y).codes = List.zipWith (fun a b =>
      (logPick d.pfmt (d.rop == 2) (decodeLog d.pfmt a) (decodeLog d.pfmt b)).code d.pfmt) x.codes y.codes)) ∧
  (∀ (n : Nat) (f : Partial → Partial → Partial) (l : List Partial),
    let children := fun (x y : Partial) => x ∈ l ∧ y ∈ l ∧ ∃ m, m < 19 ∧ x.lo % 2 ^ (m + 1) = 0 ∧ x.hi + 1 = x.lo + 2 ^ m ∧ y.lo = x.hi + 1 ∧
      y.hi + 1 = min (x.lo + 2 ^ (m + 1)) n
    (∀ m, joinOne n f l = some m → ∃ x y, children x y ∧ m = (l.filter fun z => z != x && z != y) ++ [f x y]) ∧
    (joinOne n f l = none ↔ ∀ x y, ¬ children x y) ∧ joinAll n f 0 l = l ∧
    (∀ fuel, joinAll n f (fuel + 1) l = match joinOne n f l with | some m => joinAll n f fuel m | none => l) ∧
    ∀ fuel, l.length ≤ fuel → joinOne n f (joinAll n f fuel l) = none) ∧
  (∀ (s : State) (id k : Nat),
    let c := s.coll id
    let x := getAt ({} : Chunk) c.chunks k
    c.d.reduces = true → c.d.ord = true → x.state = 1 → x.sent = false → x.parked = 0 → x.parts ≠ [] →
    let parts := joinAll c.n (collJoin c.d) (2 * c.n) x.parts
    let covered := fun (r : Nat) => ∃ p ∈ parts, p.lo ≤ r ∧ r ≤ p.hi
    let tree := (c.treeOf k).1
    let root := (c.treeOf k).2
    let below := fun (r : Nat) => r = c.myrank ∨ c.n ≠ 1 ∧ ∃ v ∈ childrenOf tree root c.n c.myrank, r ∈ sideOf tree c.myrank c.n v
    let top := c.n = 1 ∨ parentOf tree root c.n c.myrank = none
    let held := fun (sent : Bool) => s.setChunk id k { x with parts, parked := 0, sent }
    ((∃ r, below r ∧ ¬ covered r) → combineChunk s id k = parkParts (held false) id k parts) ∧
    (∀ v, (∀ r, below r → covered r) → c.n ≠ 1 → parentOf tree root c.n c.myrank = some v →
      combineChunk s id k = (parts.foldl (fun s p => s.send (.part c.key k v (.up c.epoch c.myrank p))) (held true), true)) ∧
    (∀ p, (∀ r, below r → covered r) → top → parts.head? = some p →
      combineChunk s id k = (addResult (held true) id k none (rootResult c.d p) [], true))) ∧
  (∀ (n : Nat) (edges : List Edge), 1 ≤ n → (∀ e ∈ edges, e.a < n ∧ e.b < n ∧ e.a ≠ e.b) →
    let trees := buildTrees n 4 0 edges
    let unused := fun (k : Nat) (e : Edge) => e ∈ edges ∧ ∀ t ∈ trees.take k, e ∉ t.1
    let joins := fun (e : Edge) (u v : Nat) => (e.a = u ∧ e.b = v) ∨ (e.b = u ∧ e.a = v)
    trees.length ≤ 4 ∧
    (∀ (k : Nat) (tree : List Edge) (root : Nat), trees[k]? = some (tree, root) → root = k * n / 4 ∧ tree.length + 1 = n ∧
      ∃ order : List Nat, order.Nodup ∧ order.length = n ∧ (∀ u ∈ order, u < n) ∧ order.head? = some root ∧
        ∀ (i : Nat) (e : Edge), tree[i]? = some e → unused k e ∧ ∃ j u v, j ≤ i ∧ order[j]? = some u ∧ order[i + 1]? = some v ∧ joins e u v ∧
          ∀ (f : Edge) (j' u' v' : Nat), unused k f → j' ≤ i → order[j']? = some u' → v' ∉ order.take (i + 1) → joins f u' v' →
            j < j' ∨ j = j' ∧ (v < v' ∨ v = v' ∧ e.p ≤ f.p)) ∧
    (trees.length < 4 → ∃ S : List Nat, trees.length * n / 4 ∈ S ∧ (∃ u, u < n ∧ u ∉ S) ∧
      ∀ e, unused trees.length e → (e.a ∈ S ↔ e.b ∈ S))) ∧
  (∀ (s : State) (id : Nat) (u : State) (p : Piece), id < s.colls.length → s.dev.status ≠ 7 →
    let c := s.coll id
    let raised := fun (b : Nat) => ∃ x ∈ c.chunks, ∃ r ∈ x.res, r.1.flags.getLsbD b = true
    c.ended = false → (c.err ≠ 0 ∨ (c.ready = true ∧ ∀ x ∈ c.chunks, x.state = 2)) → c.err < 2 ^ 4 → c.trees.length < 2 ^ 12 →
    whistChecks s id .store [(c.desc + 80, 8)] = (u, some [p]) → p.len = 8 → p.pa % 4 = 0 →
    ∃ t : State, exec (.collectiveComplete id) s = .next t ∧ (t.coll id).ended = true ∧ (t.coll id).rel = some s.rels.length ∧
      (∃ r : Release, t.rels = s.rels ++ [r] ∧ r.party = .whist id ∧ r.scope = .fabric ∧ r.acts = .bytes c.ctx (c.d.named c.n c.nch c.desc)) ∧
      (∃ r0 r1 : WriteRec, t.writes = s.writes ++ [r0, r1] ∧ r0.word = p.pa ∧ r1.word = p.pa + 4 ∧
        r0.val.toNat % 256 = (if c.err = 0 then 2 else 3) ∧ r0.val.toNat < 2 ^ 13 ∧ (c.err ≠ 0 → r0.val.toNat = 3) ∧
        (c.err = 0 → ∀ b : Nat, b < 5 → (r0.val.getLsbD (8 + b) = true ↔ raised b)) ∧
        r1.val.toNat % 2 ^ 12 = c.trees.length ∧ r1.val.toNat / 2 ^ 12 % 2 ^ 4 = c.err ∧ r1.val.toNat / 2 ^ 16 = c.recov % 2 ^ 16) ∧
      t.groups = s.groups) ∧
  (∀ (s : State) (id : Nat), s.dev.status ≠ 7 → (s.coll id).ended = true ∨ ((s.coll id).err = 0 ∧
      ((s.coll id).ready = false ∨ ∃ x ∈ (s.coll id).chunks, x.state ≠ 2)) → exec (.collectiveComplete id) s = .next s) ∧
  (∀ (s : State) (id : Nat), id < s.colls.length → s.dev.status ≠ 7 → (s.coll id).ended = false → (s.coll id).begun = true →
    (s.coll id).epoch ≠ 0 → (s.coll id).mine = [] → (s.coll id).n ≠ 1 → (s.coll id).err = 0 →
    exec (.isolatedRankTimeout id) s = .next (s.setColl id { s.coll id with err := 6 }))

/-- R252, R313, R316 to R318, R325, R386, R392, R409: a host write, and a peer's scoped store, arrive word by word as synchronising class-0 writes
after a release at their scope, which is the model's choice (log 40), the host's after the command unit's writes (log 25); a peer's plain store
synchronises nothing; a host read returns the current bytes, a peer's load answers with what a plain load of its party sees, or with a scope with the
current bytes; a peer's atomic is one class-3 operation at the home L2 that answers with the old value, a release or an acquire where it says so, and
its gate operations read and write the gate word at the scope they name and queue as a group's do, a release granting those that wait; outside local
memory, misaligned, or for the host in the window of a sealed context, nothing is done and nothing returned. A host read, a scoped load, an atomic
that acquires and a granted request take in what the releases that pair with them cover: those behind the synchronising writes of the words read. A
store of part of a word leaves its other bytes as that party's load returns them. Two parties of one peer device are in one device instance. The host
and peers write and read host and peer memory, which no row reaches, in the same way (a turn of the agenda). The model's choices: an atomic's and a
gate operation's write is recorded as the peer's, in class 3 (log 50), the answer to a malformed gate word, which is empty (log 40), and that a range
in the device's own window is local (log 54). -/
def Obligations.ForeignAccesses : Prop :=
  let wrote := fun (s t : State) (party : Party) (a : Nat) (data : List (BitVec 8)) (sync : WriteRec → Prop) =>
    (∃ l : List WriteRec, t.writes = s.writes ++ l ∧ l.length = (a + data.length - 1) / 4 - a / 4 + 1 ∧ ∀ (k : Nat) (w : WriteRec), l[k]? = some w →
      w.word = (a / 4 + k) * 4 ∧ w.party = party ∧ w.cls = 0 ∧ sync w ∧
      ∀ b : Nat, b < 4 → let m := w.word + b
        w.val.extractLsb' (8 * b) 8 = if a ≤ m ∧ m < a + data.length then getAt 0 data (m - a) else
          match party with | .peer p => plainByte s none (s.peer p) m | _ => memGet s.mem m) ∧
    (∀ b : Nat, ¬ (a / 4 * 4 ≤ b ∧ b < (a + data.length + 3) / 4 * 4) → memGet t.mem b = memGet s.mem b) ∧ WorkKept s t ∧ t.ctxs = s.ctxs
  let released := fun (s t : State) (party : Party) (sc : Scope) =>
    ∃ r : Release, t.rels = s.rels ++ [r] ∧ r.party = party ∧ r.scope = sc ∧ r.acts = .every
  let named := fun (sc : Scope) (w : WriteRec) => ∃ l : List Nat, w.sync = some (sc, l)
  let synced := fun (s : State) (sc : Scope) (w : WriteRec) => ∃ l : List Nat, w.sync = some (sc, l) ∧ s.rels.length ∈ l
  let paired := fun (s : State) (p : Party) (sc : Scope) (a n : Nat) (r : Release) =>
    ∃ (word i j : Nat) (x y : WriteRec) (sc' : Scope) (l : List Nat) (k : Nat), word % 4 = 0 ∧ a < word + 4 ∧ word < a + n ∧
      winner none (writesTo s word) = some (i, y) ∧ y.sync.isSome = true ∧ (j, x) ∈ writesTo s word ∧ j ≤ i ∧ x.sync = some (sc', l) ∧
      mayPair s sc' x.party sc p = true ∧ k ∈ l ∧ s.rels[k]? = some r ∧ mayPair s r.scope r.party sc p = true
  let saw := fun (s : State) (v : MemView) (p : Party) (sc : Scope) (a n : Nat) => ∀ r : Release, paired s p sc a n r →
    (∀ m ∈ r.know, m ∈ v.know) ∧ ∀ m ∈ r.cov, m < s.writes.length → m ∈ v.reached
  (∀ (s : State) (pa : Nat) (data : List (BitVec 8)), data ≠ [] → Memory.wf s.mem = true →
    (localRange s.dev pa data.length = true → inSealedWindow s pa data.length = false →
      ∃ t : State, exec (.hostLinkAccess pa data 0) s = .next t ∧ wrote s t .host (homeAddr s.dev pa) data
          (fun w => synced s .system w ∧ ∀ (i : Nat) (x : WriteRec), s.writes[i]? = some x → x.party = .cu → i ∈ w.prec) ∧
        released s t .host .system) ∧
    (localRange s.dev pa data.length = false ∨ inSealedWindow s pa data.length = true →
      exec (.hostLinkAccess pa data 0) s = .next { s with dev := { s.dev with hostData := [] } })) ∧
  (∀ (s : State) (pa n : Nat), 0 < n →
    (localRange s.dev pa n = true → inSealedWindow s pa n = false → ∃ t : State, exec (.hostLinkAccess pa [] n) s = .next t ∧
      t.dev = { s.dev with hostData := memRead s.mem (homeAddr s.dev pa) n } ∧ saw s t.hostView .host .system (homeAddr s.dev pa) n ∧
      WorkKept s t ∧ StoreKept s t ∧ t.rels = s.rels) ∧
    (localRange s.dev pa n = false ∨ inSealedWindow s pa n = true →
      exec (.hostLinkAccess pa [] n) s = .next { s with dev := { s.dev with hostData := [] } })) ∧
  (∀ (s : State) (pa n : Nat), 0 < n → localRange s.dev pa n = true → (inSealedWindow s pa n = true ↔ ∃ x ∈ s.ctxs, x.sealed = true ∧
    wfield x.heapbase 0 1 = 1 ∧
    let base := homeAddr s.dev ((wfield x.heapbase 21 36 * 2 ^ 21 + wfield x.heapoff 21 43 * 2 ^ 21) % 2 ^ 52)
    base < homeAddr s.dev pa + n ∧ homeAddr s.dev pa < base + wfield x.heaplen 21 31 * 2 ^ 21)) ∧
  (∀ (s : State) (peer : PeerId) (pa sc : Nat) (data : List (BitVec 8)), data ≠ [] → Memory.wf s.mem = true → localRange s.dev pa data.length = true →
    (sc = 0 → ∃ t : State, exec (.peerMemoryTransaction peer pa (.store data) 0) s = .next t ∧
      wrote s t (.peer peer) (homeAddr s.dev pa) data (fun w => w.sync = none) ∧ t.rels = s.rels) ∧
    (sc ≠ 0 → ∃ t : State, exec (.peerMemoryTransaction peer pa (.store data) sc) s = .next t ∧
      wrote s t (.peer peer) (homeAddr s.dev pa) data (synced s (scopeOf sc)) ∧ released s t (.peer peer) (scopeOf sc))) ∧
  (∀ (s : State) (peer : PeerId) (pa n sc : Nat), 0 < n → localRange s.dev pa n = true →
    ∃ t : State, exec (.peerMemoryTransaction peer pa (.load n) sc) s = .next t ∧
      t.dev = { s.dev with out := s.dev.out ++ [.reply peer (if sc = 0 then
        (List.range n).map fun i => plainByte s none (s.peer peer) (homeAddr s.dev pa + i) else memRead s.mem (homeAddr s.dev pa) n)] } ∧ (sc = 0 → t.peerView = s.peerView) ∧
      (sc ≠ 0 → saw s (t.peer peer) (.peer peer) (scopeOf sc) (homeAddr s.dev pa) n) ∧ WorkKept s t ∧ StoreKept s t ∧ t.rels = s.rels) ∧
  (∀ (s : State) (peer : PeerId) (pa op ty rnd v cmp rho sc : Nat) (rel acq : Bool), Memory.wf s.mem = true →
    let w := tyWidth ty
    let a := homeAddr s.dev pa
    ((ty = 8 ∧ op < 3) ∨ (op < 8 ∧ ty ∈ [0, 1, 4, 5])) → w = 32 ∨ w = 64 → pa % (w / 8) = 0 → a % 4 = 0 → localRange s.dev pa (w / 8) = true →
    let old := memNat s.mem a (w / 8)
    let new := (atomNew op ty w (rmodeOf rnd) old (v % 2 ^ w) (cmp % 2 ^ w) (rho % 2 ^ w)).1
    ∃ t : State, exec (.peerMemoryTransaction peer pa (.atomic op ty rnd v cmp rho rel acq) sc) s = .next t ∧
      t.dev = { s.dev with out := s.dev.out ++ [.reply peer (toBytes (w / 8) old)] } ∧
      (∃ l : List WriteRec, t.writes = s.writes ++ l ∧ l.length = w / 32 ∧ ∀ (k : Nat) (r : WriteRec), l[k]? = some r → r.word = a + 4 * k ∧ r.cls = 3 ∧
        r.party = .peer peer ∧ named (scopeOf sc) r ∧ (rel = true → synced s (scopeOf sc) r) ∧ r.val = BitVec.ofNat 32 (new / 2 ^ (32 * k))) ∧
      (rel = true → released s t (.peer peer) (scopeOf sc)) ∧ (rel = false → t.rels = s.rels) ∧
      (acq = false → (t.peer peer).reached = (s.peer peer).reached) ∧
      (acq = true → saw s (t.peer peer) (.peer peer) (scopeOf sc) a (w / 8)) ∧ (HomeNextRange s (s.peer peer) a (w / 8) → memNat t.mem a (w / 8) = new % 2 ^ w) ∧
      (∀ b : Nat, ¬ (a ≤ b ∧ b < a + w / 8) → memGet t.mem b = memGet s.mem b) ∧ WorkKept s t ∧ t.ctxs = s.ctxs) ∧
  (∀ (s : State) (peer : PeerId) (pa sc : Nat) (shared : Bool), Memory.wf s.mem = true → pa % 8 = 0 → localRange s.dev pa 8 = true →
    let a := homeAddr s.dev pa
    let n := memNat s.mem a 8
    let sound := n / 2 ^ 32 % 2 ^ 31 = 0 ∧ (n / 2 ^ 63 = 1 → n % 2 ^ 32 = 0)
    let free := (∀ q ∈ s.gateQ, q.1 ≠ a) ∧ n / 2 ^ 63 = 0 ∧ (shared = true ∨ n = 0)
    let new := if shared = true then (n + 1) % 2 ^ 32 else 2 ^ 63
    let left := if n / 2 ^ 63 = 1 then 0 else n - 1
    let out := exec (.peerMemoryTransaction peer pa (.gacq shared) sc) s
    let back := exec (.peerMemoryTransaction peer pa .grel sc) s
    let put := fun (t : State) (x : Nat) => (∃ r0 r1 : WriteRec, t.writes = s.writes ++ [r0, r1] ∧ r0.word = a ∧ r1.word = a + 4 ∧ r0.cls = 3 ∧ r1.cls = 3 ∧
      r0.party = .peer peer ∧ r1.party = .peer peer ∧ named (scopeOf sc) r0 ∧ named (scopeOf sc) r1 ∧ r0.val = BitVec.ofNat 32 x ∧ r1.val = BitVec.ofNat 32 (x / 2 ^ 32)) ∧
      (HomeNextRange s (s.peer peer) a 8 → memNat t.mem a 8 = x) ∧ t.dev = { s.dev with out := s.dev.out ++ [.reply peer (toBytes 8 x)] } ∧
      (∀ b : Nat, ¬ (a ≤ b ∧ b < a + 8) → memGet t.mem b = memGet s.mem b) ∧ WorkKept s t
    (¬ sound → out = .next (s.send (.reply peer [])) ∧ back = .next (s.send (.reply peer []))) ∧
    (sound → free → ∃ t : State, out = .next t ∧ t.gateQ = s.gateQ ∧ put t new ∧ saw s (t.peer peer) (.peer peer) (scopeOf sc) a 8) ∧
    (sound → ¬ free → out = .next { s with gateQ := s.gateQ ++ [(a, .peer peer, shared, scopeOf sc)] }) ∧
    (sound → n = 0 → back = .next (s.send (.reply peer []))) ∧
    (sound → n ≠ 0 → (∀ q ∈ s.gateQ, q.1 ≠ a) → ∃ t : State, back = .next t ∧ t.gateQ = s.gateQ ∧ put t left ∧ released s t (.peer peer) (scopeOf sc)) ∧
    (∀ (hs : List (Party × Scope)) (rest : List (Nat × Party × Bool × Scope)), sound → n ≠ 0 → s.dev.status ≠ 7 →
      s.gateQ.filter (fun q => q.1 == a) = hs.map (fun h => (a, h.1, shared, h.2)) ++ rest → ((s.gateQ.filter fun q => q.1 == a).map (·.2.1)).Nodup →
      ((shared = true ∧ (∀ q, rest.head? = some q → q.2.2.1 = false) ∧ (rest = [] ∨ 0 < (left + hs.length) % 2 ^ 32)) ∨
        (shared = false ∧ left = 0 ∧ hs.length = 1)) →
      HomeNextRange s (s.peer peer) a 8 →
      (∀ h ∈ hs, (∃ p, h.1 = .peer p ∧ HomeNextRange s (s.peer p) a 8) ∨ ∃ g, h.1 = .grp g ∧ g < s.groups.length ∧
        (∃ (eh : Entry) (fh : Full), (s.group g).log = [eh] ∧ eh.instr = .gacq fh) ∧ HomeNextRange s (s.group g).view a 8 ∧ NoSide s g a 8) →
      ∃ t : State, back = .next t ∧ t.gateQ = s.gateQ.filter (fun q => !(q.1 == a && hs.any fun h => q.2.1 == h.1)) ∧
        released s t (.peer peer) (scopeOf sc) ∧ memNat t.mem a 8 = (if shared = true then (left + hs.length) % 2 ^ 32 else 2 ^ 63) ∧
        (∃ new : List WriteRec, t.writes = s.writes ++ new ∧ new.length = 2 + 2 * hs.length ∧
          ∀ w ∈ new, (w.word = a ∨ w.word = a + 4) ∧ w.cls = 3 ∧ w.sync.isSome = true) ∧
        t.dev.out = s.dev.out ++ .reply peer (toBytes 8 left) :: (List.range hs.length).filterMap (fun (k : Nat) => match (hs[k]? : Option (Party × Scope)) with
          | some (Party.peer p, _) => some (OutMsg.reply p (toBytes 8 (if shared = true then (left + k + 1) % 2 ^ 32 else 2 ^ 63)))
          | _ => none) ∧
        (∀ p sc', (.peer p, sc') ∈ hs → saw s (t.peer p) (.peer p) sc' a 8) ∧
        (∀ g sc', (.grp g, sc') ∈ hs → (t.group g).wait = .none ∧ (t.group g).log = [] ∧ RegsKept (s.group g) (t.group g)) ∧
        (∀ g, .grp g ∉ hs.map (·.1) → t.group g = s.group g) ∧
        ∀ b : Nat, ¬ (a ≤ b ∧ b < a + 8) → (∀ g, .grp g ∈ hs.map (·.1) → ¬ SideByte s g b) → memGet t.mem b = memGet s.mem b)) ∧
  (∀ (s : State) (peer : PeerId) (pa sc : Nat) (op : PeerOp), (localRange s.dev pa (peerSpan op) = false ∨ peerSpan op = 0 ∨
      ((op = .grel ∨ ∃ shared : Bool, op = .gacq shared) ∧ pa % 8 ≠ 0) ∨
      (∃ (o ty rnd v cmp rho : Nat) (rel acq : Bool), op = .atomic o ty rnd v cmp rho rel acq ∧
        (pa % (tyWidth ty / 8) ≠ 0 ∨ ¬ ((ty = 8 ∧ o < 3) ∨ (o < 8 ∧ ty ∈ [0, 1, 4, 5]))))) →
    exec (.peerMemoryTransaction peer pa op sc) s = .next (s.send (.reply peer []))) ∧
  (∀ (d : Dev) (pa n : Nat), d.capacity ≤ 2 ^ 40 → 0 < n → (localRange d pa n = true ↔ pa + n ≤ d.capacity ∨
    ∃ k, d.nen = true ∧ d.member d.nodeId = true ∧ pa = 0x400000000000 + d.nodeId * 2 ^ 40 + k ∧ k + n ≤ d.capacity)) ∧
  (∀ (s : State) (p q : PeerId) (g h : Nat),
    let member := fun (p : PeerId) => s.dev.nen = true ∧ s.dev.member p.dev = true ∧ s.dev.named.getLsbD p.dev = true
    (inInstance s .device (.peer p) (.peer q) = true ↔ p.dev = q.dev) ∧ inInstance s .device (.peer p) (.grp g) = false ∧
    inInstance s .device (.grp g) (.grp h) = true ∧ inInstance s .device (.grp g) (.peer p) = false ∧
    (inInstance s .node (.peer p) (.peer q) = true ↔ p.dev = q.dev ∨ member p ∧ member q) ∧
    (inInstance s .node (.peer p) (.grp g) = true ↔ member p) ∧ (inInstance s .node (.grp g) (.peer p) = true ↔ member p) ∧
    inInstance s .node (.host) (.grp g) = false ∧ ∀ x y : Party, inInstance s .system x y = true) ∧
  (∀ (s : State) (l : List Turn) (p : Option PeerId) (pa n sc : Nat) (data : List (BitVec 8)), s.agenda = .away p pa data n sc :: l →
    let len := if data = [] then n else data.length
    (len = 0 ∨ isLocal s.dev pa = true ∨ populated s.dev pa len = false → step s = .next { s with agenda := l }) ∧
    (0 < len → isLocal s.dev pa = false → populated s.dev pa len = true → Memory.wf s.mem = true → ∃ t : State, step s = .next t ∧
      (data = [] → StoreKept s t ∧ WorkKept s t ∧ t.rels = s.rels ∧ (p = none → saw s t.hostView .host .system pa n) ∧
        ∀ q, p = some q → if sc = 0 then t.peerView = s.peerView else saw s (t.peer q) (.peer q) (scopeOf sc) pa n) ∧
      (data ≠ [] → (p = none → wrote s t .host pa data (synced s .system) ∧ released s t .host .system) ∧
        ∀ q, p = some q → if sc = 0 then wrote s t (.peer q) pa data (fun w => w.sync = none) ∧ t.rels = s.rels else
          wrote s t (.peer q) pa data (synced s (scopeOf sc)) ∧ released s t (.peer q) (scopeOf sc))))

end
end

