-- ==== Sys2Proof/Laws/Memory.lean ====
section
/-! SUPPORT. Laws of byte memory: reads after writes, and the canonical form. -/

namespace Sys2Proof.Laws

open Machine

theorem memGet_below : ∀ (m : List Host.Cell) (lo a : Nat), memWfFrom lo m = true → a < lo → memGet m a = 0
  | [], _, _, _, _ => rfl
  | (k, b) :: m, lo, a, h, ha => by
    simp only [memWfFrom, Bool.and_eq_true, decide_eq_true_eq] at h
    have h1 : k ≠ a := by omega
    have h2 : a < k := by omega
    simp [memGet, h1, h2]

/-- A byte just stored reads back. -/
theorem memGet_memSet_same : ∀ (m : List Host.Cell) (lo a : Nat) (b : Byte), memWfFrom lo m = true → memGet (memSet m a b) a = b
  | [], _, a, b, _ => by
    by_cases hb : b = 0#8 <;> simp [memSet, memGet, hb]
  | (k, c) :: m, lo, a, b, h => by
    simp only [memWfFrom, Bool.and_eq_true, decide_eq_true_eq] at h
    obtain ⟨⟨_, _⟩, hm⟩ := h
    unfold memSet
    split
    · rename_i hak
      by_cases hb : b = 0#8
      · have : k ≠ a := by omega
        simp [hb, memGet, this, hak]
      · simp [hb, memGet]
    · split
      · rename_i _ hk
        subst hk
        by_cases hb : b = 0#8
        · simp [hb, memGet_below m (k + 1) k hm (by omega)]
        · simp [hb, memGet]
      · rename_i h1 h2
        simp [memGet, h2, h1, memGet_memSet_same m (k + 1) a b hm]

/-- A store leaves every other byte alone. -/
theorem memGet_memSet_other : ∀ (m : List Host.Cell) (lo a x : Nat) (b : Byte), memWfFrom lo m = true → x ≠ a →
    memGet (memSet m a b) x = memGet m x
  | [], _, a, x, b, _, hx => by
    by_cases hb : b = 0#8
    · simp [memSet, hb]
    · have : a ≠ x := Ne.symm hx
      simp [memSet, memGet, hb, this]
  | (k, c) :: m, lo, a, x, b, h, hx => by
    simp only [memWfFrom, Bool.and_eq_true, decide_eq_true_eq] at h
    obtain ⟨⟨_, _⟩, hm⟩ := h
    have hxa : a ≠ x := Ne.symm hx
    unfold memSet
    split
    · rename_i hak
      by_cases hb : b = 0#8
      · simp [hb]
      · by_cases hxl : x < a
        · have h1 : k ≠ x := by omega
          have h2 : x < k := by omega
          simp [memGet, hb, hxa, hxl, h1, h2]
        · simp [memGet, hb, hxa, hxl]
    · split
      · rename_i _ hk
        subst hk
        by_cases hb : b = 0#8
        · simp only [hb, memGet, hxa, if_false]
          by_cases hxl : x < k
          · simp [hxl, memGet_below m (k + 1) x hm (by omega)]
          · simp [hxl]
        · simp [hb, memGet, hxa]
      · simp [memGet, memGet_memSet_other m (k + 1) a x b hm hx]

theorem memWfFrom_le : ∀ (m : List Host.Cell) (lo hi : Nat), lo ≤ hi → memWfFrom hi m = true → memWfFrom lo m = true
  | [], _, _, _, _ => rfl
  | (k, b) :: m, lo, hi, hle, h => by
    simp only [memWfFrom, Bool.and_eq_true, decide_eq_true_eq] at h ⊢
    exact ⟨⟨by omega, h.1.2⟩, h.2⟩

theorem memWfFrom_memSet : ∀ (m : List Host.Cell) (lo a : Nat) (b : Byte), memWfFrom lo m = true → lo ≤ a →
    memWfFrom lo (memSet m a b) = true
  | [], lo, a, b, _, ha => by
    by_cases hb : b = 0#8 <;> simp [memSet, hb, memWfFrom, ha]
  | (k, c) :: m, lo, a, b, h, ha => by
    have h' := h
    simp only [memWfFrom, Bool.and_eq_true, decide_eq_true_eq] at h
    obtain ⟨⟨hk, hc⟩, hm⟩ := h
    unfold memSet
    split
    · rename_i hak
      by_cases hb : b = 0#8
      · simpa [hb] using h'
      · have h1 : a + 1 ≤ k := by omega
        have h2 : ¬c = 0#8 := by simpa using hc
        simp [hb, memWfFrom, ha, h1, h2, hm]
    · split
      · by_cases hb : b = 0#8
        · simp only [hb]
          exact memWfFrom_le m lo (k + 1) (by omega) hm
        · rename_i _ hka
          subst hka
          simp [hb, memWfFrom, ha, hm]
      · rename_i h1 h2
        simp only [memWfFrom, Bool.and_eq_true, decide_eq_true_eq]
        exact ⟨⟨hk, hc⟩, memWfFrom_memSet m (k + 1) a b hm (by omega)⟩

/-- Every memory operation keeps the canonical form. -/
theorem memSet_wf {m : List Host.Cell} (a : Nat) (b : Byte) (h : Memory.wf m = true) : Memory.wf (memSet m a b) = true :=
  memWfFrom_memSet m 0 a b h (Nat.zero_le _)

theorem memWrite_wf : ∀ (l : List Byte) (m : List Host.Cell) (a : Nat), Memory.wf m = true → Memory.wf (memWrite m a l) = true
  | [], _, _, h => h
  | b :: l, _, a, h => memWrite_wf l _ (a + 1) (memSet_wf a b h)

theorem memPut_wf {m : List Host.Cell} (a n x : Nat) (h : Memory.wf m = true) : Memory.wf (memPut m a n x) = true :=
  memWrite_wf _ _ _ h

/-- A write of several bytes leaves every other byte alone. -/
theorem memGet_memWrite_other : ∀ (l : List Byte) (m : List Host.Cell) (a x : Nat), Memory.wf m = true →
    x < a ∨ a + l.length ≤ x → memGet (memWrite m a l) x = memGet m x
  | [], _, _, _, _, _ => rfl
  | b :: l, m, a, x, h, hx => by
    simp only [List.length_cons] at hx
    rw [memWrite, memGet_memWrite_other l _ (a + 1) x (memSet_wf a b h) (by omega),
      memGet_memSet_other m 0 a x b h (by omega)]

/-- The bytes written read back. -/
theorem memGet_memWrite_same : ∀ (l : List Byte) (m : List Host.Cell) (a i : Nat) (hi : i < l.length), Memory.wf m = true →
    memGet (memWrite m a l) (a + i) = l[i]
  | b :: l, m, a, 0, _, h => by
    rw [memWrite, memGet_memWrite_other l _ (a + 1) (a + 0) (memSet_wf a b h) (by omega)]
    exact memGet_memSet_same m 0 a b h
  | b :: l, m, a, i + 1, hi, h => by
    have := memGet_memWrite_same l (memSet m a b) (a + 1) i (by simpa using hi) (memSet_wf a b h)
    rw [memWrite]
    have e : a + (i + 1) = a + 1 + i := by omega
    rw [e, this]
    rfl

/-- Memories in canonical form that read alike everywhere are equal data. -/
theorem mem_ext_from : ∀ (m n : List Host.Cell) (lo : Nat), memWfFrom lo m = true → memWfFrom lo n = true →
    (∀ a, memGet m a = memGet n a) → m = n
  | [], [], _, _, _, _ => rfl
  | [], (k, b) :: n, lo, _, hn, h => by
    simp only [memWfFrom, Bool.and_eq_true, bne_iff_ne] at hn
    have := h k
    simp [memGet] at this
    exact absurd this.symm hn.1.2
  | (k, b) :: m, [], lo, hm, _, h => by
    simp only [memWfFrom, Bool.and_eq_true, bne_iff_ne] at hm
    have := h k
    simp [memGet] at this
    exact absurd this hm.1.2
  | (k, b) :: m, (j, c) :: n, lo, hm, hn, h => by
    have hm' := hm
    have hn' := hn
    simp only [memWfFrom, Bool.and_eq_true, bne_iff_ne, decide_eq_true_eq] at hm hn
    have hk : k = j := by
      rcases Nat.lt_trichotomy k j with hlt | heq | hgt
      · have e := h k
        have : j ≠ k := by omega
        simp [memGet, this, hlt] at e
        exact absurd e hm.1.2
      · exact heq
      · have e := h j
        have : k ≠ j := by omega
        simp [memGet, this, hgt] at e
        exact absurd e.symm hn.1.2
    subst hk
    have hb : b = c := by simpa [memGet] using h k
    subst hb
    have : m = n := by
      refine mem_ext_from m n (k + 1) hm.2 hn.2 fun a => ?_
      have e := h a
      by_cases hka : k = a
      · subst hka
        rw [memGet_below m (k + 1) k hm.2 (by omega), memGet_below n (k + 1) k hn.2 (by omega)]
      · by_cases hlt : a < k
        · rw [memGet_below m (k + 1) a hm.2 (by omega), memGet_below n (k + 1) a hn.2 (by omega)]
        · simpa [memGet, hka, hlt] using e
    rw [this]

theorem mem_ext {m n : List Host.Cell} (hm : Memory.wf m = true) (hn : Memory.wf n = true) (h : ∀ a, memGet m a = memGet n a) : m = n :=
  mem_ext_from m n 0 hm hn h

@[simp] theorem reset_mem_wf : Memory.wf State.reset.mem = true := rfl

end Sys2Proof.Laws
end

