-- ==== Sys2Proof/Laws/State.lean ====
section
/-! SUPPORT. One lemma per field per update of the state and of a group, and the tables by index. -/

namespace Sys2Proof.Laws

open Machine

-- Tables by index ------------------------------------------------------------------------------------------------------

@[simp] theorem getAt_setAt_same {α : Type} (d b : α) : ∀ (l : List α) (n : Nat), getAt d (setAt d l n b) n = b
  | [], 0 => rfl
  | [], n + 1 => getAt_setAt_same d b [] n
  | _ :: _, 0 => rfl
  | _ :: l, n + 1 => getAt_setAt_same d b l n

theorem getAt_setAt_other {α : Type} (d b : α) : ∀ (l : List α) (n m : Nat), m ≠ n → getAt d (setAt d l n b) m = getAt d l m
  | [], 0, 0, h => absurd rfl h
  | [], 0, m + 1, _ => by cases m <;> rfl
  | [], n + 1, 0, _ => rfl
  | [], n + 1, m + 1, h => by
    have := getAt_setAt_other d b [] n m (by omega)
    simpa [setAt, getAt] using this
  | _ :: _, 0, 0, h => absurd rfl h
  | _ :: _, 0, m + 1, _ => rfl
  | _ :: _, n + 1, 0, _ => rfl
  | _ :: l, n + 1, m + 1, h => getAt_setAt_other d b l n m (by omega)

theorem length_setAt {α : Type} (d b : α) : ∀ (l : List α) (n : Nat), n < l.length → (setAt d l n b).length = l.length
  | [], _, h => absurd h (by simp)
  | _ :: _, 0, _ => rfl
  | _ :: l, n + 1, h => by simp [setAt, length_setAt d b l n (by simpa using h)]

theorem mem_setAt {α : Type} (d b x : α) : ∀ (l : List α) (n : Nat), x ∈ setAt d l n b → x = b ∨ x = d ∨ x ∈ l
  | [], 0, h => by simp [setAt] at h; exact .inl h
  | [], n + 1, h => by
    simp only [setAt, List.mem_cons] at h
    rcases h with h | h
    · exact .inr (.inl h)
    · exact mem_setAt d b x [] n h
  | a :: l, 0, h => by
    simp only [setAt, List.mem_cons] at h ⊢
    rcases h with h | h
    · exact .inl h
    · exact .inr (.inr (.inr h))
  | a :: l, n + 1, h => by
    simp only [setAt, List.mem_cons] at h ⊢
    rcases h with h | h
    · exact .inr (.inr (.inl h))
    · rcases mem_setAt d b x l n h with h | h | h
      · exact .inl h
      · exact .inr (.inl h)
      · exact .inr (.inr (.inr h))

theorem getAt_mem {α : Type} (d : α) : ∀ (l : List α) (n : Nat), getAt d l n = d ∨ getAt d l n ∈ l
  | [], _ => .inl rfl
  | _ :: _, 0 => .inr (by simp [getAt])
  | _ :: l, n + 1 => by
    rcases getAt_mem d l n with h | h
    · exact .inl h
    · exact .inr (List.mem_cons_of_mem _ h)

-- Updates of the state ------------------------------------------------------------------------------------------------

@[simp] theorem setCtx_mem (s : State) (n : Nat) (x : Ctx) : (s.setCtx n x).mem = s.mem := rfl
@[simp] theorem setCtx_writes (s : State) (n : Nat) (x : Ctx) : (s.setCtx n x).writes = s.writes := rfl
@[simp] theorem setCtx_rels (s : State) (n : Nat) (x : Ctx) : (s.setCtx n x).rels = s.rels := rfl
@[simp] theorem setCtx_poison (s : State) (n : Nat) (x : Ctx) : (s.setCtx n x).poison = s.poison := rfl
@[simp] theorem setCtx_dev (s : State) (n : Nat) (x : Ctx) : (s.setCtx n x).dev = s.dev := rfl
@[simp] theorem setCtx_ctxs (s : State) (n : Nat) (x : Ctx) : (s.setCtx n x).ctxs = setAt {} s.ctxs n x := rfl
@[simp] theorem setCtx_launches (s : State) (n : Nat) (x : Ctx) : (s.setCtx n x).launches = s.launches := rfl
@[simp] theorem setCtx_teams (s : State) (n : Nat) (x : Ctx) : (s.setCtx n x).teams = s.teams := rfl
@[simp] theorem setCtx_groups (s : State) (n : Nat) (x : Ctx) : (s.setCtx n x).groups = s.groups := rfl
@[simp] theorem setCtx_cores (s : State) (n : Nat) (x : Ctx) : (s.setCtx n x).cores = s.cores := rfl
@[simp] theorem setCtx_clusters (s : State) (n : Nat) (x : Ctx) : (s.setCtx n x).clusters = s.clusters := rfl
@[simp] theorem setCtx_pegs (s : State) (n : Nat) (x : Ctx) : (s.setCtx n x).pegs = s.pegs := rfl
@[simp] theorem setCtx_colls (s : State) (n : Nat) (x : Ctx) : (s.setCtx n x).colls = s.colls := rfl
@[simp] theorem setCtx_gateQ (s : State) (n : Nat) (x : Ctx) : (s.setCtx n x).gateQ = s.gateQ := rfl
@[simp] theorem setCtx_hostView (s : State) (n : Nat) (x : Ctx) : (s.setCtx n x).hostView = s.hostView := rfl
@[simp] theorem setCtx_peerView (s : State) (n : Nat) (x : Ctx) : (s.setCtx n x).peerView = s.peerView := rfl
@[simp] theorem setCtx_agenda (s : State) (n : Nat) (x : Ctx) : (s.setCtx n x).agenda = s.agenda := rfl
@[simp] theorem setCtx_cur (s : State) (n : Nat) (x : Ctx) : (s.setCtx n x).cur = s.cur := rfl
@[simp] theorem setCtx_fresh (s : State) (n : Nat) (x : Ctx) : (s.setCtx n x).fresh = s.fresh := rfl
@[simp] theorem setCtx_choices (s : State) (n : Nat) (x : Ctx) : (s.setCtx n x).choices = s.choices := rfl
@[simp] theorem setCtx_clock (s : State) (n : Nat) (x : Ctx) : (s.setCtx n x).clock = s.clock := rfl

@[simp] theorem ctx_setCtx_same (s : State) (n : Nat) (x : Ctx) : (s.setCtx n x).ctx n = x := getAt_setAt_same _ _ _ _
theorem ctx_setCtx_other (s : State) (n m : Nat) (x : Ctx) (h : m ≠ n) : (s.setCtx n x).ctx m = s.ctx m := getAt_setAt_other _ _ _ _ _ h
@[simp] theorem group_setCtx (s : State) (n m : Nat) (x : Ctx) : (s.setCtx n x).group m = s.group m := rfl
@[simp] theorem team_setCtx (s : State) (n m : Nat) (x : Ctx) : (s.setCtx n x).team m = s.team m := rfl
@[simp] theorem launch_setCtx (s : State) (n m : Nat) (x : Ctx) : (s.setCtx n x).launch m = s.launch m := rfl
@[simp] theorem core_setCtx (s : State) (n m : Nat) (x : Ctx) : (s.setCtx n x).core m = s.core m := rfl
@[simp] theorem cluster_setCtx (s : State) (n m : Nat) (x : Ctx) : (s.setCtx n x).cluster m = s.cluster m := rfl

@[simp] theorem setGroup_mem (s : State) (n : Nat) (x : Group) : (s.setGroup n x).mem = s.mem := rfl
@[simp] theorem setGroup_writes (s : State) (n : Nat) (x : Group) : (s.setGroup n x).writes = s.writes := rfl
@[simp] theorem setGroup_rels (s : State) (n : Nat) (x : Group) : (s.setGroup n x).rels = s.rels := rfl
@[simp] theorem setGroup_poison (s : State) (n : Nat) (x : Group) : (s.setGroup n x).poison = s.poison := rfl
@[simp] theorem setGroup_dev (s : State) (n : Nat) (x : Group) : (s.setGroup n x).dev = s.dev := rfl
@[simp] theorem setGroup_ctxs (s : State) (n : Nat) (x : Group) : (s.setGroup n x).ctxs = s.ctxs := rfl
@[simp] theorem setGroup_launches (s : State) (n : Nat) (x : Group) : (s.setGroup n x).launches = s.launches := rfl
@[simp] theorem setGroup_teams (s : State) (n : Nat) (x : Group) : (s.setGroup n x).teams = s.teams := rfl
@[simp] theorem setGroup_groups (s : State) (n : Nat) (x : Group) : (s.setGroup n x).groups = setAt {} s.groups n x := rfl
@[simp] theorem setGroup_cores (s : State) (n : Nat) (x : Group) : (s.setGroup n x).cores = s.cores := rfl
@[simp] theorem setGroup_clusters (s : State) (n : Nat) (x : Group) : (s.setGroup n x).clusters = s.clusters := rfl
@[simp] theorem setGroup_pegs (s : State) (n : Nat) (x : Group) : (s.setGroup n x).pegs = s.pegs := rfl
@[simp] theorem setGroup_colls (s : State) (n : Nat) (x : Group) : (s.setGroup n x).colls = s.colls := rfl
@[simp] theorem setGroup_gateQ (s : State) (n : Nat) (x : Group) : (s.setGroup n x).gateQ = s.gateQ := rfl
@[simp] theorem setGroup_hostView (s : State) (n : Nat) (x : Group) : (s.setGroup n x).hostView = s.hostView := rfl
@[simp] theorem setGroup_peerView (s : State) (n : Nat) (x : Group) : (s.setGroup n x).peerView = s.peerView := rfl
@[simp] theorem setGroup_agenda (s : State) (n : Nat) (x : Group) : (s.setGroup n x).agenda = s.agenda := rfl
@[simp] theorem setGroup_cur (s : State) (n : Nat) (x : Group) : (s.setGroup n x).cur = s.cur := rfl
@[simp] theorem setGroup_fresh (s : State) (n : Nat) (x : Group) : (s.setGroup n x).fresh = s.fresh := rfl
@[simp] theorem setGroup_choices (s : State) (n : Nat) (x : Group) : (s.setGroup n x).choices = s.choices := rfl
@[simp] theorem setGroup_clock (s : State) (n : Nat) (x : Group) : (s.setGroup n x).clock = s.clock := rfl

@[simp] theorem group_setGroup_same (s : State) (n : Nat) (x : Group) : (s.setGroup n x).group n = x := getAt_setAt_same _ _ _ _
theorem group_setGroup_other (s : State) (n m : Nat) (x : Group) (h : m ≠ n) : (s.setGroup n x).group m = s.group m := getAt_setAt_other _ _ _ _ _ h
@[simp] theorem ctx_setGroup (s : State) (n m : Nat) (x : Group) : (s.setGroup n x).ctx m = s.ctx m := rfl
@[simp] theorem team_setGroup (s : State) (n m : Nat) (x : Group) : (s.setGroup n x).team m = s.team m := rfl
@[simp] theorem launch_setGroup (s : State) (n m : Nat) (x : Group) : (s.setGroup n x).launch m = s.launch m := rfl
@[simp] theorem core_setGroup (s : State) (n m : Nat) (x : Group) : (s.setGroup n x).core m = s.core m := rfl
@[simp] theorem cluster_setGroup (s : State) (n m : Nat) (x : Group) : (s.setGroup n x).cluster m = s.cluster m := rfl

@[simp] theorem setTeam_mem (s : State) (n : Nat) (x : Team) : (s.setTeam n x).mem = s.mem := rfl
@[simp] theorem setTeam_writes (s : State) (n : Nat) (x : Team) : (s.setTeam n x).writes = s.writes := rfl
@[simp] theorem setTeam_rels (s : State) (n : Nat) (x : Team) : (s.setTeam n x).rels = s.rels := rfl
@[simp] theorem setTeam_poison (s : State) (n : Nat) (x : Team) : (s.setTeam n x).poison = s.poison := rfl
@[simp] theorem setTeam_dev (s : State) (n : Nat) (x : Team) : (s.setTeam n x).dev = s.dev := rfl
@[simp] theorem setTeam_ctxs (s : State) (n : Nat) (x : Team) : (s.setTeam n x).ctxs = s.ctxs := rfl
@[simp] theorem setTeam_launches (s : State) (n : Nat) (x : Team) : (s.setTeam n x).launches = s.launches := rfl
@[simp] theorem setTeam_teams (s : State) (n : Nat) (x : Team) : (s.setTeam n x).teams = setAt {} s.teams n x := rfl
@[simp] theorem setTeam_groups (s : State) (n : Nat) (x : Team) : (s.setTeam n x).groups = s.groups := rfl
@[simp] theorem setTeam_cores (s : State) (n : Nat) (x : Team) : (s.setTeam n x).cores = s.cores := rfl
@[simp] theorem setTeam_clusters (s : State) (n : Nat) (x : Team) : (s.setTeam n x).clusters = s.clusters := rfl
@[simp] theorem setTeam_pegs (s : State) (n : Nat) (x : Team) : (s.setTeam n x).pegs = s.pegs := rfl
@[simp] theorem setTeam_colls (s : State) (n : Nat) (x : Team) : (s.setTeam n x).colls = s.colls := rfl
@[simp] theorem setTeam_gateQ (s : State) (n : Nat) (x : Team) : (s.setTeam n x).gateQ = s.gateQ := rfl
@[simp] theorem setTeam_hostView (s : State) (n : Nat) (x : Team) : (s.setTeam n x).hostView = s.hostView := rfl
@[simp] theorem setTeam_peerView (s : State) (n : Nat) (x : Team) : (s.setTeam n x).peerView = s.peerView := rfl
@[simp] theorem setTeam_agenda (s : State) (n : Nat) (x : Team) : (s.setTeam n x).agenda = s.agenda := rfl
@[simp] theorem setTeam_cur (s : State) (n : Nat) (x : Team) : (s.setTeam n x).cur = s.cur := rfl
@[simp] theorem setTeam_fresh (s : State) (n : Nat) (x : Team) : (s.setTeam n x).fresh = s.fresh := rfl
@[simp] theorem setTeam_choices (s : State) (n : Nat) (x : Team) : (s.setTeam n x).choices = s.choices := rfl
@[simp] theorem setTeam_clock (s : State) (n : Nat) (x : Team) : (s.setTeam n x).clock = s.clock := rfl

@[simp] theorem team_setTeam_same (s : State) (n : Nat) (x : Team) : (s.setTeam n x).team n = x := getAt_setAt_same _ _ _ _
theorem team_setTeam_other (s : State) (n m : Nat) (x : Team) (h : m ≠ n) : (s.setTeam n x).team m = s.team m := getAt_setAt_other _ _ _ _ _ h
@[simp] theorem ctx_setTeam (s : State) (n m : Nat) (x : Team) : (s.setTeam n x).ctx m = s.ctx m := rfl
@[simp] theorem group_setTeam (s : State) (n m : Nat) (x : Team) : (s.setTeam n x).group m = s.group m := rfl
@[simp] theorem launch_setTeam (s : State) (n m : Nat) (x : Team) : (s.setTeam n x).launch m = s.launch m := rfl
@[simp] theorem core_setTeam (s : State) (n m : Nat) (x : Team) : (s.setTeam n x).core m = s.core m := rfl
@[simp] theorem cluster_setTeam (s : State) (n m : Nat) (x : Team) : (s.setTeam n x).cluster m = s.cluster m := rfl

@[simp] theorem setLaunch_mem (s : State) (n : Nat) (x : Launch) : (s.setLaunch n x).mem = s.mem := rfl
@[simp] theorem setLaunch_writes (s : State) (n : Nat) (x : Launch) : (s.setLaunch n x).writes = s.writes := rfl
@[simp] theorem setLaunch_rels (s : State) (n : Nat) (x : Launch) : (s.setLaunch n x).rels = s.rels := rfl
@[simp] theorem setLaunch_poison (s : State) (n : Nat) (x : Launch) : (s.setLaunch n x).poison = s.poison := rfl
@[simp] theorem setLaunch_dev (s : State) (n : Nat) (x : Launch) : (s.setLaunch n x).dev = s.dev := rfl
@[simp] theorem setLaunch_ctxs (s : State) (n : Nat) (x : Launch) : (s.setLaunch n x).ctxs = s.ctxs := rfl
@[simp] theorem setLaunch_launches (s : State) (n : Nat) (x : Launch) : (s.setLaunch n x).launches = setAt {} s.launches n x := rfl
@[simp] theorem setLaunch_teams (s : State) (n : Nat) (x : Launch) : (s.setLaunch n x).teams = s.teams := rfl
@[simp] theorem setLaunch_groups (s : State) (n : Nat) (x : Launch) : (s.setLaunch n x).groups = s.groups := rfl
@[simp] theorem setLaunch_cores (s : State) (n : Nat) (x : Launch) : (s.setLaunch n x).cores = s.cores := rfl
@[simp] theorem setLaunch_clusters (s : State) (n : Nat) (x : Launch) : (s.setLaunch n x).clusters = s.clusters := rfl
@[simp] theorem setLaunch_pegs (s : State) (n : Nat) (x : Launch) : (s.setLaunch n x).pegs = s.pegs := rfl
@[simp] theorem setLaunch_colls (s : State) (n : Nat) (x : Launch) : (s.setLaunch n x).colls = s.colls := rfl
@[simp] theorem setLaunch_gateQ (s : State) (n : Nat) (x : Launch) : (s.setLaunch n x).gateQ = s.gateQ := rfl
@[simp] theorem setLaunch_hostView (s : State) (n : Nat) (x : Launch) : (s.setLaunch n x).hostView = s.hostView := rfl
@[simp] theorem setLaunch_peerView (s : State) (n : Nat) (x : Launch) : (s.setLaunch n x).peerView = s.peerView := rfl
@[simp] theorem setLaunch_agenda (s : State) (n : Nat) (x : Launch) : (s.setLaunch n x).agenda = s.agenda := rfl
@[simp] theorem setLaunch_cur (s : State) (n : Nat) (x : Launch) : (s.setLaunch n x).cur = s.cur := rfl
@[simp] theorem setLaunch_fresh (s : State) (n : Nat) (x : Launch) : (s.setLaunch n x).fresh = s.fresh := rfl
@[simp] theorem setLaunch_choices (s : State) (n : Nat) (x : Launch) : (s.setLaunch n x).choices = s.choices := rfl
@[simp] theorem setLaunch_clock (s : State) (n : Nat) (x : Launch) : (s.setLaunch n x).clock = s.clock := rfl

@[simp] theorem launch_setLaunch_same (s : State) (n : Nat) (x : Launch) : (s.setLaunch n x).launch n = x := getAt_setAt_same _ _ _ _
theorem launch_setLaunch_other (s : State) (n m : Nat) (x : Launch) (h : m ≠ n) : (s.setLaunch n x).launch m = s.launch m := getAt_setAt_other _ _ _ _ _ h
@[simp] theorem ctx_setLaunch (s : State) (n m : Nat) (x : Launch) : (s.setLaunch n x).ctx m = s.ctx m := rfl
@[simp] theorem group_setLaunch (s : State) (n m : Nat) (x : Launch) : (s.setLaunch n x).group m = s.group m := rfl
@[simp] theorem team_setLaunch (s : State) (n m : Nat) (x : Launch) : (s.setLaunch n x).team m = s.team m := rfl
@[simp] theorem core_setLaunch (s : State) (n m : Nat) (x : Launch) : (s.setLaunch n x).core m = s.core m := rfl
@[simp] theorem cluster_setLaunch (s : State) (n m : Nat) (x : Launch) : (s.setLaunch n x).cluster m = s.cluster m := rfl

@[simp] theorem setCore_mem (s : State) (n : Nat) (x : Core) : (s.setCore n x).mem = s.mem := rfl
@[simp] theorem setCore_writes (s : State) (n : Nat) (x : Core) : (s.setCore n x).writes = s.writes := rfl
@[simp] theorem setCore_rels (s : State) (n : Nat) (x : Core) : (s.setCore n x).rels = s.rels := rfl
@[simp] theorem setCore_poison (s : State) (n : Nat) (x : Core) : (s.setCore n x).poison = s.poison := rfl
@[simp] theorem setCore_dev (s : State) (n : Nat) (x : Core) : (s.setCore n x).dev = s.dev := rfl
@[simp] theorem setCore_ctxs (s : State) (n : Nat) (x : Core) : (s.setCore n x).ctxs = s.ctxs := rfl
@[simp] theorem setCore_launches (s : State) (n : Nat) (x : Core) : (s.setCore n x).launches = s.launches := rfl
@[simp] theorem setCore_teams (s : State) (n : Nat) (x : Core) : (s.setCore n x).teams = s.teams := rfl
@[simp] theorem setCore_groups (s : State) (n : Nat) (x : Core) : (s.setCore n x).groups = s.groups := rfl
@[simp] theorem setCore_cores (s : State) (n : Nat) (x : Core) : (s.setCore n x).cores = setAt {} s.cores n x := rfl
@[simp] theorem setCore_clusters (s : State) (n : Nat) (x : Core) : (s.setCore n x).clusters = s.clusters := rfl
@[simp] theorem setCore_pegs (s : State) (n : Nat) (x : Core) : (s.setCore n x).pegs = s.pegs := rfl
@[simp] theorem setCore_colls (s : State) (n : Nat) (x : Core) : (s.setCore n x).colls = s.colls := rfl
@[simp] theorem setCore_gateQ (s : State) (n : Nat) (x : Core) : (s.setCore n x).gateQ = s.gateQ := rfl
@[simp] theorem setCore_hostView (s : State) (n : Nat) (x : Core) : (s.setCore n x).hostView = s.hostView := rfl
@[simp] theorem setCore_peerView (s : State) (n : Nat) (x : Core) : (s.setCore n x).peerView = s.peerView := rfl
@[simp] theorem setCore_agenda (s : State) (n : Nat) (x : Core) : (s.setCore n x).agenda = s.agenda := rfl
@[simp] theorem setCore_cur (s : State) (n : Nat) (x : Core) : (s.setCore n x).cur = s.cur := rfl
@[simp] theorem setCore_fresh (s : State) (n : Nat) (x : Core) : (s.setCore n x).fresh = s.fresh := rfl
@[simp] theorem setCore_choices (s : State) (n : Nat) (x : Core) : (s.setCore n x).choices = s.choices := rfl
@[simp] theorem setCore_clock (s : State) (n : Nat) (x : Core) : (s.setCore n x).clock = s.clock := rfl

@[simp] theorem core_setCore_same (s : State) (n : Nat) (x : Core) : (s.setCore n x).core n = x := getAt_setAt_same _ _ _ _
theorem core_setCore_other (s : State) (n m : Nat) (x : Core) (h : m ≠ n) : (s.setCore n x).core m = s.core m := getAt_setAt_other _ _ _ _ _ h
@[simp] theorem ctx_setCore (s : State) (n m : Nat) (x : Core) : (s.setCore n x).ctx m = s.ctx m := rfl
@[simp] theorem group_setCore (s : State) (n m : Nat) (x : Core) : (s.setCore n x).group m = s.group m := rfl
@[simp] theorem team_setCore (s : State) (n m : Nat) (x : Core) : (s.setCore n x).team m = s.team m := rfl
@[simp] theorem launch_setCore (s : State) (n m : Nat) (x : Core) : (s.setCore n x).launch m = s.launch m := rfl
@[simp] theorem cluster_setCore (s : State) (n m : Nat) (x : Core) : (s.setCore n x).cluster m = s.cluster m := rfl

@[simp] theorem setCluster_mem (s : State) (n : Nat) (x : Cluster) : (s.setCluster n x).mem = s.mem := rfl
@[simp] theorem setCluster_writes (s : State) (n : Nat) (x : Cluster) : (s.setCluster n x).writes = s.writes := rfl
@[simp] theorem setCluster_rels (s : State) (n : Nat) (x : Cluster) : (s.setCluster n x).rels = s.rels := rfl
@[simp] theorem setCluster_poison (s : State) (n : Nat) (x : Cluster) : (s.setCluster n x).poison = s.poison := rfl
@[simp] theorem setCluster_dev (s : State) (n : Nat) (x : Cluster) : (s.setCluster n x).dev = s.dev := rfl
@[simp] theorem setCluster_ctxs (s : State) (n : Nat) (x : Cluster) : (s.setCluster n x).ctxs = s.ctxs := rfl
@[simp] theorem setCluster_launches (s : State) (n : Nat) (x : Cluster) : (s.setCluster n x).launches = s.launches := rfl
@[simp] theorem setCluster_teams (s : State) (n : Nat) (x : Cluster) : (s.setCluster n x).teams = s.teams := rfl
@[simp] theorem setCluster_groups (s : State) (n : Nat) (x : Cluster) : (s.setCluster n x).groups = s.groups := rfl
@[simp] theorem setCluster_cores (s : State) (n : Nat) (x : Cluster) : (s.setCluster n x).cores = s.cores := rfl
@[simp] theorem setCluster_clusters (s : State) (n : Nat) (x : Cluster) : (s.setCluster n x).clusters = setAt {} s.clusters n x := rfl
@[simp] theorem setCluster_pegs (s : State) (n : Nat) (x : Cluster) : (s.setCluster n x).pegs = s.pegs := rfl
@[simp] theorem setCluster_colls (s : State) (n : Nat) (x : Cluster) : (s.setCluster n x).colls = s.colls := rfl
@[simp] theorem setCluster_gateQ (s : State) (n : Nat) (x : Cluster) : (s.setCluster n x).gateQ = s.gateQ := rfl
@[simp] theorem setCluster_hostView (s : State) (n : Nat) (x : Cluster) : (s.setCluster n x).hostView = s.hostView := rfl
@[simp] theorem setCluster_peerView (s : State) (n : Nat) (x : Cluster) : (s.setCluster n x).peerView = s.peerView := rfl
@[simp] theorem setCluster_agenda (s : State) (n : Nat) (x : Cluster) : (s.setCluster n x).agenda = s.agenda := rfl
@[simp] theorem setCluster_cur (s : State) (n : Nat) (x : Cluster) : (s.setCluster n x).cur = s.cur := rfl
@[simp] theorem setCluster_fresh (s : State) (n : Nat) (x : Cluster) : (s.setCluster n x).fresh = s.fresh := rfl
@[simp] theorem setCluster_choices (s : State) (n : Nat) (x : Cluster) : (s.setCluster n x).choices = s.choices := rfl
@[simp] theorem setCluster_clock (s : State) (n : Nat) (x : Cluster) : (s.setCluster n x).clock = s.clock := rfl

@[simp] theorem cluster_setCluster_same (s : State) (n : Nat) (x : Cluster) : (s.setCluster n x).cluster n = x := getAt_setAt_same _ _ _ _
theorem cluster_setCluster_other (s : State) (n m : Nat) (x : Cluster) (h : m ≠ n) : (s.setCluster n x).cluster m = s.cluster m := getAt_setAt_other _ _ _ _ _ h
@[simp] theorem ctx_setCluster (s : State) (n m : Nat) (x : Cluster) : (s.setCluster n x).ctx m = s.ctx m := rfl
@[simp] theorem group_setCluster (s : State) (n m : Nat) (x : Cluster) : (s.setCluster n x).group m = s.group m := rfl
@[simp] theorem team_setCluster (s : State) (n m : Nat) (x : Cluster) : (s.setCluster n x).team m = s.team m := rfl
@[simp] theorem launch_setCluster (s : State) (n m : Nat) (x : Cluster) : (s.setCluster n x).launch m = s.launch m := rfl
@[simp] theorem core_setCluster (s : State) (n m : Nat) (x : Cluster) : (s.setCluster n x).core m = s.core m := rfl

-- Updates of a group ---------------------------------------------------------------------------------------------------

@[simp] theorem setLane_team (g : Group) (l : Nat) (x : Lane) : (g.setLane l x).team = g.team := rfl
@[simp] theorem setLane_idx (g : Group) (l : Nat) (x : Lane) : (g.setLane l x).idx = g.idx := rfl
@[simp] theorem setLane_core (g : Group) (l : Nat) (x : Lane) : (g.setLane l x).core = g.core := rfl
@[simp] theorem setLane_slot (g : Group) (l : Nat) (x : Lane) : (g.setLane l x).slot = g.slot := rfl
@[simp] theorem setLane_ended (g : Group) (l : Nat) (x : Lane) : (g.setLane l x).ended = g.ended := rfl
@[simp] theorem setLane_v (g : Group) (l : Nat) (x : Lane) : (g.setLane l x).v = g.v := rfl
@[simp] theorem setLane_s (g : Group) (l : Nat) (x : Lane) : (g.setLane l x).s = g.s := rfl
@[simp] theorem setLane_p (g : Group) (l : Nat) (x : Lane) : (g.setLane l x).p = g.p := rfl
@[simp] theorem setLane_j (g : Group) (l : Nat) (x : Lane) : (g.setLane l x).j = g.j := rfl
@[simp] theorem setLane_flags (g : Group) (l : Nat) (x : Lane) : (g.setLane l x).flags = g.flags := rfl
@[simp] theorem setLane_vbase (g : Group) (l : Nat) (x : Lane) : (g.setLane l x).vbase = g.vbase := rfl
@[simp] theorem setLane_vbound (g : Group) (l : Nat) (x : Lane) : (g.setLane l x).vbound = g.vbound := rfl
@[simp] theorem setLane_vres (g : Group) (l : Nat) (x : Lane) : (g.setLane l x).vres = g.vres := rfl
@[simp] theorem setLane_lamiss (g : Group) (l : Nat) (x : Lane) : (g.setLane l x).lamiss = g.lamiss := rfl
@[simp] theorem setLane_windows (g : Group) (l : Nat) (x : Lane) : (g.setLane l x).windows = g.windows := rfl
@[simp] theorem setLane_bufAt (g : Group) (l : Nat) (x : Lane) : (g.setLane l x).bufAt = g.bufAt := rfl
@[simp] theorem setLane_buf (g : Group) (l : Nat) (x : Lane) : (g.setLane l x).buf = g.buf := rfl
@[simp] theorem setLane_log (g : Group) (l : Nat) (x : Lane) : (g.setLane l x).log = g.log := rfl
@[simp] theorem setLane_wait (g : Group) (l : Nat) (x : Lane) : (g.setLane l x).wait = g.wait := rfl
@[simp] theorem setLane_inh (g : Group) (l : Nat) (x : Lane) : (g.setLane l x).inh = g.inh := rfl
@[simp] theorem setLane_frame (g : Group) (l : Nat) (x : Lane) : (g.setLane l x).frame = g.frame := rfl
@[simp] theorem setLane_frozen (g : Group) (l : Nat) (x : Lane) : (g.setLane l x).frozen = g.frozen := rfl
@[simp] theorem setLane_wdog (g : Group) (l : Nat) (x : Lane) : (g.setLane l x).wdog = g.wdog := rfl
@[simp] theorem setLane_skipBrk (g : Group) (l : Nat) (x : Lane) : (g.setLane l x).skipBrk = g.skipBrk := rfl
@[simp] theorem setLane_watch (g : Group) (l : Nat) (x : Lane) : (g.setLane l x).watch = g.watch := rfl
@[simp] theorem setLane_vbad (g : Group) (l : Nat) (x : Lane) : (g.setLane l x).vbad = g.vbad := rfl
@[simp] theorem setLane_pcvBad (g : Group) (l : Nat) (x : Lane) : (g.setLane l x).pcvBad = g.pcvBad := rfl
@[simp] theorem setLane_view (g : Group) (l : Nat) (x : Lane) : (g.setLane l x).view = g.view := rfl

@[simp] theorem mapLanes_team (g : Group) (m : Mask) (f : Nat → Lane → Lane) : (g.mapLanes m f).team = g.team := rfl
@[simp] theorem mapLanes_idx (g : Group) (m : Mask) (f : Nat → Lane → Lane) : (g.mapLanes m f).idx = g.idx := rfl
@[simp] theorem mapLanes_core (g : Group) (m : Mask) (f : Nat → Lane → Lane) : (g.mapLanes m f).core = g.core := rfl
@[simp] theorem mapLanes_slot (g : Group) (m : Mask) (f : Nat → Lane → Lane) : (g.mapLanes m f).slot = g.slot := rfl
@[simp] theorem mapLanes_ended (g : Group) (m : Mask) (f : Nat → Lane → Lane) : (g.mapLanes m f).ended = g.ended := rfl
@[simp] theorem mapLanes_v (g : Group) (m : Mask) (f : Nat → Lane → Lane) : (g.mapLanes m f).v = g.v := rfl
@[simp] theorem mapLanes_s (g : Group) (m : Mask) (f : Nat → Lane → Lane) : (g.mapLanes m f).s = g.s := rfl
@[simp] theorem mapLanes_p (g : Group) (m : Mask) (f : Nat → Lane → Lane) : (g.mapLanes m f).p = g.p := rfl
@[simp] theorem mapLanes_j (g : Group) (m : Mask) (f : Nat → Lane → Lane) : (g.mapLanes m f).j = g.j := rfl
@[simp] theorem mapLanes_flags (g : Group) (m : Mask) (f : Nat → Lane → Lane) : (g.mapLanes m f).flags = g.flags := rfl
@[simp] theorem mapLanes_vbase (g : Group) (m : Mask) (f : Nat → Lane → Lane) : (g.mapLanes m f).vbase = g.vbase := rfl
@[simp] theorem mapLanes_vbound (g : Group) (m : Mask) (f : Nat → Lane → Lane) : (g.mapLanes m f).vbound = g.vbound := rfl
@[simp] theorem mapLanes_vres (g : Group) (m : Mask) (f : Nat → Lane → Lane) : (g.mapLanes m f).vres = g.vres := rfl
@[simp] theorem mapLanes_lamiss (g : Group) (m : Mask) (f : Nat → Lane → Lane) : (g.mapLanes m f).lamiss = g.lamiss := rfl
@[simp] theorem mapLanes_windows (g : Group) (m : Mask) (f : Nat → Lane → Lane) : (g.mapLanes m f).windows = g.windows := rfl
@[simp] theorem mapLanes_bufAt (g : Group) (m : Mask) (f : Nat → Lane → Lane) : (g.mapLanes m f).bufAt = g.bufAt := rfl
@[simp] theorem mapLanes_buf (g : Group) (m : Mask) (f : Nat → Lane → Lane) : (g.mapLanes m f).buf = g.buf := rfl
@[simp] theorem mapLanes_log (g : Group) (m : Mask) (f : Nat → Lane → Lane) : (g.mapLanes m f).log = g.log := rfl
@[simp] theorem mapLanes_wait (g : Group) (m : Mask) (f : Nat → Lane → Lane) : (g.mapLanes m f).wait = g.wait := rfl
@[simp] theorem mapLanes_inh (g : Group) (m : Mask) (f : Nat → Lane → Lane) : (g.mapLanes m f).inh = g.inh := rfl
@[simp] theorem mapLanes_frame (g : Group) (m : Mask) (f : Nat → Lane → Lane) : (g.mapLanes m f).frame = g.frame := rfl
@[simp] theorem mapLanes_frozen (g : Group) (m : Mask) (f : Nat → Lane → Lane) : (g.mapLanes m f).frozen = g.frozen := rfl
@[simp] theorem mapLanes_wdog (g : Group) (m : Mask) (f : Nat → Lane → Lane) : (g.mapLanes m f).wdog = g.wdog := rfl
@[simp] theorem mapLanes_skipBrk (g : Group) (m : Mask) (f : Nat → Lane → Lane) : (g.mapLanes m f).skipBrk = g.skipBrk := rfl
@[simp] theorem mapLanes_watch (g : Group) (m : Mask) (f : Nat → Lane → Lane) : (g.mapLanes m f).watch = g.watch := rfl
@[simp] theorem mapLanes_vbad (g : Group) (m : Mask) (f : Nat → Lane → Lane) : (g.mapLanes m f).vbad = g.vbad := rfl
@[simp] theorem mapLanes_pcvBad (g : Group) (m : Mask) (f : Nat → Lane → Lane) : (g.mapLanes m f).pcvBad = g.pcvBad := rfl
@[simp] theorem mapLanes_view (g : Group) (m : Mask) (f : Nat → Lane → Lane) : (g.mapLanes m f).view = g.view := rfl

@[simp] theorem advance_team (g : Group) (m : Mask) (a len : Nat) : (g.advance m a len).team = g.team := rfl
@[simp] theorem advance_idx (g : Group) (m : Mask) (a len : Nat) : (g.advance m a len).idx = g.idx := rfl
@[simp] theorem advance_core (g : Group) (m : Mask) (a len : Nat) : (g.advance m a len).core = g.core := rfl
@[simp] theorem advance_slot (g : Group) (m : Mask) (a len : Nat) : (g.advance m a len).slot = g.slot := rfl
@[simp] theorem advance_ended (g : Group) (m : Mask) (a len : Nat) : (g.advance m a len).ended = g.ended := rfl
@[simp] theorem advance_v (g : Group) (m : Mask) (a len : Nat) : (g.advance m a len).v = g.v := rfl
@[simp] theorem advance_s (g : Group) (m : Mask) (a len : Nat) : (g.advance m a len).s = g.s := rfl
@[simp] theorem advance_p (g : Group) (m : Mask) (a len : Nat) : (g.advance m a len).p = g.p := rfl
@[simp] theorem advance_j (g : Group) (m : Mask) (a len : Nat) : (g.advance m a len).j = g.j := rfl
@[simp] theorem advance_flags (g : Group) (m : Mask) (a len : Nat) : (g.advance m a len).flags = g.flags := rfl
@[simp] theorem advance_vbase (g : Group) (m : Mask) (a len : Nat) : (g.advance m a len).vbase = g.vbase := rfl
@[simp] theorem advance_vbound (g : Group) (m : Mask) (a len : Nat) : (g.advance m a len).vbound = g.vbound := rfl
@[simp] theorem advance_vres (g : Group) (m : Mask) (a len : Nat) : (g.advance m a len).vres = g.vres := rfl
@[simp] theorem advance_lamiss (g : Group) (m : Mask) (a len : Nat) : (g.advance m a len).lamiss = g.lamiss := rfl
@[simp] theorem advance_windows (g : Group) (m : Mask) (a len : Nat) : (g.advance m a len).windows = g.windows := rfl
@[simp] theorem advance_bufAt (g : Group) (m : Mask) (a len : Nat) : (g.advance m a len).bufAt = g.bufAt := rfl
@[simp] theorem advance_buf (g : Group) (m : Mask) (a len : Nat) : (g.advance m a len).buf = g.buf := rfl
@[simp] theorem advance_log (g : Group) (m : Mask) (a len : Nat) : (g.advance m a len).log = g.log := rfl
@[simp] theorem advance_wait (g : Group) (m : Mask) (a len : Nat) : (g.advance m a len).wait = g.wait := rfl
@[simp] theorem advance_inh (g : Group) (m : Mask) (a len : Nat) : (g.advance m a len).inh = g.inh := rfl
@[simp] theorem advance_frame (g : Group) (m : Mask) (a len : Nat) : (g.advance m a len).frame = g.frame := rfl
@[simp] theorem advance_frozen (g : Group) (m : Mask) (a len : Nat) : (g.advance m a len).frozen = g.frozen := rfl
@[simp] theorem advance_wdog (g : Group) (m : Mask) (a len : Nat) : (g.advance m a len).wdog = g.wdog := rfl
@[simp] theorem advance_skipBrk (g : Group) (m : Mask) (a len : Nat) : (g.advance m a len).skipBrk = g.skipBrk := rfl
@[simp] theorem advance_watch (g : Group) (m : Mask) (a len : Nat) : (g.advance m a len).watch = g.watch := rfl
@[simp] theorem advance_vbad (g : Group) (m : Mask) (a len : Nat) : (g.advance m a len).vbad = g.vbad := rfl
@[simp] theorem advance_pcvBad (g : Group) (m : Mask) (a len : Nat) : (g.advance m a len).pcvBad = g.pcvBad := rfl
@[simp] theorem advance_view (g : Group) (m : Mask) (a len : Nat) : (g.advance m a len).view = g.view := rfl

@[simp] theorem putV_team (g : Group) (n : Nat) (m : Mask) (row : List Word) : (g.putV n m row).team = g.team := rfl
@[simp] theorem putV_idx (g : Group) (n : Nat) (m : Mask) (row : List Word) : (g.putV n m row).idx = g.idx := rfl
@[simp] theorem putV_core (g : Group) (n : Nat) (m : Mask) (row : List Word) : (g.putV n m row).core = g.core := rfl
@[simp] theorem putV_slot (g : Group) (n : Nat) (m : Mask) (row : List Word) : (g.putV n m row).slot = g.slot := rfl
@[simp] theorem putV_ended (g : Group) (n : Nat) (m : Mask) (row : List Word) : (g.putV n m row).ended = g.ended := rfl
@[simp] theorem putV_lanes (g : Group) (n : Nat) (m : Mask) (row : List Word) : (g.putV n m row).lanes = g.lanes := rfl
@[simp] theorem putV_s (g : Group) (n : Nat) (m : Mask) (row : List Word) : (g.putV n m row).s = g.s := rfl
@[simp] theorem putV_p (g : Group) (n : Nat) (m : Mask) (row : List Word) : (g.putV n m row).p = g.p := rfl
@[simp] theorem putV_j (g : Group) (n : Nat) (m : Mask) (row : List Word) : (g.putV n m row).j = g.j := rfl
@[simp] theorem putV_flags (g : Group) (n : Nat) (m : Mask) (row : List Word) : (g.putV n m row).flags = g.flags := rfl
@[simp] theorem putV_vbase (g : Group) (n : Nat) (m : Mask) (row : List Word) : (g.putV n m row).vbase = g.vbase := rfl
@[simp] theorem putV_vbound (g : Group) (n : Nat) (m : Mask) (row : List Word) : (g.putV n m row).vbound = g.vbound := rfl
@[simp] theorem putV_vres (g : Group) (n : Nat) (m : Mask) (row : List Word) : (g.putV n m row).vres = g.vres := rfl
@[simp] theorem putV_lamiss (g : Group) (n : Nat) (m : Mask) (row : List Word) : (g.putV n m row).lamiss = g.lamiss := rfl
@[simp] theorem putV_windows (g : Group) (n : Nat) (m : Mask) (row : List Word) : (g.putV n m row).windows = g.windows := rfl
@[simp] theorem putV_bufAt (g : Group) (n : Nat) (m : Mask) (row : List Word) : (g.putV n m row).bufAt = g.bufAt := rfl
@[simp] theorem putV_buf (g : Group) (n : Nat) (m : Mask) (row : List Word) : (g.putV n m row).buf = g.buf := rfl
@[simp] theorem putV_log (g : Group) (n : Nat) (m : Mask) (row : List Word) : (g.putV n m row).log = g.log := rfl
@[simp] theorem putV_wait (g : Group) (n : Nat) (m : Mask) (row : List Word) : (g.putV n m row).wait = g.wait := rfl
@[simp] theorem putV_inh (g : Group) (n : Nat) (m : Mask) (row : List Word) : (g.putV n m row).inh = g.inh := rfl
@[simp] theorem putV_frame (g : Group) (n : Nat) (m : Mask) (row : List Word) : (g.putV n m row).frame = g.frame := rfl
@[simp] theorem putV_frozen (g : Group) (n : Nat) (m : Mask) (row : List Word) : (g.putV n m row).frozen = g.frozen := rfl
@[simp] theorem putV_wdog (g : Group) (n : Nat) (m : Mask) (row : List Word) : (g.putV n m row).wdog = g.wdog := rfl
@[simp] theorem putV_skipBrk (g : Group) (n : Nat) (m : Mask) (row : List Word) : (g.putV n m row).skipBrk = g.skipBrk := rfl
@[simp] theorem putV_watch (g : Group) (n : Nat) (m : Mask) (row : List Word) : (g.putV n m row).watch = g.watch := rfl
@[simp] theorem putV_pcvBad (g : Group) (n : Nat) (m : Mask) (row : List Word) : (g.putV n m row).pcvBad = g.pcvBad := rfl
@[simp] theorem putV_view (g : Group) (n : Nat) (m : Mask) (row : List Word) : (g.putV n m row).view = g.view := rfl

@[simp] theorem putS_team (g : Group) (n : Nat) (w : Word) : (g.putS n w).team = g.team := rfl
@[simp] theorem putS_idx (g : Group) (n : Nat) (w : Word) : (g.putS n w).idx = g.idx := rfl
@[simp] theorem putS_core (g : Group) (n : Nat) (w : Word) : (g.putS n w).core = g.core := rfl
@[simp] theorem putS_slot (g : Group) (n : Nat) (w : Word) : (g.putS n w).slot = g.slot := rfl
@[simp] theorem putS_ended (g : Group) (n : Nat) (w : Word) : (g.putS n w).ended = g.ended := rfl
@[simp] theorem putS_lanes (g : Group) (n : Nat) (w : Word) : (g.putS n w).lanes = g.lanes := rfl
@[simp] theorem putS_v (g : Group) (n : Nat) (w : Word) : (g.putS n w).v = g.v := rfl
@[simp] theorem putS_p (g : Group) (n : Nat) (w : Word) : (g.putS n w).p = g.p := rfl
@[simp] theorem putS_j (g : Group) (n : Nat) (w : Word) : (g.putS n w).j = g.j := rfl
@[simp] theorem putS_flags (g : Group) (n : Nat) (w : Word) : (g.putS n w).flags = g.flags := rfl
@[simp] theorem putS_vbase (g : Group) (n : Nat) (w : Word) : (g.putS n w).vbase = g.vbase := rfl
@[simp] theorem putS_vbound (g : Group) (n : Nat) (w : Word) : (g.putS n w).vbound = g.vbound := rfl
@[simp] theorem putS_vres (g : Group) (n : Nat) (w : Word) : (g.putS n w).vres = g.vres := rfl
@[simp] theorem putS_lamiss (g : Group) (n : Nat) (w : Word) : (g.putS n w).lamiss = g.lamiss := rfl
@[simp] theorem putS_windows (g : Group) (n : Nat) (w : Word) : (g.putS n w).windows = g.windows := rfl
@[simp] theorem putS_bufAt (g : Group) (n : Nat) (w : Word) : (g.putS n w).bufAt = g.bufAt := rfl
@[simp] theorem putS_buf (g : Group) (n : Nat) (w : Word) : (g.putS n w).buf = g.buf := rfl
@[simp] theorem putS_log (g : Group) (n : Nat) (w : Word) : (g.putS n w).log = g.log := rfl
@[simp] theorem putS_wait (g : Group) (n : Nat) (w : Word) : (g.putS n w).wait = g.wait := rfl
@[simp] theorem putS_inh (g : Group) (n : Nat) (w : Word) : (g.putS n w).inh = g.inh := rfl
@[simp] theorem putS_frame (g : Group) (n : Nat) (w : Word) : (g.putS n w).frame = g.frame := rfl
@[simp] theorem putS_frozen (g : Group) (n : Nat) (w : Word) : (g.putS n w).frozen = g.frozen := rfl
@[simp] theorem putS_wdog (g : Group) (n : Nat) (w : Word) : (g.putS n w).wdog = g.wdog := rfl
@[simp] theorem putS_skipBrk (g : Group) (n : Nat) (w : Word) : (g.putS n w).skipBrk = g.skipBrk := rfl
@[simp] theorem putS_watch (g : Group) (n : Nat) (w : Word) : (g.putS n w).watch = g.watch := rfl
@[simp] theorem putS_pcvBad (g : Group) (n : Nat) (w : Word) : (g.putS n w).pcvBad = g.pcvBad := rfl
@[simp] theorem putS_view (g : Group) (n : Nat) (w : Word) : (g.putS n w).view = g.view := rfl

@[simp] theorem putP_team (g : Group) (n : Nat) (m b : Mask) : (g.putP n m b).team = g.team := rfl
@[simp] theorem putP_idx (g : Group) (n : Nat) (m b : Mask) : (g.putP n m b).idx = g.idx := rfl
@[simp] theorem putP_core (g : Group) (n : Nat) (m b : Mask) : (g.putP n m b).core = g.core := rfl
@[simp] theorem putP_slot (g : Group) (n : Nat) (m b : Mask) : (g.putP n m b).slot = g.slot := rfl
@[simp] theorem putP_ended (g : Group) (n : Nat) (m b : Mask) : (g.putP n m b).ended = g.ended := rfl
@[simp] theorem putP_lanes (g : Group) (n : Nat) (m b : Mask) : (g.putP n m b).lanes = g.lanes := rfl
@[simp] theorem putP_v (g : Group) (n : Nat) (m b : Mask) : (g.putP n m b).v = g.v := rfl
@[simp] theorem putP_s (g : Group) (n : Nat) (m b : Mask) : (g.putP n m b).s = g.s := rfl
@[simp] theorem putP_j (g : Group) (n : Nat) (m b : Mask) : (g.putP n m b).j = g.j := rfl
@[simp] theorem putP_flags (g : Group) (n : Nat) (m b : Mask) : (g.putP n m b).flags = g.flags := rfl
@[simp] theorem putP_vbase (g : Group) (n : Nat) (m b : Mask) : (g.putP n m b).vbase = g.vbase := rfl
@[simp] theorem putP_vbound (g : Group) (n : Nat) (m b : Mask) : (g.putP n m b).vbound = g.vbound := rfl
@[simp] theorem putP_vres (g : Group) (n : Nat) (m b : Mask) : (g.putP n m b).vres = g.vres := rfl
@[simp] theorem putP_lamiss (g : Group) (n : Nat) (m b : Mask) : (g.putP n m b).lamiss = g.lamiss := rfl
@[simp] theorem putP_windows (g : Group) (n : Nat) (m b : Mask) : (g.putP n m b).windows = g.windows := rfl
@[simp] theorem putP_bufAt (g : Group) (n : Nat) (m b : Mask) : (g.putP n m b).bufAt = g.bufAt := rfl
@[simp] theorem putP_buf (g : Group) (n : Nat) (m b : Mask) : (g.putP n m b).buf = g.buf := rfl
@[simp] theorem putP_log (g : Group) (n : Nat) (m b : Mask) : (g.putP n m b).log = g.log := rfl
@[simp] theorem putP_wait (g : Group) (n : Nat) (m b : Mask) : (g.putP n m b).wait = g.wait := rfl
@[simp] theorem putP_inh (g : Group) (n : Nat) (m b : Mask) : (g.putP n m b).inh = g.inh := rfl
@[simp] theorem putP_frame (g : Group) (n : Nat) (m b : Mask) : (g.putP n m b).frame = g.frame := rfl
@[simp] theorem putP_frozen (g : Group) (n : Nat) (m b : Mask) : (g.putP n m b).frozen = g.frozen := rfl
@[simp] theorem putP_wdog (g : Group) (n : Nat) (m b : Mask) : (g.putP n m b).wdog = g.wdog := rfl
@[simp] theorem putP_skipBrk (g : Group) (n : Nat) (m b : Mask) : (g.putP n m b).skipBrk = g.skipBrk := rfl
@[simp] theorem putP_watch (g : Group) (n : Nat) (m b : Mask) : (g.putP n m b).watch = g.watch := rfl
@[simp] theorem putP_pcvBad (g : Group) (n : Nat) (m b : Mask) : (g.putP n m b).pcvBad = g.pcvBad := rfl
@[simp] theorem putP_view (g : Group) (n : Nat) (m b : Mask) : (g.putP n m b).view = g.view := rfl

@[simp] theorem raise_team (g : Group) (f : Flags) : (g.raise f).team = g.team := rfl
@[simp] theorem raise_idx (g : Group) (f : Flags) : (g.raise f).idx = g.idx := rfl
@[simp] theorem raise_core (g : Group) (f : Flags) : (g.raise f).core = g.core := rfl
@[simp] theorem raise_slot (g : Group) (f : Flags) : (g.raise f).slot = g.slot := rfl
@[simp] theorem raise_ended (g : Group) (f : Flags) : (g.raise f).ended = g.ended := rfl
@[simp] theorem raise_lanes (g : Group) (f : Flags) : (g.raise f).lanes = g.lanes := rfl
@[simp] theorem raise_v (g : Group) (f : Flags) : (g.raise f).v = g.v := rfl
@[simp] theorem raise_s (g : Group) (f : Flags) : (g.raise f).s = g.s := rfl
@[simp] theorem raise_p (g : Group) (f : Flags) : (g.raise f).p = g.p := rfl
@[simp] theorem raise_j (g : Group) (f : Flags) : (g.raise f).j = g.j := rfl
@[simp] theorem raise_vbase (g : Group) (f : Flags) : (g.raise f).vbase = g.vbase := rfl
@[simp] theorem raise_vbound (g : Group) (f : Flags) : (g.raise f).vbound = g.vbound := rfl
@[simp] theorem raise_vres (g : Group) (f : Flags) : (g.raise f).vres = g.vres := rfl
@[simp] theorem raise_lamiss (g : Group) (f : Flags) : (g.raise f).lamiss = g.lamiss := rfl
@[simp] theorem raise_windows (g : Group) (f : Flags) : (g.raise f).windows = g.windows := rfl
@[simp] theorem raise_bufAt (g : Group) (f : Flags) : (g.raise f).bufAt = g.bufAt := rfl
@[simp] theorem raise_buf (g : Group) (f : Flags) : (g.raise f).buf = g.buf := rfl
@[simp] theorem raise_log (g : Group) (f : Flags) : (g.raise f).log = g.log := rfl
@[simp] theorem raise_wait (g : Group) (f : Flags) : (g.raise f).wait = g.wait := rfl
@[simp] theorem raise_inh (g : Group) (f : Flags) : (g.raise f).inh = g.inh := rfl
@[simp] theorem raise_frame (g : Group) (f : Flags) : (g.raise f).frame = g.frame := rfl
@[simp] theorem raise_frozen (g : Group) (f : Flags) : (g.raise f).frozen = g.frozen := rfl
@[simp] theorem raise_wdog (g : Group) (f : Flags) : (g.raise f).wdog = g.wdog := rfl
@[simp] theorem raise_skipBrk (g : Group) (f : Flags) : (g.raise f).skipBrk = g.skipBrk := rfl
@[simp] theorem raise_watch (g : Group) (f : Flags) : (g.raise f).watch = g.watch := rfl
@[simp] theorem raise_vbad (g : Group) (f : Flags) : (g.raise f).vbad = g.vbad := rfl
@[simp] theorem raise_pcvBad (g : Group) (f : Flags) : (g.raise f).pcvBad = g.pcvBad := rfl
@[simp] theorem raise_view (g : Group) (f : Flags) : (g.raise f).view = g.view := rfl

@[simp] theorem lookahead_team (g : Group) (i : Instr) (a len : Nat) : (g.lookahead i a len).team = g.team := rfl
@[simp] theorem lookahead_idx (g : Group) (i : Instr) (a len : Nat) : (g.lookahead i a len).idx = g.idx := rfl
@[simp] theorem lookahead_core (g : Group) (i : Instr) (a len : Nat) : (g.lookahead i a len).core = g.core := rfl
@[simp] theorem lookahead_slot (g : Group) (i : Instr) (a len : Nat) : (g.lookahead i a len).slot = g.slot := rfl
@[simp] theorem lookahead_ended (g : Group) (i : Instr) (a len : Nat) : (g.lookahead i a len).ended = g.ended := rfl
@[simp] theorem lookahead_lanes (g : Group) (i : Instr) (a len : Nat) : (g.lookahead i a len).lanes = g.lanes := rfl
@[simp] theorem lookahead_v (g : Group) (i : Instr) (a len : Nat) : (g.lookahead i a len).v = g.v := rfl
@[simp] theorem lookahead_s (g : Group) (i : Instr) (a len : Nat) : (g.lookahead i a len).s = g.s := rfl
@[simp] theorem lookahead_p (g : Group) (i : Instr) (a len : Nat) : (g.lookahead i a len).p = g.p := rfl
@[simp] theorem lookahead_j (g : Group) (i : Instr) (a len : Nat) : (g.lookahead i a len).j = g.j := rfl
@[simp] theorem lookahead_flags (g : Group) (i : Instr) (a len : Nat) : (g.lookahead i a len).flags = g.flags := rfl
@[simp] theorem lookahead_vbase (g : Group) (i : Instr) (a len : Nat) : (g.lookahead i a len).vbase = g.vbase := rfl
@[simp] theorem lookahead_vbound (g : Group) (i : Instr) (a len : Nat) : (g.lookahead i a len).vbound = g.vbound := rfl
@[simp] theorem lookahead_vres (g : Group) (i : Instr) (a len : Nat) : (g.lookahead i a len).vres = g.vres := rfl
@[simp] theorem lookahead_bufAt (g : Group) (i : Instr) (a len : Nat) : (g.lookahead i a len).bufAt = g.bufAt := rfl
@[simp] theorem lookahead_buf (g : Group) (i : Instr) (a len : Nat) : (g.lookahead i a len).buf = g.buf := rfl
@[simp] theorem lookahead_log (g : Group) (i : Instr) (a len : Nat) : (g.lookahead i a len).log = g.log := rfl
@[simp] theorem lookahead_wait (g : Group) (i : Instr) (a len : Nat) : (g.lookahead i a len).wait = g.wait := rfl
@[simp] theorem lookahead_inh (g : Group) (i : Instr) (a len : Nat) : (g.lookahead i a len).inh = g.inh := rfl
@[simp] theorem lookahead_frame (g : Group) (i : Instr) (a len : Nat) : (g.lookahead i a len).frame = g.frame := rfl
@[simp] theorem lookahead_frozen (g : Group) (i : Instr) (a len : Nat) : (g.lookahead i a len).frozen = g.frozen := rfl
@[simp] theorem lookahead_wdog (g : Group) (i : Instr) (a len : Nat) : (g.lookahead i a len).wdog = g.wdog := rfl
@[simp] theorem lookahead_skipBrk (g : Group) (i : Instr) (a len : Nat) : (g.lookahead i a len).skipBrk = g.skipBrk := rfl
@[simp] theorem lookahead_watch (g : Group) (i : Instr) (a len : Nat) : (g.lookahead i a len).watch = g.watch := rfl
@[simp] theorem lookahead_vbad (g : Group) (i : Instr) (a len : Nat) : (g.lookahead i a len).vbad = g.vbad := rfl
@[simp] theorem lookahead_pcvBad (g : Group) (i : Instr) (a len : Nat) : (g.lookahead i a len).pcvBad = g.pcvBad := rfl
@[simp] theorem lookahead_view (g : Group) (i : Instr) (a len : Nat) : (g.lookahead i a len).view = g.view := rfl

@[simp] theorem unbuffer_team (g : Group) (a len : Nat) : (g.unbuffer a len).team = g.team := rfl
@[simp] theorem unbuffer_idx (g : Group) (a len : Nat) : (g.unbuffer a len).idx = g.idx := rfl
@[simp] theorem unbuffer_core (g : Group) (a len : Nat) : (g.unbuffer a len).core = g.core := rfl
@[simp] theorem unbuffer_slot (g : Group) (a len : Nat) : (g.unbuffer a len).slot = g.slot := rfl
@[simp] theorem unbuffer_ended (g : Group) (a len : Nat) : (g.unbuffer a len).ended = g.ended := rfl
@[simp] theorem unbuffer_lanes (g : Group) (a len : Nat) : (g.unbuffer a len).lanes = g.lanes := rfl
@[simp] theorem unbuffer_v (g : Group) (a len : Nat) : (g.unbuffer a len).v = g.v := rfl
@[simp] theorem unbuffer_s (g : Group) (a len : Nat) : (g.unbuffer a len).s = g.s := rfl
@[simp] theorem unbuffer_p (g : Group) (a len : Nat) : (g.unbuffer a len).p = g.p := rfl
@[simp] theorem unbuffer_j (g : Group) (a len : Nat) : (g.unbuffer a len).j = g.j := rfl
@[simp] theorem unbuffer_flags (g : Group) (a len : Nat) : (g.unbuffer a len).flags = g.flags := rfl
@[simp] theorem unbuffer_vbase (g : Group) (a len : Nat) : (g.unbuffer a len).vbase = g.vbase := rfl
@[simp] theorem unbuffer_vbound (g : Group) (a len : Nat) : (g.unbuffer a len).vbound = g.vbound := rfl
@[simp] theorem unbuffer_vres (g : Group) (a len : Nat) : (g.unbuffer a len).vres = g.vres := rfl
@[simp] theorem unbuffer_lamiss (g : Group) (a len : Nat) : (g.unbuffer a len).lamiss = g.lamiss := rfl
@[simp] theorem unbuffer_windows (g : Group) (a len : Nat) : (g.unbuffer a len).windows = g.windows := rfl
@[simp] theorem unbuffer_log (g : Group) (a len : Nat) : (g.unbuffer a len).log = g.log := rfl
@[simp] theorem unbuffer_wait (g : Group) (a len : Nat) : (g.unbuffer a len).wait = g.wait := rfl
@[simp] theorem unbuffer_inh (g : Group) (a len : Nat) : (g.unbuffer a len).inh = g.inh := rfl
@[simp] theorem unbuffer_frame (g : Group) (a len : Nat) : (g.unbuffer a len).frame = g.frame := rfl
@[simp] theorem unbuffer_frozen (g : Group) (a len : Nat) : (g.unbuffer a len).frozen = g.frozen := rfl
@[simp] theorem unbuffer_wdog (g : Group) (a len : Nat) : (g.unbuffer a len).wdog = g.wdog := rfl
@[simp] theorem unbuffer_skipBrk (g : Group) (a len : Nat) : (g.unbuffer a len).skipBrk = g.skipBrk := rfl
@[simp] theorem unbuffer_watch (g : Group) (a len : Nat) : (g.unbuffer a len).watch = g.watch := rfl
@[simp] theorem unbuffer_vbad (g : Group) (a len : Nat) : (g.unbuffer a len).vbad = g.vbad := rfl
@[simp] theorem unbuffer_pcvBad (g : Group) (a len : Nat) : (g.unbuffer a len).pcvBad = g.pcvBad := rfl
@[simp] theorem unbuffer_view (g : Group) (a len : Nat) : (g.unbuffer a len).view = g.view := rfl

@[simp] theorem shrink_team (g : Group) (n : Nat) : (g.shrink n).team = g.team := rfl
@[simp] theorem shrink_idx (g : Group) (n : Nat) : (g.shrink n).idx = g.idx := rfl
@[simp] theorem shrink_core (g : Group) (n : Nat) : (g.shrink n).core = g.core := rfl
@[simp] theorem shrink_slot (g : Group) (n : Nat) : (g.shrink n).slot = g.slot := rfl
@[simp] theorem shrink_ended (g : Group) (n : Nat) : (g.shrink n).ended = g.ended := rfl
@[simp] theorem shrink_lanes (g : Group) (n : Nat) : (g.shrink n).lanes = g.lanes := rfl
@[simp] theorem shrink_s (g : Group) (n : Nat) : (g.shrink n).s = g.s := rfl
@[simp] theorem shrink_p (g : Group) (n : Nat) : (g.shrink n).p = g.p := rfl
@[simp] theorem shrink_j (g : Group) (n : Nat) : (g.shrink n).j = g.j := rfl
@[simp] theorem shrink_flags (g : Group) (n : Nat) : (g.shrink n).flags = g.flags := rfl
@[simp] theorem shrink_vbase (g : Group) (n : Nat) : (g.shrink n).vbase = g.vbase := rfl
@[simp] theorem shrink_lamiss (g : Group) (n : Nat) : (g.shrink n).lamiss = g.lamiss := rfl
@[simp] theorem shrink_windows (g : Group) (n : Nat) : (g.shrink n).windows = g.windows := rfl
@[simp] theorem shrink_bufAt (g : Group) (n : Nat) : (g.shrink n).bufAt = g.bufAt := rfl
@[simp] theorem shrink_buf (g : Group) (n : Nat) : (g.shrink n).buf = g.buf := rfl
@[simp] theorem shrink_log (g : Group) (n : Nat) : (g.shrink n).log = g.log := rfl
@[simp] theorem shrink_wait (g : Group) (n : Nat) : (g.shrink n).wait = g.wait := rfl
@[simp] theorem shrink_inh (g : Group) (n : Nat) : (g.shrink n).inh = g.inh := rfl
@[simp] theorem shrink_frame (g : Group) (n : Nat) : (g.shrink n).frame = g.frame := rfl
@[simp] theorem shrink_frozen (g : Group) (n : Nat) : (g.shrink n).frozen = g.frozen := rfl
@[simp] theorem shrink_wdog (g : Group) (n : Nat) : (g.shrink n).wdog = g.wdog := rfl
@[simp] theorem shrink_skipBrk (g : Group) (n : Nat) : (g.shrink n).skipBrk = g.skipBrk := rfl
@[simp] theorem shrink_watch (g : Group) (n : Nat) : (g.shrink n).watch = g.watch := rfl
@[simp] theorem shrink_pcvBad (g : Group) (n : Nat) : (g.shrink n).pcvBad = g.pcvBad := rfl
@[simp] theorem shrink_view (g : Group) (n : Nat) : (g.shrink n).view = g.view := rfl

@[simp] theorem putS_s (g : Group) (n : Nat) (w : Word) : (g.putS n w).s = setAt 0 g.s n w := rfl
@[simp] theorem putP_p (g : Group) (n : Nat) (m b : Mask) : (g.putP n m b).p = setAt 0 g.p n ((getAt 0 g.p n &&& ~~~m) ||| (b &&& m)) := rfl
@[simp] theorem raise_flags (g : Group) (f : Flags) : (g.raise f).flags = g.flags ||| f := rfl
@[simp] theorem unbuffer_bufAt (g : Group) (a len : Nat) : (g.unbuffer a len).bufAt = a + len := rfl
@[simp] theorem shrink_vbound (g : Group) (n : Nat) : (g.shrink n).vbound = n := rfl
@[simp] theorem shrink_vres (g : Group) (n : Nat) : (g.shrink n).vres = min g.vres n := rfl

end Sys2Proof.Laws
end

