-- ==== Sys2Proof/Laws/Issue.lean ====
section
/-! SUPPORT. What issuing can do: the trace unit, the count of an issue, the outcomes of `issue`, and the end of an instruction. -/

namespace Sys2Proof.Laws

open Machine Safety

-- Masks -------------------------------------------------------------------------------------------------------------------

theorem maskSum_lt (f : Nat → Nat) (hf : ∀ l, f l ≤ 1) : ∀ (l : List Nat), l.foldr (fun k acc => f k + 2 * acc) 0 < 2 ^ l.length
  | [] => by simp
  | k :: l => by
    have := maskSum_lt f hf l
    have := hf k
    simp only [List.foldr_cons, List.length_cons, Nat.pow_succ]
    omega

theorem maskSum_testBit (f : Nat → Bool) : ∀ (l : List Nat) (i : Nat), (h : i < l.length) →
    (l.foldr (fun k acc => (if f k then 1 else 0) + 2 * acc) 0).testBit i = f l[i]
  | k :: l, 0, _ => by
    simp only [List.foldr_cons, Nat.testBit_zero, List.getElem_cons_zero]
    cases f k <;> simp
  | k :: l, i + 1, h => by
    simp only [List.foldr_cons, List.getElem_cons_succ]
    rw [← maskSum_testBit f l i (by simpa using h), Nat.testBit_succ]
    congr 1
    cases f k
    · simp
    · simp only [if_true]
      omega

/-- Bit l of the mask of a test. -/
theorem getLsbD_maskOf (f : Nat → Bool) (l : Nat) : (maskOf f).getLsbD l = (decide (l < 32) && f l) := by
  unfold maskOf
  rw [BitVec.getLsbD_ofNat]
  by_cases h : l < 32
  · rw [maskSum_testBit f _ l (by simpa using h)]
    simp [h]
  · simp [h]

theorem mask_ext {a b : Mask} (h : ∀ l, l < 32 → a.getLsbD l = b.getLsbD l) : a = b := BitVec.eq_of_getLsbD_eq h

theorem mem_lanesOf (m : Mask) (l : Nat) : l ∈ lanesOf m ↔ l < 32 ∧ m.getLsbD l = true := by simp [lanesOf]

theorem mask_ne_zero {m : Mask} : m ≠ 0 ↔ ∃ l, l < 32 ∧ m.getLsbD l = true := by
  constructor
  · intro h
    by_contra hc
    refine h (mask_ext fun l hl => ?_)
    cases hm : m.getLsbD l
    · simp
    · exact absurd ⟨l, hl, hm⟩ hc
  · rintro ⟨l, _, hm⟩ rfl
    simp at hm

-- The trace unit ------------------------------------------------------------------------------------------------------------

/-- Clearing marks removes only those of sectors that the ranges fill. -/
theorem clearPoison_cases (s : State) (ranges : List (Nat × Nat)) : ∃ l, clearPoison s ranges = { s with poison := l } ∧ (∀ n ∈ l, n ∈ s.poison) ∧
    ∀ n ∈ s.poison, n ∈ l ∨ ∀ a, 32 * n ≤ a → a < 32 * n + 32 → ∃ r ∈ ranges, r.1 ≤ a ∧ a < r.1 + r.2 := by
  refine ⟨_, rfl, fun n h => (List.mem_filter.1 h).1, fun n h => ?_⟩
  by_cases hc : (span (32 * n) 32).all (fun a => ranges.any fun (lo, len) => lo ≤ a && a < lo + len) = true
  · refine .inr fun a h1 h2 => ?_
    have := List.all_eq_true.1 hc a (by simp only [span, List.mem_map, List.mem_range]; exact ⟨a - 32 * n, by omega, by omega⟩)
    simp only [List.any_eq_true, Bool.and_eq_true, decide_eq_true_eq] at this
    exact this
  · exact .inl (List.mem_filter.2 ⟨h, by simpa using hc⟩)

/-- Where the next trace record goes. -/
def tracePlace (s : State) : Nat := wfield s.dev.trace 12 40 * 4096 + 32 * (s.dev.twidx % 2 ^ (wfield s.dev.trace 7 5 - 5))

/-- Everything a trace event can do: nothing, a drop, or one record in the ring where its place lies in local memory, which may end the mark of the
sector it fills. -/
theorem trace_cases (s : State) (kind : Nat) (t : Team) (core slot : Nat) (lanes : Mask) (data : Nat) :
    trace s kind t core slot lanes data = s ∨
    (∃ n, trace s kind t core slot lanes data = { s with dev := { s.dev with trfresh := s.dev.trfresh + 1, drops := n } }) ∨
    (traceOn s t.ctx kind = true ∧ ∃ (bytes : List Byte) (marks : List Nat), bytes.length = 32 ∧
      trace s kind t core slot lanes data = { s with
        mem := if localRange s.dev (tracePlace s) 32 then memWrite s.mem (homeAddr s.dev (tracePlace s)) bytes else s.mem
        poison := marks
        dev := { s.dev with trfresh := s.dev.trfresh + 1, twidx := s.dev.twidx + 1 } } ∧
      (∀ n ∈ marks, n ∈ s.poison) ∧ ∀ n ∈ s.poison, n ∈ marks ∨ ∀ a, 32 * n ≤ a → a < 32 * n + 32 →
        homeAddr s.dev (tracePlace s) ≤ a ∧ a < homeAddr s.dev (tracePlace s) + 32) := by
  unfold trace
  by_cases h : traceOn s t.ctx kind = true
  · simp only [h, Bool.not_true, Bool.false_eq_true, if_false]
    by_cases hp : Config.traceFull s.dev.trfresh = true
    · simp only [hp, if_true]
      exact .inr (.inl ⟨_, rfl⟩)
    · simp only [hp, Bool.false_eq_true, if_false]
      refine .inr (.inr ⟨trivial, ?_⟩)
      rw [← tracePlace]
      split
      · obtain ⟨l, e, h1, h2⟩ := clearPoison_cases { s with
          mem := memWrite s.mem (homeAddr s.dev (tracePlace s)) _
          dev := { s.dev with trfresh := s.dev.trfresh + 1, twidx := s.dev.twidx + 1 } } [(homeAddr s.dev (tracePlace s), 32)]
        refine ⟨_, l, ?_, e, h1, fun n hn => (h2 n hn).imp id fun h a ha hb => ?_⟩
        · split <;> simp [cipher, toBytes]
        · obtain ⟨r, hr, h3⟩ := h a ha hb
          simpa [List.mem_singleton.1 hr] using h3
      · exact ⟨List.replicate 32 0, s.poison, by simp, rfl, fun n h => h, fun n h => .inl h⟩
  · simp only [h, Bool.not_false, if_true]
    exact .inl trivial

section traceFields
variable (s : State) (kind : Nat) (t : Team) (core slot : Nat) (lanes : Mask) (data : Nat)
@[simp] theorem trace_writes : (trace s kind t core slot lanes data).writes = s.writes := by
  rcases trace_cases s kind t core slot lanes data with h | ⟨_, h⟩ | ⟨_, _, _, _, h, _⟩ <;> rw [h]
@[simp] theorem trace_rels : (trace s kind t core slot lanes data).rels = s.rels := by
  rcases trace_cases s kind t core slot lanes data with h | ⟨_, h⟩ | ⟨_, _, _, _, h, _⟩ <;> rw [h]
@[simp] theorem trace_ctxs : (trace s kind t core slot lanes data).ctxs = s.ctxs := by
  rcases trace_cases s kind t core slot lanes data with h | ⟨_, h⟩ | ⟨_, _, _, _, h, _⟩ <;> rw [h]
@[simp] theorem trace_launches : (trace s kind t core slot lanes data).launches = s.launches := by
  rcases trace_cases s kind t core slot lanes data with h | ⟨_, h⟩ | ⟨_, _, _, _, h, _⟩ <;> rw [h]
@[simp] theorem trace_teams : (trace s kind t core slot lanes data).teams = s.teams := by
  rcases trace_cases s kind t core slot lanes data with h | ⟨_, h⟩ | ⟨_, _, _, _, h, _⟩ <;> rw [h]
@[simp] theorem trace_groups : (trace s kind t core slot lanes data).groups = s.groups := by
  rcases trace_cases s kind t core slot lanes data with h | ⟨_, h⟩ | ⟨_, _, _, _, h, _⟩ <;> rw [h]
@[simp] theorem trace_cores : (trace s kind t core slot lanes data).cores = s.cores := by
  rcases trace_cases s kind t core slot lanes data with h | ⟨_, h⟩ | ⟨_, _, _, _, h, _⟩ <;> rw [h]
@[simp] theorem trace_clusters : (trace s kind t core slot lanes data).clusters = s.clusters := by
  rcases trace_cases s kind t core slot lanes data with h | ⟨_, h⟩ | ⟨_, _, _, _, h, _⟩ <;> rw [h]
@[simp] theorem trace_fresh : (trace s kind t core slot lanes data).fresh = s.fresh := by
  rcases trace_cases s kind t core slot lanes data with h | ⟨_, h⟩ | ⟨_, _, _, _, h, _⟩ <;> rw [h]
@[simp] theorem trace_pegs : (trace s kind t core slot lanes data).pegs = s.pegs := by
  rcases trace_cases s kind t core slot lanes data with h | ⟨_, h⟩ | ⟨_, _, _, _, h, _⟩ <;> rw [h]
@[simp] theorem trace_colls : (trace s kind t core slot lanes data).colls = s.colls := by
  rcases trace_cases s kind t core slot lanes data with h | ⟨_, h⟩ | ⟨_, _, _, _, h, _⟩ <;> rw [h]
@[simp] theorem trace_gateQ : (trace s kind t core slot lanes data).gateQ = s.gateQ := by
  rcases trace_cases s kind t core slot lanes data with h | ⟨_, h⟩ | ⟨_, _, _, _, h, _⟩ <;> rw [h]
@[simp] theorem trace_hostView : (trace s kind t core slot lanes data).hostView = s.hostView := by
  rcases trace_cases s kind t core slot lanes data with h | ⟨_, h⟩ | ⟨_, _, _, _, h, _⟩ <;> rw [h]
@[simp] theorem trace_peerView : (trace s kind t core slot lanes data).peerView = s.peerView := by
  rcases trace_cases s kind t core slot lanes data with h | ⟨_, h⟩ | ⟨_, _, _, _, h, _⟩ <;> rw [h]
@[simp] theorem trace_agenda : (trace s kind t core slot lanes data).agenda = s.agenda := by
  rcases trace_cases s kind t core slot lanes data with h | ⟨_, h⟩ | ⟨_, _, _, _, h, _⟩ <;> rw [h]
@[simp] theorem trace_cur : (trace s kind t core slot lanes data).cur = s.cur := by
  rcases trace_cases s kind t core slot lanes data with h | ⟨_, h⟩ | ⟨_, _, _, _, h, _⟩ <;> rw [h]
@[simp] theorem trace_choices : (trace s kind t core slot lanes data).choices = s.choices := by
  rcases trace_cases s kind t core slot lanes data with h | ⟨_, h⟩ | ⟨_, _, _, _, h, _⟩ <;> rw [h]
@[simp] theorem trace_clock : (trace s kind t core slot lanes data).clock = s.clock := by
  rcases trace_cases s kind t core slot lanes data with h | ⟨_, h⟩ | ⟨_, _, _, _, h, _⟩ <;> rw [h]
@[simp] theorem trace_group_at (n : Nat) : (trace s kind t core slot lanes data).group n = s.group n := by
  simp [State.group]
@[simp] theorem trace_team_at (n : Nat) : (trace s kind t core slot lanes data).team n = s.team n := by
  simp [State.team]
@[simp] theorem trace_core_at (n : Nat) : (trace s kind t core slot lanes data).core n = s.core n := by
  simp [State.core]
@[simp] theorem trace_ctx_at (n : Nat) : (trace s kind t core slot lanes data).ctx n = s.ctx n := by
  simp [State.ctx]
@[simp] theorem trace_launch_at (n : Nat) : (trace s kind t core slot lanes data).launch n = s.launch n := by
  simp [State.launch]
end traceFields

section traceGroupFields
variable (s : State) (kind g : Nat) (lanes : Mask) (data : Nat)
@[simp] theorem traceGroup_writes : (traceGroup s kind g lanes data).writes = s.writes := trace_writes _ _ _ _ _ _ _
@[simp] theorem traceGroup_rels : (traceGroup s kind g lanes data).rels = s.rels := trace_rels _ _ _ _ _ _ _
@[simp] theorem traceGroup_ctxs : (traceGroup s kind g lanes data).ctxs = s.ctxs := trace_ctxs _ _ _ _ _ _ _
@[simp] theorem traceGroup_launches : (traceGroup s kind g lanes data).launches = s.launches := trace_launches _ _ _ _ _ _ _
@[simp] theorem traceGroup_teams : (traceGroup s kind g lanes data).teams = s.teams := trace_teams _ _ _ _ _ _ _
@[simp] theorem traceGroup_groups : (traceGroup s kind g lanes data).groups = s.groups := trace_groups _ _ _ _ _ _ _
@[simp] theorem traceGroup_cores : (traceGroup s kind g lanes data).cores = s.cores := trace_cores _ _ _ _ _ _ _
@[simp] theorem traceGroup_clusters : (traceGroup s kind g lanes data).clusters = s.clusters := trace_clusters _ _ _ _ _ _ _
@[simp] theorem traceGroup_fresh : (traceGroup s kind g lanes data).fresh = s.fresh := trace_fresh _ _ _ _ _ _ _
@[simp] theorem traceGroup_pegs : (traceGroup s kind g lanes data).pegs = s.pegs := trace_pegs _ _ _ _ _ _ _
@[simp] theorem traceGroup_colls : (traceGroup s kind g lanes data).colls = s.colls := trace_colls _ _ _ _ _ _ _
@[simp] theorem traceGroup_gateQ : (traceGroup s kind g lanes data).gateQ = s.gateQ := trace_gateQ _ _ _ _ _ _ _
@[simp] theorem traceGroup_hostView : (traceGroup s kind g lanes data).hostView = s.hostView := trace_hostView _ _ _ _ _ _ _
@[simp] theorem traceGroup_peerView : (traceGroup s kind g lanes data).peerView = s.peerView := trace_peerView _ _ _ _ _ _ _
@[simp] theorem traceGroup_agenda : (traceGroup s kind g lanes data).agenda = s.agenda := trace_agenda _ _ _ _ _ _ _
@[simp] theorem traceGroup_cur : (traceGroup s kind g lanes data).cur = s.cur := trace_cur _ _ _ _ _ _ _
@[simp] theorem traceGroup_choices : (traceGroup s kind g lanes data).choices = s.choices := trace_choices _ _ _ _ _ _ _
@[simp] theorem traceGroup_clock : (traceGroup s kind g lanes data).clock = s.clock := trace_clock _ _ _ _ _ _ _
@[simp] theorem traceGroup_group_at (n : Nat) : (traceGroup s kind g lanes data).group n = s.group n := trace_group_at _ _ _ _ _ _ _ _
@[simp] theorem traceGroup_team_at (n : Nat) : (traceGroup s kind g lanes data).team n = s.team n := trace_team_at _ _ _ _ _ _ _ _
@[simp] theorem traceGroup_core_at (n : Nat) : (traceGroup s kind g lanes data).core n = s.core n := trace_core_at _ _ _ _ _ _ _ _
@[simp] theorem traceGroup_ctx_at (n : Nat) : (traceGroup s kind g lanes data).ctx n = s.ctx n := trace_ctx_at _ _ _ _ _ _ _ _
@[simp] theorem traceGroup_launch_at (n : Nat) : (traceGroup s kind g lanes data).launch n = s.launch n := trace_launch_at _ _ _ _ _ _ _ _
end traceGroupFields

theorem trace_dev (s : State) (kind : Nat) (t : Team) (core slot : Nat) (lanes : Mask) (data : Nat) :
    DevSame s (trace s kind t core slot lanes data) := by
  rcases trace_cases s kind t core slot lanes data with h | ⟨_, h⟩ | ⟨_, _, _, _, h, _⟩ <;> rw [h] <;> exact ⟨_, _, _, rfl⟩

theorem trace_mem_wf {s : State} (h : Memory.wf s.mem = true) (kind : Nat) (t : Team) (core slot : Nat) (lanes : Mask) (data : Nat) :
    Memory.wf (trace s kind t core slot lanes data).mem = true := by
  rcases trace_cases s kind t core slot lanes data with e | ⟨_, e⟩ | ⟨_, _, _, _, e, _⟩ <;> rw [e]
  · exact h
  · exact h
  · simp only
    split
    · exact memWrite_wf _ _ _ h
    · exact h

theorem trace_mem {s : State} (h : Memory.wf s.mem = true) (kind : Nat) (t : Team) (core slot : Nat) (lanes : Mask) (data : Nat)
    (a : Nat) (ha : ¬ TraceByte s a) : memGet (trace s kind t core slot lanes data).mem a = memGet s.mem a := by
  rcases trace_cases s kind t core slot lanes data with e | ⟨_, e⟩ | ⟨hon, bytes, _, hb, e, _⟩ <;> rw [e]
  simp only
  split
  case isFalse => rfl
  refine memGet_memWrite_other _ _ _ _ h ?_
  by_contra hc
  simp only [tracePlace] at hc
  refine ha ⟨?_, s.dev.twidx % 2 ^ (wfield s.dev.trace 7 5 - 5), Nat.mod_lt _ (by positivity), ?_, ?_⟩
  · simp only [traceOn, Bool.and_eq_true, beq_iff_eq] at hon
    exact hon.1.1.1.1
  · omega
  · omega

/-- A trace event may end the mark of a sector of the ring alone. -/
theorem trace_marks (s : State) (kind : Nat) (t : Team) (core slot : Nat) (lanes : Mask) (data : Nat) :
    (∀ n ∈ (trace s kind t core slot lanes data).poison, n ∈ s.poison) ∧
    ∀ n ∈ s.poison, n ∈ (trace s kind t core slot lanes data).poison ∨ ∀ a, 32 * n ≤ a → a < 32 * n + 32 → TraceByte s a := by
  rcases trace_cases s kind t core slot lanes data with e | ⟨_, e⟩ | ⟨hon, bytes, l, hb, e, h1, h2⟩ <;> rw [e]
  · exact ⟨fun _ h => h, fun _ h => .inl h⟩
  · exact ⟨fun _ h => h, fun _ h => .inl h⟩
  · simp only [traceOn, Bool.and_eq_true, beq_iff_eq] at hon
    exact ⟨h1, fun n hn => (h2 n hn).imp id fun h a ha hb =>
      ⟨hon.1.1.1.1, s.dev.twidx % 2 ^ (wfield s.dev.trace 7 5 - 5), Nat.mod_lt _ (by positivity), h a ha hb⟩⟩

-- The count of an issue -------------------------------------------------------------------------------------------------------

theorem countIssue_fields (s : State) (x : Group) :
    let t := countIssue s x
    t.mem = s.mem ∧ t.writes = s.writes ∧ t.rels = s.rels ∧ t.poison = s.poison ∧ t.dev = s.dev ∧ t.ctxs = s.ctxs ∧ t.launches = s.launches ∧
    t.groups = s.groups ∧ t.clusters = s.clusters ∧ t.pegs = s.pegs ∧ t.colls = s.colls ∧ t.gateQ = s.gateQ ∧ t.hostView = s.hostView ∧ t.peerView = s.peerView ∧
    t.agenda = s.agenda ∧ t.cur = s.cur ∧ t.fresh = s.fresh ∧ t.choices = s.choices ∧ t.clock = s.clock ∧
    t.teams.length = s.teams.length := by
  simp [countIssue]

theorem getAt_map_range {α : Type} (d : α) (f : Nat → α) : ∀ (n k : Nat), k < n → getAt d ((List.range n).map f) k = f k := by
  intro n k h
  have : ∀ (l : List α) (i : Nat) (hi : i < l.length), getAt d l i = l[i] := by
    intro l
    induction l with
    | nil => intro i hi; simp at hi
    | cons a l ih =>
      intro i hi
      cases i with
      | zero => rfl
      | succ i => simpa [getAt] using ih i (by simpa using hi)
  rw [this _ k (by simpa using h)]
  simp

theorem getAt_beyond {α : Type} (d : α) : ∀ (l : List α) (n : Nat), l.length ≤ n → getAt d l n = d
  | [], _, _ => rfl
  | _ :: _, 0, h => absurd h (by simp)
  | _ :: l, n + 1, h => getAt_beyond d l n (by simpa using h)

theorem teamSame_ite (c : Prop) [Decidable c] (y : Team) : TeamSame y (if c then { y with swapOff := none } else y) := by
  split
  · exact ⟨_, rfl⟩
  · exact ⟨_, rfl⟩

theorem countIssue_team (s : State) (x : Group) (k : Nat) : TeamSame (s.team k) ((countIssue s x).team k) := by
  unfold countIssue State.team
  by_cases h : k < s.teams.length
  · rw [getAt_map_range _ _ _ _ (by simpa using h)]
    simp only [setCore_teams]
    exact teamSame_ite _ _
  · exact ⟨_, by rw [getAt_beyond _ _ _ (by simpa using h), getAt_beyond _ s.teams _ (by simpa using h)]⟩

theorem countIssue_core (s : State) (x : Group) (k : Nat) : CoreSame (s.core k) ((countIssue s x).core k) := by
  have e : (countIssue s x).core k = (s.setCore x.core { s.core x.core with issued := (s.core x.core).issued + 1, stall := 0 }).core k := rfl
  unfold CoreSame
  rw [e]
  by_cases h : k = x.core
  · exact ⟨_, _, by subst h; rw [core_setCore_same]⟩
  · exact ⟨_, _, by rw [core_setCore_other _ _ _ _ h]⟩

-- The outcomes of issue ---------------------------------------------------------------------------------------------------------

/-- A group that may issue an instruction at once holds no entry for it behind a fault. -/
theorem mayHold_of_mayIssue {x : Group} {i : Instr} (h : mayIssue x i = true) : mayHold x i = false := by
  unfold mayIssue at h
  unfold mayHold
  split at h <;> simp_all [passesFault]
  intro _
  omega

/-- A group that is ready issues: with no lane in active() its lanes only move on (R152); otherwise the instruction has its effect. -/
theorem issue_ready {s : State} {i : Instr} {is : Iss} (body : Iss → State → State) (h : Ready s i is) :
    issue i body s = .next (if is.act = 0 then
        post ((issued s i is).setGroup is.g (((issued s i is).group is.g).advance is.at_ is.a is.len)) is.g
      else body is (issued s i is)) := by
  obtain ⟨g, a, len, at_, act, help⟩ := is
  obtain ⟨h1, h2, h3, h4, h5, h6, h7, h8, h9, h10, h11, h12, h13, _⟩ := h
  simp only at h1 h6 h7 h8 h9 h10
  subst h1 h7 h8 h9 h10
  unfold issue
  rw [if_neg (by simp [h3]; omega)]
  simp only [mayHold_of_mayIssue h5, Bool.false_and, Bool.false_eq_true, if_false, h4, h5, h6, h11, h12, h13, Bool.not_true, Bool.true_or,
    Bool.or_self]
  split <;> rfl

/-- An instruction given to a live group always answers a next state. -/
theorem issue_goes (i : Instr) (body : Iss → State → State) (s : State) (h1 : s.cur < s.groups.length)
    (h2 : (s.group s.cur).ended = false) : ∃ t, issue i body s = .next t := by
  unfold issue
  rw [if_neg (by simp [h2]; omega)]
  simp only
  repeat' split
  all_goals exact ⟨_, rfl⟩

/-- Without a live group there is nothing to issue. -/
theorem issue_stops (i : Instr) (body : Iss → State → State) (s : State) (h : s.groups.length ≤ s.cur ∨ (s.group s.cur).ended = true) :
    issue i body s = .fault .noIssuingGroup := by
  unfold issue
  rw [if_pos (by simpa using h)]

end Sys2Proof.Laws
end

