-- ==== Sys2Proof/Laws/Lanes.lean ====
section
/-! SUPPORT. The lanes of a group through an instruction: advance, release (R154), and the end of an instruction. -/

namespace Sys2Proof.Laws

open Machine Safety

theorem getAt_map {α β : Type} (d : α) (e : β) (f : α → β) : ∀ (l : List α) (n : Nat), n < l.length → getAt e (l.map f) n = f (getAt d l n)
  | [], _, h => absurd h (by simp)
  | _ :: _, 0, _ => rfl
  | _ :: l, n + 1, h => getAt_map d e f l n (by simpa using h)

/-- A lane after a change of the lanes of a mask. -/
theorem lane_mapLanes (g : Group) (m : Mask) (f : Nat → Lane → Lane) (l : Nat) :
    (g.mapLanes m f).lane l = if l < g.lanes.length ∧ m.getLsbD l = true then f l (g.lane l) else g.lane l := by
  unfold Group.mapLanes
  by_cases h : l < g.lanes.length
  · have : (Group.lane { g with lanes := (List.range g.lanes.length).map fun l => if m.getLsbD l then f l (g.lane l) else g.lane l } l)
        = if m.getLsbD l then f l (g.lane l) else g.lane l := by
      unfold Group.lane
      exact getAt_map_range _ _ _ _ h
    rw [this]
    simp [h]
  · have h' : g.lanes.length ≤ l := by omega
    simp only [h, false_and, if_false]
    unfold Group.lane
    rw [getAt_beyond _ _ _ h', getAt_beyond _ _ _ (by simpa using h')]

@[simp] theorem length_mapLanes (g : Group) (m : Mask) (f : Nat → Lane → Lane) : (g.mapLanes m f).lanes.length = g.lanes.length := by
  simp [Group.mapLanes]

/-- One group is another but for parked lanes that release has freed. -/
def Released (x y : Group) : Prop :=
  y = { x with lanes := y.lanes } ∧ y.lanes.length = x.lanes.length ∧
  ∀ l, y.lane l = x.lane l ∨ ((x.lane l).p = true ∧ (x.lane l).x = false ∧
    y.lane l = { x.lane l with p := false, n := 0, pc := (x.lane l).pc + 8 })

theorem Released.rfl (x : Group) : Released x x := ⟨by cases x; exact Eq.refl _, Eq.refl _, fun _ => .inl (Eq.refl _)⟩

theorem Released.trans {x y z : Group} (h1 : Released x y) (h2 : Released y z) : Released x z := by
  refine ⟨?_, h2.2.1.trans h1.2.1, fun l => ?_⟩
  · have e1 := h1.1
    have e2 := h2.1
    rw [e1] at e2
    simpa using e2
  · rcases h1.2.2 l with a | ⟨p, x', a⟩
    · rcases h2.2.2 l with b | ⟨p', x', b⟩
      · exact .inl (b.trans a)
      · exact .inr ⟨a ▸ p', a ▸ x', by rw [b, a]⟩
    · rcases h2.2.2 l with b | ⟨p', _, _⟩
      · exact .inr ⟨p, x', b.trans a⟩
      · rw [a] at p'
        exact absurd p' (by simp)

theorem releaseAt_released (g : Group) (n a : Nat) : Released g (g.releaseAt n a) := by
  unfold Group.releaseAt
  simp only
  split
  · refine ⟨rfl, length_mapLanes _ _ _, fun l => ?_⟩
    rw [lane_mapLanes]
    split
    · rename_i h
      obtain ⟨_, h⟩ := h
      rw [getLsbD_maskOf] at h
      simp only [Bool.and_eq_true, decide_eq_true_eq, Bool.not_eq_true', beq_iff_eq] at h
      exact .inr ⟨h.2.1.1.1.2, h.2.1.1.2, by rw [h.2.2]⟩
    · exact .inl (Eq.refl _)
  · exact Released.rfl g

theorem foldl_released {α : Type} (f : Group → α → Group) (hf : ∀ g a, Released g (f g a)) :
    ∀ (l : List α) (g : Group), Released g (l.foldl f g)
  | [], g => Released.rfl g
  | a :: l, g => (hf g a).trans (foldl_released f hf l (f g a))

/-- Everything release can do (R154). -/
theorem release_released (g : Group) : Released g g.release := by
  unfold Group.release
  refine foldl_released _ (fun g n => ?_) _ _
  exact foldl_released _ (fun g a => releaseAt_released g n a) _ _

theorem Released.live {x y : Group} (h : Released x y) : y.live = x.live := by
  unfold Group.live
  refine mask_ext fun l _ => ?_
  rw [getLsbD_maskOf, getLsbD_maskOf, h.2.1]
  rcases h.2.2 l with e | ⟨_, e2, e⟩
  · rw [e]
  · rw [e]

theorem lane_advance (g : Group) (m : Mask) (a len l : Nat) :
    (g.advance m a len).lane l =
      if m.getLsbD l = true ∧ (g.lane l).x = false ∧ (g.lane l).p = false ∧ (g.lane l).pc = a ∧ l < g.lanes.length then
        { g.lane l with pc := a + len } else g.lane l := by
  unfold Group.advance
  rw [lane_mapLanes]
  by_cases h : l < g.lanes.length <;> by_cases hm : m.getLsbD l = true <;> simp [h, hm, and_assoc]

@[simp] theorem length_advance (g : Group) (m : Mask) (a len : Nat) : (g.advance m a len).lanes.length = g.lanes.length := length_mapLanes _ _ _

theorem live_advance (g : Group) (m : Mask) (a len : Nat) : (g.advance m a len).live = g.live := by
  unfold Group.live
  refine mask_ext fun l _ => ?_
  rw [getLsbD_maskOf, getLsbD_maskOf, length_advance, lane_advance]
  split <;> rfl

theorem running_lt {g : Group} {l : Nat} (h : g.running.getLsbD l = true) :
    l < 32 ∧ l < g.lanes.length ∧ (g.lane l).x = false ∧ (g.lane l).p = false := by
  unfold Group.running at h
  rw [getLsbD_maskOf] at h
  simp only [Bool.and_eq_true, decide_eq_true_eq, Bool.not_eq_true'] at h
  exact ⟨h.1, h.2.1.1, h.2.1.2, h.2.2⟩

theorem lanesAt_iff (g : Group) (a l : Nat) : (g.lanesAt a).getLsbD l = true ↔
    l < 32 ∧ l < g.lanes.length ∧ (g.lane l).x = false ∧ (g.lane l).p = false ∧ (g.lane l).pc = a := by
  unfold Group.lanesAt
  rw [getLsbD_maskOf]
  simp only [Bool.and_eq_true, decide_eq_true_eq, beq_iff_eq]
  constructor
  · rintro ⟨h1, h2, h3⟩
    have := running_lt h2
    exact ⟨h1, this.2.1, this.2.2.1, this.2.2.2, h3⟩
  · rintro ⟨h1, h2, h3, h4, h5⟩
    refine ⟨h1, ?_, h5⟩
    unfold Group.running
    rw [getLsbD_maskOf]
    simp [h1, h2, h3, h4]

theorem active_sub {g : Group} {m : Mask} {c : Ctl} {l : Nat} (h : (g.active m c).getLsbD l = true) : m.getLsbD l = true := by
  unfold Group.active at h
  simp only [BitVec.getLsbD_and, Bool.and_eq_true] at h
  exact h.1

/-- Lanes of active() stand at the address. -/
theorem ready_act_at {s : State} {i : Instr} {is : Iss} (h : Ready s i is) {l : Nat} (hl : is.act.getLsbD l = true) :
    is.at_.getLsbD l = true := by
  rw [h.act] at hl
  exact active_sub hl

theorem ready_live {s : State} {i : Instr} {is : Iss} (h : Ready s i is) (ha : is.act ≠ 0) : (s.group s.cur).live ≠ 0 := by
  obtain ⟨l, hl, hb⟩ := mask_ne_zero.mp ha
  have h1 := ready_act_at h hb
  rw [h.here, lanesAt_iff] at h1
  refine mask_ne_zero.mpr ⟨l, hl, ?_⟩
  unfold Group.live
  rw [getLsbD_maskOf]
  simp [hl, h1.2.1, h1.2.2.1]

-- Backing rows ------------------------------------------------------------------------------------------------------------------

theorem length_flatMap_const {α β : Type} (f : α → List β) (k : Nat) : ∀ (l : List α), (∀ a ∈ l, (f a).length = k) →
    (l.flatMap f).length = l.length * k
  | [], _ => by simp
  | a :: l, h => by
    have := length_flatMap_const f k l fun b hb => h b (List.mem_cons_of_mem _ hb)
    simp only [List.flatMap_cons, List.length_append, List.length_cons, h a (List.mem_cons_self ..), this]
    rw [Nat.add_mul, Nat.one_mul, Nat.add_comm]

theorem length_vrow (g : Group) (n : Nat) : (g.vrow n).length = 32 := by simp [Group.vrow]

/-- Everything that keeping the backing region can do: bytes of memory, and the end of marks of sectors that the group's rows fill. -/
theorem backRows_fields (s : State) (g : Nat) : ∃ m l, backRows s g = { s with mem := m, poison := l } ∧ (∀ n ∈ l, n ∈ s.poison) ∧
    ∀ n ∈ s.poison, n ∈ l ∨ ∀ a, 32 * n ≤ a → a < 32 * n + 32 → BackByte s g a := by
  unfold backRows
  simp only
  split
  · exact ⟨s.mem, s.poison, rfl, fun _ h => h, fun _ h => .inl h⟩
  · rename_i hc
    simp only [Bool.or_eq_true, decide_eq_true_eq, not_or, Nat.not_le] at hc
    obtain ⟨hv, hr⟩ := hc
    obtain ⟨l, e, h1, h2⟩ := clearPoison_cases s ((span (s.group g).vres ((s.group g).vbound - (s.group g).vres)).map fun v =>
      (homeAddr s.dev (wfield s.dev.rback 30 27 * 2 ^ 30 + (32 * (s.group g).core + (s.group g).slot) * 65536 + 256 * v), 256))
    refine ⟨_, l, by rw [e], h1, fun n hn => (h2 n hn).imp id fun h a ha hb => ?_⟩
    obtain ⟨r, hr', h3, h4⟩ := h a ha hb
    simp only [span, List.mem_map, List.mem_range] at hr'
    obtain ⟨v, ⟨k, hk, rfl⟩, rfl⟩ := hr'
    refine ⟨?_, (s.group g).vres + k, .inr (by omega), h3, h4⟩
    have : wfield s.dev.rback 0 1 < 2 := by unfold wfield field; exact Nat.mod_lt _ (by decide)
    omega

theorem foldl_memWrite_frame (f : Nat → Nat × List Byte) : ∀ (l : List Nat) (m : List Host.Cell), Memory.wf m = true →
    Memory.wf (l.foldl (fun m v => memWrite m (f v).1 (f v).2) m) = true ∧
    ∀ a, (∀ v ∈ l, ¬ ((f v).1 ≤ a ∧ a < (f v).1 + (f v).2.length)) →
      memGet (l.foldl (fun m v => memWrite m (f v).1 (f v).2) m) a = memGet m a
  | [], _, h => ⟨h, fun _ _ => rfl⟩
  | v :: l, m, h => by
    have ih := foldl_memWrite_frame f l _ (memWrite_wf (f v).2 m (f v).1 h)
    refine ⟨ih.1, fun a ha => ?_⟩
    rw [List.foldl_cons, ih.2 a fun u hu => ha u (List.mem_cons_of_mem _ hu)]
    refine memGet_memWrite_other _ _ _ _ h ?_
    have := ha v (List.mem_cons_self ..)
    omega

theorem backRows_mem {s : State} (g : Nat) (h : Memory.wf s.mem = true) :
    Memory.wf (backRows s g).mem = true ∧ ∀ a, ¬ BackByte s g a → memGet (backRows s g).mem a = memGet s.mem a := by
  unfold backRows
  simp only
  split
  · exact ⟨h, fun _ _ => rfl⟩
  · rename_i hc
    simp only [Bool.or_eq_true, decide_eq_true_eq, not_or, Nat.not_le] at hc
    obtain ⟨hv, hr⟩ := hc
    have key := foldl_memWrite_frame (fun v =>
      (homeAddr s.dev (wfield s.dev.rback 30 27 * 2 ^ 30 + (32 * (s.group g).core + (s.group g).slot) * 65536 + 256 * v),
        if (s.ctx (s.team (s.group g).team).ctx).sealed then
          cipher (s.ctx (s.team (s.group g).team).ctx).key.toNat
            ((wfield s.dev.rback 30 27 * 2 ^ 30 + (32 * (s.group g).core + (s.group g).slot) * 65536 + 256 * v) / 32)
            (((s.group g).vrow v).flatMap fun w => toBytes 8 w.toNat)
        else ((s.group g).vrow v).flatMap fun w => toBytes 8 w.toNat))
      (span (s.group g).vres ((s.group g).vbound - (s.group g).vres)) s.mem h
    refine ⟨key.1, fun a ha => key.2 a fun v hv' hin => ha ⟨?_, v, .inr ?_, ?_⟩⟩
    · have : wfield s.dev.rback 0 1 < 2 := by unfold wfield field; exact Nat.mod_lt _ (by decide)
      omega
    · simp only [span, List.mem_map, List.mem_range] at hv'
      obtain ⟨k, hk, rfl⟩ := hv'
      omega
    · have hl : (((s.group g).vrow v).flatMap fun w => toBytes 8 w.toNat).length = 256 := by
        rw [length_flatMap_const _ 8 _ (by simp [toBytes]), length_vrow]
      refine ⟨hin.1, ?_⟩
      have := hin.2
      simp only at this
      split at this
      · simpa [cipher, hl] using this
      · simpa [hl] using this

-- The end of an instruction --------------------------------------------------------------------------------------------------------

/-- Release reads no join register that fails parity where no lane is parked under one that does (R154, R370). -/
theorem badJoin_none (x : Group) : x.badJoin = none ↔
    ∀ n < 4, ∀ r ∈ x.vbad, r.1 = .j n → ∀ l < x.lanes.length, ¬ ((x.lane l).p = true ∧ (x.lane l).x = false ∧ (x.lane l).n = n) := by
  unfold Group.badJoin
  by_cases hv : x.vbad = []
  · simp [hv]
  · rw [if_neg (by simpa using hv), List.find?_eq_none]
    simp only [List.mem_range, Bool.and_eq_true, List.any_eq_true, beq_iff_eq, Bool.not_eq_true', not_and, not_exists]
    constructor
    · rintro h n hn r hr e l hl hp hx hnn
      have := h n hn ⟨r, hr, e⟩
      simp at this
      exact this l hl hp hx hnn
    · rintro h n hn ⟨r, hr, e⟩
      simp
      intro l hl hp hx hnn
      exact h n hn r hr e l hl hp hx hnn

/-- Moving lanes on parks none. -/
theorem badJoin_advance {x : Group} (m : Mask) (a len : Nat) (h : x.badJoin = none) : (x.advance m a len).badJoin = none := by
  rw [badJoin_none] at h ⊢
  intro n hn r hr e l hl
  rw [length_advance] at hl
  have := h n hn r hr e l hl
  rw [lane_advance]
  split <;> exact this

/-- An effect that leaves the lanes and adds no parity mark leaves release's read as sound. -/
theorem badJoin_mono {x y : Group} (hl : y.lanes = x.lanes) (hv : ∀ r ∈ y.vbad, r ∈ x.vbad) (h : x.badJoin = none) : y.badJoin = none := by
  rw [badJoin_none] at h ⊢
  intro n hn r hr e l hll
  have := h n hn r (hv r hr) e l (by rw [← hl]; exact hll)
  unfold Group.lane
  rw [hl]
  exact this

/-- After an instruction of a group that keeps a live lane: release, and the rows in the backing region (R107, R154). -/
theorem post_live {s : State} {g : Nat} (h : (s.group g).live ≠ 0) (hj : (s.group g).badJoin = none) :
    post s g = backRows (s.setGroup g (s.group g).release) g := by
  unfold post
  rw [hj]
  simp only
  rw [if_neg (by rw [(release_released _).live]; exact h)]

/-- The group at the start of an instruction's effect: only its windows, LAMISS, fetch buffer and breakpoint skip have moved. -/
theorem issued_group (s : State) (i : Instr) (is : Iss) :
    (issued s i is).group is.g =
      { ((s.group is.g).lookahead i is.a is.len).unbuffer is.a is.len with skipBrk := (s.group is.g).skipBrk.filter (· != is.a) } := by
  simp [issued]

theorem issued_fields (s : State) (i : Instr) (is : Iss) :
    let t := issued s i is
    t.writes = s.writes ∧ t.rels = s.rels ∧ DevSame s t ∧ t.ctxs = s.ctxs ∧ t.launches = s.launches ∧
    t.clusters = s.clusters ∧ t.pegs = s.pegs ∧ t.colls = s.colls ∧ t.gateQ = s.gateQ ∧ t.hostView = s.hostView ∧ t.peerView = s.peerView ∧
    t.agenda = s.agenda ∧ t.cur = s.cur ∧ t.choices = s.choices ∧ t.clock = s.clock := by
  have h := countIssue_fields s (s.group is.g)
  simp only at h ⊢
  obtain ⟨_, h2, h3, _, h5, h6, h7, _, h9, h10, h11, h12, h13, h14, h15, h16, _, h18, h19, _⟩ := h
  refine ⟨by simp [issued, h2], by simp [issued, h3], ?_, by simp [issued, h6], by simp [issued, h7],
    by simp [issued, h9], by simp [issued, h10], by simp [issued, h11], by simp [issued, h12], by simp [issued, h13],
    by simp [issued, h14], by simp [issued, h15], by simp [issued, h16], by simp [issued, h18], by simp [issued, h19]⟩
  have e : (issued s i is).dev = (traceGroup (countIssue s (s.group is.g)) 0x01 is.g is.act is.a).dev := rfl
  unfold DevSame
  rw [e, ← h5]
  exact trace_dev _ _ _ _ _ _ _

/-- Issuing may end the mark of a sector of the trace ring alone. -/
theorem issued_marks (s : State) (i : Instr) (is : Iss) : (∀ n ∈ (issued s i is).poison, n ∈ s.poison) ∧
    ∀ n ∈ s.poison, n ∈ (issued s i is).poison ∨ ∀ a, 32 * n ≤ a → a < 32 * n + 32 → TraceByte s a := by
  have hf := countIssue_fields s (s.group is.g)
  simp only at hf
  have e : (issued s i is).poison = (traceGroup (countIssue s (s.group is.g)) 0x01 is.g is.act is.a).poison := rfl
  have h := trace_marks (countIssue s (s.group is.g)) 0x01 ((countIssue s (s.group is.g)).team ((countIssue s (s.group is.g)).group is.g).team)
    ((countIssue s (s.group is.g)).group is.g).core ((countIssue s (s.group is.g)).group is.g).slot is.act is.a
  rw [e]
  unfold traceGroup
  unfold TraceByte at h ⊢
  rw [hf.2.2.2.1, hf.2.2.2.2.1] at h
  exact h

theorem issued_team (s : State) (i : Instr) (is : Iss) (k : Nat) : TeamSame (s.team k) ((issued s i is).team k) := by
  have e : (issued s i is).team k = (countIssue s (s.group is.g)).team k := by simp [issued]
  rw [e]
  exact countIssue_team s _ k

theorem issued_teams_length (s : State) (i : Instr) (is : Iss) : (issued s i is).teams.length = s.teams.length := by
  simp [issued, countIssue]

theorem issued_core (s : State) (i : Instr) (is : Iss) (k : Nat) : CoreSame (s.core k) ((issued s i is).core k) := by
  have e : (issued s i is).core k = (countIssue s (s.group is.g)).core k := by simp [issued]
  rw [e]
  exact countIssue_core s _ k

theorem countIssue_groups (s : State) (x : Group) : (countIssue s x).groups = s.groups := (countIssue_fields s x).2.2.2.2.2.2.2.1

theorem issued_groups (s : State) (i : Instr) (is : Iss) (h : is.g < s.groups.length) : GroupsKept s (issued s i is) is.g := by
  refine ⟨?_, fun k hk => ?_⟩
  · have e : (issued s i is).groups = setAt {} (countIssue s (s.group is.g)).groups is.g
        { ((s.group is.g).lookahead i is.a is.len).unbuffer is.a is.len with skipBrk := (s.group is.g).skipBrk.filter (· != is.a) } := by simp [issued]
    rw [e, countIssue_groups, length_setAt _ _ _ _ h]
  · unfold issued
    simp only
    rw [group_setGroup_other _ _ _ _ hk]
    simp [State.group, countIssue_groups]

theorem issued_mem {s : State} (i : Instr) (is : Iss) (h : Memory.wf s.mem = true) :
    Memory.wf (issued s i is).mem = true ∧ ∀ a, ¬ TraceByte s a → memGet (issued s i is).mem a = memGet s.mem a := by
  have hf := countIssue_fields s (s.group is.g)
  have e : (issued s i is).mem = (traceGroup (countIssue s (s.group is.g)) 0x01 is.g is.act is.a).mem := rfl
  have hw : Memory.wf (countIssue s (s.group is.g)).mem = true := by rw [hf.1]; exact h
  refine ⟨by rw [e]; exact trace_mem_wf hw _ _ _ _ _ _, fun a ha => ?_⟩
  rw [e, traceGroup, trace_mem hw]
  · rw [hf.1]
  · unfold TraceByte
    rw [hf.2.2.2.2.1]
    exact ha

/-- What an effect on the registers of its own group comes to: those registers as the effect leaves them, the lanes moved on, parked
lanes that release frees, and nothing else of the machine. -/
theorem regBody_ready {s : State} {i : Instr} {is : Iss} (f : Iss → Group → Group) (h : Ready s i is) (ha : is.act ≠ 0)
    (hw : Memory.wf s.mem = true)
    (hf : ∀ x, (f is x).lanes = x.lanes ∧ (f is x).core = x.core ∧ (f is x).slot = x.slot ∧ (f is x).vbound = x.vbound ∧
      ∀ r ∈ (f is x).vbad, r ∈ x.vbad) :
    let t := regBody f is (issued s i is)
    Released ((f is ((issued s i is).group is.g)).advance is.at_ is.a is.len) (t.group is.g) ∧
    GroupsKept s t is.g ∧ MachineKept s t is.g ∧ MemKept s t is.g := by
  simp only
  have hg : is.g < s.groups.length := by rw [h.isGroup]; exact h.exists_
  have hI := issued_groups s i is hg
  have hlen : is.g < (issued s i is).groups.length := by rw [hI.1]; exact hg
  have hx := issued_group s i is
  generalize hT : issued s i is = T at *
  have hlive : ((f is (T.group is.g)).advance is.at_ is.a is.len).live ≠ 0 := by
    rw [live_advance]
    have h1 : (f is (T.group is.g)).live = (s.group s.cur).live := by
      unfold Group.live Group.lane
      rw [(hf _).1, hx, h.isGroup]
      rfl
    rw [h1]
    exact ready_live h ha
  have hjoin : ((f is (T.group is.g)).advance is.at_ is.a is.len).badJoin = none := by
    refine badJoin_advance _ _ _ (badJoin_mono (hf _).1 (hf _).2.2.2.2 ?_)
    have := h.joins
    rw [← h.isGroup] at this
    rw [hx]
    exact badJoin_mono (x := s.group is.g) rfl (fun _ h => h) this
  have hb : regBody f is T = backRows ((T.setGroup is.g ((f is (T.group is.g)).advance is.at_ is.a is.len)).setGroup is.g
      ((f is (T.group is.g)).advance is.at_ is.a is.len).release) is.g := by
    unfold regBody
    simp only
    rw [post_live (by simpa using hlive) (by simpa using hjoin)]
    simp
  obtain ⟨m, pl, hm, hp1, hp2⟩ := backRows_fields ((T.setGroup is.g ((f is (T.group is.g)).advance is.at_ is.a is.len)).setGroup is.g
      ((f is (T.group is.g)).advance is.at_ is.a is.len).release) is.g
  have hrel := release_released ((f is (T.group is.g)).advance is.at_ is.a is.len)
  have hback : ∀ a, BackByte ((T.setGroup is.g ((f is (T.group is.g)).advance is.at_ is.a is.len)).setGroup is.g
      ((f is (T.group is.g)).advance is.at_ is.a is.len).release) is.g a → BackByte s is.g a := by
    intro a hbk
    have hd : DevSame s T := by
      have hF := issued_fields s i is
      rw [hT] at hF
      exact hF.2.2.1
    obtain ⟨n, k, m, hd⟩ := hd
    have e2 := hrel.1
    unfold BackByte at hbk ⊢
    simp only [setGroup_dev, group_setGroup_same] at hbk
    rw [hd] at hbk
    rw [e2] at hbk
    simp only [advance_core, advance_slot, advance_vbound, (hf _).2.1, (hf _).2.2.1, (hf _).2.2.2.1, hx] at hbk
    exact hbk
  refine ⟨?_, ?_, ?_, ?_⟩
  · rw [hb, hm]
    simpa [State.group] using hrel
  · rw [hb, hm]
    refine ⟨?_, fun k hk => ?_⟩
    · simp only [setGroup_groups]
      rw [length_setAt _ _ _ _ (by rw [length_setAt _ _ _ _ hlen]; exact hlen), length_setAt _ _ _ _ hlen]
      exact hI.1
    · have : State.group { (T.setGroup is.g ((f is (T.group is.g)).advance is.at_ is.a is.len)).setGroup is.g
          ((f is (T.group is.g)).advance is.at_ is.a is.len).release with mem := m, poison := pl } k = T.group k := by
        show (((T.setGroup is.g _).setGroup is.g _).group k) = _
        rw [group_setGroup_other _ _ _ _ hk, group_setGroup_other _ _ _ _ hk]
      rw [this]
      exact hI.2 k hk
  · have hF := issued_fields s i is
    rw [hT] at hF
    simp only at hF
    obtain ⟨f1, f2, f4, f5, f6, f7, f8, f9, f10, f11, f12, f13, f14, f15, f16⟩ := hF
    have hP := issued_marks s i is
    rw [hT] at hP
    have f3 : MarksKept s { ((T.setGroup is.g ((f is (T.group is.g)).advance is.at_ is.a is.len)).setGroup is.g
        ((f is (T.group is.g)).advance is.at_ is.a is.len).release) with mem := m, poison := pl } is.g := by
      refine ⟨fun n hn => hP.1 n (hp1 n hn), fun n hn => ?_⟩
      rcases hP.2 n hn with h1 | h1
      · exact (hp2 n h1).imp id fun h2 a ha hb' => .inr (hback a (h2 a ha hb'))
      · exact .inr fun a ha hb' => .inl (h1 a ha hb')
    rw [hb, hm]
    have hteams := issued_team s i is
    have hcores := issued_core s i is
    have hl := issued_teams_length s i is
    rw [hT] at hteams hcores hl
    exact ⟨f1, f2, f3, f4, f5, f6, ⟨hl, hteams⟩, hcores, f7, f8, f9, f10, f11, f12, f13, f14, f15, f16⟩
  · have hM := issued_mem i is hw
    rw [hT] at hM
    intro a hside
    rw [hb]
    have hB := backRows_mem (s := (T.setGroup is.g ((f is (T.group is.g)).advance is.at_ is.a is.len)).setGroup is.g
      ((f is (T.group is.g)).advance is.at_ is.a is.len).release) is.g hM.1
    rw [hB.2 a ?_]
    · exact hM.2 a fun ht => hside (.inl ht)
    · exact fun hbk => hside (.inr (hback a hbk))

end Sys2Proof.Laws
end

