-- ==== Sys2Proof/Laws/Regs.lean ====
section
/-! SUPPORT. Writing destination runs, predicates and flags (R127, R175, R176, R180). -/

namespace Sys2Proof.Laws

open Machine Safety

theorem vcell_eq (g : Group) (n l : Nat) (h : l < 32) : vcell g n l = getAt 0 (getAt [] g.v n) l := by
  unfold vcell Group.vrow
  exact getAt_map_range _ _ _ _ h

theorem vcell_putV (g : Group) (n : Nat) (m : Mask) (row : List Word) (k l : Nat) (hl : l < 32) :
    vcell (g.putV n m row) k l = if k = n ∧ m.getLsbD l = true then getAt 0 row l else vcell g k l := by
  rw [vcell_eq _ _ _ hl]
  unfold Group.putV
  simp only
  by_cases hk : k = n
  · subst hk
    rw [getAt_setAt_same, getAt_map_range _ _ _ _ hl]
    simp only [true_and, vcell]
  · rw [getAt_setAt_other _ _ _ _ _ hk, vcell_eq _ _ _ hl]
    simp [hk]

theorem sreg_putS (g : Group) (n : Nat) (w : Word) (k : Nat) : (g.putS n w).sreg k = if k = n then w else g.sreg k := by
  unfold Group.sreg
  by_cases hk : k = n
  · subst hk; simp
  · simp only [putS_s, hk, if_false]
    exact getAt_setAt_other _ _ _ _ _ hk

@[simp] theorem sreg_putV (g : Group) (n : Nat) (m : Mask) (row : List Word) (k : Nat) : (g.putV n m row).sreg k = g.sreg k := rfl
@[simp] theorem vcell_putS (g : Group) (n : Nat) (w : Word) (k l : Nat) : vcell (g.putS n w) k l = vcell g k l := rfl

/-- What a write of a destination run can change: vector and scalar registers, and parity marks that it ends. -/
theorem putRun_fields (d : Reg) (m : Mask) : ∀ (rows : List (List Word)) (j : Nat) (g : Group),
    ∃ v s b, g.putRun d m j rows = { g with v := v, s := s, vbad := b } ∧ ∀ r ∈ b, r ∈ g.vbad
  | [], _, g => ⟨g.v, g.s, g.vbad, rfl, fun _ h => h⟩
  | row :: rows, j, g => by
    unfold Group.putRun
    simp only
    cases hd : d.file with
    | v =>
      obtain ⟨v, s, b, h, hb⟩ := putRun_fields d m rows (j + 1) (g.putV (d.num.toNat + j) m row)
      exact ⟨v, s, b, by simp only [h]; rfl, fun r hr => (List.mem_filter.1 (hb r hr)).1⟩
    | s =>
      cases hl : lowLane m with
      | none =>
        obtain ⟨v, s, b, h, hb⟩ := putRun_fields d m rows (j + 1) g
        exact ⟨v, s, b, by simp only [h], hb⟩
      | some l =>
        obtain ⟨v, s, b, h, hb⟩ := putRun_fields d m rows (j + 1) (g.putS (d.num.toNat + j) (getAt 0 row l))
        exact ⟨v, s, b, by simp only [h]; rfl, fun r hr => (List.mem_filter.1 (hb r hr)).1⟩

theorem vcell_putRun (d : Reg) (m : Mask) : ∀ (rows : List (List Word)) (j : Nat) (g : Group) (n l : Nat), l < 32 →
    vcell (g.putRun d m j rows) n l =
      if d.file = .v ∧ d.num.toNat + j ≤ n ∧ n < d.num.toNat + j + rows.length ∧ m.getLsbD l = true then
        cell rows (n - (d.num.toNat + j)) l else vcell g n l
  | [], j, g, n, l, _ => by
    unfold Group.putRun
    rw [if_neg (by simp; omega)]
  | row :: rows, j, g, n, l, hl => by
    unfold Group.putRun
    simp only
    rw [vcell_putRun d m rows (j + 1) _ n l hl]
    cases hd : d.file with
    | v =>
      simp only [vcell_putV _ _ _ _ _ _ hl, true_and, List.length_cons]
      by_cases hm : m.getLsbD l = true
      · by_cases h1 : n = d.num.toNat + j
        · subst h1
          rw [if_neg (by omega), if_pos ⟨rfl, hm⟩, if_pos ⟨by omega, by omega, hm⟩]
          simp [cell, getAt]
        · by_cases h2 : d.num.toNat + (j + 1) ≤ n ∧ n < d.num.toNat + (j + 1) + rows.length
          · rw [if_pos ⟨h2.1, h2.2, hm⟩, if_pos ⟨by omega, by omega, hm⟩]
            have e : n - (d.num.toNat + j) = (n - (d.num.toNat + (j + 1))) + 1 := by omega
            rw [e]
            rfl
          · rw [if_neg (by omega), if_neg (by simp [h1]), if_neg (by omega)]
      · simp [hm]
    | s =>
      simp only [reduceCtorEq, false_and, if_false]
      cases lowLane m <;> rfl

theorem sreg_putRun (d : Reg) (m : Mask) : ∀ (rows : List (List Word)) (j : Nat) (g : Group) (n : Nat),
    (g.putRun d m j rows).sreg n = match lowLane m with
      | some l => if d.file = .s ∧ d.num.toNat + j ≤ n ∧ n < d.num.toNat + j + rows.length then
          cell rows (n - (d.num.toNat + j)) l else g.sreg n
      | none => g.sreg n
  | [], j, g, n => by
    unfold Group.putRun
    cases lowLane m with
    | none => rfl
    | some l =>
      simp only
      rw [if_neg (by simp only [List.length_nil]; omega)]
  | row :: rows, j, g, n => by
    unfold Group.putRun
    simp only
    rw [sreg_putRun d m rows (j + 1) _ n]
    cases hd : d.file with
    | v => cases lowLane m <;> simp
    | s =>
      cases hl : lowLane m with
      | none => rfl
      | some l =>
        simp only [true_and, sreg_putS, List.length_cons]
        by_cases h1 : n = d.num.toNat + j
        · subst h1
          rw [if_neg (by omega), if_pos rfl, if_pos (by omega)]
          simp [cell, getAt]
        · by_cases h2 : d.num.toNat + (j + 1) ≤ n ∧ n < d.num.toNat + (j + 1) + rows.length
          · rw [if_pos h2, if_pos (by omega)]
            have e : n - (d.num.toNat + j) = (n - (d.num.toNat + (j + 1))) + 1 := by omega
            rw [e]
            rfl
          · rw [if_neg h2, if_neg h1, if_neg (by omega)]

/-- A write of a run, register by register and lane by lane. -/
theorem putRun_written (g : Group) (d : Reg) (m : Mask) (rows : List (List Word)) (h : rows.length = runLen d.wid) :
    RunWritten g (g.putRun d m 0 rows) d m (cell rows) := by
  refine ⟨fun n l hl => ?_, fun n => ?_⟩
  · rw [vcell_putRun d m rows 0 g n l hl, h]
    rfl
  · rw [sreg_putRun d m rows 0 g n, h]
    rfl

theorem cell_map_range (n : Nat) (f : Nat → Nat → Word) (j l : Nat) (hj : j < n) (hl : l < 32) :
    cell ((List.range n).map fun j => (List.range 32).map (f j)) j l = f j l := by
  unfold cell
  rw [getAt_map_range _ _ _ _ hj, getAt_map_range _ _ _ _ hl]

theorem mem_lowLane {m : Mask} {l : Nat} (h : lowLane m = some l) : l < 32 ∧ m.getLsbD l = true := by
  unfold lowLane at h
  exact (mem_lanesOf m l).mp (List.mem_of_mem_head? h)

theorem lowLane_some {m : Mask} (h : m ≠ 0) : ∃ l, lowLane m = some l := by
  obtain ⟨l, hl, hb⟩ := mask_ne_zero.mp h
  have : l ∈ lanesOf m := (mem_lanesOf m l).mpr ⟨hl, hb⟩
  unfold lowLane
  cases hc : lanesOf m with
  | nil => rw [hc] at this; simp at this
  | cons a r => exact ⟨a, rfl⟩

/-- RunWritten looks only at the values in the lanes and registers written. -/
theorem runWritten_congr {x y : Group} {d : Reg} {m : Mask} {v w : Nat → Nat → Word} (h : RunWritten x y d m v)
    (e : ∀ j l, j < runLen d.wid → l < 32 → (match d.file with | .v => m.getLsbD l = true | .s => lowLane m = some l) → v j l = w j l) :
    RunWritten x y d m w := by
  refine ⟨fun n l hl => ?_, fun n => ?_⟩
  · rw [h.1 n l hl]
    by_cases hc : d.file = .v ∧ d.num.toNat ≤ n ∧ n < d.num.toNat + runLen d.wid ∧ m.getLsbD l = true
    · rw [if_pos hc, if_pos hc]
      refine e _ _ (by omega) hl ?_
      rw [hc.1]
      exact hc.2.2.2
    · rw [if_neg hc, if_neg hc]
  · rw [h.2 n]
    cases hl : lowLane m with
    | none => rfl
    | some l =>
      simp only
      by_cases hc : d.file = .s ∧ d.num.toNat ≤ n ∧ n < d.num.toNat + runLen d.wid
      · rw [if_pos hc, if_pos hc]
        refine e _ _ (by omega) (mem_lowLane hl).1 ?_
        rw [hc.1]
        exact hl
      · rw [if_neg hc, if_neg hc]

theorem runWritten_raise {x y : Group} {d : Reg} {m : Mask} {v : Nat → Nat → Word} (h : RunWritten x y d m v) (f : Flags) :
    RunWritten x (y.raise f) d m v := h

theorem foldl_or_bit (b : Nat) : ∀ (l : List Flags) (a : Flags), (l.foldl (· ||| ·) a).getLsbD b = (a.getLsbD b || l.any fun f => f.getLsbD b)
  | [], a => by simp
  | f :: l, a => by
    rw [List.foldl_cons, foldl_or_bit b l]
    simp [Bool.or_assoc]

theorem unionFlags_bit (l : List Flags) (b : Nat) : (unionFlags l).getLsbD b = true ↔ ∃ f ∈ l, f.getLsbD b = true := by
  unfold unionFlags
  rw [foldl_or_bit]
  simp

theorem fields_raise {g x : Group} (f : Flags) (h : ∃ v s b, x = { g with v := v, s := s, vbad := b } ∧ ∀ r ∈ b, r ∈ g.vbad) :
    ∃ v s b fl, x.raise f = { g with v := v, s := s, vbad := b, flags := fl } ∧ ∀ r ∈ b, r ∈ g.vbad := by
  obtain ⟨v, s, b, rfl, h⟩ := h
  exact ⟨v, s, b, _, rfl, h⟩

/-- What a lane-wise result can change. -/
theorem lanewise_fields (g : Group) (d : Reg) (act help : Mask) (f : Nat → Nat → Word × Flags) :
    ∃ v s b fl, g.lanewise d act help f = { g with v := v, s := s, vbad := b, flags := fl } ∧ ∀ r ∈ b, r ∈ g.vbad := by
  unfold Group.lanewise
  exact fields_raise _ (putRun_fields d act _ 0 g)

/-- The registers and flags of a lane-wise result (R176, R180). -/
theorem lanewise_result (g : Group) (d : Reg) (act help : Mask) (f : Nat → Nat → Word × Flags) :
    RunWritten g (g.lanewise d act help f) d act (fun j l => (f j l).1) ∧
    FlagsRaised g (g.lanewise d act help f) d act help (fun j l => (f j l).2) := by
  unfold Group.lanewise
  simp only
  generalize hr : ((List.range (runLen d.wid)).map fun j => (List.range 32).map fun l =>
    if act.getLsbD l then f j l else ((0 : Word), (0 : Flags))) = rows
  have hrow : ∀ j l, j < runLen d.wid → l < 32 → act.getLsbD l = true → getAt (0, 0) (getAt [] rows j) l = f j l := by
    intro j l hj hl ha
    rw [← hr, getAt_map_range _ _ _ _ hj, getAt_map_range _ _ _ _ hl, if_pos ha]
  refine ⟨runWritten_raise (runWritten_congr (putRun_written g d act _ (by simp [← hr])) fun j l hj hl hlane => ?_) _, fun b _ => ?_⟩
  · have e : (rows.map fun row => row.map (·.1)) = (List.range (runLen d.wid)).map fun j => (List.range 32).map
        fun l => (if act.getLsbD l then f j l else ((0 : Word), (0 : Flags))).1 := by
      simp [← hr, List.map_map, Function.comp_def]
    rw [e, cell_map_range _ _ _ _ hj hl, if_pos]
    cases hd : d.file with
    | v => rw [hd] at hlane; exact hlane
    | s => rw [hd] at hlane; exact (mem_lowLane hlane).2
  · have hfl : (g.putRun d act 0 (rows.map fun row => row.map (·.1))).flags = g.flags := by
      obtain ⟨v, s, bb, h, _⟩ := putRun_fields d act (rows.map fun row => row.map (·.1)) 0 g
      rw [h]
    rw [raise_flags, hfl, BitVec.getLsbD_or, Bool.or_eq_true, unionFlags_bit]
    refine or_congr Iff.rfl ?_
    constructor
    · rintro ⟨fl, hmem, hbit⟩
      simp only [← hr, List.mem_flatMap, List.mem_map, List.mem_range] at hmem
      obtain ⟨row, ⟨j, hj, rfl⟩, l, hl, rfl⟩ := hmem
      obtain ⟨h32, hm⟩ := (mem_lanesOf _ l).mp hl
      simp only [BitVec.getLsbD_and, BitVec.getLsbD_not, Bool.and_eq_true, Bool.not_eq_true'] at hm
      rw [getAt_map_range _ _ _ _ h32, if_pos hm.1] at hbit
      exact ⟨j, l, hj, h32, hbit, hm.1, hm.2.2⟩
    · rintro ⟨j, l, hj, h32, hbit, ha, hh⟩
      refine ⟨(f j l).2, ?_, hbit⟩
      refine List.mem_flatMap.mpr ⟨getAt [] rows j, ?_, List.mem_map.mpr ⟨l, (mem_lanesOf _ l).mpr ⟨h32, ?_⟩, by rw [hrow j l hj h32 ha]⟩⟩
      · rw [← hr, getAt_map_range _ _ _ _ hj]
        exact List.mem_map.mpr ⟨j, List.mem_range.mpr hj, rfl⟩
      · rw [BitVec.getLsbD_and, BitVec.getLsbD_not, ha, hh]
        simpa using h32

end Sys2Proof.Laws
end

