-- ==== Sys2Proof/Laws/RegRows.lean ====
section
/-! SUPPORT. What the rows that act on their group's registers alone come to, from issue to release. -/

namespace Sys2Proof.Laws

open Machine Safety

/-- A group's registers at the start of an instruction's effect are those it had. -/
theorem issued_regs (s : State) (i : Instr) (is : Iss) :
    let x := s.group is.g
    let y := (issued s i is).group is.g
    y.v = x.v ∧ y.s = x.s ∧ y.p = x.p ∧ y.j = x.j ∧ y.flags = x.flags ∧ y.lanes = x.lanes := by
  rw [issued_group]
  exact ⟨rfl, rfl, rfl, rfl, rfl, rfl⟩

theorem vcell_congr {x y : Group} (h : y.v = x.v) (n l : Nat) : vcell y n l = vcell x n l := by
  unfold vcell Group.vrow
  rw [h]

theorem sreg_congr {x y : Group} (h : y.s = x.s) (n : Nat) : y.sreg n = x.sreg n := by
  unfold Group.sreg
  rw [h]

theorem pred_congr {x y : Group} (h : y.p = x.p) (n : Nat) : y.pred n = x.pred n := by
  unfold Group.pred
  rw [h]

@[simp] theorem vcell_advance (g : Group) (m : Mask) (a len n l : Nat) : vcell (g.advance m a len) n l = vcell g n l := rfl
@[simp] theorem sreg_advance (g : Group) (m : Mask) (a len n : Nat) : (g.advance m a len).sreg n = g.sreg n := rfl
@[simp] theorem pred_advance (g : Group) (m : Mask) (a len n : Nat) : (g.advance m a len).pred n = g.pred n := rfl

theorem run_congr {x y : Group} (hv : y.v = x.v) (hs : y.s = x.s) (r : Reg) : y.run r = x.run r := by
  unfold Group.run
  congr 1
  funext j
  unfold Group.regRow Group.vrow Group.sreg
  rw [hv, hs]

theorem src_congr {x y : Group} (hv : y.v = x.v) (hs : y.s = x.s) (c : Src) (n : Nat) : y.src c n = x.src c n := by
  unfold Group.src
  cases c with
  | reg r =>
    simp only
    rw [run_congr hv hs, sreg_congr hs]
  | imm i => rfl
  | lit l => rfl

theorem rand_congr {x y : Group} (hv : y.v = x.v) (hs : y.s = x.s) (f : Full) : y.rand f = x.rand f := by
  unfold Group.rand
  cases f.rand with
  | none => rfl
  | some r => exact run_congr hv hs _

theorem srcs_congr {x y : Group} (hv : y.v = x.v) (hs : y.s = x.s) (f : Full) : y.srcs f = x.srcs f := by
  unfold Group.srcs
  rw [run_congr hv hs, src_congr hv hs, run_congr hv hs, rand_congr hv hs]

/-- What release leaves: everything but lanes. -/
theorem released_regs {x y : Group} (h : Released x y) : y.v = x.v ∧ y.s = x.s ∧ y.p = x.p ∧ y.j = x.j ∧ y.flags = x.flags := by
  rw [h.1]
  exact ⟨rfl, rfl, rfl, rfl, rfl⟩

/-- The lanes of an instruction that only moves them on. -/
theorem released_advanced {s : State} {i : Instr} {is : Iss} (h : Ready s i is) {x y : Group} (hx : x.lanes = (s.group is.g).lanes)
    (hr : Released (x.advance is.at_ is.a is.len) y) : Advanced (s.group is.g) y is := by
  have hl : ∀ l, x.lane l = (s.group is.g).lane l := fun l => by unfold Group.lane; rw [hx]
  have hat : ∀ l, is.at_.getLsbD l = true → l < x.lanes.length ∧ (x.lane l).x = false ∧ (x.lane l).p = false ∧ (x.lane l).pc = is.a := by
    intro l hb
    rw [h.here, ← h.isGroup, lanesAt_iff] at hb
    rw [hl, hx]
    exact hb.2
  refine ⟨fun l _ hb => ?_, fun l _ hb hp => ?_⟩
  · have e : (x.advance is.at_ is.a is.len).lane l = { (s.group is.g).lane l with pc := is.a + is.len } := by
      rw [lane_advance, if_pos ⟨hb, (hat l hb).2.1, (hat l hb).2.2.1, (hat l hb).2.2.2, (hat l hb).1⟩, hl]
    rcases hr.2.2 l with e2 | ⟨p, _, _⟩
    · rw [e2, e]
    · rw [e] at p
      have := (hat l hb).2.2.1
      rw [hl] at this
      simp only at p
      rw [this] at p
      exact absurd p (by simp)
  · have e : (x.advance is.at_ is.a is.len).lane l = (s.group is.g).lane l := by
      rw [lane_advance, if_neg (by simp [hb]), hl]
    rcases hr.2.2 l with e2 | ⟨p, _, _⟩
    · rw [e2, e]
    · rw [e, hp] at p
      exact absurd p (by simp)

/-- Where a group stands, over an effect on its registers and release. -/
theorem released_place {s : State} {i : Instr} {is : Iss} {v sr b fl p j} {y : Group}
    (hr : Released ({ (issued s i is).group is.g with v := v, s := sr, vbad := b, flags := fl, p := p, j := j }.advance is.at_ is.a is.len) y) :
    PlaceKept (s.group is.g) y := by
  have e := hr.1
  rw [issued_group] at e
  rw [e]
  constructor <;> rfl

/-- The element-wise rows: what `ElementWise` says follows from their meaning being one `elementwise` effect. -/
theorem elementwise_issue {i : Instr} {f : Full} {w : Nat} {op : El → Nat × Flags}
    (h : ∀ s, exec i s = issue i (regBody (elementwise f w op)) s) : ElementWise i f w op := by
  intro s is hr ha hw
  simp only [Settled]
  have key := regBody_ready (i := i) (elementwise f w op) hr ha hw (by
    intro x
    unfold elementwise
    obtain ⟨v, s', b, fl, e, hb⟩ := lanewise_fields x f.d is.act is.help (fun j l => buildElems w fun k =>
      op { b := elem (cell (x.srcs f).b j l) w k, c := elemC f w (cell (x.srcs f).c j l) k, d := elem (cell (x.srcs f).d j l) w k,
           r := elem (cell (x.srcs f).r j l) w k })
    exact ⟨by rw [e], by rw [e], by rw [e], by rw [e], by rw [e]; exact hb⟩)
  refine ⟨regBody (elementwise f w op) is (issued s i is), ?_, ?_⟩
  · rw [h, issue_ready _ hr, if_neg ha]
  · simp only at key ⊢
    obtain ⟨hrel, hgroups, hmach, hmem⟩ := key
    have hregs := issued_regs s i is
    simp only at hregs
    obtain ⟨rv, rs, rp, rj, rfl', rl⟩ := hregs
    have hres := lanewise_result ((issued s i is).group is.g) f.d is.act is.help (fun j l => buildElems w fun k =>
      op (elAt (s.group is.g) f w j l k))
    have hel : elementwise f w op is ((issued s i is).group is.g) = ((issued s i is).group is.g).lanewise f.d is.act is.help
        (fun j l => buildElems w fun k => op (elAt (s.group is.g) f w j l k)) := by
      unfold elementwise elAt
      simp only
      rw [srcs_congr rv rs]
    obtain ⟨v, s', b, fl, e, _⟩ := lanewise_fields ((issued s i is).group is.g) f.d is.act is.help (fun j l => buildElems w fun k =>
      op (elAt (s.group is.g) f w j l k))
    rw [hel] at hrel
    have hrr := released_regs hrel
    refine ⟨?_, ?_, ?_, ?_, ?_, ?_, hgroups, hmach, hmem⟩
    · refine ⟨fun n l hl => ?_, fun n => ?_⟩
      · rw [vcell_congr hrr.1, vcell_advance, hres.1.1 n l hl, vcell_congr rv]
      · rw [sreg_congr hrr.2.1, sreg_advance, hres.1.2 n, sreg_congr rs]
    · intro b hb
      have := hres.2 b hb
      rw [rfl'] at this
      rw [hrr.2.2.2.2]
      exact this
    · intro n
      rw [pred_congr hrr.2.2.1, pred_advance, e]
      exact pred_congr rp n
    · intro n
      rw [hrr.2.2.2.1, e]
      show getAt 0 ((issued s i is).group is.g).j n = _
      rw [rj]
    · rw [e] at hrel
      exact released_advanced hr (by exact rl) hrel
    · rw [e] at hrel
      exact released_place (p := ((issued s i is).group is.g).p) (j := ((issued s i is).group is.g).j) hrel

theorem elem_lt (x : Word) (w k : Nat) : elem x w k < 2 ^ w := Nat.mod_lt _ (Nat.two_pow_pos w)

theorem elemC_lt (f : Full) (w : Nat) (c : Word) (k : Nat) : elemC f w c k < 2 ^ w := by
  unfold elemC
  split
  · exact Nat.mod_lt _ (Nat.two_pow_pos w)
  · exact elem_lt c w k

/-- Element operations that agree on elements of w bits say the same of an instruction. -/
theorem elementwise_congr {i : Instr} {f : Full} {w : Nat} {op op' : El → Nat × Flags}
    (h : ∀ e : El, e.b < 2 ^ w → e.c < 2 ^ w → e.d < 2 ^ w → e.r < 2 ^ w → op e = op' e) (hi : ElementWise i f w op) :
    ElementWise i f w op' := by
  have e : ∀ s : State, ∀ is : Iss, ∀ j l : Nat, (buildElems w fun k => op (elAt (s.group is.g) f w j l k)) =
      buildElems w fun k => op' (elAt (s.group is.g) f w j l k) := by
    intro s is j l
    congr 1
    funext k
    exact h _ (elem_lt _ _ _) (elemC_lt _ _ _ _) (elem_lt _ _ _) (elem_lt _ _ _)
  unfold ElementWise at hi ⊢
  simpa only [e] using hi

end Sys2Proof.Laws
end

