-- ==== Sys2Proof/Laws/Accesses.lean ====
section
/-! SUPPORT. What the checks of an access, a store and a release can change (R226 to R228, R312, R316). -/

namespace Sys2Proof.Laws

open Machine Safety

/-- Only cached translations and the count of free choices differ. -/
def TlbOnly (s t : State) : Prop :=
  t = { s with ctxs := t.ctxs, teams := t.teams, clusters := t.clusters, fresh := t.fresh } ∧
    (∀ c, ∃ l, t.ctx c = { s.ctx c with tlb := l }) ∧ ∀ k, ∃ l, t.team k = { s.team k with tlb := l }

theorem TlbOnly.refl (s : State) : TlbOnly s s := ⟨rfl, fun c => ⟨(s.ctx c).tlb, rfl⟩, fun k => ⟨(s.team k).tlb, rfl⟩⟩

theorem TlbOnly.trans {s t u : State} (h1 : TlbOnly s t) (h2 : TlbOnly t u) : TlbOnly s u := by
  refine ⟨?_, fun c => ?_, fun k => ?_⟩
  · have e1 := h1.1
    have e2 := h2.1
    rw [e1] at e2
    simpa using e2
  · obtain ⟨l1, e1⟩ := h1.2.1 c
    obtain ⟨l2, e2⟩ := h2.2.1 c
    exact ⟨l2, by rw [e2, e1]⟩
  · obtain ⟨l1, e1⟩ := h1.2.2 k
    obtain ⟨l2, e2⟩ := h2.2.2 k
    exact ⟨l2, by rw [e2, e1]⟩

theorem tlbOnly_fresh (s : State) (n : Nat) : TlbOnly s { s with fresh := n } :=
  ⟨rfl, fun c => ⟨(s.ctx c).tlb, rfl⟩, fun k => ⟨(s.team k).tlb, rfl⟩⟩

theorem tlbOnly_setCtx (s : State) (c : Nat) (l : List Xlat) : TlbOnly s (s.setCtx c { s.ctx c with tlb := l }) := by
  refine ⟨rfl, fun d => ?_, fun k => ⟨(s.team k).tlb, rfl⟩⟩
  by_cases h : d = c
  · subst h
    exact ⟨l, by rw [ctx_setCtx_same]⟩
  · exact ⟨(s.ctx d).tlb, by rw [ctx_setCtx_other _ _ _ _ h]⟩

theorem tlbOnly_setTeam (s : State) (t : Nat) (l : List Xlat) : TlbOnly s (s.setTeam t { s.team t with tlb := l }) := by
  refine ⟨rfl, fun c => ⟨(s.ctx c).tlb, rfl⟩, fun k => ?_⟩
  by_cases h : k = t
  · subst h
    exact ⟨l, by rw [team_setTeam_same]⟩
  · exact ⟨(s.team k).tlb, by rw [team_setTeam_other _ _ _ _ h]⟩

theorem tlbOnly_setCluster (s : State) (k : Nat) (x : Cluster) : TlbOnly s (s.setCluster k x) :=
  ⟨rfl, fun c => ⟨(s.ctx c).tlb, rfl⟩, fun k => ⟨(s.team k).tlb, rfl⟩⟩

theorem tlbOnly_ite {s t u : State} (c : Prop) [Decidable c] (h1 : TlbOnly s t) (h2 : TlbOnly s u) : TlbOnly s (if c then t else u) := by
  split
  · exact h1
  · exact h2

/-- Keeping a translation changes what is cached alone. -/
theorem cacheFor_tlbOnly (s : State) (c : Nat) (team : Option Nat) (e : Xlat) (ws : List WalkEnt) : TlbOnly s (cacheFor s c team e ws) := by
  unfold cacheFor
  cases team with
  | none => exact tlbOnly_ite _ (.refl s) (tlbOnly_setCtx s c _)
  | some t =>
    simp only
    have h1 := tlbOnly_ite (fillPair s.fresh (s.team t).tlb e = (s.team t).tlb) (.refl s) (tlbOnly_setTeam s t (fillPair s.fresh (s.team t).tlb e))
    refine tlbOnly_ite _ ?_ ?_
    · exact h1.trans (tlbOnly_ite _ (.refl _) (tlbOnly_setCluster _ _ _))
    · exact (h1.trans (tlbOnly_ite _ (.refl _) (tlbOnly_setCluster _ _ _))).trans (tlbOnly_fresh _ _)

theorem translateAs_tlbOnly (s : State) (ask : Option Bool) (c : Nat) (team : Option Nat) (va : Nat) : TlbOnly s (translateAs s ask c team va).1 := by
  unfold translateAs
  simp only
  split
  · exact (tlbOnly_fresh s _).trans (cacheFor_tlbOnly _ c team _ _)
  · split
    · exact (tlbOnly_fresh s _).trans (cacheFor_tlbOnly _ c team _ _)
    · exact tlbOnly_fresh s _

theorem translatePage_tlbOnly (s : State) (c : Nat) (team : Option Nat) (va : Nat) : TlbOnly s (translatePage s c team va).1 :=
  translateAs_tlbOnly s none c team va

theorem checkPages_tlbOnly (a : Access) : ∀ (fuel : Nat) (s : State) (va n : Nat), TlbOnly s (checkPages s a fuel va n).1
  | 0, s, _, _ => .refl s
  | fuel + 1, s, va, n => by
    unfold checkPages
    split
    · exact .refl s
    split
    · exact .refl s
    have h := translatePage_tlbOnly s a.ctx a.team va
    simp only
    split
    · rename_i s' k heq
      rw [heq] at h
      exact h
    · rename_i s' e heq
      rw [heq] at h
      split
      · exact h
      have h2 := checkPages_tlbOnly a fuel s' (va + min n (4096 - va % 4096)) (n - min n (4096 - va % 4096))
      split
      · rename_i heq2
        rw [heq2] at h2
        exact h.trans h2
      · exact h.trans h2

/-- The checks of an access change nothing but cached translations. -/
theorem checkAccess_tlbOnly (s : State) (a : Access) : TlbOnly s (checkAccess s a).1 := by
  unfold checkAccess
  simp only
  split
  · exact .refl s
  split
  · split
    · rename_i heq
      obtain ⟨rfl, _⟩ := Prod.mk.inj heq
      split <;> exact .refl _
    · exact .refl s
  · have h := checkPages_tlbOnly a (a.n / 4096 + 2) s a.va a.n
    split
    · rename_i heq
      rw [heq] at h
      split <;> exact h
    · exact h

theorem checkLanes_tlbOnly (t : Nat) (need : Need) (n : Nat) : ∀ (l : List (Nat × Nat)) (s : State), TlbOnly s (checkLanes s t need n l).1
  | [], s => .refl s
  | (k, va) :: l, s => by
    unfold checkLanes
    exact (checkAccess_tlbOnly s _).trans (checkLanes_tlbOnly t need n l _)

theorem checked_tlbOnly (s : State) (g : Nat) (e : Entry) (need : Need) (n : Nat) (l : List (Nat × Nat)) :
    TlbOnly s (checked s g e need n l).1 := by
  unfold checked
  split
  · exact .refl s
  · simp only
    split
    · exact checkLanes_tlbOnly _ _ _ _ _
    · split <;> exact checkLanes_tlbOnly _ _ _ _ _

theorem engineChecks_tlbOnly (t : Nat) (need : Need) : ∀ (l : List (Nat × Nat)) (k : Nat) (s : State), TlbOnly s (engineChecks s t need k l).1
  | [], _, s => .refl s
  | (va, n) :: l, k, s => by
    unfold engineChecks
    have h := (checkAccess_tlbOnly s (teamAccess s t need va n)).trans (engineChecks_tlbOnly t need l (k + 1) _)
    simp only
    split <;> exact h

section tlbFields
variable {s t : State}
theorem TlbOnly.group (h : TlbOnly s t) (g : Nat) : t.group g = s.group g := by rw [h.1]; rfl
theorem TlbOnly.spad (h : TlbOnly s t) (n : Nat) : (t.team n).spad = (s.team n).spad := by obtain ⟨l, e⟩ := h.2.2 n; rw [e]
theorem TlbOnly.tile (h : TlbOnly s t) (n : Nat) : (t.team n).tile = (s.team n).tile := by obtain ⟨l, e⟩ := h.2.2 n; rw [e]
theorem TlbOnly.core (h : TlbOnly s t) (n : Nat) : t.core n = s.core n := by rw [h.1]; rfl
theorem TlbOnly.mem (h : TlbOnly s t) : t.mem = s.mem := by rw [h.1]
theorem TlbOnly.writes (h : TlbOnly s t) : t.writes = s.writes := by rw [h.1]
theorem TlbOnly.dev (h : TlbOnly s t) : t.dev = s.dev := by rw [h.1]
end tlbFields

-- Stores ----------------------------------------------------------------------------------------------------------------------------

/-- Only physical memory and the record of writes differ. -/
def WritesOnly (s t : State) : Prop := t = { s with mem := t.mem, writes := t.writes }

theorem WritesOnly.refl (s : State) : WritesOnly s s := rfl

theorem WritesOnly.trans {s t u : State} (h1 : WritesOnly s t) (h2 : WritesOnly t u) : WritesOnly s u := by
  unfold WritesOnly at *
  rw [h1] at h2
  simpa using h2

theorem writeWord_only (s : State) (v : MemView) (k : Writer) (sync : Option (Scope × List Nat)) (extra : List Nat) (va word : Nat)
    (val : BitVec 32) : WritesOnly s (writeWord s v k sync extra va word val).1 := rfl

theorem foldl_writesOnly {α : Type} (f : State × MemView → α → State × MemView) (hf : ∀ x a, WritesOnly x.1 (f x a).1) :
    ∀ (l : List α) (x : State × MemView), WritesOnly x.1 (l.foldl f x).1
  | [], x => .refl x.1
  | a :: l, x => (hf x a).trans (foldl_writesOnly f hf l (f x a))

theorem storeBytes_only (s : State) (v : MemView) (k : Writer) (sync : Option (Scope × List Nat)) (va pa : Nat) (bytes : List Byte) :
    WritesOnly s (storeBytes s v k sync va pa bytes).1 := by
  unfold storeBytes
  split
  · exact .refl s
  · exact foldl_writesOnly _ (fun _ _ => writeWord_only _ _ _ _ _ _ _ _) _ (s, v)

theorem atomicWrite_only (s : State) (v : MemView) (p : Party) (ctx : Nat) (sc : Scope) (va pa : Nat) (bytes : List Byte) :
    WritesOnly s (atomicWrite s v p ctx sc va pa bytes).1 :=
  foldl_writesOnly _ (fun _ _ => writeWord_only _ _ _ _ _ _ _ _) _ (s, v)

theorem writePieces_only (k : Writer) (sync : Option (Scope × List Nat)) : ∀ (l : List Piece) (s : State) (v : MemView) (bytes : List Byte),
    WritesOnly s (writePieces s v k sync l bytes).1
  | [], s, _, _ => .refl s
  | p :: l, s, v, bytes => by
    unfold writePieces
    exact (storeBytes_only s v k sync p.va p.pa _).trans (writePieces_only k sync l _ _ _)

theorem length_toBytes (n x : Nat) : (toBytes n x).length = n := by simp [toBytes]

/-- A write of a word changes that word's bytes alone, and is recorded. -/
theorem writeWord_mem {s : State} (h : Memory.wf s.mem = true) (v : MemView) (k : Writer) (sync : Option (Scope × List Nat)) (extra : List Nat)
    (va word : Nat) (val : BitVec 32) :
    Memory.wf (writeWord s v k sync extra va word val).1.mem = true ∧
    ∀ a, ¬ (word ≤ a ∧ a < word + 4) → memGet (writeWord s v k sync extra va word val).1.mem a = memGet s.mem a := by
  refine ⟨memPut_wf _ _ _ h, fun a ha => ?_⟩
  refine memGet_memWrite_other _ _ _ _ h ?_
  rw [length_toBytes]
  omega

theorem storeBytes_mem {s : State} (h : Memory.wf s.mem = true) (v : MemView) (k : Writer) (sync : Option (Scope × List Nat)) (va pa : Nat)
    (bytes : List Byte) :
    Memory.wf (storeBytes s v k sync va pa bytes).1.mem = true ∧
    ∀ a, ¬ (pa / 4 * 4 ≤ a ∧ a < (pa + bytes.length + 3) / 4 * 4) → memGet (storeBytes s v k sync va pa bytes).1.mem a = memGet s.mem a := by
  unfold storeBytes
  split
  · exact ⟨h, fun _ _ => rfl⟩
  · rename_i hb
    have hpos : 0 < bytes.length := by
      cases bytes with
      | nil => simp at hb
      | cons b l => simp
    have key : ∀ (l : List Nat) (x : State × MemView), (∀ i ∈ l, i ≤ (pa + bytes.length - 1) / 4 - pa / 4) → Memory.wf x.1.mem = true →
        Memory.wf (l.foldl (fun (s, v) i =>
          let word := (pa / 4 + i) * 4
          writeWord s v k sync [] (va + word - pa) word (wordAfter s v k pa bytes word)) x).1.mem = true ∧
        ∀ a, ¬ (pa / 4 * 4 ≤ a ∧ a < (pa + bytes.length + 3) / 4 * 4) →
          memGet (l.foldl (fun (s, v) i =>
            let word := (pa / 4 + i) * 4
            writeWord s v k sync [] (va + word - pa) word (wordAfter s v k pa bytes word)) x).1.mem a = memGet x.1.mem a := by
      intro l
      induction l with
      | nil => exact fun x _ hx => ⟨hx, fun _ _ => rfl⟩
      | cons i l ih =>
        intro x hl hx
        have hw := writeWord_mem hx x.2 k sync [] (va + (pa / 4 + i) * 4 - pa) ((pa / 4 + i) * 4) (wordAfter x.1 x.2 k pa bytes ((pa / 4 + i) * 4))
        have hi := hl i (List.mem_cons_self ..)
        have := ih _ (fun j hj => hl j (List.mem_cons_of_mem _ hj)) hw.1
        refine ⟨this.1, fun a ha => ?_⟩
        rw [List.foldl_cons, this.2 a ha]
        exact hw.2 a (by omega)
    exact key _ (s, v) (fun i hi => by simp only [List.mem_range] at hi; omega) h

theorem atomicWrite_mem {s : State} (h : Memory.wf s.mem = true) (v : MemView) (p : Party) (ctx : Nat) (sc : Scope) (va pa : Nat)
    (bytes : List Byte) :
    Memory.wf (atomicWrite s v p ctx sc va pa bytes).1.mem = true ∧
    ∀ a, ¬ (pa ≤ a ∧ a < pa + bytes.length) → memGet (atomicWrite s v p ctx sc va pa bytes).1.mem a = memGet s.mem a := by
  unfold atomicWrite
  have key : ∀ (l : List Nat) (x : State × MemView), (∀ i ∈ l, i < bytes.length / 4) → Memory.wf x.1.mem = true →
      Memory.wf (l.foldl (fun (s, v) i => writeWord s v ⟨p, 3, [], ctx⟩ (some (sc, v.rels)) (atomicBefore s (pa + 4 * i)) (va + 4 * i) (pa + 4 * i)
        (BitVec.ofNat 32 (ofBytes ((bytes.drop (4 * i)).take 4)))) x).1.mem = true ∧
      ∀ a, ¬ (pa ≤ a ∧ a < pa + bytes.length) →
        memGet (l.foldl (fun (s, v) i => writeWord s v ⟨p, 3, [], ctx⟩ (some (sc, v.rels)) (atomicBefore s (pa + 4 * i)) (va + 4 * i) (pa + 4 * i)
          (BitVec.ofNat 32 (ofBytes ((bytes.drop (4 * i)).take 4)))) x).1.mem a = memGet x.1.mem a := by
    intro l
    induction l with
    | nil => exact fun x _ hx => ⟨hx, fun _ _ => rfl⟩
    | cons i l ih =>
      intro x hl hx
      have hw := writeWord_mem hx x.2 ⟨p, 3, [], ctx⟩ (some (sc, x.2.rels)) (atomicBefore x.1 (pa + 4 * i)) (va + 4 * i) (pa + 4 * i)
        (BitVec.ofNat 32 (ofBytes ((bytes.drop (4 * i)).take 4)))
      have hi := hl i (List.mem_cons_self ..)
      have := ih _ (fun j hj => hl j (List.mem_cons_of_mem _ hj)) hw.1
      refine ⟨this.1, fun a ha => ?_⟩
      rw [List.foldl_cons, this.2 a ha]
      exact hw.2 a (by omega)
  exact key _ (s, v) (fun i hi => by simpa using hi) h

theorem writePieces_mem (k : Writer) (sync : Option (Scope × List Nat)) : ∀ (l : List Piece) (s : State) (v : MemView) (bytes : List Byte),
    Memory.wf s.mem = true →
    Memory.wf (writePieces s v k sync l bytes).1.mem = true ∧
    ∀ a, (∀ p ∈ l, ¬ (p.pa / 4 * 4 ≤ a ∧ a < (p.pa + p.len + 3) / 4 * 4)) → memGet (writePieces s v k sync l bytes).1.mem a = memGet s.mem a
  | [], s, _, _, h => ⟨h, fun _ _ => rfl⟩
  | p :: l, s, v, bytes, h => by
    unfold writePieces
    have h1 := storeBytes_mem h v k sync p.va p.pa (bytes.take p.len)
    have h2 := writePieces_mem k sync l (storeBytes s v k sync p.va p.pa (bytes.take p.len)).1
      (storeBytes s v k sync p.va p.pa (bytes.take p.len)).2 (bytes.drop p.len) h1.1
    refine ⟨h2.1, fun a ha => ?_⟩
    simp only
    rw [h2.2 a fun q hq => ha q (List.mem_cons_of_mem _ hq)]
    refine h1.2 a ?_
    have := ha p (List.mem_cons_self ..)
    simp only [List.length_take]
    omega

-- Releases and acquires -----------------------------------------------------------------------------------------------------------------

/-- A release adds one release and names it in its party's view. -/
theorem release_only (s : State) (p : Party) (v : MemView) (sc : Scope) (a : Acts) :
    ∃ r, (release s p v sc a).1 = { s with rels := s.rels ++ [r] } ∧ r.party = p ∧ r.scope = sc ∧ r.acts = a ∧
      (release s p v sc a).2.1 = { v with rels := v.rels ++ [s.rels.length] } ∧ (release s p v sc a).2.2 = s.rels.length :=
  ⟨_, rfl, rfl, rfl, rfl, rfl, rfl⟩

end Sys2Proof.Laws
end

