-- ==== Sys2Proof/Laws/Logged.lean ====
section
/-! SUPPORT. Logged instructions from issue to the end of their entry (R231, R244, R359). -/

namespace Sys2Proof.Laws

open Machine Safety

/-- A logged instruction issues only in a group that waits for nothing. -/
theorem ready_idle {s : State} {i : Instr} {is : Iss} (h : Ready s i is) (hp : passesFault (opOf i) = false) :
    (s.group is.g).wait = .none ∧ (s.group is.g).log = [] := by
  have hf := h.free
  rw [h.isGroup]
  unfold mayIssue at hf
  cases hw : (s.group s.cur).wait with
  | none =>
    rw [hw] at hf
    exact ⟨rfl, by simpa using hf⟩
  | fault n => rw [hw, hp] at hf; simp at hf
  | _ => rw [hw] at hf; simp at hf

theorem setAt_getAt {α : Type} (d : α) : ∀ (l : List α) (n : Nat), n < l.length → setAt d l n (getAt d l n) = l
  | [], _, h => absurd h (by simp)
  | _ :: _, 0, _ => rfl
  | a :: l, n + 1, h => by simp [setAt, getAt, setAt_getAt d l n (by simpa using h)]

theorem setGroup_group (s : State) (g : Nat) (h : g < s.groups.length) : s.setGroup g (s.group g) = s := by
  unfold State.setGroup State.group
  rw [setAt_getAt _ _ _ h]

theorem completeHead_group {s : State} {g : Nat} {e : Entry} (h : (s.group g).log = [e]) :
    (completeHead s g).group g = { s.group g with log := [], wait := .none } := by
  unfold completeHead
  simp [h]

theorem entered_group (s : State) (i : Instr) (f : Full) (is : Iss) :
    (entered s i f is).group is.g =
      { ((((s.group is.g).lookahead i is.a is.len).unbuffer is.a is.len).advance is.at_ is.a is.len) with
        skipBrk := (s.group is.g).skipBrk.filter (· != is.a), log := [entryOf s i f is] } := by
  unfold entered
  simp only [group_setGroup_same]
  rw [issued_group]
  rfl

/-- A logged instruction of a ready group performs its entry alone. -/
theorem issueLogged_entered {s : State} {i : Instr} {is : Iss} (f : Full) (h : Ready s i is) (hi : passesFault (opOf i) = false) :
    issueLogged i f is (issued s i is) = post (runEntries (entered s i f is) is.g) is.g := by
  have hlog : ((issued s i is).group is.g).log = [] := by rw [issued_group]; exact (ready_idle h hi).2
  have hr := issued_regs s i is
  simp only at hr
  have hent : entryOf (issued s i is) i f is = entryOf s i f is := by
    unfold entryOf
    simp only [run_congr hr.1 hr.2.1, src_congr hr.1 hr.2.1, rand_congr hr.1 hr.2.1]
  have hput : (issued s i is).setGroup is.g { (((issued s i is).group is.g).advance is.at_ is.a is.len) with
      log := (((issued s i is).group is.g).advance is.at_ is.a is.len).log ++ [{ entryOf (issued s i is) i f is with late := !((issued s i is).group is.g).log.isEmpty }] } = entered s i f is := by
    unfold entered
    rw [advance_log, hlog, hent]
    rfl
  have hgoal : issueLogged i f is (issued s i is) = post (if (((issued s i is).group is.g).advance is.at_ is.a is.len).log.isEmpty then
      runEntries ((issued s i is).setGroup is.g { (((issued s i is).group is.g).advance is.at_ is.a is.len) with
        log := (((issued s i is).group is.g).advance is.at_ is.a is.len).log ++ [{ entryOf (issued s i is) i f is with late := !((issued s i is).group is.g).log.isEmpty }] }) is.g else
      (issued s i is).setGroup is.g { (((issued s i is).group is.g).advance is.at_ is.a is.len) with
        log := (((issued s i is).group is.g).advance is.at_ is.a is.len).log ++ [{ entryOf (issued s i is) i f is with late := !((issued s i is).group is.g).log.isEmpty }] }) is.g := rfl
  rw [hgoal, hput, advance_log, hlog]
  rfl

/-- Performing a group's only entry to its end leaves it with none. -/
theorem runEntries_done {s t : State} {g : Nat} {e e' : Entry} (hs : (s.group g).log = [e]) (hp : performEntry g e s = .done t)
    (hl : (t.group g).log = [e']) (hg : g < t.groups.length) : runEntries s g = completeHead t g := by
  unfold runEntries
  show runLog g 9 s = _
  unfold runLog
  simp only [hs, hp]
  unfold runLog
  have hc := completeHead_group hl
  simp only [hc]
  have hcg : g < (completeHead t g).groups.length := by
    unfold completeHead
    simp only [setGroup_groups]
    rw [length_setAt _ _ _ _ hg]
    exact hg
  have := setGroup_group (completeHead t g) g hcg
  rw [hc] at this
  exact this

/-- Performing the one entry of a logged instruction to its end ends the instruction. -/
theorem issueLogged_done {s : State} {i : Instr} {f : Full} {is : Iss} {t : State} {e : Entry} (h : Ready s i is)
    (hi : passesFault (opOf i) = false) (hp : performEntry is.g (entryOf s i f is) (entered s i f is) = .done t)
    (hl : (t.group is.g).log = [e]) (hg : is.g < t.groups.length) :
    issueLogged i f is (issued s i is) = finished t is.g := by
  rw [issueLogged_entered f h hi, runEntries_done (by rw [entered_group]) hp hl hg]
  rfl

/-- What the end of an entry leaves. -/
theorem finished_frame {s : State} {g : Nat} {e : Entry} (hl : (s.group g).log = [e]) (hlive : (s.group g).live ≠ 0)
    (hj : (s.group g).badJoin = none) (hw : Memory.wf s.mem = true) (hg : g < s.groups.length) :
    Released { s.group g with log := [], wait := .none } ((finished s g).group g) ∧ GroupsKept s (finished s g) g ∧
    (∃ m pl gs, finished s g = { s with mem := m, poison := pl, groups := gs } ∧ (∀ n ∈ pl, n ∈ s.poison) ∧
      ∀ n ∈ s.poison, n ∈ pl ∨ ∀ a, 32 * n ≤ a → a < 32 * n + 32 → BackByte s g a) ∧ Memory.wf (finished s g).mem = true ∧
    ∀ a, ¬ BackByte s g a → memGet (finished s g).mem a = memGet s.mem a := by
  have hc := completeHead_group hl
  have hlv : ((completeHead s g).group g).live ≠ 0 := by rw [hc]; exact hlive
  have hp : finished s g = backRows ((completeHead s g).setGroup g ((completeHead s g).group g).release) g :=
    post_live hlv (by rw [hc]; exact badJoin_mono (x := s.group g) rfl (fun _ h => h) hj)
  have hrel := release_released ((completeHead s g).group g)
  obtain ⟨m, pl, hm, hp1, hp2⟩ := backRows_fields ((completeHead s g).setGroup g ((completeHead s g).group g).release) g
  have hcs : ∃ gs, completeHead s g = { s with groups := gs } := ⟨_, rfl⟩
  obtain ⟨gs, hcs⟩ := hcs
  have hback : ∀ a, BackByte ((completeHead s g).setGroup g ((completeHead s g).group g).release) g a → BackByte s g a := by
    intro a hbk
    unfold BackByte at hbk ⊢
    simp only [group_setGroup_same, setGroup_dev] at hbk
    rw [hrel.1] at hbk
    simp only [hc] at hbk
    rw [hcs] at hbk
    exact hbk
  refine ⟨?_, ⟨?_, fun k hk => ?_⟩, ?_, ?_⟩
  · rw [hp, hm]
    show Released _ (((completeHead s g).setGroup g _).group g)
    rw [group_setGroup_same]
    rw [hc] at hrel ⊢
    exact hrel
  · rw [hp, hm]
    show (((completeHead s g).setGroup g _).groups).length = _
    unfold completeHead
    simp only [setGroup_groups]
    rw [length_setAt _ _ _ _ (by rw [length_setAt _ _ _ _ hg]; exact hg), length_setAt _ _ _ _ hg]
  · rw [hp, hm]
    show ((completeHead s g).setGroup g _).group k = _
    rw [group_setGroup_other _ _ _ _ hk]
    unfold completeHead
    simp only
    rw [group_setGroup_other _ _ _ _ hk]
  · rw [hp, hm, hcs]
    exact ⟨m, pl, _, rfl, fun n hn => by have := hp1 n hn; rw [hcs] at this; exact this, fun n hn =>
      (hp2 n (by rw [hcs]; exact hn)).imp id fun h a ha hb => hback a (h a ha hb)⟩
  · have hwm : Memory.wf ((completeHead s g).setGroup g ((completeHead s g).group g).release).mem = true := by
      rw [hcs]
      exact hw
    have hb := backRows_mem g hwm
    rw [hp]
    refine ⟨hb.1, fun a ha => ?_⟩
    rw [hb.2 a fun h => ha (hback a h), hcs]
    rfl

/-- Where the group of an entered instruction stands. -/
theorem entered_live {s : State} {i : Instr} {f : Full} {is : Iss} (h : Ready s i is) (ha : is.act ≠ 0) :
    ((entered s i f is).group is.g).live ≠ 0 := by
  have e : ((entered s i f is).group is.g).live = ((s.group is.g).advance is.at_ is.a is.len).live := by
    rw [entered_group]
    rfl
  rw [e, live_advance, h.isGroup]
  exact ready_live h ha

theorem entered_length {s : State} {i : Instr} {f : Full} {is : Iss} (h : Ready s i is) : is.g < (entered s i f is).groups.length := by
  have hg : is.g < s.groups.length := by rw [h.isGroup]; exact h.exists_
  have hI := issued_groups s i is hg
  unfold entered
  simp only [setGroup_groups]
  rw [length_setAt _ _ _ _ (by rw [hI.1]; exact hg), hI.1]
  exact hg

/-- What entering leaves as it was. -/
theorem entered_kept {s : State} {i : Instr} {f : Full} {is : Iss} (h : Ready s i is) (hw : Memory.wf s.mem = true) :
    MachineKept s (entered s i f is) is.g ∧ GroupsKept s (entered s i f is) is.g ∧ Memory.wf (entered s i f is).mem = true ∧
    ∀ a, ¬ TraceByte s a → memGet (entered s i f is).mem a = memGet s.mem a := by
  have hg : is.g < s.groups.length := by rw [h.isGroup]; exact h.exists_
  have hI := issued_groups s i is hg
  have hF := issued_fields s i is
  simp only at hF
  obtain ⟨f1, f2, f4, f5, f6, f7, f8, f9, f10, f11, f12, f13, f14, f15, f16⟩ := hF
  have hP := issued_marks s i is
  have f3 : MarksKept s (entered s i f is) is.g := ⟨hP.1, fun n hn => (hP.2 n hn).imp id fun h a ha hb => .inl (h a ha hb)⟩
  have hM := issued_mem i is hw
  refine ⟨⟨f1, f2, f3, f4, f5, f6, ⟨issued_teams_length s i is, issued_team s i is⟩, issued_core s i is, f7, f8, f9, f10, f11, f12, f13,
    f14, f15, f16⟩, ⟨?_, fun k hk => ?_⟩, hM.1, hM.2⟩
  · unfold entered
    simp only [setGroup_groups]
    rw [length_setAt _ _ _ _ (by rw [hI.1]; exact hg), hI.1]
  · unfold entered
    simp only
    rw [group_setGroup_other _ _ _ _ hk]
    exact hI.2 k hk

end Sys2Proof.Laws
end

