-- ==== Sys2Proof/Laws/PerInstr.lean ====
section
/-! SUPPORT. Per instruction: the words an encoding has are as many as its LEN code says (Table 6.1); a device event has none. -/

namespace Sys2Proof.Laws.WordCount

open Machine

/-- The encoding's length is the one word 0 announces, and only a device event has no word. -/
def Statement (i : Instr) : Prop :=
  (∀ w rest, encode i = w :: rest → lenWords w = rest.length + 1) ∧ (encode i = [] ↔ view i = none)

theorem low_two (h : BitVec 30) (l : BitVec 2) : bitsOf (h ++ l) 0 2 = l := by
  unfold bitsOf
  apply BitVec.eq_of_getLsbD_eq
  intro i hi
  have h2 := BitVec.getLsbD_append (x := h) (y := l) (i := i)
  rw [if_pos hi] at h2
  rw [BitVec.getLsbD_extractLsb', Nat.zero_add]
  simpa [hi] using h2

theorem lenWords_append (h : BitVec 30) (l : BitVec 2) :
    lenWords (h ++ l) = match l.toNat with | 1 => 2 | 2 => 3 | _ => 1 := by
  unfold lenWords
  rw [low_two] <;> rfl

theorem word0 (op : Nat) (d b : Reg) (l : BitVec 2) :
    lenWords (encWord0 op d b l) = match l.toNat with | 1 => 2 | 2 => 3 | _ => 1 := lenWords_append _ l

theorem of_view (v : View) : (∀ w rest, encodeView v = w :: rest → lenWords w = rest.length + 1) ∧ encodeView v ≠ [] := by
  cases v with
  | s3 op f => exact ⟨fun w rest h => by cases h; exact lenWords_append _ _, by simp [encodeView]⟩
  | si op f => exact ⟨fun w rest h => by cases h; exact lenWords_append _ _, by simp [encodeView]⟩
  | sj op i => exact ⟨fun w rest h => by cases h; exact lenWords_append _ _, by simp [encodeView]⟩
  | s0 op => exact ⟨fun w rest h => by cases h; exact lenWords_append _ _, by simp [encodeView]⟩
  | fullU op f =>
    obtain ⟨d, b, imm, ctl⟩ := f
    cases imm <;> exact ⟨fun w rest h => (by cases h; exact word0 _ _ _ _), (by simp [encodeView])⟩
  | full op f =>
    obtain ⟨d, b, c, xm, ty, rnd, rand, ctl⟩ := f
    cases c <;> cases rand <;> exact ⟨fun w rest h => (by cases h; exact word0 _ _ _ _), (by simp [encodeView])⟩

theorem instr {i : Instr} {v : View} (h : view i = some v) : Statement i := by
  have hv := of_view v
  have e : encode i = encodeView v := by simp [encode, h]
  exact ⟨fun w rest hw => hv.1 w rest (e ▸ hw), (by rw [e, h]; simp [hv.2])⟩

theorem event {i : Instr} (h : view i = none) : Statement i := by
  have e : encode i = [] := by simp [encode, h]
  exact ⟨fun w rest hw => (by rw [e] at hw; cases hw), (by simp [e, h])⟩

theorem iaddShort (f : Short3) : Statement (.iaddShort f) := instr rfl
theorem iadd (f : Full) : Statement (.iadd f) := instr rfl
theorem isubShort (f : Short3) : Statement (.isubShort f) := instr rfl
theorem isub (f : Full) : Statement (.isub f) := instr rfl
theorem imul24 (f : Full) : Statement (.imul24 f) := instr rfl
theorem imul32 (f : Full) : Statement (.imul32 f) := instr rfl
theorem imulhi (f : Full) : Statement (.imulhi f) := instr rfl
theorem imad24 (f : Full) : Statement (.imad24 f) := instr rfl
theorem idiv (f : Full) : Statement (.idiv f) := instr rfl
theorem imin (f : Full) : Statement (.imin f) := instr rfl
theorem imax (f : Full) : Statement (.imax f) := instr rfl
theorem lea (f : Full) : Statement (.lea f) := instr rfl
theorem andShort (f : Short3) : Statement (.andShort f) := instr rfl
theorem and (f : Full) : Statement (.and f) := instr rfl
theorem orShort (f : Short3) : Statement (.orShort f) := instr rfl
theorem or (f : Full) : Statement (.or f) := instr rfl
theorem xorShort (f : Short3) : Statement (.xorShort f) := instr rfl
theorem xor (f : Full) : Statement (.xor f) := instr rfl
theorem andn (f : Full) : Statement (.andn f) := instr rfl
theorem shlShort (f : Short3) : Statement (.shlShort f) := instr rfl
theorem shl (f : Full) : Statement (.shl f) := instr rfl
theorem shrShort (f : Short3) : Statement (.shrShort f) := instr rfl
theorem shr (f : Full) : Statement (.shr f) := instr rfl
theorem sarShort (f : Short3) : Statement (.sarShort f) := instr rfl
theorem sar (f : Full) : Statement (.sar f) := instr rfl
theorem popc (f : Full) : Statement (.popc f) := instr rfl
theorem clz (f : Full) : Statement (.clz f) := instr rfl
theorem bfx (f : Full) : Statement (.bfx f) := instr rfl
theorem bfi (f : Full) : Statement (.bfi f) := instr rfl
theorem icmp (f : Full) : Statement (.icmp f) := instr rfl
theorem isel (f : Full) : Statement (.isel f) := instr rfl
theorem movShort (f : Short3) : Statement (.movShort f) := instr rfl
theorem mov (f : Full) : Statement (.mov f) := instr rfl
theorem moviShort (f : ShortI) : Statement (.moviShort f) := instr rfl
theorem movi (f : Full) : Statement (.movi f) := instr rfl
theorem immhi (f : FullU) : Statement (.immhi f) := instr rfl
theorem addpc (f : FullU) : Statement (.addpc f) := instr rfl
theorem idrd (f : Full) : Statement (.idrd f) := instr rfl
theorem lmulShort (f : Short3) : Statement (.lmulShort f) := instr rfl
theorem lmul (f : Full) : Statement (.lmul f) := instr rfl
theorem ldiv (f : Full) : Statement (.ldiv f) := instr rfl
theorem lrcp (f : Full) : Statement (.lrcp f) := instr rfl
theorem lsqrt (f : Full) : Statement (.lsqrt f) := instr rfl
theorem lrsq (f : Full) : Statement (.lrsq f) := instr rfl
theorem laddShort (f : Short3) : Statement (.laddShort f) := instr rfl
theorem ladd (f : Full) : Statement (.ladd f) := instr rfl
theorem lsubShort (f : Short3) : Statement (.lsubShort f) := instr rfl
theorem lsub (f : Full) : Statement (.lsub f) := instr rfl
theorem lmacShort (f : Short3) : Statement (.lmacShort f) := instr rfl
theorem lmac (f : Full) : Statement (.lmac f) := instr rfl
theorem lneg (f : Full) : Statement (.lneg f) := instr rfl
theorem labs (f : Full) : Statement (.labs f) := instr rfl
theorem lminShort (f : Short3) : Statement (.lminShort f) := instr rfl
theorem lmin (f : Full) : Statement (.lmin f) := instr rfl
theorem lmaxShort (f : Short3) : Statement (.lmaxShort f) := instr rfl
theorem lmax (f : Full) : Statement (.lmax f) := instr rfl
theorem lcmp (f : Full) : Statement (.lcmp f) := instr rfl
theorem lscale (f : Full) : Statement (.lscale f) := instr rfl
theorem lext (f : Full) : Statement (.lext f) := instr rfl
theorem lfrom (f : Full) : Statement (.lfrom f) := instr rfl
theorem lcvt (f : Full) : Statement (.lcvt f) := instr rfl
theorem ldot4 (f : Full) : Statement (.ldot4 f) := instr rfl
theorem lrnd (f : Full) : Statement (.lrnd f) := instr rfl
theorem cvt (f : Full) : Statement (.cvt f) := instr rfl
theorem fexp2 (f : Full) : Statement (.fexp2 f) := instr rfl
theorem fexp (f : Full) : Statement (.fexp f) := instr rfl
theorem flog2 (f : Full) : Statement (.flog2 f) := instr rfl
theorem fln (f : Full) : Statement (.fln f) := instr rfl
theorem fsinpi (f : Full) : Statement (.fsinpi f) := instr rfl
theorem fcospi (f : Full) : Statement (.fcospi f) := instr rfl
theorem ftanh (f : Full) : Statement (.ftanh f) := instr rfl
theorem fsigm (f : Full) : Statement (.fsigm f) := instr rfl
theorem ferf (f : Full) : Statement (.ferf f) := instr rfl
theorem fsoftp (f : Full) : Statement (.fsoftp f) := instr rfl
theorem fexp2A (f : Full) : Statement (.fexp2A f) := instr rfl
theorem fexpA (f : Full) : Statement (.fexpA f) := instr rfl
theorem flog2A (f : Full) : Statement (.flog2A f) := instr rfl
theorem flnA (f : Full) : Statement (.flnA f) := instr rfl
theorem fsinpiA (f : Full) : Statement (.fsinpiA f) := instr rfl
theorem fcospiA (f : Full) : Statement (.fcospiA f) := instr rfl
theorem ftanhA (f : Full) : Statement (.ftanhA f) := instr rfl
theorem fsigmA (f : Full) : Statement (.fsigmA f) := instr rfl
theorem ferfA (f : Full) : Statement (.ferfA f) := instr rfl
theorem fsoftpA (f : Full) : Statement (.fsoftpA f) := instr rfl
theorem shfl (f : Full) : Statement (.shfl f) := instr rfl
theorem qswap (f : Full) : Statement (.qswap f) := instr rfl
theorem qbcast (f : Full) : Statement (.qbcast f) := instr rfl
theorem vote (f : Full) : Statement (.vote f) := instr rfl
theorem ballot (f : Full) : Statement (.ballot f) := instr rfl
theorem gred (f : Full) : Statement (.gred f) := instr rfl
theorem braShort (imm : BitVec 22) : Statement (.braShort imm) := instr rfl
theorem bra (f : FullU) : Statement (.bra f) := instr rfl
theorem brc (f : FullU) : Statement (.brc f) := instr rfl
theorem callShort (imm : BitVec 22) : Statement (.callShort imm) := instr rfl
theorem call (f : FullU) : Statement (.call f) := instr rfl
theorem calli (f : Full) : Statement (.calli f) := instr rfl
theorem retShort : Statement (.retShort) := instr rfl
theorem ret (f : Full) : Statement (.ret f) := instr rfl
theorem join (f : Full) : Statement (.join f) := instr rfl
theorem wait (f : Full) : Statement (.wait f) := instr rfl
theorem exitShort : Statement (.exitShort) := instr rfl
theorem exit (f : Full) : Statement (.exit f) := instr rfl
theorem trap (f : Full) : Statement (.trap f) := instr rfl
theorem nopShort : Statement (.nopShort) := instr rfl
theorem nop (f : Full) : Statement (.nop f) := instr rfl
theorem ld (f : Full) : Statement (.ld f) := instr rfl
theorem st (f : Full) : Statement (.st f) := instr rfl
theorem lds (f : Full) : Statement (.lds f) := instr rfl
theorem sts (f : Full) : Statement (.sts f) := instr rfl
theorem ldc (f : Full) : Statement (.ldc f) := instr rfl
theorem pref (f : Full) : Statement (.pref f) := instr rfl
theorem atom (f : Full) : Statement (.atom f) := instr rfl
theorem aaccO (f : Full) : Statement (.aaccO f) := instr rfl
theorem monitor (f : Full) : Statement (.monitor f) := instr rfl
theorem mwait (f : Full) : Statement (.mwait f) := instr rfl
theorem cpyq (f : Full) : Statement (.cpyq f) := instr rfl
theorem abinit (f : Full) : Statement (.abinit f) := instr rfl
theorem abwait (f : Full) : Statement (.abwait f) := instr rfl
theorem tcpy (f : Full) : Statement (.tcpy f) := instr rfl
theorem gacq (f : Full) : Statement (.gacq f) := instr rfl
theorem grel (f : Full) : Statement (.grel f) := instr rfl
theorem fence (f : Full) : Statement (.fence f) := instr rfl
theorem bar (f : Full) : Statement (.bar f) := instr rfl
theorem cbar (f : Full) : Statement (.cbar f) := instr rfl
theorem pegpub (f : Full) : Statement (.pegpub f) := instr rfl
theorem tspawn (f : Full) : Statement (.tspawn f) := instr rfl
theorem jpost (f : Full) : Statement (.jpost f) := instr rfl
theorem coll (f : Full) : Statement (.coll f) := instr rfl
theorem collw (f : Full) : Statement (.collw f) := instr rfl
theorem mwld (f : Full) : Statement (.mwld f) := instr rfl
theorem mswap (f : Full) : Statement (.mswap f) := instr rfl
theorem mma (f : Full) : Statement (.mma f) := instr rfl
theorem mmat (f : Full) : Statement (.mmat f) := instr rfl
theorem mdrain (f : Full) : Statement (.mdrain f) := instr rfl
theorem mzero (f : Full) : Statement (.mzero f) := instr rfl
theorem mtake (f : Full) : Statement (.mtake f) := instr rfl
theorem mpass (f : Full) : Statement (.mpass f) := instr rfl
theorem mhrd (f : Full) : Statement (.mhrd f) := instr rfl
theorem mprg (f : Full) : Statement (.mprg f) := instr rfl
theorem sysrd (f : Full) : Statement (.sysrd f) := instr rfl
theorem syswr (f : Full) : Statement (.syswr f) := instr rfl
theorem tret (f : Full) : Statement (.tret f) := instr rfl
theorem rgrow (f : Full) : Statement (.rgrow f) := instr rfl
theorem rshrink (f : Full) : Statement (.rshrink f) := instr rfl
theorem icsync (f : Full) : Statement (.icsync f) := instr rfl
theorem tlbinv (f : Full) : Statement (.tlbinv f) := instr rfl
theorem tracemark (f : Full) : Statement (.tracemark f) := instr rfl
theorem fetch (g ahead : Nat) : Statement (.fetch g ahead) := event rfl
theorem breakpoint (g : Nat) : Statement (.breakpoint g) := event rfl
theorem faultRecordResume (ctx : Nat) : Statement (.faultRecordResume ctx) := event rfl
theorem trapEntry (g : Nat) : Statement (.trapEntry g) := event rfl
theorem teamKill (team cause info : Nat) : Statement (.teamKill team cause info) := event rfl
theorem poisonPurge (g cause info : Nat) : Statement (.poisonPurge g cause info) := event rfl
theorem strikeReport (core : Nat) : Statement (.strikeReport core) := event rfl
theorem doorbell (ctx : Nat) (v : BitVec 32) : Statement (.doorbell ctx v) := event rfl
theorem cardAccept (ctx q : Nat) : Statement (.cardAccept ctx q) := event rfl
theorem dealingPass (cluster : Nat) : Statement (.dealingPass cluster) := event rfl
theorem teamDispatch (team : Nat) (cores : List Nat) : Statement (.teamDispatch team cores) := event rfl
theorem taskPop (ctx q core : Nat) : Statement (.taskPop ctx q core) := event rfl
theorem taskRetire (team : Nat) : Statement (.taskRetire team) := event rfl
theorem pendPush (ctx q : Nat) : Statement (.pendPush ctx q) := event rfl
theorem teamRetire (team : Nat) : Statement (.teamRetire team) := event rfl
theorem launchRetire (launch : Nat) : Statement (.launchRetire launch) := event rfl
theorem rgrowRetry (core : Nat) : Statement (.rgrowRetry core) := event rfl
theorem rgrowTimeout (g : Nat) : Statement (.rgrowTimeout g) := event rfl
theorem registerPromote (core : Nat) : Statement (.registerPromote core) := event rfl
theorem forwardProgressSwap (core : Nat) : Statement (.forwardProgressSwap core) := event rfl
theorem teamRestore (team : Nat) (cores : List Nat) : Statement (.teamRestore team cores) := event rfl
theorem plerrAck (ctx : Nat) : Statement (.plerrAck ctx) := event rfl
theorem preemptReq (ctx : Nat) : Statement (.preemptReq ctx) := event rfl
theorem preemptSaveDone (ctx : Nat) : Statement (.preemptSaveDone ctx) := event rfl
theorem preemptResume (ctx : Nat) : Statement (.preemptResume ctx) := event rfl
theorem haltCore (core : Nat) : Statement (.haltCore core) := event rfl
theorem unhaltCore (core : Nat) : Statement (.unhaltCore core) := event rfl
theorem shootdownPage (v : BitVec 64) : Statement (.shootdownPage v) := event rfl
theorem shootdownAll (v : BitVec 64) : Statement (.shootdownAll v) := event rfl
theorem shootdownComplete : Statement (.shootdownComplete) := event rfl
theorem frespRetry (ctx fseq : Nat) : Statement (.frespRetry ctx fseq) := event rfl
theorem frespFail (ctx fseq : Nat) : Statement (.frespFail ctx fseq) := event rfl
theorem copyChunk (core req chunk : Nat) : Statement (.copyChunk core req chunk) := event rfl
theorem aaccContribute (g : Nat) : Statement (.aaccContribute g) := event rfl
theorem wdogBudget (team : Nat) : Statement (.wdogBudget team) := event rfl
theorem wdogKill (team : Nat) : Statement (.wdogKill team) := event rfl
theorem regtabApply (ctx : Nat) : Statement (.regtabApply ctx) := event rfl
theorem powerArbitration (levels : List Nat) : Statement (.powerArbitration levels) := event rfl
theorem thermalSample (temps : List Nat) : Statement (.thermalSample temps) := event rfl
theorem fatalError (cause : Nat) : Statement (.fatalError cause) := event rfl
theorem firmwareWatchdogExpiry : Statement (.firmwareWatchdogExpiry) := event rfl
theorem dumpRequest : Statement (.dumpRequest) := event rfl
theorem deviceReset : Statement (.deviceReset) := event rfl
theorem bringupStage (image : Image) (usable : List (Nat × Nat)) : Statement (.bringupStage image usable) := event rfl
theorem sealContext (ctx : Nat) : Statement (.sealContext ctx) := event rfl
theorem attestationReport (ctx : Nat) (ask : ReportAsk) : Statement (.attestationReport ctx ask) := event rfl
theorem nodeCapacityLearned (d capacity : Nat) : Statement (.nodeCapacityLearned d capacity) := event rfl
theorem linkTrained (port peer far : Nat) (ide : Bool) : Statement (.linkTrained port peer far ide) := event rfl
theorem portLinkDown (port : Nat) : Statement (.portLinkDown port) := event rfl
theorem ackTimeout (port : Nat) : Statement (.ackTimeout port) := event rfl
theorem quarantineClear (port : Nat) : Statement (.quarantineClear port) := event rfl
theorem collectiveStart (coll : Nat) : Statement (.collectiveStart coll) := event rfl
theorem collectivePartial (key : CollKey) (chunk : Nat) (msg : CollMsg) : Statement (.collectivePartial key chunk msg) := event rfl
theorem failureNotice (key : CollKey) (epoch : Nat) (link : Edge) : Statement (.failureNotice key epoch link) := event rfl
theorem recoveryRebuild (coll : Nat) : Statement (.recoveryRebuild coll) := event rfl
theorem collectiveComplete (coll : Nat) : Statement (.collectiveComplete coll) := event rfl
theorem traceIndexRead : Statement (.traceIndexRead) := event rfl
theorem registerWrite (ctx : Option Nat) (off : Nat) (v : BitVec 64) : Statement (.registerWrite ctx off v) := event rfl
theorem illegalInstructionTrap (g ilen w0 w1 : Nat) : Statement (.illegalInstructionTrap g ilen w0 w1) := event rfl
theorem hostLinkAccess (pa : Nat) (data : List (BitVec 8)) (n : Nat) : Statement (.hostLinkAccess pa data n) := event rfl
theorem peerMemoryTransaction (peer : PeerId) (pa : Nat) (op : PeerOp) (scope : Nat) : Statement (.peerMemoryTransaction peer pa op scope) := event rfl
theorem tableFlood (key : CollKey) (msg : FloodMsg) : Statement (.tableFlood key msg) := event rfl
theorem isolatedRankTimeout (coll : Nat) : Statement (.isolatedRankTimeout coll) := event rfl
theorem keyUnwrap (ctx : Nat) (wrapped : List (BitVec 8)) : Statement (.keyUnwrap ctx wrapped) := event rfl
theorem powerGating (core : Nat) (on : Bool) : Statement (.powerGating core on) := event rfl

end Sys2Proof.Laws.WordCount
end

