-- ==== Sys2Proof/Tests/Slice0.lean ====
section
/-! SUPPORT. Tests: each instruction's words decode to it, ill-formed words are refused check by check, single steps, and for every
obligation with hypotheses a concrete state and operands that meet them. -/

namespace Sys2Proof.Tests

set_option Elab.async false

open Sys2Proof Machine Safety

-- Operands ----------------------------------------------------------------------------------------------------------------------

/-- A register of width 1. -/
def vr (n : BitVec 8) : Reg := ⟨.v, n, 0⟩
def sr (n : BitVec 8) : Reg := ⟨.s, n, 0⟩

/-- A full form that no predicate guards and that opens no window. -/
def full (d b : Reg) (c : Src) (xm : BitVec 3) (ty : BitVec 5) (rnd : BitVec 3) : Full := ⟨d, b, c, xm, ty, rnd, none, ⟨0, false, 7⟩⟩

-- Decoding ----------------------------------------------------------------------------------------------------------------------

/-- Every list of words decodes to the instruction beside it, which encodes to those words. -/
def agree (l : List (List IWord × Instr)) : Bool := l.all fun p => decide (decode p.1 = .ok p.2 ∧ encode p.2 = p.1)

/-- Integer rows: words laid out by hand from Tables 6.1 to 6.4, 6.7 and 6.8 and the encoding lines of the chapter. -/
def integerRows1 : List (List IWord × Instr) := [
  ([0x06080804], .iaddShort ⟨.v, 1, 2, 3⟩),
  ([0x06411005, 0x08412807], .iadd (full ⟨.v, 4, 1⟩ ⟨.v, 6, 1⟩ (.reg ⟨.v, 8, 1⟩) 1 5 0)),
  ([0x0E182C08], .isubShort ⟨.s, 5, 6, 7⟩),
  ([0x02004009, 0xFFD82007], .isub (full (vr 1) (vr 2) (.imm 4093) 0 4 0)),
  ([0x0200400D, 0x03012807], .imul24 (full (vr 1) (vr 2) (.reg (vr 3)) 1 5 0)),
  ([0x02004011, 0x03200007], .imul32 (full (vr 1) (vr 2) (.reg (sr 3)) 0 0 0)),
  ([0x02004015, 0x03000807], .imulhi (full (vr 1) (vr 2) (.reg (vr 3)) 0 1 0)),
  ([0x02004019, 0x03000807], .imad24 (full (vr 1) (vr 2) (.reg (vr 3)) 0 1 0)),
  ([0x0200401D, 0x0301283A], .idiv ⟨(vr 1), (vr 2), .reg (vr 3), 1, 5, 0, none, ⟨3, true, 2⟩⟩),
  ([0x02004021, 0x03001007], .imin (full (vr 1) (vr 2) (.reg (vr 3)) 0 2 0)),
  ([0x02004026, 0x00083807, 0x80000001], .imax (full (vr 1) (vr 2) (.lit 0x80000001) 0 7 0)),
  ([0x02004829, 0x03052807], .lea (full (vr 1) (sr 2) (.reg (vr 3)) 5 5 0)),
  ([0xFBFBF840], .andShort ⟨.v, 127, 126, 125⟩),
  ([0x02004041, 0x03000007], .and (full (vr 1) (vr 2) (.reg (vr 3)) 0 0 0)),
  ([0x06080844], .orShort ⟨.v, 1, 2, 3⟩),
  ([0x02004C45, 0x03200007], .or (full (sr 1) (sr 2) (.reg (sr 3)) 0 0 0)),
  ([0x06080848], .xorShort ⟨.v, 1, 2, 3⟩),
  ([0x02004049, 0x03000007], .xor (full (vr 1) (vr 2) (.reg (vr 3)) 0 0 0)),
  ([0x0200404D, 0x03000007], .andn (full (vr 1) (vr 2) (.reg (vr 3)) 0 0 0)),
  ([0x06080850], .shlShort ⟨.v, 1, 2, 3⟩),
  ([0x02004051, 0x00780807], .shl (full (vr 1) (vr 2) (.imm 7) 0 1 0)),
  ([0x06080854], .shrShort ⟨.v, 1, 2, 3⟩),
  ([0x02004055, 0x03001007], .shr (full (vr 1) (vr 2) (.reg (vr 3)) 0 2 0)),
  ([0x06080858], .sarShort ⟨.v, 1, 2, 3⟩)]

theorem test_decode_integer1 : agree integerRows1 = true := by decide +kernel

/-- Integer rows: words laid out by hand from Tables 6.1 to 6.4, 6.7 and 6.8 and the encoding lines of the chapter. -/
def integerRows2 : List (List IWord × Instr) := [
  ([0x02004059, 0x03003807], .sar (full (vr 1) (vr 2) (.reg (vr 3)) 0 7 0)),
  ([0x0200405D, 0x00000807], .popc (full (vr 1) (vr 2) (.reg (vr 0)) 0 1 0)),
  ([0x02004061, 0x00000007], .clz (full (vr 1) (vr 2) (.reg (vr 0)) 0 0 0)),
  ([0x02004065, 0x1C482807], .bfx (full (vr 1) (vr 2) (.imm 452) 0 5 0)),
  ([0x02004069, 0x03000807], .bfi (full (vr 1) (vr 2) (.reg (vr 3)) 0 1 0)),
  ([0x0200C06D, 0x04022007], .icmp (full (vr 3) (vr 2) (.reg (vr 4)) 2 4 0)),
  ([0x02421071, 0x04430007], .isel (full ⟨.v, 8, 1⟩ ⟨.v, 2, 1⟩ (.reg ⟨.v, 4, 1⟩) 3 0 0)),
  ([0x00142480], .movShort ⟨.s, 4, 5, 0⟩),
  ([0x0C822081, 0x00000007], .mov (full ⟨.v, 8, 2⟩ ⟨.v, 12, 2⟩ (.reg (vr 0)) 0 0 0)),
  ([0xFFFC4884], .moviShort ⟨.v, 9, 0x3FFF⟩),
  ([0x00010486, 0x00080007, 0xDEADBEEF], .movi (full (sr 4) (vr 0) (.lit 0xDEADBEEF) 0 0 0)),
  ([0x00004089, 0x80000007], .immhi ⟨(vr 1), (vr 0), .imm20 0x80000, ⟨0, false, 7⟩⟩),
  ([0x0000848D, 0x00001007], .addpc ⟨(sr 2), (vr 0), .imm20 0x1, ⟨0, false, 7⟩⟩),
  ([0x00014091, 0x01380007], .idrd (full (vr 5) (vr 0) (.imm 19) 0 0 0))]

theorem test_decode_integer2 : agree integerRows2 = true := by decide +kernel

/-- Logarithmic and function rows: words laid out by hand from Tables 6.1 to 6.4, 6.7 and 6.8 and the encoding lines of the chapter. -/
def logRows1 : List (List IWord × Instr) := [
  ([0x06080900], .lmulShort ⟨.v, 1, 2, 3⟩),
  ([0x02004102, 0x03004507, 0x00000090], .lmul ⟨(vr 1), (vr 2), .reg (vr 3), 0, 8, 5, some 9, ⟨0, false, 7⟩⟩),
  ([0x02004105, 0x03004807], .ldiv (full (vr 1) (vr 2) (.reg (vr 3)) 0 9 0)),
  ([0x02004109, 0x00005107], .lrcp (full (vr 1) (vr 2) (.reg (vr 0)) 0 10 1)),
  ([0x0200410D, 0x00004307], .lsqrt (full (vr 1) (vr 2) (.reg (vr 0)) 0 8 3)),
  ([0x02004111, 0x00004407], .lrsq (full (vr 1) (vr 2) (.reg (vr 0)) 0 8 4)),
  ([0x06080914], .laddShort ⟨.v, 1, 2, 3⟩),
  ([0x12441115, 0x14404A2B], .ladd ⟨⟨.v, 16, 1⟩, ⟨.v, 18, 1⟩, .reg ⟨.v, 20, 1⟩, 0, 9, 2, none, ⟨2, true, 3⟩⟩),
  ([0x06080918], .lsubShort ⟨.v, 1, 2, 3⟩),
  ([0x0200411A, 0x07084507, 0x3FC00000], .lsub ⟨(vr 1), (vr 2), .lit 0x3FC00000, 0, 8, 5, some 7, ⟨0, false, 7⟩⟩),
  ([0x0608091C], .lmacShort ⟨.v, 1, 2, 3⟩),
  ([0x0200411D, 0x03005A07], .lmac (full (vr 1) (vr 2) (.reg (vr 3)) 0 11 2)),
  ([0x02004121, 0x00004007], .lneg (full (vr 1) (vr 2) (.reg (vr 0)) 0 8 0)),
  ([0x02004125, 0x00004807], .labs (full (vr 1) (vr 2) (.reg (vr 0)) 0 9 0)),
  ([0x06080928], .lminShort ⟨.v, 1, 2, 3⟩),
  ([0x02004129, 0x03005007], .lmin (full (vr 1) (vr 2) (.reg (vr 3)) 0 10 0)),
  ([0x0608092C], .lmaxShort ⟨.v, 1, 2, 3⟩),
  ([0x0200412D, 0x03004007], .lmax (full (vr 1) (vr 2) (.reg (vr 3)) 0 8 0)),
  ([0x02018131, 0x03064007], .lcmp (full (vr 6) (vr 2) (.reg (vr 3)) 6 8 0)),
  ([0x02004135, 0xFFBF4107], .lscale (full (vr 1) (vr 2) (.imm 4091) 7 8 1)),
  ([0x02004141, 0x00014007], .lext (full (vr 1) (vr 2) (.reg (vr 0)) 1 8 0)),
  ([0x02004145, 0x00014A07], .lfrom (full (vr 1) (vr 2) (.reg (vr 0)) 1 9 2)),
  ([0x01022149, 0xFFEA4007], .lcvt (full ⟨.v, 8, 2⟩ (vr 1) (.imm 4094) 2 8 0)),
  ([0x0202814D, 0x03005007], .ldot4 (full (vr 10) (vr 2) (.reg (vr 3)) 0 10 0))]

theorem test_decode_log1 : agree logRows1 = true := by decide +kernel

/-- Logarithmic and function rows: words laid out by hand from Tables 6.1 to 6.4, 6.7 and 6.8 and the encoding lines of the chapter. -/
def logRows2 : List (List IWord × Instr) := [
  ([0x02004151, 0x00384007], .lrnd (full (vr 1) (vr 2) (.imm 3) 0 8 0)),
  ([0x05010155, 0x08002B07], .cvt (full (vr 4) (vr 5) (.reg (vr 8)) 0 5 3)),
  ([0x02004201, 0x00004007], .fexp2 (full (vr 1) (vr 2) (.reg (vr 0)) 0 8 0)),
  ([0x02004205, 0x00004107], .fexp (full (vr 1) (vr 2) (.reg (vr 0)) 0 8 1)),
  ([0x04409209, 0x00004807], .flog2 (full ⟨.v, 2, 1⟩ ⟨.v, 4, 1⟩ (.reg (vr 0)) 0 9 0)),
  ([0x0200420D, 0x00005007], .fln (full (vr 1) (vr 2) (.reg (vr 0)) 0 10 0)),
  ([0x02004211, 0x00004007], .fsinpi (full (vr 1) (vr 2) (.reg (vr 0)) 0 8 0)),
  ([0x02004215, 0x00004007], .fcospi (full (vr 1) (vr 2) (.reg (vr 0)) 0 8 0)),
  ([0x02004219, 0x00004007], .ftanh (full (vr 1) (vr 2) (.reg (vr 0)) 0 8 0)),
  ([0x0200421D, 0x00004007], .fsigm (full (vr 1) (vr 2) (.reg (vr 0)) 0 8 0)),
  ([0x02004221, 0x00004007], .ferf (full (vr 1) (vr 2) (.reg (vr 0)) 0 8 0)),
  ([0x02004225, 0x00004007], .fsoftp (full (vr 1) (vr 2) (.reg (vr 0)) 0 8 0)),
  ([0x02004241, 0x00004007], .fexp2A (full (vr 1) (vr 2) (.reg (vr 0)) 0 8 0)),
  ([0x02004245, 0x00004007], .fexpA (full (vr 1) (vr 2) (.reg (vr 0)) 0 8 0)),
  ([0x02004249, 0x00004007], .flog2A (full (vr 1) (vr 2) (.reg (vr 0)) 0 8 0)),
  ([0x0200424D, 0x00004007], .flnA (full (vr 1) (vr 2) (.reg (vr 0)) 0 8 0)),
  ([0x02004251, 0x00004007], .fsinpiA (full (vr 1) (vr 2) (.reg (vr 0)) 0 8 0)),
  ([0x02004255, 0x00004007], .fcospiA (full (vr 1) (vr 2) (.reg (vr 0)) 0 8 0)),
  ([0x02004259, 0x00004007], .ftanhA (full (vr 1) (vr 2) (.reg (vr 0)) 0 8 0)),
  ([0x0200425D, 0x00004007], .fsigmA (full (vr 1) (vr 2) (.reg (vr 0)) 0 8 0)),
  ([0x02004261, 0x00004007], .ferfA (full (vr 1) (vr 2) (.reg (vr 0)) 0 8 0)),
  ([0x02004265, 0x00004007], .fsoftpA (full (vr 1) (vr 2) (.reg (vr 0)) 0 8 0))]

theorem test_decode_log2 : agree logRows2 = true := by decide +kernel

/-- Cross-lane and control rows: words laid out by hand from Tables 6.1 to 6.4, 6.7 and 6.8 and the encoding lines of the chapter. -/
def controlRows : List (List IWord × Instr) := [
  ([0x02004281, 0xFFF90807], .shfl (full (vr 1) (vr 2) (.imm 4095) 1 1 0)),
  ([0x04409285, 0x00020007], .qswap (full ⟨.v, 2, 1⟩ ⟨.v, 4, 1⟩ (.reg (vr 0)) 2 0 0)),
  ([0x02004289, 0x00380007], .qbcast (full (vr 1) (vr 2) (.imm 3) 0 0 0)),
  ([0x0100028D, 0x03FB0007], .vote (full (vr 0) (vr 1) (.imm 63) 3 0 0)),
  ([0x07004291, 0x00000007], .ballot (full (vr 1) (vr 7) (.reg (vr 0)) 0 0 0)),
  ([0x0800C695, 0x00004007], .gred (full (sr 3) (vr 8) (.reg (vr 0)) 0 8 0)),
  ([0xFFFFF2C0], .braShort 0x3FFFFC),
  ([0x000002C1, 0x00010007], .bra ⟨(vr 0), (vr 0), .imm20 0x10, ⟨0, false, 7⟩⟩),
  ([0x020002C6, 0x00000001, 0xFFFFFFF8], .brc ⟨(vr 0), (vr 2), .lit 0xFFFFFFF8, ⟨0, false, 1⟩⟩),
  ([0x00000EC8], .callShort 0x3),
  ([0x000F86CA, 0x00000007, 0x00001000], .call ⟨(sr 62), (vr 0), .lit 0x1000, ⟨0, false, 7⟩⟩),
  ([0x02004ACD, 0x00000007], .calli (full (vr 1) (sr 2) (.reg (vr 0)) 0 0 0)),
  ([0x000002D0], .retShort),
  ([0x030002D1, 0x00000007], .ret (full (vr 0) (vr 3) (.reg (vr 0)) 0 0 0)),
  ([0x0200CAD5, 0x00010007], .join (full (vr 3) (sr 2) (.reg (vr 0)) 1 0 0)),
  ([0x000082D9, 0x00000007], .wait (full (vr 2) (vr 0) (.reg (vr 0)) 0 0 0)),
  ([0x000002DC], .exitShort),
  ([0x000002DD, 0x00010000], .exit ⟨(vr 0), (vr 0), .reg (vr 0), 1, 0, 0, none, ⟨0, false, 0⟩⟩),
  ([0x000002E1, 0x00580007], .trap (full (vr 0) (vr 0) (.imm 5) 0 0 0)),
  ([0x000002E4], .nopShort),
  ([0x000002E5, 0x000000F7], .nop ⟨(vr 0), (vr 0), .reg (vr 0), 0, 0, 0, none, ⟨15, false, 7⟩⟩)]

theorem test_decode_control : agree controlRows = true := by decide +kernel

/-- Memory rows: words laid out by hand from Tables 6.1 to 6.4, 6.7 and 6.8 and the encoding lines of the chapter. -/
def memoryRows : List (List IWord × Instr) := [
  ([0x02004301, 0x010B0007], .ld (full (vr 1) (vr 2) (.imm 16) 3 0 0)),
  ([0x02004305, 0x03200807], .st (full (vr 1) (vr 2) (.reg (sr 3)) 0 1 0)),
  ([0x02004309, 0x000A3007], .lds (full (vr 1) (vr 2) (.imm 0) 2 6 0)),
  ([0x0200430D, 0x02090007], .sts (full (vr 1) (vr 2) (.imm 32) 1 0 0)),
  ([0x02004F11, 0x00881807], .ldc (full (sr 1) (sr 2) (.imm 8) 0 3 0)),
  ([0x02000315, 0x04090007], .pref (full (vr 0) (vr 2) (.imm 64) 1 0 0)),
  ([0x02004319, 0x01BC0807], .atom (full (vr 1) (vr 2) (.imm 27) 4 1 0)),
  ([0x02004B1D, 0x03204007], .aaccO (full (vr 1) (sr 2) (.reg (sr 3)) 0 8 0)),
  ([0x02000B21, 0x00080007], .monitor (full (vr 0) (sr 2) (.imm 0) 0 0 0)),
  ([0x00000325, 0x00000007], .mwait (full (vr 0) (vr 0) (.reg (vr 0)) 0 0 0)),
  ([0x02000B29, 0x00080007], .cpyq (full (vr 0) (sr 2) (.imm 0) 0 0 0)),
  ([0x02000B2D, 0x04080007], .abinit (full (vr 0) (sr 2) (.imm 64) 0 0 0)),
  ([0x02000B31, 0x04200007], .abwait (full (vr 0) (sr 2) (.reg (sr 4)) 0 0 0)),
  ([0x02000B35, 0x04210007], .tcpy (full (vr 0) (sr 2) (.reg (sr 4)) 1 0 0))]

theorem test_decode_memory : agree memoryRows = true := by decide +kernel

/-- Ordering, synchronisation and work rows: words laid out by hand from Tables 6.1 to 6.4, 6.7 and 6.8 and the encoding lines of the chapter. -/
def syncRows : List (List IWord × Instr) := [
  ([0x02000B41, 0x001B0007], .gacq (full (vr 0) (sr 2) (.imm 1) 3 0 0)),
  ([0x02000B45, 0x00030007], .grel (full (vr 0) (sr 2) (.reg (vr 0)) 3 0 0)),
  ([0x00000349, 0x00050007], .fence (full (vr 0) (vr 0) (.reg (vr 0)) 5 0 0)),
  ([0x0000034D, 0x00000007], .bar (full (vr 0) (vr 0) (.reg (vr 0)) 0 0 0)),
  ([0x00000351, 0x00000007], .cbar (full (vr 0) (vr 0) (.reg (vr 0)) 0 0 0)),
  ([0x02400B56, 0x00080007, 0x00123456], .pegpub (full (vr 0) ⟨.s, 2, 1⟩ (.lit 0x123456) 0 0 0)),
  ([0x02000B59, 0x00780007], .tspawn (full (vr 0) (sr 2) (.imm 7) 0 0 0)),
  ([0x02000B5D, 0x0FF90007], .jpost (full (vr 0) (sr 2) (.imm 255) 1 0 0)),
  ([0x02000B61, 0x00000007], .coll (full (vr 0) (sr 2) (.reg (vr 0)) 0 0 0)),
  ([0x02000B65, 0x00000007], .collw (full (vr 0) (sr 2) (.reg (vr 0)) 0 0 0))]

theorem test_decode_sync : agree syncRows = true := by decide +kernel

/-- Matrix rows: words laid out by hand from Tables 6.1 to 6.4, 6.7 and 6.8 and the encoding lines of the chapter. -/
def matrixRows : List (List IWord × Instr) := [
  ([0x04800B81, 0x00015007], .mwld (full (vr 0) ⟨.s, 4, 2⟩ (.reg (vr 0)) 1 10 0)),
  ([0x00000385, 0x00000007], .mswap (full (vr 0) (vr 0) (.reg (vr 0)) 0 0 0)),
  ([0x04800B89, 0x08205007], .mma (full (vr 0) ⟨.s, 4, 2⟩ (.reg (sr 8)) 0 10 0)),
  ([0x04800B8D, 0x40084907], .mmat (full (vr 0) ⟨.s, 4, 2⟩ (.imm 1024) 0 9 1)),
  ([0x04800B91, 0x08204007], .mdrain (full (vr 0) ⟨.s, 4, 2⟩ (.reg (sr 8)) 0 8 0)),
  ([0x00000395, 0x08200007], .mzero (full (vr 0) (vr 0) (.reg (sr 8)) 0 0 0)),
  ([0x00000399, 0x00000007], .mtake (full (vr 0) (vr 0) (.reg (vr 0)) 0 0 0)),
  ([0x0000039D, 0x00000007], .mpass (full (vr 0) (vr 0) (.reg (vr 0)) 0 0 0)),
  ([0x0000C3A1, 0x00780007], .mhrd (full (vr 3) (vr 0) (.imm 7) 0 0 0)),
  ([0x000003A5, 0x0FF80007], .mprg (full (vr 0) (vr 0) (.imm 255) 0 0 0))]

theorem test_decode_matrix : agree matrixRows = true := by decide +kernel

/-- System rows: words laid out by hand from Tables 6.1 to 6.4, 6.7 and 6.8 and the encoding lines of the chapter. -/
def systemRows : List (List IWord × Instr) := [
  ([0x000043C1, 0x01480007], .sysrd (full (vr 1) (vr 0) (.imm 20) 0 0 0)),
  ([0x02000BC5, 0x02080007], .syswr (full (vr 0) (sr 2) (.imm 32) 0 0 0)),
  ([0x000003C9, 0x00010007], .tret (full (vr 0) (vr 0) (.reg (vr 0)) 1 0 0)),
  ([0x000003CD, 0x10080007], .rgrow (full (vr 0) (vr 0) (.imm 256) 0 0 0)),
  ([0x000003D1, 0x02200007], .rshrink (full (vr 0) (vr 0) (.reg (sr 2)) 0 0 0)),
  ([0x000003D5, 0x00000007], .icsync (full (vr 0) (vr 0) (.reg (vr 0)) 0 0 0)),
  ([0x02000BD9, 0x00000007], .tlbinv (full (vr 0) (sr 2) (.reg (vr 0)) 0 0 0)),
  ([0x000003DE, 0x00080007, 0x0000CAFE], .tracemark (full (vr 0) (vr 0) (.lit 0xCAFE) 0 0 0))]

theorem test_decode_system : agree systemRows = true := by decide +kernel

-- When an instruction is ready ----------------------------------------------------------------------------------------------------

/-- The instruction at issue, as `issue` gathers it. -/
def iss (s : State) (i : Instr) : Iss :=
  let x := s.group s.cur
  let a := x.issueAddr.getD 0
  { g := s.cur, a, len := Instr.bytes i, at_ := x.lanesAt a, act := x.active (x.lanesAt a) (ctlOf? i), help := x.helpers }

/-- What `Ready` asks, decided. -/
def readyB (s : State) (i : Instr) : Bool :=
  let x := s.group s.cur
  decide (s.cur < s.groups.length) && !x.ended && onCore s x && mayIssue x i && x.issueAddr.isSome && decide (precheck s (iss s i) i = none) &&
    !x.pcvBad && decide (badRead x i (iss s i).act = none) && decide (x.badJoin = none) && decide ((iss s i).act ≠ 0) &&
      Memory.wf s.mem

theorem ready_of {s : State} {i : Instr} (h : readyB s i = true) :
    Ready s i (iss s i) ∧ (iss s i).act ≠ 0 ∧ Memory.wf s.mem = true := by
  simp only [readyB, Bool.and_eq_true, decide_eq_true_eq, Bool.not_eq_true'] at h
  obtain ⟨⟨⟨⟨⟨⟨⟨⟨⟨⟨h1, h2⟩, h3⟩, h4⟩, h5⟩, h6⟩, h7⟩, h8⟩, h11⟩, h9⟩, h10⟩ := h
  refine ⟨⟨rfl, h1, h2, h3, h4, ?_, rfl, rfl, rfl, rfl, h6, h7, h8, h11⟩, h9, h10⟩
  obtain ⟨a, ha⟩ := Option.isSome_iff_exists.mp h5
  simp [iss, ha]

/-- The hypotheses of a row's statement, with what else a clause of it asks. -/
abbrev Runs (s : State) (i : Instr) (P : Iss → Prop) : Prop := ∃ is, Ready s i is ∧ is.act ≠ 0 ∧ Memory.wf s.mem = true ∧ P is

theorem runs {s : State} {i : Instr} {P : Iss → Prop} (h : readyB s i = true) (p : P (iss s i)) : Runs s i P :=
  ⟨_, (ready_of h).1, (ready_of h).2.1, (ready_of h).2.2, p⟩

theorem all_run {s : State} {l : List (List IWord × Instr)} (h : l.all (fun p => readyB s p.2) = true) :
    ∀ p ∈ l, Runs s p.2 fun _ => True := fun p hp => runs (List.all_eq_true.mp h p hp) trivial

-- A small device ------------------------------------------------------------------------------------------------------------------

/-- Two contexts, eight cores, and one group of 32 lanes at 0x1000 whose team has 4 KiB of scratchpad, 64 tile rows, a handler at 0x4000
and a heap window that names the first 2 MiB of local memory; P0 and P1 are true in every lane. -/
def unit : State :=
  let s := placeGroup { State.reset with ctxs := List.replicate 2 {}, cores := List.replicate 8 {} }
  let t := s.team 0
  let x := s.group 0
  (s.setTeam 0 { t with spadKiB := 4, trows := 64, heap := (1, 0x200001, 0), vec := 0x4003 }).setGroup 0
    { x with p := [0xFFFFFFFF, 0xFFFFFFFF] }

/-- The same with changes to its group, team, core, first context. -/
def unitG (f : Group → Group) : State := unit.setGroup 0 (f (unit.group 0))
def unitT (f : Team → Team) : State := unit.setTeam 0 (f (unit.team 0))
def unitC (f : Core → Core) : State := unit.setCore 0 (f (unit.core 0))
def unitX (f : Ctx → Ctx) : State := unit.setCtx 0 (f (unit.ctx 0))

-- The rows can run ------------------------------------------------------------------------------------------------------------------

theorem witness_integer_rows1 : ∀ p ∈ integerRows1, Runs unit p.2 fun _ => True := all_run (by decide +kernel)
theorem witness_integer_rows2 : ∀ p ∈ integerRows2, Runs unit p.2 fun _ => True := all_run (by decide +kernel)
theorem witness_log_rows1 : ∀ p ∈ logRows1, Runs unit p.2 fun _ => True := all_run (by decide +kernel)
theorem witness_log_rows2 : ∀ p ∈ logRows2, Runs unit p.2 fun _ => True := all_run (by decide +kernel)
theorem witness_control_rows : ∀ p ∈ controlRows, Runs unit p.2 fun _ => True := all_run (by decide +kernel)
theorem witness_memory_rows : ∀ p ∈ memoryRows, Runs unit p.2 fun _ => True := all_run (by decide +kernel)
theorem witness_sync_rows : ∀ p ∈ syncRows, Runs unit p.2 fun _ => True := all_run (by decide +kernel)
theorem witness_matrix_rows : ∀ p ∈ matrixRows, Runs unit p.2 fun _ => True := all_run (by decide +kernel)
theorem witness_system_rows : ∀ p ∈ systemRows.filter (fun p => opOf p.2 ≠ 0xF2), Runs unit p.2 fun _ => True := all_run (by decide +kernel)

-- Hypotheses of the statements on rows ------------------------------------------------------------------------------------------------

/-- FunctionElements, ConversionsAndDotProducts: a NaR code, a numeric code, and an input that no special case settles. -/
theorem witness_codes : (∀ t ∈ [8, 9, 10, 11], decodeLog (fmtOf t) (narCode (fmtOf t)) = .nar ∧ decodeLog (fmtOf t) 0 = .num 0 0) ∧
    decodeLog l32 0x00400001 = .num 0 0x400001 ∧ settled .exp2 l32 .rn (.num 0 0x400001) = none := by decide +kernel

def bra (n : BitVec 20) : Instr := .bra ⟨vr 0, vr 0, .imm20 n, ⟨0, false, 7⟩⟩
def brc (b : Reg) : Instr := .brc ⟨vr 0, b, .imm20 4, ⟨0, false, 7⟩⟩

/-- BranchesAndCalls: a target at address 0, one below it, and one that is not a multiple of 4. -/
theorem witness_branch_good : Runs unit (bra (BitVec.ofInt 20 (-0x400))) fun is => is.act.getLsbD 0 = true ∧ (is.a : Int) + -0x1000 = 0 :=
  runs (by decide +kernel) (by decide +kernel)

theorem witness_branch_bad : Runs unit (bra (BitVec.ofInt 20 (-0x401))) fun is => is.act.getLsbD 0 = true ∧ (is.a : Int) + -0x1004 < 0 :=
  runs (by decide +kernel) (by decide +kernel)

/-- The same: a lane that takes the branch, and lanes of which none does. -/
theorem witness_brc_taken : Runs (unitG fun x => { x with s := [1] }) (brc (sr 0)) fun is =>
    ∃ l, is.act.getLsbD l = true ∧ (cell (((unitG fun x => { x with s := [1] }).group is.g).run (sr 0)) 0 l != 0) = true :=
  runs (by decide +kernel) ⟨0, by decide +kernel⟩

theorem witness_brc_not_taken : Runs unit (brc (sr 0)) fun is => ∀ l, l < 32 → is.act.getLsbD l = true → cell ((unit.group is.g).run (sr 0)) 0 l = 0 :=
  runs (by decide +kernel) (by decide +kernel)

/-- IndirectTransfers: every target good, and lane 0 with a bad one. -/
theorem witness_return_good : Runs unit .retShort fun is => ∀ l, l < 32 → is.act.getLsbD l = true →
    (getAt 0 ((unit.group is.g).regRow ⟨.s, 62, 0⟩ 0) l).toNat = 0 := runs (by decide +kernel) (by decide +kernel)

theorem witness_return_bad : Runs (unitG fun x => { x with s := setAt 0 [] 62 (2 ^ 57) }) .retShort fun is =>
    is.act.getLsbD 0 = true ∧ ¬ (getAt 0 (((unitG fun x => { x with s := setAt 0 [] 62 (2 ^ 57) }).group is.g).regRow ⟨.s, 62, 0⟩ 0) 0).toNat < 2 ^ 57 :=
  runs (by decide +kernel) (by decide +kernel)

/-- TrapEntryAndReturn, TrapAndReturnRows: a group outside a handler with one enabled, one inside a handler, one with none enabled. -/
theorem witness_handler : 0 < unit.groups.length ∧ (unit.group 0).inh = false ∧ wfield (unit.team 0).vec 0 1 = 1 ∧ Memory.wf unit.mem = true ∧
    ((unitG fun x => { x with inh := true }).group 0).inh = true ∧ wfield ((unitT fun t => { t with vec := 0 }).team 0).vec 0 1 = 0 := by
  decide +kernel

/-- A handler entered by TRAP at 0x1000. -/
def inHandler : State := enterTrap unit 0 ⟨0x0F, 0xFFFFFFFF, 5⟩ 2 false 0x1000

theorem witness_tret : Runs inHandler (.tret (full (vr 0) (vr 0) (.reg (vr 0)) 1 0 0)) fun is => (inHandler.group is.g).frozen = [] ∧
    (0 < (inHandler.group is.g).lanes.length ∧ ((inHandler.group is.g).lane 0).x = false ∧
      (getAt {} (inHandler.group is.g).frame.spcv 0).x = false) ∧ (getAt {} (inHandler.group is.g).frame.spcv 0).p = false :=
  runs (by decide +kernel) (by decide +kernel)

def rgrow (n : BitVec 12) : Instr := .rgrow (full (vr 0) (vr 0) (.imm n) 0 0 0)
/-- A group of bound 8 alone on its core, and one beside a group that holds every other row. -/
def small : State := unitG fun x => { x with vbound := 8, vres := 8 }
def crowded : State :=
  let s : State := { small with groups := small.groups ++ (List.range 4).map fun k =>
    { team := 0, idx := k + 1, slot := k + 1, vbase := 8 + 254 * k, vbound := 254, vres := 254 } }
  let t := s.team 0
  let c := s.core 0
  (s.setTeam 0 { t with groups := List.range 5 }).setCore 0 { c with groups := (List.range 5).map some }

/-- BoundsFetchAndShootdownRows: the bounds 0 and 256 and one beyond 256, a bound that is met in place, one that finds its rows above the
run, and one that finds no room. -/
theorem witness_bounds : Runs unit (rgrow 0) (fun _ => True) ∧ Runs unit (rgrow 256) (fun is => (unit.group is.g).vbound = 256) ∧
    Runs unit (rgrow 257) (fun _ => True) :=
  ⟨runs (by decide +kernel) trivial, runs (by decide +kernel) (by decide +kernel), runs (by decide +kernel) trivial⟩

theorem witness_grow : Runs small (rgrow 256) (fun is =>
      (small.group is.g).vbound < 256 ∧ runFree (rowsUsed small 0) ((small.group is.g).vbase + (small.group is.g).vres) (256 - 8) = true) ∧
    Runs crowded (rgrow 9) (fun is => (crowded.group is.g).vbound < 9 ∧ (growNow (issued crowded (rgrow 9) is) is.g 9).isNone = true) :=
  ⟨runs (by decide +kernel) (by decide +kernel), runs (by decide +kernel) (by decide +kernel)⟩

theorem witness_shrink : ∀ n ∈ [0, 1, 256, 257], Runs unit (.rshrink (full (vr 0) (vr 0) (.imm n) 0 0 0)) fun _ => True := fun n hn =>
  runs ((List.all_eq_true (p := fun n => readyB unit (.rshrink (full (vr 0) (vr 0) (.imm n) 0 0 0)))).mp (by decide +kernel) n hn) trivial

def tlbinv (b : Reg) (xm : BitVec 3) : Instr := .tlbinv (full (vr 0) b (.reg (vr 0)) xm 0 0)

theorem witness_tlbinv : ∀ va ∈ [2 ^ 57, 2 ^ 57 - 4], Runs (unitG fun x => { x with s := [va] }) (tlbinv (sr 0) 0) fun _ => True := fun va hv =>
  runs ((List.all_eq_true (p := fun va => readyB (unitG fun x => { x with s := [va] }) (tlbinv (sr 0) 0))).mp (by decide +kernel) va hv) trivial

theorem witness_tlbinv_all : Runs unit (tlbinv (vr 0) 1) fun _ => True := runs (by decide +kernel) trivial

-- Logged rows -------------------------------------------------------------------------------------------------------------------------

/-- An access that passes, read off its outcome. -/
def okOf {ε β : Type} : Except ε β → Option β
  | .ok b => some b
  | .error _ => none

theorem ok_of {α β ε : Type} {p : α × Except ε β} {Q : α → β → Prop} (b : β) (h : okOf p.2 = some b) (q : Q p.1 b) :
    ∃ a b, p = (a, .ok b) ∧ Q a b := by
  refine ⟨p.1, b, ?_, q⟩
  obtain ⟨x, y⟩ := p
  cases y with
  | ok c => simp only [okOf, Option.some.injEq] at h; rw [h]
  | error e => simp [okOf] at h

/-- How a logged instruction comes out. -/
def outcome : Perf → Nat
  | .done _ => 0
  | .wait _ _ _ => 1
  | .trap _ _ _ => 2
  | .fault _ _ _ _ _ _ => 3
  | .nondet _ _ => 4
  | .poison _ _ => 5

theorem done_of {p : Perf} (h : outcome p = 0) : ∃ u, p = .done u := by cases p <;> simp_all [outcome]
theorem wait_of {p : Perf} (h : outcome p = 1) : ∃ u w e, p = .wait u w e := by cases p <;> simp_all [outcome]
theorem trap_of {p : Perf} (h : outcome p = 2) : ∃ u c e, p = .trap u c e := by cases p <;> simp_all [outcome]
theorem nondet_of {p : Perf} (h : outcome p = 4) : ∃ u c, p = .nondet u c := by cases p <;> simp_all [outcome]
theorem poison_of {p : Perf} (h : outcome p = 5) : ∃ u a, p = .poison u a := by cases p <;> simp_all [outcome]

/-- V1 holds one value in every lane, S2 another. -/
def regs (v s : Word) : State := unitG fun x => { x with v := [[], List.replicate 32 v], s := [0, 0, s] }

/-- A load of n64 into V1 at S2 + 16, of the whole group to one address, and a store of V1. -/
def ldF : Full := full (vr 1) (sr 2) (.imm 16) 0 0 0
def ldaF : Full := { ldF with xm := 5 }

/-- LoggedOutcomes: a load that is done, one that is not aligned, one of poison, a watch that waits, a matrix row that is foreign. -/
theorem witness_done : Runs (regs 0 0) (.ld ldF) fun is => ∃ u, performEntry is.g (entryOf (regs 0 0) (.ld ldF) ldF is) (entered (regs 0 0) (.ld ldF) ldF is) = .done u :=
  runs (by decide +kernel) (done_of (by decide +kernel))

theorem witness_trap : Runs (regs 0 4) (.ld ldF) fun is =>
    ∃ u c e, performEntry is.g (entryOf (regs 0 4) (.ld ldF) ldF is) (entered (regs 0 4) (.ld ldF) ldF is) = .trap u c e :=
  runs (by decide +kernel) (trap_of (by decide +kernel))

def poisoned : State := { regs 0 0 with poison := [0] }

theorem witness_poison : Runs poisoned (.ld ldF) fun is =>
    ∃ u a, performEntry is.g (entryOf poisoned (.ld ldF) ldF is) (entered poisoned (.ld ldF) ldF is) = .poison u a :=
  runs (by decide +kernel) (poison_of (by decide +kernel))

def mwaitF : Full := full (vr 0) (vr 0) (.reg (vr 0)) 0 0 0
def watching : State := unitG fun x => { x with watch := some ⟨0x80, 0x80, 0, 0⟩ }
/-- The same after a write to the watched line. -/
def written : State := { watching with writes := [⟨0x84, 0, 0x84, 1, 0, .host, 0, [], [], none⟩] }

theorem witness_wait : Runs watching (.mwait mwaitF) fun is =>
    ∃ u w e, performEntry is.g (entryOf watching (.mwait mwaitF) mwaitF is) (entered watching (.mwait mwaitF) mwaitF is) = .wait u w e :=
  runs (by decide +kernel) (wait_of (by decide +kernel))

def foreign : State :=
  let s := unitC fun c => { c with holder := some 0, array := { c.array with hf := 1 } }
  s.setTeam 0 { s.team 0 with det := true }
def mhrdF (n : BitVec 12) : Full := full (vr 3) (vr 0) (.imm n) 0 0 0

theorem witness_nondet : Runs foreign (.mhrd (mhrdF 0)) fun is => ∃ u c,
    performEntry is.g (entryOf foreign (.mhrd (mhrdF 0)) (mhrdF 0) is) (entered foreign (.mhrd (mhrdF 0)) (mhrdF 0) is) = .nondet u c :=
  runs (by decide +kernel) (nondet_of (by decide +kernel))

/-- Loads: the checked access of a plain load, of a load of constants, of an acquire load. -/
theorem witness_loads : ∀ p ∈ [(Instr.ld ldF, ldF), (.ldc ldF, ldF), (.ld ldaF, ldaF)], Runs (regs 0 0) p.1 fun is => ∃ u l,
    checked (entered (regs 0 0) p.1 p.2 is) is.g (entryOf (regs 0 0) p.1 p.2 is) .load (accessSize p.2)
      (globalLanes (entryOf (regs 0 0) p.1 p.2 is) p.2.d) = (u, .ok l) ∧
    ∀ q ∈ nonHelpers (entryOf (regs 0 0) p.1 p.2 is) l, poisonPieces u q.2.2 = none := by
  intro p hp
  fin_cases hp <;> exact runs (by decide +kernel)
    (ok_of ((List.range 32).map fun k => (k, 16, [⟨16, 16, 8, 0⟩])) (by decide +kernel) (by decide +kernel))

/-- Stores: one lane's store that ends with the last byte of the window, plain and released. -/
def oneLane (s : State) : State := s.setGroup 0 { s.group 0 with p := [1, 1] }
def stF (xm : BitVec 3) : Full := { full (vr 1) (sr 2) (.imm 0) xm 0 0 with ctl := ⟨0, false, 1⟩ }
def storing : State := oneLane (regs 7 0x1FFFF8)

theorem witness_stores : ∀ f ∈ [stF 0, stF 5], Runs storing (.st f) fun is => ∃ u l,
    checked (entered storing (.st f) f is) is.g (entryOf storing (.st f) f is) .store (accessSize f)
      (globalLanes (entryOf storing (.st f) f is) f.d) = (u, .ok l) ∧
    nonHelpers (entryOf storing (.st f) f is) l = [(0, 0x1FFFF8, [⟨0x1FFFF8, 0x1FFFF8, 8, 0⟩])] ∧ (storeValue f (entryOf storing (.st f) f is) 0).length = 8 := by
  intro p hp
  fin_cases hp <;> exact runs (by decide +kernel) (ok_of [(0, 0x1FFFF8, [⟨0x1FFFF8, 0x1FFFF8, 8, 0⟩])] (by decide +kernel) (by decide +kernel))

-- More hypotheses on the rows of control flow and the system ---------------------------------------------------------------------------

/-- ConversionsAndDotProducts: rationals and whole logs that a conversion to an integer rounds, and IEEE codes of every class. -/
theorem witness_conversion : (0 < 5 ∧ 0 < 2 ∧ 0 < 8 ∧ 8 ≤ 64 ∧ (1 : Nat) < 2) ∧
    let f := ifmtOf 12
    f.inf = true ∧ f.nan = true ∧ ∀ p ∈ [(0, 0, 0), (1, 0, 1), (2 ^ f.mb, 1, 0), ((2 ^ f.eb - 1) * 2 ^ f.mb, 2 ^ f.eb - 1, 0)],
      p.1 / 2 ^ f.mb % 2 ^ f.eb = p.2.1 ∧ p.1 % 2 ^ f.mb = p.2.2 := by decide +kernel

/-- JoinWaitExitNop: lanes that all exit, with the baton and without it, and lanes of which one stays; a join register met and not met. -/
theorem witness_exit : ∀ s ∈ [unit, unitC fun c => { c with holder := some 0, queue := [1] }], Runs s .exitShort fun is =>
    ∀ l, l < 32 → is.act.getLsbD l = true := by
  intro s hs
  fin_cases hs <;> exact runs (by decide +kernel) (by decide +kernel)

def apart : State := unitG fun x => { x with lanes := setAt {} x.lanes 31 { pc := 0x2000 } }

theorem witness_exit_stays : Runs apart .exitShort fun is => is.act.getLsbD 31 = false ∧ ((apart.group 0).lane 31).x = false :=
  runs (by decide +kernel) (by decide +kernel)

def waitF : Full := full ⟨.v, 1, 0⟩ (vr 0) (.reg (vr 0)) 0 0 0

theorem witness_wait_join : Runs unit (.wait waitF) (fun _ => ∀ l, l < 32 → (getAt 0 (unit.group 0).j 1).getLsbD l = false) ∧
    Runs (apart.setGroup 0 { apart.group 0 with j := [0, 0xFFFFFFFF] }) (.wait waitF) fun is => is.act.getLsbD 31 = false :=
  ⟨runs (by decide +kernel) (by decide +kernel), runs (by decide +kernel) (by decide +kernel)⟩

/-- TrapEntryAndReturn: PCV and the last join register fail parity. -/
theorem witness_entry_parity : ((unitG fun x => { x with pcvBad := true }).group 0).pcvBad = true ∧ (unit.group 0).pcvBad = false ∧
    (Res.j 3, 0) ∈ ((unitG fun x => { x with vbad := [(.j 3, 0)] }).group 0).vbad := by decide +kernel

/-- TrapAndReturnRows: TRAP in a group whose handler is enabled. -/
theorem witness_trap_row : Runs unit (.trap (full (vr 0) (vr 0) (.imm 4095) 0 0 0)) fun is => (unit.group is.g).inh = false ∧
    wfield (unit.team (unit.group is.g).team).vec 0 1 = 1 ∧ (unit.group is.g).vbad = [] := runs (by decide +kernel) (by decide +kernel)

/-- SystemRegisterRows: each register that SYSWR writes, in a handler for the frame's. -/
theorem witness_syswr : Runs unit (.syswr (full (vr 0) (sr 1) (.imm 0) 0 0 0)) (fun _ => True) ∧
    Runs unit (.syswr (full (vr 0) (sr 1) (.imm 0x20) 0 0 0)) (fun _ => True) ∧
    Runs inHandler (.syswr (full (vr 0) (vr 1) (.imm 0x14) 0 0 0)) (fun _ => True) ∧
    Runs inHandler (.syswr (full (vr 0) (sr 1) (.imm 0x18) 0 0 0)) (fun _ => True) :=
  ⟨runs (by decide +kernel) trivial, runs (by decide +kernel) trivial, runs (by decide +kernel) trivial, runs (by decide +kernel) trivial⟩

/-- BoundsFetchAndShootdownRows: a grow that finds its rows above the run, one that finds them elsewhere, one that finds none, and a trace
record that goes to a ring of 4 KiB. -/
def beside : State :=
  let s : State := { small with groups := small.groups ++ [{ team := 0, idx := 1, slot := 1, vbase := 8, vbound := 8, vres := 8 }] }
  let t := s.team 0
  let c := s.core 0
  (s.setTeam 0 { t with groups := [0, 1] }).setCore 0 { c with groups := [some 0, some 1] }

theorem witness_grow_places :
    Runs small (rgrow 256) (fun is => (small.group is.g).vbound < 256 ∧
      runFree (rowsUsed small 0) ((small.group is.g).vbase + (small.group is.g).vres) (256 - (small.group is.g).vres) = true) ∧
    Runs beside (rgrow 9) (fun is => (beside.group is.g).vbound < 9 ∧
      runFree (rowsUsed beside 0) ((beside.group is.g).vbase + (beside.group is.g).vres) (9 - (beside.group is.g).vres) ≠ true ∧
      16 + 9 ≤ 1024 ∧ runFree (rowsUsed beside 0) 16 9 = true) ∧
    Runs crowded (rgrow 9) (fun is => (crowded.group is.g).vbound < 9 ∧ 1024 < 9 + ((rowsUsed crowded 0).map (·.2)).sum ∧
      ∀ b, b < 1024 → b + 9 ≤ 1024 → runFree (rowsUsed crowded 0) b 9 = false) :=
  ⟨runs (by decide +kernel) (by decide +kernel), runs (by decide +kernel) (by decide +kernel), runs (by decide +kernel) (by decide +kernel)⟩

def tracing : State := { unit with dev := { unit.dev with trace := BitVec.ofNat 64 (1 + 12 * 2 ^ 7 + 0x40 * 2 ^ 12), trctx := 1 } }

theorem witness_tracemark : Runs tracing (.tracemark (full (vr 0) (vr 0) (.imm 7) 0 0 0)) fun is => wfield tracing.dev.rback 0 1 = 0 ∧
    wfield tracing.dev.trace 0 1 = 1 ∧ wfield tracing.dev.trace 7 5 = 12 ∧ wfield tracing.dev.trace 1 2 < 3 ∧
    tracing.dev.trctx.getLsbD (tracing.team (tracing.group is.g).team).ctx = true ∧ (tracing.ctx 0).sealed = false ∧
    localRange tracing.dev (wfield tracing.dev.trace 12 40 * 4096 + 32 * (tracing.dev.twidx % 2 ^ 7)) 32 = true :=
  runs (by decide +kernel) (by decide +kernel)

-- Hypotheses of the statements on accesses ---------------------------------------------------------------------------------------------

/-- Words in memory. -/
def putWords (s : State) (a : Nat) (l : List Nat) : State := { s with mem := memWrite s.mem a (l.flatMap (toBytes 8)) }

/-- Page tables that map the low 1 GiB to itself for reading, writing and fetching, a work table at 0x10000, every cluster, and the heap
window of the command unit. -/
def work : State :=
  let s := putWords (putWords (putWords unit 0x100000 [0x101001]) 0x101000 [0x102001]) 0x102000 [15]
  s.setCtx 0 { s.ctx 0 with worktab := 0x10001, part := BitVec.allOnes 64, heapbase := 1, heaplen := 0x200001, ptroot := 0x100001 }

theorem fault_of {p : Perf} {q : State → Entry → List MemFault → Bool → Bool → Bool}
    (h : (match p with | .fault u e l _ wr n => q u e l wr n | _ => false) = true) :
    ∃ u e l k wr n, p = .fault u e l k wr n ∧ q u e l wr n = true := by
  cases p with
  | fault u e l k wr n => exact ⟨u, e, l, k, wr, n, rfl, h⟩
  | _ => simp at h

/-- A context whose fault queue is usable, with room and without. -/
def withFaults (s : State) (head : BitVec 32) : State :=
  s.setCtx 0 { s.ctx 0 with faultq := BitVec.ofNat 64 (0x20000 + 32 + 4), fqHead := head }

/-- LoggedOutcomes: a load whose page has no entry, of a context that takes the fault at once, and of one whose queue is full. -/
theorem witness_fault : ∀ p ∈ [(regs 0 (2 ^ 31), false), (withFaults (regs 0 (2 ^ 31)) 16, true)], Runs p.1 (.ld ldF) fun is =>
    ∃ u e l k wr n, performEntry is.g (entryOf p.1 (.ld ldF) ldF is) (entered p.1 (.ld ldF) ldF is) = .fault u e l k wr n ∧
      (e.addr == is.a && e.len == is.len && (report u 0 0 0 0 is.a wr n l).2.isSome == p.2) = true := by
  intro p hp
  fin_cases hp <;> exact runs (by decide +kernel) (fault_of (by decide +kernel))

/-- The same: a queue of the least and of the greatest size, one too small, one record that finds room. -/
theorem witness_report : (∀ n ∈ [4, 16], wfield (BitVec.ofNat 64 (32 + n)) 5 1 = 1 ∧ 4 ≤ wfield (BitVec.ofNat 64 (32 + n)) 0 5 ∧
      wfield (BitVec.ofNat 64 (32 + n)) 0 5 ≤ 16) ∧ ¬ 4 ≤ wfield (BitVec.ofNat 64 (32 + 3)) 0 5 ∧
    let s := withFaults work 0
    (s.ctx 0).records = [] ∧ ((s.ctx 0).fqHead - (s.ctx 0).fqTail).toNat ≠ 16 ∧ 0 < s.ctxs.length ∧ Memory.wf s.mem = true ∧
    okOf (checkAccess s { ctx := 0, heap := none, need := .store, va := 0x20000, n := 32 }).2 = some [⟨0x20000, 0x20000, 32, 30⟩] := by
  decide +kernel

/-- Two faults of one lane each, the lower lane first. -/
theorem witness_fault_lanes : let l : List MemFault := [⟨3, 1, 0x5008, 0x5000⟩, ⟨9, 2, 0x7000, 0x7000⟩]
    l ≠ [] ∧ (∀ f ∈ l, f.kind < 3) ∧ (⟨3, 1, 0x5008, 0x5000⟩ : MemFault) ∈ l ∧ ∀ h ∈ l, h ≠ ⟨3, 1, 0x5008, 0x5000⟩ → 3 < h.lane := by
  decide +kernel

/-- Loads, Stores: every lane's access ends with the last byte of the window. -/
theorem in_window {s : State} {t n k : Nat} {l : List (Nat × Nat)} (h : ∀ p ∈ l, p.2 % k = 0 ∧ InWindow s t p.2 n p.2) :
    ∀ p ∈ l, p.2 % k = 0 ∧ ∃ pa, InWindow s t p.2 n pa := fun p hp => ⟨(h p hp).1, p.2, (h p hp).2⟩

theorem witness_load_window : ∀ i ∈ [Instr.ld ldF, .ldc ldF, .st ldF], Runs (regs 0 0x1FFFE8) i fun is => (regs 0 0x1FFFE8).poison = [] ∧
    ∀ p ∈ globalLanes (entryOf (regs 0 0x1FFFE8) i ldF is) ldF.d, p.2 % min (accessSize ldF) 16 = 0 ∧
      ∃ pa, InWindow (regs 0 0x1FFFE8) 0 p.2 (accessSize ldF) pa := by
  intro i hi
  fin_cases hi <;> exact runs (by decide +kernel) ⟨rfl, in_window (by unfold InWindow HeapHolds; decide +kernel)⟩

/-- Loads, Stores: a lane whose address is not aligned. -/
theorem witness_misaligned : ∀ i ∈ [Instr.ld ldF, .ldc ldF, .st ldF], Runs (regs 0 4) i fun is =>
    ((globalLanes (entryOf (regs 0 4) i ldF is) ldF.d).filter fun p => !is.help.getLsbD p.1 && p.2 % min (accessSize ldF) 16 != 0).length = 32 := by
  intro i hi
  fin_cases hi <;> exact runs (by decide +kernel) (by decide +kernel)

/-- Loads, the translation: a 1 GiB page, and a 64 KiB page by its head entry, with nothing cached. -/
def paged : State := putWords (putWords (putWords work 0x102000 [0x103001]) 0x103000 [0x104001]) 0x104000 [0x1001B]

def tables : Nat → Nat
  | 4 => 0x100000
  | 3 => 0x101000
  | 2 => 0x102000
  | 1 => 0x103000
  | _ => 0x104000

theorem witness_walk : ∀ p ∈ [(work, 2, 0x12345678, 15), (paged, 0, 0x5FF8, 0x1001B)],
    let s : State := p.1
    let entry := fun k i => memNat s.mem (homeAddr s.dev (tables k) + 8 * i) 8
    let idx := fun k => p.2.2.1 / 2 ^ (12 + 9 * k) % 512
    let i := if p.2.1 = 0 ∧ entry 0 (idx 0 / 16 * 16) / 16 % 2 = 1 then idx 0 / 16 * 16 else idx p.2.1
    cachedFor s 0 none = ([], []) ∧ wfield (s.ctx 0).ptroot 0 1 = 1 ∧ tables 4 = wfield (s.ctx 0).ptroot 12 40 * 4096 ∧
    (∀ k, k < 5 → p.2.1 < k → localRange s.dev (tables k) 4096 = true ∧ poisonIn s (homeAddr s.dev (tables k) + 8 * idx k) 8 = none ∧
      entry k (idx k) % 2 = 1 ∧ entry k (idx k) / 2 ^ 52 % 2 ^ 12 = 0 ∧ entry k (idx k) / 2 ^ 5 % 2 ^ 7 = 0 ∧ entry k (idx k) / 8 % 2 = 0 ∧
      entry k (idx k) / 16 % 2 = 0 ∧ tables (k - 1) = entry k (idx k) / 2 ^ 12 % 2 ^ 40 * 4096) ∧
    localRange s.dev (tables p.2.1) 4096 = true ∧ entry p.2.1 i = p.2.2.2 ∧ poisonIn s (homeAddr s.dev (tables p.2.1) + 8 * i) 8 = none := by
  decide +kernel

/-- The same: entries of each class that a walk refuses. -/
theorem witness_classify : ∀ e ∈ [0, 2 ^ 52 + 1, 2 ^ 5 + 1, 2 ^ 12 + 9], e < 2 ^ 64 ∧ (e % 2 = 0 ∨ e / 2 ^ 52 ≠ 0 ∨ e / 2 ^ 5 % 2 ^ 7 ≠ 0 ∨
    (e / 8 % 2 = 1 ∧ e / 2 ^ 12 % 2 ^ 40 * 4096 % 2 ^ 30 ≠ 0)) := by decide +kernel

/-- Loads: an acquire load that finds the current write of its word synchronising, with a release that pairs. -/
def released : State :=
  { regs 0 0 with
    rels := [{ party := .grp 1, scope := .device, acts := .ambient 0, know := [], cov := [] }],
    writes := [⟨16, 0, 16, 0, 0, .grp 1, 2, [], [], some (.device, [0])⟩] }

theorem witness_acquire : Runs released (.ld ldaF) fun is => winner none (writesTo released 16) = some (0, ⟨16, 0, 16, 0, 0, .grp 1, 2, [], [], some (.device, [0])⟩) ∧
    (is.g = 0) := runs (by decide +kernel) (by decide +kernel)

/-- Loads, the check of one lane's access: aligned and held by the window; not aligned; outside every page. -/
theorem witness_checked : let a := fun va => teamAccess unit 0 .load va 8
    (okOf (checkAccess unit (a 0x1FFFF8)).2).isSome = true ∧ (okOf (checkAccess unit (a 0x200000)).2).isSome = false ∧
    (okOf (checkAccess unit (a (2 ^ 57))).2).isSome = false ∧ 4 % min 8 16 ≠ 0 := by decide +kernel

theorem row_of {α β ε : Type} {p : α × Except ε β} (h : (okOf p.2).isSome = true) : ∃ b a, p = (a, .ok b) := by
  obtain ⟨x, y⟩ := p
  cases y with
  | ok c => exact ⟨c, x, rfl⟩
  | error e => simp [okOf] at h

/-- ScratchpadRows: one lane's store that ends with the last byte of a scratchpad of 4 KiB, with and without .F, and a load there. -/
def stsF (xm : BitVec 3) : Full := { full (vr 1) (sr 2) (.imm 0) xm 0 0 with ctl := ⟨0, false, 1⟩ }
def spad : State := oneLane (regs 7 4088)

theorem witness_scratchpad : ∀ p ∈ [(Instr.lds (stsF 0), stsF 0), (.sts (stsF 0), stsF 0), (.sts (stsF 1), stsF 1)], Runs spad p.1 fun is =>
    okOf (spadChecked (entered spad p.1 p.2 is) is.g (entryOf spad p.1 p.2 is) (accessSize p.2) (spadLanes (entryOf spad p.1 p.2 is) p.2.d)) =
      some [(0, 0, 4088)] ∧ is.help.getLsbD 0 = false ∧ spadPoison (spad.team 0) 4088 8 = false := by
  intro p hp
  fin_cases hp <;> exact runs (by decide +kernel) (by decide +kernel)

/-- MonitorAndWait: a byte whose check passes; no watch, a watch that was hit, one that was not. -/
def monF : Full := full (vr 0) (sr 2) (.imm 0) 0 0 0

theorem witness_monitor : Runs (regs 0 0x1FFFFF) (.monitor monF) fun is => ∃ u l,
    checked (entered (regs 0 0x1FFFFF) (.monitor monF) monF is) is.g (entryOf (regs 0 0x1FFFFF) (.monitor monF) monF is) .load 1
      [((entryOf (regs 0 0x1FFFFF) (.monitor monF) monF is).low, 0x1FFFFF)] = (u, .ok l) ∧ l = [(0, 0x1FFFFF, [⟨0x1FFFFF, 0x1FFFFF, 1, 0⟩])] ∧
    is.help.getLsbD 0 = false :=
  runs (by decide +kernel) (ok_of [(0, 0x1FFFFF, [⟨0x1FFFFF, 0x1FFFFF, 1, 0⟩])] (by decide +kernel) (by decide +kernel))

theorem witness_mwait : Runs unit (.mwait mwaitF) (fun is => (unit.group is.g).watch = none) ∧
    Runs written (.mwait mwaitF) (fun is => (written.group is.g).watch = some ⟨0x80, 0x80, 0, 0⟩ ∧ watchHit written 0x80 0 = true) ∧
    Runs watching (.mwait mwaitF) (fun is => (watching.group is.g).watch = some ⟨0x80, 0x80, 0, 0⟩ ∧ watchHit watching 0x80 0 = false) :=
  ⟨runs (by decide +kernel) (by decide +kernel), runs (by decide +kernel) (by decide +kernel), runs (by decide +kernel) (by decide +kernel)⟩

/-- Atomics: one lane's exchange with and without return, and an addition of l32, at relaxed order and system scope. -/
def atomF (c : BitVec 12) (xm : BitVec 3) (ty : BitVec 5) : Full := { full (vr 1) (vr 3) (.imm c) xm ty 0 with ctl := ⟨0, false, 1⟩ }
def atomic : State := (oneLane unit).setGroup 0 { (oneLane unit).group 0 with v := [[], [7], [], [0x1FFFFC]] }

theorem witness_atomics : ∀ f ∈ [atomF 5 6 1, atomF 0x25 6 1, atomF 5 0 8], Runs atomic (.atom f) fun is => (∃ u l,
    checked (entered atomic (.atom f) f is) is.g (entryOf atomic (.atom f) f is) .store 4
      (((entryOf atomic (.atom f) f is).accessLanes f.d).map fun n => (n, ((entryOf atomic (.atom f) f is).bv n).toNat)) = (u, .ok l) ∧
    l = [(0, 0x1FFFFC, [⟨0x1FFFFC, 0x1FFFFC, 4, 0⟩])] ∧ poisonPieces u [⟨0x1FFFFC, 0x1FFFFC, 4, 0⟩] = none) ∧ is.help.getLsbD 0 = false ∧
    f.c.immNat / 8 % 4 = 0 ∧ isHost 0x1FFFFC = false ∧ wfield atomic.dev.trace 0 1 = 0 := by
  intro p hp
  fin_cases hp <;> exact runs (by decide +kernel)
    ⟨ok_of [(0, 0x1FFFFC, [⟨0x1FFFFC, 0x1FFFFC, 4, 0⟩])] (by decide +kernel) (by decide +kernel), by decide +kernel⟩

/-- OrderedAccumulation: an aligned header in local memory, and the contribution that the home L2 then takes. -/
def aaccF : Full := full (vr 1) (sr 2) (.reg (sr 3)) 0 8 0
def header (s : State) : State := { s with mem := memPut s.mem 0 8 0x80 }
def accumulate : State := header (regs 0 0)

theorem witness_aacc : Runs accumulate (.aaccO aaccF) fun is => ((entryOf accumulate (.aaccO aaccF) aaccF is).bv 0).toNat % 64 = 0 ∧ (∃ u l,
    checked (entered accumulate (.aaccO aaccF) aaccF is) is.g { entryOf accumulate (.aaccO aaccF) aaccF is with helper := 0 } .store 64
      [((entryOf accumulate (.aaccO aaccF) aaccF is).low, 0)] = (u, .ok l) ∧ l = [(0, 0, [⟨0, 0, 64, 0⟩])]) ∧ localRange accumulate.dev 0 64 = true :=
  runs (by decide +kernel) ⟨by decide +kernel, ok_of [(0, 0, [⟨0, 0, 64, 0⟩])] (by decide +kernel) (by decide +kernel), by decide +kernel⟩

/-- ScratchpadRows: granule 255 full and empty, with .WF and .WFC; a waiter there whom a store with .F serves; a place that is not
aligned, and one past the end. -/
def spadF (full_ : Bool) : State := spad.setTeam 0 { spad.team 0 with fbits := if full_ then [255] else [] }

theorem witness_wait_full : ∀ p ∈ [(1, true), (2, true), (1, false), (2, false)], Runs (spadF p.2) (.lds (stsF p.1)) fun is =>
    okOf (spadChecked (entered (spadF p.2) (.lds (stsF p.1)) (stsF p.1) is) is.g (entryOf (spadF p.2) (.lds (stsF p.1)) (stsF p.1) is)
      (accessSize (stsF p.1)) (spadLanes (entryOf (spadF p.2) (.lds (stsF p.1)) (stsF p.1) is) (stsF p.1).d)) = some [(0, 0, 4088)] ∧
    is.help.getLsbD 0 = false ∧ spadPoison ((spadF p.2).team 0) 4088 8 = false ∧ ((spadF p.2).team 0).waiters = [] ∧
    (4088 / 16 ∈ ((spadF p.2).team 0).fbits ↔ p.2 = true) := by
  intro p hp
  fin_cases hp <;> exact runs (by decide +kernel) (by decide +kernel)

/-- A second group whose LDS.WFC waits on granule 255. -/
def waiting : State :=
  let e : Entry :=
    { instr := .lds (stsF 2), addr := 0x1000, len := 8, lanes := 1, act := 1, helper := 0
      b := [List.replicate 32 4088], c := [], d := [], r := [] }
  let s : State := { spadF false with groups := spad.groups ++ [{ team := 0, idx := 1, lanes := List.replicate 32 {}, wait := .spad, log := [e] }] }
  s.setTeam 0 { s.team 0 with groups := [0, 1], waiters := [⟨1, 0, 255⟩] }

theorem witness_served : Runs waiting (.sts (stsF 1)) fun is => is.g ≠ 1 ∧ 1 < waiting.groups.length ∧
    okOf (spadChecked (entered waiting (.sts (stsF 1)) (stsF 1) is) is.g (entryOf waiting (.sts (stsF 1)) (stsF 1) is) 8
      (spadLanes (entryOf waiting (.sts (stsF 1)) (stsF 1) is) (stsF 1).d)) = some [(0, 0, 4088)] ∧ (waiting.team 0).sppois = [] ∧
    (waiting.team 0).waiters = [⟨1, 0, 4088 / 16⟩] ∧ Memory.wf (waiting.team 0).spad = true ∧
    ((waiting.group 1).log.map fun e => spadTarget waiting 0 ((e.bv 0 + e.cv 0).toNat % 2 ^ 32) 8) = [some (0, 4088)] :=
  runs (by decide +kernel) (by decide +kernel)

theorem witness_spad_traps : ∀ n ∈ [4, 4096], Runs (oneLane (regs 7 n)) (.lds (stsF 0)) fun is =>
    let own := (spadLanes (entryOf (oneLane (regs 7 n)) (.lds (stsF 0)) (stsF 0) is) (stsF 0).d).filter fun p => !is.help.getLsbD p.1
    (own.filter fun p => p.2 % 8 != 0).length = (if n = 4 then 1 else 0) ∧
    (own.filter fun p => (spadTarget (oneLane (regs 7 n)) 0 p.2 8).isNone).length = (if n = 4 then 0 else 1) := by
  intro n hn
  fin_cases hn <;> exact runs (by decide +kernel) (by decide +kernel)

/-- MonitorAndWait: the last byte of the window, and a group of helper lanes. -/
def helpers : State := unitG fun x => { x with lanes := x.lanes.map fun l => { l with h := true } }

theorem witness_monitor_window : Runs (regs 0 0x1FFFFF) (.monitor monF) fun is => is.act.getLsbD 0 = true ∧ is.help.getLsbD 0 = false ∧
    ((cell (entryOf (regs 0 0x1FFFFF) (.monitor monF) monF is).b 0 0).toNat + (cell (entryOf (regs 0 0x1FFFFF) (.monitor monF) monF is).c 0 0).toNat) % 2 ^ 64 =
      0x1FFFFF ∧ InWindow (regs 0 0x1FFFFF) 0 0x1FFFFF 1 0x1FFFFF :=
  runs (by decide +kernel) (by unfold InWindow HeapHolds; decide +kernel)

theorem witness_helpers_alone : ∀ i ∈ [Instr.monitor monF, .cpyq monF, .abinit { monF with c := .imm 1 }, .abwait { monF with c := .reg (sr 3) },
    .tcpy { monF with c := .reg (sr 3) }], Runs helpers i fun is => is.act &&& ~~~is.help = 0 := by
  intro i hi
  fin_cases hi <;> exact runs (by decide +kernel) (by decide +kernel)

/-- Atomics: two lanes of one word, in the window; a lane that is not aligned; a lane in host memory. -/
def bothLanes : State := (unitG fun x => { x with p := [3, 3], v := [[], List.replicate 32 7, [], List.replicate 32 0x1FFFFC] })

theorem witness_two_lanes : Runs bothLanes (.atom (atomF 5 6 1)) fun is => ∃ u l,
    checked (entered bothLanes (.atom (atomF 5 6 1)) (atomF 5 6 1) is) is.g (entryOf bothLanes (.atom (atomF 5 6 1)) (atomF 5 6 1) is) .store 4
      (((entryOf bothLanes (.atom (atomF 5 6 1)) (atomF 5 6 1) is).accessLanes (atomF 5 6 1).d).map fun n =>
        (n, (cell (entryOf bothLanes (.atom (atomF 5 6 1)) (atomF 5 6 1) is).b 0 n).toNat)) = (u, .ok l) ∧
    (l = [(0, 0x1FFFFC, [⟨0x1FFFFC, 0x1FFFFC, 4, 0⟩]), (1, 0x1FFFFC, [⟨0x1FFFFC, 0x1FFFFC, 4, 0⟩])] ∧ is.help = 0 ∧ bothLanes.writes = [] ∧
      poisonPieces u [⟨0x1FFFFC, 0x1FFFFC, 4, 0⟩] = none) :=
  runs (by decide +kernel) (ok_of [(0, 0x1FFFFC, [⟨0x1FFFFC, 0x1FFFFC, 4, 0⟩]), (1, 0x1FFFFC, [⟨0x1FFFFC, 0x1FFFFC, 4, 0⟩])] (by decide +kernel)
    (by decide +kernel))

theorem atom_window {s : State} {t n k : Nat} {l : List (Nat × Nat)} (h : ∀ p ∈ l, p.2 % k = 0 ∧ InWindow s t p.2 n p.2 ∧ p.2 < 0x800000000000) :
    ∀ p ∈ l, p.2 % k = 0 ∧ ∃ pa, InWindow s t p.2 n pa ∧ pa < 0x800000000000 := fun p hp => ⟨(h p hp).1, p.2, (h p hp).2⟩

theorem witness_atom_window : Runs atomic (.atom (atomF 5 6 1)) fun is => atomic.poison = [] ∧
    ∀ p ∈ ((entryOf atomic (.atom (atomF 5 6 1)) (atomF 5 6 1) is).accessLanes (atomF 5 6 1).d).map fun n =>
        (n, (cell (entryOf atomic (.atom (atomF 5 6 1)) (atomF 5 6 1) is).b 0 n).toNat),
      p.2 % 4 = 0 ∧ ∃ pa, InWindow atomic 0 p.2 4 pa ∧ pa < 0x800000000000 :=
  runs (by decide +kernel) ⟨rfl, atom_window (by unfold InWindow HeapHolds; decide +kernel)⟩

theorem witness_atom_misaligned : Runs (atomic.setGroup 0 { atomic.group 0 with v := [[], [7], [], [0x1FFFFE]] }) (.atom (atomF 5 6 1)) fun is =>
    is.act = 1 ∧ is.help = 0 ∧ 0x1FFFFE % 4 ≠ 0 := runs (by decide +kernel) (by decide +kernel)

/-- A context whose pages map the host's first GiB at 0, and an atomic operation there that the link lacks. -/
def hostPages : State := (putWords work 0x102000 [0x800000000000 + 15]).setTeam 0 { work.team 0 with heap := (0, 0, 0) }
def hostAtomic : State := hostPages.setGroup 0 { hostPages.group 0 with p := [1, 1], v := [[], [7], [], [0x1FFFFC]] }

theorem witness_atomsp : Runs hostAtomic (.atom (atomF 5 3 1)) fun is => ∃ u l,
    checked (entered hostAtomic (.atom (atomF 5 3 1)) (atomF 5 3 1) is) is.g (entryOf hostAtomic (.atom (atomF 5 3 1)) (atomF 5 3 1) is) .store 4
      (((entryOf hostAtomic (.atom (atomF 5 3 1)) (atomF 5 3 1) is).accessLanes (atomF 5 3 1).d).map fun n =>
        (n, (cell (entryOf hostAtomic (.atom (atomF 5 3 1)) (atomF 5 3 1) is).b 0 n).toNat)) = (u, .ok l) ∧
    (l = [(0, 0x1FFFFC, [⟨0x1FFFFC, 0x8000001FFFFC, 4, 30⟩])] ∧ isHost 0x8000001FFFFC = true ∧ is.help = 0) :=
  runs (by decide +kernel) (ok_of [(0, 0x1FFFFC, [⟨0x1FFFFC, 0x8000001FFFFC, 4, 30⟩])] (by decide +kernel) (by decide +kernel))

/-- S0 to S3 of the group, and words at the head of its team's scratchpad. -/
def scalars (s : State) (l : List Word) : State := s.setGroup 0 { s.group 0 with s := l }
def spadWords (s : State) (l : List Nat) : State := s.setTeam 0 { s.team 0 with spad := memWrite [] 0 (l.flatMap (toBytes 8)) }

/-- No ring and no backing rows: no byte of memory changes beside those stored. -/
theorem no_side {s : State} {g pa n : Nat} (h : wfield s.dev.trace 0 1 = 0) (h' : wfield s.dev.rback 0 1 = 0) : NoSide s g pa n := by
  rintro a (⟨h1, -⟩ | ⟨h1, -⟩) <;> omega

/-- No write has been made. -/
theorem home_next {s : State} {v : MemView} {pa n : Nat} (h : s.writes = []) (h' : v = {}) : HomeNextRange s v pa n := by
  intro word _ _ _
  simp [HomeNext, writesTo, h, h']

def accEntry : Entry :=
  { instr := .aaccO aaccF, addr := 0x1000, len := 8, lanes := 0xFFFFFFFF, act := 0xFFFFFFFF, helper := 0, b := [], c := [], d := [], r := [] }
def contributing (l : List Nat) (c : Word) : State :=
  let s := putWords unit 0 l
  s.setGroup 0 { s.group 0 with wait := .contrib, log := [{ accEntry with c := [List.replicate 32 c] }] }
def accWord (l : List Nat) (k : Nat) : Nat := memNat (contributing l 0).mem (8 * k) 8

/-- OrderedAccumulation, the home L2: the last key of an object, a key whose predecessor is still to come, and headers, keys and slots that
fail their checks. -/
theorem witness_contribution : ∀ p ∈ [([0, 1, 2 ^ 63, 0, 0x100, 0x200], (0 : Word), 0, 1), ([0, 2, 2 ^ 63 + 2 ^ 62, 0, 0x100, 0x200], 1, 1, 0)],
    (let s := contributing p.1 p.2.1
     0 < s.groups.length ∧ (s.group 0).wait = .contrib ∧ (s.group 0).ended = false ∧ s.dev.status ≠ 7 ∧ Memory.wf s.mem = true ∧ s.poison = [] ∧
       memNat s.mem 0x200 8 = 0) ∧
    (accWord p.1 2 / 2 ^ 63 = 1 ∧ accWord p.1 2 / 2 ^ 60 % 8 ≤ 4 ∧ accWord p.1 4 = 0x100 ∧ accWord p.1 5 = 0x200 ∧
      0 < accWord p.1 1 % 2 ^ 32 ∧ accWord p.1 1 % 2 ^ 32 ≤ 2) ∧
    (accWord p.1 0 / 2 ^ 32 ≤ p.2.2.2 ∧ (∀ k, k < p.2.2.2 → k = p.2.2.1) ∧ (accWord p.1 1 % 2 ^ 32 ≤ p.2.2.2 ∨ p.2.2.2 ≠ p.2.2.1)) := by
  decide +kernel

theorem witness_contribution_windows : ∀ p ∈ [([0, 1, 2 ^ 63, 0, 0x100, 0x200], (0 : Word)), ([0, 2, 2 ^ 63 + 2 ^ 62, 0, 0x100, 0x200], 1)],
    ∀ q ∈ [(0, 64), (0x100, 256), (0x200, 8)], InWindow (contributing p.1 p.2) 0 q.1 q.2 q.1 := by
  unfold InWindow HeapHolds
  decide +kernel

theorem witness_contribution_apart : Apart 0 64 0x100 256 ∧ Apart 0 64 0x200 8 ∧ Apart 0x100 256 0x200 8 := by unfold Apart; decide

theorem witness_contribution_homes : ∀ p ∈ [([0, 1, 2 ^ 63, 0, 0x100, 0x200], (0 : Word)), ([0, 2, 2 ^ 63 + 2 ^ 62, 0, 0x100, 0x200], 1)],
    ∀ q ∈ [(0, 64), (0x100, 256), (0x200, 8)],
    HomeNextRange (contributing p.1 p.2) ((contributing p.1 p.2).group 0).view q.1 q.2 ∧ NoSide (contributing p.1 p.2) 0 q.1 q.2 := by
  intro p hp q _
  fin_cases hp <;> exact ⟨home_next (by decide +kernel) (by decide +kernel), no_side (by decide +kernel) (by decide +kernel)⟩

theorem witness_contribution_errors :
    accWord [0, 1, 0, 0, 0x100, 0x200] 2 / 2 ^ 63 = 0 ∧ 4 < accWord [0, 1, 2 ^ 63 + 5 * 2 ^ 60, 0, 0x100, 0x200] 2 / 2 ^ 60 % 8 ∧
    (∀ l ∈ [[0, 0, 2 ^ 63, 0, 0x100, 0x200], [0, 2 ^ 24 + 1, 2 ^ 63, 0, 0x100, 0x200], [0, 1, 2 ^ 63, 0, 0x101, 0x200], [0, 1, 2 ^ 63, 0, 0x100, 0x201]],
      ¬ (0 < accWord l 1 % 2 ^ 32 ∧ accWord l 1 % 2 ^ 32 ≤ 2 ^ 24 ∧ accWord l 4 % 2 ^ 57 % 128 = 0 ∧ accWord l 5 % 2 ^ 57 % 8 = 0)) ∧
    (0 : Int) < Int.bmod (accWord [0, 1, 2 ^ 63 + 1, 0, 0x100, 0x200] 2 % 2 ^ 32) (2 ^ 32) ∧
    memNat (putWords (contributing [0, 1, 2 ^ 63, 0, 0x100, 0x200] 0) 0x200 [1]).mem 0x200 8 % 2 = 1 := by decide +kernel

/-- OrderedAccumulation, the instruction: a header that is not aligned, and one in another device's or the host's memory. -/
theorem witness_aacc_traps : Runs (header (regs 0 8)) (.aaccO aaccF) (fun is => ((entryOf (header (regs 0 8)) (.aaccO aaccF) aaccF is).bv 0).toNat % 64 ≠ 0) ∧
    Runs (scalars hostPages [0, 0, 0x100]) (.aaccO aaccF) fun is => ∃ u l,
      checkedOnce (entered (scalars hostPages [0, 0, 0x100]) (.aaccO aaccF) aaccF is) is.g (entryOf (scalars hostPages [0, 0, 0x100]) (.aaccO aaccF) aaccF is)
        .store 64 0x100 = (u, .ok l) ∧ (l = [⟨0x100, 0x800000000100, 64, 30⟩] ∧ localRange hostPages.dev 0x800000000100 64 = false) :=
  ⟨runs (by decide +kernel) (by decide +kernel), runs (by decide +kernel) (ok_of [⟨0x100, 0x800000000100, 64, 30⟩] (by decide +kernel) (by decide +kernel))⟩

/-- CopyRows: a sound request; a barrier of count 1 and of the greatest count; a phase that has been reached, and one that has not; four
rows that end with the last of the tile store and the last byte of the scratchpad. -/
def copyF : Full := full (vr 0) (sr 2) (.imm 0) 0 0 0
def requesting : State := spadWords unit [0, 0x2000000400]

theorem witness_copy : Runs requesting (.cpyq copyF) fun is => is.act &&& ~~~is.help ≠ 0 ∧
    (copyDesc (wordsOf (memRead (requesting.team 0).spad 0 64))).extended = false ∧ localSpad requesting 0 0 64 = true ∧
    copyReason (entered requesting (.cpyq copyF) copyF is) 0 (wordsOf (memRead (requesting.team 0).spad 0 64)) = none ∧
    (requesting.core 0).reqs.length < Config.engineRequests :=
  runs (by decide +kernel) (by decide +kernel)

def abinitF (n : BitVec 12) : Full := full (vr 0) (sr 2) (.imm n) 0 0 0

theorem witness_abinit : ∀ n ∈ [1, 2047], Runs unit (.abinit (abinitF n)) fun is => Canonical unit ∧ is.act &&& ~~~is.help ≠ 0 ∧
    localSpad unit 0 0 32 = true ∧ ((entryOf unit (.abinit (abinitF n)) (abinitF n) is).cv 0).toNat = n.toNat := by
  intro n hn
  fin_cases hn <;> exact runs (by decide +kernel) (by unfold Canonical; decide +kernel)

def abwaitF : Full := full (vr 0) (sr 2) (.reg (sr 3)) 0 0 0

theorem witness_abwait : Runs unit (.abwait abwaitF) (fun is => localSpad unit 0 0 32 = true ∧ (entryOf unit (.abwait abwaitF) abwaitF is).cv 0 = 0) ∧
    Runs (scalars unit [0, 0, 0, 1]) (.abwait abwaitF) (fun is => (entryOf (scalars unit [0, 0, 0, 1]) (.abwait abwaitF) abwaitF is).cv 0 = 1) :=
  ⟨runs (by decide +kernel) (by decide +kernel), runs (by decide +kernel) (by decide +kernel)⟩

def tcpyF (xm : BitVec 3) : Full := full (vr 0) (sr 2) (.reg (sr 3)) xm 0 0
def rowsState : State := scalars unit [0, 0, 0, 60 + 4 * 1024]

theorem witness_tcpy : ∀ xm ∈ [0, 1], Runs rowsState (.tcpy (tcpyF xm)) fun is => Canonical rowsState ∧ is.act &&& ~~~is.help ≠ 0 ∧
    ((entryOf rowsState (.tcpy (tcpyF xm)) (tcpyF xm) is).cv 0).toNat = 60 + 4 * 1024 ∧ (rowsState.team 0).trows = 64 ∧
    localSpad rowsState 0 0 4096 = true := by
  intro xm hx
  fin_cases hx <;> exact runs (by decide +kernel) (by unfold Canonical; decide +kernel)

/-- GateRows: a free gate asked for in either way, one held in either way asked for exclusively and released. -/
def gateF (mode : BitVec 12) : Full := full (vr 0) (sr 2) (.imm mode) 3 0 0
def gated (word : Nat) : State :=
  let s := scalars (putWords unit 0x100 [word]) [0, 0, 0x100]
  s.setCtx 0 { s.ctx 0 with regions := [{ owner := none, base := 0x1000, len := 64, wr := true, gate := 0x100 }] }

theorem witness_gacq : ∀ p ∈ [(0, 0, (false, 0)), (0, 1, (false, 0)), (1, 0, (false, 1)), (2 ^ 63, 1, (true, 0))],
    Runs (gated p.1) (.gacq (gateF p.2.1)) fun is => (∃ u l,
      gateChecks is.g (entryOf (gated p.1) (.gacq (gateF p.2.1)) (gateF p.2.1) is) (entered (gated p.1) (.gacq (gateF p.2.1)) (gateF p.2.1) is) =
        (u, .ok l) ∧ l = (0x100, 0x100) ∧ gateWord u 0x100 = some p.2.2) ∧ (gated p.1).gateQ = [] := by
  intro p hp
  fin_cases hp <;> exact runs (by decide +kernel) ⟨ok_of (0x100, 0x100) (by decide +kernel) (by decide +kernel), by decide +kernel⟩

def grelF : Full := full (vr 0) (sr 2) (.reg (vr 0)) 3 0 0

theorem witness_grel : ∀ p ∈ [(1, (false, 1)), (2 ^ 63, (true, 0))], Runs (gated p.1) (.grel grelF) fun is => (∃ u l,
      gateChecks is.g (entryOf (gated p.1) (.grel grelF) grelF is) (entered (gated p.1) (.grel grelF) grelF is) =
        (u, .ok l) ∧ l = (0x100, 0x100) ∧ gateWord u 0x100 = some p.2) ∧ (gated p.1).gateQ = [] := by
  intro p hp
  fin_cases hp <;> exact runs (by decide +kernel) ⟨ok_of (0x100, 0x100) (by decide +kernel) (by decide +kernel), by decide +kernel⟩

/-- FenceAndBarrierRows: the only member of a barrier, and one that another has still to join. -/
def noneF : Full := full (vr 0) (vr 0) (.reg (vr 0)) 0 0 0
def pair : State :=
  let s : State := { unit with groups := unit.groups ++ [{ team := 0, idx := 1, lanes := List.replicate 32 {} }] }
  s.setTeam 0 { s.team 0 with groups := [0, 1], ngroups := 2 }

theorem witness_barrier : ∀ p ∈ [(Instr.bar noneF, false), (.cbar noneF, true)],
    Runs unit p.1 (fun is => (barMembers unit 0 p.2).filter (· ≠ is.g) = [] ∧ (getBar unit (barHome unit 0 p.2) p.2).arr = []) ∧
    Runs pair p.1 (fun is => 1 ∈ (barMembers pair 0 p.2).filter (· ≠ is.g) ∧ (pair.group 1).ended = false ∧
      (getBar pair (barHome pair 0 p.2) p.2).arr = []) := by
  intro p hp
  fin_cases hp <;> exact ⟨runs (by decide +kernel) (by decide +kernel), runs (by decide +kernel) (by decide +kernel)⟩

/-- PublishAndPushRows: a tile that the launch's card gives a generation, with the board empty and with an entry whose generation is not
newer; a task queue and a posting queue with room. -/
def pubF : Full := full (vr 0) ⟨.s, 2, 1⟩ (.imm 5) 0 0 0
def publishing : State := { unit with launches := [{ unit.launch 0 with card := setAt 0 [] 30 (BitVec.ofNat 64 (2 ^ 63 + 7 * 2 ^ 47 + 5)) }] }
def published : State := { publishing with pegs := [{ ctx := 0, tile := 5, gen := 7, set := true }] }

theorem witness_pegpub : ∀ s ∈ [publishing, published], Runs s (.pegpub pubF) fun _ => (s.team 0).launch = some 0 ∧
    outGen (s.launch 0).card 5 = some 7 ∧ (∀ p ∈ pegAt s 0 5, p.set = false ∨ 0 ≤ gdiff 7 p.gen) ∧ pegRoom s ≠ 0 := by
  intro s hs
  fin_cases hs <;> exact runs (by decide +kernel) (by decide +kernel)

def queues : State :=
  let s := scalars (putWords (putWords unit 0x10000 [0x20000, 2 ^ 63 + 2 ^ 62 + 4]) 0x14000 [0x30000, 2 ^ 63 + 4]) [0, 0, 0x1000]
  s.setCtx 0 { s.ctx 0 with worktab := 0x10001 }
def pushF (q : BitVec 12) : Full := full (vr 0) (sr 2) (.imm q) 0 0 0

theorem witness_push : ∀ i ∈ [Instr.tspawn (pushF 0), .jpost (pushF 0)],
    Runs queues i fun is => ∃ u, performEntry is.g (entryOf queues i (pushF 0) is) (entered queues i (pushF 0) is) = .done u := by
  intro i hi
  fin_cases hi <;> exact runs (by decide +kernel) (done_of (by decide +kernel))

/-- CollectiveRows: a descriptor of four sums over a communicator of this rank alone; a status word that says done, and running. -/
def collF : Full := full (vr 0) (sr 2) (.reg (vr 0)) 0 0 0
def collective : State :=
  let s := putWords (putWords (putWords unit 0 [8 * 2 ^ 51, 4, 0x2000, 0x3000, 0x1000, 0x4000, 0x8000]) 0x1000 [2 ^ 32]) 0x1040 [5]
  { s with dev := { s.dev with whcfg := 5 * 2 ^ 32 } }

theorem witness_coll : Runs collective (.coll collF) fun is =>
    ∃ u, performEntry is.g (entryOf collective (.coll collF) collF is) (entered collective (.coll collF) collF is) = .done u :=
  runs (by decide +kernel) (done_of (by decide +kernel))

def status (n : Nat) : State := putWords unit 80 [n]

theorem witness_collw : ∀ n ∈ [2, 1], Runs (status n) (.collw collF) fun is => ∃ u l,
    ownAccess (entered (status n) (.collw collF) collF is) is.g (entryOf (status n) (.collw collF) collF is) .load 0 128 = (u, .ok l) ∧
    poisonPieces u l = none ∧ (getAt 0 (wordsOf (readNow u l)) 10).toNat % 256 = n := by
  intro n hn
  fin_cases hn <;> exact runs (by decide +kernel) (ok_of [⟨0, 0, 128, 0⟩] (by decide +kernel) (by decide +kernel))

/-- BatonPlaneAndHistogramRows: a baton that is free, held by the group, held by another; the rows that take it held. -/
def holding : State := unitC fun c => { c with holder := some 0, queue := [1] }
def held : State := unitC fun c => { c with holder := some 1 }

theorem witness_baton : Runs unit (.mtake noneF) (fun is => (unit.core (unit.group is.g).core).holder = none ∧ (unit.core 0).queue = []) ∧
    Runs holding (.mtake noneF) (fun is => (holding.core (holding.group is.g).core).holder = some is.g) ∧
    Runs held (.mtake noneF) (fun is => (held.core (held.group is.g).core).holder = some 1 ∧ 1 ≠ is.g ∧ is.g ∉ (held.core 0).queue) ∧
    Runs holding (.mpass noneF) (fun is => (holding.core (holding.group is.g).core).holder = some is.g) ∧
    Runs unit (.mpass noneF) (fun is => (unit.core (unit.group is.g).core).holder ≠ some is.g) ∧
    Runs holding (.mswap noneF) (fun is => (holding.core (holding.group is.g).core).holder = some is.g) ∧
    Runs holding (.mprg { noneF with c := .imm 255 }) (fun is => (holding.core (holding.group is.g).core).holder = some is.g) :=
  ⟨runs (by decide +kernel) (by decide +kernel), runs (by decide +kernel) (by decide +kernel), runs (by decide +kernel) (by decide +kernel),
    runs (by decide +kernel) (by decide +kernel), runs (by decide +kernel) (by decide +kernel), runs (by decide +kernel) (by decide +kernel),
    runs (by decide +kernel) (by decide +kernel)⟩

theorem witness_mhrd : ∀ s ∈ [holding, foreign], Runs s (.mhrd (mhrdF 7)) fun is => (s.core (s.group is.g).core).holder = some is.g ∧
    ((s.team (s.group is.g).team).det = false ∨ (s.core (s.group is.g).core).array.hf.getLsbD 7 = false) := by
  intro s hs
  fin_cases hs <;> exact runs (by decide +kernel) (by decide +kernel)

/-- The control values of a matrix row: no row, and one row that is the last of the tile store. -/
def mzeroF : Full := full (vr 0) (vr 0) (.reg (sr 8)) 0 0 0
def control (n : Nat) : State := scalars holding (setAt 0 [] 8 (BitVec.ofNat 64 n))

theorem witness_mzero : ∀ n ∈ [63, 63 + 1024], Runs (control n) (.mzero mzeroF) fun is => Canonical (control n) ∧
    ((control n).core ((control n).group is.g).core).holder = some is.g ∧ controlOf mzeroF (entryOf (control n) (.mzero mzeroF) mzeroF is) = n ∧
    ((control n).team 0).trows = 64 := by
  intro n hn
  fin_cases hn <;> exact runs (by decide +kernel) (by unfold Canonical; decide +kernel)

/-- MatrixStreamRows: a load of weights that ends with the last tile row, a streamed row outside its matrix, one row drained. -/
def mwldF : Full := full (vr 0) (vr 0) (.reg (sr 8)) 0 10 0
def mmaF : Full := full (vr 0) ⟨.s, 4, 2⟩ (.reg (sr 8)) 0 10 0
def mdrainF : Full := full (vr 0) ⟨.s, 4, 2⟩ (.reg (sr 8)) 0 8 0

theorem witness_mwld : Runs (control 31) (.mwld mwldF) fun is => ((control 31).core ((control 31).group is.g).core).holder = some is.g ∧
    controlOf mwldF (entryOf (control 31) (.mwld mwldF) mwldF is) = 31 ∧ 31 + 33 ≤ ((control 31).team 0).trows :=
  runs (by decide +kernel) (by decide +kernel)

theorem witness_mma : ∀ p ∈ [(Instr.mma mmaF, false), (.mmat mmaF, true)], Runs (control (63 + 1024)) p.1 fun is =>
    (Canonical (control 1087) ∧ ((control 1087).core 0).holder = some is.g ∧ ((control 1087).team 0).det = false ∧
      controlOf mmaF (entryOf (control 1087) p.1 mmaF is) = 1087 ∧ streamBad (entryOf (control 1087) p.1 mmaF is) 10 = none) ∧ ∃ r u,
    streamRow (entered (control 1087) p.1 mmaF is) is.g (entryOf (control 1087) p.1 mmaF is) 10 (if p.2 then 256 else 128) 0 = (u, .ok r) := by
  intro p hp
  fin_cases hp <;> exact runs (by decide +kernel) ⟨by unfold Canonical; decide +kernel, row_of (by decide +kernel)⟩

theorem witness_mdrain : Runs (control (63 + 1024)) (.mdrain mdrainF) fun is => (((control 1087).core 0).holder = some is.g ∧
      controlOf mdrainF (entryOf (control 1087) (.mdrain mdrainF) mdrainF is) = 1087 ∧
      drainBad (entryOf (control 1087) (.mdrain mdrainF) mdrainF is) 8 = none) ∧ ∃ r u,
    arrayChecks (entered (control 1087) (.mdrain mdrainF) mdrainF is) is.g { entryOf (control 1087) (.mdrain mdrainF) mdrainF is with prog := 0 }
      .store [(0, 1024), (0, 0)] = (u, .ok r) :=
  runs (by decide +kernel) ⟨by decide +kernel, row_of (by decide +kernel)⟩

-- The traps and waits of the synchronising rows -----------------------------------------------------------------------------------------

/-- CopyRows: requests, barriers and rows at each check that fails, and where one that waits stands. -/
theorem witness_copy_traps : (∀ a ∈ [32, 2 ^ 29, 2 ^ 19, 4096], Runs (scalars unit [0, 0, BitVec.ofNat 64 a]) (.cpyq copyF) fun is =>
      ((entryOf (scalars unit [0, 0, BitVec.ofNat 64 a]) (.cpyq copyF) copyF is).bv 0).toNat = a) ∧
    (∀ a ∈ [16, 4096], Runs (scalars unit [0, 0, BitVec.ofNat 64 a]) (.abinit (abinitF 1)) fun is =>
      ((entryOf (scalars unit [0, 0, BitVec.ofNat 64 a]) (.abinit (abinitF 1)) (abinitF 1) is).bv 0).toNat = a) ∧
    Runs unit (.abinit (abinitF 0)) (fun is => ((entryOf unit (.abinit (abinitF 0)) (abinitF 0) is).cv 0).toNat = 0) ∧
    (∀ a ∈ [16, 4096], Runs (scalars unit [0, 0, BitVec.ofNat 64 a]) (.abwait abwaitF) fun is =>
      ((entryOf (scalars unit [0, 0, BitVec.ofNat 64 a]) (.abwait abwaitF) abwaitF is).bv 0).toNat = a) ∧
    (∀ cw ∈ [2 ^ 21, 61 + 4 * 1024, 63], Runs (scalars unit [0, 0, 0, BitVec.ofNat 64 cw]) (.tcpy (tcpyF 0)) fun is =>
      ((entryOf (scalars unit [0, 0, 0, BitVec.ofNat 64 cw]) (.tcpy (tcpyF 0)) (tcpyF 0) is).cv 0).toNat = cw) := by
  refine ⟨?_, ?_, runs (by decide +kernel) (by decide +kernel), ?_, ?_⟩ <;> intro a ha <;> fin_cases ha <;>
    exact runs (by decide +kernel) (by decide +kernel)

/-- The same: descriptors that break each of the checks 2 to 8 first. -/
def copyWords (l : List Nat) : List Word := (setAt 0 l 15 0).map (BitVec.ofNat 64)

theorem witness_copy_reasons : ∀ p ∈ [(2, [2 ^ 63, 0x2000000400]), (3, [2 ^ 58, 0x2000000400]), (4, [2 ^ 57, 0x2000000400]),
    (5, [0, 31 * 2 ^ 59]), (6, [2 ^ 61, 15 * 2 ^ 59 + 8 * 2 ^ 54]), (7, [1, 1 * 2 ^ 59 + 1 * 2 ^ 54]), (8, [0, 8])],
    copyReason unit 0 (copyWords p.2) = some p.1 := by decide +kernel

def fullEngine : State := requesting.setCore 0 { requesting.core 0 with
  reqs := List.replicate Config.engineRequests { id := 0, group := 0, team := 0, pc := 0, words := [], left := [0] } }

theorem witness_engine_full : Runs fullEngine (.cpyq copyF) fun _ => Config.engineRequests ≤ (fullEngine.core 0).reqs.length :=
  runs (by decide +kernel) (by decide +kernel)

def abandoned : State := spadWords unit [0, 2 ^ 31 + 2 ^ 27, 0x5000, 0]

theorem witness_abandoned : Runs abandoned (.abwait abwaitF) fun is => (entryOf abandoned (.abwait abwaitF) abwaitF is).cv 0 = 0 ∧
    wfield (getAt 0 (barWords abandoned 0 0) 1) 31 1 = 1 := runs (by decide +kernel) (by decide +kernel)

/-- GateRows: words that are misaligned, in host memory, of no region, malformed, and not held. -/
def gatedAt (s : State) (va gate : Nat) : State :=
  let s := scalars s [0, 0, BitVec.ofNat 64 va]
  s.setCtx 0 { s.ctx 0 with regions := [{ owner := none, base := 0x1000, len := 64, wr := true, gate }] }

theorem witness_gate_traps : (∀ s ∈ [gatedAt unit 0x104 0x104, gatedAt hostPages 0x100 0x100, gatedAt unit 0x100 0x108, gated (2 ^ 32), gated (2 ^ 63 + 1)],
      Runs s (.gacq (gateF 0)) fun _ => True) ∧ Runs (gated 0) (.grel grelF) (fun _ => memNat (gated 0).mem 0x100 8 = 0) := by
  refine ⟨?_, runs (by decide +kernel) (by decide +kernel)⟩
  intro s hs
  fin_cases hs <;> exact runs (by decide +kernel) trivial

theorem witness_gate_window : ∀ p ∈ [(Instr.gacq (gateF 0), 0), (.grel grelF, 1), (.grel grelF, 2 ^ 63)], Runs (gated p.2) p.1 fun is =>
    ((entryOf (gated p.2) p.1 (gateF 0) is).bv 0).toNat = 0x100 ∧ InWindow (gated p.2) 0 0x100 8 0x100 ∧ NoSide (gated p.2) 0 0x100 8 ∧
    memNat (gated p.2).mem 0x100 8 = p.2 ∧ (gated p.2).gateQ = [] := by
  intro p hp
  fin_cases hp <;> exact runs (by decide +kernel)
    ⟨by decide +kernel, by unfold InWindow HeapHolds; decide +kernel, no_side (by decide +kernel) (by decide +kernel), by decide +kernel, by decide +kernel⟩

/-- GateRows: a gate whose queue has a waiting group, to be granted alone or shared. -/
def queued (word : Nat) (shared : Bool) : State :=
  let f := gateF (if shared then 1 else 0)
  let e : Entry :=
    { instr := .gacq f, addr := 0x1000, len := 8, lanes := 0xFFFFFFFF, act := 0xFFFFFFFF, helper := 0
      b := [List.replicate 32 0x100], c := [], d := [], r := [] }
  let s := gated word
  let s : State := { s with groups := s.groups ++ [{ team := 0, idx := 1, lanes := List.replicate 32 {}, wait := .gate 0x100, log := [e] }] }
  { s.setTeam 0 { s.team 0 with groups := [0, 1] } with gateQ := [(0x100, .grp 1, shared, .device)] }

theorem witness_gate_grant : ∀ p ∈ [(1, true), (2 ^ 63, false), (2, true)], Runs (queued p.1 p.2) (.grel grelF) fun is =>
    (queued p.1 p.2).gateQ.filter (fun q => q.1 == 0x100) = [1].map (fun h => (0x100, Party.grp h, p.2, Scope.device)) ++ [] ∧ 1 ≠ is.g ∧
    1 < (queued p.1 p.2).groups.length ∧ memNat (queued p.1 p.2).mem 0x100 8 = p.1 ∧ ((queued p.1 p.2).group 1).log.length = 1 := by
  intro p hp
  fin_cases hp <;> exact runs (by decide +kernel) (by decide +kernel)

/-- FenceAndBarrierRows: a group that departs from a barrier whose phase is complete. -/
theorem inTurn_of {s : State} {g : Nat} (h : (decide (g < s.groups.length) && !(s.group g).ended && onCore s (s.group g)) = true) : InTurn s g := by
  simpa [InTurn, and_assoc] using h

def departing : State :=
  let e : Entry := { accEntry with instr := .bar noneF }
  let s := unitG fun x => { x with wait := .bar, log := [e] }
  { s.setTeam 0 { s.team 0 with bar := { ph := 1, arr := [(0, 0)], rels := [(0, 0)] } } with
    rels := [{ party := .grp 0, scope := .team, acts := .ambient 0, know := [], cov := [] }]
    agenda := [.group 0] }

theorem witness_departs : InTurn departing 0 ∧ (departing.group 0).wdog = false ∧ (departing.group 0).log.length = 1 ∧
    (departing.group 0).wait = .bar ∧ Memory.wf departing.mem = true ∧
    (getBar departing (barHome departing 0 false) false).arr.find? (fun q => q.1 == 0) = some (0, 0) ∧
    0 < (getBar departing (barHome departing 0 false) false).ph := by
  refine ⟨inTurn_of (by decide +kernel), ?_⟩
  decide +kernel

/-- PublishAndPushRows: a publication of a task's group, one whose operands break the rule, one that the card does not cover, one that is
stale, and one of no bytes. -/
theorem witness_pegpub_traps : Runs (publishing.setTeam 0 { publishing.team 0 with launch := none, task := some (0, 0) }) (.pegpub pubF) (fun _ => True) ∧
    Runs (publishing.setGroup 0 { publishing.group 0 with s := [0, 0, 0, BitVec.ofNat 64 (2 ^ 48)] }) (.pegpub pubF) (fun is =>
      (cell (entryOf (publishing.setGroup 0 { publishing.group 0 with s := [0, 0, 0, BitVec.ofNat 64 (2 ^ 48)] }) (.pegpub pubF) pubF is).b 1 0).toNat = 2 ^ 48) ∧
    Runs unit (.pegpub pubF) (fun _ => outGen (unit.launch 0).card 5 = none) ∧
    Runs { publishing with pegs := [{ ctx := 0, tile := 5, gen := 8, set := true }] } (.pegpub pubF) (fun _ => gdiff 7 8 < 0) ∧
    Runs publishing (.pegpub pubF) (fun is => (cell (entryOf publishing (.pegpub pubF) pubF is).b 1 0).toNat = 0) :=
  ⟨runs (by decide +kernel) trivial, runs (by decide +kernel) (by decide +kernel), runs (by decide +kernel) (by decide +kernel),
    runs (by decide +kernel) (by decide +kernel), runs (by decide +kernel) (by decide +kernel)⟩

/-- The same: pushes that are not aligned, without a work table, with a queue that is closed, full, and with room; JPOST.DEP of a task. -/
def windowed (s : State) : State := s.setCtx 0 { s.ctx 0 with heapbase := 1, heaplen := 0x200001 }
def pushing (task card : List Nat) : State := windowed (putWords (putWords queues 0x10000 card) 0x14000 task)

theorem witness_push_traps : ∀ i ∈ [Instr.tspawn (pushF 0), .jpost (pushF 0)],
    Runs (scalars queues [0, 0, 0x1020]) i (fun is => ((entryOf (scalars queues [0, 0, 0x1020]) i (pushF 0) is).bv 0).toNat % 64 ≠ 0) ∧
    Runs (queues.setCtx 0 {}) i fun _ => wfield ((queues.setCtx 0 {}).ctx 0).worktab 0 1 = 0 := by
  intro i hi
  fin_cases hi <;> exact ⟨runs (by decide +kernel) (by decide +kernel), runs (by decide +kernel) (by decide +kernel)⟩

theorem witness_push_windows : ∀ p ∈ [([0x30000, 4], [0x20000, 4]), ([0x30000, 2 ^ 63 + 4, 16], [0x20000, 3 * 2 ^ 62 + 4, 16]),
    ([0x30000, 2 ^ 63 + 4, 15], [0x20000, 3 * 2 ^ 62 + 4, 15])], let s := pushing p.1 p.2
    Runs s (.tspawn (pushF 0)) (fun is => ((entryOf s (.tspawn (pushF 0)) (pushF 0) is).bv 0).toNat = 0x1000) ∧
    Runs s (.jpost (pushF 0)) (fun is => ((entryOf s (.jpost (pushF 0)) (pushF 0) is).bv 0).toNat = 0x1000) := by
  intro p hp
  fin_cases hp <;> exact ⟨runs (by decide +kernel) (by decide +kernel), runs (by decide +kernel) (by decide +kernel)⟩

theorem witness_push_room : let s := pushing [0x30000, 2 ^ 63 + 4, 15] [0x20000, 3 * 2 ^ 62 + 4, 15]
    s.poison = [] ∧ (∀ q ∈ [(0x1000, 256), (0x10000, 64), (0x14000, 64), (0x20000 + 256 * 15, 256), (0x30000 + 128 * 15, 128)],
      InWindow s 0 q.1 q.2 q.1) ∧ InCtxWindow s 0 0x10000 64 0x10000 ∧ Apart 0x20F00 256 0x10000 64 ∧ Apart 0x30780 128 0x14010 8 ∧
    memNat s.mem 0x10008 8 = 3 * 2 ^ 62 + 4 ∧ memNat s.mem 0x10010 8 = 15 ∧ memNat s.mem 0x14008 8 = 2 ^ 63 + 4 ∧ memNat s.mem 0x14010 8 = 15 := by
  unfold InWindow InCtxWindow HeapHolds Apart
  decide +kernel

theorem witness_push_homes : let s := pushing [0x30000, 2 ^ 63 + 4, 15] [0x20000, 3 * 2 ^ 62 + 4, 15]
    ∀ q ∈ [(0x20F00, 256), (0x10010, 8), (0x14010, 8), (0x30780, 128)], HomeNextRange s (s.group 0).view q.1 q.2 ∧ NoSide s 0 q.1 q.2 :=
  fun _ _ => ⟨home_next (by decide +kernel) (by decide +kernel), no_side (by decide +kernel) (by decide +kernel)⟩

theorem witness_push_dep : Runs (queues.setTeam 0 { queues.team 0 with launch := none }) (.jpost { pushF 0 with xm := 1 }) (fun _ => True) ∧
    Runs queues (.jpost { pushF 0 with xm := 1 }) fun is => (queues.team (queues.group is.g).team).launch = some 0 :=
  ⟨runs (by decide +kernel) trivial, runs (by decide +kernel) (by decide +kernel)⟩

-- The collective and matrix rows --------------------------------------------------------------------------------------------------------

/-- CollectiveRows: the words of a descriptor and communicator that pass every check, in the window; one that DET forbids; a full Whist. -/
theorem witness_coll_words : (∀ p ∈ [(0, 2 ^ 54), (8, 4), (16, 0x2000), (24, 0x3000), (32, 0x1000), (40, 0x4000), (48, 0x8000), (56, 0),
      (0x1000, 2 ^ 32), (0x1008, 0), (0x1040, 5)], memNat collective.mem p.1 8 = p.2) ∧
    (∀ q ∈ [(0, 128), (0x1000, 68)], InWindow collective 0 q.1 q.2 q.1) ∧ wfield collective.dev.whcfg 32 18 = 5 ∧ collective.colls = [] ∧
    collective.poison = [] ∧ collective.writes = [] := by
  unfold InWindow HeapHolds
  decide +kernel

def detColl : State := collective.setTeam 0 { collective.team 0 with det := true }
def fullWhist : State := { collective with colls := List.replicate 16 {} }

theorem witness_coll_others : Runs detColl (.coll collF) (fun _ => (detColl.team 0).det = true) ∧
    Runs fullWhist (.coll collF) (fun _ => (fullWhist.colls.filter fun c => !c.ended).length = 16) ∧ NoSide collective 0 0 128 ∧ NoSide collective 0 0x1000 68 :=
  ⟨runs (by decide +kernel) (by decide +kernel), runs (by decide +kernel) (by decide +kernel), no_side (by decide +kernel) (by decide +kernel),
    no_side (by decide +kernel) (by decide +kernel)⟩

/-- The same: descriptors that fail each check first: an address, an operation, a communicator, a buffer. -/
theorem witness_coll_bad : (∀ p ∈ [(0, 2 ^ 54 + 2 ^ 18), (0, 2 ^ 54 + 3 * 2 ^ 56), (0x1040, 6), (16, 0x2008)],
    Runs (putWords collective p.1 [p.2]) (.coll collF) fun _ => memNat (putWords collective p.1 [p.2]).mem p.1 8 = p.2) := by
  intro p hp
  fin_cases hp <;> exact runs (by decide +kernel) (by decide +kernel)

theorem witness_collw_status : (∀ n ∈ [3 + 7 * 2 ^ 44, 0, 4], Runs (status n) (.collw collF) fun _ => memNat (status n).mem 80 8 = n) ∧
    InWindow (status 2) 0 0 128 0 ∧ memGet (status 2).mem 80 = 2 ∧ (status 2).poison = [] := by
  refine ⟨?_, ?_⟩
  · intro n hn
    fin_cases hn <;> exact runs (by decide +kernel) (by decide +kernel)
  · unfold InWindow HeapHolds
    decide +kernel

/-- BatonPlaneAndHistogramRows: every row that takes the baton, with it free; MPASS of a holder that a save has put back in the queue; rows and
control words beyond their limits; a foreign set under DET. -/
theorem witness_baton_free : ∀ i ∈ [Instr.mtake noneF, .mwld { noneF with c := .reg (sr 8), ty := 10 }, .mswap noneF,
    .mzero { noneF with c := .reg (sr 8) }, .mhrd (mhrdF 7), .mprg { noneF with c := .imm 255 }], Runs unit i fun is =>
    (unit.core (unit.group is.g).core).holder ≠ some is.g ∧ is.g ∉ (unit.core (unit.group is.g).core).queue := by
  intro i hi
  fin_cases hi <;> exact runs (by decide +kernel) (by decide +kernel)

def putBack : State := (unitC fun c => { c with holder := some 1, queue := [0] }).setTeam 0 { unit.team 0 with array := some (0, {}) }

theorem witness_mpass_saved : Runs putBack (.mpass noneF) fun is => (putBack.core 0).holder ≠ some is.g ∧
    (putBack.team (putBack.group is.g).team).array = some (is.g, {}) := runs (by decide +kernel) (by decide +kernel)

theorem witness_mzero_traps : ∀ n ∈ [2 ^ 21, 1025 * 1024, 63 + 2 * 1024], Runs (control n) (.mzero mzeroF) fun is =>
    controlOf mzeroF (entryOf (control n) (.mzero mzeroF) mzeroF is) = n := by
  intro n hn
  fin_cases hn <;> exact runs (by decide +kernel) (by decide +kernel)

theorem witness_mhrd_foreign : Runs foreign (.mhrd (mhrdF 0)) fun is => (foreign.team (foreign.group is.g).team).det = true ∧
    (foreign.core (foreign.group is.g).core).array.hf.getLsbD 0 = true := runs (by decide +kernel) (by decide +kernel)

/-- MatrixStreamRows: weights in the tile store that end with its last row, and in memory; a control word and a descriptor that fail. -/
def descr (n : Nat) (d : List Word) : State := scalars holding (setAt 0 ([0, 0, 0, 0] ++ setAt 0 d 3 (getAt 0 d 3)) 8 (BitVec.ofNat 64 n))
def mwldM : Full := { mwldF with b := ⟨.s, 4, 2⟩, c := .reg (vr 0), xm := 1 }

theorem witness_mwld_forms : Runs (control 32) (.mwld mwldF) (fun _ => ((control 32).team 0).trows < 32 + 33) ∧
    Runs (control 1024) (.mwld mwldF) (fun is => controlOf mwldF (entryOf (control 1024) (.mwld mwldF) mwldF is) = 1024) ∧
    Runs (descr 0 [0, 256, 0x10000, 0]) (.mwld mwldM) (fun is => (List.range 4).map (fun k =>
      (cell (entryOf (descr 0 [0, 256, 0x10000, 0]) (.mwld mwldM) mwldM is).b k 0).toNat) = [0, 256, 0x10000, 0]) ∧
    Runs (descr 0 [8, 256, 0x10000, 0]) (.mwld mwldM) (fun is =>
      (cell (entryOf (descr 0 [8, 256, 0x10000, 0]) (.mwld mwldM) mwldM is).b 0 0).toNat % 16 ≠ 0) :=
  ⟨runs (by decide +kernel) (by decide +kernel), runs (by decide +kernel) (by decide +kernel), runs (by decide +kernel) (by decide +kernel),
    runs (by decide +kernel) (by decide +kernel)⟩

theorem witness_mwld_windows : (∀ r ∈ [0, 127], InWindow holding 0 (256 * r) 256 (256 * r)) ∧ InWindow holding 0 0x10000 256 0x10000 ∧
    NoSide holding 0 0 256 ∧ holding.poison = [] ∧ (holding.team 0).tlpois = [] := by
  refine ⟨?_, ?_, no_side (by decide +kernel) (by decide +kernel), by decide +kernel, by decide +kernel⟩ <;> unfold InWindow HeapHolds <;> decide +kernel

/-- The same: one streamed row of four columns in memory, the control words and descriptors that fail, a foreign plane under DET. -/
theorem witness_mma_forms : ∀ p ∈ [(Instr.mma mmaF, false), (.mmat mmaF, true)],
    Runs (descr (63 + 1024) [0, 0, 2 ^ 16 * 4 + 2 ^ 32, 0x1000]) p.1 (fun is => Canonical (descr (63 + 1024) [0, 0, 2 ^ 16 * 4 + 2 ^ 32, 0x1000]) ∧
      (List.range 4).map (fun k => (cell (entryOf (descr (63 + 1024) [0, 0, 2 ^ 16 * 4 + 2 ^ 32, 0x1000]) p.1 mmaF is).b k 0).toNat) =
        [0, 0, 2 ^ 16 * 4 + 2 ^ 32, 0x1000]) ∧
    Runs (descr (2 ^ 21) []) p.1 (fun _ => True) ∧ Runs (descr (63 + 2048) []) p.1 (fun _ => True) ∧
    Runs (descr 1024 [8]) p.1 (fun is => (cell (entryOf (descr 1024 [8]) p.1 mmaF is).b 0 0).toNat % 16 ≠ 0) ∧
    Runs (let s := unitC fun c => { c with holder := some 0, array := { c.array with af := true } }; s.setTeam 0 { s.team 0 with det := true }) p.1
      (fun _ => True) := by
  intro p hp
  fin_cases hp <;> exact ⟨runs (by decide +kernel) (by unfold Canonical; decide +kernel), runs (by decide +kernel) trivial,
    runs (by decide +kernel) trivial, runs (by decide +kernel) (by decide +kernel), runs (by decide +kernel) trivial⟩

theorem witness_mma_windows : (∀ q ∈ [0, 3], InWindow holding 0 q 1 q ∧ InWindow holding 0 0x1000 1 0x1000) ∧ NoSide holding 0 0x1000 1 := by
  refine ⟨?_, no_side (by decide +kernel) (by decide +kernel)⟩
  unfold InWindow HeapHolds
  decide +kernel

/-- The same: one row drained to memory with block scales, one to registers, counted and corner-turned rows, and what fails. -/
def mdrainM (xm : BitVec 3) (ty : BitVec 5) : Full := { mdrainF with xm, ty, d := if xm.toNat < 4 then vr 0 else ⟨.v, 16, 2⟩, b := if xm.toNat < 4 then ⟨.s, 4, 2⟩ else vr 0 }

theorem witness_mdrain_forms : ∀ p ∈ [(0, 10, 63 + 1024, [0, 256, 0x1000]), (2, 8, 63 + 1024 + 3 * 2 ^ 22, []), (1, 8, 60 + 4 * 1024, [0, 16, 0]),
      (4, 8, 63 + 1024, []), (0, 8, 2 ^ 25, []), (1, 8, 257 * 1024, []), (0, 8, 63 + 2048, []), (0, 8, 1024, [8])],
    Runs (descr p.2.2.1 (p.2.2.2.map (BitVec.ofNat 64))) (.mdrain (mdrainM p.1 p.2.1)) fun is =>
      controlOf (mdrainM p.1 p.2.1) (entryOf (descr p.2.2.1 (p.2.2.2.map (BitVec.ofNat 64))) (.mdrain (mdrainM p.1 p.2.1)) (mdrainM p.1 p.2.1) is) = p.2.2.1 := by
  intro p hp
  fin_cases hp <;> exact runs (by decide +kernel) (by decide +kernel)

theorem unwritten {s : State} {v : MemView} {pa n : Nat} (h : s.writes = []) (h' : v = {}) : Unwritten s v pa n := by
  constructor
  · simp [h']
  · simp [writesTo, h]

theorem witness_mdrain_windows : InWindow holding 0 0 256 0 ∧ InWindow holding 0 0x1000 2 0x1000 ∧ Unwritten holding (holding.group 0).view 0 256 ∧
    Unwritten holding (holding.group 0).view 0x1000 2 ∧ Apart 0 256 0x1000 2 := by
  refine ⟨?_, ?_, unwritten (by decide +kernel) (by decide +kernel), unwritten (by decide +kernel) (by decide +kernel), by unfold Apart; decide⟩ <;>
    unfold InWindow HeapHolds <;> decide +kernel

-- Hypotheses of the statements on the machine --------------------------------------------------------------------------------------

/-- What `Due` asks, decided. -/
def dueB (s : State) (i : Instr) : Bool :=
  let x := s.group s.cur
  decide (s.cur < s.groups.length) && !x.ended && onCore s x && mayIssue x i && x.issueAddr.isSome

theorem due_of {s : State} {i : Instr} (h : dueB s i = true) : Due s i (iss s i) := by
  simp only [dueB, Bool.and_eq_true, decide_eq_true_eq, Bool.not_eq_true'] at h
  obtain ⟨⟨⟨⟨h1, h2⟩, h3⟩, h4⟩, h5⟩ := h
  refine ⟨rfl, h1, h2, h3, h4, ?_, rfl, rfl, rfl, rfl⟩
  obtain ⟨a, ha⟩ := Option.isSome_iff_exists.mp h5
  simp [iss, ha]

abbrev IsDue (s : State) (i : Instr) (P : Iss → Prop) : Prop := ∃ is, Due s i is ∧ P is

theorem is_due {s : State} {i : Instr} {P : Iss → Prop} (h : dueB s i = true) (p : P (iss s i)) : IsDue s i P := ⟨_, due_of h, p⟩

/-- StepRunsDecoded: an instruction in the buffer of a group that waits for nothing, and of one that waits on a fault. -/
def buffered (w : Wait) (n : Nat) : State := unitG fun x => { x with wait := w, buf := toBytes 4 n, bufAt := 0x1000 }

theorem witness_stands : ∀ w ∈ [Wait.none, .fault 3], let s := buffered w 0x2DC
    s.agenda = [] ∧ s.cur < s.groups.length ∧ (s.group s.cur).ended = false ∧ onCore s (s.group s.cur) = true ∧ (s.group s.cur).wait = w ∧
    s.breakpoint s.cur = none ∧ (s.group s.cur).wdog = false ∧ (s.group s.cur).issueAddr = some 0x1000 ∧
    decode (wordsIn ((s.group s.cur).fetched 0x1000)) = .ok .exitShort := by decide +kernel

/-- DecodeEncode, DecodeSound: well-formed instructions and words that decode stand in every decode test. -/
theorem witness_wf : ∀ p ∈ integerRows1 ++ logRows1 ++ memoryRows, Instr.wf p.2 = true := by decide +kernel

/-- RefusedEncodings: the opcodes beside the assigned ranges, in each length, and a word that does not decode at the issue address. -/
theorem witness_refused : ∀ op ∈ [0x00, 0x0B, 0x0F, 0x1D, 0x1F, 0x25, 0x3F, 0x4E, 0x4F, 0x56, 0x7F, 0x8A, 0x8F, 0x9A, 0x9F, 0xA6, 0xAF, 0xBA, 0xBF,
      0xCE, 0xCF, 0xDA, 0xDF, 0xEA, 0xEF, 0xF8, 0xFF], ∀ n ∈ [0, 1, 2],
    bitsOf (BitVec.ofNat 32 (4 * op + n)) 0 2 ≠ 3 ∧ lenWords (BitVec.ofNat 32 (4 * op + n)) ≤ [0, (0 : IWord)].length + 1 ∧
    decode [BitVec.ofNat 32 (4 * op + n), 0, 0] = .error (.ill .unassigned) := by decide +kernel

theorem witness_undecoded : let s := buffered .none 0xFFFFFFFF
    s.agenda = [] ∧ s.cur < s.groups.length ∧ (s.group s.cur).ended = false ∧ onCore s (s.group s.cur) = true ∧ (s.group s.cur).wait = .none ∧
    (s.group s.cur).wdog = false ∧ s.breakpoint s.cur = none ∧ (s.group s.cur).issueAddr = some 0x1000 ∧
    (s.group s.cur).fetched 0x1000 ≠ [] ∧ decode (wordsIn ((s.group s.cur).fetched 0x1000)) = .error (.ill .len) := by decide +kernel

/-- FirstCauseIsTaken, each cause: a compare into P7, a register at the bound, a barrier with a lane elsewhere, a timing-dependent read in
a deterministic team, TLBINV that the handler's register does not permit. -/
def split : State := unitG fun x => { x with lanes := setAt {} x.lanes 31 { pc := 0x2000 } }
def det : State := unitT fun t => { t with det := true }

theorem witness_causes :
    IsDue unit (.icmp (full (vr 7) (vr 1) (.reg (vr 2)) 0 0 0)) (fun _ => Instr.wf (.icmp (full (vr 7) (vr 1) (.reg (vr 2)) 0 0 0)) = false) ∧
    IsDue small (.popc (full (vr 8) (vr 9) (.reg (vr 0)) 0 0 0)) (fun is => Instr.wf (.popc (full (vr 8) (vr 9) (.reg (vr 0)) 0 0 0)) = true ∧
      (small.group is.g).vbound = 8 ∧ beyondBound (small.group is.g) (.popc (full (vr 8) (vr 9) (.reg (vr 0)) 0 0 0)) = some 8) ∧
    IsDue split (.bar noneF) (fun is => Instr.wf (.bar noneF) = true ∧ converges (opOf (.bar noneF)) = true ∧ (split.group is.g).live ≠ is.at_) ∧
    IsDue det (.idrd (full (vr 1) (vr 0) (.imm 16) 0 0 0)) (fun is => Instr.wf (.idrd (full (vr 1) (vr 0) (.imm 16) 0 0 0)) = true ∧
      (det.team (det.group is.g).team).det = true ∧ nondet (.idrd (full (vr 1) (vr 0) (.imm 16) 0 0 0)) = true) ∧
    IsDue (unitT fun t => { t with vec := 0x4001 }) (tlbinv (vr 0) 1) (fun _ => Instr.wf (tlbinv (vr 0) 1) = true) :=
  ⟨is_due (by decide +kernel) (by decide +kernel), is_due (by decide +kernel) (by decide +kernel), is_due (by decide +kernel) (by decide +kernel),
    is_due (by decide +kernel) (by decide +kernel), is_due (by decide +kernel) (by decide +kernel)⟩

/-- NoActiveLanes: an instruction that its predicate turns off in every lane. -/
def offF : Full := { full (vr 1) (vr 2) (.reg (vr 3)) 0 0 0 with ctl := ⟨0, true, 1⟩ }

theorem witness_no_active : ∃ is, Ready unit (.iadd offF) is ∧ is.act = 0 ∧ Memory.wf unit.mem = true := by
  have h := due_of (s := unit) (i := .iadd offF) (by decide +kernel)
  exact ⟨_, ⟨h.1, h.2, h.3, h.4, h.5, h.6, h.7, h.8, h.9, h.10, by decide +kernel, by decide +kernel, by decide +kernel, by decide +kernel⟩, by decide +kernel, by decide +kernel⟩

/-- PlainLoadValue, each case: two writes of a word, of the current quantum, known, and not known, and a word without a write. -/
def wrote (val : BitVec 32) (i : Nat) (prec : List Nat) : WriteRec := ⟨0x40, 0, 0x40, val, 0, .grp 1, 2, [i], prec, none⟩
def twice : State := { unit with writes := [wrote 1 1 [], wrote 2 2 [0]] }

theorem witness_plain_load : twice.writes[1]? = some (wrote 2 2 [0]) ∧ twice.writes[0]? = some (wrote 1 1 []) ∧
    plainWord twice (some 0) { quantum := [0, 1] } 0x40 = 2 ∧ plainWord twice (some 0) { own := [0] } 0x40 = 1 ∧
    plainWord twice (some 0) { reached := [0, 1] } 0x40 = 2 ∧ plainWord twice (some 0) {} 0x40 = 0 ∧ plainWord twice (some 0) {} 0x44 = 0 := by
  decide +kernel

-- Events of groups and teams ------------------------------------------------------------------------------------------------------------

/-- FetchAndTrapEvents: a fetch that passes, one whose translation fails, one that meets poison, the lowest and the highest breakpoint, words
that do not decode, a watchdog trap with and without a TLBINV to wait for. -/
theorem witness_fetch : InTurn work 0 ∧ (work.group 0).wait = .none ∧ work.breakpoint 0 = none ∧ (work.group 0).issueAddr = some 0x1000 ∧
    (work.group 0).fetched 0x1000 = [] ∧ (∃ ws u, codeInstr work 0 true 0x1000 = (u, .ok ws)) :=
  ⟨inTurn_of (by decide +kernel), by decide +kernel, by decide +kernel, by decide +kernel, by decide +kernel, row_of (by decide +kernel)⟩

def errOf {ε β : Type} : Except ε β → Option ε
  | .ok _ => none
  | .error e => some e

theorem err_of {α β ε : Type} {p : α × Except ε β} {e : ε} (h : errOf p.2 = some e) : ∃ u, p = (u, .error e) := by
  obtain ⟨x, y⟩ := p
  cases y with
  | ok c => simp [errOf] at h
  | error d => simp only [errOf, Option.some.injEq] at h; exact ⟨x, by rw [h]⟩

theorem witness_ifault : (∃ u, codeInstr unit 0 true 0x1000 = (u, .error (0x1000, false))) ∧
    ∃ u, codeInstr { work with poison := [128] } 0 true 0x1000 = (u, .error (0x1000, true)) :=
  ⟨err_of (by decide +kernel), err_of (by decide +kernel)⟩

theorem witness_breakpoint : ∀ n ∈ [0, 3], let s := unitT fun t => { t with brk := setAt 0 [] n 0x1001 }
    (InTurn s 0 ∧ (s.group 0).wait = .none ∧ (s.group 0).inh = false ∧ (s.group 0).skipBrk = none ∧ (s.group 0).issueAddr = some 0x1000) ∧
    wfield (getAt 0 (s.team (s.group 0).team).brk n) 0 1 = 1 ∧ wfield (getAt 0 (s.team (s.group 0).team).brk n) 2 55 * 4 = 0x1000 ∧
    ∀ m, m < n → wfield (getAt 0 (s.team (s.group 0).team).brk m) 0 1 = 0 := by
  unfold InTurn
  decide +kernel

theorem witness_illegal_event : let s := buffered .none 0xFFFFFFFF
    InTurn s 0 ∧ (s.group 0).wait = .none ∧ s.breakpoint 0 = none ∧ wordsIn ((s.group 0).fetched 0x1000) = [0xFFFFFFFF] ∧
    decode [0xFFFFFFFF] = .error (.ill .len) ∧ decode (wordsIn (((buffered .none 0x2DC).group 0).fetched 0x1000)) = .ok .exitShort := by
  unfold InTurn
  decide +kernel

theorem witness_watchdog_trap : let s := unitG fun x => { x with wdog := true }
    InTurn s 0 ∧ (s.group 0).wdog = true ∧ (s.group 0).inh = false ∧ (s.group 0).wait = .none ∧ wfield (s.team (s.group 0).team).vec 0 1 = 1 ∧
    (s.group 0).pcvBad = false ∧ (s.group 0).vbad = [] ∧ Memory.wf s.mem = true ∧ ((unitG fun x => { x with wait := .shoot 1 }).group 0).wait = .shoot 1 := by
  unfold InTurn
  decide +kernel

/-- KillAndWatchdogEvents: a team of a launch that is not over, a task; a count at its budget with a handler and without; a count at twice it. -/
def counting (n : Word) (vec : Word) : State := unitT fun t => { t with budget := 10, wdog := n, vec }

theorem witness_kill : unit.dev.status ≠ 7 ∧ 0 < unit.teams.length ∧ (unit.team 0).place.over = false ∧ 0 < 0x11A % 0x100 ∧ 0x11A % 0x100 ≤ 0x1A ∧
    (unit.group 0).ended = false ∧ ((unitT fun t => { t with launch := none, task := some (0, 0) }).team 0).place.over = false := by decide +kernel

theorem witness_watchdog_counts : ((counting 10 0x4003).team 0).place.onCore = true ∧ ((counting 10 0x4003).team 0).wdog.toNat = 10 ∧
    ((counting 10 0x4003).team 0).fired = false ∧ wfield ((counting 10 0).team 0).vec 0 1 = 0 ∧
    2 * ((counting 20 0x4003).team 0).budget ≤ ((counting 20 0x4003).team 0).wdog.toNat := by decide +kernel

-- Events of launches, tasks and cores ---------------------------------------------------------------------------------------------------

/-- A submission queue 0 with the card of this launch at RIDX 0, and a task queue 0 with one record. -/
def carded (d : List Nat) : State :=
  let s := putWords (putWords work 0x10000 d) 0x20000 (placedCard.map (·.toNat))
  s.setCtx 0 { s.ctx 0 with queues := [(0, (setAt 0 d 7 0).map (BitVec.ofNat 64))] }

/-- DoorbellCardAndDealing: a sound queue, one that is closed, and descriptors of errors 0x12, 0x11 and 0x10; a card at RIDX. -/
theorem witness_doorbell : ∀ p ∈ [([0x20000, 2 ^ 63 + 4, 1, 0], 0), ([0x20000, 4, 1, 0], 0), ([0x20000, 2 ^ 63 + 3, 1, 0], 0x12),
      ([0x20000, 2 ^ 63 + 4, 0, 1], 0x11), ([0x20000, 2 ^ 63 + 4, 17, 0], 0x10)], let s := carded p.1
    let d := subQueue (wordsOf (memRead s.mem 0x10000 64))
    s.dev.status = 3 ∧ (s.ctx 0).wen = true ∧ (okOf (cuRead s 0 ((s.ctx 0).subDesc 0) 64).2).isSome = true ∧ (s.ctx 0).stopped = [] ∧
    d.post = false ∧ d.err = false ∧ (p.2 = 0x12 ↔ d.log2 < 4) ∧ (p.2 = 0x11 ↔ d.widx < d.ridx) ∧ (p.2 = 0x10 ↔ d.ridx + 2 ^ d.log2 < d.widx) := by
  decide +kernel

theorem witness_doorbell_window : InCtxWindow work 0 ((work.ctx 0).subDesc 0) 64 0x10000 := by
  unfold InCtxWindow HeapHolds
  decide +kernel

theorem witness_card : let s := carded [0x20000, 2 ^ 63 + 4, 1, 0]
    (s.ctx 0).queues.find? (fun p => p.1 == 0) = some (0, wordsOf (memRead s.mem 0x10000 64)) ∧
    (okOf (cuRead s 0 0x20000 256).2).isSome = true := by decide +kernel

/-- The same: a launch of which a team is eligible, that the dealing pass picks, with cores of cluster 0 that can hold it. -/
def backed (s : State) : State := { s with dev := { s.dev with rback := BitVec.ofNat 64 (2 ^ 32 + 1) } }
def dealing : State := backed { work with launches := [{ work.launch 0 with gone := [] }] }

theorem witness_deal : dealing.deals = true ∧ (dealing.launch 0).retired = false ∧ (dealing.launch 0).fallback = false ∧ 1 ≤ (dealing.launch 0).crew ∧
    (dealing.launch 0).metTiles = [] ∧ bestWork ((List.range 1).foldl killStale dealing) = some (.launch 0) ∧
    launchRestores ((List.range 1).foldl killStale dealing) 0 = false ∧
    (eligibleCores ((List.range 1).foldl killStale dealing) 0 ((((List.range 1).foldl killStale dealing).launch 0).fit)
      (((List.range 1).foldl killStale dealing).launch 0).crew).any (fun k => k / 4 == 0) = true := by decide +kernel

/-- DispatchAndTaskPop: a dealt team that a core of its cluster can hold, its argument record readable and not; a task queue with one record. -/
def dealtTo (arg : Nat) : State :=
  { dealing with
    launches := [{ work.launch 0 with card := setAt 0 placedCard 1 (BitVec.ofNat 64 arg) }]
    teams := dealing.teams ++ [{ launch := some 0, vregs := 256, entry := 0x1000, place := .dealt 0 }] }

theorem witness_dispatch : (dealtTo 0).deals = true ∧ ((dealtTo 0).team 1).place = .dealt 0 ∧ ((dealtTo 0).team 1).crew ≤ 1 ∧
    ((dealtTo 0).ctx 0).runs = true ∧ 1 ≤ (roomNow (dealtTo 0) 0).most ((dealtTo 0).team 1).fit ∧ ((dealtTo 0).core 0).held = [0] ∧
    wfield (((dealtTo 0).launch 0).w 1) 0 57 = 0 ∧ (okOf (cuRead (dealtTo 0) 0 0 64).2).isSome = true ∧
    wfield (((dealtTo (2 ^ 40)).launch 0).w 1) 0 57 = 2 ^ 40 ∧ (okOf (cuRead (dealtTo (2 ^ 40)) 0 (2 ^ 40) 64).2).isSome = false := by decide +kernel

def tasked : State :=
  backed (putWords (putWords { work with launches := [{ work.launch 0 with retired := true }] } 0x14000 [0x30000, 2 ^ 63 + 8 * 2 ^ 13 + 4, 1, 0]) 0x30000
    [0x1000, 0, 0, 1])

theorem witness_task_pop : let s := tasked
    let d := wordsOf (memRead s.mem 0x14000 64)
    s.deals = true ∧ (s.ctx 0).wen = true ∧ okOf (cuRead s 0 ((s.ctx 0).taskDesc 0) 64).2 = some (memRead s.mem 0x14000 64) ∧
    getAt 0 d 2 ≠ getAt 0 d 3 ∧ wfield (getAt 0 d 1) 63 1 = 1 ∧ wfield (getAt 0 d 1) 0 5 = 4 ∧ taskTooBig s 0 d = false ∧
    (okOf (cuRead s 0 0x30000 128).2).isSome = true := by decide +kernel

theorem witness_task_record : let s := tasked
    let d := wordsOf (memRead s.mem 0x14000 64)
    let r := wordsOf (memRead s.mem 0x30000 128)
    recordBad r = false ∧ 1 ≤ (roomNow s 0).most (taskFit d r) ∧ (s.ctx 0).part.getLsbD 0 = true ∧ taskRestores s 0 0 = [] ∧
    bestWork s = some (.task 0 0) ∧ (s.ctx 0).purges = [] := by decide +kernel

/-- RetirementEvents: a team and a task whose group has ended; a join counter above one, at one with and without a continuation, and at zero,
with a queue that has room and one that has none; a pending continuation; a launch whose teams are all gone. -/
def allEnded : State := { work with groups := [{ work.group 0 with ended := true }] }

theorem witness_retire : (allEnded.team 0).place = .resident ∧ (allEnded.group 0).ended = true ∧ (allEnded.core 0).reqs = [] ∧ (allEnded.team 0).launch = some 0 ∧
    ((allEnded.setTeam 0 { allEnded.team 0 with launch := none, task := some (0, 0) }).team 0).task = some (0, 0) := by decide +kernel

def joining (n w1 head pend : Nat) : State := putWords (putWords work 0x40000 [n, w1]) 0x14000 [0x30000, 2 ^ 63 + 4, head, 0, 0, pend]

theorem witness_join : ∀ p ∈ [(2, 0, 0), (1, 0, 0), (1, 2 ^ 63, 0), (1, 2 ^ 63, 16), (0, 0, 0), (2 ^ 63, 0, 0)],
    let s := joining p.1 p.2.1 p.2.2 0
    Memory.wf s.mem = true ∧ memNat s.mem 0x40000 8 = p.1 ∧ memNat s.mem 0x40008 8 = p.2.1 ∧ memNat s.mem 0x14010 8 = p.2.2 ∧
    memNat s.mem 0x14020 8 = 0 ∧ memNat s.mem 0x14028 8 = 0 := by decide +kernel

theorem witness_pend : let s := joining 0 0 0 0x40000
    s.dev.status = 3 ∧ (s.ctx 0).wen = true ∧ memNat s.mem 0x14028 8 = 0x40000 ∧ memNat s.mem 0x14010 8 = 0 := by decide +kernel

theorem witness_join_windows : (work.ctx 0).taskDesc 0 = 0x14000 ∧ ∀ q ∈ [(0x40000, 256), (0x14000, 64), (0x30000, 128)],
    InCtxWindow work 0 q.1 q.2 q.1 := by
  unfold InCtxWindow HeapHolds
  decide +kernel

def retiring : State :=
  { allEnded with
    teams := [{ allEnded.team 0 with place := .retired }]
    launches := [{ allEnded.launch 0 with card := setAt 0 placedCard 5 0x50000 }] }

theorem witness_launch_retire : retiring.dev.status = 3 ∧ (retiring.launch 0).retired = false ∧ (retiring.launch 0).teams = 1 ∧
    (retiring.launch 0).gone = [0] ∧ (retiring.team 0).place.over = true ∧ wfield ((retiring.launch 0).w 5) 0 57 = 0x50000 ∧
    (retiring.launch 0).posted = false := by decide +kernel

theorem witness_completion_window : InCtxWindow work 0 0x50000 64 0x50000 := by
  unfold InCtxWindow HeapHolds
  decide +kernel

/-- RowEvents: a grow that finds rows above its run, one that finds none, one 4,096 cycles old, and a group to promote. -/
def growing (s : State) (n since : Nat) : State :=
  let s := s.setGroup 0 { s.group 0 with wait := .grow n since 8 }
  s.setCore 0 { s.core 0 with grows := [0], cycles := 4096 }

theorem witness_row_events : (growing small 256 0).dev.status ≠ 7 ∧ ((growing small 256 0).core 0).grows = [0] ∧
    runFree (rowsUsed (growing small 256 0) 0) 8 248 = true ∧ (growNow (growing crowded 9 0) 0 9).isNone = true ∧
    4096 ≤ ((growing crowded 9 0).core 0).cycles - 0 ∧ ((growing crowded 9 1).core 0).cycles - 1 < 4096 := by decide +kernel

theorem witness_promote : let s := unitG fun x => { x with vres := 8 }
    (s.core 0).grows = [] ∧ (s.core 0).held = [0] ∧ (s.group 0).vres < (s.group 0).vbound ∧ (pickRun s 0 256).isSome = true := by decide +kernel

/-- SwapRestoreAndPlace: a stalled core whose team can be saved while a launch waits; a saved team that can return; one that no core can hold. -/
def stalling : State :=
  let s := dealing.setCore 0 { dealing.core 0 with stall := 0x10000 }
  let s := s.setGroup 0 { s.group 0 with wait := .none, log := [] }
  s.setCtx 0 { s.ctx 0 with save := BitVec.ofNat 64 (2 ^ 22 + 16) }

theorem witness_swap : stalled stalling 0 = true ∧ swapChoice stalling 0 = some 0 ∧ (stalling.team 0).place = .resident ∧
    freeRecords stalling 0 = List.range 16 ∧ AtRest (stalling.group 0) := by
  unfold AtRest
  decide +kernel

def saved : State :=
  let s := stalling.setTeam 0 { stalling.team 0 with place := .saved 0 }
  let s := { s with launches := [{ s.launch 0 with gone := [0] }] }
  s.setCore 0 { s.core 0 with teams := [], groups := [] }

theorem witness_restore : (saved.team 0).place = .saved 0 ∧ saved.deals = true ∧ (saved.ctx 0).runs = true ∧ nowhere saved 0 = false ∧
    restorePlaces saved 0 = some [0] ∧ 1 ≤ (roomNow saved 0).most (saved.team 0).restoreFit ∧ bestWork saved = teamWork saved 0 ∧
    (saved.core 0).held = [] ∧ (saved.team 0).groups = [0] ∧ Memory.wf saved.mem = true := by decide +kernel

theorem witness_place : let s := saved.setCtx 0 { saved.ctx 0 with part := 0 }
    nowhere s 0 = true ∧ ((s.setTeam 0 { s.team 0 with place := .placeErr 0 }).team 0).place = .placeErr 0 := by decide +kernel

/-- PreemptionAndHalt: a context without enough records, one with enough, a team that is halting, states 10 and 11, a core of a sealed context. -/
theorem witness_preempt : (unit.ctx 0).pstate = 0 ∧ recordBound unit 0 = 0 ∧ (work.ctx 0).nrec < recordBound work 0 ∧ AtRest (unit.group 0) ∧
    (∀ n ∈ [2, 3], (((unitX fun x => { x with pstate := n }).ctx 0).pstate = n)) ∧
    (let s := (stalling.setTeam 0 { stalling.team 0 with place := .halting }).setCtx 0 { stalling.ctx 0 with pstate := 1 }
     (teamIds s fun t => t.ctx == 0 && t.place == .halting).length ≤ (freeRecords s 0).length) ∧
    sealedHere (unitX fun x => { x with sealed := true }) 0 = true ∧ sealedHere unit 0 = false := by
  unfold AtRest
  decide +kernel

-- Events of the device --------------------------------------------------------------------------------------------------------------------

/-- ShootdownFaultAndCopyEvents: a shootdown that finds a queue with room and a full one; one that completes with and without a held one; a
group and a chunk that wait on a fault; a record that finds room. -/
def shooting (n : Nat) (held : List Shoot) : State :=
  { unit with dev := { unit.dev with shootQ := List.replicate n ⟨0, none, true⟩, shootHeld := held, shootIn := n } }

theorem witness_shootdown : (shooting 15 []).dev.status = 3 ∧ ((shooting 15 []).dev.shootQ.filter (·.host)).length = 15 ∧
    16 ≤ ((shooting 16 []).dev.shootQ.filter (·.host)).length ∧ (shooting 1 []).dev.shootQ = [⟨0, none, true⟩] ∧
    (shooting 16 [⟨1, some 0x5000, true⟩]).dev.shootQ.drop 1 = List.replicate 15 ⟨0, none, true⟩ := by decide +kernel

def watchedLane : State := { shooting 1 [] with groups := [{ unit.group 0 with watch := some ⟨0x80, 0x80, 0, 12⟩ }] }

theorem witness_shootdown_watch : (watchedLane.group 0).watch = some ⟨0x80, 0x80, 0, 12⟩ ∧ watchedLane.dev.shootQ = [⟨0, none, true⟩] := by decide +kernel

def faulted : State :=
  let e : Entry :=
    { accEntry with instr := .ld ldF, b := [List.replicate 32 0], c := [List.replicate 32 16], fseq := some 5, faults := [⟨0, 1, 16, 0⟩] }
  unitG fun x => { x with wait := .fault 5, log := [e] }

theorem witness_answer_group : faulted.dev.status ≠ 7 ∧ waitingGroup faulted 0 5 = some 0 ∧ (faulted.group 0).inh = false ∧
    (faulted.group 0).pcvBad = false ∧ (faulted.group 0).vbad = [] ∧ wfield (faulted.team 0).vec 0 1 = 1 ∧ Memory.wf faulted.mem = true ∧
    waitingGroup unit 0 5 = none ∧ waitingColl unit 0 5 = none ∧ (waitingChunk unit 0 5).isNone = true := by decide +kernel

theorem witness_retry_done : ∃ u, performEntry 0 ({ ((faulted.group 0).log.headD accEntry) with fseq := none, faults := [] })
    ((dropRecords faulted 0 5).setGroup 0 { faulted.group 0 with
      wait := .again, log := [{ ((faulted.group 0).log.headD accEntry) with fseq := none, faults := [] }] }) = .done u :=
  done_of (by decide +kernel)

/-- The same: a request of one element that is to be copied in, and out, and one whose chunk waits on a fault. -/
def request (dir : Nat) (waits : List ChunkWait) : CopyReq :=
  { id := 0, group := 0, team := 0, pc := 0x1000, left := if waits.isEmpty then [0] else [], waiting := waits
    words := copyWords [dir * 2 ^ 62, 0x2000000400, 2 ^ 32, 2 ^ 40, 2 ^ 40, 2 ^ 40] }
def copying (dir : Nat) (waits : List ChunkWait) : State :=
  let s := spadWords unit [0, 0, 0, 0, 2 ^ 32 + 1]
  s.setCore 0 { s.core 0 with reqs := [request dir waits] }

theorem witness_chunk : ∀ dir ∈ [0, 1], let s := copying dir []
    let d := copyDesc (request dir []).words
    (s.core 0).powered = true ∧ s.poison = [] ∧ (s.team 0).sppois = [] ∧ (s.team 0).waiters = [] ∧ (s.team 0).spadKiB ≤ 512 ∧
    copyReason s 0 (request dir []).words = none ∧ d.chunks = 1 ∧ d.spaddr / 2 ^ 29 % 2 = 0 ∧ d.scaleBytes = 0 ∧ d.dir = dir ∧ d.mx = false ∧
    d.gf = d.pf ∧ d.inRange 0 = true ∧ (d.range 0).1 % 2 ^ 19 = 0x400 ∧ d.bar = 32 := by decide +kernel

theorem witness_chunk_checks : ((engineChecks (copying 0 []) 0 .load 0 [((copyDesc (request 0 []).words).addr 0, 1)]).2.2.isEmpty = true ∧
      (engineChecks (copying 1 []) 0 .store 0 [((copyDesc (request 1 []).words).addr 0, 1)]).2.2.isEmpty = true) ∧
    Canonical (copying 0 []) ∧ Unwritten (copying 1 []) {} 0 1 := by
  refine ⟨by decide +kernel, by unfold Canonical; decide +kernel, unwritten (by decide +kernel) rfl⟩

theorem witness_answer_chunk : let s := copying 0 [⟨0, 5, 1, 0x7000⟩]
    waitingGroup s 0 5 = none ∧ (waitingChunk s 0 5).isSome = true ∧ (s.core 0).reqs.length = 1 := by decide +kernel

theorem witness_record : let s := withFaults work 0
    let s := s.setCtx 0 { s.ctx 0 with records := [⟨5, true, [1, 2, 3, 4]⟩] }
    (s.ctx 0).fqUsable = true ∧ ((s.ctx 0).fqHead - (s.ctx 0).fqTail).toNat ≠ 2 ^ wfield (s.ctx 0).faultq 0 5 ∧
    okOf (checkAccess s ⟨0, none, .store, 0x20000, 32, none⟩).2 = some [⟨0x20000, 0x20000, 32, 30⟩] := by decide +kernel

/-- RegisterEvents: a region table written while the context holds work and while it holds none, in use and not; the offsets where one
register's range ends and the next begins; PWRCTL values that are kept and that are not. -/
def tabled (v : Word) (idle : Bool) : State :=
  let s := if idle then { work with launches := [{ work.launch 0 with retired := true }], teams := [{ work.team 0 with place := .retired }] } else work
  s.setCtx 0 { s.ctx 0 with regPend := some v }

theorem witness_regtab : idleCtx (tabled 0 false) 0 = false ∧ idleCtx (tabled 0 true) 0 = true ∧ idleCtx (tabled 0x800001 true) 0 = true ∧
    wfield (0 : Word) 0 1 = 0 ∧ wfield (0x800001 : Word) 0 1 = 1 ∧
    (okOf (checkAccess (tabled 0x800001 true) ⟨0, none, .load, wfield (0x800001 : Word) 11 46 * 2048, 2048, none⟩).2).isSome = true := by decide +kernel

theorem witness_offsets :
    (∀ off ∈ [0x083F, 0x0880, 0x0841, 0xFFFFF, 0x140000], (off < 0x0840 ∨ 0x0880 ≤ off ∨ off % 8 ≠ 0) ∧ (off < 0x100000 ∨ 0x140000 ≤ off)) ∧
    (∀ off ∈ [0x100000, 0x13FFFF], ∃ c ∈ List.range 64, off / 0x1000 = 0x100 + c ∧ off % 0x1000 < 0x1000) ∧
    (∀ off ∈ [0x1000, 0x1FF8], 0x1000 ≤ off ∧ off < 0x2000) ∧ (∀ n ∈ [0, 127], 0x0400 + 8 * n < 0x0800) ∧ (0x088 : Nat) ≤ 0x088 ∧
    (wfield (BitVec.ofNat 64 (80 * 2 ^ 19 + 80 * 2 ^ 11)) 19 8 ≤ wfield (BitVec.ofNat 64 (80 * 2 ^ 19 + 80 * 2 ^ 11)) 11 8) ∧
    ¬ wfield (BitVec.ofNat 64 (81 * 2 ^ 19 + 80 * 2 ^ 11)) 19 8 ≤ wfield (BitVec.ofNat 64 (81 * 2 ^ 19 + 80 * 2 ^ 11)) 11 8 := by decide +kernel

theorem witness_register_reads : ∀ off ∈ [0x000, 0x078, 0x080, 0x088, 0x090, 0x0008, 0x1FF8],
    ({ unit with agenda := [.regRead (some 0) off 8] } : State).agenda = [.regRead (some 0) off 8] ∧ unit.dev.status = 3 := by decide +kernel

/-- PowerFatalAndBringup: levels and temperatures at the ends of their ranges, each state of the device, a dump region, cores with and without
a team. That an image is valid is no fact of the model, so no image is shown here. -/
theorem witness_power : (∀ q ∈ List.replicate 127 0 ++ [15], q ≤ 15) ∧ (List.replicate 127 0 ++ [15]).length = 128 ∧
    (∀ x ∈ List.replicate 127 0 ++ [104], x < 105) ∧ (∀ x ∈ List.replicate 127 255 ++ [105], x ≤ 255 ∧ 105 ≤ x) ∧
    (∀ n ∈ [0, 1, 2, 3, 7], ({ unit.dev with status := n } : Dev).status = n) ∧ Memory.wf unit.mem = true ∧
    (unit.team 0).core = 0 ∧ (unit.team 0).place.onCore = true ∧ (∀ k, k < unit.teams.length → (unit.team k).core ≠ 1) ∧
    wfield (BitVec.ofNat 64 (2 ^ 26 + 1)) 0 1 = 1 := by decide +kernel

/-- SealNodeAndPortEvents: a device without a live port, one with a live port that carries no IDE stream; a sealed context with a report; a member
of the node and another device; a port that goes down while a collective uses it. -/
def linked (ide : Bool) : State := { unit with dev := { unit.dev with ports := [{ up := true, peer := 6, far := 0, ide }] } }
def node : State := { unit with dev := { unit.dev with node := 0x100, nodemap := 3 } }

theorem witness_seal : unit.dev.ports.all (fun p => !p.up) = true ∧ (unit.ctx 0).sealed = false ∧ (∀ p ∈ (linked true).dev.ports, p.ide = true) ∧
    (∃ p ∈ (linked false).dev.ports, p.up = true ∧ p.quar = false ∧ p.ide = false) ∧ node.dev.member 1 = true ∧ node.dev.member 2 = false ∧
    node.dev.nen = true ∧ node.dev.nodeId = 0 ∧ ((unitX fun x => { x with sealed := true, eph := some 0 }).ctx 0).eph = some 0 := by decide +kernel

def using_ (coll : Coll) : State := { linked false with colls := [{ coll with ents := [5, 6], mine := [⟨0, 1, 0, 0⟩], begun := true }] }

theorem witness_link_down : ((using_ {}).port 0).up = true ∧ ((using_ {}).port 0).quar = false ∧
    ((using_ {}).coll 0).mine.filter (fun e => !((e.a == 0 && e.p == 0) || (e.b == 0 && e.pb == 0))) = [] ∧ ((using_ {}).coll 0).ended = false ∧
    ((using_ { err := 6 }).coll 0).err = 6 ∧ (((using_ {}).setPort 0 { (using_ {}).port 0 with quar := true }).port 0).quar = true := by decide +kernel

/-- CollectiveEvents: a collective of this rank alone that has not begun; of two ranks that has heard only its own flood, both, and floods that
differ; chunks whose messages are early, late and due; a rebuild; a completion. -/
def alone : State := (collGive (windowed collective) 0 { accEntry with b := [List.replicate 32 0] } 0 (wordsOf (memRead collective.mem 0 128)) 1 0 [5]) |> fun p =>
  match p with | .done s => s | _ => collective

theorem witness_coll_start : 0 < alone.colls.length ∧ (alone.coll 0).ended = false ∧ (alone.coll 0).begun = false ∧ (alone.coll 0).err = 0 ∧
    (alone.coll 0).ready = false ∧ (alone.coll 0).wait = none ∧ (alone.coll 0).epoch = 0 ∧ (alone.coll 0).n = 1 ∧ alone.dev.inbox = [] := by
  decide +kernel

def begun : State := alone.setColl 0 { alone.coll 0 with begun := true, floods := [ownFlood (alone.coll 0)] }

theorem witness_coll_alone : (begun.coll 0).begun = true ∧ (begun.coll 0).heard = true ∧ (begun.coll 0).n = 1 ∧ (begun.coll 0).d.overlap 1 = false ∧
    (∀ f ∈ (begun.coll 0).floods, f.params = (ownFlood (begun.coll 0)).params ∧ f.entries = (begun.coll 0).ents) ∧
    (whistChecks (begun.setColl 0 { begun.coll 0 with trees := [], cs := 2 ^ 18 }) 0 .store
      [((begun.coll 0).d.prog, 8 * ({ begun.coll 0 with trees := [], cs := 2 ^ 18 } : Coll).nch)]).2.isSome = true := by decide +kernel

/-- A collective of two ranks with one link between them, and the flood of a rank. -/
def floodOf (c : Coll) (rank epoch wlen : Nat) (edges : List Edge) : FloodMsg := { ownFlood c with rank, epoch, edges, wlen }
def pairOf (f : Coll → Coll) : State :=
  let c := { alone.coll 0 with ents := [5, 6], mine := [⟨0, 1, 0, 0⟩], begun := true }
  { alone with colls := [f c] }
def heardBoth (wlen : Nat) (edges : List Edge) (c : Coll) : Coll :=
  { c with floods := [floodOf c 0 c.epoch wlen edges, floodOf c 1 c.epoch wlen edges] }

theorem witness_coll_hears :
    ((pairOf id).coll 0).heard = false ∧ ((pairOf id).coll 0).cutOff = false ∧
    ((pairOf fun c => { c with floods := [floodOf c 0 0 0 []] }).coll 0).cutOff = true ∧
    ((pairOf (heardBoth 0 [])).coll 0).heard = true ∧ linkTable ((pairOf (heardBoth 0 [])).coll 0).floods = [] ∧
    buildTrees 2 4 0 (linkTable ((pairOf (heardBoth 0 [⟨0, 1, 0, 0⟩])).coll 0).floods) ≠ [] ∧
    (¬ ∀ f ∈ ((pairOf fun c => { heardBoth 0 [] c with floods := [floodOf c 0 0 0 [], { floodOf c 1 0 0 [] with params := [] }] }).coll 0).floods,
      f.params = (ownFlood ((pairOf id).coll 0)).params) := by decide +kernel

/-- No size fits a WBUF of no bytes, 256 KiB fit one of 2^24. -/
theorem witness_coll_fits : let c := (pairOf (heardBoth 0 [⟨0, 1, 0, 0⟩])).coll 0
    let need := fun (cs : Nat) => cs * (2 * (waits c.d c.n 0 (buildTrees 2 4 0 (linkTable c.floods))).sum)
    (∀ n, n < 19 → 12 ≤ n → 0 < need (2 ^ n)) ∧ need (2 ^ 18) ≤ 2 ^ 24 ∧ c.d.overlap c.n = false := by decide +kernel

/-- Messages: of a collective not begun here, of an epoch that is over, of the present one, of one to come. -/
def readyColl (c : Coll) : Coll := { c with epoch := 1, ready := true, trees := [([⟨0, 1, 0, 0⟩], 0)], cs := 2 ^ 18, chunks := [{ epoch := 1, state := 1 }] }

theorem witness_coll_messages : (∀ c ∈ alone.colls, c.begun = false) ∧
    (0 < (pairOf readyColl).colls.length ∧ ((pairOf readyColl).coll 0).begun = true ∧ ((pairOf readyColl).coll 0).commId = 1 ∧ ((pairOf readyColl).coll 0).seqNo = 0) ∧
    ((pairOf readyColl).coll 0).epoch = 1 ∧ ((pairOf readyColl).coll 0).floods = [] ∧ ((pairOf readyColl).coll 0).notices = [] ∧
    ((pairOf readyColl).coll 0).chunks.length = 1 ∧ ((pairOf readyColl).coll 0).ready = true ∧ ((pairOf id).coll 0).ready = false := by decide +kernel

/-- A rebuild whose trees fit twice, once, one at a time and not at all; no trees; a rank cut off; one without links. -/
theorem witness_coll_rebuild : (∀ w ∈ [0, 2 ^ 18, 2 ^ 24],
      let c := (pairOf fun c => heardBoth w [⟨0, 1, 0, 0⟩] { c with epoch := 1, chunks := [{}], cs := 2 ^ 18 }).coll 0
      c.heard = true ∧ c.chunks ≠ [] ∧ c.epoch ≠ 0 ∧ c.ready = false ∧ c.begun = true ∧ buildTrees c.n 4 0 (linkTable c.floods) ≠ []) ∧
    ((pairOf fun c => { c with epoch := 1, mine := [] }).coll 0).mine = [] ∧ ((pairOf fun c => { c with epoch := 1, mine := [] }).coll 0).n ≠ 1 := by decide +kernel

/-- A collective whose chunks are done, and one that failed. -/
theorem witness_coll_ends : ∀ f ∈ [fun c : Coll => { c with ready := true, chunks := [{ state := 2 }] }, fun c : Coll => { c with err := 8 }],
    ((pairOf f).coll 0).ended = false ∧ ((pairOf f).coll 0).err < 2 ^ 4 ∧ ((pairOf f).coll 0).trees.length < 2 ^ 12 ∧
    (whistChecks (pairOf f) 0 .store [(((pairOf f).coll 0).desc + 80, 8)]).2.isSome = true := by decide +kernel

/-- ForeignAccesses: a host access in local memory that crosses words, one in the window of a sealed context, one outside; a peer's atomic and
gate operations on a word that is free, held, and malformed. -/
def sealedWork : State := work.setCtx 0 { work.ctx 0 with sealed := true }

theorem witness_foreign : localRange work.dev 0x1FFFFE 4 = true ∧ inSealedWindow work 0x1FFFFE 4 = false ∧ inSealedWindow sealedWork 0x1FFFFE 4 = true ∧
    localRange work.dev 0x800000000000 4 = false ∧ Memory.wf work.mem = true ∧ work.ctxs.length = 2 ∧
    (∀ n ∈ [0, 1, 2 ^ 63, 2 ^ 32, 2 ^ 63 + 1], memNat (putWords work 0x100 [n]).mem 0x100 8 = n) ∧ (∀ ty ∈ [0, 1, 4, 5, 8], tyWidth ty = 32 ∨ tyWidth ty = 64) := by
  decide +kernel

theorem witness_foreign_homes : HomeNextRange work (work.peer ⟨1, 0⟩) 0x100 8 := home_next (by decide +kernel) (by decide +kernel)

-- More hypotheses, rows and then events ------------------------------------------------------------------------------------------

/-- LogAddElements, ConversionsAndDotProducts: an enclosure that settles its nearest integer, rationals that are a power of two and that are not. -/
theorem witness_rounding : (2 ^ 97 * (1 : Int) ≤ 2 * (one 96).lo * 2 ^ 0 + 2 ^ 96 ∧ 2 * (one 96).hi * 2 ^ 0 + 2 ^ 96 < 2 ^ 97 * (1 + 1) ∧
      (one 96).lo ≤ (one 96).hi) ∧
    (∀ p ∈ [(1, 8, (-3 : Int)), (8, 1, 3)], p.1 * 2 ^ (-p.2.2).toNat = p.2.1 * 2 ^ p.2.2.toNat) ∧
    ∀ p ∈ [(3, 1, (1 : Int)), (1, 3, -2)], p.2.1 * 2 ^ p.2.2.toNat ≤ p.1 * 2 ^ (-p.2.2).toNat ∧
      p.1 * 2 ^ (-p.2.2).toNat < 2 * (p.2.1 * 2 ^ p.2.2.toNat) := by decide +kernel

theorem witness_irrational (e : Int) : 3 * 2 ^ (-e).toNat ≠ 1 * 2 ^ e.toNat := by
  rcases Int.le_total e 0 with h | h
  · have := Nat.one_le_two_pow (n := (-e).toNat)
    rw [show e.toNat = 0 by omega]
    omega
  · rw [show (-e).toNat = 0 by omega]
    cases e.toNat with
    | zero => decide
    | succ n => rw [Nat.pow_succ]; omega

/-- JoinWaitExitNop: a lane parked earlier that a JOIN, a WAIT and an EXIT free, and one that waits on. -/
def parked (j : Mask) : State := unitG fun x => { x with lanes := setAt {} x.lanes 31 { pc := 0x2000, p := true, n := 1 }, j := [0, j] }

theorem witness_parked : ∀ j ∈ [2 ^ 31, 2 ^ 31 + 1], ∀ i ∈ [Instr.join { waitF with d := vr 2 }, .wait { waitF with d := vr 2 }, .exitShort],
    Runs (parked j) i fun is => is.act.getLsbD 31 = false ∧ ((parked j).group 0).badJoin = none := by
  intro j hj i hi
  fin_cases hj <;> fin_cases hi <;> exact runs (by decide +kernel) (by decide +kernel)

/-- LoggedOutcomes: an entry performed again that then meets NONDET. -/
def lateEntry : Entry := { accEntry with instr := .mhrd (mhrdF 0), late := true }
def lateForeign : State := foreign.setGroup 0 { foreign.group 0 with log := [lateEntry] }

theorem witness_late_nondet : (lateForeign.group 0).log = lateEntry :: [] ∧ lateEntry.late = true ∧
    ∃ u c, performEntry 0 lateEntry lateForeign = .nondet u c := ⟨by decide +kernel, rfl, nondet_of (by decide +kernel)⟩

/-- CopyRows: ABWAIT of helper lanes alone whose barrier is not aligned, does not exist, has not its phase, has it, and was abandoned. -/
def helping (s : State) : State := s.setGroup 0 { s.group 0 with lanes := (s.group 0).lanes.map fun l => { l with h := true } }

theorem witness_abwait_helpers : ∀ s ∈ [helping (scalars unit [0, 0, 16]), helping (scalars unit [0, 0, 4096]), helping (scalars unit [0, 0, 0, 1]),
    helping unit, helping abandoned], Runs s (.abwait abwaitF) fun is => is.act &&& ~~~is.help = 0 := by
  intro s hs
  fin_cases hs <;> exact runs (by decide +kernel) (by decide +kernel)

/-- GateRows: the count of holders at its greatest, granted once more and with a waiting group; a release at which every word of the gate is the
group's to write. -/
theorem witness_gate_wrap : Runs (gated 0xFFFFFFFF) (.gacq (gateF 1)) (fun is => memNat (gated 0xFFFFFFFF).mem 0x100 8 = 0xFFFFFFFF ∧
      ((entryOf (gated 0xFFFFFFFF) (.gacq (gateF 1)) (gateF 1) is).bv 0).toNat = 0x100) ∧
    Runs (queued 0xFFFFFFFF true) (.grel grelF) (fun is => memNat (queued 0xFFFFFFFF true).mem 0x100 8 = 0xFFFFFFFF ∧ is.g = 0) ∧
    ∀ h ∈ [0, 1], HomeNextRange (queued 0xFFFFFFFF true) ((queued 0xFFFFFFFF true).group h).view 0x100 8 ∧ NoSide (queued 0xFFFFFFFF true) h 0x100 8 := by
  refine ⟨runs (by decide +kernel) (by decide +kernel), runs (by decide +kernel) (by decide +kernel), ?_⟩
  intro h hh
  fin_cases hh <;> exact ⟨home_next (by decide +kernel) (by decide +kernel), no_side (by decide +kernel) (by decide +kernel)⟩

/-- MatrixStreamRows: streamed rows of 128 and of 256 elements, with no scale and with two; planes that are dense and sparse, with equal column
scales and with one above the others; SMEXT beyond 16 bits. -/
def streamed : List (StreamRow × Int) := [(⟨List.replicate 128 (.num 0 0), [(0, false)]⟩, 0), (⟨List.replicate 256 .zero, [(-5, true), (7, true)]⟩, 7)]

theorem witness_stream_rows : ∀ q ∈ streamed, let r := q.1
    (r.a.length = 128 ∨ r.a.length = 256) ∧ r.ka.length = r.a.length / 128 ∧ (∀ k ∈ r.ka, k.2 = true → k.1 ≤ q.2) ∧
    (if r.ka.any (·.2) then (q.2, true) ∈ r.ka else q.2 = 0) := by decide +kernel

theorem witness_planes : ∀ q ∈ [(({} : Plane), (0 : Int)), ({ sparse := true, scales := 3 :: List.replicate 255 (-128), metab := [89] }, 3)],
    (∀ c, c < 256 → Int.bmod (getAt 0 q.1.scales c).toNat 256 ≤ q.2) ∧ ∃ c ∈ List.range 256, Int.bmod (getAt 0 q.1.scales c).toNat 256 = q.2 := by
  decide +kernel

theorem witness_metadata (m : Nat) : (getAt (0 : Byte) [89] m).toNat < 90 := by
  rcases m with _ | m <;> simp [getAt]

theorem witness_mma_extent : ∀ i ∈ [Instr.mma mmaF, .mmat mmaF], Runs (descr (63 + 1024) [0, 0, 2 ^ 16 * 4 + 2 ^ 48, 0x1000]) i fun is =>
    (cell (entryOf (descr (63 + 1024) [0, 0, 2 ^ 16 * 4 + 2 ^ 48, 0x1000]) i mmaF is).b 2 0).toNat / 2 ^ 32 % 2 ^ 32 = 2 ^ 16 := by
  intro i hi
  fin_cases hi <;> exact runs (by decide +kernel) (by decide +kernel)

/-- FirstCauseIsTaken: a join register that fails as release reads it, the first and the last. -/
def badJoins (n : Nat) : State := unitG fun x => { x with lanes := setAt {} x.lanes 31 { pc := 0x2000, p := true, n }, vbad := [(.j n, 0)] }

theorem witness_bad_join : ∀ n ∈ [0, 3], IsDue (badJoins n) .nopShort fun is => let x := (badJoins n).group is.g
    x.wait = .none ∧ x.pcvBad = false ∧ precheck (badJoins n) is .nopShort = none ∧ (Res.j n, 0) ∈ x.vbad ∧ 31 < x.lanes.length ∧
    (x.lane 31).p = true ∧ (x.lane 31).x = false ∧ (x.lane 31).n = n := by
  intro n hn
  fin_cases hn <;> exact is_due (by decide +kernel) (by decide +kernel)

/-- FetchAndTrapEvents: a code word in a line whose first mark is another's, and its own; a code word written later than what the view holds, and
one that it holds; a mark of the core's copy alone behind, in and in front of the buffer. -/
theorem witness_code_line : ∀ n ∈ [0, 3], let s := { work with poison := [128 + n] }
    poisonIn s (0x1000 + 32 * n) 4 ≠ none ∧ (∀ j, j < 8 * n → poisonIn s (0x1000 + 4 * j) 4 = none) ∧ 8 * n < 32 ∧
    (poisonIn s 0x1004 4 = none ↔ n = 3) ∧ (∀ k, k < 32 → poisonIn work (0x1000 + 4 * k) 4 = none) := by decide +kernel

def rewritten (held : Bool) : State :=
  let s := { work with writes := [⟨0x1000, 0, 0x1000, 0x2DC, 7, .grp 1, 2, [0], [], none⟩] }
  s.setGroup 0 { s.group 0 with view := { (s.group 0).view with code := if held then [0] else [] } }

theorem witness_code_writes : ∀ b ∈ [true, false], ∃ w ∈ (rewritten b).writes, writesTo (rewritten b) 0x1000 = [(0, w)] ∧
    (0 ∈ ((rewritten b).group 0).view.code ↔ b = true) := by decide +kernel

theorem witness_bad_code : ∀ va ∈ [0xFFC, 0x1000, 0x1004], let s := { buffered .none 0x2DC with agenda := [.badCode 0 va] }
    s.agenda = [.badCode 0 va] ∧ 0 < s.groups.length ∧ (s.group 0).ended = false ∧ (s.group 0).buf.length ≤ 64 ∧ (s.group 0).bufAt = 0x1000 := by
  decide +kernel

/-- RowEvents, RetirementEvents: a group that is met behind the wait reads no join register that fails. -/
theorem witness_grow_joins : ∀ s ∈ [growing small 256 0, growing crowded 9 0, growing crowded 9 1], (s.group 0).badJoin = none ∧
    ((s.group 0).wait = .grow 256 0 8 ∨ (s.group 0).wait = .grow 9 0 8 ∨ (s.group 0).wait = .grow 9 1 8) := by decide +kernel

/-- PreemptionAndHalt, ShootdownFaultAndCopyEvents: a group that waits in TLBINV for a shootdown that the first completion answers, and for one
that it does not. -/
def inTlbinv (n : Nat) : State :=
  let e : Entry := { accEntry with instr := tlbinv (vr 0) 1, stage := 1, prog := n }
  { shooting 2 [] with groups := [{ unit.group 0 with lanes := List.replicate 32 { pc := 0x1008 }, wait := .shoot n, log := [e] }] }

theorem witness_in_tlbinv : ∀ n ∈ [1, 2], let s := inTlbinv n
    (s.group 0).wait = .shoot n ∧ (s.group 0).badJoin = none ∧ (s.group 0).live ≠ 0 ∧ (s.group 0).ended = false ∧ (s.ctx 0).pstate = 0 ∧
    recordBound s 0 ≤ (s.ctx 0).nrec ∧ (s.team 0).place = .resident ∧ (s.team 0).groups = [0] ∧
    (s.group 0).log.map (·.instr) = [tlbinv (vr 0) 1] ∧ (∀ e ∈ (s.group 0).log, e.replay = false ∧ e.late = false ∧ e.stage ≠ 0 ∧ e.prog = n) ∧ s.dev.shootQ.length = 2 ∧ s.dev.shootIn = 2 ∧ s.dev.status ≠ 7 := by decide +kernel

theorem witness_shoot_held : let s := shooting 15 [⟨1, none, true⟩]
    s.dev.status = 3 ∧ (s.dev.shootQ.filter (·.host)).length < 16 ∧ s.dev.shootHeld ≠ [] := by decide +kernel

/-- ShootdownFaultAndCopyEvents: a request between an older and a newer one of its core, whose chunk is to run, is answered, and writes where a newer
one has; requests that convert an MX block and a block of l8 in either direction, and f4 to l32. -/
def between (dir : Nat) (waits : List ChunkWait) (lost : List (Nat × Nat × Nat)) : State :=
  let s := copying dir waits
  s.setCore 0 { s.core 0 with
    reqs := [{ request 0 [] with id := 7 }] ++ { request dir waits with id := 8, lost } :: [{ request 0 [] with id := 9 }] }

theorem witness_between : ∀ p ∈ [(0, 8), (1, 8)], let s := between p.1 [] [(0, 0x400, 1)]
    (∀ q ∈ [{ request 0 [] with id := 7 }] ++ [{ request 0 [] with id := 9 }], q.id ≠ p.2) ∧ Canonical s ∧ (s.core 0).reqs.length = 3 ∧
    (waitingChunk (between p.1 [⟨0, 5, 1, 0x7000⟩] []) 0 5).isSome = true ∧ waitingGroup (between p.1 [⟨0, 5, 1, 0x7000⟩] []) 0 5 = none ∧
    s.writes.length ≤ { request p.1 [] with id := 8 }.start := by
  intro p hp
  fin_cases hp <;> exact ⟨by decide +kernel, by unfold Canonical; decide +kernel, by decide +kernel, by decide +kernel, by decide +kernel, by decide +kernel⟩

def converting (dir mx gf pf n : Nat) : List Word :=
  copyWords [dir * 2 ^ 62 + mx * 2 ^ 61, gf * 2 ^ 59 + pf * 2 ^ 54 + 0x2000000400, n * 2 ^ 32, 2 ^ 40 + (n - 1), 2 ^ 40, 2 ^ 40, 2 ^ 16, 0, 0x4000, 0x800]

theorem witness_conversions : ∀ q ∈ [(0, 1, 15, 8, 32), (1, 1, 17, 9, 32), (0, 0, 12, 10, 128), (1, 0, 11, 8, 128), (0, 0, 10, 8, 128), (1, 0, 12, 11, 128),
      (0, 0, 10, 10, 128), (1, 0, 16, 9, 1)], let w := converting q.1 q.2.1 q.2.2.1 q.2.2.2.1 q.2.2.2.2
    let d := copyDesc w
    copyReason unit 0 w = none ∧ d.dir = q.1 ∧ (d.mx = true ↔ q.2.1 = 1) ∧ d.gf = q.2.2.1 ∧ d.pf = q.2.2.2.1 ∧ d.spaddr / 2 ^ 29 % 2 = 0 ∧
    d.spscale / 2 ^ 29 % 2 = 0 ∧ d.elems = q.2.2.2.2 ∧ 0 < d.elemChunks ∧ (d.elemChunks < d.chunks ↔ d.scaleBytes ≠ 0) := by decide +kernel

/-- RegisterEvents: a read of the doorbell page; a context no team of which is in error. -/
theorem witness_bell_read : ({ unit with agenda := [.bellRead 0 0 4] } : State).agenda = [.bellRead 0 0 4] ∧ (unit.team 0).place = .resident ∧
    wfield (0x81 : Word) 7 1 = 1 ∧ wfield (0x80 : Word) 0 2 = 0 := by decide +kernel

/-- PowerFatalAndBringup: a dump whose first core's part has memory behind it, with a node and without one. -/
theorem witness_dump : let d : Dev := { unit.dev with dump := BitVec.ofNat 64 (2 ^ 26 + 1) }
    wfield d.dump 0 1 = 1 ∧ d.nen = false ∧ wfield d.dump 26 26 * 2 ^ 26 = 2 ^ 26 ∧ populated d (2 ^ 26 + 0x100000) 0x40000 = true ∧
    populated d (2 ^ 26 + 0x100000 + 0x40000 * 255) 0x40000 = true := by decide +kernel

/-- SealNodeAndPortEvents: a port of a device that is stopped. -/
theorem witness_stopped_port : let s : State := { linked true with dev := { (linked true).dev with status := 7 } }
    (s.port 0).up = true ∧ (s.port 0).quar = false ∧ s.dev.status = 7 := by decide +kernel

/-- CollectiveEvents: a flood of another rank that differs before all are heard; floods of the present epoch that differ, and are held; of a higher
epoch, this rank's, and one that newer floods stand beside; a rank that had not begun, which takes a chunk size and which finds none. -/
def differing (epoch : Nat) : State := pairOf fun c => { c with epoch, floods := [ownFlood c, { floodOf c 1 epoch 0 [] with params := [] }] }

theorem witness_coll_differs : ∀ n ∈ [0, 1], let c := (differing n).coll 0
    ¬ (∀ f ∈ c.floods.filter (fun f => f.epoch == n), f.params = (ownFlood c).params ∧ f.entries = c.ents) ∧ c.begun = true ∧ c.err = 0 ∧
    c.ready = false ∧ c.ended = false ∧ c.wait = none ∧ c.chunks = [] := by decide +kernel

theorem witness_coll_floods : let c := (pairOf fun c => { c with epoch := 1, floods := [floodOf c 1 1 0 [], floodOf c 1 2 0 []] }).coll 0
    let same := fun (m f : FloodMsg) => f.rank == m.rank && f.epoch == m.epoch && f.params == m.params && f.entries == m.entries
    c.err = 0 ∧ c.epoch = 1 ∧ c.floods.any (same (floodOf c 1 1 0 [])) = true ∧ c.floods.any (same { floodOf c 1 1 0 [] with entries := [6, 5] }) = false ∧
    c.epoch < (floodOf c 0 2 0 []).epoch ∧ c.myrank = 0 ∧
    (c.floods.filter fun f => f.epoch == 2 && f.rank != c.myrank).any (same (floodOf c 1 2 0 [])) = true := by decide +kernel

/-- Both floods, of ranks that have a chunk size or none, in epoch 1. -/
def rejoining (wlen cs : Nat) : Coll := (pairOf fun c =>
  { c with epoch := 1, floods := [floodOf c 0 1 wlen [⟨0, 1, 0, 0⟩], { floodOf c 1 1 wlen [⟨0, 1, 0, 0⟩] with cs }] }).coll 0

theorem witness_coll_rejoins : ∀ q ∈ [(2 ^ 24, 2 ^ 14), (2 ^ 24, 0), (0, 2 ^ 14), (0, 0), (2 ^ 15, 2 ^ 14)], let c := rejoining q.1 q.2
    c.heard = true ∧ c.chunks = [] ∧ c.n ≠ 1 ∧ c.built ≠ c.epoch ∧ buildTrees c.n 4 0 (linkTable c.floods) ≠ [] ∧ (∀ f ∈ c.floods, f.epoch = c.epoch ∧
      f.params = (ownFlood c).params ∧ f.entries = c.ents ∧ (f.cs = 0 ∨ f.cs = q.2)) ∧ ((∃ f ∈ c.floods, f.cs ≠ 0) ↔ q.2 ≠ 0) ∧ c.d.overlap c.n = false := by
  decide +kernel

theorem witness_coll_rejoin_checks : let c := rejoining (2 ^ 24) (2 ^ 14)
    let s := pairOf fun _ => c
    let b : Coll := { c with trees := buildTrees c.n 4 0 (linkTable c.floods), cs := 2 ^ 14, flight := 2, recov := 1, built := 1 }
    (whistChecks (s.setColl 0 b) 0 .store [(c.d.prog, 8 * b.nch)]).2.isSome = true := by decide +kernel

/-- ForeignAccesses: a gate word whose holder is a peer and for which a peer and a group wait, shared and alone; the count at its greatest. -/
def peerQueue (word : Nat) (shared : Bool) : State :=
  { queued word shared with gateQ := (if shared then [(0x100, .peer ⟨2, 0⟩, true, .system)] else []) ++ [(0x100, .grp 1, shared, .device)] }

theorem witness_peer_grel : ∀ p ∈ [(1, true), (0xFFFFFFFF, true), (2 ^ 63, false)], let s := peerQueue p.1 p.2
    Memory.wf s.mem = true ∧ localRange s.dev 0x100 8 = true ∧ homeAddr s.dev 0x100 = 0x100 ∧ memNat s.mem 0x100 8 = p.1 ∧ s.dev.status ≠ 7 ∧
    s.gateQ.filter (fun q => q.1 == 0x100) = ((if p.2 then [(Party.peer ⟨2, 0⟩, Scope.system)] else []) ++ [(Party.grp 1, Scope.device)]).map
      (fun h => (0x100, h.1, p.2, h.2)) ++ [] ∧ ((s.gateQ.filter fun q => q.1 == 0x100).map (·.2.1)).Nodup ∧ 1 < s.groups.length ∧
    (s.group 1).log.map (fun e => match e.instr with | .gacq _ => true | _ => false) = [true] := by decide +kernel

theorem witness_peer_homes : ∀ p ∈ [(1, true), (0xFFFFFFFF, true), (2 ^ 63, false)], let s := peerQueue p.1 p.2
    (∀ q ∈ [(⟨1, 0⟩ : PeerId), ⟨2, 0⟩], HomeNextRange s (s.peer q) 0x100 8) ∧ HomeNextRange s (s.group 1).view 0x100 8 ∧ NoSide s 1 0x100 8 := by
  intro p hp
  fin_cases hp <;> refine ⟨?_, home_next (by decide +kernel) (by decide +kernel), no_side (by decide +kernel) (by decide +kernel)⟩ <;> intro q hq <;>
    fin_cases hq <;> exact home_next (by decide +kernel) (by decide +kernel)

-- Hypotheses of further clauses --------------------------------------------------------------------------------------------------

/-- LogAddElements: the last difference of a sum's table and the first beyond it. -/
theorem witness_far_difference : ∀ fmt ∈ [l8, l8w], 0 < 64 * 2 ^ fmt.F - 1 ∧ 64 * 2 ^ fmt.F - 1 < 64 * 2 ^ fmt.F ∧ 64 * 2 ^ fmt.F ≤ 64 * 2 ^ fmt.F := by
  decide +kernel

/-- Loads: helper lanes whose acquire load finds a synchronising write. -/
theorem witness_acquire_helpers : Runs (helping released) (.ld ldaF) fun is => is.help.getLsbD 0 = true ∧ is.act.getLsbD 0 = true ∧
    winner none (writesTo (helping released) 16) = some (0, ⟨16, 0, 16, 0, 0, .grp 1, 2, [], [], some (.device, [0])⟩) :=
  runs (by decide +kernel) (by decide +kernel)

/-- Atomics: two lanes in host memory; the last lane that is left; a group between two lanes. -/
def hostLanes : State := hostPages.setGroup 0 { hostPages.group 0 with p := [3, 3], v := [[], [7, 7], [], [0x1FFFF8, 0x1FFFFC]] }

theorem witness_host_lanes : ∀ f ∈ [atomF 5 0 1, atomF 5 6 1], Runs hostLanes (.atom f) fun is => ∃ u l,
    checked (entered hostLanes (.atom f) f is) is.g (entryOf hostLanes (.atom f) f is) .store 4
      (((entryOf hostLanes (.atom f) f is).accessLanes f.d).map fun n => (n, (cell (entryOf hostLanes (.atom f) f is).b 0 n).toNat)) = (u, .ok l) ∧
    (l = [(0, 0x1FFFF8, [⟨0x1FFFF8, 0x8000001FFFF8, 4, 30⟩]), (1, 0x1FFFFC, [⟨0x1FFFFC, 0x8000001FFFFC, 4, 30⟩])] ∧ is.help = 0 ∧
      isHost 0x8000001FFFF8 = true ∧ f.ty ≠ 8 ∧ (f.xm = 0 ∨ 6 ≤ f.xm.toNat) ∧
      ∀ p ∈ [0x8000001FFFF8, 0x8000001FFFFC], poisonPieces u [⟨p - 0x800000000000, p, 4, 30⟩] = none) := by
  intro p hp
  fin_cases hp <;> exact runs (by decide +kernel) (ok_of
    [(0, 0x1FFFF8, [⟨0x1FFFF8, 0x8000001FFFF8, 4, 30⟩]), (1, 0x1FFFFC, [⟨0x1FFFFC, 0x8000001FFFFC, 4, 30⟩])] (by decide +kernel) (by decide +kernel))

def laneLeft : Entry :=
  { accEntry with instr := .atom (atomF 5 6 1), act := 3, stage := 1, kept := [(0, 5)] ++ [(32 + 1, 0x8000001FFFFC), (64 + 1, 0x1FFFFC)] }
def amidLanes : State := hostLanes.setGroup 0 { hostLanes.group 0 with wait := .lanes, log := [laneLeft] }

theorem witness_lane_left : laneLeft.instr = .atom (atomF 5 6 1) ∧ laneLeft.stage ≠ 0 ∧ (atomF 5 6 1).ty.toNat ∈ [0, 1, 4, 5] ∧
    laneLeft.kept = [(0, 5)] ++ [(32 + 1, 0x8000001FFFFC), (64 + 1, 0x1FFFFC)] ∧ (∀ p ∈ [(0, 5)], p.1 < 32 ∧ p.2 < 2 ^ 32) ∧
    0 < amidLanes.groups.length ∧ Memory.wf amidLanes.mem = true ∧ (amidLanes.group 0).wait = .lanes := by decide +kernel

/-- CopyRows: helper lanes alone with a request of reason 8 and with a sound one; with a barrier of count 0, one that is not aligned, and a sound one. -/
def helpingWith (l : List Nat) : State := spadWords helpers l

theorem witness_copy_helpers : (∀ l ∈ [[0, 8], [0, 0x2000000400]], Runs (helpingWith l) (.cpyq copyF) fun is => is.act &&& ~~~is.help = 0 ∧
      localSpad (helpingWith l) 0 0 64 = true ∧
      (copyReason (helpingWith l) 0 (wordsOf (memRead ((helpingWith l).team 0).spad 0 64)) = none ↔ l = [0, 0x2000000400])) ∧
    (∀ n ∈ [0, 1], Runs helpers (.abinit (abinitF n)) fun is => is.act &&& ~~~is.help = 0 ∧ localSpad helpers 0 0 32 = true ∧
      ((entryOf helpers (.abinit (abinitF n)) (abinitF n) is).cv 0).toNat = n.toNat) ∧
    Runs (helping (scalars unit [0, 0, 16])) (.abinit (abinitF 1)) fun is => is.act &&& ~~~is.help = 0 ∧ 16 % 32 ≠ 0 := by
  refine ⟨?_, ?_, runs (by decide +kernel) (by decide +kernel)⟩ <;> intro a ha <;> fin_cases ha <;> exact runs (by decide +kernel) (by decide +kernel)

/-- CollectiveRows: a byte in each part of what a descriptor names. -/
theorem witness_named : let d : CollDesc := { collDesc (wordsOf (memRead collective.mem 0 128)) with fmt := 10 }
    0 < d.sendLen 1 * d.es ∧ 0 < d.recvLen 1 * d.es := by decide +kernel

/-- BatonPlaneAndHistogramRows: MZERO of four rows that a turn stops at row 1, and one that goes on from there to row 3 and to the end. -/
def fourRows : Nat := 60 + 4 * 1024

theorem witness_row_turn : Runs (control fourRows) (.mzero mzeroF) fun is => Canonical (control fourRows) ∧
    ((control fourRows).core ((control fourRows).group is.g).core).holder = some is.g ∧ ((control fourRows).group is.g).log = [] ∧
    controlOf mzeroF (entryOf (control fourRows) (.mzero mzeroF) mzeroF is) = fourRows ∧ fourRows < 2 ^ 21 ∧ fourRows / 1024 % 2048 = 4 ∧
    fourRows % 1024 + 4 ≤ ((control fourRows).team 0).trows :=
  runs (by decide +kernel) (by unfold Canonical; decide +kernel)

def rowEntry : Entry := { accEntry with instr := .mzero mzeroF, c := [List.replicate 32 (BitVec.ofNat 64 fourRows)], prog := 1, late := true }
def amidRows : State := holding.setGroup 0 { holding.group 0 with wait := .rows, log := [rowEntry] }

theorem witness_more_rows : 0 < amidRows.groups.length ∧ (amidRows.group 0).team < amidRows.teams.length ∧
    (amidRows.core (amidRows.group 0).core).holder = some 0 ∧ (amidRows.group 0).log = [rowEntry] ∧ rowEntry.instr = .mzero mzeroF ∧
    (amidRows.group 0).badJoin = none ∧ (amidRows.group 0).live ≠ 0 ∧ controlOf mzeroF rowEntry = fourRows ∧ rowEntry.prog < 4 ∧
    fourRows % 1024 + 4 ≤ (amidRows.team 0).trows ∧ min 4 (rowEntry.prog + 2) = 3 ∧ min 4 (rowEntry.prog + 3) = 4 ∧ (amidRows.group 0).wait = .rows := by
  decide +kernel

theorem witness_more_rows_canonical : Canonical amidRows := by unfold Canonical; decide +kernel

/-- StepRunsDecoded: no second phase stands behind the fault. RefusedEncodings, FetchAndTrapEvents: PCV fails parity before a fetch, at a
breakpoint and at words that do not decode. -/
theorem witness_no_second : ((buffered (.fault 3) 0x2DC).group 0).inSecond = false := by decide +kernel

def badSavedPcv (brk : List Word) : State := ((buffered .none 0xFFFFFFFF).setGroup 0 { (buffered .none 0xFFFFFFFF).group 0 with pcvBad := true }).setTeam 0
  { (buffered .none 0xFFFFFFFF).team 0 with brk }

theorem witness_pcv_parity : ∀ b ∈ [[], [0x1001]], let s := badSavedPcv b
    InTurn s 0 ∧ (s.group 0).wait = .none ∧ (s.group 0).issueAddr = some 0x1000 ∧ (s.group 0).pcvBad = true ∧
    s.breakpoint 0 = (if b = [] then none else some (0x1000, 0)) ∧ wordsIn ((s.group 0).fetched 0x1000) = [0xFFFFFFFF] ∧
    decode [0xFFFFFFFF] = .error (.ill .len) := by
  unfold InTurn
  decide +kernel

/-- FetchAndTrapEvents: a code word whose page the tables give, one that they do not, and one whose walk meets poison. -/
def fetchAsk (s : State) : Access := { ctx := (s.team 0).ctx, team := some 0, heap := none, need := .fetch, va := 0x1000, n := 4 }

theorem witness_code_page : (∃ v, checkAccess work (fetchAsk work) = (v, .ok [⟨0x1000, 0x1000, 4, 30⟩])) ∧
    (∃ v, checkAccess unit (fetchAsk unit) = (v, .error (1, 0x1000))) ∧
    (let s := { work with poison := [0x102000 / 32] }
     ∃ v page, checkAccess s (fetchAsk s) = (v, .error (0x10, page))) ∧
    lenWords (wordNow work 0x1000) = 1 ∧ 0x1000 % 4 = 0 ∧ 0x1000 % 2 ^ 30 + 4 ≤ 2 ^ 30 ∧ poisonIn work 0x1000 4 = none ∧ writesTo work 0x1000 = [] := by
  refine ⟨?_, err_of (by decide +kernel), ⟨_, 0x102000, (err_of (by decide +kernel)).choose_spec⟩, by decide +kernel⟩
  obtain ⟨a, b, h, q⟩ := ok_of (Q := fun _ b => b = [⟨0x1000, 0x1000, 4, 30⟩]) _ (by decide +kernel : okOf (checkAccess work (fetchAsk work)).2 = some [⟨0x1000, 0x1000, 4, 30⟩]) rfl
  exact ⟨a, by rw [h, q]⟩

/-- The same: further instructions that fit behind those of the buffer, one that does not, and one that fails; a buffer that holds the word asked for. -/
theorem witness_fill_ahead : (∀ n ∈ [60, 64], ∃ ws u, codeInstr work 0 false 0x1000 = (u, .ok ws)) ∧
    (∃ u, codeInstr unit 0 false 0x1000 = (u, .error (0x1000, false))) ∧ 60 + 4 * 1 ≤ 64 ∧ 64 < 64 + 4 * 1 ∧
    ((buffered .none 0x2DC).group 0).fetched 0x1000 ≠ [] ∧ ((buffered .none 0x2DC).group 0).pcvBad = false ∧ (buffered .none 0x2DC).breakpoint 0 = none :=
  ⟨fun _ _ => row_of (by decide +kernel), err_of (by decide +kernel), by decide +kernel⟩

/-- PlainLoadValue: a group of a launch, one of a task; a write of another context. -/
theorem witness_writer : (unit.team (unit.group 0).team).launch = some 0 ∧
    (let s := unitT fun t => { t with launch := none, task := some (3, 9) }
     (s.team (s.group 0).team).launch = none ∧ (s.team (s.group 0).team).task = some (3, 9)) ∧
    (wrote 1 1 []).cls = 2 ∧ (wrote 1 1 []).ctx ≠ 1 ∧ (rank (some 1) (wrote 1 1 [])).2.length = (rank (some 1) (wrote 2 2 [])).2.length := by
  decide +kernel

/-- DoorbellCardAndDealing: a stopped posted queue whose error word is clear, and a stopped queue whose error word is not. -/
def stoppedQueue (d : List Nat) : State := (carded d).setCtx 0 { (carded d).ctx 0 with stopped := [0] }

theorem witness_restart : ∀ p ∈ [([0x20000, 2 ^ 63 + 2 ^ 62 + 4, 1, 0], true, false), ([0x20000, 2 ^ 63 + 4, 1, 0, 2 ^ 63], false, true)],
    let s := stoppedQueue p.1
    let d := subQueue (wordsOf (memRead s.mem 0x10000 64))
    s.dev.status = 3 ∧ (s.ctx 0).wen = true ∧ okOf (cuRead s 0 ((s.ctx 0).subDesc 0) 64).2 = some (memRead s.mem 0x10000 64) ∧
    0 ∈ (s.ctx 0).stopped ∧ d.qen = true ∧ d.post = p.2.1 ∧ d.err = p.2.2 ∧ d.log2 = 4 ∧ d.base % 4096 = 0 ∧ d.ridx ≤ d.widx ∧
    d.widx ≤ d.ridx + 2 ^ d.log2 := by decide +kernel

/-- The same: a card that is accepted, and one that is rejected with an entry that is not aligned, with a completion record and without one. -/
def cardFor (card : List Nat) : State :=
  let s := carded [0x20000, 2 ^ 63 + 4, 1, 0]
  { s with mem := memWrite s.mem 0x20000 (card.flatMap (toBytes 8)) }

theorem witness_rejected : ∀ p ∈ [([0x1000, 0, 2 ^ 37 + 2 ^ 32 + 1, 256], 0), ([0x1002, 0, 2 ^ 37 + 2 ^ 32 + 1, 256, 0, 0x50000], 5),
      ([0x1002, 0, 2 ^ 37 + 2 ^ 32 + 1, 256], 5), ([0x1000, 0, 2 ^ 37 + 2 ^ 32 + 1, 256, 0, 0x50020], 5)], let s := cardFor p.1
    (s.ctx 0).queues.find? (fun p => p.1 == 0) = some (0, (setAt 0 [0x20000, 2 ^ 63 + 4, 1, 0] 7 0).map (BitVec.ofNat 64)) ∧
    okOf (cuRead s 0 0x20000 256).2 = some (memRead s.mem 0x20000 256) ∧
    cardReason s (newLaunch s 0 0 0 false (wordsOf (memRead s.mem 0x20000 256))) = p.2 ∧ memNat s.mem 0x10020 8 = 0 ∧
    cardBindings (wordsOf (memRead s.mem 0x20000 256)) = [] := by decide +kernel

theorem witness_rejected_windows : ∀ q ∈ [(0x10000, 64), (0x50000, 64)],
    InCtxWindow (cardFor [0x1002, 0, 2 ^ 37 + 2 ^ 32 + 1, 256, 0, 0x50000]) 0 q.1 q.2 q.1 := by
  unfold InCtxWindow HeapHolds
  decide +kernel

/-- The same: a card whose one tile an open launch gives, on an empty board and on a full one. -/
def needing : Launch := { card := setAt 0 (setAt 0 placedCard 22 (BitVec.ofNat 64 (2 ^ 63 + 7 * 2 ^ 47 + 5))) 31 0, prods := [0] }
def fullBoard : List Peg := List.replicate 65536 { ctx := 0, tile := 9, count := 1 }

theorem witness_reserve : (reserve publishing needing).2.fallback = false ∧ pegAt publishing 0 5 = none ∧
    ((pegDecls needing.card).map fun d => d.span needing.teams) = [(5, 5)] ∧
    ((pegOuts (publishing.launch 0).card).map fun o => (o.base, o.base + o.cnt)) = [(5, 5)] ∧ needing.fallback = false ∧ needing.metTiles = [] := by
  decide +kernel

theorem witness_full_board : 65536 - (fullBoard.filter fun p => p.count != 0).length < [5].length ∧ ∀ p ∈ fullBoard, p.tile ≠ 5 := by
  have h : ∀ p ∈ fullBoard, p = { ctx := 0, tile := 9, count := 1 } := fun p hp => List.eq_of_mem_replicate hp
  refine ⟨?_, fun p hp => by rw [h p hp]; decide⟩
  rw [List.filter_eq_self.2 fun p hp => by rw [h p hp]; decide, fullBoard, List.length_replicate]
  decide

/-- The same: a task that waits, a launch that does, and a device where nothing does. -/
theorem witness_best_work : taskWaiting tasked 0 0 = some 0 ∧ bestWork tasked = some (.task 0 0) ∧ bestWork dealing = some (.launch 0) ∧
    bestWork unit = none ∧ eligible dealing 0 = [0] := by decide +kernel

/-- DispatchAndTaskPop: a crew of two that has been dealt to the cores of cluster 0, with argument records in the window; an illegal task record. -/
def crewed : State :=
  let card := [0x1000, 0x20000, 2 * 2 ^ 37 + 2 ^ 32 + 2, 256].map (BitVec.ofNat 64)
  let m := fun (t : Nat) => ({ launch := some 1, t, crew := 2, vregs := 256, entry := 0x1000, place := .dealt 0 } : Team)
  { dealing with launches := dealing.launches ++ [{ card }], teams := dealing.teams ++ [m 0, m 1] }

theorem witness_crew : crewed.deals = true ∧ crewTeams crewed 1 = [1, 2] ∧ (crewed.team 1).launch = some 1 ∧ (crewed.team 1).place = .dealt 0 ∧
    (crewed.ctx 0).runs = true ∧ (∀ k ∈ [0, 1], k / 4 = 0 ∧ [0, 1].count k ≤ (roomNow crewed k).most (crewed.team 1).fit) ∧
    (∀ m ∈ [1, 2], (crewed.team m).place = .dealt 0 ∧ (crewed.team m).groups = []) ∧ (∀ k ∈ [0, 1], ∀ g ∈ (crewed.core k).held, g < 1) ∧
    crewed.groups.length = 1 ∧ wfield crewed.dev.trace 0 1 = 0 := by decide +kernel

theorem witness_crew_windows : ∀ m ∈ [1, 2], InCtxWindow crewed 0 (wfield ((crewed.launch 1).w 1) 0 57 + 64 * (crewed.team m).t) 64
    (0x20000 + 64 * (crewed.team m).t) := by
  unfold InCtxWindow HeapHolds
  decide +kernel

def illTasked : State := putWords tasked 0x30000 [0x1002, 0, 0, 1]

theorem witness_ill_record : let s := illTasked
    let d := wordsOf (memRead s.mem 0x14000 64)
    s.deals = true ∧ (s.ctx 0).wen = true ∧ (s.ctx 0).runs = true ∧ Memory.wf s.mem = true ∧ wfield (getAt 0 d 1) 63 1 = 1 ∧ getAt 0 d 2 ≠ getAt 0 d 3 ∧
    wfield (getAt 0 d 4) 63 1 = 0 ∧ wfield (getAt 0 d 1) 0 5 = 4 ∧ wfield (getAt 0 d 0) 0 57 % 4096 = 0 ∧ taskTooBig s 0 d = false ∧
    memNat s.mem 0x30000 8 % 2 ^ 57 % 4 ≠ 0 ∧ (s.ctx 0).purges = [] := by decide +kernel

theorem witness_ill_record_windows : (illTasked.ctx 0).taskDesc 0 = 0x14000 ∧ ∀ q ∈ [(0x14000, 64), (0x30000, 128)],
    InCtxWindow illTasked 0 q.1 q.2 q.1 := by
  unfold InCtxWindow HeapHolds
  decide +kernel

/-- RetirementEvents: a full queue with a pend list of two objects, behind which a third is put; a join object in a region that bars writing past
COUNT; pegs that a retiring launch sets, and one that is newer. -/
def pended : State := putWords (putWords (joining 1 (2 ^ 63) 16 0x41000) 0x41010 [0x42000]) 0x42010 [0]

theorem witness_pend_chain : let l := [(0x41000, 0x41010)] ++ [(0x42000, 0x42010)]
    memNat pended.mem 0x14028 8 = 0x41000 ∧ (l.head?.map Prod.fst) = some 0x41000 ∧ memNat pended.mem 0x41010 8 % 2 ^ 57 = 0x42000 ∧
    memNat pended.mem 0x42010 8 % 2 ^ 57 = 0 ∧ memNat pended.mem 0x40000 8 = 1 ∧ 2 ^ 4 ≤ memNat pended.mem 0x14010 8 - memNat pended.mem 0x14018 8 ∧
    Memory.wf pended.mem = true := by decide +kernel

theorem witness_pend_windows : ∀ q ∈ [(0x41010, 8), (0x42010, 8), (0x40000, 8), (0x14000, 64)], InCtxWindow pended 0 q.1 q.2 q.1 := by
  unfold InCtxWindow HeapHolds
  decide +kernel

def barring : State := pended.setCtx 0 { pended.ctx 0 with regions := [{ owner := none, base := 0x40080, len := 128, wr := false, gate := 0x100 }] }

theorem witness_readable : InCtxWindow barring 0 0x40000 8 0x40000 ∧ InCtxWindow (barring.setCtx 0 { barring.ctx 0 with regions := [] }) 0 0x40000 256 0x40000 := by
  unfold InCtxWindow HeapHolds
  decide +kernel

def pegged : State :=
  { retiring with
    launches := [{ retiring.launch 0 with card := setAt 0 (setAt 0 placedCard 5 0x50000) 30 (BitVec.ofNat 64 (2 ^ 63 + 7 * 2 ^ 47 + 2 ^ 25 + 5)), held := [5] }]
    pegs := [{ ctx := 0, tile := 5, gen := 6, set := true, count := 1 }, { ctx := 0, tile := 6 }, { ctx := 0, tile := 7, gen := 8, set := true },
      { ctx := 0, tile := 8 }] }

theorem witness_pegs_at_retirement : ((pegOuts (pegged.launch 0).card).map fun o => (o.base, o.base + o.cnt, o.gen)) = [(5, 7, 7)] ∧
    (∀ p ∈ [(5, some true), (6, some true), (7, some false), (8, none), (9, none)], (pegAt pegged 0 p.1).map (fun q =>
        if (pegOuts (pegged.launch 0).card).any (fun o => o.base ≤ p.1 && p.1 ≤ o.base + o.cnt) then some (!q.set || decide (0 < gdiff 7 q.gen)) else none) =
      (if p.1 = 9 then none else some p.2)) ∧ pegged.dev.status = 3 ∧ (pegged.launch 0).retired = false := by decide +kernel

/-- PreemptionAndHalt, SwapRestoreAndPlace, PowerFatalAndBringup: a device in FATAL whose context runs. -/
def fatal : State := { unit with dev := { unit.dev with status := 7 } }

theorem witness_fatal : fatal.dev.status = 7 ∧ (fatal.ctx 0).pstate = 0 ∧ 0 < fatal.ctxs.length := by decide +kernel

/-- ShootdownFaultAndCopyEvents: a function instruction in its second phase behind a fault that is waited on. -/
def fnF : Full := full (vr 6) (vr 4) (.reg (vr 0)) 0 8 0
def fnEntry : Entry := { accEntry with instr := .fexp2 fnF, addr := 0x1008, b := [List.replicate 32 0x100000001], late := true }
def behindFault : State := faulted.setGroup 0 { faulted.group 0 with log := (faulted.group 0).log ++ [fnEntry] }

theorem witness_fn_behind : behindFault.dev.status ≠ 7 ∧ waitingGroup behindFault 0 5 = some 0 ∧ (behindFault.group 0).log.length = 2 ∧
    (behindFault.group 0).fnBehind = some fnEntry ∧ (faulted.group 0).fnBehind = none := by decide +kernel

theorem witness_fn_done : ∃ z, performEntry 0 fnEntry ((dropRecords behindFault 0 5).setGroup 0
    { (dropRecords behindFault 0 5).group 0 with log := (behindFault.group 0).log.dropLast }) = .done z := done_of (by decide +kernel)

/-- CollectiveEvents: two partials that are children of one node, and two that are not; a chunk whose subtree is complete at the root, at a child, and
not complete; links of which one tree can be built. -/
def part (r : Nat) : Partial := ⟨r, r, [], 0, []⟩

theorem witness_children : siblings 3 0 0 1 1 = true ∧ siblings 3 1 1 2 2 = false ∧ siblings 3 0 1 2 2 = true ∧
    (0 : Nat) % 2 ^ (1 + 1) = 0 ∧ 1 + 1 = 0 + 2 ^ 1 ∧ 2 + 1 = min (0 + 2 ^ (1 + 1)) 3 := by decide +kernel

def ordered (rank : Nat) (l : List Partial) : Coll := (pairOf fun c =>
  { readyColl c with myrank := rank, words := setAt 0 c.words 0 (getAt 0 c.words 0 + 2 ^ 61), chunks := [{ epoch := 1, state := 1, parts := l }] }).coll 0

theorem witness_subtrees : ∀ q ∈ [(0, [part 0, part 1], true), (1, [part 1], true), (0, [part 0], false)], let c := ordered q.1 q.2.1
    let x : Chunk := getAt {} c.chunks 0
    let tree := (c.treeOf 0).1
    let root := (c.treeOf 0).2
    c.d.reduces = true ∧ c.d.ord = true ∧ x.state = 1 ∧ x.sent = false ∧ x.parked = 0 ∧ x.parts ≠ [] ∧ c.n = 2 ∧
    parentOf tree root c.n c.myrank = (if q.1 = 0 then none else some 0) ∧ childrenOf tree root c.n c.myrank = (if q.1 = 0 then [1] else []) ∧
    ((c.myrank :: (childrenOf tree root c.n c.myrank).flatMap fun v => sideOf tree c.myrank c.n v).all (fun r =>
      (joinAll c.n (collJoin c.d) (2 * c.n) x.parts).any fun p => p.lo ≤ r && r ≤ p.hi) = q.2.2) ∧
    (q.2.2 = true → (joinAll c.n (collJoin c.d) (2 * c.n) x.parts).head? ≠ none) := by decide +kernel

theorem witness_trees : (∀ e ∈ [(⟨0, 1, 0, 0⟩ : Edge)], e.a < 2 ∧ e.b < 2 ∧ e.a ≠ e.b) ∧ (buildTrees 2 4 0 [⟨0, 1, 0, 0⟩]).length = 1 := by decide +kernel

/-- ForeignAccesses: a word whose current write synchronises with a release of a group, which pairs with the host and with a peer that is a member;
the peer of another party of its device; host and peer memory, local memory and a hole, which a party outside asks for. -/
def announced : State :=
  { node with
    rels := [{ party := .grp 0, scope := .system, acts := .every, know := [], cov := [0] }],
    writes := [⟨0x100, 0, 0x100, 7, 0, .grp 0, 2, [0], [], some (.system, [0])⟩] }

theorem witness_paired : winner none (writesTo announced 0x100) = some (0, ⟨0x100, 0, 0x100, 7, 0, .grp 0, 2, [0], [], some (.system, [0])⟩) ∧
    (∀ p ∈ [Party.host, .peer ⟨1, 0⟩], mayPair announced .system (.grp 0) .system p = true) ∧ 0x100 % 4 = 0 ∧ 0 < announced.rels.length := by
  decide +kernel

theorem witness_instances : let s : State := { node with dev := { node.dev with named := 3 } }
    s.dev.capacity ≤ 2 ^ 40 ∧ s.dev.nen = true ∧ s.dev.member 1 = true ∧ s.dev.named.getLsbD 1 = true ∧
    (⟨1, 0⟩ : PeerId).dev = (⟨1, 1⟩ : PeerId).dev ∧ s.dev.member s.dev.nodeId = true := by decide +kernel

theorem witness_away : ∀ p ∈ [(0x800000000101, false, true), (0x410000000000, false, false), (0x100, true, true)],
    let s := announced
    isLocal s.dev p.1 = p.2.1 ∧ populated s.dev p.1 2 = p.2.2 ∧ Memory.wf s.mem = true ∧
    ({ s with agenda := [.away none p.1 [1, 2] 0 0] } : State).agenda = [.away none p.1 [1, 2] 0 0] := by decide +kernel

theorem witness_away_peer : let s : State := { announced with dev := { announced.dev with named := 3, nodeCap := [(1, 2 ^ 30)] } }
    isLocal s.dev 0x410000000000 = false ∧ populated s.dev 0x410000000000 2 = true := by
  decide +kernel

-- Ill-formed words and terms, each refused by its check (R134) ---------------------------------------------------------------------

/-- One per check: LEN 0b11; an unassigned opcode; RS without a random operand; a corner of a must-be-zero field; a type that the row does
not accept; an S register as a function's destination; a group-wide row that a predicate guards; a device event. -/
theorem test_ill_terms :
    Instr.ill (.iadd { full (vr 1) (vr 2) (.reg (vr 3)) 0 1 5 with rand := none }) = some .layout ∧
    Instr.ill (.fexp2 (full (vr 1) (vr 2) (.reg (vr 3)) 0 8 0)) = some .zeroField ∧
    Instr.ill (.fexp2 (full (vr 1) (vr 2) (.reg (vr 0)) 0 0 0)) = some .typeRound ∧
    Instr.ill (.fexp2 (full (sr 1) (vr 2) (.reg (vr 0)) 0 8 0)) = some .operand ∧
    Instr.ill (.mswap { full (vr 0) (vr 0) (.reg (vr 0)) 0 0 0 with ctl := ⟨0, false, 1⟩ }) = some .groupPred ∧
    Instr.ill (.collectiveStart 0) = some .notInstr := by decide +kernel

/-- The same checks on words, with the two that no term can fail. -/
theorem test_ill_words :
    decode [0x00000003] = .error (.ill .len) ∧ decode [0x00000001, 7] = .error (.ill .unassigned) ∧
    decode [0x02000202, 7, 0] = .error (.ill .layout) ∧ decode [0x02004201, 0x03004007] = .error (.ill .zeroField) ∧
    decode [0x02004201, 0x00000007] = .error (.ill .typeRound) ∧ decode [0x02004601, 0x00004007] = .error (.ill .operand) ∧
    decode [0x00000385, 0x00000001] = .error (.ill .groupPred) ∧ decode [0x00000385] = .error (.short 2) := by decide +kernel

-- Single steps, each with the words, operands and results of a worked example of the spec ------------------------------------------

/-- The state after the instruction of these words. -/
def after (s : State) (w : List IWord) : State :=
  match decode w with
  | .ok i => match exec i s with
    | .next t => t
    | _ => State.reset
  | _ => State.reset

/-- A group whose V registers hold, in every lane, these words. -/
def vregs (l : List Nat) : State := unitG fun x => { x with v := l.map fun n => List.replicate 32 (BitVec.ofNat 64 n) }
/-- What lane `l` of V register `r` holds after them. -/
def laneAfter (s : State) (w : List IWord) (r l : Nat) : Word := getAt 0 (getAt [] ((after s w).group 0).v r) l

/-- 09_functions.md, the example of R205 to R214: FEXP2.l32.RU enters the second phase, FEXP2.A.l32.RU does not. -/
theorem test_fexp2 : laneAfter (vregs [0, 0, 0, 0, 0x3000000130000001]) [0x04018201, 0x00004307] 6 31 = 0x0000000100000001 := by decide +kernel
theorem test_fexp2A : laneAfter (vregs [0, 0, 0, 0, 0x3000000130000001]) [0x0401C241, 0x00004307] 7 31 = 0 := by decide +kernel

/-- 08_arithmetic.md, the example of R201. -/
theorem test_ldot4 : laneAfter (vregs [0, 0, 0x0840881000008808, 0, 0, 0, 0, 0, 0, 0, 0x4000000040000000]) [0x0202814D, 0x03005007] 10 0 =
    0x0080000000400000 := by decide +kernel

/-- 08_arithmetic.md, the example of R204. -/
theorem test_cvt : laneAfter (vregs [0, 0, 0, 0, 0, 0x006570073FC00000]) [0x05010155, 0x08002B07] 4 0 = 0x0000000400000001 := by decide +kernel

/-- 08_arithmetic.md, the example of R192, with its flags. -/
theorem test_lsqrt : laneAfter (vregs [0x8000000000000003]) [0x0000410D, 0x00004007] 1 0 = 0xC000000000000002 := by decide +kernel

/-- 07_issue_control.md, the example of R171 (BALLOT of P1 into V3). -/
theorem test_ballot : laneAfter (unitG fun x => { x with p := [0, 0x218] }) [0x0100C291, 0x00000007] 3 0 = 0x0000030300000218 := by decide +kernel

/-- 02_sums.md, the examples of L32 near cancellation and of L16 addition: every element of the register is that sum. -/
theorem test_ladd :
    laneAfter (vregs [0, 0, 0xBFFFFFFFBFFFFFFF]) [0x00004115, 0x02004007] 1 0 = 0x3A5E28B13A5E28B1 ∧
    laneAfter (vregs [0, 0, 0x3EFB3EFB3EFB3EFB]) [0x00004115, 0x02004807] 1 0 = 0x0094009400940094 := by decide +kernel

/-- 07_issue_control.md, the example of R174: lanes 0 to 15 of a sum of ones. -/
theorem test_gred : getAt 0 ((after (unitG fun x => { x with p := [0xFFFF] }) [0x0800C695, 0x00004000]).group 0).s 3 = 0x0100000001000000 := by
  decide +kernel

/-- 11_memory_instructions.md, the example of R251: lane l adds l + 1 to a word that holds 0x10. -/
theorem test_atom :
    let v := List.replicate 6 [] ++ [(List.range 32).map fun l => BitVec.ofNat 64 (l + 1)]
    let s := putWords (unitG fun x => { x with v, s := List.replicate 8 0 ++ [0x100] }) 0x100 [0x10]
    let w : List IWord := [0x08018B19, 0x00380807]
    laneAfter s w 6 0 = 0x10 ∧ laneAfter s w 6 31 = 0x200 ∧ memNat (after s w).mem 0x100 4 = 0x220 := by decide +kernel

end Sys2Proof.Tests
end

section
/-! PROOFS. O56: the registers of the physical function and of the contexts (R6, R388, R393, Tables 16.6 and 16.7), region tables (R310, R311) and
the capability list (Table 16.3). -/

namespace Sys2Proof.Registers

open Machine Laws Safety

-- Fields of a register -------------------------------------------------------------------------------------------------------------

/-- Fields listed from the top of the word down, none overlapping the next. -/
abbrev Descending (l : List (Nat × Nat)) : Prop := l.Pairwise fun a b => b.1 + b.2 ≤ a.1

/-- What some fields of a number contribute to it. -/
def fieldSum (x : Nat) (l : List (Nat × Nat)) : Nat := (l.map fun p => field x p.1 p.2 * 2 ^ p.1).sum

/-- The word with ones in the bits of some fields. -/
def fieldMask (l : List (Nat × Nat)) : Word := wd (fieldSum (2 ^ 64 - 1) l)

theorem fieldSum_cons (x lo n : Nat) (l : List (Nat × Nat)) : fieldSum x ((lo, n) :: l) = 2 ^ lo * field x lo n + fieldSum x l := by
  simp [fieldSum, Nat.mul_comm]

theorem fieldSum_lt (x : Nat) : ∀ (l : List (Nat × Nat)) (k : Nat), Descending l → (∀ p ∈ l, p.1 + p.2 ≤ k) → fieldSum x l < 2 ^ k
  | [], k, _, _ => Nat.two_pow_pos k
  | (lo, n) :: l, k, hd, hk => by
    obtain ⟨hlow, htail⟩ := List.pairwise_cons.1 hd
    have hrest : fieldSum x l < 2 ^ lo := fieldSum_lt x l lo htail hlow
    have hfield : field x lo n < 2 ^ n := Nat.mod_lt _ (Nat.two_pow_pos n)
    rw [fieldSum_cons]
    calc 2 ^ lo * field x lo n + fieldSum x l
        < 2 ^ lo * field x lo n + 2 ^ lo := by omega
      _ = 2 ^ lo * (field x lo n + 1) := by ring
      _ ≤ 2 ^ lo * 2 ^ n := Nat.mul_le_mul_left _ hfield
      _ = 2 ^ (lo + n) := (pow_add 2 lo n).symm
      _ ≤ 2 ^ k := Nat.pow_le_pow_right (by decide) (hk (lo, n) (by simp))

/-- A bit of what the fields contribute is the number's own bit where some field has it. -/
theorem testBit_fieldSum (x : Nat) : ∀ (l : List (Nat × Nat)) (j : Nat), Descending l →
    (fieldSum x l).testBit j = (x.testBit j && l.any fun p => decide (p.1 ≤ j) && decide (j < p.1 + p.2))
  | [], j, _ => by simp [fieldSum]
  | (lo, n) :: l, j, hd => by
    obtain ⟨hlow, htail⟩ := List.pairwise_cons.1 hd
    rw [fieldSum_cons, Nat.testBit_two_pow_mul_add _ (fieldSum_lt x l lo htail hlow)]
    by_cases hj : j < lo
    · have hout : ¬ lo ≤ j := by omega
      simp [hj, hout, testBit_fieldSum x l j htail]
    · have hin : lo ≤ j := by omega
      have hbelow : (l.any fun p => decide (p.1 ≤ j) && decide (j < p.1 + p.2)) = false := by
        rw [List.any_eq_false]
        intro p hp
        have hp' := hlow p hp
        simp only [Bool.and_eq_true, decide_eq_true_eq]
        omega
      have hwidth : j - lo < n ↔ j < lo + n := by omega
      simp [hj, hin, hbelow, field, Nat.testBit_mod_two_pow, Nat.testBit_div_two_pow, hwidth, Bool.and_comm]

/-- A write keeps the bits of the fields (R6). -/
theorem keepBits_eq_and (v : Word) (l : List (Nat × Nat)) (hd : Descending l) : keepBits v l = v &&& fieldMask l := by
  have hkeep : keepBits v l = wd (fieldSum v.toNat l) := rfl
  refine BitVec.eq_of_getLsbD_eq fun j hj => ?_
  have hones : (2 ^ 64 - 1 : Nat).testBit j = true := by rw [Nat.testBit_two_pow_sub_one, decide_eq_true hj]
  rw [hkeep, fieldMask, BitVec.getLsbD_and, wd, wd, BitVec.getLsbD_ofNat, BitVec.getLsbD_ofNat, testBit_fieldSum _ _ _ hd,
    testBit_fieldSum _ _ _ hd, hones, BitVec.testBit_toNat]
  simp [hj]

-- Writes -----------------------------------------------------------------------------------------------------------------------------

theorem exec_write_ctx (s : State) (c off : Nat) (v : Word) : exec (.registerWrite (some c) off v) s = .next (writeCtx s c off v) := rfl
theorem exec_write_dev (s : State) (off : Nat) (v : Word) : exec (.registerWrite none off v) s = .next (writeDev s off v) := rfl

theorem exec_plerrAck (s : State) (c : Nat) : exec (.plerrAck c) s = .next (plerrAck s c) := rfl
theorem exec_frespRetry (s : State) (c n : Nat) : exec (.frespRetry c n) s = .next (if s.dev.status = 7 then s else answerRetry s c n) := rfl
theorem exec_frespFail (s : State) (c n : Nat) : exec (.frespFail c n) s = .next (if s.dev.status = 7 then s else answerFail s c n) := rfl

theorem takesCtx_iff (d : Dev) : d.takesCtx = true ↔ d.status = 3 ∨ d.status = 7 := by simp [Dev.takesCtx]

theorem writeCtx_unlisted (s : State) (c off : Nat) (v : Word) (h : 0x088 ≤ off ∨ off % 8 ≠ 0) : writeCtx s c off v = s := by
  unfold writeCtx
  split
  · rfl
  · split
    case h_18 => rfl
    all_goals omega

section
variable {s : State} {c : Nat} (v : Word) (h : s.dev.takesCtx = true) (hc : c < 64)
include h hc

/-- Table 16.7: what a write stores in the plain registers of a context. -/
theorem write_ctx_rows :
    let x := s.ctx c
    let put := fun (off : Nat) (y : Ctx) => exec (.registerWrite (some c) off v) s = .next (s.setCtx c y)
    put 0x000 { x with worktab := v &&& 0x01FFFFFFFFFFF001, popped := [] } ∧ put 0x008 { x with part := v } ∧
    put 0x010 { x with heapbase := v &&& 0x01FFFFFFFFE00001 } ∧ put 0x018 { x with heaplen := v &&& 0x000FFFFFFFE00001 } ∧
    put 0x020 { x with heapoff := v &&& 0xFFFFFFFFFFE00000 } ∧ put 0x028 { x with ptroot := v &&& 0x000FFFFFFFFFF001 } ∧
    put 0x030 { x with faultq := v &&& 0x01FFFFFFFFFFF03F } ∧ put 0x038 { x with fqTail := v.extractLsb' 0 32 } ∧
    put 0x048 { x with regPend := some (v &&& 0x01FFFFFFFFFFF801) } ∧ put 0x050 { x with trapvec := v &&& 0x01FFFFFFFFFFFFFF } ∧
    put 0x078 { x with save := v &&& 0x01FFFFFFFFC01FFF } := by
  have hge : ¬ 64 ≤ c := Nat.not_le.2 hc
  intro x put
  simp only [put, exec_write_ctx]
  refine ⟨?_, ?_, ?_, ?_, ?_, ?_, ?_, ?_, ?_, ?_, ?_⟩ <;>
    simp (disch := decide) [x, writeCtx, h, hge, keepBits_eq_and, fieldMask, fieldSum, field, wd, BitVec.setWidth_eq_extractLsb']

theorem write_brk (n : Nat) (hn : n < 4) : exec (.registerWrite (some c) (0x058 + 8 * n) v) s =
    .next (s.setCtx c { s.ctx c with brk := setAt 0 (s.ctx c).brk n (v &&& 0x01FFFFFFFFFFFFFD) }) := by
  have hge : ¬ 64 ≤ c := Nat.not_le.2 hc
  rw [exec_write_ctx]
  interval_cases n <;> simp (disch := decide) [writeCtx, h, hge, keepBits_eq_and, fieldMask, fieldSum, field, wd]

end

/-- A context's registers ignore writes before READY (R394). -/
theorem writeCtx_early (s : State) (c off : Nat) (v : Word) (h : s.dev.takesCtx = false) : writeCtx s c off v = s := by
  simp [writeCtx, h]

/-- The registers of the physical function with an offset each that take writes. -/
abbrev writable : List Nat := [0x0010, 0x0018, 0x0020, 0x0028, 0x0030, 0x0040, 0x0048, 0x0060, 0x0068, 0x0070, 0x0100, 0x0800]

theorem writeDev_rest (s : State) (off : Nat) (v : Word) (h : off ∉ writable) : writeDev s off v =
    if 0x0840 ≤ off ∧ off < 0x0880 ∧ off % 8 = 0 then if wfield v 62 1 = 1 then clearQuar s ((off - 0x0840) / 8) else s
    else if 0x100000 ≤ off ∧ off < 0x140000 then writeCtx s ((off - 0x100000) / 0x1000) (off % 0x1000) v
    else s := by
  unfold writeDev
  split
  case h_13 => simp only [Bool.and_eq_true, decide_eq_true_eq, and_assoc]
  all_goals simp at h

theorem not_mem_writable {off : Nat} (h : 0x0800 < off) : off ∉ writable := by
  simp only [List.mem_cons, List.not_mem_nil, or_false]
  omega

/-- Table 16.6: what a write stores in the plain registers of the physical function. -/
theorem write_dev_rows (s : State) (v : Word) :
    let d := s.dev
    let put := fun (off : Nat) (y : Dev) => exec (.registerWrite none off v) s = .next { s with dev := y }
    put 0x0010 { d with rback := v &&& 0x01FFFFFFC0000001 } ∧ put 0x0028 { d with shootVA := v &&& 0x01FFFFFFFFFFF000 } ∧
    put 0x0030 { d with dump := v &&& 0x000FFFFFFC000001 } ∧ put 0x0040 { d with trace := v &&& 0x000FFFFFFFFFFF87, twidx := 0 } ∧
    put 0x0048 { d with trctx := v } ∧ put 0x0060 { d with fpwin := v.extractLsb' 0 32 } ∧ put 0x0068 { d with node := v &&& 0x13F } ∧
    put 0x0070 { d with nodemap := v } ∧ put 0x0800 { d with whcfg := v &&& 0x0003FFFFFFFFFFFF } := by
  intro d put
  simp only [put, exec_write_dev]
  refine ⟨?_, ?_, ?_, ?_, ?_, ?_, ?_, ?_, ?_⟩ <;>
    simp (disch := decide) [d, writeDev, keepBits_eq_and, fieldMask, fieldSum, field, wd, BitVec.setWidth_eq_extractLsb']

/-- PWR.CTL ignores a write whose THI is not above its TLO. -/
theorem write_pwrctl (s : State) (v : Word) : exec (.registerWrite none 0x0100 v) s =
    .next { s with dev := if wfield v 19 8 ≤ wfield v 11 8 then s.dev else { s.dev with pwrctl := v &&& 0x7FFFFFF } } := by
  rw [exec_write_dev]
  by_cases hle : wfield v 19 8 ≤ wfield v 11 8 <;> simp (disch := decide) [writeDev, hle, keepBits_eq_and, fieldMask, fieldSum, field, wd]

theorem wfield_lt (v : Word) (lo n : Nat) : wfield v lo n < 2 ^ n := Nat.mod_lt _ (Nat.two_pow_pos n)

/-- DEV.DBG names one of 256 cores, which halts or goes on (R356). -/
theorem write_dbg (s : State) (v : Word) : exec (.registerWrite none 0x0018 v) s =
    if wfield v 8 1 = 1 then exec (.haltCore (wfield v 0 8)) s else exec (.unhaltCore (wfield v 0 8)) s := by
  have hcore : ¬ 256 ≤ wfield v 0 8 := Nat.not_le.2 (wfield_lt v 0 8)
  have hwrite : writeDev s 0x0018 v = writeDbg s (wfield v 0 8) (wfield v 8 1 == 1) := rfl
  have hhalt : exec (.haltCore (wfield v 0 8)) s = .next (writeDbg s (wfield v 0 8) true) := if_neg hcore
  have hgo : exec (.unhaltCore (wfield v 0 8)) s = .next (writeDbg s (wfield v 0 8) false) := if_neg hcore
  rw [exec_write_dev, hwrite, hhalt, hgo]
  split
  · rename_i hone
    rw [beq_iff_eq.2 hone]
  · rename_i hzero
    rw [beq_eq_false_iff_ne.2 hzero]

theorem write_shoot (s : State) (v : Word) : exec (.registerWrite none 0x0020 v) s =
    if wfield v 7 1 = 1 then exec (.shootdownAll v) s else exec (.shootdownPage v) s := by
  have hwrite : exec (.registerWrite none 0x0020 v) s = .next (writeShoot s v) := rfl
  rw [hwrite]
  split
  · rename_i hall
    exact (if_neg (by omega)).symm
  · rename_i hpage
    exact (if_neg hpage).symm

theorem writeDev_port (s : State) (n : Nat) (v : Word) (hn : n < 8) :
    writeDev s (0x0840 + 8 * n) v = if wfield v 62 1 = 1 then clearQuar s n else s := by
  have hnum : (0x0840 + 8 * n - 0x0840) / 8 = n := by omega
  rw [writeDev_rest s _ v (not_mem_writable (by omega)), if_pos (by omega), hnum]

theorem write_quar (s : State) (v : Word) (n : Nat) (hn : n < 8) : exec (.registerWrite none (0x0840 + 8 * n) v) s =
    if wfield v 62 1 = 1 then exec (.quarantineClear n) s else .next s := by
  have hclear : exec (.quarantineClear n) s = .next (clearQuar s n) := if_neg (Nat.not_le.2 hn)
  rw [exec_write_dev, writeDev_port s n v hn, hclear, apply_ite Host.Outcome.next]

theorem writeDev_ctx (s : State) (c off : Nat) (v : Word) (hc : c < 64) (ho : off < 0x1000) :
    writeDev s (0x100000 + 0x1000 * c + off) v = writeCtx s c off v := by
  have hnum : (0x100000 + 0x1000 * c + off - 0x100000) / 0x1000 = c := by omega
  have hoff : (0x100000 + 0x1000 * c + off) % 0x1000 = off := by omega
  rw [writeDev_rest s _ v (not_mem_writable (by omega)), if_neg (by omega), if_pos (by omega), hnum, hoff]

theorem writeDev_unlisted (s : State) (off : Nat) (v : Word) (h : off ∉ writable) (hport : off < 0x0840 ∨ 0x0880 ≤ off ∨ off % 8 ≠ 0)
    (hctx : off < 0x100000 ∨ 0x140000 ≤ off) : writeDev s off v = s := by
  rw [writeDev_rest s off v h, if_neg (by omega), if_neg (by omega)]

-- CTX.PREEMPT (R365) -----------------------------------------------------------------------------------------------------------------

/-- What a write of CTX.PREEMPT asks for beside PLERR, by the state the write found. -/
def preemptRest (found : BitVec 2) (c : Nat) (v : Word) (u : State) : Out :=
  if found = 2 then (if wfield v 1 1 = 1 then exec (.preemptResume c) u else .next u)
  else if wfield v 0 1 = 1 then exec (.preemptReq c) u
  else if wfield v 1 1 = 1 then exec (.preemptResume c) u
  else .next u

theorem exec_preemptResume (u : State) (c : Nat) (h : u.dev.takesCtx = true) : exec (.preemptResume c) u = .next (preemptResume u c) := by
  have hexec : exec (.preemptResume c) u = .next (if u.dev.takesCtx then preemptResume u c else u) := rfl
  rw [hexec, if_pos h]

theorem preemptRest_eq (found : BitVec 2) (c : Nat) (v : Word) (u : State) (h : u.dev.takesCtx = true) : preemptRest found c v u =
    .next (if found = 2 then if wfield v 1 1 = 1 then preemptResume u c else u
      else if wfield v 0 1 = 1 then preemptReq u c else if wfield v 1 1 = 1 then preemptResume u c else u) := by
  unfold preemptRest
  rw [exec_preemptResume u c h]
  split_ifs <;> rfl

/-- No placement error of the context waits: answering those that wait changes nothing. -/
theorem answerPlace_none (s : State) : ∀ l : List Nat, (∀ t ∈ l, ∀ r, (s.team t).place ≠ .placeErr r) → answerPlace s l = s
  | [], _ => rfl
  | t :: l, h => by
    have hrest := answerPlace_none s l fun u hu => h u (List.mem_cons_of_mem t hu)
    unfold answerPlace
    simp only
    split
    · rename_i r hr
      exact absurd hr (h t List.mem_cons_self r)
    · exact hrest

theorem plerrAck_none (s : State) (c : Nat) (h : s.dev.takesCtx = true)
    (hn : ∀ t r, t < s.teams.length → (s.team t).ctx = c → (s.team t).place ≠ .placeErr r) :
    plerrAck s c = s.setCtx c { s.ctx c with plerr := false } := by
  have hteams : ∀ t ∈ teamIds (s.setCtx c { s.ctx c with plerr := false }) (fun t => t.ctx == c), ∀ r,
      ((s.setCtx c { s.ctx c with plerr := false }).team t).place ≠ .placeErr r := by
    intro t ht r
    obtain ⟨hlt, hctx⟩ : t < s.teams.length ∧ (s.team t).ctx = c := by simpa [teamIds] using ht
    exact hn t r hlt hctx
  simp only [plerrAck, h, Bool.not_true, Bool.false_eq_true, if_false]
  split
  · rfl
  · exact answerPlace_none _ _ hteams

section
variable {s : State} {c : Nat} (v : Word) (h : s.dev.takesCtx = true) (hc : c < 64)
include h hc

theorem writeCtx_preempt : writeCtx s c 0x080 v = writePreempt s c v := by simp [writeCtx, h, hc]

theorem write_preempt_noAck (hv : wfield v 7 1 = 0) :
    exec (.registerWrite (some c) 0x080 v) s = preemptRest (s.ctx c).pstate c v s := by
  rw [exec_write_ctx, writeCtx_preempt v h hc, preemptRest_eq _ _ _ _ h]
  simp [writePreempt, hv]

theorem write_preempt_onlyAck (hv : wfield v 7 1 = 1) (h0 : wfield v 0 2 = 0) :
    exec (.registerWrite (some c) 0x080 v) s = exec (.plerrAck c) s := by
  have hreq : wfield v 0 1 = 0 := by simp only [wfield, field] at *; omega
  have hres : wfield v 1 1 = 0 := by simp only [wfield, field] at *; omega
  rw [exec_write_ctx, writeCtx_preempt v h hc, exec_plerrAck]
  simp [writePreempt, hv, hreq, hres]

theorem write_preempt_ack (hv : wfield v 7 1 = 1)
    (hn : ∀ t r, t < s.teams.length → (s.team t).ctx = c → (s.team t).place ≠ .placeErr r) :
    exec (.registerWrite (some c) 0x080 v) s = preemptRest (s.ctx c).pstate c v (s.setCtx c { s.ctx c with plerr := false }) := by
  rw [exec_write_ctx, writeCtx_preempt v h hc, preemptRest_eq _ _ _ (s.setCtx c _) h]
  simp [writePreempt, hv, plerrAck_none s c h hn]

-- CTX.FRESP (log 39) -----------------------------------------------------------------------------------------------------------------

theorem write_fresp_retry (hv : wfield v 62 2 = 1) :
    exec (.registerWrite (some c) 0x040 v) s = exec (.frespRetry c (wfield v 0 48)) s := by
  rw [exec_write_ctx, exec_frespRetry]
  simp [writeCtx, h, hc, writeFresp, hv]

theorem write_fresp_fail (hv : wfield v 62 2 = 2) :
    exec (.registerWrite (some c) 0x040 v) s = exec (.frespFail c (wfield v 0 48)) s := by
  rw [exec_write_ctx, exec_frespFail]
  simp [writeCtx, h, hc, writeFresp, hv]

end

theorem write_fresp_none {s : State} {c : Nat} (v : Word) (h : s.dev.takesCtx = true) (hv : wfield v 62 2 = 0 ∨ wfield v 62 2 = 3) :
    exec (.registerWrite (some c) 0x040 v) s = .next s := by
  rw [exec_write_ctx]
  rcases hv with hv | hv <;> simp [writeCtx, h, writeFresp, hv]

-- Region tables (R310, R311) --------------------------------------------------------------------------------------------------------

/-- A party that stands in no cluster caches its translations with the context: no team changes. -/
theorem cacheFor_teams (s : State) (c : Nat) (e : Xlat) (ws : List WalkEnt) : (cacheFor s c none e ws).teams = s.teams := by
  unfold cacheFor
  simp only
  split <;> rfl

theorem translatePage_teams (s : State) (c va : Nat) : (translatePage s c none va).1.teams = s.teams := by
  unfold translatePage translateAs
  simp only
  split
  · exact cacheFor_teams _ _ _ []
  · split
    · exact cacheFor_teams _ _ _ []
    · rfl

theorem checkPages_teams (a : Access) (ha : a.team = none) : ∀ (fuel : Nat) (s : State) (va n : Nat),
    (checkPages s a fuel va n).1.teams = s.teams
  | 0, _, _, _ => rfl
  | fuel + 1, s, va, n => by
    have hpage := translatePage_teams s a.ctx va
    unfold checkPages
    simp only [ha]
    split
    · rfl
    split
    · rfl
    split
    · rename_i heq
      rw [heq] at hpage
      exact hpage
    · rename_i t e heq
      rw [heq] at hpage
      split
      · exact hpage
      have hrest := checkPages_teams a ha fuel t (va + min n (4096 - va % 4096)) (n - min n (4096 - va % 4096))
      split
      · rename_i heq2
        rw [heq2] at hrest
        exact hrest.trans hpage
      · exact hrest.trans hpage

theorem checkAccess_teams (s : State) (a : Access) (ha : a.team = none) (hh : a.heap = none) : (checkAccess s a).1.teams = s.teams := by
  have hheap : checkHeap s a = none := by simp [checkHeap, hh]
  have hpages := checkPages_teams a ha (a.n / 4096 + 2) s a.va a.n
  unfold checkAccess
  simp only [hheap]
  split
  · rfl
  · split
    · rename_i heq
      rw [heq] at hpages
      split <;> exact hpages
    · exact hpages

/-- A pending table is applied once the context is idle, unless a fatal error has come. -/
theorem exec_regtabApply {s : State} {c : Nat} {v : Word} (hv : (s.ctx c).regPend = some v) :
    exec (.regtabApply c) s = if idleCtx s c = true ∧ s.dev.status ≠ 7 then .next (applyRegions s c v) else .next s := by
  have hexec : exec (.regtabApply c) s = execRegtabApply c s := rfl
  rw [hexec, execRegtabApply, hv]
  simp

theorem exec_regtabApply_fatal (s : State) (c : Nat) (h : s.dev.status = 7) : exec (.regtabApply c) s = .next s := by
  cases hv : (s.ctx c).regPend with
  | none =>
    have hexec : exec (.regtabApply c) s = execRegtabApply c s := rfl
    rw [hexec, execRegtabApply, hv]
  | some v => rw [exec_regtabApply hv, if_neg fun hgo => hgo.2 h]

/-- The standing regions of the entries that pass R71's checks (R310). -/
def standing (es : List (Nat × Binding)) : List Region :=
  (es.filter fun p => !entryBad es p.1 p.2).map fun p => { owner := none, base := p.2.base, len := p.2.len, wr := p.2.wr, gate := p.2.gate }

/-- REJ: one past the number of the first entry rejected, 0 with none. -/
def firstRejected : List (Nat × Binding) → Nat
  | p :: _ => p.1 + 1
  | [] => 0

theorem applyRegions_off {s : State} {c : Nat} {v : Word} (h : wfield v 0 1 = 0) :
    applyRegions s c v = s.setCtx c { s.ctx c with regtab := v, regPend := none, rej := 0, regions := [] } := by
  simp [applyRegions, h]

theorem applyRegions_read {s u : State} {c : Nat} {v : Word} {l : List Piece} (h : wfield v 0 1 = 1)
    (hl : checkAccess s ⟨c, none, .load, wfield v 11 46 * 2048, 2048, none⟩ = (u, .ok l)) :
    let es := tableEntries (wordsOf (readNow u l))
    applyRegions s c v = u.setCtx c { u.ctx c with
      regtab := v, regPend := none, rej := firstRejected (es.filter fun p => entryBad es p.1 p.2), regions := standing es } := by
  have hon : wfield v 0 1 ≠ 0 := by omega
  intro es
  simp only [applyRegions, if_neg hon, hl]
  cases es.filter fun p => entryBad es p.1 p.2 <;> rfl

/-- Setting a context after the checks of an access of a party that has no team leaves work and memory as they were. -/
theorem checked_setCtx_kept {s u : State} {a : Access} {r : Except (Nat × Nat) (List Piece)} (hu : checkAccess s a = (u, r)) (ht : a.team = none)
    (hh : a.heap = none) (c : Nat) (x : Ctx) : WorkKept s (u.setCtx c x) ∧ StoreKept s (u.setCtx c x) := by
  have htlb : TlbOnly s u := by simpa [hu] using checkAccess_tlbOnly s a
  have hteams : u.teams = s.teams := by simpa [hu] using checkAccess_teams s a ht hh
  have hframe := htlb.1
  refine ⟨⟨?_, hteams, ?_⟩, htlb.mem, htlb.writes, ?_⟩ <;> rw [hframe] <;> rfl

-- Reads --------------------------------------------------------------------------------------------------------------------------------

theorem toNat_wd {n : Nat} (h : n < 2 ^ 64) : (wd n).toNat = n := by rw [wd, BitVec.toNat_ofNat, Nat.mod_eq_of_lt h]

theorem ofBytes_lt : ∀ l : List Byte, ofBytes l < 2 ^ (8 * l.length)
  | [] => Nat.one_pos
  | b :: l => by
    have hl := ofBytes_lt l
    have hb : b.toNat < 256 := b.isLt
    have hpow : 2 ^ (8 * (b :: l).length) = 256 * 2 ^ (8 * l.length) := by rw [List.length_cons, Nat.mul_succ, pow_add]; ring
    have hcons : ofBytes (b :: l) = b.toNat + 256 * ofBytes l := rfl
    rw [hcons, hpow]
    omega

/-- The word of at most eight bytes is their number. -/
theorem toNat_wd_ofBytes (l : List Byte) : (wd (ofBytes (l.take 8))).toNat = ofBytes (l.take 8) := by
  refine toNat_wd (Nat.lt_of_lt_of_le (ofBytes_lt _) (Nat.pow_le_pow_right (by decide) ?_))
  rw [List.length_take]
  omega

/-- A turn of the host, the management port or the node, at the head of the agenda. -/
theorem step_turn {s : State} {t : Turn} {l : List Turn} (h : s.agenda = t :: l) : step s = stepTurn { s with agenda := l } t := by
  rw [step, h]

section
variable {s : State} {l : List Turn} {off w : Nat} (k : Nat)

/-- A read of the register of a context at the aligned offset k. -/
theorem step_read_ctx {c : Nat} (hk : k % 8 = 0) (hw : (if k < 0x1000 then readCtx s c k else 0).toNat = w) (he : off = k)
    (h : s.agenda = .regRead (some c) off 8 :: l) : step s = .next { s with agenda := l, dev := { s.dev with hostData := toBytes 8 w } } := by
  subst he hw
  rw [step_turn h]
  simp only [stepTurn, outside, regRead, hk]
  rfl

/-- A read of the register of the physical function at the aligned offset k, any but DEV.TRIDX. -/
theorem step_read_dev (hk : k % 8 = 0 ∧ k ≠ 0x0050) (hw : (readDev s k).toNat = w) (he : off = k) (h : s.agenda = .regRead none off 8 :: l) :
    step s = .next { s with agenda := l, dev := { s.dev with hostData := toBytes 8 w } } := by
  obtain ⟨haligned, hother⟩ := hk
  subst he hw
  rw [step_turn h]
  simp only [stepTurn, outside, regRead, haligned, if_neg hother]
  rfl

end

/-- An unaligned read returns nothing (log 38). -/
theorem step_read_unaligned {s : State} {l : List Turn} {ctx : Option Nat} {off : Nat} (h : s.agenda = .regRead ctx off 8 :: l)
    (h8 : off % 8 ≠ 0) : step s = .next { s with agenda := l, dev := { s.dev with hostData := [] } } := by
  rw [step_turn h]
  simp [stepTurn, outside, regRead, h8]

theorem step_read_traceIndex {s : State} {l : List Turn} {off : Nat} (he : off = 0x0050) (h : s.agenda = .regRead none off 8 :: l) :
    step s = exec .traceIndexRead { s with agenda := l } := by
  subst he
  rw [step_turn h]
  rfl

theorem exec_traceIndexRead (s : State) : exec .traceIndexRead s = .next { s with dev := { s.dev with
    hostData := toBytes 8 (s.dev.drops.toNat * 2 ^ 32 + s.dev.twidx % 2 ^ 32), drops := 0 } } := by
  have hdrops : s.dev.drops.toNat < 2 ^ 32 := s.dev.drops.isLt
  have hexec : exec .traceIndexRead s = .next (regRead s none 0x0050 8) := rfl
  have hread : (readDev s 0x0050).toNat = s.dev.drops.toNat * 2 ^ 32 + s.dev.twidx % 2 ^ 32 := toNat_wd (by omega)
  rw [hexec, ← hread]
  rfl

theorem readCtx_brk (s : State) (c n : Nat) (hn : n < 4) : readCtx s c (0x058 + 8 * n) = getAt 0 (s.ctx c).brk n := by
  interval_cases n <;> rfl

theorem readCtx_unlisted (s : State) (c off : Nat) (h : 0x088 < off) : readCtx s c off = 0 := by
  unfold readCtx
  split
  case h_18 => rfl
  all_goals omega

theorem readCtx_fqHeadTail (s : State) (c : Nat) : (readCtx s c 0x038).toNat = (s.ctx c).fqHead.toNat * 2 ^ 32 + (s.ctx c).fqTail.toNat := by
  have happend : readCtx s c 0x038 = (s.ctx c).fqHead ++ (s.ctx c).fqTail := rfl
  rw [happend, BitVec.toNat_append, ← Nat.shiftLeft_add_eq_or_of_lt (s.ctx c).fqTail.isLt, Nat.shiftLeft_eq]

theorem readCtx_preempt (s : State) (c : Nat) :
    (readCtx s c 0x080).toNat = (if (s.ctx c).plerr then 2 ^ 7 else 0) + (s.ctx c).pstate.toNat * 4 := by
  have hstate : (s.ctx c).pstate.toNat < 4 := (s.ctx c).pstate.isLt
  refine toNat_wd ?_
  split <;> omega

theorem readCtx_sealed (s : State) (c : Nat) : (readCtx s c 0x088).toNat = if (s.ctx c).sealed then 1 else 0 := by
  have hread : readCtx s c 0x088 = if (s.ctx c).sealed then 1 else 0 := rfl
  rw [hread]
  split <;> rfl

/-- The registers of the physical function with an offset each that can be read. -/
abbrev readable : List Nat :=
  [0x0000, 0x0008, 0x0010, 0x0018, 0x0020, 0x0028, 0x0030, 0x0040, 0x0048, 0x0050, 0x0060, 0x0068, 0x0070, 0x0100, 0x0800]

theorem readDev_rest (s : State) (off : Nat) (h : off ∉ readable) : readDev s off =
    if 0x0400 ≤ off ∧ off < 0x0800 then
      wd (getAt 0 s.dev.temp ((off - 0x0400) / 8) * 2 ^ 8 + getAt 0 s.dev.floor ((off - 0x0400) / 8) * 2 ^ 4 +
        getAt 0 s.dev.level ((off - 0x0400) / 8))
    else if 0x0840 ≤ off ∧ off < 0x0880 then
      wd ((if (s.port ((off - 0x0840) / 8)).up then 2 ^ 63 else 0) + (if (s.port ((off - 0x0840) / 8)).quar then 2 ^ 62 else 0) +
        (s.port ((off - 0x0840) / 8)).peer)
    else if 0x1000 ≤ off ∧ off < 0x2000 then wd (ofBytes ((padTo 0x1000 (capList s)).drop (off - 0x1000) |>.take 8))
    else if 0x100000 ≤ off ∧ off < 0x140000 then readCtx s ((off - 0x100000) / 0x1000) (off % 0x1000)
    else 0 := by
  unfold readDev
  split
  case h_16 => simp only [Bool.and_eq_true, decide_eq_true_eq]; rfl
  all_goals simp at h

theorem not_mem_readable {off : Nat} (h : 0x0100 < off) (h' : off ≠ 0x0800) : off ∉ readable := by
  simp only [List.mem_cons, List.not_mem_nil, or_false]
  omega

theorem readDev_shoot (s : State) : (readDev s 0x0020).toNat = s.dev.shootDone.toNat * 2 ^ 16 := by
  have hdone : s.dev.shootDone.toNat < 2 ^ 48 := s.dev.shootDone.isLt
  exact toNat_wd (by omega)

theorem readDev_status (s : State) : (readDev s 0x0000).toNat = s.dev.status.toNat := BitVec.toNat_setWidth_of_le (by decide)

theorem readDev_fpwin (s : State) : (readDev s 0x0060).toNat = s.dev.fpwin.toNat := BitVec.toNat_setWidth_of_le (by decide)

theorem readDev_island (s : State) (n : Nat) (hn : n < 128) :
    readDev s (0x0400 + 8 * n) = wd (getAt 0 s.dev.temp n * 2 ^ 8 + getAt 0 s.dev.floor n * 2 ^ 4 + getAt 0 s.dev.level n) := by
  have hnum : (0x0400 + 8 * n - 0x0400) / 8 = n := by omega
  rw [readDev_rest s _ (not_mem_readable (by omega) (by omega)), if_pos (by omega), hnum]

theorem readDev_port (s : State) (n : Nat) (hn : n < 8) : readDev s (0x0840 + 8 * n) =
    wd ((if (s.port n).up then 2 ^ 63 else 0) + (if (s.port n).quar then 2 ^ 62 else 0) + (s.port n).peer) := by
  have hnum : (0x0840 + 8 * n - 0x0840) / 8 = n := by omega
  rw [readDev_rest s _ (not_mem_readable (by omega) (by omega)), if_neg (by omega), if_pos (by omega), hnum]

theorem readDev_capList (s : State) (n : Nat) (hn : n < 512) :
    readDev s (0x1000 + 8 * n) = wd (ofBytes (((padTo 0x1000 (capList s)).drop (8 * n)).take 8)) := by
  have hoff : 0x1000 + 8 * n - 0x1000 = 8 * n := by omega
  rw [readDev_rest s _ (not_mem_readable (by omega) (by omega)), if_neg (by omega), if_neg (by omega), if_pos (by omega), hoff]

theorem readDev_ctx (s : State) (c o : Nat) (hc : c < 64) (ho : o < 0x1000) : readDev s (0x100000 + 0x1000 * c + o) = readCtx s c o := by
  have hnum : (0x100000 + 0x1000 * c + o - 0x100000) / 0x1000 = c := by omega
  have hoff : (0x100000 + 0x1000 * c + o) % 0x1000 = o := by omega
  rw [readDev_rest s _ (not_mem_readable (by omega) (by omega)), if_neg (by omega), if_neg (by omega), if_neg (by omega), if_pos (by omega),
    hnum, hoff]

theorem readDev_unlisted (s : State) (off : Nat) (h : 0x2000 ≤ off) (hctx : off < 0x100000 ∨ 0x140000 ≤ off) : readDev s off = 0 := by
  rw [readDev_rest s off (not_mem_readable (by omega) (by omega)), if_neg (by omega), if_neg (by omega), if_neg (by omega), if_neg (by omega)]

/-- A read of a context's page of the physical function is the read of that context's own aperture. -/
theorem step_read_ctxPage {s : State} {l : List Turn} {c o : Nat} (hc : c < 64) (ho : o < 0x1000)
    (h : s.agenda = .regRead none (0x100000 + 0x1000 * c + o) 8 :: l) : step s = step { s with agenda := .regRead (some c) o 8 :: l } := by
  by_cases h8 : o % 8 = 0
  · rw [step_read_dev _ (by omega) (congrArg BitVec.toNat (readDev_ctx s c o hc ho)) rfl h,
      step_read_ctx (s := { s with agenda := .regRead (some c) o 8 :: l }) o h8 (congrArg BitVec.toNat (if_pos ho)) rfl rfl]
    rfl
  · rw [step_read_unaligned h (by omega), step_read_unaligned (s := { s with agenda := .regRead (some c) o 8 :: l }) rfl h8]

-- The capability list (R388, Table 16.3) ----------------------------------------------------------------------------------------------------

/-- Bytes that the first n entries of a capability list take: eight of header each and the contents. -/
def capBefore (l : List (Nat × List Byte)) (n : Nat) : Nat := ((l.take n).map fun p => 8 + p.2.length).sum

theorem capBefore_succ (p : Nat × List Byte) (l : List (Nat × List Byte)) (n : Nat) :
    capBefore (p :: l) (n + 1) = 8 + p.2.length + capBefore l n := by simp [capBefore]

/-- Header of entry n of a list that lies at off: its identifier, its length and where the next entry lies. -/
def capHeader (off : Nat) (l : List (Nat × List Byte)) (n : Nat) : List Byte :=
  toBytes 8 (getAt 0 (l.map (·.1)) n + (8 + (getAt [] (l.map (·.2)) n).length) * 2 ^ 16 +
    (if n + 1 = l.length then 0 else (off + capBefore l (n + 1)) * 2 ^ 32))

theorem capBytes_tail (off : Nat) (p : Nat × List Byte) (l : List (Nat × List Byte)) :
    (capBytes off (p :: l)).drop (8 + p.2.length) = capBytes (off + 8 + p.2.length) l :=
  List.drop_left' (by simp [length_toBytes])

/-- At its place in the list an entry has its header, and its contents behind it. -/
theorem capBytes_entry : ∀ (l : List (Nat × List Byte)) (off n : Nat), n < l.length →
    ∃ rest, (capBytes off l).drop (capBefore l n) = capHeader off l n ++ getAt [] (l.map (·.2)) n ++ rest
  | [], _, _, h => absurd h (Nat.not_lt_zero _)
  | (k, b) :: l, off, 0, _ => by
    refine ⟨capBytes (off + 8 + b.length) l, ?_⟩
    cases l with
    | nil => simp [capBytes, capBefore, capHeader, getAt]
    | cons p l => simp [capBytes, capBefore, capHeader, getAt, Nat.add_assoc]
  | (k, b) :: l, off, n + 1, h => by
    obtain ⟨rest, hrest⟩ := capBytes_entry l (off + 8 + b.length) n (by simpa using h)
    have hheader : capHeader off ((k, b) :: l) (n + 1) = capHeader (off + 8 + b.length) l n := by
      simp [capHeader, capBefore_succ, getAt, Nat.add_assoc]
    refine ⟨rest, ?_⟩
    rw [hheader, capBefore_succ, ← List.drop_drop, capBytes_tail]
    exact hrest

theorem capBytes_header (l : List (Nat × List Byte)) (off n : Nat) (h : n < l.length) :
    ((capBytes off l).drop (capBefore l n)).take 8 = capHeader off l n := by
  obtain ⟨rest, hrest⟩ := capBytes_entry l off n h
  have hlen : (capHeader off l n).length = 8 := length_toBytes _ _
  rw [hrest, List.append_assoc, ← hlen, List.take_left]

theorem capBytes_contents (l : List (Nat × List Byte)) (off n : Nat) (h : n < l.length) :
    ((capBytes off l).drop (capBefore l n + 8)).take (getAt [] (l.map (·.2)) n).length = getAt [] (l.map (·.2)) n := by
  obtain ⟨rest, hrest⟩ := capBytes_entry l off n h
  have hlen : (capHeader off l n).length = 8 := length_toBytes _ _
  rw [← List.drop_drop, hrest, List.append_assoc, List.drop_left' hlen, List.take_left]

/-- The ten entries of Table 16.3 follow one another from 0x1000 on, and the last names no next one. -/
theorem capList_entry (s : State) (n : Nat) (hn : n < (capEntries s.dev s.cores).length) :
    let es := capEntries s.dev s.cores
    ((capList s).drop (capBefore es n)).take 8 = toBytes 8 (getAt 0 (es.map (·.1)) n + (8 + (getAt [] (es.map (·.2)) n).length) * 2 ^ 16 +
      (if n = 9 then 0 else (0x1000 + capBefore es (n + 1)) * 2 ^ 32)) ∧
    ((capList s).drop (capBefore es n + 8)).take (getAt [] (es.map (·.2)) n).length = getAt [] (es.map (·.2)) n := by
  intro es
  have hlast : n + 1 = es.length ↔ n = 9 := by
    have hten : es.length = 10 := rfl
    omega
  have hheader := capBytes_header es 0x1000 n hn
  simp only [capHeader, hlast] at hheader
  exact ⟨hheader, capBytes_contents es 0x1000 n hn⟩

-- O56 ---------------------------------------------------------------------------------------------------------------------

/-- Settles O56: the rows of Tables 16.6 and 16.7 one by one for writes and for reads, the cases of a pending region table, and the place of each
entry in the capability list by induction on the list. -/
theorem registerEvents : Obligations.RegisterEvents := by
  unfold Obligations.RegisterEvents
  refine ⟨?_, ?_, ?_, ?_, exec_regtabApply_fatal, exec_traceIndexRead, ?_, ?_, ?_, ?_, ?_, ?_, ?_⟩
  · -- writes of a context's registers
    intro s c v hs hc
    have ht := (takesCtx_iff _).2 hs
    obtain ⟨worktab, part, heapbase, heaplen, heapoff, ptroot, faultq, fqtail, regtab, trapvec, save⟩ := write_ctx_rows v ht hc
    exact ⟨worktab, part, heapbase, heaplen, heapoff, ptroot, faultq, fqtail, regtab, trapvec, save, write_brk v ht hc,
      write_fresp_retry v ht hc, write_fresp_fail v ht hc, write_fresp_none v ht,
      fun _ hack => ⟨fun h => write_preempt_noAck v ht hc (hack.trans h), fun h => write_preempt_onlyAck v ht hc (hack.trans h),
        fun h => write_preempt_ack v ht hc (hack.trans h)⟩,
      fun off h => congrArg _ (writeCtx_unlisted s c off v h)⟩
  · -- before READY
    intro s c off v h3 h7
    exact congrArg _ (writeCtx_early s c off v (Bool.eq_false_iff.2 fun h => ((takesCtx_iff _).1 h).elim h3 h7))
  · -- writes of the physical function's registers
    intro s v
    obtain ⟨rback, shootVA, dump, trace, trctx, fpwin, node, nodemap, whcfg⟩ := write_dev_rows s v
    have ignored : ∀ off, off ∉ writable → (off < 0x0840 ∨ 0x0880 ≤ off ∨ off % 8 ≠ 0) → (off < 0x100000 ∨ 0x140000 ≤ off) →
        exec (.registerWrite none off v) s = .next s := fun off h hp hc => congrArg _ (writeDev_unlisted s off v h hp hc)
    refine ⟨rback, shootVA, dump, trace, trctx, fpwin, node, nodemap, whcfg, write_pwrctl s v, write_dbg s v, write_shoot s v, write_quar s v,
      ignored _ (by decide) (by decide) (by decide), ignored _ (by decide) (by decide) (by decide), ignored _ (by decide) (by decide) (by decide),
      ?_, ?_, ignored, fun c off hc ho => congrArg _ (writeDev_ctx s c off v hc ho)⟩
    · intro n hn
      have hrow : 0x0400 + 8 * n ∉ writable := by
        simp only [List.mem_cons, List.not_mem_nil, or_false]
        omega
      exact ignored _ hrow (by omega) (by omega)
    · intro off hlo hhi
      exact ignored _ (not_mem_writable (by omega)) (by omega) (by omega)
  · -- a pending region table
    intro s c v hst hv
    refine ⟨fun hbusy => ?_, fun hidle hoff => ?_, fun u l hidle hon hl => ?_⟩
    · rw [exec_regtabApply hv, if_neg (by simp [hbusy])]
    · rw [exec_regtabApply hv, if_pos ⟨hidle, hst⟩, applyRegions_off hoff]
    · refine ⟨_, by rw [exec_regtabApply hv, if_pos ⟨hidle, hst⟩, applyRegions_read hon hl], ?_⟩
      rw [ctx_setCtx_same]
      exact ⟨rfl, rfl, rfl, rfl, checked_setCtx_kept hl rfl rfl c _⟩
  · -- reads of a context's registers
    intro s l c off
    exact ⟨step_read_ctx 0x000 rfl rfl, step_read_ctx 0x008 rfl rfl, step_read_ctx 0x010 rfl rfl, step_read_ctx 0x018 rfl rfl,
      step_read_ctx 0x020 rfl rfl, step_read_ctx 0x028 rfl rfl, step_read_ctx 0x030 rfl rfl, step_read_ctx 0x038 rfl (readCtx_fqHeadTail s c),
      step_read_ctx 0x040 rfl rfl, step_read_ctx 0x048 rfl rfl, step_read_ctx 0x050 rfl rfl,
      fun n hn => step_read_ctx (0x058 + 8 * n) (by omega) (by rw [if_pos (by omega), readCtx_brk s c n hn]),
      step_read_ctx 0x078 rfl rfl, step_read_ctx 0x080 rfl (readCtx_preempt s c), step_read_ctx 0x088 rfl (readCtx_sealed s c),
      fun hlo h8 => step_read_ctx off h8 (by rw [readCtx_unlisted s c off hlo, ite_self]; rfl) rfl⟩
  · -- reads of the physical function's registers
    intro s l off
    refine ⟨step_read_dev 0x0000 (by decide) (readDev_status s), step_read_dev 0x0008 (by decide) rfl, step_read_dev 0x0010 (by decide) rfl,
      step_read_dev 0x0018 (by decide) rfl, step_read_dev 0x0020 (by decide) (readDev_shoot s), step_read_dev 0x0028 (by decide) rfl,
      step_read_dev 0x0030 (by decide) rfl, step_read_dev 0x0040 (by decide) rfl, step_read_dev 0x0048 (by decide) rfl, step_read_traceIndex,
      step_read_dev 0x0060 (by decide) (readDev_fpwin s), step_read_dev 0x0068 (by decide) rfl, step_read_dev 0x0070 (by decide) rfl,
      step_read_dev 0x0100 (by decide) rfl, step_read_dev 0x0800 (by decide) rfl,
      fun n hn => step_read_dev (0x0400 + 8 * n) (by omega) (congrArg _ (readDev_island s n hn)),
      fun n hn => step_read_dev (0x0840 + 8 * n) (by omega) (congrArg _ (readDev_port s n hn)),
      fun n hn => step_read_dev (0x1000 + 8 * n) (by omega) (by rw [readDev_capList s n hn, toNat_wd_ofBytes]),
      fun hlo hctx h8 => step_read_dev off (by omega) (congrArg _ (readDev_unlisted s off hlo hctx)) rfl, fun hmem => ?_, fun c o hc ho he h => ?_⟩
    · simp only [List.mem_cons, List.not_mem_nil, or_false] at hmem
      rcases hmem with he | he | he
      · exact step_read_dev 0x0038 (by decide) rfl he
      · exact step_read_dev 0x0058 (by decide) rfl he
      · exact step_read_dev 0x0078 (by decide) rfl he
    · subst he
      exact step_read_ctxPage hc ho h
  · -- the capability list
    intro s es
    refine ⟨rfl, rfl, rfl, ?_⟩
    intro at_ n hn
    have hplace : at_ n - 0x1000 = capBefore es n := Nat.add_sub_cancel_left _ _
    rw [hplace]
    exact capList_entry s n hn
  -- the turns that are no aligned register read
  · exact fun s l ctx off data h => step_turn h
  · exact fun s l ctx off n h => step_turn h
  · exact fun s l what h => step_turn h
  · exact fun s l names h => step_turn h

end Sys2Proof.Registers
end

section
/-! PROOFS. Rows whose meaning is one lane-wise result of the registers of their group (R175, R176, R180), from issue to release. -/

namespace Sys2Proof.RunRows

open Machine Laws Safety

-- Lane-wise rows ------------------------------------------------------------------------------------------------------------------

/-- A row whose meaning is one lane-wise result of its group's registers is a run row: the result is written, its flags are raised, and the rest
is as the end of an instruction leaves it. -/
theorem runRow_of_lanewise {i : Instr} {d : Reg} (val : Group → Nat → Nat → Word × Flags)
    (hval : ∀ x y : Group, y.v = x.v → y.s = x.s → val y = val x)
    (h : ∀ s, exec i s = issue i (regBody fun is g => g.lanewise d is.act is.help (val g)) s) :
    RunRow i d fun s is => val (s.group is.g) := by
  intro s is hr ha hw
  obtain ⟨rv, rs, rp, rj, rflags, rlanes⟩ := issued_regs s i is
  obtain ⟨hrel, hgroups, hmach, hmem⟩ := regBody_ready (fun is g => g.lanewise d is.act is.help (val g)) hr ha hw (by
    intro x
    obtain ⟨v, sr, b, fl, e, hb⟩ := lanewise_fields x d is.act is.help (val x)
    rw [e]
    exact ⟨rfl, rfl, rfl, rfl, hb⟩)
  rw [hval (s.group is.g) _ rv rs] at hrel
  obtain ⟨hwritten, hraised⟩ := lanewise_result ((issued s i is).group is.g) d is.act is.help (val (s.group is.g))
  obtain ⟨v, sr, b, fl, e, _⟩ := lanewise_fields ((issued s i is).group is.g) d is.act is.help (val (s.group is.g))
  rw [e] at hrel hwritten hraised
  obtain ⟨tv, ts, tp, tj, tflags⟩ := released_regs hrel
  refine ⟨_, by rw [h, issue_ready _ hr, if_neg ha], ⟨fun n l hl => ?_, fun n => ?_⟩, fun k hk => ?_, fun n => ?_, fun n => ?_,
    released_advanced hr (by exact rlanes) hrel, released_place hrel, hgroups, hmach, hmem⟩
  · rw [vcell_congr tv, vcell_advance, hwritten.1 n l hl, vcell_congr rv]
  · rw [sreg_congr ts, sreg_advance, hwritten.2 n, sreg_congr rs]
  · rw [tflags, ← rflags]
    exact hraised k hk
  · rw [pred_congr tp, pred_advance]
    exact pred_congr rp n
  · rw [tj, ← rj]
    rfl

theorem runRow_congr {i : Instr} {d : Reg} {val val' : State → Iss → Nat → Nat → Word × Flags} (h : RunRow i d val)
    (he : ∀ s is j l, val s is j l = val' s is j l) : RunRow i d val' := by
  have heq : val = val' := by
    funext s is j l
    exact he s is j l
  exact heq ▸ h

theorem buildElems_congr {w : Nat} {f f' : Nat → Nat × Flags} (h : ∀ k, f k = f' k) : buildElems w f = buildElems w f' :=
  congrArg _ (funext h)

end Sys2Proof.RunRows
end

section
/-! PROOFS. The helpers of Table 0.4 and the integer types of R182, in the plain arithmetic of the statements. -/

namespace Sys2Proof.Numbers

open Machine Safety

-- Shared operations in plain arithmetic -------------------------------------------------------------------------------------------

theorem asr_eq_fdiv (a : Int) (k : Nat) : asr a k = Int.fdiv a (2 ^ k) := by rw [asr, Nat.cast_pow, Nat.cast_ofNat]

theorem low_eq_wrapped (x : Int) (w : Nat) : low x w = wrapped w x := by rw [low, wrapped, Nat.cast_pow, Nat.cast_ofNat]; rfl

/-- Two's complement is the balanced remainder (R11). -/
theorem sext_eq_bmod (x n : Nat) : sext x n = Int.bmod x (2 ^ n) := by
  have hmod : (x : Int) % ((2 ^ n : Nat) : Int) = ((x % 2 ^ n : Nat) : Int) := rfl
  rw [sext, Int.bmod_def, hmod]
  congr 1
  exact propext (by omega)

theorem intRead_eq_readAs (t w x : Nat) : intRead t w x = readAs t w x := by
  unfold intRead readAs
  by_cases ht : t < 4
  · rw [if_pos ht, if_neg (by omega)]
  · rw [if_neg ht, if_pos (by omega), sext_eq_bmod]

theorem intLo_eq_leastOf (t w : Nat) : intLo t w = leastOf t w := by
  unfold intLo leastOf
  by_cases ht : t < 4
  · rw [if_pos ht, if_neg (by omega)]
  · rw [if_neg ht, if_pos (by omega), Nat.cast_pow, Nat.cast_ofNat]

theorem intHi_eq_mostOf (t w : Nat) : intHi t w = mostOf t w := by
  unfold intHi mostOf
  by_cases ht : t < 4
  · rw [if_pos ht, if_neg (by omega), Nat.cast_pow, Nat.cast_ofNat]
  · rw [if_neg ht, if_pos (by omega), Nat.cast_pow, Nat.cast_ofNat]

theorem leastOf_nonpos (t w : Nat) : leastOf t w ≤ 0 := by
  unfold leastOf
  split
  · exact le_rfl
  · exact neg_nonpos.2 (by positivity)

theorem mostOf_nonneg (t w : Nat) : 0 ≤ mostOf t w := by
  have hpow : ∀ k : Nat, (1 : Int) ≤ 2 ^ k := fun k => one_le_pow₀ (by decide)
  unfold mostOf
  split
  · exact sub_nonneg.2 (hpow w)
  · exact sub_nonneg.2 (hpow (w - 1))

/-- No integer type of at most 64 bits reaches 2^70. -/
theorem type_range {w : Nat} (hw : w ≤ 64) (t : Nat) : -(2 ^ 70) < leastOf t w ∧ mostOf t w < 2 ^ 70 := by
  have hpow : (2 : Int) ^ w ≤ 2 ^ 64 := pow_le_pow_right₀ (by decide) hw
  have hhalf : (2 : Int) ^ (w - 1) ≤ 2 ^ w := pow_le_pow_right₀ (by decide) (by omega)
  unfold leastOf mostOf
  split <;> constructor <;> omega

theorem sat_eq_clamp {lo hi : Int} (h : lo ≤ hi) (x : Int) : sat x lo hi = max lo (min hi x) := by
  unfold sat
  split
  · omega
  split <;> omega

end Sys2Proof.Numbers
end

section
/-! PROOFS. O11: the logs of magnitudes (R28), the boundary formats (R22, R29 to R31, Table 1.5), and the rows LCVT, LDOT4 and CVT (R200 to R204). -/

namespace Sys2Proof.Conversions

open Machine Laws Safety RunRows Numbers

-- The magnitude of a rational (R25, R29) ------------------------------------------------------------------------------------------

/-- The model multiplies the side of a fraction that a power of two makes whole; on the other side the power is 1. -/
theorem ite_mul_two_pow (n : Nat) (k : Int) : (if 0 ≤ k then n * 2 ^ k.toNat else n) = n * 2 ^ k.toNat := by
  split
  · rfl
  · rw [Int.toNat_of_nonpos (by omega), pow_zero, mul_one]

theorem ite_mul_two_pow_neg (n : Nat) (k : Int) : (if 0 ≤ k then n else n * 2 ^ (-k).toNat) = n * 2 ^ (-k).toNat := by
  split
  · rw [Int.toNat_of_nonpos (by omega), pow_zero, mul_one]
  · rfl

theorem two_zpow_eq (e : Int) : (2 : ℚ) ^ e = 2 ^ e.toNat / 2 ^ (-e).toNat := by
  rw [← zpow_natCast, ← zpow_natCast, ← zpow_sub₀ two_ne_zero, Int.toNat_sub_toNat_neg]

section
variable {n d : Nat}

theorem le_scaled_iff (hd : 0 < d) (e : Int) : d * 2 ^ e.toNat ≤ n * 2 ^ (-e).toNat ↔ (2 : ℚ) ^ e ≤ n / d := by
  have hpow : (0 : ℚ) < 2 ^ (-e).toNat := by positivity
  rw [two_zpow_eq, div_le_div_iff₀ hpow (by exact_mod_cast hd), mul_comm ((2 : ℚ) ^ e.toNat)]
  exact_mod_cast Iff.rfl

theorem scaled_lt_iff (hd : 0 < d) (e : Int) : n * 2 ^ (-e).toNat < d * 2 ^ e.toNat ↔ (n / d : ℚ) < 2 ^ e := by
  rw [← not_le, ← not_le, le_scaled_iff hd]

theorem scaled_eq_iff (hd : 0 < d) (e : Int) : n * 2 ^ (-e).toNat = d * 2 ^ e.toNat ↔ (n / d : ℚ) = 2 ^ e := by
  have hpow : (2 : ℚ) ^ (-e).toNat ≠ 0 := by positivity
  rw [two_zpow_eq, div_eq_div_iff (by exact_mod_cast hd.ne') hpow, mul_comm ((2 : ℚ) ^ e.toNat)]
  exact_mod_cast Iff.rfl

/-- The difference of the bit lengths is the exponent of a quotient or one more. -/
theorem log2_sub_bounds (hn : 0 < n) (hd : 0 < d) :
    (2 : ℚ) ^ ((n.log2 : Int) - d.log2 - 1) < n / d ∧ (n / d : ℚ) < 2 ^ ((n.log2 : Int) - d.log2 + 1) := by
  have hd' : (0 : ℚ) < d := by exact_mod_cast hd
  have hlow : ∀ m : Nat, 0 < m → (2 : ℚ) ^ (m.log2 : Int) ≤ m := fun m hm => by
    rw [zpow_natCast]; exact_mod_cast Nat.log2_self_le hm.ne'
  have hhigh : ∀ m : Nat, (m : ℚ) < 2 ^ ((m.log2 : Int) + 1) := fun m => by
    exact_mod_cast Nat.lt_log2_self (n := m)
  constructor
  · calc (2 : ℚ) ^ ((n.log2 : Int) - d.log2 - 1) = 2 ^ (n.log2 : Int) / 2 ^ ((d.log2 : Int) + 1) := by
          rw [← zpow_sub₀ two_ne_zero, sub_sub]
      _ < 2 ^ (n.log2 : Int) / d := div_lt_div_of_pos_left (by positivity) hd' (hhigh d)
      _ ≤ n / d := div_le_div_of_nonneg_right (hlow n hn) hd'.le
  · calc (n / d : ℚ) < 2 ^ ((n.log2 : Int) + 1) / d := div_lt_div_of_pos_right (hhigh n) hd'
      _ ≤ 2 ^ ((n.log2 : Int) + 1) / 2 ^ (d.log2 : Int) := div_le_div_of_nonneg_left (by positivity) (by positivity) (hlow d hd)
      _ = 2 ^ ((n.log2 : Int) - d.log2 + 1) := by rw [← zpow_sub₀ two_ne_zero, sub_add_eq_add_sub]

theorem exp_test (e : Int) : (if 0 ≤ e then decide (d * 2 ^ e.toNat ≤ n) else decide (d ≤ n * 2 ^ (-e).toNat)) =
    decide (d * 2 ^ e.toNat ≤ n * 2 ^ (-e).toNat) := by
  by_cases he : 0 ≤ e
  · simp [he, Int.toNat_of_nonpos (neg_nonpos.2 he)]
  · simp [he, Int.toNat_of_nonpos (not_le.1 he).le]

/-- The exponent of a rational magnitude is the floor of its log. -/
theorem exp_rat (hn : 0 < n) (hd : 0 < d) : (Mag.rat n d).exp = Int.log 2 (n / d : ℚ) := by
  have hq : (0 : ℚ) < n / d := div_pos (by exact_mod_cast hn) (by exact_mod_cast hd)
  have le_log : ∀ e : Int, (2 : ℚ) ^ e ≤ n / d ↔ e ≤ Int.log 2 (n / d : ℚ) := fun _ => Int.zpow_le_iff_le_log one_lt_two hq
  have log_lt : ∀ e : Int, (n / d : ℚ) < 2 ^ e ↔ Int.log 2 (n / d : ℚ) < e := fun _ => Int.lt_zpow_iff_log_lt one_lt_two hq
  obtain ⟨hlow, hhigh⟩ := log2_sub_bounds hn hd
  have hlow := (le_log _).1 hlow.le
  have hhigh := (log_lt _).1 hhigh
  unfold Mag.exp
  simp only
  generalize (n.log2 : Int) - d.log2 = e at *
  simp only [exp_test, le_scaled_iff hd, le_log, decide_eq_true_eq]
  split <;> omega

theorem exact_test (e : Int) : (if 0 ≤ e then n == d * 2 ^ e.toNat else n * 2 ^ (-e).toNat == d) =
    decide (n * 2 ^ (-e).toNat = d * 2 ^ e.toNat) := by
  by_cases he : 0 ≤ e
  · simp [he, Int.toNat_of_nonpos (neg_nonpos.2 he), beq_eq_decide]
  · simp [he, Int.toNat_of_nonpos (not_le.1 he).le, beq_eq_decide]

/-- The log of a power of two is whole: the model's test names the one exponent it can be. -/
theorem ofRat_exact (hn : 0 < n) (hd : 0 < d) {e : Int} (h : n * 2 ^ (-e).toNat = d * 2 ^ e.toNat) :
    LogVal.ofRat n d = ⟨e * 2 ^ 64, false⟩ := by
  obtain ⟨hlow, hhigh⟩ := log2_sub_bounds hn hd
  rw [(scaled_eq_iff hd e).1 h, zpow_lt_zpow_iff_right₀ one_lt_two] at hlow hhigh
  have he : (n.log2 : Int) - d.log2 = e := by omega
  unfold LogVal.ofRat
  simp only [he, exact_test, decide_eq_true h]
  rfl

theorem ofRat_inexact (h : ∀ e : Int, n * 2 ^ (-e).toNat ≠ d * 2 ^ e.toNat) :
    LogVal.ofRat n d = ⟨floorReal (fun p => log2RatI p n d) 64, true⟩ := by
  unfold LogVal.ofRat
  simp only [exact_test, decide_eq_false (h _)]
  rfl

theorem scaled_rat (k : Int) : (Mag.rat n d).scaled k =
    (n * 2 ^ k.toNat / (d * 2 ^ (-k).toNat), decide (n * 2 ^ k.toNat % (d * 2 ^ (-k).toNat) ≠ 0)) := by
  unfold Mag.scaled
  simp only [ite_mul_two_pow, ite_mul_two_pow_neg, ← decide_not, bne, beq_eq_decide, ne_eq]

theorem exp_rat_eq (hn : 0 < n) (hd : 0 < d) {e : Int} (hlow : d * 2 ^ e.toNat ≤ n * 2 ^ (-e).toNat)
    (hhigh : n * 2 ^ (-e).toNat < 2 * (d * 2 ^ e.toNat)) : (Mag.rat n d).exp = e := by
  have hq : (0 : ℚ) < n / d := div_pos (by exact_mod_cast hn) (by exact_mod_cast hd)
  have hlow := (Int.zpow_le_iff_le_log one_lt_two hq).1 ((le_scaled_iff hd e).1 hlow)
  have hhigh : (n / d : ℚ) < 2 ^ (e + 1) := by
    have hhalf := (scaled_lt_iff (d := 2 * d) (by omega) e).1 (hhigh.trans_eq (mul_assoc _ _ _).symm)
    rwa [Nat.cast_mul, Nat.cast_ofNat, mul_comm (2 : ℚ), ← div_div, div_lt_iff₀ two_pos, ← zpow_add_one₀ two_ne_zero] at hhalf
  have hhigh := (Int.lt_zpow_iff_log_lt one_lt_two hq).1 hhigh
  rw [exp_rat hn hd]
  omega

end

-- The magnitude of a whole or fractional log --------------------------------------------------------------------------------------

theorem exp_pow (n : Int) (F : Nat) : (Mag.pow n F).exp = Int.fdiv n (2 ^ F) := asr_eq_fdiv n F

theorem log_fraction (n : Int) (F : Nat) : n - asr n F * ((2 ^ F : Nat) : Int) = n % 2 ^ F := by
  rw [asr_eq_fdiv, Int.fdiv_eq_ediv_of_nonneg n (by positivity), Int.emod_def, Nat.cast_pow, Nat.cast_ofNat, mul_comm]

theorem scaled_pow_whole {n : Int} {F : Nat} (h : n % 2 ^ F = 0) (k : Int) :
    (Mag.pow n F).scaled k = if 0 ≤ Int.fdiv n (2 ^ F) + k then (2 ^ (Int.fdiv n (2 ^ F) + k).toNat, false) else (0, true) := by
  unfold Mag.scaled
  simp only
  rw [if_pos ((log_fraction n F).trans h), asr_eq_fdiv]

theorem scaled_pow_fraction {n : Int} {F : Nat} (h : n % 2 ^ F ≠ 0) (k : Int) :
    (Mag.pow n F).scaled k = if Int.fdiv n (2 ^ F) + k < -1 then (0, true)
      else ((floorReal (fun p => (exp2Dyadic p n F).2) (Int.fdiv n (2 ^ F) + k)).toNat, true) := by
  unfold Mag.scaled
  simp only
  rw [if_neg fun h0 => h ((log_fraction n F).symm.trans h0), asr_eq_fdiv]

-- Rounding into a boundary format (R29 to R31) ------------------------------------------------------------------------------------

theorem ite_lt_eq_max (a b : Int) : (if a < b then b else a) = max b a := (max_def_lt a b).symm.trans (max_comm a b)

theorem maxCode_eq (f : IFmt) : f.maxCode =
    if f.inf then f.infCode - 1 else if f.nan then 2 ^ (f.eb + f.mb) - 2 else 2 ^ (f.eb + f.mb) - 1 := rfl

-- Rounding to an integer (R204) ---------------------------------------------------------------------------------------------------

section
variable {a b : Nat}

theorem scaled64_rat : (Mag.rat a b).scaled 64 = (a * 2 ^ 64 / b, decide (a * 2 ^ 64 % b ≠ 0)) := by
  have h := scaled_rat (n := a) (d := b) 64
  rwa [show (-64 : Int).toNat = 0 from rfl, pow_zero, mul_one] at h

theorem scaled64_whole : a * 2 ^ 64 / b / 2 ^ 64 = a / b := by
  rw [Nat.div_div_eq_div_mul, Nat.mul_div_mul_right _ _ (by decide)]

theorem scaled64_rest (hb : 0 < b) : a * 2 ^ 64 / b % 2 ^ 64 = a % b * 2 ^ 64 / b := by
  have hsplit : a * 2 ^ 64 = a % b * 2 ^ 64 + a / b * 2 ^ 64 * b := by
    calc a * 2 ^ 64 = (a % b + b * (a / b)) * 2 ^ 64 := by rw [Nat.mod_add_div]
      _ = a % b * 2 ^ 64 + a / b * 2 ^ 64 * b := by ring
  have hrest : a % b * 2 ^ 64 / b < 2 ^ 64 := by
    rw [Nat.div_lt_iff_lt_mul hb, mul_comm]
    exact Nat.mul_lt_mul_of_pos_left (Nat.mod_lt a hb) (by decide)
  rw [hsplit, Nat.add_mul_div_right _ _ hb, Nat.add_mul_mod_self_right, Nat.mod_eq_of_lt hrest]

theorem discarded_iff (hb : 0 < b) : (a * 2 ^ 64 / b % 2 ^ 64 ≠ 0 ∨ a * 2 ^ 64 % b ≠ 0) ↔ a % b ≠ 0 := by
  have hmod : a * 2 ^ 64 % b = a % b * 2 ^ 64 % b := by rw [Nat.mod_mul_mod]
  have hdiv := Nat.div_add_mod (a % b * 2 ^ 64) b
  rw [scaled64_rest hb, hmod, ← not_and_or, not_iff_not]
  constructor
  · rintro ⟨hquot, hrem⟩
    rw [hquot, hrem] at hdiv
    omega
  · intro hzero
    rw [hzero, Nat.zero_mul, Nat.zero_div, Nat.zero_mod]
    exact ⟨rfl, rfl⟩

theorem half_le_iff (hb : 0 < b) : 2 ^ 63 ≤ a * 2 ^ 64 / b % 2 ^ 64 ↔ b ≤ 2 * (a % b) := by
  rw [scaled64_rest hb, Nat.le_div_iff_mul_le hb]
  omega

/-- Above the half, or at it with an odd digit before it, as the remainder tells (R24). -/
theorem half_lt_iff (hb : 0 < b) (k : Nat) :
    (2 ^ 63 < a * 2 ^ 64 / b % 2 ^ 64 ∨ (a * 2 ^ 64 / b % 2 ^ 64 = 2 ^ 63 ∧ (a * 2 ^ 64 % b ≠ 0 ∨ k % 2 = 1))) ↔
      b < 2 * (a % b) ∨ b = 2 * (a % b) ∧ k % 2 = 1 := by
  have hmod : a * 2 ^ 64 % b = a % b * 2 ^ 64 % b := by rw [Nat.mod_mul_mod]
  have hle := half_le_iff (a := a) hb
  have hdiv := Nat.div_add_mod (a % b * 2 ^ 64) b
  have hsucc : 2 ^ 63 + 1 ≤ a % b * 2 ^ 64 / b ↔ (2 ^ 63 + 1) * b ≤ a % b * 2 ^ 64 := Nat.le_div_iff_mul_le hb
  rw [scaled64_rest hb] at hle ⊢
  rw [hmod]
  rcases lt_trichotomy (a % b * 2 ^ 64 / b) (2 ^ 63) with hlt | heq | hgt
  · omega
  · rw [heq] at hdiv ⊢
    omega
  · omega

end

theorem quotient_ge {a b : Nat} (ha : 0 < a) (hb : 0 < b) (h : 70 ≤ (Mag.rat a b).exp) : 2 ^ 70 ≤ a / b := by
  have hq : (0 : ℚ) < a / b := div_pos (by exact_mod_cast ha) (by exact_mod_cast hb)
  rw [exp_rat ha hb, ← Int.zpow_le_iff_le_log one_lt_two hq] at h
  have hscaled : b * 2 ^ 70 ≤ a * 2 ^ 0 := (le_scaled_iff hb 70).2 h
  rw [Nat.le_div_iff_mul_le hb]
  omega

/-- A magnitude of 2^70 or more gives the end of the range on its side. -/
theorem saturated_beyond {lo hi r : Int} (h : -(2 ^ 70) < lo ∧ hi < 2 ^ 70) (hlo : lo ≤ 0) (hr : 2 ^ 70 ≤ r) (sg : Nat)
    (fl : Flags) (x : Int × Flags) : (if sg = 1 then lo else hi, fl) =
      if (if sg = 1 then -r else r) < lo then (lo, fl) else if hi < (if sg = 1 then -r else r) then (hi, fl) else x := by
  obtain ⟨hleast, hmost⟩ := h
  split
  · rw [if_pos (by omega)]
  · rw [if_neg (by omega), if_pos (by omega)]

theorem le_rounded (q : Nat) (up : Bool) : (q : Int) ≤ ((if up then q + 1 else q : Nat) : Int) := by
  cases up
  · exact le_rfl
  · exact_mod_cast q.le_succ

/-- Rounding to an integer reads a magnitude through its exponent and its floor in units of 2^-64. -/
theorem toInteger_congr {x y : Mag} (hexp : x.exp = y.exp) (hscaled : x.scaled 64 = y.scaled 64) (lo hi : Int) (sg : Nat) (m : RMode) :
    toInteger lo hi sg x m = toInteger lo hi sg y m := by
  unfold toInteger
  rw [hexp, hscaled]

theorem exp_two_pow (n : Int) : (Mag.rat (2 ^ n.toNat) (2 ^ (-n).toNat)).exp = n := by
  have hlog : Int.log 2 ((2 : ℚ) ^ n) = n := Int.log_zpow one_lt_two n
  rw [exp_rat (Nat.two_pow_pos _) (Nat.two_pow_pos _), Nat.cast_pow, Nat.cast_pow, Nat.cast_ofNat, ← two_zpow_eq, hlog]

theorem scaled64_two_pow (n : Int) : (Mag.rat (2 ^ n.toNat) (2 ^ (-n).toNat)).scaled 64 =
    if 0 ≤ n + 64 then (2 ^ (n + 64).toNat, false) else (0, true) := by
  rw [scaled64_rat]
  obtain ⟨k, rfl | rfl⟩ := n.eq_nat_or_neg
  · have hexp : ((k : Int) + 64).toNat = k + 64 := by omega
    rw [if_pos (by omega), Int.toNat_natCast, Int.toNat_of_nonpos (by omega), hexp, pow_zero, Nat.div_one, Nat.mod_one, pow_add]
    rfl
  · rw [neg_neg, Int.toNat_natCast, Int.toNat_of_nonpos (by omega), pow_zero, one_mul]
    by_cases hk : k ≤ 64
    · have hexp : (-(k : Int) + 64).toNat = 64 - k := by omega
      rw [if_pos (by omega), hexp, Nat.pow_div hk two_pos, Nat.mod_eq_zero_of_dvd (Nat.pow_dvd_pow 2 hk)]
      rfl
    · have hlt : 2 ^ 64 < 2 ^ k := Nat.pow_lt_pow_right one_lt_two (by omega)
      rw [if_neg (by omega), Nat.div_eq_of_lt hlt, Nat.mod_eq_of_lt hlt]
      rfl

theorem fdiv_whole (n : Int) (F : Nat) : Int.fdiv (n * 2 ^ F) (2 ^ F) = n := Int.mul_fdiv_cancel n (by positivity)

/-- A whole log names a power of two. -/
theorem toInteger_whole_log (lo hi n : Int) (F sg : Nat) (m : RMode) :
    toInteger lo hi sg (.pow (n * 2 ^ F) F) m = toInteger lo hi sg (.rat (2 ^ n.toNat) (2 ^ (-n).toNat)) m := by
  refine toInteger_congr ?_ ?_ lo hi sg m
  · rw [exp_pow, fdiv_whole, exp_two_pow]
  · rw [scaled_pow_whole (Int.mul_emod_left n _), fdiv_whole, scaled64_two_pow]

-- Boundary codes (Table 1.5) ------------------------------------------------------------------------------------------------------

theorem ifmtOf_range {t : Nat} (hlo : 12 ≤ t) (hhi : t ≤ 17) : 0 < (ifmtOf t).eb ∧ ((ifmtOf t).inf = true → (ifmtOf t).nan = true) := by
  interval_cases t <;> decide

section
variable {f : IFmt} {c : Nat}

/-- The exponent field of the highest codes is not that of zero and the subnormals. -/
theorem top_ne_zero (h : 0 < f.eb) : 2 ^ f.eb - 1 ≠ 0 := by
  have hpow : 2 ^ 1 ≤ 2 ^ f.eb := Nat.pow_le_pow_right two_pos h
  omega

theorem decodeIeee_fields : decodeIeee f c =
    let sg := c / 2 ^ (f.eb + f.mb) % 2
    let e := c / 2 ^ f.mb % 2 ^ f.eb
    let a := c % 2 ^ f.mb
    if f.inf = true ∧ e = 2 ^ f.eb - 1 then (if a = 0 then .inf sg else .nan)
    else if f.inf = false ∧ f.nan = true ∧ e = 2 ^ f.eb - 1 ∧ a = 2 ^ f.mb - 1 then .nan
    else if e = 0 then if a = 0 then .zero sg else .fin sg a (1 - (f.bias : Int) - f.mb)
    else .fin sg (2 ^ f.mb + a) ((e : Int) - f.bias - f.mb) := by
  simp only [decodeIeee, field, pow_zero, Nat.div_one, pow_one, Bool.not_eq_true']

theorem decodeIeee_low (heb : 0 < f.eb) (he : c / 2 ^ f.mb % 2 ^ f.eb = 0) : decodeIeee f c =
    if c % 2 ^ f.mb = 0 then .zero (c / 2 ^ (f.eb + f.mb) % 2)
    else .fin (c / 2 ^ (f.eb + f.mb) % 2) (c % 2 ^ f.mb) (1 - (f.bias : Int) - f.mb) := by
  have hne : c / 2 ^ f.mb % 2 ^ f.eb ≠ 2 ^ f.eb - 1 := he.trans_ne (top_ne_zero heb).symm
  rw [decodeIeee_fields]
  simp only
  rw [if_neg fun h => hne h.2, if_neg fun h => hne h.2.2.1, if_pos he]

theorem decodeIeee_normal (hnan : f.inf = true → f.nan = true) (he : c / 2 ^ f.mb % 2 ^ f.eb ≠ 0)
    (h : f.nan = false ∨ c / 2 ^ f.mb % 2 ^ f.eb ≠ 2 ^ f.eb - 1 ∨ (f.inf = false ∧ c % 2 ^ f.mb ≠ 2 ^ f.mb - 1)) :
    decodeIeee f c = .fin (c / 2 ^ (f.eb + f.mb) % 2) (2 ^ f.mb + c % 2 ^ f.mb) (((c / 2 ^ f.mb % 2 ^ f.eb : Nat) : Int) - f.bias - f.mb) := by
  rw [decodeIeee_fields]
  simp only
  rw [if_neg, if_neg, if_neg he]
  · rintro ⟨_, hn, htop, ha⟩
    simp [hn, htop, ha] at h
  · rintro ⟨hinf, htop⟩
    simp [hnan hinf, htop, hinf] at h

theorem decodeIeee_top (hinf : f.inf = true) (he : c / 2 ^ f.mb % 2 ^ f.eb = 2 ^ f.eb - 1) :
    decodeIeee f c = if c % 2 ^ f.mb = 0 then .inf (c / 2 ^ (f.eb + f.mb) % 2) else .nan := by
  rw [decodeIeee_fields]
  exact if_pos ⟨hinf, he⟩

theorem decodeIeee_onlyNan (hinf : f.inf = false) (hnan : f.nan = true) (he : c / 2 ^ f.mb % 2 ^ f.eb = 2 ^ f.eb - 1)
    (ha : c % 2 ^ f.mb = 2 ^ f.mb - 1) : decodeIeee f c = .nan := by
  rw [decodeIeee_fields]
  simp only
  rw [if_neg (by simp [hinf]), if_pos ⟨hinf, hnan, he, ha⟩]

end

-- Conversions (R200, R202 to R204) ------------------------------------------------------------------------------------------------

/-- Type codes of integers, of logs and of boundary formats (Table 6.5). -/
theorem ite_type {α : Type} (t : Nat) (x y z : α) :
    (if isInt t then x else if isLog t then y else z) = if t < 8 then x else if t < 12 then y else z := by
  have hint : isInt t = decide (t < 8) := decide_eq_decide.2 Nat.lt_succ_iff.symm
  rw [hint]
  by_cases hi : t < 8
  · simp only [hi, decide_true, if_true]
  · have hlog : isLog t = decide (t < 12) := by simp only [isLog, Nat.not_lt.1 hi, decide_true, Bool.true_and, Nat.lt_succ_iff]
    simp only [hi, hlog, decide_false, decide_eq_true_eq, Bool.false_eq_true, if_false]

theorem valToInt_eq (t w sg : Nat) (mag : Mag) (m : RMode) : valToInt t w sg mag m =
    (wrapped w (toInteger (leastOf t w) (mostOf t w) sg mag m).1, (toInteger (leastOf t w) (mostOf t w) sg mag m).2) := by
  rw [valToInt, intLo_eq_leastOf, intHi_eq_mostOf, ← low_eq_wrapped]

/-- A finite boundary value as a rational. -/
theorem magOf_eq (a : Nat) (e : Int) : magOf a e = .rat (if 0 ≤ e then a * 2 ^ e.toNat else a) (if 0 ≤ e then 1 else 2 ^ (-e).toNat) := by
  unfold magOf
  split <;> rfl

theorem lcvtElem_num {fs fd : Fmt} {x sg : Nat} {e : Int} (h : decodeLog fs x = .num sg e) (k : Int) (m : RMode) (rho : Nat) :
    lcvtElem fs fd k m x rho = rndDyadic sg (if fs.w = 8 then e + k * 2 ^ fs.F else e - k * 2 ^ fs.F) fs.F fd m rho := by
  simp only [lcvtElem, h, Nat.cast_pow, Nat.cast_ofNat]

section
variable {ts td v : Nat} (satur : Bool) (m : RMode) (rho : Nat)

theorem cvtElem_int (hs : ts < 8) : cvtElem ts td satur m v rho =
    let n := readAs ts (tyWidth ts) v
    let sg := if n < 0 then 1 else 0
    if td < 8 then
      (wrapped (tyWidth td) (if satur then max (leastOf td (tyWidth td)) (min (mostOf td (tyWidth td)) n) else n), 0)
    else if td < 12 then if n = 0 then (zeroCode (fmtOf td), 0) else rndRat sg n.natAbs 1 (fmtOf td) m rho
    else if n = 0 then (0, 0) else exportIeee (ifmtOf td) false sg (.rat n.natAbs 1) m rho := by
  have hrange : leastOf td (tyWidth td) ≤ mostOf td (tyWidth td) := (leastOf_nonpos _ _).trans (mostOf_nonneg _ _)
  simp only [cvtElem, ite_type, if_pos hs, intRead_eq_readAs, intLo_eq_leastOf, intHi_eq_mostOf, low_eq_wrapped, sat_eq_clamp hrange]

section
variable (hi : ¬ ts < 8) (hl : ts < 12)
include hi hl

theorem cvtElem_nar (h : decodeLog (fmtOf ts) v = .nar) : cvtElem ts td satur m v rho =
    if td < 8 then (0, fNAR ||| fINX) else if td < 12 then (narCode (fmtOf td), 0)
    else if (ifmtOf td).nan then ((ifmtOf td).nanCode, 0) else (0, fNAR ||| fINX) := by
  simp only [cvtElem, ite_type, if_neg hi, if_pos hl, h, exportLog, Val.code]

theorem cvtElem_logZero (h : decodeLog (fmtOf ts) v = .zero) : cvtElem ts td satur m v rho =
    if 8 ≤ td ∧ td < 12 then (zeroCode (fmtOf td), 0) else (0, 0) := by
  simp only [cvtElem, ite_type, if_neg hi, if_pos hl, h, exportLog, Val.code]
  by_cases hd : td < 8
  · rw [if_pos hd, if_neg (by omega)]
  · simp only [hd, if_false, Nat.not_lt.1 hd, true_and]

theorem cvtElem_num {sg : Nat} {e : Int} (h : decodeLog (fmtOf ts) v = .num sg e) : cvtElem ts td satur m v rho =
    if td < 8 then valToInt td (tyWidth td) sg (.pow e (fmtOf ts).F) m
    else if td < 12 then rndDyadic sg e (fmtOf ts).F (fmtOf td) m rho
    else exportIeee (ifmtOf td) false sg (.pow e (fmtOf ts).F) m rho := by
  simp only [cvtElem, ite_type, if_neg hi, if_pos hl, h, exportLog]

end

section
variable (hi : ¬ ts < 8) (hl : ¬ ts < 12)
include hi hl

theorem cvtElem_nan (h : decodeIeee (ifmtOf ts) v = .nan) : cvtElem ts td satur m v rho =
    if td < 8 then (0, fNAR ||| fINX) else if td < 12 then (narCode (fmtOf td), fNAR)
    else if (ifmtOf td).nan then ((ifmtOf td).nanCode, 0) else (0, fNAR ||| fINX) := by
  simp only [cvtElem, ite_type, if_neg hi, if_neg hl, h, importLog, ieeeToIeee]

theorem cvtElem_inf {sg : Nat} (h : decodeIeee (ifmtOf ts) v = .inf sg) : cvtElem ts td satur m v rho =
    if td < 8 then (wrapped (tyWidth td) (if sg = 1 then leastOf td (tyWidth td) else mostOf td (tyWidth td)), fOVF ||| fINX)
    else if td < 12 then (codeOf (fmtOf td) sg (fmtOf td).emax, fINF)
    else if (ifmtOf td).inf then ((ifmtOf td).signed sg (ifmtOf td).infCode, 0)
    else ((ifmtOf td).signed sg (ifmtOf td).maxCode, fOVF ||| fINX) := by
  simp only [cvtElem, ite_type, if_neg hi, if_neg hl, h, importLog, ieeeToIeee, intLo_eq_leastOf, intHi_eq_mostOf, low_eq_wrapped]

theorem cvtElem_ieeeZero {sg : Nat} (h : decodeIeee (ifmtOf ts) v = .zero sg) : cvtElem ts td satur m v rho =
    if td < 8 then (0, 0) else if td < 12 then (zeroCode (fmtOf td), 0) else ((ifmtOf td).signed sg 0, 0) := by
  simp only [cvtElem, ite_type, if_neg hi, if_neg hl, h, importLog, ieeeToIeee]

theorem cvtElem_fin {sg a : Nat} {e : Int} (h : decodeIeee (ifmtOf ts) v = .fin sg a e) : cvtElem ts td satur m v rho =
    let num := if 0 ≤ e then a * 2 ^ e.toNat else a
    let den := if 0 ≤ e then 1 else 2 ^ (-e).toNat
    if td < 8 then valToInt td (tyWidth td) sg (.rat num den) m
    else if td < 12 then rndRat sg num den (fmtOf td) m rho
    else exportIeee (ifmtOf td) false sg (.rat num den) m rho := by
  simp only [cvtElem, ite_type, if_neg hi, if_neg hl, h, importLog, ieeeToIeee, magOf_eq, add_zero]

end

end

-- Dot products (R201) -------------------------------------------------------------------------------------------------------------

/-- The tree over four leaves: two sums and their sum (R47). -/
theorem treeLog_four (f : Fmt) {m : RMode} (hm : m ≠ .rs) (a b c d : Nat) : treeLog f m 0 [a, b, c, d] =
    let left := addlog a b f m 0
    let right := addlog c d f m 0
    let root := addlog left.1 right.1 f m 0
    (root.1, left.2 ||| right.2 ||| root.2) := by
  have hlevels : clog2 4 = 2 := rfl
  simp [treeLog, tree, treeLoop, pairUp, hm, hlevels]

theorem dot4_eq (f : Fmt) (m : RMode) (d rho : Nat) (x y : Nat → Nat) : dot4 f m d rho ((List.range 4).map fun i => (x i, y i)) =
    let nm := if m = .rs then .rn else m
    let leaf := fun i => dotLeaf f nm (x i) (y i)
    let left := addlog (leaf 0).1 (leaf 1).1 l32 nm 0
    let right := addlog (leaf 2).1 (leaf 3).1 l32 nm 0
    let root := addlog left.1 right.1 l32 nm 0
    let acc := addlog d root.1 l32 m rho
    (acc.1, (leaf 0).2 ||| (leaf 1).2 ||| (leaf 2).2 ||| (leaf 3).2 ||| left.2 ||| right.2 ||| root.2 ||| acc.2) := by
  have hm : (if m = .rs then .rn else m) ≠ RMode.rs := by
    split
    · decide
    · assumption
  have hrange : List.range 4 = [0, 1, 2, 3] := rfl
  simp [dot4, hrange, treeLog_four l32 hm, unionFlags, BitVec.or_assoc]

-- The rows ------------------------------------------------------------------------------------------------------------------------

/-- The value an LCVT writes in lane l of register j. -/
def lcvtValue (f : Full) (x : Group) (j l : Nat) : Word × Flags :=
  let fs := fmtOf (lcvtSource f.xm.toNat)
  let fd := fmtOf f.ty.toNat
  buildElems fd.w fun n => lcvtElem fs fd (sext (cell (x.src f.c 1) 0 l).toNat 8) (rmodeOf f.rnd.toNat)
    (runElem (x.run f.b) fs.w l (j * (64 / fd.w) + n)) (elem (cell (x.rand f) j l) fd.w n)

/-- The value a CVT from a type writes in lane l of register j. -/
def cvtValue (f : Full) (ts : Nat) (x : Group) (j l : Nat) : Word × Flags :=
  let w := tyWidth f.ty.toNat
  buildElems w fun n => cvtElem ts f.ty.toNat (f.xm = 1) (rmodeOf f.rnd.toNat)
    (runElem (x.run f.b) (tyWidth ts) l (j * (64 / w) + n)) (elem (cell (x.rand f) j l) w n)

/-- The value an LDOT4 with a register source writes in lane l of register j. -/
def ldot4Value (f : Full) (c : Reg) (x : Group) (j l : Nat) : Word × Flags :=
  let fmt := fmtOf f.ty.toNat
  buildElems 32 fun n => dot4 fmt (rmodeOf f.rnd.toNat) (elem (cell (x.run f.d) j l) 32 n) (elem (cell (x.rand f) j l) 32 n)
    ((List.range 4).map fun i => (runElem (x.run f.b) fmt.w l (4 * n + i), runElem (x.run c) fmt.w l (4 * n + i)))

theorem lcvt_row (f : Full) : RunRow (.lcvt f) f.d fun s is => lcvtValue f (s.group is.g) := by
  refine runRow_of_lanewise (lcvtValue f) (fun x y hv hs => ?_) fun s => rfl
  unfold lcvtValue
  rw [run_congr hv hs, src_congr hv hs, rand_congr hv hs]

theorem cvt_row (f : Full) (c : Reg) (hc : f.c = .reg c) : RunRow (.cvt f) f.d fun s is => cvtValue f c.num.toNat (s.group is.g) := by
  refine runRow_of_lanewise (cvtValue f c.num.toNat) (fun x y hv hs => ?_) fun s => ?_
  · unfold cvtValue
    rw [run_congr hv hs, rand_congr hv hs]
  · have hexec : exec (.cvt f) s = execCvt f s := rfl
    rw [hexec, execCvt, hc]
    rfl

theorem ldot4_row (f : Full) (c : Reg) (hc : f.c = .reg c) : RunRow (.ldot4 f) f.d fun s is => ldot4Value f c (s.group is.g) := by
  refine runRow_of_lanewise (ldot4Value f c) (fun x y hv hs => ?_) fun s => ?_
  · unfold ldot4Value
    rw [run_congr hv hs, run_congr hv hs, run_congr hv hs, rand_congr hv hs]
  · have hexec : exec (.ldot4 f) s = execLdot4 f s := rfl
    rw [hexec, execLdot4, hc]
    rfl

-- O11 -----------------------------------------------------------------------------------------------------------------------------

/-- Settles O11: the logs of rationals, the two kinds of magnitude and the boundary formats' rounding from the model's equations, the three rows
element by element as lane-wise results, the rounding to an integer by the remainder of the division, and the boundary codes by their fields. -/
theorem conversionsAndDotProducts : Obligations.ConversionsAndDotProducts := by
  unfold Obligations.ConversionsAndDotProducts
  refine ⟨?_, ?_, ?_, ?_, ?_, ?_, ?_, ?_, ?_, ?_⟩
  · -- the log of a rational
    intro fmt _ s n d m rho hn hd
    exact ⟨fun e he => by rw [rndRat, ofRat_exact hn hd he], fun h => by rw [rndRat, ofRat_inexact h]⟩
  · -- rational magnitudes
    exact fun n d k hn hd => ⟨scaled_rat k, fun e => exp_rat_eq hn hd⟩
  · -- powers of two
    exact fun n F k => ⟨exp_pow n F, fun h => scaled_pow_whole h k, fun h => scaled_pow_fraction h k⟩
  · -- rounding into a boundary format
    intro f _ block sg mag m rho _
    simp only [exportIeee, overflowIeee, maxCode_eq, IFmt.signed, ite_lt_eq_max]
    generalize mag.scaled _ = cut
    obtain ⟨big, below⟩ := cut
    cases m <;> simp [and_assoc]
  · -- LCVT
    refine fun f => runRow_congr (lcvt_row f) fun s is j l => buildElems_congr fun n => ?_
    have hk : ∀ c : Nat, sext c 8 = Int.bmod (c % 256) 256 := fun c => (sext_eq_bmod c 8).trans (Int.emod_bmod _ _).symm
    simp only [lcvtSource, hk]
    generalize hv : decodeLog (fmtOf (8 + f.xm.toNat % 4)) _ = v
    cases v with
    | zero => simp only [lcvtElem, hv]
    | nar => simp only [lcvtElem, hv]
    | num sg e => exact lcvtElem_num hv _ _ _
  · -- LDOT4
    exact fun f c hc => runRow_congr (ldot4_row f c hc) fun s is j l => buildElems_congr fun n => dot4_eq _ _ _ _ _ _
  · -- CVT
    refine fun f c hc => runRow_congr (cvt_row f c hc) fun s is j l => buildElems_congr fun k => ?_
    by_cases hi : c.num.toNat < 8
    · simp only [hi, if_true, cvtElem_int _ _ _ hi, decide_eq_true_eq]
    by_cases hl : c.num.toNat < 12
    · simp only [hi, hl, if_false, if_true]
      generalize hv : decodeLog (fmtOf c.num.toNat) _ = v
      cases v with
      | nar => exact cvtElem_nar _ _ _ hi hl hv
      | zero => exact cvtElem_logZero _ _ _ hi hl hv
      | num sg e => simp only [cvtElem_num _ _ _ hi hl hv, valToInt_eq]
    · simp only [hi, hl, if_false]
      generalize hv : decodeIeee (ifmtOf c.num.toNat) _ = v
      cases v with
      | nan => exact cvtElem_nan _ _ _ hi hl hv
      | inf sg => exact cvtElem_inf _ _ _ hi hl hv
      | zero sg => exact cvtElem_ieeeZero _ _ _ hi hl hv
      | fin sg a e => simp only [cvtElem_fin _ _ _ hi hl hv, valToInt_eq]
  · -- rounding a rational to an integer
    intro t w sg a b m ha hb _ hw _
    unfold toInteger
    by_cases hbig : 70 ≤ (Mag.rat a b).exp
    · rw [if_pos hbig]
      have hq : (2 : Int) ^ 70 ≤ (a / b : Nat) := by exact_mod_cast quotient_ge ha hb hbig
      exact saturated_beyond (type_range hw t) (leastOf_nonpos t w) (hq.trans (le_rounded _ _)) sg _ _
    · rw [if_neg hbig]
      simp only [scaled64_rat, scaled64_whole]
      cases m <;> simp only [gt_iff_lt, ge_iff_le, Bool.or_eq_true, Bool.and_eq_true, decide_eq_true_eq, beq_iff_eq, bne_iff_ne,
        half_lt_iff hb, half_le_iff hb, discarded_iff hb, ite_not]
  · exact fun t w sg F m n _ _ => toInteger_whole_log _ _ n F sg m
  · -- boundary codes
    intro t c hlo hhi
    obtain ⟨heb, hnan⟩ := ifmtOf_range hlo hhi
    exact ⟨fun he ha => by rw [decodeIeee_low heb he, if_pos ha], fun he ha => by rw [decodeIeee_low heb he, if_neg ha],
      decodeIeee_normal hnan, decodeIeee_top, decodeIeee_onlyNan⟩

end Sys2Proof.Conversions
end

section
/-! PROOFS. O35: the sparse patterns (R278) and the weights they place (R279), and what `matRow` makes of a row past a plane's last one. -/

namespace Sys2Proof.Matrix

open Machine Laws

-- Patterns and weights ------------------------------------------------------------------------------------------------------------

/-- R278: the metadata bytes 0 to 89 name all the patterns. -/
theorem patterns_length : patterns.length = 90 := by decide +kernel

/-- A metadata byte above 89 names no pattern (R278). -/
theorem getAt_patterns_beyond {m : Nat} (h : 90 ≤ m) : getAt [] patterns m = [] := getAt_beyond _ _ _ (patterns_length ▸ h)

/-- Without a pattern a column of a block takes no two rows: all four hold it, or none does. -/
theorem patternRows_nil (c : Nat) : patternRows [] c = if c < 2 then [0, 1, 2, 3] else [] := by
  have hhas : pairHas (getAt 0 [] 0) c = decide (c < 2) := by
    rw [show getAt 0 ([] : List Nat) 0 = 0 from rfl]
    match c with
    | 0 | 1 => rfl
    | c + 2 => simp [pairHas]
  by_cases hc : c < 2 <;> simp_all [patternRows, getAt, List.range_succ]

/-- The logical weights of a block whose metadata names no pattern are zeros. -/
theorem weight_of_no_pattern {p : Plane} {r c : Nat} (hs : p.sparse = true) (hm : 90 ≤ (getAt 0 p.metab (64 * (r / 4) + c / 4)).toNat) :
    p.weight r c = .zero := by
  unfold Plane.weight
  simp only [hs, getAt_patterns_beyond hm, patternRows_nil]
  by_cases hc : c % 4 < 2 <;> simp [hc]

-- Sums of zeros (R44, R47) --------------------------------------------------------------------------------------------------------

theorem pairUp_zeros : ∀ n : Nat, pairUp .zero ltnode (List.replicate n .zero) = (List.replicate ((n + 1) / 2) .zero, 0)
  | 0 | 1 => rfl
  | n + 2 => by
    rw [show (n + 2 + 1) / 2 = (n + 1) / 2 + 1 by omega]
    simp only [List.replicate_succ, pairUp, ltnode, pairUp_zeros n]
    rfl

theorem treeLoop_zeros (levels n : Nat) (fl : Flags) : treeLoop .zero ltnode ltnode levels (List.replicate n .zero) fl = (.zero, fl) := by
  induction levels generalizing n fl with
  | zero => cases n <;> rfl
  | succ levels ih =>
    simp only [treeLoop, ite_self, pairUp_zeros, ih]
    exact congrArg (Prod.mk _) BitVec.or_zero

theorem tree_zeros (n : Nat) : tree .zero ltnode ltnode (List.replicate n .zero) = (.zero, 0) := treeLoop_zeros _ n 0

-- A row past the plane's last one -------------------------------------------------------------------------------------------------

/-- A sparse plane whose stored row 128 holds NaR, and whose metadata goes on past the 4096 bytes of R278 with bytes that name no pattern. -/
def overlongPlane : Plane :=
  { sparse := true
    rows := (List.range 129).map fun r => if r < 128 then [] else [BitVec.ofNat 8 (narCode l8)]
    metab := (List.range 4160).map fun m => if m < 4096 then 0 else 255 }

/-- A streamed row of zeros, all of them in range, at scale 0. -/
def zeroStream : StreamRow := { a := List.replicate 256 .zero, ka := [(0, true), (0, true)] }

theorem overlongPlane_metab {m : Nat} (h : m < 4160) : getAt 0 overlongPlane.metab m = if m < 4096 then 0 else 255 := by
  rw [overlongPlane, getAt_map_range _ _ _ _ h]

/-- The metadata bytes of the blocks the array has all name a pattern. -/
theorem overlongPlane_named {m : Nat} (h : m < 4096) : (getAt 0 overlongPlane.metab m).toNat < 90 := by
  rw [overlongPlane_metab (by omega), if_pos h]
  decide

/-- Row 256 lies in the blocks whose metadata names no pattern. -/
theorem overlongPlane_weight {q : Nat} (h : q < 256) : overlongPlane.weight 256 q = .zero := by
  refine weight_of_no_pattern rfl ?_
  rw [overlongPlane_metab (by omega), if_neg (by omega)]
  decide

theorem zeroStream_length : zeroStream.a.length = 256 := List.length_replicate

theorem zeroStream_leaves {f : Nat × Val → Val} (h : ∀ q, q < 256 → f (q, .zero) = .zero) :
    ((List.range zeroStream.a.length).zip zeroStream.a).map f = List.replicate 256 .zero := by
  refine List.eq_replicate_iff.2 ⟨?_, fun v hv => ?_⟩
  · rw [List.length_map, List.length_zip, List.length_range, zeroStream_length, min_self]
  · obtain ⟨⟨q, a⟩, hmem, rfl⟩ := List.mem_map.1 hv
    obtain ⟨hq, ha⟩ := List.of_mem_zip hmem
    rw [List.eq_of_mem_replicate ha]
    exact h q (zeroStream_length ▸ List.mem_range.1 hq)

theorem accstep_zeros (ks : Int) (mode : RMode) : accstep (zeroCode l32) .zero ks mode = (zeroCode l32, 0) := rfl

/-- An output row whose weights are zeros leaves a zero in its accumulator word. -/
theorem matRow_zeroStream {p : Plane} {o n : Nat} (ho : o < n) (hp : ∀ q, q < 256 → p.weight o q = .zero) (fa : Nat) (mode : RMode) :
    (matRow p true fa zeroStream n mode fun _ => zeroCode l32).1[o]? = some (zeroCode l32) := by
  simp only [matRow, if_true, List.getElem?_map, List.getElem?_range ho, Option.map_some]
  rw [zeroStream_leaves, tree_zeros, accstep_zeros]
  intro q hq
  rw [hp q hq]
  rfl

/-- Refutes O35. Its last clause is about any number of output words, but bounds the metadata bytes of the 256 logical rows only. In output
row 256 of MMAT, behind them, the metadata names no pattern: there `matRow` has weights of zero, while the clause takes the stored row
that it finds, whose NaR makes the accumulator word NaR. -/
theorem not_matrixStreamRows : ¬ Obligations.MatrixStreamRows := by
  unfold Obligations.MatrixStreamRows
  rintro ⟨-, -, -, -, -, -, -, -, -, hmatRow⟩
  have hrow := hmatRow overlongPlane true 3 zeroStream 257 .rn (fun _ => zeroCode l32) 0 0 (.inr zeroStream_length)
    (by rw [zeroStream_length]; rfl) (fun _ _ => overlongPlane_named)
    (by decide) (by decide) (fun _ _ => (by decide : Int.bmod 0 256 ≤ 0)) ⟨0, by decide, by decide⟩
  have hword := congrArg (fun w => w.1[256]?) hrow
  rw [matRow_zeroStream (by decide) fun _ => overlongPlane_weight] at hword
  have hnar : some (zeroCode l32) = some (narCode l32) := hword.trans (by decide +kernel)
  exact absurd hnar (by decide)

end Sys2Proof.Matrix
end

section
/-! PROOFS. The command unit's accesses to a context's memory (R97, R101): what they can change, whatever they meet. -/

namespace Sys2Proof.CommandUnit

open Machine Laws Safety

-- The relation ------------------------------------------------------------------------------------------------------------------------

/-- A context as the command unit's accesses leave it: translations cached, vectors signalled, and what is kept of continuations. -/
def CtxServed (x y : Ctx) : Prop :=
  ∃ tlb sig pend rels, y = { x with tlb := tlb, signals := x.signals ||| sig, pendBy := pend, taskRels := rels }

/-- What the command unit's accesses to memory can change: memory and the record of writes, the error log, which grows, and its contexts. -/
structure Served (s t : State) : Prop where
  frame  : t = { s with mem := t.mem, writes := t.writes, poison := t.poison, dev := t.dev, ctxs := t.ctxs, clusters := t.clusters, fresh := t.fresh }
  dev    : ∃ l, t.dev = { s.dev with errlog := s.dev.errlog ++ l }
  writes : ∃ l, t.writes = s.writes ++ l
  ctx    : ∀ c, CtxServed (s.ctx c) (t.ctx c)

theorem CtxServed.refl (x : Ctx) : CtxServed x x := ⟨x.tlb, 0, x.pendBy, x.taskRels, by simp⟩

theorem CtxServed.trans {x y z : Ctx} (h1 : CtxServed x y) (h2 : CtxServed y z) : CtxServed x z := by
  obtain ⟨_, a, _, _, rfl⟩ := h1
  obtain ⟨tlb, b, pend, rels, rfl⟩ := h2
  exact ⟨tlb, a ||| b, pend, rels, by simp [BitVec.or_assoc]⟩

theorem Served.refl (s : State) : Served s s := ⟨rfl, ⟨[], by simp⟩, ⟨[], by simp⟩, fun c => .refl (s.ctx c)⟩

theorem Served.trans {s t u : State} (h1 : Served s t) (h2 : Served t u) : Served s u where
  frame := by
    have e1 := h1.frame
    have e2 := h2.frame
    rw [e1] at e2
    simpa using e2
  dev := by
    obtain ⟨l, hl⟩ := h1.dev
    obtain ⟨m, hm⟩ := h2.dev
    exact ⟨l ++ m, by rw [hm, hl]; simp⟩
  writes := by
    obtain ⟨l, hl⟩ := h1.writes
    obtain ⟨m, hm⟩ := h2.writes
    exact ⟨l ++ m, by rw [hm, hl]; simp⟩
  ctx := fun c => (h1.ctx c).trans (h2.ctx c)

section
variable {s t : State} (h : Served s t)
include h

theorem Served.teams : t.teams = s.teams := by rw [h.frame]
theorem Served.groups : t.groups = s.groups := by rw [h.frame]
theorem Served.launches : t.launches = s.launches := by rw [h.frame]
theorem Served.cores : t.cores = s.cores := by rw [h.frame]
theorem Served.rels : t.rels = s.rels := by rw [h.frame]
theorem Served.pegs : t.pegs = s.pegs := by rw [h.frame]
theorem Served.hostView : t.hostView = s.hostView := by rw [h.frame]
theorem Served.choices : t.choices = s.choices := by rw [h.frame]
theorem Served.team (k : Nat) : t.team k = s.team k := by rw [State.team, State.team, h.teams]
theorem Served.group (k : Nat) : t.group k = s.group k := by rw [State.group, State.group, h.groups]
theorem Served.launch (k : Nat) : t.launch k = s.launch k := by rw [State.launch, State.launch, h.launches]
theorem Served.core (k : Nat) : t.core k = s.core k := by rw [State.core, State.core, h.cores]
theorem Served.work : WorkKept s t := ⟨h.launches, h.teams, h.groups⟩

theorem Served.errlog : ∃ l, t.dev.errlog = s.dev.errlog ++ l := by
  obtain ⟨l, hl⟩ := h.dev
  exact ⟨l, by rw [hl]⟩

theorem Served.signals (c b : Nat) (hb : (s.ctx c).signals.getLsbD b = true) : (t.ctx c).signals.getLsbD b = true := by
  obtain ⟨_, _, _, _, e⟩ := h.ctx c
  rw [e, BitVec.getLsbD_or, hb, Bool.true_or]

end

-- Single steps ------------------------------------------------------------------------------------------------------------------------

theorem served_setCtx {s : State} {c : Nat} {x : Ctx} (h : CtxServed (s.ctx c) x) : Served s (s.setCtx c x) where
  frame := rfl
  dev := ⟨[], by simp⟩
  writes := ⟨[], by simp⟩
  ctx := fun d => by
    by_cases hd : d = c
    · rw [hd, ctx_setCtx_same]
      exact h
    · rw [ctx_setCtx_other _ _ _ _ hd]
      exact .refl _

theorem served_signal (s : State) (c bit : Nat) : Served s (signal s c bit) := served_setCtx ⟨_, _, _, _, rfl⟩

theorem served_logError (s : State) (r : LogRec) : Served s (logError s r) := ⟨rfl, ⟨[r], rfl⟩, ⟨[], by simp [logError]⟩, fun c => .refl (s.ctx c)⟩

theorem served_cuFail (s : State) (c kind va : Nat) : Served s (cuFail s c kind va) := (served_logError s _).trans (served_signal _ c 3)

theorem served_writesOnly {s t : State} (h : WritesOnly s t) (hw : ∃ l, t.writes = s.writes ++ l) : Served s t where
  frame := by
    unfold WritesOnly at h
    rw [h]
  dev := ⟨[], by rw [h]; simp⟩
  writes := hw
  ctx := fun c => by
    rw [h]
    exact .refl (s.ctx c)

theorem served_clearPoison (s : State) (l : List (Nat × Nat)) : Served s (clearPoison s l) :=
  ⟨rfl, ⟨[], by simp [clearPoison]⟩, ⟨[], by simp [clearPoison]⟩, fun c => .refl (s.ctx c)⟩

theorem ctxServed_continued (x : Ctx) (pend rels : List (Nat × Nat × Nat)) : CtxServed x { x with pendBy := pend, taskRels := rels } :=
  ⟨x.tlb, 0, pend, rels, by simp⟩

theorem served_pendMark (s : State) (c j q pop : Nat) : Served s (pendMark s c j q pop) := served_setCtx (ctxServed_continued _ _ _)

-- Checks and reads --------------------------------------------------------------------------------------------------------------------

/-- Only what is cached of translations differs, and no team's. -/
structure Looked (s t : State) : Prop where
  frame : t = { s with ctxs := t.ctxs, clusters := t.clusters, fresh := t.fresh }
  ctx   : ∀ c, ∃ l, t.ctx c = { s.ctx c with tlb := l }

theorem Looked.refl (s : State) : Looked s s := ⟨rfl, fun c => ⟨(s.ctx c).tlb, rfl⟩⟩

theorem Looked.trans {s t u : State} (h1 : Looked s t) (h2 : Looked t u) : Looked s u := by
  refine ⟨?_, fun c => ?_⟩
  · have e1 := h1.frame
    have e2 := h2.frame
    rw [e1] at e2
    simpa using e2
  · obtain ⟨l, hl⟩ := h1.ctx c
    obtain ⟨m, hm⟩ := h2.ctx c
    exact ⟨m, by rw [hm, hl]⟩

theorem Looked.served {s t : State} (h : Looked s t) : Served s t where
  frame := by rw [h.frame]
  dev := ⟨[], by rw [h.frame]; simp⟩
  writes := ⟨[], by rw [h.frame]; simp⟩
  ctx := fun c => by
    obtain ⟨l, hl⟩ := h.ctx c
    exact ⟨l, 0, (s.ctx c).pendBy, (s.ctx c).taskRels, by rw [hl]; simp⟩

theorem Looked.mem {s t : State} (h : Looked s t) : t.mem = s.mem := by rw [h.frame]
theorem Looked.writes {s t : State} (h : Looked s t) : t.writes = s.writes := by rw [h.frame]
theorem Looked.dev {s t : State} (h : Looked s t) : t.dev = s.dev := by rw [h.frame]
theorem Looked.store {s t : State} (h : Looked s t) : StoreKept s t := by
  refine ⟨h.mem, h.writes, ?_⟩
  rw [h.frame]

/-- The checks of an access of a party that stands in no cluster change no team. -/
theorem checkAccess_teams {a : Access} (ha : a.team = none) (s : State) : (checkAccess s a).1.teams = s.teams := by
  have hpages := Registers.checkPages_teams a ha (a.n / 4096 + 2) s a.va a.n
  unfold checkAccess
  simp only
  split
  · rfl
  split
  · split
    · rename_i heq
      obtain ⟨rfl, _⟩ := Prod.mk.inj heq
      split <;> rfl
    · rfl
  · split
    · rename_i heq
      rw [heq] at hpages
      split <;> exact hpages
    · exact hpages

theorem checkAccess_looked (s : State) (c : Nat) (need : Need) (va n : Nat) : Looked s (checkAccess s (cuAccess s c need va n)).1 := by
  have htlb := checkAccess_tlbOnly s (cuAccess s c need va n)
  have hteams := checkAccess_teams (a := cuAccess s c need va n) rfl s
  refine ⟨?_, htlb.2.1⟩
  rw [htlb.1, hteams]

/-- What a check of the command unit answers: the pieces in a state that has cached translations, or an error, logged and signalled. -/
theorem cuCheck_cases (s : State) (c : Nat) (need : Need) (va n : Nat) :
    (∃ u l, cuCheck s c need va n = (u, .ok l) ∧ checkAccess s (cuAccess s c need va n) = (u, .ok l) ∧ Looked s u) ∨
    ∃ u k a, cuCheck s c need va n = (cuFail u c k va, .error (k, a)) ∧ Looked s u := by
  have hlook := checkAccess_looked s c need va n
  unfold cuCheck
  generalize checkAccess s (cuAccess s c need va n) = r at hlook
  match r, hlook with
  | (u, .ok l), hlook => exact .inl ⟨u, l, rfl, rfl, hlook⟩
  | (u, .error (k, a)), hlook => exact .inr ⟨u, k, a, rfl, hlook⟩

theorem served_cuCheck (s : State) (c : Nat) (need : Need) (va n : Nat) : Served s (cuCheck s c need va n).1 := by
  obtain ⟨u, l, h, -, hu⟩ | ⟨u, k, a, h, hu⟩ := cuCheck_cases s c need va n
  · rw [h]
    exact hu.served
  · rw [h]
    exact hu.served.trans (served_cuFail u c k va)

theorem served_cuChecks (c : Nat) : ∀ (l : List (Need × Nat × Nat)) (s : State), Served s (cuChecks s c l).1
  | [], s => .refl s
  | (need, va, n) :: l, s => by
    have h := served_cuCheck s c need va n
    unfold cuChecks
    generalize cuCheck s c need va n = r at h
    match r, h with
    | (u, .ok _), h => exact h.trans (served_cuChecks c l u)
    | (_, .error _), h => exact h

/-- A read answers bytes in a state that has cached translations, or an error. -/
theorem cuRead_cases (s : State) (c va n : Nat) :
    (∃ u b, cuRead s c va n = (u, .ok b) ∧ Looked s u) ∨ ∃ u e, cuRead s c va n = (u, .error e) ∧ Served s u := by
  obtain ⟨u, l, h, -, hu⟩ | ⟨u, k, a, h, hu⟩ := cuCheck_cases s c .load va n
  · exact .inl ⟨u, _, by rw [cuRead, h], hu⟩
  · exact .inr ⟨_, _, by rw [cuRead, h], hu.served.trans (served_cuFail u c k va)⟩

theorem cuRead_looked {s u : State} {c va n : Nat} {b : List Byte} (h : cuRead s c va n = (u, .ok b)) : Looked s u := by
  obtain ⟨u', b', h', hu⟩ | ⟨u', e, h', -⟩ := cuRead_cases s c va n
  · rw [h] at h'
    obtain ⟨rfl, -⟩ := Prod.mk.inj h'
    exact hu
  · rw [h] at h'
    cases (Prod.mk.inj h').2

theorem served_cuRead (s : State) (c va n : Nat) : Served s (cuRead s c va n).1 := by
  obtain ⟨u, b, h, hu⟩ | ⟨u, e, h, hu⟩ := cuRead_cases s c va n
  · rw [h]
    exact hu.served
  · rw [h]
    exact hu

-- Writes ------------------------------------------------------------------------------------------------------------------------------

/-- Each step of a fold of stores appends one record of what `P` says; `I` holds of the view throughout. -/
theorem foldl_appends {α : Type} (f : State × MemView → α → State × MemView) (I : MemView → Prop) (P : α → WriteRec → Prop)
    (hf : ∀ x a, I x.2 → I (f x a).2 ∧ ∃ r, (f x a).1.writes = x.1.writes ++ [r] ∧ P a r) :
    ∀ (l : List α) (x : State × MemView), I x.2 → ∃ rs, (l.foldl f x).1.writes = x.1.writes ++ rs ∧ List.Forall₂ P l rs
  | [], x, _ => ⟨[], by simp, .nil⟩
  | a :: l, x, hx => by
    obtain ⟨hI, r, hr, hP⟩ := hf x a hx
    obtain ⟨rs, hrs, hall⟩ := foldl_appends f I P hf l (f x a) hI
    exact ⟨r :: rs, by rw [List.foldl_cons, hrs, hr]; simp, .cons hP hall⟩

/-- The records a store of bytes adds: one for each word it touches, in ascending order. -/
theorem storeBytes_writes (s : State) (v : MemView) (k : Writer) (sync : Option (Scope × List Nat)) (va pa : Nat) (bytes : List Byte)
    (hb : bytes ≠ []) :
    ∃ rs, (storeBytes s v k sync va pa bytes).1.writes = s.writes ++ rs ∧
      List.Forall₂ (fun i r => r.word = (pa / 4 + i) * 4 ∧ r.sync = sync ∧ ∃ u w, r.val = wordAfter u w k pa bytes ((pa / 4 + i) * 4))
        (List.range ((pa + bytes.length - 1) / 4 - pa / 4 + 1)) rs := by
  have hne : bytes.isEmpty = false := by simpa using hb
  rw [storeBytes, hne]
  exact foldl_appends _ (fun _ => True) _ (fun x i _ => ⟨trivial, _, rfl, rfl, rfl, x.1, x.2, rfl⟩) _ (s, v) trivial

theorem storeBytes_appends (s : State) (v : MemView) (k : Writer) (sync : Option (Scope × List Nat)) (va pa : Nat) (bytes : List Byte) :
    ∃ rs, (storeBytes s v k sync va pa bytes).1.writes = s.writes ++ rs := by
  by_cases hb : bytes = []
  · exact ⟨[], by simp [storeBytes, hb]⟩
  · obtain ⟨rs, h, -⟩ := storeBytes_writes s v k sync va pa bytes hb
    exact ⟨rs, h⟩

/-- The records an operation at the home L2 adds: one for each whole word, with the releases of its party's view. -/
theorem atomicWrite_writes (s : State) (v : MemView) (p : Party) (ctx : Nat) (sc : Scope) (va pa : Nat) (bytes : List Byte) :
    ∃ rs, (atomicWrite s v p ctx sc va pa bytes).1.writes = s.writes ++ rs ∧
      List.Forall₂ (fun i r => r.word = pa + 4 * i ∧ r.sync = some (sc, v.rels) ∧ r.val = BitVec.ofNat 32 (ofBytes ((bytes.drop (4 * i)).take 4)))
        (List.range (bytes.length / 4)) rs := by
  unfold atomicWrite
  refine foldl_appends _ (fun w => w.rels = v.rels) _ (fun x i hx => ?_) _ (s, v) rfl
  exact ⟨hx, _, rfl, rfl, by rw [← hx], rfl⟩

theorem writePieces_appends (k : Writer) (sync : Option (Scope × List Nat)) : ∀ (l : List Piece) (s : State) (v : MemView) (bytes : List Byte),
    ∃ rs, (writePieces s v k sync l bytes).1.writes = s.writes ++ rs
  | [], s, _, _ => ⟨[], by simp [writePieces]⟩
  | p :: l, s, v, bytes => by
    obtain ⟨a, ha⟩ := storeBytes_appends s v k sync p.va p.pa (bytes.take p.len)
    obtain ⟨b, hb⟩ := writePieces_appends k sync l (storeBytes s v k sync p.va p.pa (bytes.take p.len)).1
      (storeBytes s v k sync p.va p.pa (bytes.take p.len)).2 (bytes.drop p.len)
    exact ⟨a ++ b, by rw [writePieces, hb, ha, List.append_assoc]⟩

theorem served_cuWrite (s : State) (c va : Nat) (bytes : List Byte) (sync : Option (Scope × List Nat)) : Served s (cuWrite s c va bytes sync).1 := by
  obtain ⟨u, l, h, -, hu⟩ | ⟨u, k, a, h, hu⟩ := cuCheck_cases s c .store va bytes.length
  · rw [cuWrite, h]
    exact (hu.served.trans (served_writesOnly (writePieces_only _ _ _ _ _ _) (writePieces_appends _ _ _ _ _ _))).trans (served_clearPoison _ _)
  · rw [cuWrite, h]
    exact hu.served.trans (served_cuFail u c k va)

theorem served_putErr (s : State) (c desc code reason epos : Nat) : Served s (putErr s c desc code reason epos) := by
  have h := served_cuRead s c (desc + 32) 8
  unfold putErr
  generalize cuRead s c (desc + 32) 8 = r at h
  match r, h with
  | (u, .error _), h => exact h
  | (u, .ok b), h =>
    dsimp only
    split
    · split
      · exact h.trans (served_logError u _)
      · exact h
    · exact h.trans (served_cuWrite u c _ _ _)

-- Joins (R96, R97) --------------------------------------------------------------------------------------------------------------------

theorem served_pendTail (c : Nat) : ∀ (fuel : Nat) (s : State) (j : Nat), Served s (pendTail s c fuel j).1
  | 0, s, _ => .refl s
  | fuel + 1, s, j => by
    have h := served_cuRead s c (j + 16) 8
    unfold pendTail
    generalize cuRead s c (j + 16) 8 = r at h
    match r, h with
    | (u, .error _), h => exact h
    | (u, .ok b), h =>
      dsimp only
      split
      · exact h
      · exact h.trans (served_pendTail c fuel u _)

theorem served_pushTask (s : State) (c q head qbase qlog2 : Nat) (record : List Byte) (rels : List Nat) :
    Served s (pushTask s c q head qbase qlog2 record rels) := by
  exact ((served_cuWrite s c _ record none).trans (served_cuWrite _ c _ _ _)).trans (served_setCtx (ctxServed_continued _ _ _))

/-- Going on after an operation that answers a state and a result. -/
theorem Served.then {α : Type} {s u v : State} {r : State × α} {b : α} (h : Served s u) (hr : Served u r.1) (e : r = (v, b)) : Served s v := by
  rw [e] at hr
  exact h.trans hr

theorem served_joinDec (s : State) (c q pop j : Nat) (rels : List Nat) : Served s (joinDec s c q pop j rels) := by
  have hdec : ∀ (u : State) (pa : Nat) (b : List Byte), Served u (atomicWrite u (cuView u rels) .cu c .device j pa b).1 := fun u pa b =>
    served_writesOnly (atomicWrite_only _ _ _ _ _ _ _ _) ((atomicWrite_writes _ _ _ _ _ _ _ _).imp fun _ h => h.1)
  have hfail : ∀ {u : State} {code}, Served s u → Served s (putErr u c ((s.ctx c).taskDesc q) code 0 pop) := fun h => h.trans (served_putErr _ _ _ _ _ _)
  unfold joinDec
  split
  · exact .refl s
  dsimp only
  split
  · exact hfail (.then (.refl s) (served_cuCheck s c .store j 8) ‹_›)
  have h1 := Served.then (.refl s) (served_cuCheck s c .store j 8) ‹_›
  split
  · exact hfail (h1.then (served_cuRead _ _ _ _) ‹_›)
  have h2 := h1.then (served_cuRead _ _ _ _) ‹_›
  split
  · exact hfail (h2.trans (hdec _ _ _))
  split
  case isFalse => exact h2.trans (hdec _ _ _)
  split
  · exact hfail (h2.then (served_cuRead _ _ _ _) ‹_›)
  have h3 := h2.then (served_cuRead _ _ _ _) ‹_›
  split
  · split
    · split
      · exact hfail (h3.then (served_cuChecks _ _ _) ‹_›)
      · have h4 := h3.then (served_cuChecks _ _ _) ‹_›
        exact ((h4.trans (hdec _ _ _)).trans (served_pendMark _ _ _ _ _)).trans (served_cuWrite _ _ _ _ _)
    · split
      · exact hfail (h3.then (served_pendTail _ _ _ _) ‹_›)
      have h4 := h3.then (served_pendTail _ _ _ _) ‹_›
      split
      · exact hfail (h4.then (served_cuChecks _ _ _) ‹_›)
      · have h5 := h4.then (served_cuChecks _ _ _) ‹_›
        exact ((h5.trans (hdec _ _ _)).trans (served_pendMark _ _ _ _ _)).trans (served_cuWrite _ _ _ _ _)
  · split
    · exact hfail (h3.then (served_cuChecks _ _ _) ‹_›)
    · have h4 := h3.then (served_cuChecks _ _ _) ‹_›
      exact (h4.trans (hdec _ _ _)).trans (served_pushTask _ _ _ _ _ _ _ _)

end Sys2Proof.CommandUnit
end

section
/-! PROOFS. O48: kills (R354), purges by request tag (R100, R373) and the watchdog (R357, R358). -/

namespace Sys2Proof.Kills

open Machine Laws Safety CommandUnit

-- Groups and resources (R102, R354, R380) ---------------------------------------------------------------------------------------------

theorem endGroups_frame : ∀ (l : List Nat) (s : State), endGroups s l = { s with groups := (endGroups s l).groups }
  | [], _ => rfl
  | g :: l, s => by
    have h := endGroups_frame l (s.setGroup g (s.group g).dead)
    rw [endGroups, h]
    rfl

theorem endGroups_group : ∀ (l : List Nat) (s : State) (g : Nat), (endGroups s l).group g = if g ∈ l then (s.group g).dead else s.group g
  | [], _, _ => rfl
  | h :: l, s, g => by
    rw [endGroups, endGroups_group l]
    by_cases hg : g = h
    · subst hg
      have hdead : (s.group g).dead.dead = (s.group g).dead := rfl
      simp [hdead]
    · simp [hg, group_setGroup_other _ _ _ _ hg]

/-- A team as the freeing of a core's resources leaves it. -/
def TeamFreed (x y : Team) : Prop := ∃ w l a, y = { x with waiters := w, tlb := l, array := a }

theorem TeamFreed.refl (x : Team) : TeamFreed x x := ⟨x.waiters, x.tlb, x.array, rfl⟩

theorem TeamFreed.trans {x y z : Team} (h1 : TeamFreed x y) (h2 : TeamFreed y z) : TeamFreed x z := by
  obtain ⟨_, _, _, rfl⟩ := h1
  obtain ⟨w, l, a, rfl⟩ := h2
  exact ⟨w, l, a, rfl⟩

/-- What giving resources back can change: cores, places in queues, and what hangs on them in teams. -/
structure Freed (s t : State) : Prop where
  frame : t = { s with teams := t.teams, cores := t.cores, gateQ := t.gateQ }
  team  : ∀ k, TeamFreed (s.team k) (t.team k)

theorem Freed.refl (s : State) : Freed s s := ⟨rfl, fun k => .refl (s.team k)⟩

theorem Freed.trans {s t u : State} (h1 : Freed s t) (h2 : Freed t u) : Freed s u := by
  refine ⟨?_, fun k => (h1.team k).trans (h2.team k)⟩
  have e1 := h1.frame
  have e2 := h2.frame
  rw [e1] at e2
  simpa using e2

theorem freed_setCore (s : State) (k : Nat) (c : Core) : Freed s (s.setCore k c) := ⟨rfl, fun k => .refl (s.team k)⟩

theorem freed_setTeam {s : State} {t : Nat} {x : Team} (h : TeamFreed (s.team t) x) : Freed s (s.setTeam t x) := by
  refine ⟨rfl, fun k => ?_⟩
  by_cases hk : k = t
  · rw [hk, team_setTeam_same]
    exact h
  · rw [team_setTeam_other _ _ _ _ hk]
    exact .refl _

/-- A change of every team's waiters. -/
theorem freed_waiters (s : State) (q : List (Nat × Party × Bool × Scope)) (f : Team → List Waiter) :
    Freed s { s with gateQ := q, teams := s.teams.map fun y => { y with waiters := f y } } := by
  refine ⟨rfl, fun k => ?_⟩
  by_cases hk : k < s.teams.length
  · exact ⟨f (s.team k), (s.team k).tlb, (s.team k).array, getAt_map ({} : Team) ({} : Team) (fun y : Team => { y with waiters := f y }) s.teams k hk⟩
  · have hs : s.team k = {} := getAt_beyond _ _ _ (by omega)
    rw [hs, State.team, getAt_beyond]
    · exact .refl _
    · simpa using hk

theorem freed_grantBaton (s : State) (core g : Nat) : Freed s (grantBaton s core g) := by
  unfold grantBaton
  dsimp only
  split
  · exact (freed_setTeam ⟨_, _, none, rfl⟩).trans (freed_setCore _ _ _)
  · exact freed_setCore _ _ _

theorem freed_passBaton (s : State) (core : Nat) : Freed s (passBaton s core) := by
  unfold passBaton
  dsimp only
  split
  · exact freed_setCore _ _ _
  · exact (freed_setCore _ _ _).trans (freed_grantBaton _ _ _)

/-- What a team holds on its core given back, before the baton passes: the core as it stands then, the gate queues, and the lanes that wait. -/
def unslotted (s : State) (t : Nat) (c : Core) (q : List (Nat × Party × Bool × Scope)) (f : Team → List Waiter) : State :=
  let u : State := { s.setCore (s.team t).core c with gateQ := q, teams := s.teams.map fun y => { y with waiters := f y } }
  u.setTeam t { u.team t with tlb := [] }

theorem freed_unslotted (s : State) (t : Nat) (c : Core) (q : List (Nat × Party × Bool × Scope)) (f : Team → List Waiter) :
    Freed s (unslotted s t c q f) :=
  ((freed_setCore s _ c).trans (freed_waiters _ q f)).trans (freed_setTeam ⟨_, [], _, rfl⟩)

/-- Freeing a team empties its slot and passes the baton if one of its groups holds it. -/
theorem freeTeam_cases (s : State) (t : Nat) : ∃ c q f, c.teams = (s.core (s.team t).core).teams.map (fun x => if x == some t then none else x) ∧
    (freeTeam s t = unslotted s t c q f ∨ freeTeam s t = passBaton (unslotted s t c q f) (s.team t).core) := by
  unfold freeTeam
  dsimp only
  split
  · split
    · refine ⟨_, _, _, ?_, .inr rfl⟩
      rfl
    · refine ⟨_, _, _, ?_, .inl rfl⟩
      rfl
  · refine ⟨_, _, _, ?_, .inl rfl⟩
    rfl

theorem freed_freeTeam (s : State) (t : Nat) : Freed s (freeTeam s t) := by
  obtain ⟨c, q, f, -, h | h⟩ := freeTeam_cases s t
  · rw [h]
    exact freed_unslotted s t c q f
  · rw [h]
    exact (freed_unslotted s t c q f).trans (freed_passBaton _ _)

-- One kill ----------------------------------------------------------------------------------------------------------------------------

/-- The state in which a killed team has gone, before its launch counts it or its task is recorded. -/
def cleared (s : State) (t : Nat) : State :=
  let s' := match (s.team t).place with
    | .resident => freeTeam (endGroups s (s.team t).groups) t
    | .halting => freeTeam (endGroups s (s.team t).groups) t
    | _ => endGroups s (s.team t).groups
  trace (s'.setTeam t { s'.team t with place := .killed, reqs := [] }) 0x21 (s.team t) (s.team t).core 0 0 (s.team t).t

section
variable {s : State} {t fcause : Nat} {info : Word} (hover : (s.team t).place.over = false)
include hover

theorem killTeam_of_launch {l : Nat} (hl : (s.team t).launch = some l) :
    killTeam s t fcause info = countKilled (enterUnion (cleared s t) l (s.team t)) l (s.team t).t fcause info.toNat := by
  simp only [killTeam, hover, hl, Bool.false_eq_true, if_false]
  rfl

theorem killTeam_of_task {q pop : Nat} (hl : (s.team t).launch = none) (ht : (s.team t).task = some (q, pop)) :
    killTeam s t fcause info =
      let c := (s.team t).ctx
      let u := putErr (cleared s t) c (((cleared s t).ctx c).taskDesc q) 0x25 0 pop
      let v := logError u { ctx := c, what := fcause % 256, addr := info.toNat, tag := (s.team t).tag }
      joinDec (releaseTeam v c (s.team t).groups).1 c q pop (s.team t).jaddr (releaseTeam v c (s.team t).groups).2 := by
  simp only [killTeam, hover, hl, ht, Bool.false_eq_true, if_false]
  rfl

theorem killTeam_of_neither (hl : (s.team t).launch = none) (ht : (s.team t).task = none) : killTeam s t fcause info = cleared s t := by
  simp only [killTeam, hover, hl, ht, Bool.false_eq_true, if_false]
  rfl

end

theorem killTeam_over {s : State} {t : Nat} (hover : (s.team t).place.over = true) (fcause : Nat) (info : Word) : killTeam s t fcause info = s := by
  simp only [killTeam, hover, if_true]

/-- What the clearing of a team leaves, and what it makes of teams and groups. -/
structure Cleared (s : State) (t : Nat) (u : State) : Prop where
  launches : u.launches = s.launches
  ctxs     : u.ctxs = s.ctxs
  errlog   : u.dev.errlog = s.dev.errlog
  group    : ∀ g, u.group g = if g ∈ (s.team t).groups then (s.group g).dead else s.group g
  place    : ∀ k, (u.team k).place = if k = t then .killed else (s.team k).place

theorem cleared_cleared (s : State) (t : Nat) : Cleared s t (cleared s t) := by
  have hends := endGroups_frame (s.team t).groups s
  have key : ∀ v : State, Freed (endGroups s (s.team t).groups) v →
      Cleared s t (trace (v.setTeam t { v.team t with place := .killed, reqs := [] }) 0x21 (s.team t) (s.team t).core 0 0 (s.team t).t) := by
    intro v hv
    have hframe := hv.frame
    obtain ⟨_, _, _, hdev⟩ := trace_dev (v.setTeam t { v.team t with place := .killed, reqs := [] }) 0x21 (s.team t) (s.team t).core 0 0 (s.team t).t
    refine ⟨?_, ?_, ?_, fun g => ?_, fun k => ?_⟩
    · rw [trace_launches, setTeam_launches, hframe, hends]
    · rw [trace_ctxs, setTeam_ctxs, hframe, hends]
    · rw [hdev, setTeam_dev, hframe, hends]
    · rw [trace_group_at, group_setTeam, ← endGroups_group, hframe]
      rfl
    · rw [trace_team_at]
      by_cases hk : k = t
      · rw [hk, team_setTeam_same, if_pos rfl]
      · rw [team_setTeam_other _ _ _ _ hk, if_neg hk]
        obtain ⟨_, _, _, e⟩ := hv.team k
        rw [e, hends]
        rfl
  unfold cleared
  dsimp only
  split
  · exact key _ (freed_freeTeam _ _)
  · exact key _ (freed_freeTeam _ _)
  · exact key _ (.refl _)

/-- A purge's operations: the error log grows, signals stay raised, a team that is over stays so, and launches keep their marks and their card. -/
structure Purging (s t : State) : Prop where
  errlog  : ∃ l, t.dev.errlog = s.dev.errlog ++ l
  signals : ∀ c b, (s.ctx c).signals.getLsbD b = true → (t.ctx c).signals.getLsbD b = true
  ended   : ∀ k, (s.team k).place.over = true → (t.team k).place.over = true
  launch  : ∀ l, (t.launch l).purged = (s.launch l).purged ∧ (t.launch l).gone = (s.launch l).gone

theorem Purging.refl (s : State) : Purging s s := ⟨⟨[], by simp⟩, fun _ _ h => h, fun _ h => h, fun _ => ⟨rfl, rfl⟩⟩

theorem Purging.trans {s t u : State} (h1 : Purging s t) (h2 : Purging t u) : Purging s u where
  errlog := by
    obtain ⟨l, hl⟩ := h1.errlog
    obtain ⟨m, hm⟩ := h2.errlog
    exact ⟨l ++ m, by rw [hm, hl, List.append_assoc]⟩
  signals := fun c b h => h2.signals c b (h1.signals c b h)
  ended := fun k h => h2.ended k (h1.ended k h)
  launch := fun l => ⟨(h2.launch l).1.trans (h1.launch l).1, (h2.launch l).2.trans (h1.launch l).2⟩

theorem purging_served {s t : State} (h : Served s t) : Purging s t :=
  ⟨h.errlog, h.signals, fun k hk => by rw [h.team k]; exact hk, fun l => by rw [h.launch l]; exact ⟨rfl, rfl⟩⟩

theorem purging_cleared {s u : State} {t : Nat} (h : Cleared s t u) : Purging s u where
  errlog := ⟨[], by rw [h.errlog, List.append_nil]⟩
  signals := fun c b hb => by rw [State.ctx, h.ctxs]; exact hb
  ended := fun k hk => by
    rw [h.place]
    split
    · rfl
    · exact hk
  launch := fun l => by rw [State.launch, h.launches]; exact ⟨rfl, rfl⟩

theorem purging_setLaunch {s : State} {l : Nat} {x : Launch} (hp : x.purged = (s.launch l).purged) (hg : x.gone = (s.launch l).gone) :
    Purging s (s.setLaunch l x) := by
  refine ⟨⟨[], by simp⟩, fun _ _ h => h, fun _ h => h, fun m => ?_⟩
  by_cases hm : m = l
  · rw [hm, launch_setLaunch_same]
    exact ⟨hp, hg⟩
  · rw [launch_setLaunch_other _ _ _ _ hm]
    exact ⟨rfl, rfl⟩

theorem countKilled_launch (s : State) (l t fcause info : Nat) : ∃ k f p, countKilled s l t fcause info =
    s.setLaunch l { s.launch l with killed := k, first := f, placeK := p } := ⟨_, _, _, rfl⟩

theorem purging_killTeam (s : State) (t fcause : Nat) (info : Word) : Purging s (killTeam s t fcause info) := by
  cases hover : (s.team t).place.over with
  | true => rw [killTeam_over hover]; exact .refl s
  | false =>
    have hclear := purging_cleared (cleared_cleared s t)
    cases hl : (s.team t).launch with
    | some l =>
      obtain ⟨_, _, _, hcount⟩ := countKilled_launch (enterUnion (cleared s t) l (s.team t)) l (s.team t).t fcause info.toNat
      rw [killTeam_of_launch hover hl, hcount]
      have henter : Purging (cleared s t) (enterUnion (cleared s t) l (s.team t)) := purging_setLaunch rfl rfl
      exact (hclear.trans henter).trans (purging_setLaunch rfl rfl)
    | none =>
      cases ht : (s.team t).task with
      | some p =>
        rw [killTeam_of_task hover hl ht]
        have hrel : ∀ v c gs, Purging v (releaseTeam v c gs).1 := fun v c gs =>
          ⟨⟨[], by simp [releaseTeam, release]⟩, fun _ _ h => h, fun _ h => h, fun _ => ⟨rfl, rfl⟩⟩
        refine .trans ?_ (purging_served (served_joinDec _ _ _ _ _ _))
        exact (hclear.trans (purging_served ((served_putErr _ _ _ _ _ _).trans (served_logError _ _)))).trans (hrel _ _ _)
      | none =>
        rw [killTeam_of_neither hover hl ht]
        exact hclear

/-- Kills of R354 and the record of R76. -/
theorem killTeam_killed {s : State} {t : Nat} (hover : (s.team t).place.over = false) (fcause : Nat) (info : Word) :
    TeamKilled s (killTeam s t fcause info) t fcause info.toNat := by
  have hclear := cleared_cleared s t
  have hdead : ∀ g ∈ (s.team t).groups, ((cleared s t).group g).ended = true ∧ ((cleared s t).group g).log = [] ∧
      ((cleared s t).group g).frozen = [] ∧ ((cleared s t).group g).wait = .none := fun g hg => by
    rw [hclear.group, if_pos hg]
    exact ⟨rfl, rfl, rfl, rfl⟩
  have hothers : ∀ g, g ∉ (s.team t).groups → (cleared s t).group g = s.group g := fun g hg => by rw [hclear.group, if_neg hg]
  have hplace : ((cleared s t).team t).place = .killed := by rw [hclear.place, if_pos rfl]
  cases hl : (s.team t).launch with
  | some l =>
    rw [killTeam_of_launch hover hl]
    refine ⟨hplace, hdead, hothers, fun m hm => ?_⟩
    obtain rfl : l = m := Option.some.inj (hl.symm.trans hm)
    have hsame : (cleared s t).launch l = s.launch l := by rw [State.launch, hclear.launches]; rfl
    simp only [countKilled, enterUnion, launch_setLaunch_same, hsame]
    refine ⟨trivial, trivial, fun hfirst => ?_, rfl⟩
    rw [hfirst]
  | none =>
    cases ht : (s.team t).task with
    | some p =>
      rw [killTeam_of_task hover hl ht]
      dsimp only
      generalize hrec : (logError _ _ : State) = v
      have hv : Served (cleared s t) v := hrec ▸ (served_putErr (cleared s t) _ _ _ _ _).trans (served_logError _ _)
      have hjoin := served_joinDec (releaseTeam v (s.team t).ctx (s.team t).groups).1 (s.team t).ctx p.1 p.2 (s.team t).jaddr
        (releaseTeam v (s.team t).ctx (s.team t).groups).2
      have hgroup : ∀ g, (releaseTeam v (s.team t).ctx (s.team t).groups).1.group g = (cleared s t).group g := hv.group
      have hteam : (releaseTeam v (s.team t).ctx (s.team t).groups).1.team t = (cleared s t).team t := hv.team t
      refine ⟨?_, fun g hg => ?_, fun g hg => ?_, fun m hm => absurd hm (by rw [hl]; simp)⟩
      · rw [hjoin.team, hteam, hplace]
      · rw [hjoin.group, hgroup]
        exact hdead g hg
      · rw [hjoin.group, hgroup]
        exact hothers g hg
    | none =>
      rw [killTeam_of_neither hover hl ht]
      exact ⟨hplace, hdead, hothers, fun m hm => absurd hm (by rw [hl]; simp)⟩

/-- The device error log carries a killed task's 8-bit code (R349). -/
theorem killTeam_logged {s : State} {t : Nat} (hover : (s.team t).place.over = false) (hl : (s.team t).launch = none) (ht : (s.team t).task ≠ none)
    (fcause : Nat) (info : Word) : ∃ l m, (killTeam s t fcause info).dev.errlog = s.dev.errlog ++ l ++
      { ctx := (s.team t).ctx, what := fcause % 0x100, addr := info.toNat, tag := (s.team t).tag } :: m := by
  obtain ⟨⟨q, pop⟩, ht⟩ := Option.ne_none_iff_exists'.1 ht
  obtain ⟨l, hl'⟩ := (served_putErr (cleared s t) (s.team t).ctx (((cleared s t).ctx (s.team t).ctx).taskDesc q) 0x25 0 pop).errlog
  rw [killTeam_of_task hover hl ht]
  dsimp only
  generalize hrel : releaseTeam _ (s.team t).ctx (s.team t).groups = r
  obtain ⟨m, hm⟩ := (served_joinDec r.1 (s.team t).ctx q pop (s.team t).jaddr r.2).errlog
  refine ⟨l, m, ?_⟩
  rw [hm, ← hrel]
  simp only [releaseTeam, release, logError, hl', (cleared_cleared s t).errlog]
  simp

-- Purges (R100, R373) -----------------------------------------------------------------------------------------------------------------

theorem purging_killTeams (fcause : Nat) (info : Word) : ∀ (l : List Nat) (s : State), Purging s (killTeams s fcause info l)
  | [], s => .refl s
  | t :: l, s => (purging_killTeam s t fcause info).trans (purging_killTeams fcause info l _)

theorem killTeams_over (fcause : Nat) (info : Word) : ∀ (l : List Nat) (s : State), ∀ t ∈ l, ((killTeams s fcause info l).team t).place.over = true
  | t :: l, s, k, hk => by
    rcases List.mem_cons.1 hk with rfl | hk
    · refine (purging_killTeams fcause info l (killTeam s k fcause info)).ended k ?_
      cases hover : (s.team k).place.over with
      | true => rw [killTeam_over hover]; exact hover
      | false => rw [(killTeam_killed hover fcause info).1]; rfl
    · exact killTeams_over fcause info l _ k hk

/-- Every team of the launch has been dealt or killed, and the launch is marked. -/
def AllGone (x : Launch) : Prop := x.purged = true ∧ ∀ n, n < x.teams → n ∈ x.gone

theorem length_setLaunch {s : State} {l : Nat} (h : l < s.launches.length) (x : Launch) : (s.setLaunch l x).launches.length = s.launches.length :=
  length_setAt _ _ _ _ h

/-- Killing undealt teams of a launch counts them and puts them among those that are gone; nothing else changes. -/
theorem killUndealt_launch (l fcause info : Nat) : ∀ (ts : List Nat) (s : State),
    killUndealt s l fcause info ts = { s with launches := (killUndealt s l fcause info ts).launches } ∧
    (∃ k f p, (killUndealt s l fcause info ts).launch l = { s.launch l with killed := k, first := f, placeK := p, gone := (s.launch l).gone ++ ts }) ∧
    (∀ m, m ≠ l → (killUndealt s l fcause info ts).launch m = s.launch m) ∧
    (l < s.launches.length → (killUndealt s l fcause info ts).launches.length = s.launches.length)
  | [], s => ⟨rfl, ⟨_, _, _, by rw [List.append_nil]; rfl⟩, fun _ _ => rfl, fun _ => rfl⟩
  | t :: ts, s => by
    obtain ⟨k, f, p, hcount⟩ := countKilled_launch s l t fcause info
    obtain ⟨hframe, ⟨k', f', p', hl⟩, hother, hlen⟩ := killUndealt_launch l fcause info ts
      ((countKilled s l t fcause info).setLaunch l { (countKilled s l t fcause info).launch l with gone := ((countKilled s l t fcause info).launch l).gone ++ [t] })
    rw [hcount] at hframe hl hother hlen
    unfold killUndealt
    rw [hcount]
    refine ⟨hframe, ⟨k', f', p', ?_⟩, fun m hm => ?_, fun hlt => ?_⟩
    · rw [hl]
      simp
    · rw [hother m hm, launch_setLaunch_other _ _ _ _ hm, launch_setLaunch_other _ _ _ _ hm]
    · have hlen1 := length_setLaunch hlt { s.launch l with killed := k, first := f, placeK := p }
      have hlen2 := fun x => length_setLaunch (hlen1.symm ▸ hlt) x
      rw [hlen (by rw [hlen2]; exact hlen1.symm ▸ hlt), hlen2, hlen1]

/-- The marks a purge puts on the launches of its tag. -/
theorem markLaunches (cause info : Nat) (f : State → Nat → State)
    (hf : ∀ s l, f s l = killUndealt (s.setLaunch l { s.launch l with purged := true }) l cause info (missing (s.launch l).teams (s.launch l).gone)) :
    ∀ (ls : List Nat) (s : State), ls.foldl f s = { s with launches := (ls.foldl f s).launches } ∧
      ∀ m, ((ls.foldl f s).launch m).card = (s.launch m).card ∧ (m ∈ ls ∨ AllGone (s.launch m) → AllGone ((ls.foldl f s).launch m))
  | [], s => ⟨rfl, fun m => ⟨rfl, fun h => h.resolve_left (by simp)⟩⟩
  | l :: ls, s => by
    obtain ⟨hframe, ⟨k, fi, p, hl⟩, hother, -⟩ := killUndealt_launch l cause info (missing (s.launch l).teams (s.launch l).gone)
      (s.setLaunch l { s.launch l with purged := true })
    rw [← hf] at hframe hl hother
    obtain ⟨hframe', hrest⟩ := markLaunches cause info f hf ls (f s l)
    rw [List.foldl_cons]
    refine ⟨?_, fun m => ?_⟩
    · rw [hframe', hframe]
      rfl
    · obtain ⟨hcard, hgone⟩ := hrest m
      by_cases hm : m = l
      · subst hm
        rw [hl, launch_setLaunch_same] at hcard hgone
        refine ⟨hcard, fun _ => hgone (.inr ⟨rfl, fun n hn => ?_⟩)⟩
        have hn' : n < (s.launch m).teams := hn
        by_cases hmem : n ∈ (s.launch m).gone <;> simp [missing, hn', hmem]
      · rw [hother m hm, launch_setLaunch_other _ _ _ _ hm] at hcard hgone
        exact ⟨hcard, fun h => hgone (h.imp (fun h => (List.mem_cons.1 h).resolve_left hm) id)⟩

theorem foldl_served {α β : Type} (f : State × β → α → State × β) (hf : ∀ x a, Served x.1 (f x a).1) :
    ∀ (l : List α) (x : State × β), Served x.1 (l.foldl f x).1
  | [], x => .refl x.1
  | a :: l, x => (hf x a).trans (foldl_served f hf l (f x a))

theorem served_queuedPurges (s : State) (c tag cause info : Nat) : Served s (queuedPurges s c tag cause info).1 := by
  unfold queuedPurges
  refine foldl_served (β := List Purge) _ (fun x a => ?_) _ (s, _)
  dsimp only
  split
  · exact .then (.refl _) (served_cuRead _ _ _ _) ‹_›
  · exact .then (.refl _) (served_cuRead _ _ _ _) ‹_›

/-- Adding to the purges a context has still to meet. -/
theorem purging_setPurges (s : State) (c : Nat) (l : List Purge) : Purging s (s.setCtx c { s.ctx c with purges := l }) := by
  refine ⟨⟨[], by simp⟩, fun d b h => ?_, fun _ h => h, fun _ => ⟨rfl, rfl⟩⟩
  by_cases hd : d = c
  · subst hd
    rw [ctx_setCtx_same]
    exact h
  · rw [ctx_setCtx_other _ _ _ _ hd]
    exact h

theorem purging_foldl {α : Type} (f : State → α → State) (hf : ∀ s a, Purging s (f s a)) : ∀ (l : List α) (s : State), Purging s (l.foldl f s)
  | [], s => .refl s
  | a :: l, s => (hf s a).trans (purging_foldl f hf l (f s a))

theorem purging_purgeTasks (c tag cause info : Nat) : ∀ (l : List Nat) (s : State), Purging s (purgeTasks s c tag cause info l)
  | [], s => .refl s
  | q :: l, s => by
    unfold purgeTasks
    refine .trans ?_ (purging_purgeTasks c tag cause info l _)
    split
    · exact purging_served (.then (.refl s) (served_cuRead _ _ _ _) ‹_›)
    have hread := purging_served (.then (.refl s) (served_cuRead _ _ _ _) ‹_›)
    dsimp only
    split
    · exact hread
    refine (hread.trans (purging_foldl _ (fun u i => ?_) _ _)).trans (purging_setPurges _ _ _)
    split
    · exact purging_served (.then (.refl u) (served_cuRead _ _ _ _) ‹_›)
    have hrec := purging_served (.then (.refl u) (served_cuRead _ _ _ _) ‹_›)
    split
    · exact hrec.trans (purging_served (served_joinDec _ _ _ _ _ _))
    · exact hrec

/-- R373: what a purge by request tag does to the teams and the launches of its context and tag. -/
theorem purge_contains (s : State) (c tag cause info : Nat) :
    (∀ k, k < s.teams.length → (s.team k).ctx = c → (s.team k).tag = tag → ((purge s c tag cause info).team k).place.over = true) ∧
    (∀ l, l < s.launches.length → (s.launch l).ctx = c → (s.launch l).tag = tag → (s.launch l).retired = false →
      ((purge s c tag cause info).launch l).purged = true ∧ ∀ n, n < (s.launch l).teams → n ∈ ((purge s c tag cause info).launch l).gone) ∧
    (∃ more, (purge s c tag cause info).dev.errlog = s.dev.errlog ++ { ctx := c, what := cause, addr := info, tag := tag } :: more) ∧
    ((purge s c tag cause info).ctx c).signals.getLsbD 3 = true := by
  let s0 := signal (logError s { ctx := c, what := cause, addr := info, tag }) c 3
  let ls := (List.range s0.launches.length).filter fun l => (s0.launch l).ctx = c && (s0.launch l).tag = tag && !(s0.launch l).retired
  let mark : State → Nat → State := fun s l =>
    killUndealt (s.setLaunch l { s.launch l with purged := true }) l cause info (missing (s.launch l).teams (s.launch l).gone)
  let s1 := ls.foldl mark s0
  let victims := teamIds s1 fun t => t.ctx == c && t.tag == tag && !t.place.over
  let s2 := killTeams s1 cause (wd info) victims
  obtain ⟨hframe, hmarked⟩ := markLaunches cause info mark (fun _ _ => rfl) ls s0
  have hteams : s1.teams = s.teams := by rw [show s1 = _ from hframe]; rfl
  have hend : Purging s2 (purge s c tag cause info) := by
    have hqueued : Purging s2 _ := (purging_served (served_queuedPurges s2 c tag cause info)).trans
      (purging_setPurges _ c (((queuedPurges s2 c tag cause info).1.ctx c).purges ++ (queuedPurges s2 c tag cause info).2))
    have hpurge : purge s c tag cause info = if ((queuedPurges s2 c tag cause info).1.ctx c).wen
        then purgeTasks ((queuedPurges s2 c tag cause info).1.setCtx c { (queuedPurges s2 c tag cause info).1.ctx c with
          purges := ((queuedPurges s2 c tag cause info).1.ctx c).purges ++ (queuedPurges s2 c tag cause info).2 }) c tag cause info (List.range 8)
        else _ := rfl
    rw [hpurge]
    split
    · exact hqueued.trans (purging_purgeTasks _ _ _ _ _ _)
    · exact hqueued
  have hkills : Purging s1 (purge s c tag cause info) := (purging_killTeams _ _ _ _).trans hend
  refine ⟨fun k hk hc ht => ?_, fun l hl hc ht hr => ?_, ?_, ?_⟩
  · by_cases hover : (s1.team k).place.over = true
    · exact hkills.ended k hover
    · refine hend.ended k (killTeams_over _ _ _ _ k ?_)
      have hteam : s1.team k = s.team k := by rw [State.team, hteams]; rfl
      rw [hteam] at hover
      simp [victims, teamIds, hteam, hteams, hk, hc, ht, hover]
  · obtain ⟨hpurged, hgone⟩ := hkills.launch l
    obtain ⟨hcard, hall⟩ := hmarked l
    have hmem : l ∈ ls := by
      have hsame : s0.launch l = s.launch l := rfl
      have hlen : s0.launches = s.launches := rfl
      simp [ls, hsame, hlen, hl, hc, ht, hr]
    obtain ⟨hp, hg⟩ := hall (.inl hmem)
    refine ⟨hpurged.trans hp, fun n hn => ?_⟩
    rw [hgone]
    refine hg n ?_
    rw [Launch.teams, Launch.w, hcard]
    exact hn
  · obtain ⟨more, hmore⟩ := hkills.errlog
    refine ⟨more, ?_⟩
    rw [hmore, show s1 = _ from hframe]
    simp [s0, signal, logError]
  · refine hkills.signals c 3 ?_
    rw [show s1 = _ from hframe]
    have hset : (s0.ctx c).signals.getLsbD 3 = true := by
      simp [s0, signal]
    exact hset

-- The watchdog (R357, R358) -----------------------------------------------------------------------------------------------------------

theorem raiseDog_frame : ∀ (l : List Nat) (s : State), raiseDog s l = { s with groups := (raiseDog s l).groups }
  | [], _ => rfl
  | g :: l, s => by
    unfold raiseDog
    split
    · exact raiseDog_frame l s
    · have h := raiseDog_frame l (s.setGroup g { s.group g with wdog := true })
      rw [h]
      rfl

theorem raiseDog_group : ∀ (l : List Nat) (s : State) (g : Nat),
    (raiseDog s l).group g = if g ∈ l ∧ (s.group g).ended = false then { s.group g with wdog := true } else s.group g
  | [], _, _ => by simp [raiseDog]
  | h :: l, s, g => by
    unfold raiseDog
    rw [raiseDog_group l]
    by_cases hg : g = h
    · subst hg
      cases he : (s.group g).ended <;> simp [he]
    · split <;> simp [hg, group_setGroup_other _ _ _ _ hg]

theorem onCore_not_over {p : TeamAt} (h : p.onCore = true) : p.over = false := by
  cases p <;> first | rfl | exact absurd h (by decide)

theorem toNat_wd {n : Nat} (h : n < 2 ^ 64) : (wd n).toNat = n := Registers.toNat_wd h

section
variable {s : State} {team : Nat} (hlive : s.dev.status ≠ 7) (hon : (s.team team).place.onCore = true) (hbudget : (s.team team).budget ≠ 0)
include hlive hon hbudget

theorem exec_wdogBudget (hcount : (s.team team).wdog.toNat = (s.team team).budget) (hfired : (s.team team).fired = false) :
    exec (.wdogBudget team) s = .next (if wfield (s.team team).vec 0 1 = 0 then killTeam s team 0x10 (wd (s.team team).budget)
      else raiseDog (s.setTeam team { s.team team with fired := true }) (s.team team).groups) := by
  have hexec : exec (.wdogBudget team) s = execWdogBudget team s := rfl
  have hgo : ¬ (s.dev.status = 7 || !(s.team team).place.onCore || (s.team team).budget = 0 || (s.team team).wdog.toNat ≠ (s.team team).budget ||
      (s.team team).fired) = true := by
    have hlive' : s.dev.status ≠ 7#3 := hlive
    simp [hlive', hon, hbudget, hcount, hfired]
  rw [hexec, execWdogBudget]
  dsimp only
  rw [if_neg hgo]
  split <;> rfl

theorem exec_wdogKill (hcount : 2 * (s.team team).budget ≤ (s.team team).wdog.toNat) :
    exec (.wdogKill team) s = .next (killTeam s team 0x10 (wd (s.team team).budget)) := by
  have hexec : exec (.wdogKill team) s = execWdogKill team s := rfl
  have hnot : ¬ (s.team team).wdog.toNat < 2 * (s.team team).budget := by omega
  have hlive' : s.dev.status ≠ 7#3 := hlive
  rw [hexec, execWdogKill]
  simp [hlive', hon, hbudget, hnot]

end

theorem exec_teamKill {s : State} {team cause info : Nat} (hlive : s.dev.status ≠ 7) (hteam : team < s.teams.length)
    (hcode : 0 < cause % 0x100) (hlast : cause % 0x100 ≤ 0x1A) (hcause : cause < 0x200) :
    exec (.teamKill team cause info) s = .next (killTeam s team cause (wd info)) := by
  have hexec : exec (.teamKill team cause info) s = execTeamKill team cause info s := rfl
  have hlive' : s.dev.status ≠ 7#3 := hlive
  have hrange : ¬ s.teams.length ≤ team ∧ ¬ cause % 0x100 = 0 ∧ ¬ 0x1A < cause % 0x100 ∧ ¬ 0x200 ≤ cause := by omega
  rw [hexec, execTeamKill, if_neg]
  simpa [hlive', and_assoc] using hrange

theorem exec_poisonPurge {s : State} {g cause info : Nat} (hlive : s.dev.status ≠ 7) (hg : g < s.groups.length) (hgo : (s.group g).ended = false)
    (hcause : cause = 0x05 ∨ cause = 0x18) :
    exec (.poisonPurge g cause info) s = .next (purge s (s.team (s.group g).team).ctx (s.team (s.group g).team).tag cause info) := by
  have hexec : exec (.poisonPurge g cause info) s = execPoisonPurge g cause info s := rfl
  rw [hexec, execPoisonPurge, if_neg]
  · rfl
  · have hlive' : s.dev.status ≠ 7#3 := hlive
    have hrange : ¬ s.groups.length ≤ g := by omega
    rcases hcause with rfl | rfl <;> simp [hlive', hgo, hrange]

/-- After a fatal error no kill, purge or watchdog event happens (R391). -/
theorem kills_fatal {s : State} (h : s.dev.status = 7) (team g cause info : Nat) : exec (.teamKill team cause info) s = .next s ∧
    exec (.poisonPurge g cause info) s = .next s ∧ exec (.wdogBudget team) s = .next s ∧ exec (.wdogKill team) s = .next s := by
  refine ⟨?_, ?_, ?_, ?_⟩
  · exact if_pos (by simp [h])
  · exact if_pos (by simp [h])
  · exact if_pos (by simp [h])
  · exact if_pos (by simp [h])

/-- Settles O48: one kill (`killTeam_killed`, `killTeam_logged`), a purge by request tag (`purge_contains`), the two counts of the watchdog, the
report of a strike, and R391. -/
theorem killAndWatchdogEvents : Obligations.KillAndWatchdogEvents := by
  unfold Obligations.KillAndWatchdogEvents
  refine ⟨?kill, ?poison, ?budget, ?twice, fun s core => rfl, fun s team g cause info h => kills_fatal h team g cause info⟩
  case kill =>
    intro s team cause info hlive hteam hover hcode hlast hcause hinfo
    have hword := toNat_wd hinfo
    refine ⟨_, exec_teamKill hlive hteam hcode hlast hcause, ?_, fun hl ht => ?_⟩
    · have hkilled := killTeam_killed hover cause (wd info)
      rwa [hword] at hkilled
    · have hlogged := killTeam_logged hover hl ht cause (wd info)
      rwa [hword] at hlogged
  case poison =>
    intro s g cause info hlive hg hgo hcause
    exact ⟨_, exec_poisonPurge hlive hg hgo hcause, purge_contains s _ _ cause info⟩
  case budget =>
    intro s team hlive hteam hon hbudget hcount hfired
    have hexec := exec_wdogBudget hlive hon hbudget hcount hfired
    refine ⟨fun hvec => ?_, fun hvec => ?_⟩
    · rw [if_neg (by omega)] at hexec
      refine ⟨_, hexec, raiseDog_group _ _, ?_, ?_⟩
      · rw [raiseDog_frame]
        exact congrArg Team.fired (team_setTeam_same s team _)
      · rw [raiseDog_frame]
        exact ⟨⟨rfl, rfl, rfl⟩, rfl⟩
    · rw [if_pos hvec] at hexec
      exact ⟨_, hexec, killTeam_killed (onCore_not_over hon) _ _⟩
  case twice =>
    intro s team hlive hteam hon hbudget hcount
    exact ⟨_, exec_wdogKill hlive hon hbudget hcount, killTeam_killed (onCore_not_over hon) _ _⟩

end Sys2Proof.Kills
end

section
/-! PROOFS. The words that the command unit reads and writes inside a context's heap window (R4, R101, R223, R316): bytes and 64-bit words, the records
of writes they make, and the accesses that leave all but memory as it was. -/

namespace Sys2Proof.CommandWords

open Machine Laws Safety CommandUnit

-- Bytes and words (R4) ----------------------------------------------------------------------------------------------------------------

theorem getAt_append {α : Type} (d : α) : ∀ (a b : List α) (i : Nat), getAt d (a ++ b) i = if i < a.length then getAt d a i else getAt d b (i - a.length)
  | [], b, i => by simp
  | x :: a, b, 0 => by simp [getAt]
  | x :: a, b, i + 1 => by
    have h := getAt_append d a b i
    simp only [List.cons_append, getAt, List.length_cons, Nat.add_lt_add_iff_right, Nat.add_sub_add_right]
    exact h

theorem toBytes_succ (n x : Nat) : toBytes (n + 1) x = BitVec.ofNat 8 x :: toBytes n (x / 256) := by
  simp only [toBytes, List.range_succ_eq_map, List.map_cons, List.map_map, Nat.mul_zero, pow_zero, Nat.div_one]
  refine congrArg _ (List.map_congr_left fun k _ => ?_)
  rw [Function.comp_apply, Nat.div_div_eq_div_mul, Nat.mul_succ, Nat.add_comm (8 * k) 8, pow_add]
  rfl

theorem ofBytes_toBytes : ∀ n x : Nat, ofBytes (toBytes n x) = x % 2 ^ (8 * n)
  | 0, x => by simp [toBytes, ofBytes, Nat.mod_one]
  | n + 1, x => by
    have hcons : ofBytes (toBytes (n + 1) x) = x % 256 + 256 * ofBytes (toBytes n (x / 256)) := by rw [toBytes_succ]; rfl
    rw [hcons, ofBytes_toBytes n, Nat.mul_succ, Nat.add_comm (8 * n) 8, pow_add, Nat.mod_mul]
    rfl

/-- Byte i of a little-endian number. -/
theorem byte_ofBytes : ∀ (l : List Byte) (i : Nat), BitVec.ofNat 8 (ofBytes l / 2 ^ (8 * i)) = getAt 0 l i
  | [], i => by simp [ofBytes, getAt]
  | b :: l, 0 => by
    have hcons : ofBytes (b :: l) = b.toNat + 256 * ofBytes l := rfl
    have hb : b.toNat < 256 := b.isLt
    refine BitVec.eq_of_toNat_eq ?_
    rw [hcons, BitVec.toNat_ofNat, getAt]
    omega
  | b :: l, i + 1 => by
    have hcons : ofBytes (b :: l) = b.toNat + 256 * ofBytes l := rfl
    have hb : b.toNat < 256 := b.isLt
    have hdiv : ofBytes (b :: l) / 2 ^ 8 = ofBytes l := by rw [hcons]; omega
    rw [getAt, ← byte_ofBytes l i, Nat.mul_succ, Nat.add_comm (8 * i) 8, pow_add, ← Nat.div_div_eq_div_mul, hdiv]

theorem length_memRead (m : List Host.Cell) (a n : Nat) : (memRead m a n).length = n := by simp [memRead, span]

theorem getAt_memRead (m : List Host.Cell) (a n i : Nat) (h : i < n) : getAt 0 (memRead m a n) i = memGet m (a + i) := by
  rw [memRead, span, List.map_map, getAt_map_range _ _ _ _ h]
  rfl

theorem memRead_part (m : List Host.Cell) (a n d k : Nat) (h : d + k ≤ n) : ((memRead m a n).drop d).take k = memRead m (a + d) k := by
  have hlen : k ≤ n - d := by omega
  apply List.ext_getElem
  · simp [length_memRead, hlen]
  · intro i h1 h2
    simp [memRead, span, Nat.add_assoc]

theorem memNat_lt (m : List Host.Cell) (a : Nat) : memNat m a 8 < 2 ^ 64 := by
  have h := Registers.ofBytes_lt (memRead m a 8)
  rwa [length_memRead] at h

theorem memNat_congr {m m' : List Host.Cell} {a n : Nat} (h : ∀ i, i < n → memGet m' (a + i) = memGet m (a + i)) : memNat m' a n = memNat m a n := by
  refine congrArg ofBytes ?_
  simp only [memRead, span, List.map_map]
  refine List.map_congr_left fun i hi => ?_
  exact h i (List.mem_range.1 hi)

theorem length_wordsOf (b : List Byte) : (wordsOf b).length = b.length / 8 := by simp [wordsOf]

/-- Word i of an object in memory. -/
theorem wordsOf_memRead (m : List Host.Cell) (a n i : Nat) (h : 8 * (i + 1) ≤ n) : getAt 0 (wordsOf (memRead m a n)) i = wd (memNat m (a + 8 * i) 8) := by
  have hi : i < (memRead m a n).length / 8 := by rw [length_memRead]; omega
  rw [wordsOf, getAt_map_range _ _ _ _ hi, memRead_part _ _ _ _ _ (by omega)]
  rfl

theorem toNat_memWord (m : List Host.Cell) (a : Nat) : (wd (memNat m a 8)).toNat = memNat m a 8 := Registers.toNat_wd (memNat_lt m a)

theorem wfield_memWord (m : List Host.Cell) (a lo n : Nat) : wfield (wd (memNat m a 8)) lo n = memNat m a 8 / 2 ^ lo % 2 ^ n := by
  rw [wfield, toNat_memWord]
  rfl

-- Bytes that are words ----------------------------------------------------------------------------------------------------------------

/-- The bytes of n 64-bit words, little-endian. -/
def WordBytes (bytes : List Byte) (n : Nat) (val : Nat → Nat) : Prop :=
  bytes.length = 8 * n ∧ ∀ j, j < 8 * n → getAt 0 bytes j = BitVec.ofNat 8 (val (j / 8) / 2 ^ (8 * (j % 8)))

theorem wordBytes_toBytes (v : Nat) : WordBytes (toBytes 8 v) 1 fun _ => v :=
  ⟨length_toBytes 8 v, fun j hj => by rw [toBytes, getAt_map_range _ _ _ _ hj, Nat.mod_eq_of_lt hj]⟩

theorem wordBytes_memRead (m : List Host.Cell) (a n : Nat) : WordBytes (memRead m a (8 * n)) n fun k => memNat m (a + 8 * k) 8 := by
  refine ⟨length_memRead _ _ _, fun j hj => ?_⟩
  have hsum : a + 8 * (j / 8) + j % 8 = a + j := by omega
  dsimp only
  rw [memNat, byte_ofBytes, getAt_memRead _ _ _ _ (Nat.mod_lt _ (by decide)), hsum, getAt_memRead _ _ _ _ hj]

theorem wordBytes_flatten : ∀ vals : List Nat, WordBytes ((vals.map (toBytes 8)).flatten) vals.length (getAt 0 vals)
  | [] => ⟨rfl, fun j hj => absurd hj (by simp)⟩
  | v :: vals => by
    obtain ⟨hlen, hbyte⟩ := wordBytes_flatten vals
    refine ⟨by simp [length_toBytes] at hlen ⊢; omega, fun j hj => ?_⟩
    rw [List.map_cons, List.flatten_cons, getAt_append, length_toBytes]
    split
    · rename_i hlt
      rw [(wordBytes_toBytes v).2 j (by omega), Nat.div_eq_of_lt hlt]
      rfl
    · rename_i hge
      simp only [List.length_cons] at hj
      have hdiv : j / 8 = (j - 8) / 8 + 1 := by omega
      have hmod : j % 8 = (j - 8) % 8 := by omega
      rw [hbyte (j - 8) (by omega), hdiv, hmod]
      rfl

/-- Half a word: the value that a 32-bit write of the word's bytes carries. -/
theorem half_of_wordBytes {bytes : List Byte} {n : Nat} {val : Nat → Nat} (h : WordBytes bytes n val) {i : Nat} (hi : i < 2 * n) :
    BitVec.ofNat 32 (ofBytes ((List.range 4).map fun e => getAt 0 bytes (4 * i + e))) = BitVec.ofNat 32 (val (i / 2) / 2 ^ (32 * (i % 2))) := by
  have hbytes : (List.range 4).map (fun e => getAt 0 bytes (4 * i + e)) = toBytes 4 (val (i / 2) / 2 ^ (32 * (i % 2))) := by
    refine List.map_congr_left fun e he => ?_
    have he : e < 4 := List.mem_range.1 he
    have hword : (4 * i + e) / 8 = i / 2 := by omega
    have hbyte : 8 * ((4 * i + e) % 8) = 32 * (i % 2) + 8 * e := by omega
    rw [h.2 _ (by omega), hword, hbyte, pow_add, Nat.div_div_eq_div_mul]
  rw [hbytes, ofBytes_toBytes]
  refine BitVec.eq_of_toNat_eq ?_
  simp

-- Records of writes (R316) ------------------------------------------------------------------------------------------------------------

theorem wrote_nil : Wrote [] [] := ⟨rfl, fun k w h => by simp at h⟩

theorem wrote_append {l l' : List WriteRec} {ws ws' : List (Nat × Nat)} (h : Wrote l ws) (h' : Wrote l' ws') : Wrote (l ++ l') (ws ++ ws') := by
  obtain ⟨hlen, hrec⟩ := h
  obtain ⟨hlen', hrec'⟩ := h'
  refine ⟨by simp only [List.length_append, hlen, hlen']; omega, fun k w hw => ?_⟩
  rw [getAt_append]
  by_cases hk : k < l.length
  · rw [List.getElem?_append_left hk] at hw
    rw [if_pos (by omega)]
    exact hrec k w hw
  · rw [List.getElem?_append_right (by omega)] at hw
    have hhalf : k / 2 - ws.length = (k - l.length) / 2 := by omega
    have hmod : k % 2 = (k - l.length) % 2 := by omega
    rw [if_neg (by omega), hhalf, hmod]
    exact hrec' _ w hw

/-- The record of writes has grown by those of some 64-bit words. -/
def Appended (s t : State) (ws : List (Nat × Nat)) : Prop := ∃ l, t.writes = s.writes ++ l ∧ Wrote l ws

theorem appended_nil {s t : State} (h : t.writes = s.writes) : Appended s t [] := ⟨[], by rw [h, List.append_nil], wrote_nil⟩

theorem Appended.trans {s t u : State} {ws ws' : List (Nat × Nat)} (h : Appended s t ws) (h' : Appended t u ws') : Appended s u (ws ++ ws') := by
  obtain ⟨l, hl, hw⟩ := h
  obtain ⟨l', hl', hw'⟩ := h'
  exact ⟨l ++ l', by rw [hl', hl, List.append_assoc], wrote_append hw hw'⟩

theorem Appended.of_eq {s t u : State} {ws : List (Nat × Nat)} (h : Appended s t ws) (hu : u.writes = t.writes) : Appended s u ws := by
  obtain ⟨l, hl, hw⟩ := h
  exact ⟨l, by rw [hu, hl], hw⟩

theorem Appended.from_eq {s t u : State} {ws : List (Nat × Nat)} (h : Appended t u ws) (hs : t.writes = s.writes) : Appended s u ws := by
  obtain ⟨l, hl, hw⟩ := h
  exact ⟨l, by rw [hl, hs], hw⟩

/-- Records of the halves of n words, in order. -/
theorem wrote_of_halves {l : List WriteRec} {pa n : Nat} {val : Nat → Nat} {P : WriteRec → Prop}
    (h : List.Forall₂ (fun i r => r.word = pa + 4 * i ∧ P r ∧ r.val = BitVec.ofNat 32 (val (i / 2) / 2 ^ (32 * (i % 2)))) (List.range (2 * n)) l) :
    Wrote l (wordsAt pa n val) ∧ ∀ r ∈ l, P r := by
  have hlen : l.length = 2 * n := by rw [← h.length_eq, List.length_range]
  have hat : ∀ k w, l[k]? = some w → k < 2 * n ∧ w.word = pa + 4 * k ∧ P w ∧ w.val = BitVec.ofNat 32 (val (k / 2) / 2 ^ (32 * (k % 2))) := by
    intro k w hw
    obtain ⟨hk, rfl⟩ := List.getElem?_eq_some_iff.1 hw
    have hget := List.Forall₂.get h (by rw [List.length_range]; omega) hk
    simp only [List.get_eq_getElem, List.getElem_range] at hget
    exact ⟨by omega, hget⟩
  refine ⟨⟨by rw [hlen, wordsAt, List.length_map, List.length_range], fun k w hw => ?_⟩, fun r hr => ?_⟩
  · obtain ⟨hk, hword, -, hval⟩ := hat k w hw
    have hsplit : pa + 4 * k = pa + 8 * (k / 2) + 4 * (k % 2) := by omega
    rw [wordsAt, getAt_map_range _ _ _ _ (by omega), hword, hval, hsplit]
    exact ⟨rfl, rfl⟩
  · obtain ⟨k, hk, rfl⟩ := List.getElem_of_mem hr
    exact (hat k _ (List.getElem?_eq_getElem hk)).2.2.1

/-- Bytes that a store covers whole stand in its words as they are. -/
theorem wordAfter_covered (s : State) (v : MemView) (k : Writer) {pa i : Nat} {bytes : List Byte} (hpa : pa % 4 = 0) (hi : 4 * i + 4 ≤ bytes.length) :
    wordAfter s v k pa bytes ((pa / 4 + i) * 4) = BitVec.ofNat 32 (ofBytes ((List.range 4).map fun e => getAt 0 bytes (4 * i + e))) := by
  unfold wordAfter
  refine congrArg (fun l => BitVec.ofNat 32 (ofBytes l)) (List.map_congr_left fun e he => ?_)
  have he : e < 4 := List.mem_range.1 he
  have hin : (decide (pa ≤ (pa / 4 + i) * 4 + e) && decide ((pa / 4 + i) * 4 + e < pa + bytes.length)) = true := by
    simp only [Bool.and_eq_true, decide_eq_true_eq]
    omega
  rw [if_pos hin]
  exact congrArg _ (by omega)

/-- A store of words at an aligned address records their halves in order. -/
theorem storeBytes_wrote (s : State) (v : MemView) (k : Writer) (sync : Option (Scope × List Nat)) (va : Nat) {pa n : Nat} {bytes : List Byte}
    {val : Nat → Nat} (hpa : pa % 4 = 0) (hb : WordBytes bytes n val) : Appended s (storeBytes s v k sync va pa bytes).1 (wordsAt pa n val) := by
  by_cases hn : n = 0
  · subst hn
    have hnil : bytes = [] := List.eq_nil_of_length_eq_zero hb.1
    exact appended_nil (by simp [storeBytes, hnil])
  · have hlen := hb.1
    obtain ⟨rs, hrs, hall⟩ := storeBytes_writes s v k sync va pa bytes (fun h => by rw [h] at hlen; simp at hlen; omega)
    have hcount : (pa + bytes.length - 1) / 4 - pa / 4 + 1 = 2 * n := by omega
    rw [hcount] at hall
    refine ⟨rs, hrs, (wrote_of_halves (P := fun _ => True) ?_).1⟩
    refine List.forall₂_iff_get.2 ⟨hall.length_eq, fun i h1 h2 => ?_⟩
    have hget := List.Forall₂.get hall h1 h2
    simp only [List.get_eq_getElem, List.getElem_range] at hget ⊢
    obtain ⟨hword, -, u, w, hval⟩ := hget
    have hi : i < 2 * n := by simpa using h1
    refine ⟨by omega, trivial, ?_⟩
    rw [hval, wordAfter_covered u w k hpa (by omega), half_of_wordBytes hb hi]

/-- A 64-bit operation at the home L2 records its halves, with its scope and the releases of its party's view. -/
theorem atomicWrite_wrote (s : State) (v : MemView) (p : Party) (ctx : Nat) (sc : Scope) (va pa x : Nat) :
    ∃ l, (atomicWrite s v p ctx sc va pa (toBytes 8 x)).1.writes = s.writes ++ l ∧ Wrote l [(pa, x)] ∧
      ∀ r ∈ l, r.sync = some (sc, v.rels) := by
  obtain ⟨rs, hrs, hall⟩ := atomicWrite_writes s v p ctx sc va pa (toBytes 8 x)
  rw [length_toBytes] at hall
  refine ⟨rs, hrs, wrote_of_halves (n := 1) (val := fun _ => x) (List.forall₂_iff_get.2 ⟨hall.length_eq, fun i h1 h2 => ?_⟩)⟩
  obtain ⟨hword, hsync, hval⟩ := List.Forall₂.get hall h1 h2
  simp only [List.get_eq_getElem, List.getElem_range] at hword hval ⊢
  have hi : i < 2 := by simpa using h1
  have hhalf : ((toBytes 8 x).drop (4 * i)).take 4 = (List.range 4).map fun e => getAt 0 (toBytes 8 x) (4 * i + e) := by
    interval_cases i <;> rfl
  refine ⟨hword, hsync, ?_⟩
  rw [hval, hhalf, half_of_wordBytes (wordBytes_toBytes x) (by omega)]

-- The heap window (R223, R224) --------------------------------------------------------------------------------------------------------

theorem heapHolds_part {s : State} {c : Nat} {heap : Word × Word × Word} {va n pa : Nat} (h : HeapHolds s c heap va n pa) {d m : Nat} (hm : 0 < m)
    (hd : d + m ≤ n) : HeapHolds s c heap (va + d) m (pa + d) := by
  obtain ⟨-, htop, hon, hwr, hbase, hlim, hhome, hcap, hregs⟩ := h
  refine ⟨hm, by omega, hon, hwr, by omega, by omega, fun i hi => ?_, by omega, fun r hr => ?_⟩
  · have hbyte := hhome (d + i) (by omega)
    rw [← Nat.add_assoc, ← Nat.add_assoc] at hbyte
    exact hbyte
  · obtain h | h | h := hregs r hr
    · exact .inl h
    · exact .inr (.inl (by omega))
    · exact .inr (.inr (by omega))

/-- A part of what lies in a context's window. -/
theorem window_part {s : State} {c va n pa : Nat} (h : InCtxWindow s c va n pa) {d m : Nat} (hm : 0 < m) (hd : d + m ≤ n) :
    InCtxWindow s c (va + d) m (pa + d) := heapHolds_part h hm hd

/-- A window stays where a device's map of its own memory, a context's heap registers and its regions stay, or regions go. -/
theorem window_mono {s t : State} {c va n pa : Nat} (hhome : ∀ a, homeAddr t.dev a = homeAddr s.dev a) (hcap : t.dev.capacity = s.dev.capacity)
    (hheap : ((t.ctx c).heapbase, (t.ctx c).heaplen, (t.ctx c).heapoff) = ((s.ctx c).heapbase, (s.ctx c).heaplen, (s.ctx c).heapoff))
    (hregs : ∀ r ∈ (t.ctx c).regions, r ∈ (s.ctx c).regions) (h : InCtxWindow s c va n pa) : InCtxWindow t c va n pa := by
  obtain ⟨hn, htop, hon, hwr, hbase, hlim, hbytes, hend, hbar⟩ := h
  unfold InCtxWindow HeapHolds
  rw [hheap, hcap]
  exact ⟨hn, htop, hon, hwr, hbase, hlim, fun i hi => (hhome _).trans (hbytes i hi), hend, fun r hr => hbar r (hregs r hr)⟩

theorem window_served {s t : State} (h : Served s t) {c va n pa : Nat} (hw : InCtxWindow s c va n pa) : InCtxWindow t c va n pa := by
  obtain ⟨_, hdev⟩ := h.dev
  obtain ⟨_, _, _, _, hctx⟩ := h.ctx c
  refine window_mono (fun a => ?_) ?_ ?_ ?_ hw
  · rw [hdev]
    rfl
  · rw [hdev]
  · rw [hctx]
  · rw [hctx]
    exact fun r hr => hr

/-- What an access of the command unit may read in the window, whatever regions bar from writing. -/
def Readable (s : State) (c va n pa : Nat) : Prop := InCtxWindow (s.setCtx c { s.ctx c with regions := [] }) c va n pa

theorem readable_of_window {s : State} {c va n pa : Nat} (h : InCtxWindow s c va n pa) : Readable s c va n pa := by
  refine window_mono (s := s) (t := s.setCtx c { s.ctx c with regions := [] }) (fun _ => rfl) rfl ?_ ?_ h <;> simp

theorem readable_served {s t : State} (h : Served s t) {c va n pa : Nat} (hw : Readable s c va n pa) : Readable t c va n pa := by
  obtain ⟨_, hdev⟩ := h.dev
  obtain ⟨_, _, _, _, hctx⟩ := h.ctx c
  refine window_mono (fun a => ?_) ?_ ?_ ?_ hw
  · rw [setCtx_dev, hdev]
    rfl
  · rw [setCtx_dev, hdev]
    rfl
  · simp [hctx]
  · simp

/-- The check of a window's access: one piece, and the state as it was. -/
theorem checkHeap_window {s : State} {c va n pa : Nat} (h : Readable s c va n pa) (need : Need) :
    checkHeap s (cuAccess s c need va n) = some (.ok [{ va, pa, len := n }]) := by
  unfold Readable InCtxWindow HeapHolds at h
  simp only [ctx_setCtx_same, setCtx_dev] at h
  obtain ⟨hn, htop, hon, hwr, hbase, hlim, hbytes, hend, -⟩ := h
  have hhome := hbytes 0 hn
  simp only [Nat.add_zero] at hhome
  have hlocal : localRange s.dev ((va + wfield (s.ctx c).heapoff 21 43 * 2 ^ 21) % 2 ^ 52) n = true := by
    simp only [localRange, isLocal, hhome, Bool.and_eq_true, decide_eq_true_eq]
    omega
  have hin : (decide (wfield (s.ctx c).heapbase 21 36 * 2 ^ 21 ≤ va) &&
      decide (va + n ≤ wfield (s.ctx c).heapbase 21 36 * 2 ^ 21 + wfield (s.ctx c).heaplen 21 31 * 2 ^ 21)) = true := by
    simp only [Bool.and_eq_true, decide_eq_true_eq]
    exact ⟨hbase, hlim⟩
  have hpiece : checkHeap s (cuAccess s c need va n) = some (if !localRange s.dev ((va + wfield (s.ctx c).heapoff 21 43 * 2 ^ 21) % 2 ^ 52) n
      then .error (5, va) else if need == .store && wfield (s.ctx c).heaplen 0 1 == 0 then .error (2, va)
      else .ok [{ va, pa := homeAddr s.dev ((va + wfield (s.ctx c).heapoff 21 43 * 2 ^ 21) % 2 ^ 52), len := n }]) :=
    (if_neg (by omega)).trans (if_pos hin)
  rw [hpiece, hlocal, hhome]
  simp [hwr]

theorem cuCheck_readable {s : State} {c va n pa : Nat} (h : Readable s c va n pa) : cuCheck s c .load va n = (s, .ok [{ va, pa, len := n }]) := by
  have htop : ¬ 2 ^ 57 ≤ va := by
    obtain ⟨hn, htop, -⟩ := h
    omega
  have hcheck : checkAccess s (cuAccess s c .load va n) = (s, .ok [{ va, pa, len := n }]) := by
    rw [checkAccess, checkHeap_window h]
    exact if_neg htop
  rw [cuCheck, hcheck]

theorem cuCheck_window {s : State} {c va n pa : Nat} (h : InCtxWindow s c va n pa) (need : Need) :
    cuCheck s c need va n = (s, .ok [{ va, pa, len := n }]) := by
  have hheap := checkHeap_window (readable_of_window h) need
  obtain ⟨hn, htop, -, -, -, -, -, -, hregs⟩ := h
  have hbar : writeBarred s c va n = false := by
    simp only [writeBarred, List.any_eq_false, Bool.and_eq_true, Bool.not_eq_true', decide_eq_true_eq]
    intro r hr
    have := hregs r hr
    cases hw : r.wr <;> simp [hw] at this ⊢
    omega
  have hcheck : checkAccess s (cuAccess s c need va n) = (s, .ok [{ va, pa, len := n }]) := by
    rw [checkAccess, hheap]
    have hlow : ¬ 2 ^ 57 ≤ va := by omega
    exact (if_neg hlow).trans (if_neg (by simp [cuAccess, hbar]))
  rw [cuCheck, hcheck]

theorem cuChecks_nil (s : State) (c : Nat) : cuChecks s c [] = (s, true) := rfl

theorem cuChecks_window {s : State} {c va n pa : Nat} (h : InCtxWindow s c va n pa) (need : Need) (l : List (Need × Nat × Nat)) :
    cuChecks s c ((need, va, n) :: l) = cuChecks s c l := by
  rw [cuChecks, cuCheck_window h]

theorem cuRead_window {s : State} {c va n pa : Nat} (h : Readable s c va n pa) : cuRead s c va n = (s, .ok (memRead s.mem pa n)) := by
  rw [cuRead, cuCheck_readable h]
  simp [readNow]

/-- What a store of words in the window leaves: they are recorded, and nothing else of the state changes but memory, where it is canonical only in
those words, and poison marks. -/
structure Stored (s t : State) (pa n : Nat) (val : Nat → Nat) : Prop where
  frame : t = { s with mem := t.mem, writes := t.writes, poison := t.poison }
  wrote : Appended s t (wordsAt pa n val)
  mem   : Memory.wf s.mem = true → Memory.wf t.mem = true ∧ ∀ a, ¬ (pa ≤ a ∧ a < pa + 8 * n) → memGet t.mem a = memGet s.mem a

theorem Stored.served {s t : State} {pa n : Nat} {val : Nat → Nat} (h : Stored s t pa n val) : Served s t where
  frame := by rw [h.frame]
  dev := ⟨[], by rw [h.frame]; simp⟩
  writes := h.wrote.imp fun _ h => h.1
  ctx := fun c => by rw [h.frame]; exact .refl (s.ctx c)

theorem Stored.ctx {s t : State} {pa n : Nat} {val : Nat → Nat} (h : Stored s t pa n val) (c : Nat) : t.ctx c = s.ctx c := by rw [h.frame]; rfl
theorem Stored.dev {s t : State} {pa n : Nat} {val : Nat → Nat} (h : Stored s t pa n val) : t.dev = s.dev := by rw [h.frame]

/-- A number in memory apart from what has been stored. -/
theorem Stored.memNat {s t : State} {pa n : Nat} {val : Nat → Nat} (h : Stored s t pa n val) (hw : Memory.wf s.mem = true) {a k : Nat}
    (ha : Apart pa (8 * n) a k) : memNat t.mem a k = memNat s.mem a k := by
  refine memNat_congr fun i hi => (h.mem hw).2 _ ?_
  unfold Apart at ha
  omega

theorem cuWrite_window {s : State} {c va pa n : Nat} {bytes : List Byte} {val : Nat → Nat} (h : InCtxWindow s c va (8 * n) pa) (hpa : pa % 4 = 0)
    (hb : WordBytes bytes n val) (sync : Option (Scope × List Nat)) :
    (cuWrite s c va bytes sync).2 = true ∧ Stored s (cuWrite s c va bytes sync).1 pa n val := by
  rw [← hb.1] at h
  rw [cuWrite, cuCheck_window h]
  refine ⟨rfl, ?_⟩
  simp only [writePieces, List.map_cons, List.map_nil, List.take_length]
  generalize (sync.map fun p => (p.1, uni p.2 (cuRels s))) = sy
  have honly := storeBytes_only s (cuView s []) ⟨.cu, 3, [], c⟩ sy va pa bytes
  refine ⟨?_, ?_, fun hw => ?_⟩
  · rw [clearPoison, honly]
  · exact (storeBytes_wrote s (cuView s []) _ sy va hpa hb).of_eq rfl
  · obtain ⟨hwf, hkeep⟩ := storeBytes_mem hw (cuView s []) ⟨.cu, 3, [], c⟩ sy va pa bytes
    have hlen := hb.1
    exact ⟨hwf, fun a ha => hkeep a (by omega)⟩

/-- An error recorded in a queue's error word that is clear (Table 4.2). -/
theorem putErr_window {s : State} {c desc da : Nat} (h : InCtxWindow s c desc 64 da) (hda : da % 4 = 0)
    (hclear : memNat s.mem (da + 32) 8 / 2 ^ 63 = 0) (code reason epos : Nat) :
    Stored s (putErr s c desc code reason epos) (da + 32) 1 fun _ => 2 ^ 63 + code * 2 ^ 56 + reason * 2 ^ 48 + epos % 2 ^ 48 := by
  have hword : InCtxWindow s c (desc + 32) 8 (da + 32) := window_part h (by decide) (by decide)
  have hbit : ¬ field (ofBytes (memRead s.mem (da + 32) 8)) 63 1 = 1 := by
    have : ofBytes (memRead s.mem (da + 32) 8) / 2 ^ 63 = 0 := hclear
    rw [field, this]
    decide
  rw [putErr, cuRead_window (readable_of_window hword)]
  simp only
  rw [if_neg hbit]
  exact (cuWrite_window (n := 1) hword (by omega) (wordBytes_toBytes _) none).2

end Sys2Proof.CommandWords
end

section
/-! PROOFS. Releases of the command unit and of retirement (R312 to R314), and completion records (R75, Table 3.12). -/

namespace Sys2Proof.Completion

open Machine Laws Safety CommandUnit CommandWords

-- Sets of identities ------------------------------------------------------------------------------------------------------------------

theorem mem_uni (a b : List Nat) (n : Nat) : n ∈ uni a b ↔ n ∈ a ∨ n ∈ b := by
  simp only [uni, List.mem_append, List.mem_filter, Bool.not_eq_true', List.contains_eq_mem, decide_eq_false_iff_not]
  tauto

/-- What folds of unions hold: the start, and every list of the fold. -/
theorem mem_foldl_uni {α : Type} (f : α → List Nat) : ∀ (l : List α) (start : List Nat) (n : Nat),
    n ∈ l.foldl (fun acc a => uni acc (f a)) start ↔ n ∈ start ∨ ∃ a ∈ l, n ∈ f a
  | [], start, n => by simp
  | a :: l, start, n => by
    rw [List.foldl_cons, mem_foldl_uni f l, mem_uni]
    simp [or_assoc]

-- Views and releases ------------------------------------------------------------------------------------------------------------------

/-- The view of a retirement: each part is a union over the groups. -/
theorem retireView_parts (s : State) (gs : List Nat) :
    let mine := (List.range s.writes.length).filter fun i =>
      match s.writes[i]? with
      | some w => (match w.party.group? with | some g => gs.contains g | none => false)
      | none => false
    (retireView s gs).own = gs.foldl (fun acc g => uni acc (s.group g).view.own) mine ∧
    (retireView s gs).know = gs.foldl (fun acc g => uni acc (uni (s.group g).view.know (s.group g).view.own)) mine ∧
    (retireView s gs).reached = gs.foldl (fun acc g => uni acc (s.group g).view.reached) [] := by
  have key : ∀ (l : List Nat) (v : MemView),
      (l.foldl (fun v g => let w := (s.group g).view
        { v with own := uni v.own w.own, know := uni v.know (uni w.know w.own), reached := uni v.reached w.reached }) v) =
      { v with
        own := l.foldl (fun acc g => uni acc (s.group g).view.own) v.own
        know := l.foldl (fun acc g => uni acc (uni (s.group g).view.know (s.group g).view.own)) v.know
        reached := l.foldl (fun acc g => uni acc (s.group g).view.reached) v.reached } := by
    intro l
    induction l with
    | nil => exact fun v => rfl
    | cons g l ih => exact fun v => ih _
  intro mine
  have hview : retireView s gs = _ := key gs { own := mine, know := mine }
  rw [hview]
  exact ⟨rfl, rfl, rfl⟩

/-- A write of one of the groups, or of a copy request of one. -/
theorem retireView_wrote {s : State} {gs : List Nat} {m g : Nat} {w : WriteRec} (hw : s.writes[m]? = some w) (hg : g ∈ gs)
    (hp : w.party = .grp g ∨ ∃ n, w.party = .eng g n) : m ∈ (retireView s gs).own ∧ m ∈ (retireView s gs).know := by
  have hgroup : w.party.group? = some g := by
    obtain h | ⟨n, h⟩ := hp <;> rw [h] <;> rfl
  obtain ⟨hlt, -⟩ := List.getElem?_eq_some_iff.1 hw
  obtain ⟨hown, hknow, -⟩ := retireView_parts s gs
  have hmine : m ∈ (List.range s.writes.length).filter fun i =>
      match s.writes[i]? with
      | some w => (match w.party.group? with | some g => gs.contains g | none => false)
      | none => false := by
    simp [hlt, (List.getElem?_eq_some_iff.1 hw).2, hgroup, hg]
  rw [hown, hknow, mem_foldl_uni, mem_foldl_uni]
  exact ⟨.inl hmine, .inl hmine⟩

theorem retireView_know {s : State} {gs : List Nat} {g m : Nat} (hg : g ∈ gs) (hm : m ∈ (s.group g).view.know) : m ∈ (retireView s gs).know := by
  rw [(retireView_parts s gs).2.1, mem_foldl_uni]
  exact .inr ⟨g, hg, (mem_uni _ _ _).2 (.inl hm)⟩

theorem retireView_reached {s : State} {gs : List Nat} {g m : Nat} (hg : g ∈ gs) (hm : m ∈ (s.group g).view.reached) :
    m ∈ (retireView s gs).reached := by
  rw [(retireView_parts s gs).2.2, mem_foldl_uni]
  exact .inr ⟨g, hg, hm⟩

theorem covers_every {s : State} {m : Nat} (h : m < s.writes.length) : covers s .every m = true := by
  simp [covers, List.getElem?_eq_getElem h]

/-- The command unit's own writes stand in its view. -/
theorem mem_cuView {s : State} {m : Nat} {w : WriteRec} (hw : s.writes[m]? = some w) (hp : w.party = .cu) : m ∈ (cuView s []).own := by
  obtain ⟨hlt, he⟩ := List.getElem?_eq_some_iff.1 hw
  simp [cuView, hlt, he, hp]

/-- A release of the command unit at system scope (R312): one more release, which covers what the view holds and the unit's own writes. -/
theorem cuRelease_eq (s : State) (v : MemView) : ∃ r : Release, cuRelease s v = ({ s with rels := s.rels ++ [r] }, s.rels.length) ∧
    r.party = .cu ∧ r.scope = .system ∧ r.acts = .every ∧
    ∀ m, m < s.writes.length → m ∈ v.own ∨ m ∈ v.reached ∨ m ∈ (cuView s []).own →
      m ∈ r.cov ∧ (m ∈ v.know ∨ m ∈ (cuView s []).own → m ∈ r.know) := by
  refine ⟨_, rfl, rfl, rfl, rfl, fun m hlt h => ⟨?_, fun hk => ?_⟩⟩
  · simp only [List.mem_filter, mem_uni, covers_every hlt, and_true]
    tauto
  · exact (mem_uni _ _ _).2 hk

-- Releases beside accesses ------------------------------------------------------------------------------------------------------------

/-- What the command unit's accesses and releases can change. -/
def Concluded (s t : State) : Prop := ∃ rs, Served { s with rels := s.rels ++ rs } t

theorem Served.withRels {s t : State} (h : Served s t) (rs : List Release) : Served { s with rels := s.rels ++ rs } { t with rels := t.rels ++ rs } where
  frame := by rw [h.frame]
  dev := h.dev
  writes := h.writes
  ctx := h.ctx

theorem concluded_served {s t : State} (h : Served s t) : Concluded s t := ⟨[], by simpa using h⟩

theorem Concluded.trans {s t u : State} (h1 : Concluded s t) (h2 : Concluded t u) : Concluded s u := by
  obtain ⟨a, ha⟩ := h1
  obtain ⟨b, hb⟩ := h2
  refine ⟨a ++ b, ?_⟩
  have h := (Served.withRels ha b).trans hb
  simpa using h

theorem concluded_cuRelease (s : State) (v : MemView) : Concluded s (cuRelease s v).1 := by
  obtain ⟨r, h, -⟩ := cuRelease_eq s v
  rw [h]
  exact ⟨[r], .refl _⟩

section
variable {s t : State} (h : Concluded s t)
include h

theorem Concluded.teams : t.teams = s.teams := by obtain ⟨_, h⟩ := h; exact h.teams
theorem Concluded.groups : t.groups = s.groups := by obtain ⟨_, h⟩ := h; exact h.groups
theorem Concluded.launches : t.launches = s.launches := by obtain ⟨_, h⟩ := h; exact h.launches
theorem Concluded.pegs : t.pegs = s.pegs := by obtain ⟨_, h⟩ := h; exact h.pegs
theorem Concluded.launch (k : Nat) : t.launch k = s.launch k := by obtain ⟨_, h⟩ := h; exact h.launch k
theorem Concluded.ctx (c : Nat) : CtxServed (s.ctx c) (t.ctx c) := by obtain ⟨_, h⟩ := h; exact h.ctx c
theorem Concluded.signals (c b : Nat) (hb : (s.ctx c).signals.getLsbD b = true) : (t.ctx c).signals.getLsbD b = true := by
  obtain ⟨_, h⟩ := h
  exact h.signals c b hb
theorem Concluded.rels : ∃ rs, t.rels = s.rels ++ rs := by
  obtain ⟨rs, h⟩ := h
  exact ⟨rs, h.rels⟩
theorem Concluded.window {c va n pa : Nat} (hw : InCtxWindow s c va n pa) : InCtxWindow t c va n pa := by
  obtain ⟨_, h⟩ := h
  exact window_served h hw

end

-- Completion records (R75) ------------------------------------------------------------------------------------------------------------

/-- A record's words, as its write puts them down: words 1 to 7, then word 0. -/
def recordWords (x : Launch) (status reason pa : Nat) : List (Nat × Nat) :=
  wordsAt (pa + 8) 7 (getAt 0 ((x.record status reason).drop 1)) ++ [(pa, (x.record status reason).headD 0)]

theorem length_record (x : Launch) (status reason : Nat) : (x.record status reason).length = 8 := by
  unfold Launch.record
  rfl

theorem concluded_writeRecord (s : State) (l status reason : Nat) (v : MemView) : Concluded s (writeRecord s l status reason v) := by
  have hsignal : ∀ {u : State} (c : Nat) (p : Bool), Concluded s u → Concluded s (if p then u else signal u c 0) := fun c p hu => by
    split
    · exact hu
    · exact hu.trans (concluded_served (served_signal _ c 0))
  unfold writeRecord
  dsimp only
  split
  · exact concluded_served (.refl s)
  refine hsignal _ _ ?_
  split
  · exact concluded_served (.trans (.then (.refl s) (served_cuCheck _ _ _ _ _) ‹_›) (served_putErr _ _ _ _ _ _))
  · have hcheck := concluded_served (.then (.refl s) (served_cuCheck _ _ _ _ _) ‹_›)
    exact ((hcheck.trans (concluded_served (served_cuWrite _ _ _ _ _))).trans (concluded_cuRelease _ _)).trans (concluded_served (served_cuWrite _ _ _ _ _))

/-- The host is signalled unless the card was posted (R75). -/
theorem writeRecord_signals {s : State} {l : Nat} (hv : (s.launch l).validCrec = true) (hp : (s.launch l).posted = false) (status reason : Nat) (v : MemView) :
    ((writeRecord s l status reason v).ctx (s.launch l).ctx).signals.getLsbD 0 = true := by
  unfold writeRecord
  simp only [hv, hp, Bool.not_true, Bool.false_eq_true, if_false]
  simp [signal]

/-- A record that its address's window takes is written whole. -/
theorem writeRecord_window {s : State} {l pa : Nat} (hv : (s.launch l).validCrec = true)
    (hw : InCtxWindow s (s.launch l).ctx (s.launch l).crec 64 pa) (hpa : pa % 4 = 0) (status reason : Nat) (v : MemView) :
    Appended s (writeRecord s l status reason v) (recordWords (s.launch l) status reason pa) := by
  generalize hx : s.launch l = x at *
  generalize hrec : x.record status reason = rec_
  have hlen : rec_.length = 8 := by rw [← hrec, length_record]
  match rec_, hlen with
  | w0 :: rest, hlen =>
    have hrest : rest.length = 7 := by simpa using hlen
    have htail : WordBytes ((rest.map (toBytes 8)).flatten) 7 (getAt 0 rest) := hrest ▸ wordBytes_flatten rest
    have h1 := (cuWrite_window (window_part hw (d := 8) (m := 56) (by decide) (by decide)) (by omega) htail none).2
    obtain ⟨r, hr, -⟩ := cuRelease_eq (cuWrite s x.ctx (x.crec + 8) ((rest.map (toBytes 8)).flatten) none).1 v
    have hw2 : InCtxWindow (cuRelease (cuWrite s x.ctx (x.crec + 8) ((rest.map (toBytes 8)).flatten) none).1 v).1 x.ctx x.crec 8 pa :=
      (concluded_cuRelease _ v).window (window_served h1.served (window_part hw (d := 0) (by decide) (by decide)))
    have h2 := fun sync => (cuWrite_window (n := 1) hw2 hpa (wordBytes_toBytes w0) sync).2
    have hrels : (cuRelease (cuWrite s x.ctx (x.crec + 8) ((rest.map (toBytes 8)).flatten) none).1 v).1.writes =
        (cuWrite s x.ctx (x.crec + 8) ((rest.map (toBytes 8)).flatten) none).1.writes := by rw [hr]
    have hall := fun sync => h1.wrote.trans ((h2 sync).wrote.from_eq hrels)
    unfold writeRecord
    simp only [hx, hv, hrec, cuCheck_window hw, Bool.not_true, Bool.false_eq_true, if_false, recordWords, List.drop_succ_cons, List.drop_zero,
      List.headD_cons, List.map_cons]
    split
    · exact hall _
    · exact (hall _).of_eq rfl

end Sys2Proof.Completion
end

section
/-! PROOFS. O51: retirement of teams and tasks (R94, R380), joins and their continuations (R96, R97), and the retirement of a launch (R75, R90, R381). -/

namespace Sys2Proof.Retirement

open Machine Laws Safety CommandUnit Kills CommandWords Completion

-- A team leaves its core (R380) -------------------------------------------------------------------------------------------------------

theorem passBaton_kept (s : State) (k : Nat) : ((passBaton s k).core k).teams = (s.core k).teams ∧ ∀ t, ((passBaton s k).team t).tlb = (s.team t).tlb := by
  have hgrant : ∀ (u : State) g, ((grantBaton u k g).core k).teams = (u.core k).teams ∧ ∀ t, ((grantBaton u k g).team t).tlb = (u.team t).tlb := by
    intro u g
    unfold grantBaton
    dsimp only
    split
    · refine ⟨by rw [core_setCore_same], fun t => ?_⟩
      rw [team_setCore]
      by_cases ht : t = (u.group g).team
      · rw [ht, team_setTeam_same]
      · rw [team_setTeam_other _ _ _ _ ht]
    · exact ⟨by rw [core_setCore_same], fun t => rfl⟩
  unfold passBaton
  dsimp only
  split
  · exact ⟨by rw [core_setCore_same], fun t => rfl⟩
  · rename_i g q _
    obtain ⟨hteams, htlb⟩ := hgrant (s.setCore k { s.core k with holder := none, queue := q }) g
    exact ⟨by rw [hteams, core_setCore_same], htlb⟩

/-- A freed team holds no slot of its core and no cached translation. -/
theorem freeTeam_gone (s : State) (t : Nat) :
    (∀ n, getAt none ((freeTeam s t).core (s.team t).core).teams n ≠ some t) ∧ ((freeTeam s t).team t).tlb = [] := by
  have hslot : ∀ (l : List (Option Nat)) n, getAt none (l.map fun x => if x == some t then none else x) n ≠ some t := by
    intro l n
    obtain h | h := getAt_mem none (l.map fun x => if x == some t then none else x) n
    · rw [h]
      simp
    · obtain ⟨x, -, hx⟩ := List.mem_map.1 h
      rw [← hx]
      split
      · simp
      · rename_i hne
        simpa using hne
  obtain ⟨c, q, f, hc, h⟩ := freeTeam_cases s t
  have hcore : ((unslotted s t c q f).core (s.team t).core).teams = c.teams := congrArg Core.teams (core_setCore_same s _ c)
  have htlb : ((unslotted s t c q f).team t).tlb = [] := by rw [unslotted, team_setTeam_same]
  obtain h | h := h <;> rw [h]
  · rw [hcore, hc]
    exact ⟨hslot _, htlb⟩
  · obtain ⟨hkeep, hkeep'⟩ := passBaton_kept (unslotted s t c q f) (s.team t).core
    rw [hkeep, hkeep', hcore, hc]
    exact ⟨hslot _, htlb⟩

/-- What a team that leaves its core makes of the machine. -/
structure Left (s : State) (t : Nat) (u : State) : Prop where
  place    : (u.team t).place = .retired
  tlb      : (u.team t).tlb = []
  slot     : ∀ n, getAt none (u.core (s.team t).core).teams n ≠ some t
  groups   : u.groups = s.groups
  launches : u.launches = s.launches
  writes   : u.writes = s.writes
  rels     : u.rels = s.rels

theorem leaveCore_left (s : State) (t : Nat) : Left s t (leaveCore s t) := by
  obtain ⟨hslot, htlb⟩ := freeTeam_gone s t
  have hframe := (freed_freeTeam s t).frame
  unfold leaveCore
  dsimp only
  refine ⟨?_, ?_, fun n => ?_, ?_, ?_, ?_, ?_⟩
  · rw [trace_team_at, team_setTeam_same]
  · rw [trace_team_at, team_setTeam_same]
    exact htlb
  · rw [trace_core_at]
    exact hslot n
  · rw [trace_groups, setTeam_groups, hframe]
  · rw [trace_launches, setTeam_launches, hframe]
  · rw [trace_writes, setTeam_writes, hframe]
  · rw [trace_rels, setTeam_rels, hframe]

/-- A team of which nothing is outstanding (R380). -/
def Finished (s : State) (t : Nat) : Prop := s.dev.status ≠ 7 ∧ (s.team t).place = .resident ∧ (∀ g ∈ (s.team t).groups, (s.group g).ended = true) ∧
  ∀ r ∈ (s.core (s.team t).core).reqs, r.team ≠ t

theorem mayRetire_of_finished {s : State} {t : Nat} (h : Finished s t) : mayRetire s t = true := by
  obtain ⟨hlive, hplace, hended, hreqs⟩ := h
  have hlive' : s.dev.status ≠ 7#3 := hlive
  simp [mayRetire, hlive', hplace]
  exact ⟨hended, hreqs⟩

theorem foldl_flags (s : State) : ∀ (l : List Nat) (f a : Flags),
    a ||| l.foldl (fun acc g => acc ||| (s.group g).flags) f = l.foldl (fun acc g => acc ||| (s.group g).flags) (a ||| f)
  | [], _, _ => rfl
  | g :: l, f, a => by rw [List.foldl_cons, List.foldl_cons, foldl_flags s l, BitVec.or_assoc]

/-- A team of a launch retires: its flags and cycles enter the launch, which counts it. -/
theorem teamRetire_counts {s : State} {team l : Nat} (hl : (s.team team).launch = some l) (h : Finished s team) :
    ∃ t, exec (.teamRetire team) s = .next t ∧ (t.team team).place = .retired ∧ (t.launch l).done = (s.launch l).done + 1 ∧
      (t.launch l).killed = (s.launch l).killed ∧
      (t.launch l).flags = (s.team team).groups.foldl (fun f g => f ||| (s.group g).flags) (s.launch l).flags ∧
      (t.launch l).maxcyc = max (s.launch l).maxcyc (s.team team).cycles ∧
      (∀ n, getAt none (t.core (s.team team).core).teams n ≠ some team) ∧ (t.team team).tlb = [] ∧
      t.groups = s.groups ∧ t.writes = s.writes ∧ t.rels = s.rels := by
  have hleft := leaveCore_left (enterUnion s l (s.team team)) team
  have hexec : exec (.teamRetire team) s = .next ((leaveCore (enterUnion s l (s.team team)) team).setLaunch l
      { (leaveCore (enterUnion s l (s.team team)) team).launch l with done := ((leaveCore (enterUnion s l (s.team team)) team).launch l).done + 1 }) := by
    have hexec : exec (.teamRetire team) s = execTeamRetire team s := rfl
    rw [hexec, execTeamRetire]
    simp only [hl, mayRetire_of_finished h, Bool.not_true, Bool.false_eq_true, if_false]
  have hlaunch : (leaveCore (enterUnion s l (s.team team)) team).launch l = (enterUnion s l (s.team team)).launch l := by
    rw [State.launch, hleft.launches]
    rfl
  refine ⟨_, hexec, hleft.place, ?_, ?_, ?_, ?_, hleft.slot, hleft.tlb, hleft.groups, hleft.writes, hleft.rels⟩
  all_goals
    simp only [launch_setLaunch_same, hlaunch]
    simp only [enterUnion, launch_setLaunch_same]
  exact (foldl_flags s (s.team team).groups 0 (s.launch l).flags).trans (congrArg (fun f => List.foldl _ f _) BitVec.or_zero)

/-- A task retires with a release of what its groups and their copies wrote (R94), and joins. -/
theorem taskRetire_releases {s : State} {team q pop : Nat} (ht : (s.team team).task = some (q, pop)) (h : Finished s team) :
    ∃ (u : State) (r : Release), exec (.taskRetire team) s = .next (joinDec u (s.team team).ctx q pop (s.team team).jaddr [s.rels.length]) ∧
      (u.team team).place = .retired ∧ u.writes = s.writes ∧ u.rels = s.rels ++ [r] ∧
      r.party = .grp ((s.team team).groups.headD 0) ∧ r.scope = .device ∧ r.acts = .ambient (s.team team).ctx ∧
      (∀ (m : Nat) (w : WriteRec) (g : Nat), s.writes[m]? = some w → g ∈ (s.team team).groups → (w.party = .grp g ∨ ∃ n, w.party = .eng g n) →
        m ∈ r.know ∧ (covers s (.ambient (s.team team).ctx) m = true → m ∈ r.cov)) ∧
      ∀ g ∈ (s.team team).groups, (∀ m ∈ (s.group g).view.know, m ∈ r.know) ∧
        ∀ m ∈ (s.group g).view.reached, covers s (.ambient (s.team team).ctx) m = true → m ∈ r.cov := by
  let v := retireView s (s.team team).groups
  let r : Release := { party := .grp ((s.team team).groups.headD 0), scope := .device, acts := .ambient (s.team team).ctx, know := v.know,
                       cov := (uni v.own v.reached).filter (covers s (.ambient (s.team team).ctx)) }
  have hleft := leaveCore_left { s with rels := s.rels ++ [r] } team
  refine ⟨leaveCore { s with rels := s.rels ++ [r] } team, r, ?_, hleft.place, hleft.writes, hleft.rels, rfl, rfl, rfl, fun m w g hw hg hp => ?_,
    fun g hg => ⟨fun m hm => retireView_know hg hm, fun m hm hc => ?_⟩⟩
  · have hexec : exec (.taskRetire team) s = execTaskRetire team s := rfl
    rw [hexec, execTaskRetire]
    simp only [ht, mayRetire_of_finished h, Bool.not_true, Bool.false_eq_true, if_false]
    rfl
  · obtain ⟨hown, hknow⟩ := retireView_wrote hw hg hp
    exact ⟨hknow, fun hc => List.mem_filter.2 ⟨(mem_uni _ _ _).2 (.inl hown), hc⟩⟩
  · exact List.mem_filter.2 ⟨(mem_uni _ _ _).2 (.inr (retireView_reached hg hm)), hc⟩

-- Joins (R96, R97) --------------------------------------------------------------------------------------------------------------------

-- The numbers of a counter's word: less one, at zero or below, and a flag.
theorem toNat_wd_pred {n : Nat} (h : n < 2 ^ 64) : (wd n - 1).toNat = (n + 2 ^ 64 - 1) % 2 ^ 64 := by
  have hone : (1 : Word).toNat = 1 := rfl
  rw [BitVec.toNat_sub, Registers.toNat_wd h, hone]
  exact congrArg (· % 2 ^ 64) (by omega)

theorem toInt_wd_nonpos {n : Nat} (h : n < 2 ^ 64) : (wd n).toInt ≤ 0 ↔ n = 0 ∨ 2 ^ 63 ≤ n := by
  rw [BitVec.toInt_eq_toNat_cond, Registers.toNat_wd h]
  split <;> omega

theorem wd_pred_eq_zero {n : Nat} (h : n < 2 ^ 64) : wd n - 1 = 0 ↔ n = 1 := by
  have hone : wd 1 = 1 := rfl
  rw [sub_eq_zero, ← hone, ← BitVec.toNat_inj, Registers.toNat_wd h, Registers.toNat_wd (by decide)]

theorem topBit_iff (m : List Host.Cell) (a : Nat) : wfield (wd (memNat m a 8)) 63 1 = 1 ↔ memNat m a 8 / 2 ^ 63 = 1 := by
  have hlt := memNat_lt m a
  rw [wfield_memWord]
  omega

/-- The releases that a fold over writes takes from their synchronisation. -/
theorem mem_foldl_sync (n : Nat) : ∀ (l : List (Nat × WriteRec)) (acc : List Nat),
    (n ∈ acc ∨ ∃ p ∈ l, ∃ sc rels, p.2.sync = some (sc, rels) ∧ n ∈ rels) →
    n ∈ l.foldl (fun acc (_, w) => match w.sync with | some (_, r) => uni acc r | none => acc) acc
  | [], acc, h => by simpa using h
  | (i, w) :: l, acc, h => by
    rw [List.foldl_cons]
    refine mem_foldl_sync n l _ ?_
    obtain h | ⟨p, hp, sc, rels, hs, hn⟩ := h
    · refine .inl ?_
      dsimp only
      split
      · exact (mem_uni _ _ _).2 (.inl h)
      · exact h
    · obtain rfl | hp := List.mem_cons.1 hp
      · refine .inl ?_
        dsimp only at hs ⊢
        rw [hs]
        exact (mem_uni _ _ _).2 (.inr hn)
      · exact .inr ⟨p, hp, sc, rels, hs, hn⟩

/-- The state after a join counter's decrement. -/
def decremented (s : State) (c j pa : Nat) (rels : List Nat) : State :=
  (atomicWrite s (cuView s rels) .cu c .device j pa (toBytes 8 ((memNat s.mem pa 8 + 2 ^ 64 - 1) % 2 ^ 64))).1

theorem decremented_wrote (s : State) (c j pa : Nat) (rels : List Nat) : ∃ l, (decremented s c j pa rels).writes = s.writes ++ l ∧
    Wrote l [(pa, (memNat s.mem pa 8 + 2 ^ 64 - 1) % 2 ^ 64)] ∧ ∀ r ∈ l, r.sync = some (.device, rels) := atomicWrite_wrote _ _ _ _ _ _ _ _

theorem decremented_stored (s : State) (c j pa : Nat) (rels : List Nat) :
    Stored s (decremented s c j pa rels) pa 1 fun _ => (memNat s.mem pa 8 + 2 ^ 64 - 1) % 2 ^ 64 := by
  have honly : WritesOnly s (decremented s c j pa rels) := atomicWrite_only _ _ _ _ _ _ _ _
  refine ⟨?_, ?_, fun hw => ?_⟩
  · unfold WritesOnly at honly
    rw [honly]
  · obtain ⟨l, hl, hwrote, -⟩ := decremented_wrote s c j pa rels
    exact ⟨l, hl, hwrote⟩
  · obtain ⟨hwf, hkeep⟩ := atomicWrite_mem hw (cuView s rels) .cu c .device j pa (toBytes 8 ((memNat s.mem pa 8 + 2 ^ 64 - 1) % 2 ^ 64))
    rw [length_toBytes] at hkeep
    exact ⟨hwf, hkeep⟩

/-- The releases of a decrement are among those that the counter's word carries. -/
theorem mem_relsOfWord_decremented (s : State) (c j pa : Nat) (rels : List Nat) {n : Nat} (hpa : pa % 4 = 0) (hn : n ∈ rels) :
    n ∈ relsOfWord (decremented s c j pa rels) (pa / 4 * 4) := by
  obtain ⟨l, hl, ⟨hlen, hword⟩, hsync⟩ := decremented_wrote s c j pa rels
  have hlen : l.length = 2 := hlen
  have hzero : 0 < l.length := by omega
  have hrec := (hword 0 l[0] (List.getElem?_eq_getElem hzero)).1
  have hrel := hsync l[0] (List.getElem_mem hzero)
  have hmem : (s.writes.length, l[0]) ∈ writesTo (decremented s c j pa rels) (pa / 4 * 4) := by
    refine List.mem_filter.2 ⟨?_, ?_⟩
    · rw [hl]
      refine List.mem_iff_getElem.2 ⟨s.writes.length, by simp; omega, by simp⟩
    · have hpa4 : pa = pa / 4 * 4 := by omega
      simp only [beq_iff_eq, hrec]
      exact hpa4
  exact mem_foldl_sync n _ _ (.inr ⟨_, hmem, _, _, hrel, hn⟩)

section
variable {s : State} {c j pa : Nat} (hj : j ≠ 0) (hcount : InCtxWindow s c j 8 pa) (hobj : Readable s c j 256 pa) (q pop : Nat) (rels : List Nat)
include hj hcount hobj

/-- A join whose counter is at zero or below, or whose new value starts no continuation. -/
theorem joinDec_decremented :
    (memNat s.mem pa 8 = 0 ∨ 2 ^ 63 ≤ memNat s.mem pa 8 →
      joinDec s c q pop j rels = putErr (decremented s c j pa rels) c ((s.ctx c).taskDesc q) 0x21 0 pop) ∧
    ((1 < memNat s.mem pa 8 ∧ memNat s.mem pa 8 < 2 ^ 63) ∨ (memNat s.mem pa 8 = 1 ∧ memNat s.mem (pa + 8) 8 / 2 ^ 63 = 0) →
      joinDec s c q pop j rels = decremented s c j pa rels) := by
  have hlt := memNat_lt s.mem pa
  have hw0 : getAt 0 (wordsOf (memRead s.mem pa 256)) 0 = wd (memNat s.mem pa 8) := wordsOf_memRead s.mem pa 256 0 (by decide)
  have hw1 : getAt 0 (wordsOf (memRead s.mem pa 256)) 1 = wd (memNat s.mem (pa + 8) 8) := wordsOf_memRead s.mem pa 256 1 (by decide)
  have hint := toInt_wd_nonpos hlt
  have hpred := wd_pred_eq_zero hlt
  have htop := topBit_iff s.mem (pa + 8)
  rw [joinDec, if_neg hj]
  simp only [cuCheck_window hcount, cuRead_window hobj, hw0, hw1, toNat_wd_pred hlt, List.head?_cons]
  refine ⟨fun h => if_pos (hint.2 h), fun h => ?_⟩
  have hpos : ¬ (memNat s.mem pa 8 = 0 ∨ 2 ^ 63 ≤ memNat s.mem pa 8) := by omega
  rw [if_neg (fun h => hpos (hint.1 h)), if_neg]
  · rfl
  · simp only [Bool.and_eq_true, decide_eq_true_eq]
    rw [hpred, htop]
    omega

section
variable {cq da : Nat} (hone : memNat s.mem pa 8 = 1) (hcont : memNat s.mem (pa + 8) 8 / 2 ^ 63 = 1)
  (hcq : memNat s.mem (pa + 8) 8 % 8 = cq) (hda : InCtxWindow s c ((s.ctx c).taskDesc cq) 64 da)
include hone hcont hcq hda

/-- A join that takes its counter to zero where it has a continuation: pushed where the queue has space and no pend list, else put at the end of
that list. -/
theorem joinDec_continued :
    let d := fun (k : Nat) => memNat s.mem (da + 8 * k) 8
    (d 2 - d 3 < 2 ^ (d 1 % 2 ^ 5) → d 5 % 2 ^ 57 = 0 → ∀ sa, InCtxWindow s c (d 0 % 2 ^ 57 + 128 * (d 2 % 2 ^ (d 1 % 2 ^ 5))) 128 sa →
      joinDec s c q pop j rels = pushTask (decremented s c j pa rels) c cq (d 2) (d 0 % 2 ^ 57) (d 1 % 2 ^ 5) (memRead s.mem (pa + 128) 128)
        (relsOfWord (decremented s c j pa rels) (pa / 4 * 4))) ∧
    (2 ^ (d 1 % 2 ^ 5) ≤ d 2 - d 3 → d 5 % 2 ^ 57 = 0 → joinDec s c q pop j rels =
      (cuWrite (pendMark (decremented s c j pa rels) c j q pop) c ((s.ctx c).taskDesc cq + 40) (toBytes 8 j) none).1) ∧
    (d 5 % 2 ^ 57 ≠ 0 → ∀ last la, pendTail s c (2 ^ 50) (d 5 % 2 ^ 57) = (s, some last) → InCtxWindow s c (last + 16) 8 la →
      joinDec s c q pop j rels = (cuWrite (pendMark (decremented s c j pa rels) c j q pop) c (last + 16) (toBytes 8 j) none).1) := by
  intro d
  have hlt := memNat_lt s.mem pa
  have hw0 : getAt 0 (wordsOf (memRead s.mem pa 256)) 0 = wd (memNat s.mem pa 8) := wordsOf_memRead s.mem pa 256 0 (by decide)
  have hw1 : getAt 0 (wordsOf (memRead s.mem pa 256)) 1 = wd (memNat s.mem (pa + 8) 8) := wordsOf_memRead s.mem pa 256 1 (by decide)
  have hpos : ¬ (wd (memNat s.mem pa 8)).toInt ≤ 0 := fun h => by
    have := (toInt_wd_nonpos hlt).1 h
    omega
  have hzero : (decide (wd (memNat s.mem pa 8) - 1 = 0) && decide (wfield (wd (memNat s.mem (pa + 8) 8)) 63 1 = 1)) = true := by
    rw [Bool.and_eq_true, decide_eq_true_eq, decide_eq_true_eq, wd_pred_eq_zero hlt, topBit_iff]
    exact ⟨hone, hcont⟩
  have hqueue : wfield (wd (memNat s.mem (pa + 8) 8)) 0 3 = cq := by
    rw [wfield_memWord, pow_zero, Nat.div_one]
    exact hcq
  have hd : ∀ k, k < 8 → getAt 0 (wordsOf (memRead s.mem da 64)) k = wd (d k) := fun k hk => wordsOf_memRead s.mem da 64 k (by omega)
  have hnat : ∀ k, (wd (d k)).toNat = d k := fun k => toNat_memWord _ _
  have hfield : ∀ k n, wfield (wd (d k)) 0 n = d k % 2 ^ n := fun k n => by
    rw [wfield_memWord, pow_zero, Nat.div_one]
  have hrecord : (memRead s.mem pa 256).drop 128 = memRead s.mem (pa + 128) 128 := by
    rw [← memRead_part s.mem pa 256 128 128 (by decide), List.take_of_length_le (by simp [length_memRead])]
  have hwaits : (decide (d 2 - d 3 ≥ 2 ^ (d 1 % 2 ^ 5)) || decide (d 5 % 2 ^ 57 ≠ 0)) = true ↔
      2 ^ (d 1 % 2 ^ 5) ≤ d 2 - d 3 ∨ d 5 % 2 ^ 57 ≠ 0 := by
    rw [Bool.or_eq_true, decide_eq_true_eq, decide_eq_true_eq]
  rw [joinDec, if_neg hj]
  simp only [cuCheck_window hcount, cuRead_window hobj, hw0, hw1, toNat_wd_pred hlt, List.head?_cons, if_neg hpos, if_pos hzero, hqueue,
    cuRead_window (readable_of_window hda), hd 0 (by decide), hd 1 (by decide), hd 2 (by decide), hd 3 (by decide), hd 5 (by decide), hnat, hfield]
  refine ⟨fun hroom hnone sa hsa => ?_, fun hfull hnone => ?_, fun hsome last la htail hla => ?_⟩
  · have hword : InCtxWindow s c ((s.ctx c).taskDesc cq + 16) 8 (da + 16) := window_part hda (by decide) (by decide)
    rw [if_neg (fun h => (hwaits.1 h).elim (not_le.2 hroom) (fun h => h hnone)), cuChecks_window hsa, cuChecks_window hword, cuChecks_nil, hrecord]
    rfl
  · have hword : InCtxWindow s c ((s.ctx c).taskDesc cq + 40) 8 (da + 40) := window_part hda (by decide) (by decide)
    rw [if_pos (hwaits.2 (.inl hfull)), if_pos hnone, cuChecks_window hword, cuChecks_nil]
    rfl
  · rw [if_pos (hwaits.2 (.inr hsome)), if_neg hsome, htail]
    simp only
    rw [cuChecks_window hla, cuChecks_nil]
    rfl

end
end

/-- A record put into a slot of a task queue whose ring and descriptor lie in the window. -/
theorem pushTask_window {s : State} {c q head qbase qlog2 sa da : Nat} {record : List Byte} {val : Nat → Nat}
    (hsa : InCtxWindow s c (qbase + 128 * (head % 2 ^ qlog2)) 128 sa) (hsa4 : sa % 4 = 0) (hda : InCtxWindow s c ((s.ctx c).taskDesc q) 64 da)
    (hda4 : da % 4 = 0) (hb : WordBytes record 16 val) (rels : List Nat) :
    Appended s (pushTask s c q head qbase qlog2 record rels) (wordsAt sa 16 val ++ [(da + 16, head + 1)]) ∧
      ((pushTask s c q head qbase qlog2 record rels).ctx c).taskRels = (s.ctx c).taskRels ++ rels.map (fun r => (q, head, r)) ∧
      ((pushTask s c q head qbase qlog2 record rels).ctx c).pendBy = (s.ctx c).pendBy := by
  have h1 := (cuWrite_window (n := 16) hsa hsa4 hb none).2
  have hword : InCtxWindow s c ((s.ctx c).taskDesc q + 16) 8 (da + 16) := window_part hda (by decide) (by decide)
  have h2 := (cuWrite_window (n := 1) (window_served h1.served hword) (by omega) (wordBytes_toBytes (head + 1)) (some (.device, rels))).2
  have hctx := (h2.ctx c).trans (h1.ctx c)
  have htask := congrArg Ctx.taskRels hctx
  have hpend := congrArg Ctx.pendBy hctx
  refine ⟨(h1.wrote.trans h2.wrote).of_eq rfl, ?_, ?_⟩
  · rw [pushTask, ctx_setCtx_same]
    exact congrArg (· ++ rels.map fun r => (q, head, r)) htask
  · rw [pushTask, ctx_setCtx_same]
    exact hpend

/-- One object of a pend list read. -/
theorem pendTail_step {s : State} {c fuel j pa : Nat} (h : InCtxWindow s c (j + 16) 8 pa) : pendTail s c (fuel + 1) j =
    if memNat s.mem pa 8 % 2 ^ 57 = 0 then (s, some j) else pendTail s c fuel (memNat s.mem pa 8 % 2 ^ 57) := by
  rw [pendTail, cuRead_window (readable_of_window h)]
  rfl

/-- A pend list read to its end, where the fuel is more than the objects before the last. -/
theorem pendTail_chain {s : State} {c : Nat} {last : Nat × Nat} (hend : memNat s.mem last.2 8 % 2 ^ 57 = 0) (chain : List (Nat × Nat)) :
    ∀ fuel j : Nat, chain.length < fuel →
    ((chain ++ [last]).head?.map Prod.fst) = some j → (∀ p ∈ chain ++ [last], p.1 ≠ 0 ∧ InCtxWindow s c (p.1 + 16) 8 p.2) →
    (∀ (i : Nat) (p n : Nat × Nat), (chain ++ [last])[i]? = some p → (chain ++ [last])[i + 1]? = some n → memNat s.mem p.2 8 % 2 ^ 57 = n.1) →
    pendTail s c fuel j = (s, some last.1) := by
  induction chain with
  | nil =>
    intro fuel j hfuel hhead hin _
    obtain ⟨fuel, rfl⟩ := Nat.exists_eq_succ_of_ne_zero (Nat.ne_of_gt (Nat.lt_of_le_of_lt (Nat.zero_le _) hfuel))
    have hj : last.1 = j := by simpa using hhead
    obtain ⟨-, hw⟩ := hin last (by simp)
    rw [← hj, Nat.succ_eq_add_one, pendTail_step hw, if_pos hend]
  | cons p chain ih =>
    intro fuel j hfuel hhead hin hnext
    obtain ⟨fuel, rfl⟩ := Nat.exists_eq_succ_of_ne_zero (Nat.ne_of_gt (Nat.lt_of_le_of_lt (Nat.zero_le _) hfuel))
    have hj : p.1 = j := by simpa using hhead
    obtain ⟨-, hw⟩ := hin p (by simp)
    obtain ⟨n, rest, hrest⟩ : ∃ n rest, chain ++ [last] = n :: rest := List.exists_cons_of_ne_nil (by simp)
    have hlink : memNat s.mem p.2 8 % 2 ^ 57 = n.1 := hnext 0 p n rfl (by rw [List.cons_append, hrest]; rfl)
    obtain ⟨hne, -⟩ := hin n (by rw [List.cons_append, hrest]; simp)
    rw [← hj, Nat.succ_eq_add_one, pendTail_step hw, hlink, if_neg hne]
    exact ih fuel n.1 (Nat.lt_of_succ_lt_succ hfuel) (by rw [hrest]; rfl) (fun p hp => hin p (List.mem_cons_of_mem _ hp)) fun i => hnext (i + 1)

/-- The write that puts an object into a pend list, beside the mark of the task that put it there. -/
theorem pendWrite_window {s : State} {c va pa : Nat} (h : InCtxWindow s c va 8 pa) (hpa : pa % 4 = 0) (j q pop : Nat) :
    Appended s (cuWrite (pendMark s c j q pop) c va (toBytes 8 j) none).1 [(pa, j)] ∧
      (j, q, pop) ∈ ((cuWrite (pendMark s c j q pop) c va (toBytes 8 j) none).1.ctx c).pendBy := by
  have hw := (cuWrite_window (n := 1) (window_served (served_pendMark s c j q pop) h) hpa (wordBytes_toBytes j) none).2
  refine ⟨hw.wrote.from_eq rfl, ?_⟩
  rw [hw.ctx, pendMark, ctx_setCtx_same]
  simp

/-- A join (R97): its decrement, the error of a counter at zero or below, and what becomes of the continuation of one that reaches zero. -/
theorem joinDec_writes {s : State} {c q pop j : Nat} {rels : List Nat} {pa : Nat} (hj : j ≠ 0) (hcount : InCtxWindow s c j 8 pa)
    (hobj : Readable s c j 256 pa) (hpa : pa % 4 = 0) (hwf : Memory.wf s.mem = true) :
    let t := joinDec s c q pop j rels
    let old := memNat s.mem pa 8
    let w1 := memNat s.mem (pa + 8) 8
    let cq := w1 % 8
    let dec := [(pa, (old + 2 ^ 64 - 1) % 2 ^ 64)]
    ((1 < old ∧ old < 2 ^ 63) ∨ (old = 1 ∧ w1 / 2 ^ 63 = 0) → ∃ l, t.writes = s.writes ++ l ∧ Wrote l dec ∧
      ∀ r ∈ l, r.sync = some (.device, rels)) ∧
    (old = 0 ∨ 2 ^ 63 ≤ old → ∀ ma, InCtxWindow s c ((s.ctx c).taskDesc q) 64 ma → ma % 4 = 0 → Apart pa 8 ma 64 →
      memNat s.mem (ma + 32) 8 / 2 ^ 63 = 0 → Appended s t (dec ++ [(ma + 32, 2 ^ 63 + 0x21 * 2 ^ 56 + pop % 2 ^ 48)])) ∧
    (old = 1 → w1 / 2 ^ 63 = 1 → ∀ da, InCtxWindow s c ((s.ctx c).taskDesc cq) 64 da → da % 4 = 0 →
      let d := fun (k : Nat) => memNat s.mem (da + 8 * k) 8
      let log2 := d 1 % 2 ^ 5
      (d 2 - d 3 < 2 ^ log2 → d 5 % 2 ^ 57 = 0 → ∀ sa, InCtxWindow s c (d 0 % 2 ^ 57 + 128 * (d 2 % 2 ^ log2)) 128 sa → sa % 4 = 0 →
        Appended s t (dec ++ wordsAt sa 16 (fun k => memNat s.mem (pa + 128 + 8 * k) 8) ++ [(da + 16, d 2 + 1)]) ∧
          ∀ n ∈ rels, (cq, d 2, n) ∈ (t.ctx c).taskRels) ∧
      (d 5 % 2 ^ 57 ≠ 0 → ∀ last la, pendTail s c (2 ^ 50) (d 5 % 2 ^ 57) = (s, some last) → InCtxWindow s c (last + 16) 8 la → la % 4 = 0 →
        Appended s t (dec ++ [(la, j)]) ∧ (j, q, pop) ∈ (t.ctx c).pendBy) ∧
      (2 ^ log2 ≤ d 2 - d 3 → d 5 % 2 ^ 57 = 0 → Appended s t (dec ++ [(da + 40, j)]) ∧ (j, q, pop) ∈ (t.ctx c).pendBy)) := by
  intro t old w1 cq dec
  have hdec := decremented_stored s c j pa rels
  obtain ⟨hunder, hplain⟩ := joinDec_decremented hj hcount hobj q pop rels
  refine ⟨fun h => ?_, fun h ma hma hma4 hapart hclear => ?_, fun hone hcont da hda hda4 => ?_⟩
  · have ht : t = decremented s c j pa rels := hplain h
    rw [ht]
    exact decremented_wrote s c j pa rels
  · have ht : t = putErr (decremented s c j pa rels) c ((s.ctx c).taskDesc q) 0x21 0 pop := hunder h
    have hclear' : memNat (decremented s c j pa rels).mem (ma + 32) 8 / 2 ^ 63 = 0 := by
      rw [hdec.memNat hwf (by unfold Apart at hapart ⊢; omega)]
      exact hclear
    rw [ht]
    exact hdec.wrote.trans (putErr_window (window_served hdec.served hma) hma4 hclear' 0x21 0 pop).wrote
  · obtain ⟨hpush, hhead, htail⟩ := joinDec_continued hj hcount hobj q pop rels hone hcont rfl hda
    refine ⟨fun hroom hnone sa hsa hsa4 => ?_, fun hsome last la hend hla hla4 => ?_, fun hfull hnone => ?_⟩
    · have ht : t = _ := hpush hroom hnone sa hsa
      have hda' := window_served hdec.served hda
      rw [← hdec.ctx c] at hda'
      obtain ⟨hwrote, hrels, -⟩ := pushTask_window (window_served hdec.served hsa) hsa4 hda' hda4 (wordBytes_memRead s.mem (pa + 128) 16)
        (relsOfWord (decremented s c j pa rels) (pa / 4 * 4))
      rw [ht, List.append_assoc, hrels]
      refine ⟨hdec.wrote.trans hwrote, fun n hn => List.mem_append_right _ (List.mem_map.2 ⟨n, ?_, rfl⟩)⟩
      exact mem_relsOfWord_decremented s c j pa rels hpa hn
    · have ht : t = _ := htail hsome last la hend hla
      obtain ⟨hwrote, hmark⟩ := pendWrite_window (window_served hdec.served hla) hla4 j q pop
      rw [ht]
      exact ⟨hdec.wrote.trans hwrote, hmark⟩
    · have ht : t = _ := hhead hfull hnone
      have hword : InCtxWindow s c ((s.ctx c).taskDesc cq + 40) 8 (da + 40) := window_part hda (by decide) (by decide)
      obtain ⟨hwrote, hmark⟩ := pendWrite_window (window_served hdec.served hword) (by omega) j q pop
      rw [ht]
      exact ⟨hdec.wrote.trans hwrote, hmark⟩

end Sys2Proof.Retirement
end

section
/-! PROOFS. The peg board (R86 to R90, Table 4.5): what changes to its entries leave in each, whatever their ages. -/

namespace Sys2Proof.PegBoard

open Machine Laws Safety

-- Entries without their ages ----------------------------------------------------------------------------------------------------------

/-- An entry of the board whatever its age. -/
def ageless (p : Peg) : Peg := { p with age := 0 }

def pegShape (s : State) (c n : Nat) : Option Peg := (pegAt s c n).map ageless

theorem pegAt_keys {s : State} {c n : Nat} {p : Peg} (h : pegAt s c n = some p) : p.ctx = c ∧ p.tile = n := by
  have hkeys := List.find?_some h
  simpa using hkeys

theorem pegShape_none {s : State} {c n : Nat} : pegShape s c n = none ↔ pegAt s c n = none := Option.map_eq_none_iff

theorem pegShape_of_some {s : State} {c n : Nat} {p : Peg} (h : pegAt s c n = some p) : pegShape s c n = some (ageless p) := by rw [pegShape, h]; rfl

theorem exists_of_pegShape {s : State} {c n : Nat} {p : Peg} (h : pegShape s c n = some p) : ∃ q, pegAt s c n = some q ∧ ageless q = p :=
  Option.map_eq_some_iff.1 h

/-- What changes of the board's entries can change. -/
def PegsOnly (s t : State) : Prop := t = { s with clock := t.clock, pegs := t.pegs }

theorem PegsOnly.refl (s : State) : PegsOnly s s := rfl

theorem PegsOnly.trans {s t u : State} (h1 : PegsOnly s t) (h2 : PegsOnly t u) : PegsOnly s u := by
  unfold PegsOnly at *
  rw [h1] at h2
  simpa using h2

theorem pegsOnly_setPeg (s : State) (p : Peg) : PegsOnly s (setPeg s p) := rfl

-- One entry's change, and folds of them -----------------------------------------------------------------------------------------------

theorem pegAt_setPeg (s : State) (p : Peg) (c n : Nat) :
    pegAt (setPeg s p) c n = (pegAt s c n).map fun q => if q.ctx == p.ctx && q.tile == p.tile then { p with age := s.clock + 1 } else q := by
  have hkeys : (fun q : Peg => q.ctx == c && q.tile == n) ∘ (fun q => if q.ctx == p.ctx && q.tile == p.tile then { p with age := s.clock + 1 } else q) =
      fun q => q.ctx == c && q.tile == n := funext fun q => by
    rw [Function.comp_apply]
    split
    · rename_i h
      simp only [Bool.and_eq_true, beq_iff_eq] at h
      rw [h.1, h.2]
    · rfl
  rw [pegAt, setPeg, List.find?_map, hkeys]
  rfl

/-- A step that changes the entry of a tile by f where there is one. -/
structure PegStep (c n : Nat) (f : Peg → Peg) (s t : State) : Prop where
  only  : PegsOnly s t
  shape : ∀ m, pegShape t c m = (pegShape s c m).map fun p => if m = n then f p else p

theorem pegStep_setPeg {s : State} {c n : Nat} {p : Peg} {f : Peg → Peg} (h : pegAt s c n = some p) (hf : ∀ q, ageless (f q) = f (ageless q))
    (hctx : (f p).ctx = p.ctx) (htile : (f p).tile = p.tile) : PegStep c n f s (setPeg s (f p)) := by
  obtain ⟨hc, hn⟩ := pegAt_keys h
  refine ⟨rfl, fun m => ?_⟩
  rw [pegShape, pegAt_setPeg, pegShape]
  cases hm : pegAt s c m with
  | none => rfl
  | some q =>
    obtain ⟨hqc, hqm⟩ := pegAt_keys hm
    by_cases hmn : m = n
    · subst hmn
      obtain rfl : p = q := Option.some.inj (h.symm.trans hm)
      have hkeys : (p.ctx == (f p).ctx && p.tile == (f p).tile) = true := by rw [hctx, htile]; simp
      rw [Option.map_some, Option.map_some, Option.map_some, Option.map_some, if_pos hkeys, if_pos rfl, ← hf p]
      rfl
    · simp [htile, hn, hqm, hmn]

theorem pegStep_id {s : State} {c n : Nat} {f : Peg → Peg} (h : ∀ p, pegAt s c n = some p → f (ageless p) = ageless p) : PegStep c n f s s := by
  refine ⟨rfl, fun m => ?_⟩
  rw [pegShape]
  cases hm : pegAt s c m with
  | none => rfl
  | some q =>
    by_cases hmn : m = n
    · subst hmn
      simp [h q hm]
    · simp [hmn]

/-- A fold of such steps changes each entry by f as often as its tile occurs. -/
theorem pegFold {c : Nat} {f : Peg → Peg} {step : State → Nat → State} (hstep : ∀ s n, PegStep c n f s (step s n)) : ∀ (l : List Nat) (s : State),
    PegsOnly s (l.foldl step s) ∧ ∀ m, pegShape (l.foldl step s) c m = (pegShape s c m).map f^[l.count m]
  | [], s => ⟨.refl s, fun m => by simp⟩
  | n :: l, s => by
    obtain ⟨honly, hshape⟩ := pegFold hstep l (step s n)
    refine ⟨(hstep s n).only.trans honly, fun m => ?_⟩
    rw [List.foldl_cons, hshape, (hstep s n).shape, Option.map_map]
    by_cases hmn : m = n
    · subst hmn
      rw [List.count_cons_self, Function.iterate_succ]
      exact congrArg (Option.map · _) (funext fun p => by simp)
    · rw [List.count_cons_of_ne (Ne.symm hmn)]
      exact congrArg (Option.map · _) (funext fun p => by simp [hmn])

-- Reservations (R88) ------------------------------------------------------------------------------------------------------------------

theorem iterate_count_add (k : Nat) (p : Peg) : (fun q : Peg => { q with count := q.count + 1 })^[k] p = { p with count := p.count + k } := by
  induction k generalizing p with
  | zero => rfl
  | succ k ih => rw [Function.iterate_succ_apply, ih, Nat.add_right_comm]; rfl

theorem iterate_count_sub (k : Nat) (p : Peg) : (fun q : Peg => { q with count := q.count - 1 })^[k] p = { p with count := p.count - k } := by
  induction k generalizing p with
  | zero => rfl
  | succ k ih => rw [Function.iterate_succ_apply, ih, Nat.sub_sub, Nat.add_comm 1 k]

/-- A launch's reservations go from each entry as often as it holds one. -/
theorem dropReservations_pegs (s : State) (x : Launch) : PegsOnly s (dropReservations s x) ∧
    ∀ m, pegShape (dropReservations s x) x.ctx m = (pegShape s x.ctx m).map fun p => { p with count := p.count - x.held.count m } := by
  have hstep : ∀ (u : State) n, PegStep x.ctx n (fun q : Peg => { q with count := q.count - 1 }) u
      (match pegAt u x.ctx n with | some p => setPeg u { p with count := p.count - 1 } | none => u) := fun u n => by
    cases hn : pegAt u x.ctx n with
    | none => exact pegStep_id fun p hp => by rw [hn] at hp; cases hp
    | some p => exact pegStep_setPeg (f := fun q : Peg => { q with count := q.count - 1 }) hn (fun _ => rfl) rfl rfl
  obtain ⟨honly, hshape⟩ := pegFold hstep x.held s
  refine ⟨honly, fun m => (hshape m).trans (congrArg (Option.map · _) (funext fun p => iterate_count_sub _ p))⟩

-- Retirement (Table 4.5) --------------------------------------------------------------------------------------------------------------

/-- An entry after the retirement of a card's launch. -/
def retiredPeg (card : List Word) (rel : Nat) (p : Peg) : Peg :=
  match outGen card p.tile with
  | some x => if !p.set || gdiff x p.gen > 0 then { p with gen := x, set := true, rels := [rel] } else p
  | none => p

theorem gdiff_self (x : Nat) : gdiff x x = 0 := by
  rw [gdiff, sub_self]
  rfl

theorem ageless_retiredPeg (card : List Word) (rel : Nat) (p : Peg) : ageless (retiredPeg card rel p) = retiredPeg card rel (ageless p) := by
  have hkeep : retiredPeg card rel (ageless p) = match outGen card p.tile with
      | some x => if !p.set || gdiff x p.gen > 0 then { ageless p with gen := x, set := true, rels := [rel] } else ageless p
      | none => ageless p := rfl
  rw [hkeep, retiredPeg]
  split
  · split <;> rfl
  · rfl

theorem retiredPeg_tile (card : List Word) (rel : Nat) (p : Peg) : (retiredPeg card rel p).tile = p.tile ∧ (retiredPeg card rel p).ctx = p.ctx ∧
    (retiredPeg card rel p).count = p.count := by
  unfold retiredPeg
  split
  · split <;> exact ⟨rfl, rfl, rfl⟩
  · exact ⟨rfl, rfl, rfl⟩

/-- An entry that is unset, or older than the card's generation for its tile. -/
theorem retiredPeg_newer {card : List Word} {p : Peg} {x : Nat} (hx : outGen card p.tile = some x) (hnew : p.set = false ∨ 0 < gdiff x p.gen)
    (rel : Nat) : retiredPeg card rel p = { p with gen := x, set := true, rels := [rel] } := by
  have hcond : (!p.set || decide (gdiff x p.gen > 0)) = true := by
    obtain hnew | hnew := hnew <;> simp [hnew]
  rw [retiredPeg, hx]
  exact if_pos hcond

/-- An entry that no range covers, or that is set at the card's generation or a newer one. -/
theorem retiredPeg_kept {card : List Word} {p : Peg} (h : outGen card p.tile = none ∨ p.set = true ∧ ∀ x, outGen card p.tile = some x → gdiff x p.gen ≤ 0)
    (rel : Nat) : retiredPeg card rel p = p := by
  cases hx : outGen card p.tile with
  | none => rw [retiredPeg, hx]
  | some x =>
    obtain h | ⟨hset, hle⟩ := h
    · rw [hx] at h
      cases h
    · have hle := hle x hx
      rw [retiredPeg, hx]
      exact if_neg (by simp [hset, hle])

theorem retiredPeg_twice (card : List Word) (rel : Nat) (p : Peg) : retiredPeg card rel (retiredPeg card rel p) = retiredPeg card rel p := by
  by_cases h : outGen card p.tile = none ∨ p.set = true ∧ ∀ x, outGen card p.tile = some x → gdiff x p.gen ≤ 0
  · rw [retiredPeg_kept h, retiredPeg_kept h]
  · cases hx : outGen card p.tile with
    | none => exact absurd (.inl hx) h
    | some x =>
      have hnew : p.set = false ∨ 0 < gdiff x p.gen := by
        by_contra hold
        obtain ⟨hset, hle⟩ := not_or.1 hold
        refine h (.inr ⟨by simpa using hset, fun y hy => ?_⟩)
        rw [hx] at hy
        rw [← Option.some.inj hy]
        omega
      rw [retiredPeg_newer hx hnew]
      refine retiredPeg_kept (.inr ⟨rfl, fun y hy => ?_⟩) rel
      obtain rfl : x = y := Option.some.inj (hx.symm.trans hy)
      rw [gdiff_self]

theorem iterate_retiredPeg (card : List Word) (rel : Nat) (p : Peg) : ∀ k, 0 < k → (retiredPeg card rel)^[k] p = retiredPeg card rel p
  | 1, _ => rfl
  | k + 2, _ => by rw [Function.iterate_succ_apply, iterate_retiredPeg card rel _ (k + 1) (Nat.succ_pos k), retiredPeg_twice]

/-- A retirement changes each entry of its context as the card's ranges say. -/
theorem retirePegs_pegs (s : State) (c : Nat) (card : List Word) (rel : Nat) : PegsOnly s (retirePegs s c card rel) ∧
    ∀ m, pegShape (retirePegs s c card rel) c m = (pegShape s c m).map (retiredPeg card rel) := by
  have hstep : ∀ (u : State) n, PegStep c n (retiredPeg card rel) u (match pegAt u c n, outGen card n with
      | some p, some x => if !p.set || gdiff x p.gen > 0 then setPeg u { p with gen := x, set := true, rels := [rel] } else u
      | _, _ => u) := fun u n => by
    cases hn : pegAt u c n with
    | none => exact pegStep_id fun p hp => by rw [hn] at hp; cases hp
    | some p =>
      obtain ⟨-, htile⟩ := pegAt_keys hn
      cases hx : outGen card n with
      | none =>
        refine pegStep_id fun q hq => ?_
        obtain rfl : p = q := Option.some.inj (hn.symm.trans hq)
        rw [← ageless_retiredPeg, retiredPeg, htile, hx]
      | some x =>
        have hpeg : retiredPeg card rel p = if !p.set || gdiff x p.gen > 0 then { p with gen := x, set := true, rels := [rel] } else p := by
          rw [retiredPeg, htile, hx]
        dsimp only
        split
        · rename_i hnew
          rw [if_pos hnew] at hpeg
          rw [← hpeg]
          obtain ⟨ht, hc, -⟩ := retiredPeg_tile card rel p
          exact pegStep_setPeg hn (ageless_retiredPeg card rel) hc ht
        · rename_i hold
          rw [if_neg hold] at hpeg
          refine pegStep_id fun q hq => ?_
          obtain rfl : p = q := Option.some.inj (hn.symm.trans hq)
          rw [← ageless_retiredPeg, hpeg]
  have hfold : retirePegs s c card rel = ((s.pegs.filter fun p => p.ctx == c).map Peg.tile).foldl (fun u n => match pegAt u c n, outGen card n with
      | some p, some x => if !p.set || gdiff x p.gen > 0 then setPeg u { p with gen := x, set := true, rels := [rel] } else u
      | _, _ => u) s := by
    rw [List.foldl_map]
    rfl
  obtain ⟨honly, hshape⟩ := pegFold hstep ((s.pegs.filter fun p => p.ctx == c).map Peg.tile) s
  rw [hfold]
  refine ⟨honly, fun m => ?_⟩
  rw [hshape]
  cases hm : pegAt s c m with
  | none => rw [pegShape_none.2 hm]; rfl
  | some p =>
    obtain ⟨hc, ht⟩ := pegAt_keys hm
    have hin : m ∈ (s.pegs.filter fun p => p.ctx == c).map Peg.tile :=
      List.mem_map.2 ⟨p, List.mem_filter.2 ⟨List.mem_of_find?_eq_some hm, by simp [hc]⟩, ht⟩
    rw [pegShape_of_some hm, Option.map_some, Option.map_some, iterate_retiredPeg _ _ _ _ (List.count_pos_iff.2 hin)]

end Sys2Proof.PegBoard
end

section
/-! PROOFS. O51, its end: pending continuations (R97), the retirement of a launch (R75, R90, R381), and the statement. -/

namespace Sys2Proof.LaunchEnd

open Machine Laws Safety CommandUnit CommandWords Completion PegBoard Retirement

-- Pending continuations (R97) ---------------------------------------------------------------------------------------------------------

theorem pendPush_writes {s : State} {c q pa da sa : Nat} (hready : s.dev.status = 3) (hwen : (s.ctx c).wen = true) (hq : q < 8)
    (hda : InCtxWindow s c ((s.ctx c).taskDesc q) 64 da) (hda4 : da % 4 = 0) :
    let d := fun (k : Nat) => memNat s.mem (da + 8 * k) 8
    let log2 := d 1 % 2 ^ 5
    let j := d 5 % 2 ^ 57
    j ≠ 0 → d 2 - d 3 < 2 ^ log2 → Readable s c j 256 pa →
    InCtxWindow s c (d 0 % 2 ^ 57 + 128 * (d 2 % 2 ^ log2)) 128 sa → sa % 4 = 0 →
    ∃ t, exec (.pendPush c q) s = .next t ∧
      Appended s t ([(da + 40, memNat s.mem (pa + 16) 8 % 2 ^ 57)] ++ (wordsAt sa 16 (fun k => memNat s.mem (pa + 128 + 8 * k) 8) ++ [(da + 16, d 2 + 1)])) ∧
      (t.ctx c).pendBy = (s.ctx c).pendBy.filter (fun p => p.1 != j) ∧ Served s t := by
  intro d log2 j hj hroom hobj hsa hsa4
  have hd : ∀ k, k < 8 → getAt 0 (wordsOf (memRead s.mem da 64)) k = wd (d k) := fun k hk => wordsOf_memRead s.mem da 64 k (by omega)
  have hnat : ∀ k, (wd (d k)).toNat = d k := fun k => toNat_memWord _ _
  have hfield : ∀ k n, wfield (wd (d k)) 0 n = d k % 2 ^ n := fun k n => by
    rw [wfield_memWord, pow_zero, Nat.div_one]
  have hnext : wfield (getAt 0 (wordsOf (memRead s.mem pa 256)) 2) 0 57 = memNat s.mem (pa + 16) 8 % 2 ^ 57 := by
    rw [wordsOf_memRead s.mem pa 256 2 (by decide), wfield_memWord, pow_zero, Nat.div_one]
  have hrecord : (memRead s.mem pa 256).drop 128 = memRead s.mem (pa + 128) 128 := by
    rw [← memRead_part s.mem pa 256 128 128 (by decide), List.take_of_length_le (by simp [length_memRead])]
  have hguard : ¬ (!s.dev.ready || !(s.ctx c).wen || decide (8 ≤ q)) = true := by
    simp [Dev.ready, hready, hwen, hq]
  have hgo : ¬ (decide (j = 0) || decide (d 2 - d 3 ≥ 2 ^ log2)) = true := by
    rw [Bool.or_eq_true, decide_eq_true_eq, decide_eq_true_eq]
    exact fun h => h.elim hj (not_le.2 hroom)
  have hobj' : Readable s c (d 5 % 2 ^ 57) 256 pa := hobj
  have hsa' : InCtxWindow s c (d 0 % 2 ^ 57 + 128 * (d 2 % 2 ^ (d 1 % 2 ^ 5))) 128 sa := hsa
  have hpend : InCtxWindow s c ((s.ctx c).taskDesc q + 40) 8 (da + 40) := window_part hda (by decide) (by decide)
  have hhead : InCtxWindow s c ((s.ctx c).taskDesc q + 16) 8 (da + 16) := window_part hda (by decide) (by decide)
  have hnow := (cuWrite_window (n := 1) hpend (by omega) (wordBytes_toBytes (memNat s.mem (pa + 16) 8 % 2 ^ 57)) none).2
  generalize hu : (cuWrite s c ((s.ctx c).taskDesc q + 40) (toBytes 8 (memNat s.mem (pa + 16) 8 % 2 ^ 57)) none).1 = u at hnow
  let v := u.setCtx c { u.ctx c with pendBy := (u.ctx c).pendBy.filter fun p => p.1 != j }
  have hserved : Served s v := hnow.served.trans (served_setCtx (ctxServed_continued _ _ _))
  have hdesc : (v.ctx c).taskDesc q = (s.ctx c).taskDesc q := by
    have h := congrArg (Ctx.taskDesc · q) (hnow.ctx c)
    rw [ctx_setCtx_same]
    exact h
  have hda' := window_served hserved hda
  rw [← hdesc] at hda'
  obtain ⟨pa', hexec⟩ : ∃ pa', exec (.pendPush c q) s =
      .next (pushTask v c q (d 2) (d 0 % 2 ^ 57) log2 (memRead s.mem (pa + 128) 128) (relsOfWord v (pa' / 4 * 4))) := by
    have hexec : exec (.pendPush c q) s = execPendPush c q s := rfl
    rw [hexec, execPendPush, if_neg hguard]
    simp only [cuRead_window (readable_of_window hda), hd 0 (by decide), hd 1 (by decide), hd 2 (by decide), hd 3 (by decide), hd 5 (by decide), hnat,
      hfield]
    rw [if_neg hgo]
    simp only [cuRead_window hobj', cuChecks_window hsa', cuChecks_window hpend, cuChecks_window hhead, cuChecks_nil, hnext, hrecord, hu]
    exact ⟨_, rfl⟩
  obtain ⟨hwrote, -, hkept⟩ := pushTask_window (window_served hserved hsa) hsa4 hda' hda4 (wordBytes_memRead s.mem (pa + 128) 16)
    (relsOfWord v (pa' / 4 * 4))
  refine ⟨_, hexec, (hnow.wrote.of_eq (u := v) rfl).trans hwrote, ?_, hserved.trans (served_pushTask _ _ _ _ _ _ _ _)⟩
  have h := congrArg Ctx.pendBy (hnow.ctx c)
  rw [hkept, ctx_setCtx_same, ← h]

-- A launch retires (R381) --------------------------------------------------------------------------------------------------------------

/-- An entry of the board once a launch has retired: what the card's ranges make of it, and one reservation less for each the launch held. -/
def unreserved (x : Launch) (rel : Nat) (p : Peg) : Peg :=
  { retiredPeg x.card rel p with count := (retiredPeg x.card rel p).count - x.held.count p.tile }

/-- The parties whose writes a launch's retirement releases (Table 13.3): the command unit, and the groups of its teams with their copy requests. -/
def LaunchParty (s : State) (l : Nat) (p : Party) : Prop :=
  p = .cu ∨ ∃ k g, k < s.teams.length ∧ (s.team k).launch = some l ∧ g ∈ (s.team k).groups ∧ (p = .grp g ∨ ∃ n, p = .eng g n)

/-- The state that a retiring launch writes its completion record in. -/
structure Retiring (s : State) (l : Nat) (u : State) : Prop where
  frame   : ∃ r clock pegs, u = { s with rels := s.rels ++ [r], clock := clock, pegs := pegs }.setCtx (s.launch l).ctx
    { s.ctx (s.launch l).ctx with regions := (s.ctx (s.launch l).ctx).regions.filter fun r => r.owner != some l } ∧
    r.party = .cu ∧ r.scope = .system ∧ r.acts = .every ∧
    ∀ (m : Nat) (q : WriteRec), s.writes[m]? = some q → LaunchParty s l q.party → m ∈ r.know ∧ m ∈ r.cov
  pegs    : ∀ m, pegShape u (s.launch l).ctx m = (pegShape s (s.launch l).ctx m).map (unreserved (s.launch l) s.rels.length)

/-- The release of a launch's retirement covers what the command unit and the groups of its teams wrote. -/
theorem launchRelease_covers {s : State} {l : Nat} : ∃ r : Release, cuRelease s (launchView s l) = ({ s with rels := s.rels ++ [r] }, s.rels.length) ∧
    r.party = .cu ∧ r.scope = .system ∧ r.acts = .every ∧
    ∀ (m : Nat) (q : WriteRec), s.writes[m]? = some q → LaunchParty s l q.party → m ∈ r.know ∧ m ∈ r.cov := by
  obtain ⟨r, hr, hparty, hscope, hacts, hcov⟩ := cuRelease_eq s (launchView s l)
  refine ⟨r, hr, hparty, hscope, hacts, fun m q hq hby => ?_⟩
  obtain ⟨hlt, -⟩ := List.getElem?_eq_some_iff.1 hq
  obtain hcu | ⟨k, g, hk, hl, hg, hp⟩ := hby
  · have hown := mem_cuView hq hcu
    obtain ⟨hc, hkn⟩ := hcov m hlt (.inr (.inr hown))
    exact ⟨hkn (.inr hown), hc⟩
  · have hgroup : g ∈ (teamIds s fun t => t.launch == some l).flatMap fun t => (s.team t).groups :=
      List.mem_flatMap.2 ⟨k, List.mem_filter.2 ⟨List.mem_range.2 hk, by simp [hl]⟩, hg⟩
    obtain ⟨hown, hknow⟩ := retireView_wrote hq hgroup hp
    obtain ⟨hc, hkn⟩ := hcov m hlt (.inl hown)
    exact ⟨hkn (.inl hknow), hc⟩

theorem launchRetire_retiring {s : State} {l : Nat} (hl : l < s.launches.length) (hready : s.dev.status = 3) (hlive : (s.launch l).retired = false)
    (hgone : ∀ n, n < (s.launch l).teams → n ∈ (s.launch l).gone)
    (hover : ∀ k, k < s.teams.length → (s.team k).launch = some l → (s.team k).place.over = true) :
    ∃ u v, Retiring s l u ∧ exec (.launchRetire l) s = .next ((writeRecord u l (s.launch l).status 0 v).setLaunch l
      { (writeRecord u l (s.launch l).status 0 v).launch l with retired := true, rel := some s.rels.length }) := by
  obtain ⟨r, hr, hparty, hscope, hacts, hcov⟩ := launchRelease_covers (s := s) (l := l)
  obtain ⟨hretire, hretired⟩ := retirePegs_pegs { s with rels := s.rels ++ [r] } (s.launch l).ctx (s.launch l).card s.rels.length
  obtain ⟨hdrop, hdropped⟩ := dropReservations_pegs (retirePegs { s with rels := s.rels ++ [r] } (s.launch l).ctx (s.launch l).card s.rels.length)
    (s.launch l)
  have hguard : ¬ (decide (s.launches.length ≤ l) || (s.launch l).retired || !s.dev.ready || !(missing (s.launch l).teams (s.launch l).gone).isEmpty ||
      !(teamIds s fun t => t.launch == some l && !t.place.over).isEmpty) = true := by
    have hmissing : missing (s.launch l).teams (s.launch l).gone = [] := List.filter_eq_nil_iff.2 fun n hn => by
      simpa using hgone n (List.mem_range.1 hn)
    have hteams : (teamIds s fun t => t.launch == some l && !t.place.over) = [] := List.filter_eq_nil_iff.2 fun k hk => by
      have hk := hover k (List.mem_range.1 hk)
      simpa using hk
    simp [hl, hlive, Dev.ready, hready, hmissing, hteams]
  have hexec : exec (.launchRetire l) s = execLaunchRetire l s := rfl
  rw [hexec, execLaunchRetire]
  simp only
  rw [if_neg hguard, hr]
  generalize dropReservations (retirePegs { s with rels := s.rels ++ [r] } (s.launch l).ctx (s.launch l).card s.rels.length) (s.launch l) = u at *
  have hu : u = { s with rels := s.rels ++ [r], clock := u.clock, pegs := u.pegs } := by
    have h := hretire.trans hdrop
    exact h
  refine ⟨_, _, ⟨⟨r, u.clock, u.pegs, ?_, hparty, hscope, hacts, hcov⟩, fun m => ?_⟩, rfl⟩
  · rw [← hu]
    have hctx : u.ctx (s.launch l).ctx = s.ctx (s.launch l).ctx := by rw [hu]; rfl
    rw [hctx]
  · have hshape : pegShape (u.setCtx (s.launch l).ctx { u.ctx (s.launch l).ctx with
        regions := (u.ctx (s.launch l).ctx).regions.filter fun r => r.owner != some l }) (s.launch l).ctx m = pegShape u (s.launch l).ctx m := rfl
    rw [hshape, hdropped, hretired, Option.map_map]
    have hsame : pegShape { s with rels := s.rels ++ [r] } (s.launch l).ctx m = pegShape s (s.launch l).ctx m := rfl
    rw [hsame]
    cases hm : pegAt s (s.launch l).ctx m with
    | none => rw [pegShape_none.2 hm]; rfl
    | some p =>
      obtain ⟨-, htile⟩ := pegAt_keys hm
      rw [pegShape_of_some hm, Option.map_some, Option.map_some, Function.comp_apply, unreserved, ← htile]
      rfl

/-- The words of a launch's completion record (Table 3.12). -/
theorem recordWords_launch (x : Launch) (pa : Nat) :
    let status := if x.purged then 4 else if x.placeK then 5 else if x.killed ≠ 0 then 2 else 1
    let first := x.first.getD (0, 0, 0)
    let bit := fun (b : Bool) (k : Nat) => if b then 2 ^ k else 0
    recordWords x x.status 0 pa =
      [(pa + 8, x.lseq), (pa + 16, x.killed * 2 ^ 32 + x.done), (pa + 24, x.flags.toNat),
        (pa + 32, first.1 * 2 ^ 16 + first.2.1), (pa + 40, first.2.2), (pa + 48, x.maxcyc), (pa + 56, 0),
        (pa, wfield (getAt 0 x.card 2) 48 16 * 2 ^ 32 + bit x.purged 18 + bit (wfield (getAt 0 x.card 2) 43 1 == 1) 17 + bit x.fallback 16 + status)] := by
  intro status first bit
  obtain ⟨w0, hw0⟩ : ∃ w0, w0 = wfield (getAt 0 x.card 2) 48 16 * 2 ^ 32 + bit x.purged 18 + bit (wfield (getAt 0 x.card 2) 43 1 == 1) 17 +
    bit x.fallback 16 + status := ⟨_, rfl⟩
  have hrecord : x.record x.status 0 = [w0, x.lseq, x.killed * 2 ^ 32 + x.done, x.flags.toNat, first.1 * 2 ^ 16 + first.2.1, first.2.2, x.maxcyc, 0] := by
    rw [hw0]
    simp only [Launch.record, Nat.zero_mul, Nat.add_zero]
    rfl
  rw [recordWords, hrecord, ← hw0]
  rfl

section
variable {s u : State} {l : Nat} (h : Retiring s l u)
include h

theorem Retiring.work : WorkKept s u := by
  obtain ⟨r, clock, pegs, hu, -⟩ := h.frame
  rw [hu]
  exact ⟨rfl, rfl, rfl⟩

theorem Retiring.launch (k : Nat) : u.launch k = s.launch k := by
  obtain ⟨hlaunches, -, -⟩ := h.work
  rw [State.launch, State.launch, hlaunches]

theorem Retiring.regions : (u.ctx (s.launch l).ctx).regions = (s.ctx (s.launch l).ctx).regions.filter fun r => r.owner != some l := by
  obtain ⟨r, clock, pegs, hu, -⟩ := h.frame
  rw [hu, ctx_setCtx_same]

/-- The completion record of a retiring launch, where its address's window takes it. -/
theorem Retiring.record {pa : Nat} (hne : (s.launch l).crec ≠ 0) (halign : (s.launch l).crec % 64 = 0)
    (hw : InCtxWindow s (s.launch l).ctx (s.launch l).crec 64 pa) (hpa : pa % 4 = 0) (status : Nat) (v : MemView) :
    Appended s (writeRecord u l status 0 v) (recordWords (s.launch l) status 0 pa) ∧
      ((s.launch l).posted = false → ((writeRecord u l status 0 v).ctx (s.launch l).ctx).signals.getLsbD 0 = true) := by
  have hvalid : (u.launch l).validCrec = true := by
    rw [h.launch, Launch.validCrec]
    simp [hne, halign]
  have hwindow : InCtxWindow u (s.launch l).ctx (s.launch l).crec 64 pa := by
    obtain ⟨r, clock, pegs, hu, -⟩ := h.frame
    refine window_mono (fun a => by rw [hu]; rfl) (by rw [hu]; rfl) (by rw [hu, ctx_setCtx_same]) (fun x hx => ?_) hw
    rw [h.regions] at hx
    exact (List.mem_filter.1 hx).1
  have hwrites : u.writes = s.writes := by
    obtain ⟨r, clock, pegs, hu, -⟩ := h.frame
    rw [hu]
    rfl
  have hrec := writeRecord_window (v := v) hvalid (by rw [h.launch]; exact hwindow) hpa status 0
  have hsig := fun hp => writeRecord_signals (v := v) hvalid hp status 0
  rw [h.launch] at hrec hsig
  exact ⟨hrec.from_eq hwrites, hsig⟩

/-- The board after a launch's retirement, entry by entry. -/
theorem Retiring.board {t : State} (ht : t.pegs = u.pegs) (n : Nat) :
    let x := s.launch l
    let gen := outGen x.card n
    (pegAt s x.ctx n = none → pegAt t x.ctx n = none) ∧
    ∀ p, pegAt s x.ctx n = some p → ∃ q, pegAt t x.ctx n = some q ∧ q.count = p.count - x.held.count n ∧
      (∀ g, gen = some g → p.set = false ∨ 0 < gdiff g p.gen → q.set = true ∧ q.gen = g ∧ q.rels = [s.rels.length]) ∧
      (gen = none ∨ (p.set = true ∧ ∀ g, gen = some g → gdiff g p.gen ≤ 0) → q.set = p.set ∧ q.gen = p.gen ∧ q.rels = p.rels) := by
  intro x gen
  have hshape := h.pegs n
  have hat : pegAt u x.ctx n = pegAt t x.ctx n := by rw [pegAt, pegAt, ht]
  rw [← hat]
  refine ⟨fun hnone => ?_, fun p hp => ?_⟩
  · rw [pegShape_none.2 hnone] at hshape
    exact pegShape_none.1 hshape
  · obtain ⟨-, htile⟩ := pegAt_keys hp
    rw [pegShape_of_some hp] at hshape
    obtain ⟨q, hq, hage⟩ := exists_of_pegShape hshape
    have htile' : (ageless p).tile = n := htile
    obtain ⟨-, -, hcount⟩ := retiredPeg_tile x.card s.rels.length (ageless p)
    refine ⟨q, hq, ?_, fun g hg hnew => ?_, fun hold => ?_⟩
    · refine (congrArg Peg.count hage).trans ?_
      rw [← htile', unreserved]
      exact congrArg (· - _) hcount
    · have hpeg := retiredPeg_newer (p := ageless p) (by rw [htile']; exact hg) hnew s.rels.length
      rw [unreserved, hpeg] at hage
      exact ⟨congrArg Peg.set hage, congrArg Peg.gen hage, congrArg Peg.rels hage⟩
    · have hpeg := retiredPeg_kept (p := ageless p) (by rw [htile']; exact hold) s.rels.length
      rw [unreserved, hpeg] at hage
      have hset := congrArg Peg.set hage
      have hgen := congrArg Peg.gen hage
      have hrels := congrArg Peg.rels hage
      exact ⟨hset, hgen, hrels⟩

end

-- The statement -----------------------------------------------------------------------------------------------------------------------

/-- Settles O51: teams leave by `leaveCore_left`, a task's release and join are `taskRetire_releases` and `joinDec_writes`, a pending continuation
is `pendPush_writes`, and a launch is what its release, its ranges on the peg board and its completion record make of it. -/
theorem retirementEvents : Obligations.RetirementEvents := by
  unfold Obligations.RetirementEvents
  intro ready record readable
  refine ⟨fun s team l _ hl h => teamRetire_counts hl h, fun s team q pop _ ht h => taskRetire_releases ht h,
    fun s c q pop rels => by rw [joinDec, if_pos rfl], fun s c q pop j rels pa hj hcount hobj hpa hwf => ?_,
    fun s c q pa da sa hready hwen hq _ hda hda4 => ?_, fun s l hl hready hlive hgone hover => ?_⟩
  · obtain ⟨hplain, hunder, hcont⟩ := joinDec_writes (q := q) (pop := pop) (rels := rels) hj hcount hobj hpa hwf
    refine ⟨hplain, hunder, fun hone htop da hda hda4 => ?_⟩
    obtain ⟨hpush, htail, hhead⟩ := hcont hone htop da hda hda4
    refine ⟨fun hroom hnone sa hsa hsa4 => ?_, fun chain last hlen hfirst hin hnext hend => ?_, fun hfull hnone => ?_⟩
    · obtain ⟨⟨new, hnew, hwrote⟩, hrels⟩ := hpush hroom hnone sa hsa hsa4
      exact ⟨new, hnew, hwrote, hrels⟩
    · have hread := pendTail_chain hend chain _ _ hlen hfirst (fun p hp => ⟨(hin p hp).1, (hin p hp).2.1⟩) hnext
      obtain ⟨-, hlast, hlast4⟩ := hin last (by simp)
      have hsome : memNat s.mem (da + 8 * 5) 8 % 2 ^ 57 ≠ 0 := by
        obtain ⟨p, rest, hrest⟩ : ∃ p rest, chain ++ [last] = p :: rest := List.exists_cons_of_ne_nil (by simp)
        rw [hrest] at hfirst
        rw [← Option.some.inj hfirst]
        exact (hin p (by rw [hrest]; simp)).1
      obtain ⟨⟨new, hnew, hwrote⟩, hmark⟩ := htail hsome _ _ hread hlast hlast4
      exact ⟨new, hnew, hwrote, hmark⟩
    · obtain ⟨⟨new, hnew, hwrote⟩, hmark⟩ := hhead hfull hnone
      exact ⟨new, hnew, hwrote, hmark⟩
  · intro d log2 j hj hroom hobj _ hsa hsa4
    obtain ⟨t, ht, ⟨new, hnew, hwrote⟩, hpend, hserved⟩ := pendPush_writes hready hwen hq hda hda4 hj hroom hobj hsa hsa4
    rw [← List.append_assoc] at hwrote
    exact ⟨t, new, ht, hnew, hwrote, hpend, hserved.work, hserved.rels⟩
  · intro x w crec
    obtain ⟨u, v, h, hexec⟩ := launchRetire_retiring hl hready hlive hgone hover
    have hend := concluded_writeRecord u l x.status 0 v
    obtain ⟨hlaunches, hteams, hgroups⟩ := h.work
    obtain ⟨r, clock, pegs, hu, hparty, hscope, hacts, hcov⟩ := h.frame
    refine ⟨_, hexec, ?_, ?_, ⟨r, ?_, hparty, hscope, hacts, hcov⟩, ?_, fun pa hne halign hwin hpa => ?_, fun n => h.board (hend.pegs) n,
      hend.teams.trans hteams, hend.groups.trans hgroups, fun m hm => ?_⟩
    · rw [launch_setLaunch_same]
    · rw [launch_setLaunch_same]
    · obtain ⟨rs, hrs⟩ := hend.rels
      rw [setLaunch_rels, hrs, hu]
      simp
    · obtain ⟨_, _, _, _, hctx⟩ := hend.ctx x.ctx
      exact (congrArg Ctx.regions hctx).trans h.regions
    · intro status first bit
      obtain ⟨hwrote, hsig⟩ := h.record hne halign hwin hpa x.status v
      rw [recordWords_launch] at hwrote
      exact ⟨hwrote, hsig⟩
    · rw [launch_setLaunch_other _ _ _ _ hm, hend.launch, h.launch]

end Sys2Proof.LaunchEnd
end

section
/-! PROOFS. What cores can hold (R104 to R106, R117), which teams of a launch are eligible (R82, R91), and the order of work (R83). -/

namespace Sys2Proof.RoomAndWork

open Machine Laws

-- Room --------------------------------------------------------------------------------------------------------------------------------

theorem mem_span {a n k : Nat} : k ∈ span a n ↔ a ≤ k ∧ k < a + n := by
  simp only [span, List.mem_map, List.mem_range]
  constructor
  · rintro ⟨i, hi, rfl⟩
    omega
  · rintro ⟨h1, h2⟩
    exact ⟨k - a, by omega, by omega⟩

theorem mem_coresOf {cl k : Nat} : k ∈ coresOf cl ↔ k / 4 = cl := by
  rw [coresOf, mem_span]
  omega

theorem mem_partition {s : State} {c cl : Nat} : cl ∈ partition s c ↔ cl < 64 ∧ (s.ctx c).part.getLsbD cl = true := by
  rw [partition, List.mem_filter, List.mem_range]

/-- Room for some teams is room for fewer. -/
theorem holds_fewer {r : Room} {f : Fit} {n m : Nat} (h : r.holds f n = true) (hm : m ≤ n) : r.holds f m = true := by
  simp only [Room.holds, Bool.and_eq_true, decide_eq_true_eq] at h ⊢
  obtain ⟨⟨⟨⟨hteams, hgroups⟩, hrows⟩, hspad⟩, htile⟩ := h
  have hmul := fun k => Nat.mul_le_mul_right k hm
  exact ⟨⟨⟨⟨hm.trans hteams, (hmul _).trans hgroups⟩, (Nat.mul_le_mul_right _ (hmul _)).trans hrows⟩, (hmul _).trans hspad⟩, (hmul _).trans htile⟩

theorem holds_zero (r : Room) (f : Fit) : r.holds f 0 = true := by simp [Room.holds]

/-- How many numbers below k have a property that every lower number then has too. -/
theorem lt_countP_range {p : Nat → Bool} (hp : ∀ n m, p n = true → m ≤ n → p m = true) : ∀ k n, n < (List.range k).countP p ↔ n < k ∧ p n = true
  | 0, n => by simp
  | k + 1, n => by
    have ih := lt_countP_range hp k
    rw [List.range_succ, List.countP_append, List.countP_singleton]
    by_cases hk : p k = true
    · have hall : k = (List.range k).countP p := by
        refine le_antisymm (not_lt.1 fun h => ?_) (List.countP_le_length.trans_eq List.length_range)
        exact lt_irrefl _ ((ih _).2 ⟨h, hp k _ hk h.le⟩)
      rw [if_pos hk, ← hall]
      exact ⟨fun h => ⟨h, hp k n hk (by omega)⟩, fun h => h.1⟩
    · rw [if_neg hk, Nat.add_zero, ih]
      refine ⟨fun ⟨h, hn⟩ => ⟨by omega, hn⟩, fun ⟨h, hn⟩ => ⟨?_, hn⟩⟩
      have hne : n ≠ k := fun he => hk (he ▸ hn)
      omega

/-- The teams of a crew that a core takes. -/
theorem le_most {r : Room} {f : Fit} {n : Nat} : n ≤ r.most f ↔ n = 0 ∨ n ≤ 4 ∧ r.holds f n = true := by
  have hcount := lt_countP_range (p := r.holds f) (fun _ _ h hm => holds_fewer h hm) 5
  have hzero := holds_zero r f
  have hpos := (hcount 0).2 ⟨by decide, hzero⟩
  have hmost : n ≤ r.most f ↔ n < (List.range 5).countP (r.holds f) := by
    rw [Room.most, ← List.countP_eq_length_filter]
    omega
  rw [hmost, hcount]
  refine ⟨fun ⟨h, hn⟩ => .inr ⟨by omega, hn⟩, fun h => ?_⟩
  obtain rfl | ⟨h, hn⟩ := h
  · exact ⟨by decide, hzero⟩
  · exact ⟨by omega, hn⟩

/-- Four cores of a cluster that take a crew together. -/
theorem le_clusterMost {room : Nat → Room} {f : Fit} {cl crew : Nat} : crew ≤ clusterMost room f cl ↔
    ∃ n0 n1 n2 n3, n0 ≤ (room (4 * cl)).most f ∧ n1 ≤ (room (4 * cl + 1)).most f ∧ n2 ≤ (room (4 * cl + 2)).most f ∧
      n3 ≤ (room (4 * cl + 3)).most f ∧ crew ≤ n0 + n1 + n2 + n3 := by
  have hsum : clusterMost room f cl = (room (4 * cl)).most f + (room (4 * cl + 1)).most f + (room (4 * cl + 2)).most f + (room (4 * cl + 3)).most f := by
    simp [clusterMost, coresOf, span, List.range_succ, Nat.add_assoc]
  rw [hsum]
  constructor
  · exact fun h => ⟨_, _, _, _, le_rfl, le_rfl, le_rfl, le_rfl, h⟩
  · rintro ⟨n0, n1, n2, n3, h0, h1, h2, h3, h⟩
    omega

/-- The cores that can take a team of a crew now (R84, R105). -/
theorem mem_eligibleCores {s : State} {c : Nat} {f : Fit} {crew k : Nat} : k ∈ eligibleCores s c f crew ↔
    k / 4 < 64 ∧ (s.ctx c).part.getLsbD (k / 4) = true ∧ 1 ≤ (roomNow s k).most f ∧ crew ≤ clusterMost (roomNow s) f (k / 4) := by
  simp only [eligibleCores, List.mem_flatMap, List.mem_filter, mem_partition, mem_coresOf, decide_eq_true_eq]
  constructor
  · rintro ⟨cl, ⟨⟨hcl, hpart⟩, hcrew⟩, rfl, hk⟩
    exact ⟨hcl, hpart, hk, hcrew⟩
  · rintro ⟨hcl, hpart, hk, hcrew⟩
    exact ⟨k / 4, ⟨⟨hcl, hpart⟩, hcrew⟩, rfl, hk⟩

/-- A core whose slots are empty (R104). -/
theorem le_most_full {s : State} {f : Fit} {k n : Nat} : n ≤ (roomFull s k).most f ↔ n = 0 ∨ (s.core k).usable = true ∧ n ≤ 4 ∧ n * f.groups ≤ 32 ∧
    n * f.groups * f.vregs ≤ 1024 ∧ n * ((f.spad + 3) / 4) ≤ (s.core k).spadCap ∧ n * ((f.trows + 15) / 16) ≤ (s.core k).tileCap := by
  rw [le_most]
  unfold roomFull
  dsimp only
  split
  · rename_i husable
    have hrows : coreRows = 1024 := rfl
    simp only [Room.holds, ncdiv, hrows, Bool.and_eq_true, decide_eq_true_eq, husable, true_and, Nat.reduceSubDiff]
    have hsixteen : n ≤ 4 → n ≤ 16 := fun h => by omega
    tauto
  · rename_i husable
    have hnone : n ≤ 4 ∧ (Room.mk 0 0 0 0 0).holds f n = true → n = 0 := fun h => by
      simp only [Room.holds, Bool.and_eq_true, decide_eq_true_eq] at h
      omega
    tauto

-- Eligible teams (R72, R82, R91) ------------------------------------------------------------------------------------------------------

theorem mem_missing {n t : Nat} {gone : List Nat} : t ∈ missing n gone ↔ t < n ∧ t ∉ gone := by simp [missing]

theorem tileNeed_met {s : State} {x : Launch} {n g : Nat} : tileNeed s x n g = .met ↔
    n ∈ x.metTiles ∨ ∃ p, pegAt s x.ctx n = some p ∧ p.set = true ∧ gdiff g p.gen = 0 := by
  unfold tileNeed
  by_cases hmet : n ∈ x.metTiles
  · simp [hmet]
  · cases hpeg : pegAt s x.ctx n with
    | none => simp [hmet]
    | some p =>
      by_cases hset : p.set = true
      · by_cases hzero : gdiff g p.gen = 0
        · simp [hmet, hset, hzero]
        · by_cases hpos : gdiff g p.gen > 0 <;> simp [hmet, hset, hzero, hpos]
      · simp [hmet, hset]

theorem tileNeed_stale {s : State} {x : Launch} {n g : Nat} : (∃ a b, tileNeed s x n g = .stale a b) ↔
    n ∉ x.metTiles ∧ ∃ p, pegAt s x.ctx n = some p ∧ p.set = true ∧ gdiff g p.gen < 0 := by
  unfold tileNeed
  by_cases hmet : n ∈ x.metTiles
  · simp [hmet]
  · cases hpeg : pegAt s x.ctx n with
    | none => simp [hmet]
    | some p =>
      by_cases hset : p.set = true
      · by_cases hzero : gdiff g p.gen = 0
        · simp [hmet, hset, hzero]
        · by_cases hpos : gdiff g p.gen > 0
          · simp [hmet, hset, hzero, hpos, hpos.le]
          · have hneg : gdiff g p.gen < 0 := by omega
            simp [hmet, hset, hzero, hpos, hneg]
      · simp [hmet, hset]

/-- A need that is stale names a tile's, whatever the rest. -/
def isStale : Need3 → Bool
  | .stale _ _ => true
  | _ => false

theorem isStale_iff {n : Need3} : isStale n = true ↔ ∃ a b, n = .stale a b := by cases n <;> simp [isStale]

/-- What a team's tiles ask for. -/
def tileNeeds (s : State) (x : Launch) (t : Nat) : List Need3 := (teamTiles x t).map fun p => tileNeed s x p.1 p.2

theorem teamNeed_eq (s : State) (x : Launch) (t : Nat) : teamNeed s x t =
    match (tileNeeds s x t).find? isStale with
    | some n => n
    | none => if (tileNeeds s x t).contains .waits then .waits else .met := by
  have hstale : isStale = fun n => match n with | .stale _ _ => true | _ => false := by
    funext n
    cases n <;> rfl
  rw [hstale]
  rfl

theorem teamNeed_stale {s : State} {x : Launch} {t : Nat} : (∃ a b, teamNeed s x t = .stale a b) ↔
    ∃ p ∈ teamTiles x t, ∃ a b, tileNeed s x p.1 p.2 = .stale a b := by
  have hmem : (∃ p ∈ teamTiles x t, ∃ a b, tileNeed s x p.1 p.2 = .stale a b) ↔ ∃ n ∈ tileNeeds s x t, isStale n = true := by
    simp only [tileNeeds, List.mem_map, isStale_iff]
    exact ⟨fun ⟨p, hp, h⟩ => ⟨_, ⟨p, hp, rfl⟩, h⟩, fun ⟨_, ⟨p, hp, rfl⟩, h⟩ => ⟨p, hp, h⟩⟩
  rw [hmem, teamNeed_eq]
  cases hfind : (tileNeeds s x t).find? isStale with
  | some n =>
    have hn := List.find?_some hfind
    exact ⟨fun _ => ⟨n, List.mem_of_find?_eq_some hfind, hn⟩, fun _ => isStale_iff.1 hn⟩
  | none =>
    have hnone := List.find?_eq_none.1 hfind
    refine ⟨fun ⟨a, b, h⟩ => ?_, fun ⟨n, hn, h⟩ => absurd h (hnone n hn)⟩
    dsimp only at h
    split at h <;> cases h

theorem teamNeed_met {s : State} {x : Launch} {t : Nat} : teamNeed s x t = .met ↔ ∀ p ∈ teamTiles x t, tileNeed s x p.1 p.2 = .met := by
  have hall : (∀ p ∈ teamTiles x t, tileNeed s x p.1 p.2 = .met) ↔ ∀ n ∈ tileNeeds s x t, n = .met := by
    rw [tileNeeds, List.forall_mem_map]
  rw [hall, teamNeed_eq]
  cases hfind : (tileNeeds s x t).find? isStale with
  | some n =>
    have hn := List.find?_some hfind
    refine ⟨fun h => ?_, fun h => h n (List.mem_of_find?_eq_some hfind)⟩
    dsimp only at h
    rw [h] at hn
    cases hn
  | none =>
    have hnone := List.find?_eq_none.1 hfind
    by_cases hwaits : Need3.waits ∈ tileNeeds s x t
    · simp only [List.contains_eq_mem, hwaits, decide_true, if_true]
      exact ⟨fun h => (nomatch h), fun h => h _ hwaits⟩
    · simp only [List.contains_eq_mem, hwaits, decide_false, Bool.false_eq_true, if_false, true_iff]
      intro n hn
      cases n with
      | met => rfl
      | waits => exact absurd hn hwaits
      | stale a b => exact absurd rfl (hnone _ hn)

/-- The peg condition of an undealt team (R91). -/
theorem pegsMet_iff {s : State} {l t : Nat} : pegsMet s l t = true ↔
    if (s.launch l).fallback then ∀ m ∈ (s.launch l).prods, (s.launch m).retired = true
    else ∀ p ∈ teamTiles (s.launch l) t, p.1 ∈ (s.launch l).metTiles ∨
      ∃ e, pegAt s (s.launch l).ctx p.1 = some e ∧ e.set = true ∧ gdiff p.2 e.gen = 0 := by
  unfold pegsMet
  dsimp only
  split
  · simp
  · rw [beq_iff_eq, teamNeed_met]
    exact forall₂_congr fun p _ => tileNeed_met

theorem depsMet_iff {s : State} {l : Nat} : depsMet s l = true ↔
    ∀ p ∈ cardDeps (s.launch l).card, ∃ m, cardAt s (s.launch l).ctx p.1 p.2 = some m ∧ (s.launch m).retired = true := by
  simp only [depsMet, List.all_eq_true]
  refine forall₂_congr fun p _ => ?_
  cases cardAt s (s.launch l).ctx p.1 p.2 <;> simp

/-- The eligible teams of a launch (R82). -/
theorem mem_eligible {s : State} {l t : Nat} : t ∈ eligible s l ↔ (s.launch l).retired = false ∧ depsMet s l = true ∧
    (t < (s.launch l).teams ∧ t ∉ (s.launch l).gone) ∧
    if (s.launch l).crew ≤ 1 then pegsMet s l t = true
    else ∀ u, t / (s.launch l).crew * (s.launch l).crew ≤ u → u < t / (s.launch l).crew * (s.launch l).crew + (s.launch l).crew →
      (u < (s.launch l).teams ∧ u ∉ (s.launch l).gone) ∧ pegsMet s l u = true := by
  unfold eligible
  dsimp only
  by_cases hgo : (s.launch l).retired = false ∧ depsMet s l = true
  · obtain ⟨hlive, hdeps⟩ := hgo
    rw [if_neg (by simp [hlive, hdeps])]
    simp only [hlive, hdeps, true_and]
    split
    · rw [List.mem_filter, mem_missing]
    · rw [List.mem_filter, mem_missing, List.all_eq_true]
      simp only [mem_span, List.contains_eq_mem, decide_eq_true_eq, List.mem_filter, mem_missing, and_imp]
  · rw [if_pos (by cases hr : (s.launch l).retired <;> cases hd : depsMet s l <;> simp [hr, hd] at hgo ⊢)]
    simp only [List.not_mem_nil, false_iff]
    exact fun ⟨hlive, hdeps, _⟩ => hgo ⟨hlive, hdeps⟩

theorem eligible_pairwise (s : State) (l : Nat) : (eligible s l).Pairwise (· < ·) := by
  have hrange : ∀ n gone, (missing n gone).Pairwise (· < ·) := fun n gone => List.pairwise_lt_range.filter _
  unfold eligible
  dsimp only
  split
  · exact .nil
  split
  · exact (hrange _ _).filter _
  · exact (hrange _ _).filter _

-- The order of work (R83) -------------------------------------------------------------------------------------------------------------

theorem rankBefore_iff {a b : Nat × Nat × Nat} : rankBefore a b = true ↔ b.1 < a.1 ∨ b.1 = a.1 ∧ (a.2.1 < b.2.1 ∨ a.2.1 = b.2.1 ∧ a.2.2 < b.2.2) := by
  simp only [rankBefore, Bool.or_eq_true, Bool.and_eq_true, decide_eq_true_eq, beq_iff_eq]
  omega

/-- The pick of a work over the one held so far. -/
def pickWork (b : Option ((Nat × Nat × Nat) × Work)) (w : (Nat × Nat × Nat) × Work) : Option ((Nat × Nat × Nat) × Work) :=
  match b with
  | none => some w
  | some v => if rankBefore w.1 v.1 then some w else some v

/-- A fold of picks ends at work that none comes before. -/
theorem foldl_pickWork : ∀ (l : List ((Nat × Nat × Nat) × Work)) (v : (Nat × Nat × Nat) × Work), ∃ w, l.foldl pickWork (some v) = some w ∧
    w ∈ v :: l ∧ ∀ y ∈ v :: l, ¬ rankBefore y.1 w.1 = true
  | [], v => ⟨v, rfl, List.mem_cons_self, fun y hy => by
    rw [List.mem_singleton.1 hy, rankBefore_iff]
    omega⟩
  | z :: l, v => by
    by_cases hz : rankBefore z.1 v.1 = true
    · obtain ⟨w, hw, hin, hbest⟩ := foldl_pickWork l z
      have hpick : pickWork (some v) z = some z := if_pos hz
      refine ⟨w, by rw [List.foldl_cons, hpick]; exact hw, List.mem_cons_of_mem _ hin, fun y hy => ?_⟩
      obtain rfl | hy := List.mem_cons.1 hy
      · have hzw := hbest z List.mem_cons_self
        rw [rankBefore_iff] at hz hzw ⊢
        omega
      · exact hbest y hy
    · obtain ⟨w, hw, hin, hbest⟩ := foldl_pickWork l v
      have hpick : pickWork (some v) z = some v := if_neg hz
      refine ⟨w, by rw [List.foldl_cons, hpick]; exact hw, ?_, fun y hy => ?_⟩
      · obtain rfl | hin := List.mem_cons.1 hin
        · exact List.mem_cons_self
        · exact List.mem_cons_of_mem _ (List.mem_cons_of_mem _ hin)
      · have hvw := hbest v List.mem_cons_self
        obtain rfl | hy := List.mem_cons.1 hy
        · exact hvw
        obtain rfl | hy := List.mem_cons.1 hy
        · rw [rankBefore_iff] at hz hvw ⊢
          omega
        · exact hbest y (List.mem_cons_of_mem _ hy)

theorem bestWork_eq (s : State) : bestWork s = ((workRanks s).foldl pickWork none).map Prod.snd := rfl

theorem bestWork_some {s : State} {w : Work} (h : bestWork s = some w) : ∃ r, (r, w) ∈ workRanks s ∧ ∀ y ∈ workRanks s, ¬ rankBefore y.1 r = true := by
  rw [bestWork_eq] at h
  cases hl : workRanks s with
  | nil => rw [hl] at h; cases h
  | cons v l =>
    obtain ⟨x, hx, hin, hbest⟩ := foldl_pickWork l v
    have hfold : (v :: l).foldl pickWork none = some x := hx
    rw [hl, hfold] at h
    obtain rfl : x.2 = w := Option.some.inj h
    exact ⟨x.1, hin, hbest⟩

theorem bestWork_none {s : State} : bestWork s = none ↔ workRanks s = [] := by
  rw [bestWork_eq]
  cases hl : workRanks s with
  | nil => exact ⟨fun _ => rfl, fun _ => rfl⟩
  | cons v l =>
    obtain ⟨x, hx, -⟩ := foldl_pickWork l v
    have hfold : (v :: l).foldl pickWork none = some x := hx
    rw [hfold]
    simp

theorem launchRestores_iff {s : State} {l : Nat} : launchRestores s l = true ↔
    ∃ t, t < s.teams.length ∧ (s.team t).launch = some l ∧ (s.team t).place.saved? = true ∧ restoreCores s t ≠ [] := by
  simp [launchRestores, teamIds, and_assoc]

theorem mem_workRanks_task {s : State} {r : Nat × Nat × Nat} {c q : Nat} : (r, Work.task c q) ∈ workRanks s ↔
    c < 64 ∧ q < 8 ∧ taskWaiting s c q = some r.1 ∧ r.2.1 = 0 ∧ r.2.2 = q := by
  obtain ⟨p, k, a⟩ := r
  simp only [workRanks, List.mem_append, List.mem_flatMap, List.mem_filterMap, List.mem_map, List.mem_range, Option.map_eq_some_iff, Prod.mk.injEq,
    Work.task.injEq, reduceCtorEq, and_false, exists_false, or_false]
  constructor
  · rintro ⟨c', hc, q', hq, p', hp, ⟨rfl, rfl, rfl⟩, rfl, rfl⟩
    exact ⟨hc, hq, hp, rfl, rfl⟩
  · rintro ⟨hc, hq, hp, rfl, rfl⟩
    exact ⟨c, hc, a, hq, p, hp, ⟨rfl, rfl, rfl⟩, rfl, rfl⟩

theorem mem_workRanks_launch {s : State} {r : Nat × Nat × Nat} {l : Nat} : (r, Work.launch l) ∈ workRanks s ↔
    l < s.launches.length ∧ launchWaiting s l = true ∧ r.1 = (s.launch l).prio ∧ r.2.1 = 1 ∧ r.2.2 = (s.launch l).lseq := by
  obtain ⟨p, k, a⟩ := r
  simp only [workRanks, List.mem_append, List.mem_flatMap, List.mem_filterMap, List.mem_map, List.mem_range, Option.map_eq_some_iff, Prod.mk.injEq,
    Work.launch.injEq, reduceCtorEq, and_false, exists_false, false_or, List.mem_filter]
  constructor
  · rintro ⟨l', ⟨hl, hw⟩, ⟨rfl, rfl, rfl⟩, rfl⟩
    exact ⟨hl, hw, rfl, rfl, rfl⟩
  · rintro ⟨hl, hw, rfl, rfl, rfl⟩
    exact ⟨l, ⟨hl, hw⟩, ⟨rfl, rfl, rfl⟩, rfl⟩

theorem launchWaiting_iff {s : State} {l : Nat} : launchWaiting s l = true ↔ (s.ctx (s.launch l).ctx).runs = true ∧ (s.launch l).retired = false ∧
    (launchRestores s l = true ∨ (eligibleCores s (s.launch l).ctx (s.launch l).fit (s.launch l).crew ≠ [] ∧ eligible s l ≠ [])) := by
  simp [launchWaiting, and_assoc]

-- Task queues (R83, R121) -------------------------------------------------------------------------------------------------------------

/-- The head of a filtered range is the least number that passes. -/
theorem filter_range_head {p : Nat → Bool} {n t : Nat} {l : List Nat} (h : (List.range n).filter p = t :: l) :
    (t < n ∧ p t = true) ∧ ∀ u, u < n → p u = true → t ≤ u := by
  have hin : t ∈ (List.range n).filter p := by rw [h]; exact List.mem_cons_self
  have hsorted : ((List.range n).filter p).Pairwise (· < ·) := List.pairwise_lt_range.filter _
  rw [h] at hsorted
  refine ⟨by simpa using hin, fun u hu hp => ?_⟩
  have hu : u ∈ t :: l := by
    rw [← h]
    simp [hu, hp]
  obtain rfl | hu := List.mem_cons.1 hu
  · exact le_rfl
  · exact ((List.pairwise_cons.1 hsorted).1 u hu).le

/-- A saved task of a queue that some core can take. -/
def restorable (s : State) (c q t : Nat) : Bool :=
  ((s.team t).ctx == c && (s.team t).place.saved? && (match (s.team t).task with | some (n, _) => n == q | none => false)) && !(restoreCores s t).isEmpty

theorem taskRestores_eq (s : State) (c q : Nat) : taskRestores s c q = (List.range s.teams.length).filter (restorable s c q) := by
  rw [taskRestores, teamIds, List.filter_filter]
  exact List.filter_congr fun t _ => Bool.and_comm _ _

theorem restorable_iff {s : State} {c q t : Nat} : restorable s c q t = true ↔
    (s.team t).ctx = c ∧ (s.team t).place.saved? = true ∧ (∃ n, (s.team t).task = some (q, n)) ∧ restoreCores s t ≠ [] := by
  rw [restorable]
  cases (s.team t).task with
  | none => simp
  | some p =>
    obtain ⟨k, n⟩ := p
    simp [and_assoc]

/-- A task queue whose descriptor has a record to pop. -/
def Poppable (s : State) (c q : Nat) (d : List Word) : Prop :=
  wfield (getAt 0 d 1) 63 1 = 1 ∧ getAt 0 d 2 ≠ getAt 0 d 3 ∧ (256 + q ∈ (s.ctx c).stopped → wfield (getAt 0 d 4) 63 1 = 0)

/-- The record at TAIL of a descriptor. -/
def nextRecord (s : State) (c : Nat) (d : List Word) : List Word :=
  (peek s c (wfield (getAt 0 d 0) 0 57 + 128 * ((getAt 0 d 3).toNat % 2 ^ wfield (getAt 0 d 1) 0 5)) 128).getD []

theorem topBit_zero (w : Word) : wfield w 63 1 = 0 ↔ ¬ wfield w 63 1 = 1 := by
  have hlt : wfield w 63 1 < 2 := Nat.mod_lt _ (by decide)
  omega

/-- The closing test of a task queue's descriptor. -/
theorem closed_iff {s : State} {c q : Nat} {d : List Word} : (decide (wfield (getAt 0 d 1) 63 1 = 0) || getAt 0 d 2 == getAt 0 d 3 ||
    ((s.ctx c).stopped.contains (256 + q) && wfield (getAt 0 d 4) 63 1 == 1)) = true ↔ ¬ Poppable s c q d := by
  simp only [Poppable, topBit_zero, Bool.or_eq_true, Bool.and_eq_true, decide_eq_true_eq, beq_iff_eq, List.contains_eq_mem]
  tauto

theorem taskCores_none {s : State} {c q : Nat} (h : ¬ ((s.ctx c).wen = true ∧ (s.ctx c).runs = true) ∨ peek s c ((s.ctx c).taskDesc q) 64 = none) :
    taskCores s c q = none := by
  unfold taskCores
  dsimp only
  split
  · rfl
  · rename_i hgo
    obtain h | h := h
    · exact absurd (by simpa using hgo) h
    · rw [h]

theorem taskCores_some {s : State} {c q : Nat} {d : List Word} (hwen : (s.ctx c).wen = true) (hruns : (s.ctx c).runs = true)
    (hd : peek s c ((s.ctx c).taskDesc q) 64 = some d) (p : Nat) : (taskCores s c q).map Prod.fst = some p ↔
      Poppable s c q d ∧ eligibleCores s c (taskFit d (nextRecord s c d)) 1 ≠ [] ∧ p = wfield (getAt 0 d 1) 43 3 := by
  have hgo : ¬ (!(s.ctx c).wen || !(s.ctx c).runs) = true := by simp [hwen, hruns]
  unfold taskCores
  dsimp only
  rw [if_neg hgo, hd]
  dsimp only
  by_cases hpop : Poppable s c q d
  · rw [if_neg (fun h => closed_iff.1 h hpop), ← nextRecord]
    generalize eligibleCores s c (taskFit d (nextRecord s c d)) 1 = cores
    cases cores with
    | nil => simp
    | cons k l =>
      simp only [List.isEmpty_cons, Bool.false_eq_true, if_false, Option.map_some, Option.some.injEq, ne_eq, reduceCtorEq, not_false_eq_true, hpop,
        true_and]
      exact eq_comm
  · rw [if_pos (closed_iff.2 hpop)]
    exact ⟨fun h => (nomatch h), fun h => absurd h.1 hpop⟩

/-- The priority of a task queue that has work some core can take (R83). -/
theorem taskWaiting_iff {s : State} {c q p : Nat} : taskWaiting s c q = some p ↔
    (∃ t, (t < s.teams.length ∧ restorable s c q t = true) ∧ p = (s.team t).prio ∧ ∀ u, u < s.teams.length → restorable s c q u = true → t ≤ u) ∨
    (∀ t, ¬ (t < s.teams.length ∧ restorable s c q t = true)) ∧ (taskCores s c q).map Prod.fst = some p := by
  rw [taskWaiting, taskRestores_eq]
  cases hl : (List.range s.teams.length).filter (restorable s c q) with
  | nil =>
    have hnone : ∀ t, ¬ (t < s.teams.length ∧ restorable s c q t = true) := fun t ⟨ht, hr⟩ =>
      List.filter_eq_nil_iff.1 hl t (List.mem_range.2 ht) hr
    exact ⟨fun h => .inr ⟨hnone, h⟩, fun h => h.elim (fun ⟨t, ht, _⟩ => absurd ht (hnone t)) fun h => h.2⟩
  | cons t l =>
    obtain ⟨ht, hleast⟩ := filter_range_head hl
    constructor
    · intro h
      exact .inl ⟨t, ht, (Option.some.inj h).symm, hleast⟩
    · rintro (⟨u, hu, rfl, hu'⟩ | ⟨hnone, -⟩)
      · obtain rfl : t = u := le_antisymm (hleast u hu.1 hu.2) (hu' t ht.1 ht.2)
        rfl
      · exact absurd ht (hnone t)

end Sys2Proof.RoomAndWork
end

section
/-! PROOFS. Producers (R87) and the reservations that acceptance makes on the peg board (R88, R89). -/

namespace Sys2Proof.Reservations

open Machine Laws PegBoard RoomAndWork

-- Cards that wait for a card (R87) ----------------------------------------------------------------------------------------------------

theorem mem_openCards {s : State} {c m : Nat} : m ∈ openCards s c ↔ m < s.launches.length ∧ (s.launch m).ctx = c ∧ (s.launch m).retired = false := by
  simp [openCards]

/-- A set of cards of a context that holds every open card which waits for the card at a position or for one of the set. -/
def WaitClosed (s : State) (c : Nat) (start : Nat × Nat) (W : List Nat) : Prop :=
  ∀ m, m ∈ openCards s c → (start ∈ cardDeps (s.launch m).card ∨
    ∃ k ∈ W, ((s.launch k).queue, (s.launch k).pos) ∈ cardDeps (s.launch m).card ∨ k ∈ (s.launch m).prods) → m ∈ W

/-- The goals are the card itself and those of the cards collected. -/
def GoalsOf (s : State) (start : Nat × Nat) (goals : List (Nat × Nat)) (acc : List Nat) : Prop :=
  ∀ p, p ∈ goals ↔ p = start ∨ ∃ k ∈ acc, p = ((s.launch k).queue, (s.launch k).pos)

/-- The cards found next: open, not collected, and waiting for a goal or a card collected. -/
def nextWaiters (s : State) (c : Nat) (goals : List (Nat × Nat)) (acc : List Nat) : List Nat :=
  (openCards s c).filter fun l => !acc.contains l && ((cardDeps (s.launch l).card).any goals.contains || (s.launch l).prods.any acc.contains)

theorem waitersOf_succ (s : State) (c fuel : Nat) (goals : List (Nat × Nat)) (acc : List Nat) : waitersOf s c (fuel + 1) goals acc =
    if (nextWaiters s c goals acc).isEmpty then acc
    else waitersOf s c fuel (goals ++ (nextWaiters s c goals acc).map fun l => ((s.launch l).queue, (s.launch l).pos)) (acc ++ nextWaiters s c goals acc) :=
  rfl

theorem mem_nextWaiters {s : State} {c : Nat} {start : Nat × Nat} {goals : List (Nat × Nat)} {acc : List Nat} (hg : GoalsOf s start goals acc) {m : Nat} :
    m ∈ nextWaiters s c goals acc ↔ m ∈ openCards s c ∧ m ∉ acc ∧ (start ∈ cardDeps (s.launch m).card ∨
      ∃ k ∈ acc, ((s.launch k).queue, (s.launch k).pos) ∈ cardDeps (s.launch m).card ∨ k ∈ (s.launch m).prods) := by
  have hdeps : (∃ p ∈ cardDeps (s.launch m).card, p ∈ goals) ↔ start ∈ cardDeps (s.launch m).card ∨
      ∃ k ∈ acc, ((s.launch k).queue, (s.launch k).pos) ∈ cardDeps (s.launch m).card := by
    constructor
    · rintro ⟨p, hp, hgoal⟩
      obtain rfl | ⟨k, hk, rfl⟩ := (hg p).1 hgoal
      · exact .inl hp
      · exact .inr ⟨k, hk, hp⟩
    · rintro (h | ⟨k, hk, h⟩)
      · exact ⟨_, h, (hg _).2 (.inl rfl)⟩
      · exact ⟨_, h, (hg _).2 (.inr ⟨k, hk, rfl⟩)⟩
  simp only [nextWaiters, List.mem_filter, Bool.and_eq_true, Bool.not_eq_true', List.contains_eq_mem, decide_eq_false_iff_not, Bool.or_eq_true,
    List.any_eq_true, decide_eq_true_eq, hdeps, and_congr_right_iff]
  intro _ _
  constructor
  · rintro ((h | ⟨k, hk, h⟩) | ⟨k, hk, h⟩)
    · exact .inl h
    · exact .inr ⟨k, hk, .inl h⟩
    · exact .inr ⟨k, h, .inr hk⟩
  · rintro (h | ⟨k, hk, h | h⟩)
    · exact .inl (.inl h)
    · exact .inl (.inr ⟨k, hk, h⟩)
    · exact .inr ⟨k, h, hk⟩

/-- The cards that wait for a card, by chains: the least closed set, where the fuel is more than the cards not yet collected. -/
theorem waitersOf_least {s : State} {c : Nat} {start : Nat × Nat} : ∀ (fuel : Nat) (goals : List (Nat × Nat)) (acc : List Nat), GoalsOf s start goals acc →
    acc.Nodup → (∀ m ∈ acc, m ∈ openCards s c) → s.launches.length < fuel + acc.length → (∀ W, WaitClosed s c start W → ∀ m ∈ acc, m ∈ W) →
    WaitClosed s c start (waitersOf s c fuel goals acc) ∧ ∀ W, WaitClosed s c start W → ∀ m ∈ waitersOf s c fuel goals acc, m ∈ W
  | 0, _, acc, _, hnodup, hopen, hfuel, _ => by
    have hsub : acc ⊆ List.range s.launches.length := fun m hm => List.mem_range.2 (mem_openCards.1 (hopen m hm)).1
    have hle := (hnodup.subperm hsub).length_le
    rw [List.length_range] at hle
    omega
  | fuel + 1, goals, acc, hg, hnodup, hopen, hfuel, hleast => by
    have hnew := fun m => mem_nextWaiters (c := c) hg (m := m)
    rw [waitersOf_succ]
    by_cases hempty : (nextWaiters s c goals acc).isEmpty = true
    · rw [if_pos hempty]
      refine ⟨fun m hm hwaits => ?_, hleast⟩
      by_contra hout
      have hin := (hnew m).2 ⟨hm, hout, hwaits⟩
      rw [List.isEmpty_iff.1 hempty] at hin
      cases hin
    · rw [if_neg hempty]
      have hpos : 0 < (nextWaiters s c goals acc).length := List.length_pos_iff.2 fun h => hempty (List.isEmpty_iff.2 h)
      refine waitersOf_least fuel _ _ (fun p => ?_) ?_ (fun m hm => ?_) (by rw [List.length_append]; omega) fun W hW m hm => ?_
      · rw [List.mem_append, hg p, List.mem_map]
        constructor
        · rintro ((h | ⟨k, hk, h⟩) | ⟨k, hk, rfl⟩)
          · exact .inl h
          · exact .inr ⟨k, List.mem_append_left _ hk, h⟩
          · exact .inr ⟨k, List.mem_append_right _ hk, rfl⟩
        · rintro (h | ⟨k, hk, h⟩)
          · exact .inl (.inl h)
          · obtain hk | hk := List.mem_append.1 hk
            · exact .inl (.inr ⟨k, hk, h⟩)
            · exact .inr ⟨k, hk, h.symm⟩
      · have hrange : (nextWaiters s c goals acc).Nodup := (List.nodup_range.filter _).filter _
        exact List.nodup_append.2 ⟨hnodup, hrange, fun a ha b hb hab => ((hnew b).1 hb).2.1 (hab ▸ ha)⟩
      · obtain hm | hm := List.mem_append.1 hm
        · exact hopen m hm
        · exact ((hnew m).1 hm).1
      · obtain hm | hm := List.mem_append.1 hm
        · exact hleast W hW m hm
        · obtain ⟨hm, -, hwaits⟩ := (hnew m).1 hm
          refine hW m hm (hwaits.imp_right ?_)
          rintro ⟨k, hk, h⟩
          exact ⟨k, hleast W hW k hk, h⟩

/-- The producers of a card (R87): open cards whose ranges meet its spans and that no chain makes wait for it. -/
theorem mem_producers {s : State} {x : Launch} {l : Nat} : l ∈ producers s x ↔ l ∈ openCards s x.ctx ∧
    (∃ o ∈ pegOuts (s.launch l).card, ∃ d ∈ pegDecls x.card, o.base ≤ (d.span x.teams).2 ∧ (d.span x.teams).1 ≤ o.base + o.cnt) ∧
    ∃ W, WaitClosed s x.ctx (x.queue, x.pos) W ∧ l ∉ W := by
  obtain ⟨hclosed, hleast⟩ := waitersOf_least (s := s) (c := x.ctx) (start := (x.queue, x.pos)) (s.launches.length + 1) [(x.queue, x.pos)] []
    (fun p => by simp) List.nodup_nil (fun m hm => by cases hm) (by simp) fun W _ m hm => by cases hm
  have hout : (∃ W, WaitClosed s x.ctx (x.queue, x.pos) W ∧ l ∉ W) ↔
      l ∉ waitersOf s x.ctx (s.launches.length + 1) [(x.queue, x.pos)] [] :=
    ⟨fun ⟨W, hW, h⟩ hin => h (hleast W hW l hin), fun h => ⟨_, hclosed, h⟩⟩
  rw [hout, producers]
  simp only [List.mem_filter, Bool.and_eq_true, Bool.not_eq_true', List.contains_eq_mem, decide_eq_false_iff_not, List.any_eq_true, List.mem_map,
    decide_eq_true_eq, exists_exists_and_eq_and]
  tauto

-- The tiles of a card (R73, R88) ------------------------------------------------------------------------------------------------------

theorem nodup_uni {a b : List Nat} (ha : a.Nodup) (hb : b.Nodup) : (uni a b).Nodup := by
  refine List.nodup_append.2 ⟨ha, hb.filter _, fun x hx y hy hxy => ?_⟩
  have hout := (List.mem_filter.1 hy).2
  simp [← hxy, hx] at hout

theorem mem_spanTiles {x : Launch} {n : Nat} : n ∈ spanTiles x ↔ ∃ d ∈ pegDecls x.card, (d.span x.teams).1 ≤ n ∧ n ≤ (d.span x.teams).2 := by
  have hfold : spanTiles x = (pegDecls x.card).foldl (fun acc d => uni acc (span (d.span x.teams).1 ((d.span x.teams).2 + 1 - (d.span x.teams).1))) [] := rfl
  rw [hfold, Completion.mem_foldl_uni]
  simp only [List.not_mem_nil, false_or, mem_span]
  refine exists_congr fun d => and_congr_right fun _ => ?_
  omega

theorem nodup_spanTiles (x : Launch) : (spanTiles x).Nodup := by
  have hspan : ∀ a n, (span a n).Nodup := fun a n => List.nodup_range.map fun i j h => by simpa using h
  have key : ∀ (l : List PegDecl) (acc : List Nat), acc.Nodup →
      (l.foldl (fun acc d => uni acc (span (d.span x.teams).1 ((d.span x.teams).2 + 1 - (d.span x.teams).1))) acc).Nodup := by
    intro l
    induction l with
    | nil => exact fun acc h => h
    | cons d l ih => exact fun acc h => ih _ (nodup_uni h (hspan _ _))
  exact key _ [] List.nodup_nil

-- One reservation more (R88) ----------------------------------------------------------------------------------------------------------

/-- One reservation more at a tile that has an entry. -/
def reserveOne (c : Nat) (s : State) (n : Nat) : State :=
  match pegAt s c n with
  | some p => setPeg s { p with count := p.count + 1 }
  | none => s

theorem reserveOne_step (c : Nat) (s : State) (n : Nat) : PegStep c n (fun q : Peg => { q with count := q.count + 1 }) s (reserveOne c s n) := by
  unfold reserveOne
  cases hn : pegAt s c n with
  | none => exact pegStep_id fun p hp => by rw [hn] at hp; cases hp
  | some p => exact pegStep_setPeg (f := fun q : Peg => { q with count := q.count + 1 }) hn (fun _ => rfl) rfl rfl

theorem pegAt_isSome {s : State} {c n : Nat} {p : Peg} (hp : p ∈ s.pegs) (hc : p.ctx = c) (hn : p.tile = n) : pegAt s c n ≠ none := by
  intro h
  have := List.find?_eq_none.1 h p hp
  simp [hc, hn] at this

theorem reserveOne_none {c n : Nat} {s : State} (h : pegAt s c n = none) : reserveOne c s n = s := by rw [reserveOne, h]

theorem reserveOne_some {c n : Nat} {s : State} {p : Peg} (h : pegAt s c n = some p) :
    reserveOne c s n = setPeg s { p with count := p.count + 1 } := by rw [reserveOne, h]

/-- An entry of the board after one was replaced: the new one, or one of another tile. -/
theorem mem_setPeg {s : State} {p q : Peg} (h : q ∈ (setPeg s p).pegs) :
    (q.ctx = p.ctx ∧ q.tile = p.tile ∧ q.count = p.count) ∨ (q ∈ s.pegs ∧ ¬ (q.ctx = p.ctx ∧ q.tile = p.tile)) := by
  obtain ⟨r, hr, he⟩ := List.mem_map.1 h
  split at he
  · rw [← he]
    exact .inl ⟨rfl, rfl, rfl⟩
  · rename_i hkey
    rw [← he]
    exact .inr ⟨hr, by simpa using hkey⟩

/-- The entries that reservations keep from being reclaimed: those of the tiles reserved join those reserved before. -/
theorem reserved_entries (c : Nat) : ∀ (l : List Nat) (s : State), ((l.foldl (reserveOne c) s).pegs.filter fun p => p.count != 0).length =
    (s.pegs.filter fun p => p.count != 0 || (p.ctx == c && l.contains p.tile)).length
  | [], s => by simp
  | n :: l, s => by
    rw [List.foldl_cons, reserved_entries c l]
    cases hn : pegAt s c n with
    | none =>
      rw [reserveOne_none hn]
      refine congrArg List.length (List.filter_congr fun p hp => ?_)
      have hother : ¬ (p.ctx = c ∧ p.tile = n) := fun ⟨hc, ht⟩ => pegAt_isSome hp hc ht hn
      rw [Bool.eq_iff_iff]
      simp only [Bool.or_eq_true, Bool.and_eq_true, beq_iff_eq, List.contains_cons]
      tauto
    | some q =>
      obtain ⟨hqc, hqn⟩ := pegAt_keys hn
      have hpegs : (reserveOne c s n).pegs = s.pegs.map fun r => if r.ctx == c && r.tile == n then { q with count := q.count + 1, age := s.clock + 1 } else r := by
        rw [reserveOne_some hn, ← hqc, ← hqn]
        rfl
      rw [hpegs, List.filter_map, List.length_map]
      refine congrArg List.length (List.filter_congr fun p _ => ?_)
      rw [Function.comp_apply, Bool.eq_iff_iff]
      simp only [Bool.or_eq_true, Bool.and_eq_true, beq_iff_eq, List.contains_cons]
      by_cases hkey : p.ctx = c ∧ p.tile = n
      · simp [hkey]
      · rw [if_neg hkey]
        tauto

/-- A tile no entry of which may be reclaimed. -/
def Kept (s : State) (c n : Nat) : Prop := ∀ p ∈ s.pegs, p.ctx = c → p.tile = n → 0 < p.count

theorem kept_of_none {s : State} {c n : Nat} (h : pegAt s c n = none) : Kept s c n := fun _ hp hc hn => absurd h (pegAt_isSome hp hc hn)

theorem reserveOne_kept {s : State} {c m n : Nat} (h : m = n ∨ Kept s c n) : Kept (reserveOne c s m) c n := by
  cases hm : pegAt s c m with
  | none =>
    rw [reserveOne_none hm]
    obtain rfl | h := h
    · exact kept_of_none hm
    · exact h
  | some q =>
    obtain ⟨hqc, hqm⟩ := pegAt_keys hm
    rw [reserveOne_some hm]
    intro p hp hc hn
    obtain ⟨-, -, hcount⟩ | ⟨hp, hkey⟩ := mem_setPeg hp
    · rw [hcount]
      exact Nat.succ_pos _
    · obtain rfl | h := h
      · exact absurd ⟨hc.trans hqc.symm, hn.trans hqm.symm⟩ hkey
      · exact h p hp hc hn

/-- After reservations every entry of a tile reserved is reserved, whichever of several of one tile. -/
theorem reserved_kept (c n : Nat) : ∀ (l : List Nat) (s : State), n ∈ l ∨ Kept s c n → Kept (l.foldl (reserveOne c) s) c n
  | [], _, h => h.resolve_left List.not_mem_nil
  | m :: l, s, h => by
    refine reserved_kept c n l _ ?_
    obtain h | h := h
    · obtain rfl | h := List.mem_cons.1 h
      · exact .inr (reserveOne_kept (.inl rfl))
      · exact .inl h
    · exact .inr (reserveOne_kept (.inr h))

-- Entries made (R88, R89) -------------------------------------------------------------------------------------------------------------

/-- What reclamation removes holds no reservation. -/
theorem reclaim_cases (s : State) : reclaim s = s ∨ ∃ p ∈ s.pegs, p.count = 0 ∧
    reclaim s = { s with pegs := s.pegs.filter fun q => !(q.ctx == p.ctx && q.tile == p.tile) } := by
  have key : ∀ (l : List Peg) (b : Option Peg), (∀ q, b = some q → q ∈ s.pegs ∧ q.count = 0) → (∀ p ∈ l, p ∈ s.pegs) → ∀ q,
      l.foldl (fun (b : Option Peg) p =>
        if p.count ≠ 0 then b else match b with | none => some p | some q => if p.age < q.age then some p else some q) b = some q →
      q ∈ s.pegs ∧ q.count = 0 := by
    intro l
    induction l with
    | nil => exact fun b hb _ q hq => hb q hq
    | cons p l ih =>
      refine fun b hb hl => ih _ (fun q hq => ?_) fun p hp => hl p (List.mem_cons_of_mem _ hp)
      have hp : p ∈ s.pegs := hl p List.mem_cons_self
      dsimp only at hq
      split at hq
      · exact hb q hq
      · rename_i hzero
        have hzero : p.count = 0 := not_not.1 hzero
        cases b with
        | none =>
          obtain rfl := Option.some.inj hq
          exact ⟨hp, hzero⟩
        | some r =>
          dsimp only at hq
          split at hq
          · obtain rfl := Option.some.inj hq
            exact ⟨hp, hzero⟩
          · exact hb q hq
  unfold reclaim
  dsimp only
  split
  · rename_i p hp
    obtain ⟨hin, hzero⟩ := key s.pegs none (fun q hq => by cases hq) (fun p hp => hp) p hp
    exact .inr ⟨p, hin, hzero, rfl⟩
  · exact .inl rfl

theorem reclaim_kept {s : State} {c n : Nat} (h : Kept s c n) : pegAt (reclaim s) c n = pegAt s c n ∧ Kept (reclaim s) c n := by
  obtain he | ⟨p, hp, hzero, he⟩ := reclaim_cases s
  · rw [he]
    exact ⟨rfl, h⟩
  · have hother : ¬ (p.ctx = c ∧ p.tile = n) := fun ⟨hc, hn⟩ => by
      have := h p hp hc hn
      omega
    rw [he]
    refine ⟨?_, fun q hq => h q (List.mem_filter.1 hq).1⟩
    rw [pegAt, List.find?_filter]
    refine congrArg (fun f => List.find? f s.pegs) (funext fun q => ?_)
    by_cases hq : q.ctx = c ∧ q.tile = n
    · obtain ⟨rfl, rfl⟩ := hq
      have hne : (q.ctx == p.ctx && q.tile == p.tile) = false := by
        simp only [Bool.and_eq_false_iff, beq_eq_false_iff_ne]
        by_contra hboth
        simp only [not_or, not_not] at hboth
        exact hother ⟨hboth.1.symm, hboth.2.symm⟩
      simp [hne]
    · have hno : (q.ctx == c && q.tile == n) = false := by
        simp only [Bool.and_eq_false_iff, beq_eq_false_iff_ne]
        tauto
      simp [hno]

theorem addPeg_kept {s : State} {p : Peg} {c n : Nat} (h : Kept s c n) (hp : 0 < p.count) : Kept (addPeg s p) c n ∧
    pegAt (addPeg s p) c n = (pegAt s c n).or (if p.ctx == c && p.tile == n then some { p with age := (addPeg s p).clock } else none) := by
  obtain ⟨u, hu, hkept, hat⟩ : ∃ u : State, addPeg s p = { u with clock := u.clock + 1, pegs := u.pegs ++ [{ p with age := u.clock + 1 }] } ∧
      Kept u c n ∧ pegAt u c n = pegAt s c n := by
    unfold addPeg
    dsimp only
    split
    · exact ⟨reclaim s, rfl, (reclaim_kept h).2, (reclaim_kept h).1⟩
    · exact ⟨s, rfl, h, rfl⟩
  rw [hu, ← hat]
  constructor
  · intro q hq hc hn
    obtain hq | hq := List.mem_append.1 hq
    · exact hkept q hq hc hn
    · rw [List.mem_singleton.1 hq]
      exact hp
  · rw [pegAt, List.find?_append, List.find?_singleton]
    rfl

/-- Entries made at tiles that have none: each is new, and no reserved one goes. -/
theorem addPegs_kept (c : Nat) : ∀ (l : List Nat) (s : State), l.Nodup → (∀ n ∈ l, pegAt s c n = none) →
    (∀ n, n ∉ l → Kept s c n → pegAt (l.foldl (fun s n => addPeg s { ctx := c, tile := n, count := 1 }) s) c n = pegAt s c n) ∧
    ∀ n ∈ l, ∃ a, pegAt (l.foldl (fun s n => addPeg s { ctx := c, tile := n, count := 1 }) s) c n = some { ctx := c, tile := n, count := 1, age := a }
  | [], s, _, _ => ⟨fun _ _ _ => rfl, fun _ h => by cases h⟩
  | m :: l, s, hnodup, hnone => by
    obtain ⟨hm, hnodup⟩ := List.nodup_cons.1 hnodup
    have hstep := fun n (h : Kept s c n) => addPeg_kept (p := { ctx := c, tile := m, count := 1 }) h (Nat.one_pos)
    have hother : ∀ n, n ≠ m → Kept s c n → pegAt (addPeg s { ctx := c, tile := m, count := 1 }) c n = pegAt s c n := fun n hn h => by
      have hno : (c == c && m == n) = false := by simp [Ne.symm hn]
      rw [(hstep n h).2, hno]
      exact Option.or_none
    obtain ⟨hkeep, hnew⟩ := addPegs_kept c l (addPeg s { ctx := c, tile := m, count := 1 }) hnodup fun n hn => by
      have hns := hnone n (List.mem_cons_of_mem _ hn)
      rw [hother n (fun he => hm (he ▸ hn)) (kept_of_none hns), hns]
    refine ⟨fun n hn h => ?_, fun n hn => ?_⟩
    · obtain ⟨hne, hn⟩ := not_or.1 (fun h => hn (List.mem_cons.2 h))
      rw [List.foldl_cons, hkeep n hn (hstep n h).1, hother n hne h]
    · obtain rfl | hn := List.mem_cons.1 hn
      · have hns := hnone n List.mem_cons_self
        obtain ⟨hk, hat⟩ := hstep n (kept_of_none hns)
        refine ⟨(addPeg s { ctx := c, tile := n, count := 1 }).clock, ?_⟩
        have hyes : (c == c && n == n) = true := by simp
        rw [List.foldl_cons, hkeep n hm hk, hat, hns, hyes]
        rfl
      · exact hnew n hn

-- The reservations of a card (R88) ----------------------------------------------------------------------------------------------------

section
variable (s : State) (x : Launch)

/-- The tiles of a card's spans that have an entry. -/
def haveTiles : List Nat := (spanTiles x).filter fun n => (pegAt s x.ctx n).isSome

/-- A tile that a producer's range covers. -/
def coveredTile (n : Nat) : Bool := x.prods.any fun l => (pegOuts (s.launch l).card).any fun o => o.covers n

/-- The tiles of a card's spans that have none, which a producer's range covers. -/
def makeTiles : List Nat := (spanTiles x).filter fun n => (pegAt s x.ctx n).isNone && coveredTile s x n

/-- The board with a reservation more on every tile that has an entry. -/
def reserved : State := (haveTiles s x).foldl (reserveOne x.ctx) s

theorem reserve_eq : reserve s x = if pegRoom (reserved s x) < (makeTiles s x).length then (s, { x with fallback := true })
    else ((makeTiles s x).foldl (fun s n => addPeg s { ctx := x.ctx, tile := n, count := 1 }) (reserved s x),
      { x with held := haveTiles s x ++ makeTiles s x,
               metTiles := (spanTiles x).filter fun n => !(haveTiles s x).contains n && !(makeTiles s x).contains n }) := rfl

end

section
variable {s : State} {x : Launch}

theorem mem_haveTiles {n : Nat} : n ∈ haveTiles s x ↔ n ∈ spanTiles x ∧ pegAt s x.ctx n ≠ none := by
  rw [haveTiles, List.mem_filter, Option.isSome_iff_ne_none]

theorem coveredTile_iff {n : Nat} : coveredTile s x n = true ↔ ∃ l ∈ x.prods, ∃ o ∈ pegOuts (s.launch l).card, o.base ≤ n ∧ n ≤ o.base + o.cnt := by
  simp [coveredTile, PegOut.covers]

theorem mem_makeTiles {n : Nat} : n ∈ makeTiles s x ↔ n ∈ spanTiles x ∧ pegAt s x.ctx n = none ∧ coveredTile s x n = true := by
  rw [makeTiles, List.mem_filter, Bool.and_eq_true, Option.isNone_iff_eq_none]

/-- The room that is left on the board once the tiles that have entries are reserved. -/
theorem pegRoom_reserved : pegRoom (reserved s x) = 65536 - (s.pegs.filter fun p => p.count != 0 || (p.ctx == x.ctx &&
    (pegDecls x.card).any fun d => (d.span x.teams).1 ≤ p.tile && p.tile ≤ (d.span x.teams).2)).length := by
  rw [pegRoom, reserved, reserved_entries]
  refine congrArg (65536 - List.length ·) (List.filter_congr fun p hp => ?_)
  rw [Bool.eq_iff_iff]
  simp only [Bool.or_eq_true, Bool.and_eq_true, beq_iff_eq, List.contains_eq_mem, decide_eq_true_eq, mem_haveTiles, mem_spanTiles, List.any_eq_true]
  have hsome : p.ctx = x.ctx → pegAt s x.ctx p.tile ≠ none := fun hc => pegAt_isSome hp hc rfl
  tauto

/-- The fallback path is taken where the entries to be made, however listed, are more than the board has room for. -/
theorem fallback_iff : pegRoom (reserved s x) < (makeTiles s x).length ↔
    ∃ l : List Nat, l.Nodup ∧ (∀ n ∈ l, n ∈ makeTiles s x) ∧ pegRoom (reserved s x) < l.length :=
  ⟨fun h => ⟨_, (nodup_spanTiles x).filter _, fun _ hn => hn, h⟩, fun ⟨_, hnodup, hsub, h⟩ => lt_of_lt_of_le h (hnodup.subperm hsub).length_le⟩

/-- The entries after a card's reservations: one reservation more where one stood, and new ones where a producer's range covers. -/
theorem reserve_board (hroom : ¬ pegRoom (reserved s x) < (makeTiles s x).length) {n : Nat} (hn : n ∈ spanTiles x) :
    (∀ p, pegAt s x.ctx n = some p → n ∈ (reserve s x).2.held ∧
      ∃ q, pegAt (reserve s x).1 x.ctx n = some q ∧ q.count = p.count + 1 ∧ q.gen = p.gen ∧ q.set = p.set) ∧
    (pegAt s x.ctx n = none → coveredTile s x n = true → n ∈ (reserve s x).2.held ∧
      ∃ q, pegAt (reserve s x).1 x.ctx n = some q ∧ q.count = 1 ∧ q.set = false) ∧
    (n ∈ (reserve s x).2.metTiles ↔ pegAt s x.ctx n = none ∧ ¬ coveredTile s x n = true) := by
  have hnodup : (haveTiles s x).Nodup := (nodup_spanTiles x).filter _
  have hmake : (makeTiles s x).Nodup := (nodup_spanTiles x).filter _
  obtain ⟨-, hshape⟩ := pegFold (reserveOne_step x.ctx) (haveTiles s x) s
  have hnone : ∀ m ∈ makeTiles s x, pegAt (reserved s x) x.ctx m = none := fun m hm => by
    obtain ⟨-, hm, -⟩ := mem_makeTiles.1 hm
    rw [← pegShape_none] at hm ⊢
    rw [reserved, hshape, hm]
    rfl
  obtain ⟨hkeep, hnew⟩ := addPegs_kept x.ctx (makeTiles s x) (reserved s x) hmake hnone
  rw [reserve_eq, if_neg hroom]
  refine ⟨fun p hp => ?_, fun hnot hcov => ?_, ?_⟩
  · have hin : n ∈ haveTiles s x := mem_haveTiles.2 ⟨hn, by rw [hp]; simp⟩
    have hout : n ∉ makeTiles s x := fun h => by
      rw [(mem_makeTiles.1 h).2.1] at hp
      cases hp
    have hpeg := hshape n
    rw [List.count_eq_one_of_mem hnodup hin, Function.iterate_one, pegShape_of_some hp] at hpeg
    obtain ⟨q, hq, hage⟩ := exists_of_pegShape hpeg
    have hcount := congrArg Peg.count hage
    have hgen := congrArg Peg.gen hage
    have hset := congrArg Peg.set hage
    refine ⟨List.mem_append_left _ hin, q, ?_, hcount, hgen, hset⟩
    exact (hkeep n hout (reserved_kept _ _ _ _ (.inl hin))).trans hq
  · have hin : n ∈ makeTiles s x := mem_makeTiles.2 ⟨hn, hnot, hcov⟩
    obtain ⟨a, ha⟩ := hnew n hin
    exact ⟨List.mem_append_right _ hin, _, ha, rfl, rfl⟩
  · simp only [List.mem_filter, hn, true_and, Bool.and_eq_true, Bool.not_eq_true', List.contains_eq_mem, decide_eq_false_iff_not, mem_haveTiles,
      mem_makeTiles]
    tauto

end

end Sys2Proof.Reservations
end

section
/-! PROOFS. Dealing passes (R82 to R84, R91, R92): the crews that a stale peg kills, and the chunk of teams that a pass deals. -/

namespace Sys2Proof.Dealing

open Machine Laws Kills RoomAndWork CommandWords

-- Stale crews (R91) -------------------------------------------------------------------------------------------------------------------

/-- One stale team's crew killed: the members that are not gone. -/
def killCrew (l crew : Nat) (s : State) (p : Nat × Nat) : State :=
  killUndealt s l 0x11 p.2 ((span (p.1 / crew * crew) crew).filter fun u => !(s.launch l).gone.contains u)

theorem killCrews_launch (l crew : Nat) : ∀ (ps : List (Nat × Nat)) (s : State),
    ps.foldl (killCrew l crew) s = { s with launches := (ps.foldl (killCrew l crew) s).launches } ∧
    ∀ u, u ∈ ((ps.foldl (killCrew l crew) s).launch l).gone ↔ u ∈ (s.launch l).gone ∨ ∃ p ∈ ps, u ∈ span (p.1 / crew * crew) crew
  | [], s => ⟨rfl, fun u => by simp⟩
  | p :: ps, s => by
    obtain ⟨hframe, ⟨k, f, q, hl⟩, -⟩ := killUndealt_launch l 0x11 p.2 ((span (p.1 / crew * crew) crew).filter fun u => !(s.launch l).gone.contains u) s
    obtain ⟨hframe', hgone⟩ := killCrews_launch l crew ps (killCrew l crew s p)
    rw [← killCrew] at hframe hl
    refine ⟨?_, fun u => ?_⟩
    · rw [List.foldl_cons, hframe', hframe]
    · rw [List.foldl_cons, hgone, hl]
      simp only [List.mem_append, List.mem_filter, Bool.not_eq_true', List.contains_eq_mem, decide_eq_false_iff_not, List.mem_cons, exists_eq_or_imp]
      tauto

/-- The undealt teams of a launch that a stale tile ends, each with what its kill says of it. -/
def staleTeams (s : State) (l : Nat) : List (Nat × Nat) :=
  (missing (s.launch l).teams (s.launch l).gone).filterMap fun t =>
    match teamNeed s (s.launch l) t with
    | .stale n g => some (t, g * 2 ^ 24 + n)
    | _ => none

theorem killStale_eq (s : State) (l : Nat) : killStale s l =
    if (s.launch l).retired || (s.launch l).fallback || (pegDecls (s.launch l).card).isEmpty then s
    else (staleTeams s l).foldl (killCrew l (s.launch l).crew) s := rfl

theorem killStale_frame (s : State) (l : Nat) : killStale s l = { s with launches := (killStale s l).launches } := by
  rw [killStale_eq]
  split
  · rfl
  · exact (killCrews_launch l _ _ s).1

theorem exists_staleTeams {s : State} {l t : Nat} : (∃ p ∈ staleTeams s l, p.1 = t) ↔
    (t < (s.launch l).teams ∧ t ∉ (s.launch l).gone) ∧ ∃ n g, teamNeed s (s.launch l) t = .stale n g := by
  simp only [staleTeams, List.mem_filterMap, mem_missing]
  constructor
  · rintro ⟨p, ⟨u, hu, hp⟩, rfl⟩
    cases hneed : teamNeed s (s.launch l) u with
    | met => rw [hneed] at hp; cases hp
    | waits => rw [hneed] at hp; cases hp
    | stale n g =>
      rw [hneed] at hp
      obtain rfl := Option.some.inj hp
      exact ⟨hu, n, g, hneed⟩
  · rintro ⟨hu, n, g, hneed⟩
    exact ⟨(t, g * 2 ^ 24 + n), ⟨t, hu, by rw [hneed]⟩, rfl⟩

/-- The crew of a team has an undealt member that a stale tile ends. -/
def StaleCrew (s : State) (l t : Nat) : Prop :=
  ∃ v, v < (s.launch l).teams ∧ v ∉ (s.launch l).gone ∧ (∃ n g, teamNeed s (s.launch l) v = .stale n g) ∧
    v / (s.launch l).crew = t / (s.launch l).crew

/-- The teams that a pass ends before it deals (R91): the crews with a stale member. -/
theorem killStale_gone {s : State} {l : Nat} (hlive : (s.launch l).retired = false) (hpath : (s.launch l).fallback = false)
    (hcrew : 1 ≤ (s.launch l).crew) (t : Nat) : t ∈ ((killStale s l).launch l).gone ↔ t ∈ (s.launch l).gone ∨
      StaleCrew s l t := by
  have hspan : ∀ v, t ∈ span (v / (s.launch l).crew * (s.launch l).crew) (s.launch l).crew ↔ v / (s.launch l).crew = t / (s.launch l).crew := fun v => by
    rw [mem_span, eq_comm, Nat.div_eq_iff hcrew]
    have := Nat.add_sub_assoc hcrew (v / (s.launch l).crew * (s.launch l).crew)
    omega
  have hstale : (∃ p ∈ staleTeams s l, t ∈ span (p.1 / (s.launch l).crew * (s.launch l).crew) (s.launch l).crew) ↔
      StaleCrew s l t := by
    constructor
    · rintro ⟨p, hp, ht⟩
      obtain ⟨⟨hlt, hout⟩, hneed⟩ := exists_staleTeams.1 ⟨p, hp, rfl⟩
      exact ⟨p.1, hlt, hout, hneed, (hspan _).1 ht⟩
    · rintro ⟨v, hlt, hout, hneed, hv⟩
      obtain ⟨p, hp, rfl⟩ := exists_staleTeams.2 ⟨⟨hlt, hout⟩, hneed⟩
      exact ⟨p, hp, (hspan _).2 hv⟩
  rw [killStale_eq]
  by_cases hdecl : (pegDecls (s.launch l).card).isEmpty = true
  · have hnone : ¬ StaleCrew s l t := by
      rintro ⟨v, -, -, hneed, -⟩
      obtain ⟨p, hp, -⟩ := teamNeed_stale.1 hneed
      rw [teamTiles, List.isEmpty_iff.1 hdecl] at hp
      cases hp
    rw [if_pos (by simp [hdecl])]
    exact ⟨.inl, fun h => h.resolve_right hnone⟩
  · rw [if_neg (by simpa [hlive, hpath] using hdecl), (killCrews_launch l _ _ s).2, hstale]

-- A team dealt (R84, R92) -------------------------------------------------------------------------------------------------------------

/-- The releases that made a team's tiles met, of tiles not met at acceptance. -/
def tileTokens (s : State) (x : Launch) (t : Nat) : List Nat :=
  (if x.fallback then [] else (teamTiles x t).filter fun p => !x.metTiles.contains p.1).foldl
    (fun acc p => match pegAt s x.ctx p.1 with | some e => uni acc e.rels | none => acc) []

/-- The team that a pass makes of a launch's team t. -/
def dealtTeam (s : State) (l cluster t : Nat) : Team :=
  let x := s.launch l
  { ctx := x.ctx, launch := some l, t, ngroups := x.ngroups, crew := x.crew, vregs := x.fit.vregs, spadKiB := x.fit.spad, trows := x.fit.trows
    det := x.det, prio := x.prio, tag := x.tag, budget := (x.w 4).toNat, entry := wfield (x.w 0) 0 57, place := .dealt cluster
    tokens := tileTokens s x t }

theorem dealTeam_eq (s : State) (l cluster t : Nat) : dealTeam s l cluster t =
    ({ s with teams := s.teams ++ [dealtTeam s l cluster t] }).setLaunch l { s.launch l with gone := (s.launch l).gone ++ [t] } := rfl

/-- What a team is dealt with depends on its launch's card, tiles and path, and on the board. -/
theorem dealtTeam_congr {s u : State} {l : Nat} {g : List Nat} (hl : u.launch l = { s.launch l with gone := g }) (hp : u.pegs = s.pegs)
    (cluster t : Nat) : dealtTeam u l cluster t = dealtTeam s l cluster t := by
  have hat : ∀ c n, pegAt u c n = pegAt s c n := fun c n => by rw [pegAt, pegAt, hp]
  rw [dealtTeam, hl, dealtTeam, tileTokens]
  simp only [hat]
  rfl

theorem dealTeams_eq (l cluster : Nat) (ts : List Nat) (s : State) : ∃ launches, ts.foldl (fun s t => dealTeam s l cluster t) s =
    { s with teams := s.teams ++ ts.map (dealtTeam s l cluster), launches := launches } ∧
    ({ s with launches := launches }).launch l = { s.launch l with gone := (s.launch l).gone ++ ts } := by
  induction ts generalizing s with
  | nil => exact ⟨s.launches, by simp, by simp⟩
  | cons t ts ih =>
    obtain ⟨launches, hfold, hl⟩ := ih (dealTeam s l cluster t)
    have hone : (dealTeam s l cluster t).launch l = { s.launch l with gone := (s.launch l).gone ++ [t] } := by
      rw [dealTeam_eq, launch_setLaunch_same]
    refine ⟨launches, ?_, ?_⟩
    · rw [List.foldl_cons, hfold]
      have hteams : ts.map (dealtTeam (dealTeam s l cluster t) l cluster) = ts.map (dealtTeam s l cluster) :=
        List.map_congr_left fun u _ => dealtTeam_congr hone rfl cluster u
      rw [hteams, dealTeam_eq]
      simp
    · rw [hone] at hl
      exact hl.trans (by simp)

theorem mem_tileTokens {s : State} {x : Launch} {t n : Nat} : n ∈ tileTokens s x t ↔ x.fallback = false ∧
    ∃ p ∈ teamTiles x t, p.1 ∉ x.metTiles ∧ ∃ e, pegAt s x.ctx p.1 = some e ∧ n ∈ e.rels := by
  have key : ∀ (l : List (Nat × Nat)) (acc : List Nat),
      n ∈ l.foldl (fun acc p => match pegAt s x.ctx p.1 with | some e => uni acc e.rels | none => acc) acc ↔
        n ∈ acc ∨ ∃ p ∈ l, ∃ e, pegAt s x.ctx p.1 = some e ∧ n ∈ e.rels := by
    intro l
    induction l with
    | nil => simp
    | cons p l ih =>
      intro acc
      rw [List.foldl_cons, ih]
      cases hp : pegAt s x.ctx p.1 with
      | none => simp [hp]
      | some e => simp [hp, Completion.mem_uni, or_assoc]
  rw [tileTokens, key]
  cases x.fallback with
  | true => simp
  | false => simp [and_assoc]

-- A dealing pass (R83, R84) -----------------------------------------------------------------------------------------------------------

theorem killStales_frame : ∀ (ls : List Nat) (s : State), ls.foldl killStale s = { s with launches := (ls.foldl killStale s).launches }
  | [], _ => rfl
  | l :: ls, s => by
    rw [List.foldl_cons, killStales_frame ls, killStale_frame s l]

/-- The board and the launches as a pass finds them once stale crews are gone. -/
def evaluated (s : State) : State := (List.range s.launches.length).foldl killStale s

/-- The chunk that a pass deals of a launch. -/
def chunk (s : State) (l : Nat) : List Nat :=
  (eligible s l).take (chunkOf (eligibleCores s (s.launch l).ctx (s.launch l).fit (s.launch l).crew).length (eligible s l).length (s.launch l).crew)

/-- A pass deals a chunk of the eligible teams of the launch it picks. -/
theorem dealingPass_deals {s : State} {cluster l : Nat} (hdeals : s.deals = true) (hbest : bestWork (evaluated s) = some (.launch l))
    (hrestores : launchRestores (evaluated s) l = false)
    (hcluster : ∃ k ∈ eligibleCores (evaluated s) ((evaluated s).launch l).ctx ((evaluated s).launch l).fit ((evaluated s).launch l).crew, k / 4 = cluster) :
    ∃ launches, exec (.dealingPass cluster) s =
      .next { s with teams := s.teams ++ (chunk (evaluated s) l).map (dealtTeam (evaluated s) l cluster), launches := launches } ∧
      ({ s with launches := launches }).launch l =
        { (evaluated s).launch l with gone := ((evaluated s).launch l).gone ++ chunk (evaluated s) l } := by
  have hframe : evaluated s = { s with launches := (evaluated s).launches } := killStales_frame _ s
  obtain ⟨launches, hfold, hl⟩ := dealTeams_eq l cluster (chunk (evaluated s) l) (evaluated s)
  have hany : (eligibleCores (evaluated s) ((evaluated s).launch l).ctx ((evaluated s).launch l).fit ((evaluated s).launch l).crew).any
      (fun k => k / 4 == cluster) = true := by
    obtain ⟨k, hk, hc⟩ := hcluster
    exact List.any_eq_true.2 ⟨k, hk, by simp [hc]⟩
  have hexec : exec (.dealingPass cluster) s = execDealingPass cluster s := rfl
  refine ⟨launches, ?_, hl⟩
  have heval : (List.range s.launches.length).foldl killStale s = evaluated s := rfl
  rw [hexec, execDealingPass, if_neg (by simp [hdeals])]
  simp only [heval, hbest]
  rw [if_neg (by simp [hrestores, hany]), ← chunk, hfold]
  congr 1
  rw [hframe]

end Sys2Proof.Dealing
end

section
/-! PROOFS. The checks of a card in the order of Table 3.13 (R69 to R74). -/

namespace Sys2Proof.CardChecks

open Machine Laws RoomAndWork

-- The first of some tests -------------------------------------------------------------------------------------------------------------

/-- One more than the place of the first test that holds, counted from n on; 0 where none does. -/
def firstOf : List Bool → Nat → Nat
  | [], _ => 0
  | b :: l, n => if b then n + 1 else firstOf l (n + 1)

theorem firstOf_at : ∀ (l : List Bool) (k n : Nat), getAt false l k = true → (∀ j, j < k → getAt false l j = false) → firstOf l n = n + k + 1
  | [], k, n, h, _ => by simp [getAt] at h
  | b :: l, 0, n, h, _ => if_pos h
  | b :: l, k + 1, n, h, hlow => by
    have hb : ¬ b = true := by
      have h0 : b = false := hlow 0 (Nat.succ_pos k)
      simp [h0]
    have ih := firstOf_at l k (n + 1) h fun j hj => hlow (j + 1) (Nat.succ_lt_succ hj)
    rw [firstOf, if_neg hb, ih]
    omega

theorem firstOf_none : ∀ (l : List Bool) (n : Nat), (∀ j, j < l.length → getAt false l j = false) → firstOf l n = 0
  | [], _, _ => rfl
  | b :: l, n, h => by
    have hb : ¬ b = true := by
      have h0 : b = false := h 0 (Nat.succ_pos _)
      simp [h0]
    rw [firstOf, if_neg hb, firstOf_none l (n + 1) fun j hj => h (j + 1) (Nat.succ_lt_succ hj)]

/-- The tests of a card, in order. -/
def cardTests (s : State) (x : Launch) : List Bool :=
  [x.teams = 0, x.ngroups = 0 || x.ngroups > 16 || x.crew = 0 || x.crew > 4, x.teams % x.crew ≠ 0,
    x.fit.vregs = 0 || x.fit.vregs > 256 || x.fit.groups * x.fit.vregs > 1024 || x.fit.spad > 512 || x.fit.trows > 1024 ||
      !hasCapacity s x.ctx x.fit x.crew,
    wfield (x.w 0) 0 2 ≠ 0 || wfield (x.w 1) 0 6 ≠ 0 || x.crec % 64 ≠ 0, bindingsBad (liveRegions s x.ctx) (cardBindings x.card), pegsBad x,
    (cardDeps x.card).any fun p => p.1 == x.queue && x.pos ≤ p.2, wfield (x.w 3) 48 6 ≠ x.ctx]

theorem cardReason_eq (s : State) (x : Launch) : cardReason s x = firstOf (cardTests s x) 0 := by
  simp only [cardTests, firstOf, cardReason, decide_eq_true_eq]

-- Capacity (R106) ---------------------------------------------------------------------------------------------------------------------

theorem hasCapacity_iff {s : State} {c : Nat} {f : Fit} {crew : Nat} : hasCapacity s c f crew = true ↔
    ∃ cl, cl < 64 ∧ (s.ctx c).part.getLsbD cl = true ∧ crew ≤ clusterMost (roomFull s) f cl := by
  simp only [hasCapacity, List.any_eq_true, mem_partition, decide_eq_true_eq, and_assoc]

-- Bindings (R71) ----------------------------------------------------------------------------------------------------------------------

theorem gateIn_iff {g base len : Nat} : gateIn g base len = true ↔ base < g + 8 ∧ g < base + len := by simp [gateIn]

theorem bad_iff {b : Binding} {others : List (Nat × Nat × Nat)} : b.bad others = true ↔
    (b.base % 128 ≠ 0 ∨ b.len = 0 ∨ b.len % 128 ≠ 0 ∨ b.gate % 8 ≠ 0) ∨ gateIn b.gate b.base b.len = true ∨
      ∃ o ∈ others, (b.base < o.1 + o.2.1 ∧ o.1 < b.base + b.len) ∨ gateIn b.gate o.1 o.2.1 = true := by
  simp only [Binding.bad, Binding.misaligned, Binding.overlaps, Bool.or_eq_true, Bool.and_eq_true, bne_iff_ne, ne_eq, beq_iff_eq, List.any_eq_true,
    decide_eq_true_eq, or_assoc]

/-- A binding of a card, at place i, fails R71: by itself, against a live region, or against another of the card. -/
def BindingFails (live : List (Nat × Nat × Nat)) (l : List Binding) (i : Nat) (b : Binding) : Prop :=
  (b.base % 128 ≠ 0 ∨ b.len = 0 ∨ b.len % 128 ≠ 0 ∨ b.gate % 8 ≠ 0) ∨ gateIn b.gate b.base b.len = true ∨
    (∃ o ∈ live, (b.base < o.1 + o.2.1 ∧ o.1 < b.base + b.len) ∨ gateIn b.gate o.1 o.2.1 = true) ∨
    ∃ (j : Nat) (y : Binding), j ≠ i ∧ l[j]? = some y ∧ ((b.base < y.base + y.len ∧ y.base < b.base + b.len) ∨ gateIn b.gate y.base y.len = true)

/-- The ranges and gate words of a card's bindings but the one at place i. -/
def otherBindings (l : List Binding) (i : Nat) : List (Nat × Nat × Nat) :=
  (List.range l.length).filterMap fun j => if j = i then none else (l[j]?).map fun x => (x.base, x.len, x.gate)

theorem mem_otherBindings {l : List Binding} {i : Nat} {o : Nat × Nat × Nat} : o ∈ otherBindings l i ↔
    ∃ (j : Nat) (y : Binding), j ≠ i ∧ l[j]? = some y ∧ o = (y.base, y.len, y.gate) := by
  simp only [otherBindings, List.mem_filterMap, List.mem_range]
  constructor
  · rintro ⟨j, -, ho⟩
    split at ho
    · cases ho
    · rename_i hj
      obtain ⟨y, hy, rfl⟩ := Option.map_eq_some_iff.1 ho
      exact ⟨j, y, hj, hy, rfl⟩
  · rintro ⟨j, y, hj, hy, rfl⟩
    refine ⟨j, (List.getElem?_eq_some_iff.1 hy).1, ?_⟩
    rw [if_neg hj, hy]
    rfl

theorem bad_binding_iff {live : List (Nat × Nat × Nat)} {l : List Binding} {i : Nat} {b : Binding} :
    b.bad (live ++ otherBindings l i) = true ↔ BindingFails live l i b := by
  simp only [BindingFails, bad_iff, List.mem_append, or_and_right, exists_or]
  refine or_congr_right (or_congr_right (or_congr_right ?_))
  constructor
  · rintro ⟨o, ho, h⟩
    obtain ⟨j, y, hj, hy, rfl⟩ := mem_otherBindings.1 ho
    exact ⟨j, y, hj, hy, h⟩
  · rintro ⟨j, y, hj, hy, h⟩
    exact ⟨_, mem_otherBindings.2 ⟨j, y, hj, hy, rfl⟩, h⟩

theorem bindingsBad_iff {live : List (Nat × Nat × Nat)} {l : List Binding} : bindingsBad live l = true ↔ 64 < live.length + l.length ∨
    ∃ (i : Nat) (b : Binding), l[i]? = some b ∧ BindingFails live l i b := by
  simp only [bindingsBad, Bool.or_eq_true, decide_eq_true_eq, List.any_eq_true, List.mem_range]
  refine or_congr Iff.rfl (exists_congr fun i => ?_)
  cases hi : l[i]? with
  | none => simp
  | some b =>
    have hlt := (List.getElem?_eq_some_iff.1 hi).1
    simp only [hlt, true_and, Option.some.injEq, exists_eq_left']
    exact bad_binding_iff

-- Pegs and dependences (R72 to R74) ---------------------------------------------------------------------------------------------------

theorem pegsBad_iff {x : Launch} : pegsBad x = true ↔
    (∃ d ∈ pegDecls x.card, ∃ t ∈ [0, x.teams - 1], d.first t < 0 ∨ 2 ^ 24 ≤ d.first t + (d.cnt : Int)) ∨
      ∃ o ∈ pegOuts x.card, 2 ^ 24 ≤ o.base + o.cnt := by
  simp only [pegsBad, Bool.or_eq_true, List.any_eq_true, decide_eq_true_eq, ge_iff_le]

theorem mem_cardDeps {card : List Word} {p : Nat × Nat} : p ∈ cardDeps card ↔
    ∃ n, n < 4 ∧ wfield (getAt 0 card (18 + n)) 63 1 = 1 ∧ p = (wfield (getAt 0 card (18 + n)) 48 8, wfield (getAt 0 card (18 + n)) 0 48) := by
  simp only [cardDeps, List.mem_filterMap, List.mem_range]
  refine exists_congr fun n => and_congr_right fun _ => ?_
  split
  · rename_i h
    simp only [h, true_and, Option.some.injEq]
    exact eq_comm
  · rename_i h
    exact ⟨fun hnone => (nomatch hnone), fun hvalid => absurd hvalid.1 h⟩

theorem selfDependent_iff {x : Launch} : ((cardDeps x.card).any fun p => p.1 == x.queue && x.pos ≤ p.2) = true ↔
    ∃ n, n < 4 ∧ wfield (getAt 0 x.card (18 + n)) 63 1 = 1 ∧ wfield (getAt 0 x.card (18 + n)) 48 8 = x.queue ∧
      x.pos ≤ wfield (getAt 0 x.card (18 + n)) 0 48 := by
  simp only [List.any_eq_true, mem_cardDeps, Bool.and_eq_true, beq_iff_eq, decide_eq_true_eq]
  constructor
  · rintro ⟨_, ⟨n, hn, hv, rfl⟩, hq, hpos⟩
    exact ⟨n, hn, hv, hq, hpos⟩
  · rintro ⟨n, hn, hv, hq, hpos⟩
    exact ⟨_, ⟨n, hn, hv, rfl⟩, hq, hpos⟩

-- The order of the checks (Table 3.13) ------------------------------------------------------------------------------------------------

/-- Tests that decide conditions one by one give the first condition's place. -/
theorem firstOf_conds {l : List Bool} {conds : List Prop} (h : ∀ k, k < l.length → (getAt false l k = true ↔ getAt False conds k)) :
    (∀ k, k < l.length → getAt False conds k → (∀ j, j < k → ¬ getAt False conds j) → firstOf l 0 = k + 1) ∧
    ((∀ k, k < l.length → ¬ getAt False conds k) → firstOf l 0 = 0) := by
  have hfalse : ∀ k, k < l.length → ¬ getAt False conds k → getAt false l k = false := fun k hk hno => by
    rw [← h k hk] at hno
    simpa using hno
  refine ⟨fun k hk hc hlow => ?_, fun hno => firstOf_none l 0 fun j hj => hfalse j hj (hno j hj)⟩
  have hat := firstOf_at l k 0 ((h k hk).2 hc) fun j hj => hfalse j (hj.trans hk) (hlow j hj)
  rwa [Nat.zero_add] at hat

/-- The reason of a card (Table 3.13): the place of the first condition that holds. -/
theorem cardReason_first (s : State) (x : Launch) :
    let w := fun (k : Nat) => getAt 0 x.card k
    let teams := wfield (w 2) 0 32
    let groups := wfield (w 2) 32 5
    let crew := wfield (w 2) 37 3
    let vregs := wfield (w 3) 0 9
    let spad := wfield (w 3) 16 10
    let trows := wfield (w 3) 32 11
    let fits := fun (k n : Nat) => n = 0 ∨ (s.core k).usable = true ∧ n ≤ 4 ∧ n * groups ≤ 32 ∧ n * groups * vregs ≤ 1024 ∧
      n * ((spad + 3) / 4) ≤ (s.core k).spadCap ∧ n * ((trows + 15) / 16) ≤ (s.core k).tileCap
    let holds := ∃ cl, cl < 64 ∧ (s.ctx x.ctx).part.getLsbD cl = true ∧ ∃ n0 n1 n2 n3, fits (4 * cl) n0 ∧ fits (4 * cl + 1) n1 ∧
      fits (4 * cl + 2) n2 ∧ fits (4 * cl + 3) n3 ∧ crew ≤ n0 + n1 + n2 + n3
    let bs := cardBindings x.card
    let live := (s.ctx x.ctx).regions
    let inside := fun (gate base len : Nat) => base < gate + 8 ∧ gate < base + len
    let clash := fun (b : Binding) (base len : Nat) => (b.base < base + len ∧ base < b.base + b.len) ∨ inside b.gate base len
    let badBindings := 64 < live.length + bs.length ∨ ∃ (i : Nat) (b : Binding), bs[i]? = some b ∧ (b.base % 128 ≠ 0 ∨ b.len = 0 ∨ b.len % 128 ≠ 0 ∨ b.gate % 8 ≠ 0 ∨
      inside b.gate b.base b.len ∨ (∃ r ∈ live, clash b r.base r.len) ∨ ∃ (j : Nat) (y : Binding), j ≠ i ∧ bs[j]? = some y ∧ clash b y.base y.len)
    let fromTile := fun (d : PegDecl) (t : Nat) => (d.base : Int) + fdiv ((t : Int) * d.mul) ((2 ^ d.sh : Nat) : Int)
    let badPegs := (∃ d ∈ pegDecls x.card, ∃ t ∈ [0, teams - 1], fromTile d t < 0 ∨ 2 ^ 24 ≤ fromTile d t + d.cnt) ∨
      ∃ o ∈ pegOuts x.card, 2 ^ 24 ≤ o.base + o.cnt
    let conds : List Prop := [teams = 0, groups = 0 ∨ 16 < groups ∨ crew = 0 ∨ 4 < crew, teams % crew ≠ 0,
      vregs = 0 ∨ 256 < vregs ∨ 1024 < groups * vregs ∨ 512 < spad ∨ 1024 < trows ∨ ¬ holds,
      wfield (w 0) 0 2 ≠ 0 ∨ wfield (w 1) 0 6 ≠ 0 ∨ wfield (w 5) 0 57 % 64 ≠ 0, badBindings, badPegs,
      ∃ n, n < 4 ∧ wfield (w (18 + n)) 63 1 = 1 ∧ wfield (w (18 + n)) 48 8 = x.queue ∧ x.pos ≤ wfield (w (18 + n)) 0 48,
      wfield (w 3) 48 6 ≠ x.ctx]
    (∀ k, k < 9 → getAt False conds k → (∀ j, j < k → ¬ getAt False conds j) → cardReason s x = k + 1) ∧
    ((∀ k, k < 9 → ¬ getAt False conds k) → cardReason s x = 0) := by
  intro w teams groups crew vregs spad trows fits holds bs live inside clash badBindings fromTile badPegs conds
  have hfits : ∀ k n, fits k n ↔ n ≤ (roomFull s k).most x.fit := fun k n => (le_most_full (f := x.fit)).symm
  have hholds : hasCapacity s x.ctx x.fit x.crew = true ↔ holds := by
    simp only [hasCapacity_iff, holds, hfits, le_clusterMost]
    rfl
  have hbindings : bindingsBad (liveRegions s x.ctx) (cardBindings x.card) = true ↔ badBindings := by
    simp only [bindingsBad_iff, BindingFails, badBindings, clash, inside, gateIn_iff, liveRegions, List.length_map, List.mem_map, exists_exists_and_eq_and]
    simp only [or_assoc]
    rfl
  rw [cardReason_eq]
  refine firstOf_conds (l := cardTests s x) (conds := conds) fun k hk => ?_
  have hk9 : k < 9 := hk
  interval_cases k
  · exact decide_eq_true_iff
  · simp only [cardTests, conds, getAt, Bool.or_eq_true, decide_eq_true_eq, or_assoc]
    rfl
  · exact decide_eq_true_iff
  · simp only [cardTests, conds, getAt, Bool.or_eq_true, decide_eq_true_eq, or_assoc, Bool.not_eq_true', ← hholds, Bool.not_eq_true]
    rfl
  · simp only [cardTests, conds, getAt, Bool.or_eq_true, decide_eq_true_eq, or_assoc]
    rfl
  · exact hbindings
  · exact pegsBad_iff
  · exact selfDependent_iff
  · exact decide_eq_true_iff

end Sys2Proof.CardChecks
end

section
/-! PROOFS. Doorbells (R79, R81, R313): the descriptor read and kept, a queue restarted or stopped, and the host's release before its cards. -/

namespace Sys2Proof.Doorbells

open Machine Laws Safety CommandUnit CommandWords

-- What is kept by queue ---------------------------------------------------------------------------------------------------------------

theorem find_putPair (l : List (Nat × Nat)) (k v : Nat) : (putPair l k v).find? (fun p => p.1 == k) = some (k, v) := by
  have hnone : (l.filter fun x => x.1 != k).find? (fun p => p.1 == k) = none := List.find?_eq_none.2 fun x hx => by
    simpa using (List.mem_filter.1 hx).2
  rw [putPair, List.find?_append, hnone, List.find?_singleton]
  simp

/-- A queue that the command unit takes up again. -/
def reopened (s : State) (c q : Nat) : State := s.setCtx c { s.ctx c with stopped := (s.ctx c).stopped.filter (· != q) }

section
variable (s : State) (c q : Nat) (w : List Word)

theorem keepIndex_queues : ((keepIndex s c q w).ctx c).queues.find? (fun p => p.1 == q) = some (q, w) := by
  have hnone : ((s.ctx c).queues.filter fun y => y.1 != q).find? (fun p => p.1 == q) = none := List.find?_eq_none.2 fun x hx => by
    simpa using (List.mem_filter.1 hx).2
  rw [keepIndex, ctx_setCtx_same, List.find?_append, hnone, List.find?_singleton]
  simp

theorem keepIndex_widx {n : Nat} (h : (subQueue w).queued = some n) : ((keepIndex s c q w).ctx c).widx.find? (fun p => p.1 == q) = some (q, n) := by
  rw [keepIndex, ctx_setCtx_same, h]
  exact find_putPair _ _ _

theorem keepIndex_rest : ((keepIndex s c q w).ctx c).stopped = (s.ctx c).stopped ∧ ((keepIndex s c q w).ctx c).doorRels = (s.ctx c).doorRels ∧
    ((keepIndex s c q w).ctx c).worktab = (s.ctx c).worktab := by
  rw [keepIndex, ctx_setCtx_same]
  exact ⟨rfl, rfl, rfl⟩

end

theorem queued_some {d : SubQueue} (h4 : 4 ≤ d.log2) (h20 : d.log2 ≤ 20) (hle : d.ridx ≤ d.widx) (hroom : d.widx ≤ d.ridx + 2 ^ d.log2) :
    d.queued = some d.widx := by
  have hbad : ¬ (decide (d.log2 < 4) || decide (d.log2 > 20)) = true := by
    simp only [Bool.or_eq_true, decide_eq_true_eq]
    omega
  have hin : (decide (d.ridx ≤ d.widx) && decide (d.widx - d.ridx ≤ 2 ^ d.log2)) = true := by
    simp only [Bool.and_eq_true, decide_eq_true_eq]
    omega
  rw [SubQueue.queued, if_neg hbad, if_pos hin]

-- The doorbell ------------------------------------------------------------------------------------------------------------------------

/-- The host's release that a doorbell of host cards stands for, kept for the queue's cards. -/
def hostRelease (s : State) (c q : Nat) : State :=
  let (s, view, n) := release s .host s.hostView .system .every
  let s := { s with hostView := view }
  let x := s.ctx c
  s.setCtx c { x with doorRels := putPair x.doorRels q n }

theorem hostRelease_rels (s : State) (c q : Nat) : ∃ r : Release, (hostRelease s c q).rels = s.rels ++ [r] ∧ r.party = .host ∧ r.scope = .system ∧
    r.acts = .every ∧ r.know = s.hostView.know := ⟨_, rfl, rfl, rfl, rfl, rfl⟩

theorem hostRelease_ctx (s : State) (c q : Nat) : (hostRelease s c q).ctx c = { s.ctx c with doorRels := putPair (s.ctx c).doorRels q s.rels.length } :=
  ctx_setCtx_same _ _ _

theorem hostRelease_kept (s : State) (c q : Nat) : StoreKept s (hostRelease s c q) ∧ WorkKept s (hostRelease s c q) :=
  ⟨⟨rfl, rfl, rfl⟩, rfl, rfl, rfl⟩

section
variable {s u : State} {c : Nat} {v : BitVec 32} {b : List Byte} (hready : s.dev.status = 3) (hwen : (s.ctx c).wen = true)
  (hread : cuRead s c ((s.ctx c).subDesc (v.toNat % 256)) 64 = (u, .ok b))
include hready hwen hread

/-- What a doorbell does once the descriptor is read: nothing to a queue that is off or a posted one that runs; a stopped queue whose error word
is set stays stopped; any other goes on by its descriptor, and its host cards follow the host's release. -/
theorem exec_doorbell :
    (((subQueue (wordsOf b)).qen = false ∨ (v.toNat % 256 ∉ (s.ctx c).stopped ∧ (subQueue (wordsOf b)).post = true)) → exec (.doorbell c v) s = .next u) ∧
    ((subQueue (wordsOf b)).qen = true → v.toNat % 256 ∈ (s.ctx c).stopped → (subQueue (wordsOf b)).err = true →
      exec (.doorbell c v) s = .next (keepIndex u c (v.toNat % 256) (wordsOf b))) ∧
    ((subQueue (wordsOf b)).qen = true → ((subQueue (wordsOf b)).post = true → v.toNat % 256 ∈ (s.ctx c).stopped) →
      (v.toNat % 256 ∈ (s.ctx c).stopped → (subQueue (wordsOf b)).err = false) → exec (.doorbell c v) s = .next
        (if (subQueue (wordsOf b)).post then readIndex (reopened u c (v.toNat % 256)) c (v.toNat % 256) (wordsOf b)
          else hostRelease (readIndex (reopened u c (v.toNat % 256)) c (v.toNat % 256) (wordsOf b)) c (v.toNat % 256))) := by
  have hexec : exec (.doorbell c v) s = execDoorbell c v s := rfl
  obtain ⟨l, hctx⟩ := (cuRead_looked hread).ctx c
  have hstopped : (u.ctx c).stopped = (s.ctx c).stopped := by rw [hctx]
  rw [hexec, execDoorbell]
  dsimp only
  rw [if_neg (by simp [Dev.ready, hready]), queueRead]
  dsimp only
  rw [if_neg (by simp [hwen]), hread]
  dsimp only
  rw [hstopped]
  generalize subQueue (wordsOf b) = d
  refine ⟨fun h => ?_, fun hqen hin herr => ?_, fun hqen hpost herr => ?_⟩
  · rw [if_pos (by obtain h | ⟨h, hp⟩ := h <;> simp [*])]
  · rw [if_neg (by simp [hqen, hin]), if_pos (by simp [hin, herr])]
  · have hrun : ¬ (!d.qen || (!(s.ctx c).stopped.contains (v.toNat % 256) && true && d.post)) = true := by
      cases hp : d.post with
      | true => simp [hqen, hpost hp]
      | false => simp [hqen]
    have hgo : ¬ ((s.ctx c).stopped.contains (v.toNat % 256) && (!true || d.err)) = true := by
      by_cases hin : v.toNat % 256 ∈ (s.ctx c).stopped
      · simp [herr hin]
      · simp [hin]
    rw [if_neg hrun, if_neg hgo]
    have hopen : u.setCtx c { u.ctx c with stopped := (s.ctx c).stopped.filter (· != v.toNat % 256) } = reopened u c (v.toNat % 256) := by
      rw [reopened, hstopped]
    rw [hopen]
    generalize readIndex (reopened u c (v.toNat % 256)) c (v.toNat % 256) (wordsOf b) = t
    cases d.post with
    | true => rfl
    | false => rfl

end

/-- A descriptor's read that finds nothing wrong. -/
theorem readIndex_sound {s : State} {c q : Nat} {w : List Word} (h4 : 4 ≤ (subQueue w).log2) (h20 : (subQueue w).log2 ≤ 20)
    (hbase : (subQueue w).base % 4096 = 0) (hle : (subQueue w).ridx ≤ (subQueue w).widx) (hroom : (subQueue w).widx ≤ (subQueue w).ridx + 2 ^ (subQueue w).log2) :
    readIndex s c q w = keepIndex s c q w := by
  unfold readIndex
  dsimp only
  rw [if_neg (by simp; omega), if_neg (by omega), if_neg (by omega)]

/-- A queue of a size or at a base that no queue has (Table 4.4). -/
def Misplaced (d : SubQueue) : Prop := d.log2 < 4 ∨ 20 < d.log2 ∨ d.base % 4096 ≠ 0

/-- A descriptor's read that finds an error: the queue stops, with the first error of the three in its error word. -/
theorem readIndex_unsound {s : State} {c q : Nat} {w : List Word} {code epos : Nat}
    (h : (code = 0x12 ∧ epos = 0 ∧ Misplaced (subQueue w)) ∨
      (code = 0x11 ∧ epos = (subQueue w).widx ∧ ¬ Misplaced (subQueue w) ∧
        (subQueue w).widx < (subQueue w).ridx) ∨
      (code = 0x10 ∧ epos = (subQueue w).widx ∧ ¬ Misplaced (subQueue w) ∧
        (subQueue w).ridx + 2 ^ (subQueue w).log2 < (subQueue w).widx)) :
    readIndex s c q w = putErr (stopQueue (keepIndex s c q w) c q) c ((s.ctx c).subDesc q) code 0 epos := by
  have hbad : ((decide ((subQueue w).log2 < 4) || decide ((subQueue w).log2 > 20) || decide ((subQueue w).base % 4096 ≠ 0)) = true) ↔
      Misplaced (subQueue w) := by
    simp only [Misplaced, Bool.or_eq_true, decide_eq_true_eq, or_assoc, gt_iff_lt]
  unfold readIndex
  dsimp only
  obtain ⟨rfl, rfl, h⟩ | ⟨rfl, rfl, hok, h⟩ | ⟨rfl, rfl, hok, h⟩ := h
  · rw [if_pos (hbad.2 h)]
  · rw [if_neg (fun h => hok (hbad.1 h)), if_pos h]
  · have hle : (subQueue w).ridx ≤ (subQueue w).widx := (Nat.le_add_right _ _).trans h.le
    rw [if_neg (fun h => hok (hbad.1 h)), if_neg (not_lt.2 hle), if_pos (Nat.lt_sub_of_add_lt (by rw [Nat.add_comm]; exact h))]

-- What a doorbell leaves --------------------------------------------------------------------------------------------------------------

/-- The context, once a queue has been taken up again and its descriptor is kept. -/
theorem reopened_kept {s u : State} (hu : Looked s u) (c q : Nat) (w : List Word) :
    ((keepIndex (reopened u c q) c q w).ctx c).stopped = (s.ctx c).stopped.filter (· != q) ∧
    ((keepIndex (reopened u c q) c q w).ctx c).doorRels = (s.ctx c).doorRels ∧
    ((keepIndex (reopened u c q) c q w).ctx c).worktab = (s.ctx c).worktab ∧ (keepIndex (reopened u c q) c q w).rels = s.rels ∧
    (keepIndex (reopened u c q) c q w).hostView = s.hostView ∧ StoreKept s (keepIndex (reopened u c q) c q w) ∧
    WorkKept s (keepIndex (reopened u c q) c q w) := by
  obtain ⟨hstopped, hdoor, htab⟩ := keepIndex_rest (reopened u c q) c q w
  obtain ⟨l, hctx⟩ := hu.ctx c
  have hopen : (reopened u c q).ctx c = { s.ctx c with tlb := l, stopped := (s.ctx c).stopped.filter (· != q) } := by
    rw [reopened, ctx_setCtx_same, hctx]
  rw [hopen] at hstopped hdoor htab
  exact ⟨hstopped, hdoor, htab, hu.served.rels, hu.served.hostView, hu.store, hu.served.work⟩

/-- A doorbell of a queue whose descriptor can be read (R79, R81). -/
theorem doorbell_learns {s u : State} {c : Nat} {v : BitVec 32} {b : List Byte} (hready : s.dev.status = 3) (hwen : (s.ctx c).wen = true) :
    let q := v.toNat % 256
    let d := subQueue (wordsOf b)
    cuRead s c ((s.ctx c).subDesc q) 64 = (u, .ok b) →
    (d.qen = true → (d.post = true → q ∈ (s.ctx c).stopped) → (q ∈ (s.ctx c).stopped → d.err = false) →
      4 ≤ d.log2 → d.log2 ≤ 20 → d.base % 4096 = 0 → d.ridx ≤ d.widx → d.widx ≤ d.ridx + 2 ^ d.log2 →
      ∃ t, exec (.doorbell c v) s = .next t ∧ (t.ctx c).widx.find? (fun p => p.1 == q) = some (q, d.widx) ∧
        (t.ctx c).queues.find? (fun p => p.1 == q) = some (q, wordsOf b) ∧ (t.ctx c).stopped = (s.ctx c).stopped.filter (· != q) ∧
        (d.post = false → (t.ctx c).doorRels.find? (fun p => p.1 == q) = some (q, s.rels.length) ∧
          ∃ r : Release, t.rels = s.rels ++ [r] ∧ r.party = .host ∧ r.scope = .system ∧ r.acts = .every ∧ r.know = s.hostView.know) ∧
        (d.post = true → (t.ctx c).doorRels = (s.ctx c).doorRels ∧ t.rels = s.rels) ∧ StoreKept s t ∧ WorkKept s t) ∧
    (d.qen = false ∨ (q ∉ (s.ctx c).stopped ∧ d.post = true) → exec (.doorbell c v) s = .next u) ∧
    (d.qen = true → q ∈ (s.ctx c).stopped → d.err = true → ∃ t, exec (.doorbell c v) s = .next t ∧ q ∈ (t.ctx c).stopped ∧
      (t.ctx c).queues.find? (fun p => p.1 == q) = some (q, wordsOf b) ∧ (t.ctx c).doorRels = (s.ctx c).doorRels ∧ t.rels = s.rels ∧
      StoreKept s t ∧ WorkKept s t ∧ (4 ≤ d.log2 → d.log2 ≤ 20 → d.ridx ≤ d.widx → d.widx ≤ d.ridx + 2 ^ d.log2 →
        (t.ctx c).widx.find? (fun p => p.1 == q) = some (q, d.widx))) := by
  intro q d hread
  have hu := cuRead_looked hread
  obtain ⟨hoff, hhalted, hruns⟩ := exec_doorbell hready hwen hread
  refine ⟨fun hqen hpost herr h4 h20 hbase hle hroom => ?_, hoff, fun hqen hin herr => ?_⟩
  · obtain ⟨hstopped, hdoor, -, hrels, hview, hstore, hwork⟩ := reopened_kept hu c q (wordsOf b)
    have hqueues := keepIndex_queues (reopened u c q) c q (wordsOf b)
    have hwidx := keepIndex_widx (reopened u c q) c q (wordsOf b) (queued_some h4 h20 hle hroom)
    refine ⟨_, hruns hqen hpost herr, ?_⟩
    rw [readIndex_sound h4 h20 hbase hle hroom]
    cases hp : d.post with
    | true =>
      rw [if_pos rfl]
      exact ⟨hwidx, hqueues, hstopped, fun h => (nomatch h), fun _ => ⟨hdoor, hrels⟩, hstore, hwork⟩
    | false =>
      rw [if_neg Bool.false_ne_true]
      obtain ⟨r, hr, hparty, hscope, hacts, hknow⟩ := hostRelease_rels (keepIndex (reopened u c q) c q (wordsOf b)) c q
      obtain ⟨⟨hmem, hwrites, hpoison⟩, hlaunches, hteams, hgroups⟩ := hostRelease_kept (keepIndex (reopened u c q) c q (wordsOf b)) c q
      obtain ⟨hmem', hwrites', hpoison'⟩ := hstore
      obtain ⟨hlaunches', hteams', hgroups'⟩ := hwork
      rw [hrels] at hr
      rw [hview] at hknow
      refine ⟨?_, ?_, ?_, fun _ => ⟨?_, r, hr, hparty, hscope, hacts, hknow⟩, fun h => (nomatch h),
        ⟨hmem.trans hmem', hwrites.trans hwrites', hpoison.trans hpoison'⟩, hlaunches.trans hlaunches', hteams.trans hteams', hgroups.trans hgroups'⟩
      · rw [hostRelease_ctx]
        exact hwidx
      · rw [hostRelease_ctx]
        exact hqueues
      · rw [hostRelease_ctx]
        exact hstopped
      · rw [hostRelease_ctx, ← hrels]
        exact find_putPair _ _ _
  · obtain ⟨l, hctx⟩ := hu.ctx c
    obtain ⟨hstopped, hdoor, -⟩ := keepIndex_rest u c q (wordsOf b)
    rw [hctx] at hstopped hdoor
    refine ⟨_, hhalted hqen hin herr, ?_, keepIndex_queues u c q (wordsOf b), hdoor, hu.served.rels, hu.store, hu.served.work, fun h4 h20 hle hroom => ?_⟩
    · rw [hstopped]
      exact hin
    · exact keepIndex_widx u c q (wordsOf b) (queued_some h4 h20 hle hroom)

/-- A doorbell of a queue whose descriptor fails a check (R81, Table 4.4). -/
theorem doorbell_unsound {s : State} {c : Nat} {v : BitVec 32} {pa : Nat} (hready : s.dev.status = 3) (hwen : (s.ctx c).wen = true) :
    let q := v.toNat % 256
    let d := subQueue (wordsOf (memRead s.mem pa 64))
    let bad := d.log2 < 4 ∨ 20 < d.log2 ∨ d.base % 4096 ≠ 0
    InCtxWindow s c ((s.ctx c).subDesc q) 64 pa → pa % 4 = 0 → d.qen = true → (d.post = true → q ∈ (s.ctx c).stopped) → d.err = false →
    ∀ code epos, (code = 0x12 ∧ epos = 0 ∧ bad) ∨ (code = 0x11 ∧ epos = d.widx ∧ ¬ bad ∧ d.widx < d.ridx) ∨
        (code = 0x10 ∧ epos = d.widx ∧ ¬ bad ∧ d.ridx + 2 ^ d.log2 < d.widx) →
      ∃ t l, exec (.doorbell c v) s = .next t ∧ q ∈ (t.ctx c).stopped ∧ t.writes = s.writes ++ l ∧
        Wrote l [(pa + 32, 2 ^ 63 + code * 2 ^ 56 + epos)] ∧
        (t.ctx c).queues.find? (fun p => p.1 == q) = some (q, wordsOf (memRead s.mem pa 64)) ∧ WorkKept s t := by
  intro q d bad hwin hpa hqen hpost herr code epos hcase
  obtain ⟨-, -, hruns⟩ := exec_doorbell hready hwen (v := v) (cuRead_window (readable_of_window hwin))
  have hepos : epos < 2 ^ 48 := by
    have hwidx : d.widx < 2 ^ 48 := Nat.mod_lt _ (by decide)
    obtain ⟨-, rfl, -⟩ | ⟨-, rfl, -⟩ | ⟨-, rfl, -⟩ := hcase
    · decide
    · exact hwidx
    · exact hwidx
  obtain ⟨-, -, htab, hrels, -, ⟨hmem, hwrites, -⟩, hwork⟩ := reopened_kept (Looked.refl s) c q (wordsOf (memRead s.mem pa 64))
  have hqueues := keepIndex_queues (reopened s c q) c q (wordsOf (memRead s.mem pa 64))
  generalize hk : keepIndex (reopened s c q) c q (wordsOf (memRead s.mem pa 64)) = k at htab hrels hmem hwrites hwork hqueues
  have hclear : memNat (stopQueue k c q).mem (pa + 32) 8 / 2 ^ 63 = 0 := by
    have hword : getAt 0 (wordsOf (memRead s.mem pa 64)) 4 = wd (memNat s.mem (pa + 32) 8) := wordsOf_memRead s.mem pa 64 4 (by decide)
    have herr' : ¬ wfield (getAt 0 (wordsOf (memRead s.mem pa 64)) 4) 63 1 = 1 := by
      have herr' : (wfield (getAt 0 (wordsOf (memRead s.mem pa 64)) 4) 63 1 == 1) = false := herr
      simpa using herr'
    rw [hword, Retirement.topBit_iff] at herr'
    have hlt := memNat_lt s.mem (pa + 32)
    have hsame : (stopQueue k c q).mem = s.mem := hmem
    rw [hsame]
    omega
  have hwin' : InCtxWindow (stopQueue k c q) c ((s.ctx c).subDesc q) 64 pa := by
    refine window_mono (fun a => ?_) ?_ ?_ ?_ hwin
    all_goals rw [← hk, stopQueue]
    · rfl
    · rfl
    · simp [keepIndex, reopened]
    · simp [keepIndex, reopened]
  have hput := putErr_window hwin' hpa hclear code 0 epos
  have hread : readIndex (reopened s c q) c q (wordsOf (memRead s.mem pa 64)) = putErr (stopQueue k c q) c ((s.ctx c).subDesc q) code 0 epos := by
    rw [readIndex_unsound hcase, hk]
    have hdesc : ((reopened s c q).ctx c).subDesc q = (s.ctx c).subDesc q := by
      rw [reopened, ctx_setCtx_same]
      rfl
    rw [hdesc]
  have hctx : (putErr (stopQueue k c q) c ((s.ctx c).subDesc q) code 0 epos).ctx c = { k.ctx c with stopped := uni (k.ctx c).stopped [q] } := by
    rw [hput.ctx, stopQueue, ctx_setCtx_same]
  have hstop : q ∈ uni (k.ctx c).stopped [q] := (Completion.mem_uni _ _ _).2 (.inr (List.mem_singleton.2 rfl))
  obtain ⟨l, hl, hwrote⟩ : Appended s (putErr (stopQueue k c q) c ((s.ctx c).subDesc q) code 0 epos) [(pa + 32, 2 ^ 63 + code * 2 ^ 56 + epos)] := by
    have h := hput.wrote.from_eq (s := s) hwrites
    have hval : 2 ^ 63 + code * 2 ^ 56 + 0 * 2 ^ 48 + epos % 2 ^ 48 = 2 ^ 63 + code * 2 ^ 56 + epos := by
      rw [Nat.mod_eq_of_lt hepos, Nat.zero_mul, Nat.add_zero]
    rw [hval] at h
    exact h
  obtain ⟨hlaunches, hteams, hgroups⟩ := hput.served.work
  obtain ⟨hlaunches', hteams', hgroups'⟩ := hwork
  have hkept : WorkKept s (putErr (stopQueue k c q) c ((s.ctx c).subDesc q) code 0 epos) :=
    ⟨hlaunches.trans hlaunches', hteams.trans hteams', hgroups.trans hgroups'⟩
  refine ⟨_, l, hruns hqen hpost (fun _ => herr), ?_⟩
  rw [hread]
  split
  · rw [hctx]
    exact ⟨hstop, hl, hwrote, hqueues, hkept⟩
  · rw [hostRelease_ctx, hctx]
    exact ⟨hstop, hl, hwrote, hqueues, hkept⟩

end Sys2Proof.Doorbells
end

section
/-! PROOFS. Acceptance and rejection of cards (R69, R80, R81, R87, R88): the launch made, the queue moved on, and what is written. -/

namespace Sys2Proof.CardAcceptance

open Machine Laws Safety CommandUnit Kills CommandWords Completion PegBoard Reservations

-- The launch that acceptance makes ----------------------------------------------------------------------------------------------------

/-- A launch of the same card at the same place, retired or not as the other. -/
structure CardOf (x y : Launch) : Prop where
  card    : y.card = x.card
  ctx     : y.ctx = x.ctx
  queue   : y.queue = x.queue
  pos     : y.pos = x.pos
  lseq    : y.lseq = x.lseq
  retired : y.retired = x.retired

theorem CardOf.refl (x : Launch) : CardOf x x := ⟨rfl, rfl, rfl, rfl, rfl, rfl⟩

theorem pegsOnly_reclaim (s : State) : PegsOnly s (reclaim s) := by
  obtain h | ⟨p, -, -, h⟩ := reclaim_cases s
  · rw [h]
    exact .refl s
  · rw [h]
    rfl

theorem pegsOnly_addPeg (s : State) (p : Peg) : PegsOnly s (addPeg s p) := by
  unfold addPeg
  dsimp only
  split
  · exact (pegsOnly_reclaim s).trans rfl
  · rfl

theorem pegsOnly_foldl {α : Type} (f : State → α → State) (hf : ∀ s a, PegsOnly s (f s a)) : ∀ (l : List α) (s : State), PegsOnly s (l.foldl f s)
  | [], s => .refl s
  | a :: l, s => (hf s a).trans (pegsOnly_foldl f hf l (f s a))

/-- Reservations change the board alone, and the launch only in what it holds. -/
theorem reserve_keeps (s : State) (x : Launch) : PegsOnly s (reserve s x).1 ∧ CardOf x (reserve s x).2 := by
  rw [reserve_eq]
  split
  · exact ⟨.refl s, ⟨rfl, rfl, rfl, rfl, rfl, rfl⟩⟩
  · refine ⟨?_, ⟨rfl, rfl, rfl, rfl, rfl, rfl⟩⟩
    exact (pegsOnly_foldl _ (fun u n => (reserveOne_step x.ctx u n).only) _ s).trans (pegsOnly_foldl _ (fun u n => pegsOnly_addPeg u _) _ _)

/-- A list that grew by one launch at its end. -/
structure OneMore (s : State) (x : Launch) (launches : List Launch) : Prop where
  length : launches.length = s.launches.length + 1
  last   : CardOf x (getAt {} launches s.launches.length)
  before : ∀ l, l < s.launches.length → getAt {} launches l = s.launch l

theorem oneMore_append {s : State} {x y : Launch} (h : CardOf x y) : OneMore s x (s.launches ++ [y]) where
  length := by simp
  last := by
    rw [getAt_append, if_neg (lt_irrefl _), Nat.sub_self]
    exact h
  before := fun l hl => by
    rw [getAt_append, if_pos hl]
    rfl

/-- The regions that a card's bindings make. -/
def cardRegions (n : Nat) (card : List Word) : List Region :=
  (cardBindings card).map fun b => { owner := some n, base := b.base, len := b.len, wr := b.wr, gate := b.gate }

/-- An accepted card: one launch more, the board changed, and its regions live. -/
theorem acceptCard_shape (s : State) (x : Launch) : ∃ clock pegs launches, OneMore s x launches ∧
    acceptCard s x = { s with clock := clock, pegs := pegs, launches := launches }.setCtx x.ctx
      { s.ctx x.ctx with regions := (s.ctx x.ctx).regions ++ cardRegions s.launches.length x.card } := by
  obtain ⟨v, y, honly, hcard, hv⟩ : ∃ v y, PegsOnly s v ∧ CardOf x y ∧
      (if (pegDecls (if (pegDecls x.card).isEmpty then x else { x with prods := producers s x }).card).isEmpty
        then (s, if (pegDecls x.card).isEmpty then x else { x with prods := producers s x })
        else reserve s (if (pegDecls x.card).isEmpty then x else { x with prods := producers s x })) = (v, y) := by
    by_cases hnone : (pegDecls x.card).isEmpty = true
    · rw [if_pos hnone]
      exact ⟨s, x, .refl s, .refl x, if_pos hnone⟩
    · rw [if_neg hnone]
      obtain ⟨honly, hcard, hctx, hqueue, hpos, hlseq, hretired⟩ := reserve_keeps s { x with prods := producers s x }
      exact ⟨_, _, honly, ⟨hcard, hctx, hqueue, hpos, hlseq, hretired⟩, if_neg hnone⟩
  have hv' : v = { s with clock := v.clock, pegs := v.pegs } := honly
  have hctx : v.ctx y.ctx = s.ctx x.ctx := by
    rw [hcard.ctx, hv']
    rfl
  obtain ⟨S, hS⟩ : ∃ S : State, S = State.setCtx { s with clock := v.clock, pegs := v.pegs, launches := s.launches ++ [y] } x.ctx
    { s.ctx x.ctx with regions := (s.ctx x.ctx).regions ++ cardRegions s.launches.length x.card } := ⟨_, rfl⟩
  have hmade : State.setCtx { v with launches := v.launches ++ [y] } y.ctx
      { v.ctx y.ctx with regions := (v.ctx y.ctx).regions ++ (cardBindings y.card).map fun b =>
        { owner := some s.launches.length, base := b.base, len := b.len, wr := b.wr, gate := b.gate } } = S := by
    rw [hctx, hcard.ctx, hcard.card, hS, hv']
    rfl
  have hmore := oneMore_append (s := s) hcard
  unfold acceptCard
  dsimp only
  rw [hv]
  dsimp only
  have hsame : State.ctx { v with launches := v.launches ++ [y] } y.ctx = v.ctx y.ctx := rfl
  rw [hsame, hmade]
  split
  · rename_i p _
    obtain ⟨hframe, ⟨k, f, q, hl⟩, hother, hlen⟩ := killUndealt_launch s.launches.length p.cause p.info (List.range y.teams)
      (S.setLaunch s.launches.length { S.launch s.launches.length with purged := true })
    generalize killUndealt (S.setLaunch s.launches.length { S.launch s.launches.length with purged := true }) s.launches.length p.cause p.info
      (List.range y.teams) = u at hframe hl hother hlen
    have hlast : S.launch s.launches.length = getAt {} (s.launches ++ [y]) s.launches.length := by rw [hS]; rfl
    have hcount : S.launches.length = s.launches.length + 1 := by rw [hS]; exact hmore.length
    have hset : (S.setLaunch s.launches.length { S.launch s.launches.length with purged := true }).launches.length = s.launches.length + 1 :=
      (length_setLaunch (hcount.symm ▸ Nat.lt_succ_self _) _).trans hcount
    refine ⟨v.clock, v.pegs, u.launches, ⟨?_, ?_, fun l hl => ?_⟩, ?_⟩
    · rw [hlen (hset.symm ▸ Nat.lt_succ_self _), hset]
    · have hat : getAt {} u.launches s.launches.length = _ := hl
      rw [launch_setLaunch_same, hlast] at hat
      obtain ⟨hcard, hctx, hqueue, hpos, hlseq, hretired⟩ := hmore.last
      rw [hat]
      exact ⟨hcard, hctx, hqueue, hpos, hlseq, hretired⟩
    · have hat : getAt {} u.launches l = _ := hother l (Nat.ne_of_lt hl)
      rw [hat, launch_setLaunch_other _ _ _ _ (Nat.ne_of_lt hl), ← hmore.before l hl, hS]
      rfl
    · rw [hframe, hS]
      rfl
  · exact ⟨v.clock, v.pegs, s.launches ++ [y], hmore, hS⟩

-- Accepted or rejected ----------------------------------------------------------------------------------------------------------------

/-- What the decision on a card makes: its launch, retired where it is rejected, and its regions where it is accepted. -/
structure Decided (s : State) (x : Launch) (rejected : Bool) (m : State) : Prop where
  launches : OneMore s { x with retired := rejected } m.launches
  lseq     : (m.ctx x.ctx).lseq = (s.ctx x.ctx).lseq
  queues   : (m.ctx x.ctx).queues = (s.ctx x.ctx).queues
  regions  : (m.ctx x.ctx).regions = (s.ctx x.ctx).regions ++ if rejected then [] else cardRegions s.launches.length x.card
  teams    : m.teams = s.teams
  groups   : m.groups = s.groups

theorem decided_acceptCard {s : State} {x : Launch} (hx : x.retired = false) : Decided s x false (acceptCard s x) := by
  obtain ⟨clock, pegs, launches, hmore, h⟩ := acceptCard_shape s x
  have hsame : { x with retired := false } = x := by rw [← hx]
  rw [h]
  refine ⟨?_, ?_, ?_, ?_, rfl, rfl⟩
  · rw [hsame]
    exact hmore
  all_goals rw [ctx_setCtx_same]
  · rfl

/-- The state in which a rejected card is recorded. -/
def rejecting (s : State) (x : Launch) : State := { s with launches := s.launches ++ [{ x with retired := true }] }

theorem rejecting_launch (s : State) (x : Launch) : (rejecting s x).launch s.launches.length = { x with retired := true } := by
  rw [rejecting, State.launch, getAt_append, if_neg (lt_irrefl _), Nat.sub_self]
  rfl

theorem rejectCard_eq (s : State) (c desc : Nat) (x : Launch) (reason : Nat) : rejectCard s c desc x reason =
    if x.validCrec then writeRecord (rejecting s x) s.launches.length 3 reason {} else putErr (rejecting s x) c desc 0x13 reason x.pos := rfl

theorem concluded_rejectCard (s : State) (c desc : Nat) (x : Launch) (reason : Nat) : Concluded (rejecting s x) (rejectCard s c desc x reason) := by
  rw [rejectCard_eq]
  split
  · exact concluded_writeRecord _ _ _ _ _
  · exact concluded_served (served_putErr _ _ _ _ _ _)

theorem decided_rejectCard (s : State) (c desc : Nat) (x : Launch) (reason : Nat) : Decided s x true (rejectCard s c desc x reason) := by
  have hend := concluded_rejectCard s c desc x reason
  obtain ⟨_, _, _, _, hctx⟩ := hend.ctx x.ctx
  refine ⟨?_, ?_, ?_, ?_, hend.teams, hend.groups⟩
  · rw [hend.launches]
    exact oneMore_append (.refl _)
  · rw [hctx]
    rfl
  · rw [hctx]
    rfl
  · rw [hctx, if_pos rfl, List.append_nil]
    rfl

/-- The completion record of a rejected card (Table 3.12). -/
theorem recordWords_rejected (x : Launch)
    (hnew : x.purged = false ∧ x.fallback = false ∧ x.killed = 0 ∧ x.done = 0 ∧ x.flags = 0 ∧ x.first = none ∧ x.maxcyc = 0)
    (reason pa : Nat) : recordWords x 3 reason pa = [(pa + 8, x.lseq)] ++ wordsAt (pa + 16) 6 (fun _ => 0) ++
      [(pa, wfield (getAt 0 x.card 2) 48 16 * 2 ^ 32 + (if wfield (getAt 0 x.card 2) 43 1 = 1 then 2 ^ 17 else 0) + reason * 2 ^ 8 + 3)] := by
  obtain ⟨hpurged, hfallback, hkilled, hdone, hflags, hfirst, hmaxcyc⟩ := hnew
  obtain ⟨w0, hw0⟩ : ∃ w0, w0 = wfield (getAt 0 x.card 2) 48 16 * 2 ^ 32 + (if wfield (getAt 0 x.card 2) 43 1 = 1 then 2 ^ 17 else 0) + reason * 2 ^ 8 + 3 :=
    ⟨_, rfl⟩
  have hrecord : x.record 3 reason = [w0, x.lseq, 0, 0, 0, 0, 0, 0] := by
    rw [hw0]
    simp [Launch.record, hpurged, hfallback, hkilled, hdone, hflags, hfirst, hmaxcyc, Launch.tag, Launch.det, Launch.w]
  rw [recordWords, hrecord, ← hw0]
  rfl

/-- A window stays where bindings of a card join the regions, none of which bars it. -/
theorem window_grow {s t : State} {c va n pa : Nat} (hdev : t.dev = s.dev)
    (hheap : ((t.ctx c).heapbase, (t.ctx c).heaplen, (t.ctx c).heapoff) = ((s.ctx c).heapbase, (s.ctx c).heaplen, (s.ctx c).heapoff)) {l : List Region}
    (hregs : (t.ctx c).regions = (s.ctx c).regions ++ l) (hfree : ∀ r ∈ l, r.wr = true ∨ r.base + r.len ≤ va ∨ va + n ≤ r.base)
    (h : InCtxWindow s c va n pa) : InCtxWindow t c va n pa := by
  obtain ⟨hn, htop, hon, hwr, hbase, hlim, hbytes, hend, hbar⟩ := h
  unfold InCtxWindow HeapHolds
  rw [hheap, hdev]
  refine ⟨hn, htop, hon, hwr, hbase, hlim, hbytes, hend, fun r hr => ?_⟩
  rw [hregs] at hr
  exact (List.mem_append.1 hr).elim (hbar r) (hfree r)

-- The queue moved on (R80) ------------------------------------------------------------------------------------------------------------

/-- The command unit has taken a card: the context counts it, and the queue's RIDX has moved. -/
def advanced (u : State) (c q ridx : Nat) : State :=
  u.setCtx c { u.ctx c with lseq := (u.ctx c).lseq + 1, queues := (u.ctx c).queues.map fun (k, v) => (k, if k = q then setAt 0 v 3 (wd ridx) else v) }

theorem cardReason_advanced (u : State) (c q ridx : Nat) (x : Launch) (hx : x.ctx = c) : cardReason (advanced u c q ridx) x = cardReason u x := by
  have hctx : (advanced u c q ridx).ctx c = _ := ctx_setCtx_same u c _
  have hpart : partition (advanced u c q ridx) x.ctx = partition u x.ctx := by rw [partition, hx, hctx]; rfl
  have hcap : hasCapacity (advanced u c q ridx) x.ctx x.fit x.crew = hasCapacity u x.ctx x.fit x.crew := by
    rw [hasCapacity, hpart]
    rfl
  have hlive : liveRegions (advanced u c q ridx) x.ctx = liveRegions u x.ctx := by rw [liveRegions, hx, hctx]; rfl
  rw [cardReason, hcap, hlive]
  rfl

/-- A queue's descriptor once RIDX has moved. -/
theorem subQueue_moved (w : List Word) {ridx : Nat} (h : ridx < 2 ^ 48) : (subQueue (setAt 0 w 3 (wd ridx))).ridx = ridx ∧
    (subQueue (setAt 0 w 3 (wd ridx))).widx = (subQueue w).widx ∧ (subQueue (setAt 0 w 3 (wd ridx))).base = (subQueue w).base ∧
    (subQueue (setAt 0 w 3 (wd ridx))).log2 = (subQueue w).log2 := by
  have hother : ∀ n, n ≠ 3 → getAt 0 (setAt 0 w 3 (wd ridx)) n = getAt 0 w n := fun n hn => getAt_setAt_other _ _ _ _ _ hn
  simp only [subQueue, getAt_setAt_same, hother 0 (by decide), hother 1 (by decide), hother 2 (by decide), and_true]
  rw [wfield, Registers.toNat_wd (h.trans (by decide)), field, pow_zero, Nat.div_one, Nat.mod_eq_of_lt h]

-- The next card of a queue (R80) ------------------------------------------------------------------------------------------------------

theorem exec_cardAccept {s u : State} {c q : Nat} {w : List Word} {card : List Byte} (hready : s.dev.status = 3) (hwen : (s.ctx c).wen = true)
    (hruns : q ∉ (s.ctx c).stopped) (hkept : (s.ctx c).queues.find? (fun p => p.1 == q) = some (q, w)) (hcards : (subQueue w).ridx < (subQueue w).widx)
    (hread : cuRead s c ((subQueue w).base + 256 * ((subQueue w).ridx % 2 ^ (subQueue w).log2)) 256 = (u, .ok card)) {x : Launch}
    (hx : x = newLaunch u c q (subQueue w).ridx (subQueue w).post (wordsOf card)) {ridx : Nat} (hridx : ((subQueue w).ridx + 1) % 2 ^ 48 = ridx) :
    exec (.cardAccept c q) s = .next (cuWrite
      (if cardReason u x ≠ 0 then rejectCard (advanced u c q ridx) c ((s.ctx c).subDesc q) x (cardReason u x) else acceptCard (advanced u c q ridx) x) c
      ((s.ctx c).subDesc q + 24) (toBytes 8 ridx) (some (.system, []))).1 := by
  subst hx hridx
  have hreason := cardReason_advanced u c q (((subQueue w).ridx + 1) % 2 ^ 48) (newLaunch u c q (subQueue w).ridx (subQueue w).post (wordsOf card)) rfl
  have hnat : (wd (((subQueue w).ridx + 1) % 2 ^ 48)).toNat = ((subQueue w).ridx + 1) % 2 ^ 48 :=
    Registers.toNat_wd ((Nat.mod_lt _ (by decide)).trans (by decide))
  have hexec : exec (.cardAccept c q) s = execCardAccept c q s := rfl
  have hfind : (s.ctx c).queues.find? (fun (k, _) => k == q) = some (q, w) := hkept
  have hsome : ¬ (subQueue w).widx ≤ (subQueue w).ridx := not_le.2 hcards
  rw [hexec, execCardAccept]
  dsimp only
  rw [if_neg (by simp [Dev.ready, hready, hwen, hruns]), hfind]
  dsimp only
  rw [if_neg hsome, hread]
  dsimp only
  rw [hnat, ← hreason]
  rfl

theorem advanced_window {s u : State} (hu : Looked s u) {c q ridx va n pa : Nat} (h : InCtxWindow s c va n pa) :
    InCtxWindow (advanced u c q ridx) c va n pa := by
  obtain ⟨l, hctx⟩ := hu.ctx c
  have hdev := hu.dev
  refine window_mono (fun a => ?_) ?_ ?_ ?_ h
  all_goals rw [advanced]
  · rw [setCtx_dev, hdev]
  · rw [setCtx_dev, hdev]
  · rw [ctx_setCtx_same, hctx]
  · rw [ctx_setCtx_same, hctx]
    exact fun r hr => hr

section
variable {m : State} {x : Launch} {c desc da : Nat} (hda : InCtxWindow m c desc 64 da) (hda4 : da % 4 = 0) (ridx : Nat)
  (sync : Option (Scope × List Nat))
include hda hda4

/-- The RIDX of an accepted card's queue, which the card's own regions do not bar. -/
theorem acceptCard_moves (hx : x.ctx = c) (hfree : ∀ b ∈ cardBindings x.card, b.wr = true ∨ b.base + b.len ≤ desc + 24 ∨ desc + 32 ≤ b.base) :
    Appended m (cuWrite (acceptCard m x) c (desc + 24) (toBytes 8 ridx) sync).1 [(da + 24, ridx)] := by
  obtain ⟨clock, pegs, launches, -, h⟩ := acceptCard_shape m x
  have hword : InCtxWindow m c (desc + 24) 8 (da + 24) := window_part hda (by decide) (by decide)
  have hwin : InCtxWindow (acceptCard m x) c (desc + 24) 8 (da + 24) := by
    refine window_grow (l := cardRegions m.launches.length x.card) ?_ ?_ ?_ (fun r hr => ?_) hword
    all_goals subst hx
    · rw [h]
      rfl
    · rw [h, ctx_setCtx_same]
    · rw [h, ctx_setCtx_same]
    · obtain ⟨b, hb, rfl⟩ := List.mem_map.1 hr
      exact hfree b hb
  have hwrites : (acceptCard m x).writes = m.writes := by
    rw [h]
    rfl
  exact (cuWrite_window (n := 1) hwin (by omega) (wordBytes_toBytes ridx) sync).2.wrote.from_eq hwrites

/-- The completion record of a rejected card whose record's address is sound, then its queue's RIDX. -/
theorem rejectCard_records (hx : x.ctx = c) (hne : x.crec ≠ 0) (halign : x.crec % 64 = 0) {pa : Nat}
    (hpa : InCtxWindow m c x.crec 64 pa) (hpa4 : pa % 4 = 0) (reason : Nat) :
    Appended m (cuWrite (rejectCard m c desc x reason) c (desc + 24) (toBytes 8 ridx) sync).1
      (recordWords { x with retired := true } 3 reason pa ++ [(da + 24, ridx)]) ∧
      (x.posted = false → ((cuWrite (rejectCard m c desc x reason) c (desc + 24) (toBytes 8 ridx) sync).1.ctx c).signals.getLsbD 0 = true) := by
  have hvalid : x.validCrec = true := by simp [Launch.validCrec, hne, halign]
  have hlaunch := rejecting_launch m x
  have hword : InCtxWindow m c (desc + 24) 8 (da + 24) := window_part hda (by decide) (by decide)
  have hwin := (concluded_rejectCard m c desc x reason).window hword
  have hlast := (cuWrite_window (n := 1) hwin (by omega) (wordBytes_toBytes ridx) sync).2
  have hrec : Appended (rejecting m x) (rejectCard m c desc x reason) (recordWords { x with retired := true } 3 reason pa) := by
    have h := writeRecord_window (s := rejecting m x) (l := m.launches.length) (pa := pa) (v := {}) (by rw [hlaunch]; exact hvalid)
      (by rw [hlaunch]; subst hx; exact hpa) hpa4 3 reason
    rw [hlaunch] at h
    rw [rejectCard_eq, if_pos hvalid]
    exact h
  refine ⟨(hrec.trans hlast.wrote).from_eq rfl, fun hposted => hlast.served.signals c 0 ?_⟩
  have h := writeRecord_signals (s := rejecting m x) (l := m.launches.length) (v := {}) (by rw [hlaunch]; exact hvalid) (by rw [hlaunch]; exact hposted)
    3 reason
  rw [hlaunch] at h
  rw [rejectCard_eq, if_pos hvalid, ← hx]
  exact h

/-- The error word of a rejected card whose record's address is not sound, then its queue's RIDX. -/
theorem rejectCard_errors (hno : x.crec = 0 ∨ x.crec % 64 ≠ 0) (hclear : memNat m.mem (da + 32) 8 / 2 ^ 63 = 0) (reason : Nat) :
    Appended m (cuWrite (rejectCard m c desc x reason) c (desc + 24) (toBytes 8 ridx) sync).1
      ([(da + 32, 2 ^ 63 + 0x13 * 2 ^ 56 + reason * 2 ^ 48 + x.pos % 2 ^ 48)] ++ [(da + 24, ridx)]) := by
  have hinvalid : ¬ x.validCrec = true := by
    obtain hno | hno := hno <;> simp [Launch.validCrec, hno]
  have hword : InCtxWindow m c (desc + 24) 8 (da + 24) := window_part hda (by decide) (by decide)
  have hwin := (concluded_rejectCard m c desc x reason).window hword
  have hlast := (cuWrite_window (n := 1) hwin (by omega) (wordBytes_toBytes ridx) sync).2
  have herr : Appended (rejecting m x) (rejectCard m c desc x reason) [(da + 32, 2 ^ 63 + 0x13 * 2 ^ 56 + reason * 2 ^ 48 + x.pos % 2 ^ 48)] := by
    rw [rejectCard_eq, if_neg hinvalid]
    exact (putErr_window (s := rejecting m x) hda hda4 hclear 0x13 reason x.pos).wrote
  exact (herr.trans hlast.wrote).from_eq rfl

end

/-- CARD_ACCEPT of a queue with a card (R69, R75, R80, R81): the launch, its regions, the queue moved on, and what is written. -/
theorem cardAccept_decides {s u : State} {c q : Nat} {w : List Word} {card : List Byte} (hready : s.dev.status = 3) (hwen : (s.ctx c).wen = true)
    (hruns : q ∉ (s.ctx c).stopped) (hkept : (s.ctx c).queues.find? (fun p => p.1 == q) = some (q, w)) :
    let d := subQueue w
    d.ridx < d.widx → cuRead s c (d.base + 256 * (d.ridx % 2 ^ d.log2)) 256 = (u, .ok card) →
    let n := s.launches.length
    let reason := cardReason u (newLaunch u c q d.ridx d.post (wordsOf card))
    ∃ t, exec (.cardAccept c q) s = .next t ∧ t.launches.length = n + 1 ∧ (t.launch n).card = wordsOf card ∧ (t.launch n).ctx = c ∧
      (t.launch n).queue = q ∧ (t.launch n).pos = d.ridx ∧ (t.launch n).lseq = (s.ctx c).lseq ∧ (t.ctx c).lseq = (s.ctx c).lseq + 1 ∧
      ((t.launch n).retired = true ↔ reason ≠ 0) ∧
      (t.ctx c).regions = (s.ctx c).regions ++ (if reason ≠ 0 then [] else (cardBindings (wordsOf card)).map fun b =>
        { owner := some n, base := b.base, len := b.len, wr := b.wr, gate := b.gate }) ∧
      (∃ w', (t.ctx c).queues.find? (fun p => p.1 == q) = some (q, w') ∧ (subQueue w').ridx = (d.ridx + 1) % 2 ^ 48 ∧
        (subQueue w').widx = d.widx ∧ (subQueue w').base = d.base ∧ (subQueue w').log2 = d.log2) ∧
      (∀ da, InCtxWindow s c ((s.ctx c).subDesc q) 64 da → da % 4 = 0 →
        let k := fun (i : Nat) => getAt 0 (wordsOf card) i
        let crec := wfield (k 5) 0 57
        let moved := [(da + 24, (d.ridx + 1) % 2 ^ 48)]
        let desc := (s.ctx c).subDesc q
        (reason = 0 → (∀ b ∈ cardBindings (wordsOf card), b.wr = true ∨ b.base + b.len ≤ desc + 24 ∨ desc + 32 ≤ b.base) →
          ∃ new, t.writes = s.writes ++ new ∧ Wrote new moved) ∧
        (reason ≠ 0 → crec ≠ 0 → crec % 64 = 0 → ∀ pa, InCtxWindow s c crec 64 pa → pa % 4 = 0 → (∃ new, t.writes = s.writes ++ new ∧
            Wrote new ([(pa + 8, (s.ctx c).lseq)] ++ wordsAt (pa + 16) 6 (fun _ => 0) ++
              [(pa, wfield (k 2) 48 16 * 2 ^ 32 + (if wfield (k 2) 43 1 = 1 then 2 ^ 17 else 0) + reason * 2 ^ 8 + 3)] ++ moved)) ∧
          (d.post = false → (t.ctx c).signals.getLsbD 0 = true)) ∧
        (reason ≠ 0 → crec = 0 ∨ crec % 64 ≠ 0 → memNat s.mem (da + 32) 8 / 2 ^ 63 = 0 → ∃ new, t.writes = s.writes ++ new ∧
          Wrote new ([(da + 32, 2 ^ 63 + 0x13 * 2 ^ 56 + reason * 2 ^ 48 + d.ridx)] ++ moved))) ∧
      t.teams = s.teams ∧ t.groups = s.groups ∧ ∀ l, l < n → t.launch l = s.launch l := by
  intro d hcards hread n reason
  have hu := cuRead_looked hread
  obtain ⟨tlb, hctx⟩ := hu.ctx c
  have hridx : (d.ridx + 1) % 2 ^ 48 < 2 ^ 48 := Nat.mod_lt _ (by decide)
  have hpos : d.ridx < 2 ^ 48 := Nat.mod_lt _ (by decide)
  obtain ⟨x, hx⟩ : ∃ x, x = newLaunch u c q d.ridx d.post (wordsOf card) := ⟨_, rfl⟩
  obtain ⟨ridx, hmoved⟩ : ∃ ridx, (d.ridx + 1) % 2 ^ 48 = ridx := ⟨_, rfl⟩
  have hexec := exec_cardAccept hready hwen hruns hkept hcards hread hx hmoved
  rw [hmoved] at hridx ⊢
  have hxcard : x.card = wordsOf card := by rw [hx]; rfl
  have hxctx : x.ctx = c := by rw [hx]; rfl
  have hxlseq : x.lseq = (s.ctx c).lseq := by rw [hx, newLaunch, hctx]
  have hlen : (advanced u c q ridx).launches.length = n := congrArg List.length hu.served.launches
  have hwrites : (advanced u c q ridx).writes = s.writes := hu.writes
  have hadv : (advanced u c q ridx).ctx c = { u.ctx c with
      lseq := (u.ctx c).lseq + 1, queues := (u.ctx c).queues.map fun (k, v) => (k, if k = q then setAt 0 v 3 (wd ridx) else v) } := ctx_setCtx_same _ _ _
  have hreason : reason = cardReason u x := by rw [hx]
  rw [← hreason] at hexec
  obtain ⟨r, hr, m, hm, hdecided⟩ : ∃ r : Bool, (r = true ↔ reason ≠ 0) ∧ ∃ m : State,
      m = (if reason ≠ 0 then rejectCard (advanced u c q ridx) c ((s.ctx c).subDesc q) x reason else acceptCard (advanced u c q ridx) x) ∧
      Decided (advanced u c q ridx) x r m := by
    by_cases hr : reason ≠ 0
    · exact ⟨true, by simp [hr], _, rfl, by rw [if_pos hr]; exact decided_rejectCard _ _ _ _ _⟩
    · exact ⟨false, by simp [hr], _, rfl, by rw [if_neg hr]; exact decided_acceptCard (by rw [hx]; rfl)⟩
  rw [← hm] at hexec
  obtain ⟨⟨hcount, hlast, hbefore⟩, hlseq, hqueues, hregions, hteams, hgroups⟩ := hdecided
  obtain ⟨hcard, hlctx, hqueue, hlpos, hllseq, hretired⟩ := hlast
  rw [hxctx, hadv] at hlseq hqueues hregions
  rw [hlen] at hcount hcard hlctx hqueue hlpos hllseq hretired hbefore hregions
  have hend := served_cuWrite m c ((s.ctx c).subDesc q + 24) (toBytes 8 ridx) (some (.system, []))
  obtain ⟨_, _, _, _, hend'⟩ := hend.ctx c
  have hlaunch : ∀ k, (cuWrite m c ((s.ctx c).subDesc q + 24) (toBytes 8 ridx) (some (.system, []))).1.launch k = getAt {} m.launches k := hend.launch
  refine ⟨_, hexec, ?_, ?_, ?_, ?_, ?_, ?_, ?_, ?_, ?_, ?_, fun da hda hda4 => ?_, ?_, ?_, fun l hl => ?_⟩
  · rw [hend.launches, hcount]
  · rw [hlaunch, hcard, hxcard]
  · rw [hlaunch, hlctx, hxctx]
  · rw [hlaunch, hqueue, hx]
    rfl
  · rw [hlaunch, hlpos, hx]
    rfl
  · rw [hlaunch, hllseq]
    exact hxlseq
  · rw [hend']
    exact hlseq.trans (by rw [hctx])
  · rw [hlaunch, hretired]
    exact hr
  · rw [hend']
    refine hregions.trans ?_
    rw [hctx, hxcard]
    by_cases hno : reason ≠ 0
    · rw [if_pos hno, if_pos (hr.2 hno)]
    · rw [if_neg hno, if_neg (fun h => hno (hr.1 h))]
      rfl
  · obtain ⟨hr1, hr2, hr3, hr4⟩ := subQueue_moved w hridx
    refine ⟨setAt 0 w 3 (wd ridx), ?_, hr1, hr2, hr3, hr4⟩
    rw [hend']
    refine (congrArg (List.find? fun p => p.1 == q) hqueues).trans ?_
    have hkeys : (fun p : Nat × List Word => p.1 == q) ∘ (fun (k, v) => (k, if k = q then setAt 0 v 3 (wd ridx) else v)) = fun p => p.1 == q := rfl
    rw [hctx, List.find?_map, hkeys, hkept]
    simp
  · intro k crec moved desc
    have hda' := advanced_window hu (q := q) (ridx := ridx) hda
    have hnew : x.purged = false ∧ x.fallback = false ∧ x.killed = 0 ∧ x.done = 0 ∧ x.flags = 0 ∧ x.first = none ∧ x.maxcyc = 0 := by
      rw [hx]
      exact ⟨rfl, rfl, rfl, rfl, rfl, rfl, rfl⟩
    have hcrec : x.crec = crec := by rw [hx]; rfl
    refine ⟨fun hok hfree => ?_, fun hno hne halign pa hpa hpa4 => ?_, fun hno hbad hclear => ?_⟩
    · rw [hm, if_neg (not_not.2 hok)]
      exact (acceptCard_moves hda' hda4 ridx _ hxctx (by rw [hxcard]; exact hfree)).from_eq hwrites
    · rw [hm, if_pos hno]
      rw [← hcrec] at hne halign hpa
      obtain ⟨hwrote, hsig⟩ := rejectCard_records hda' hda4 ridx (some (.system, [])) hxctx hne halign (advanced_window hu hpa) hpa4 reason
      rw [recordWords_rejected { x with retired := true } hnew] at hwrote
      have hwrote' := hwrote.from_eq hwrites
      dsimp only at hwrote'
      rw [hxlseq, hxcard] at hwrote'
      exact ⟨hwrote', fun hp => hsig (by rw [hx]; exact hp)⟩
    · rw [hm, if_pos hno]
      rw [← hcrec] at hbad
      have hmem : (advanced u c q ridx).mem = s.mem := hu.mem
      have hwrote := rejectCard_errors hda' hda4 ridx (some (.system, [])) hbad (by rw [hmem]; exact hclear) reason
      have hxpos : x.pos = d.ridx := by rw [hx]; rfl
      rw [hxpos, Nat.mod_eq_of_lt hpos] at hwrote
      exact hwrote.from_eq hwrites
  · exact hend.teams.trans (hteams.trans hu.served.teams)
  · exact hend.groups.trans (hgroups.trans hu.served.groups)
  · rw [hlaunch, hbefore l hl]
    exact hu.served.launch l

end Sys2Proof.CardAcceptance
end

section
/-! PROOFS. O49, its statement: doorbells, cards, producers, reservations, eligible teams, the order of work and dealing passes (R69 to R91). -/

namespace Sys2Proof.CommandWork

open Machine Laws Doorbells CardAcceptance CardChecks Reservations RoomAndWork Dealing CommandWords

/-- Producers as R87 says, with the waiting cards as the least set that is closed. -/
theorem producers_iff (s : State) (x : Launch) (l : Nat) :
    let open_ := fun (m : Nat) => m < s.launches.length ∧ (s.launch m).ctx = x.ctx ∧ (s.launch m).retired = false
    let waitsOn := fun (m q pos : Nat) => (q, pos) ∈ cardDeps (s.launch m).card
    let closed := fun (W : List Nat) => ∀ m, open_ m → (waitsOn m x.queue x.pos ∨
      ∃ k ∈ W, waitsOn m (s.launch k).queue (s.launch k).pos ∨ k ∈ (s.launch m).prods) → m ∈ W
    l ∈ producers s x ↔ open_ l ∧ (∃ o ∈ pegOuts (s.launch l).card, ∃ d ∈ pegDecls x.card,
      o.base ≤ (d.span x.teams).2 ∧ (d.span x.teams).1 ≤ o.base + o.cnt) ∧ ∃ W, closed W ∧ l ∉ W := by
  intro open_ waitsOn closed
  have hclosed : ∀ W, WaitClosed s x.ctx (x.queue, x.pos) W ↔ closed W := fun W => forall_congr' fun m => by rw [mem_openCards]
  rw [mem_producers, mem_openCards]
  simp only [hclosed]
  rfl

/-- The reservations of a card (R88). -/
theorem reserve_says (s : State) (x : Launch) (hfallback : x.fallback = false) :
    let r := reserve s x
    let spanned := fun (n : Nat) => ∃ d ∈ pegDecls x.card, (d.span x.teams).1 ≤ n ∧ n ≤ (d.span x.teams).2
    let covered := fun (n : Nat) => ∃ l ∈ x.prods, ∃ o ∈ pegOuts (s.launch l).card, o.base ≤ n ∧ n ≤ o.base + o.cnt
    let makes := fun (n : Nat) => spanned n ∧ pegAt s x.ctx n = none ∧ covered n
    let kept := s.pegs.filter fun p => p.count != 0 || (p.ctx == x.ctx &&
      (pegDecls x.card).any fun d => (d.span x.teams).1 ≤ p.tile && p.tile ≤ (d.span x.teams).2)
    (r.2.fallback = true ↔ ∃ l : List Nat, l.Nodup ∧ (∀ n ∈ l, makes n) ∧ 65536 - kept.length < l.length) ∧
    (r.2.fallback = true → r = (s, { x with fallback := true })) ∧
    (r.2.fallback = false → ∀ n, spanned n →
      (∀ p, pegAt s x.ctx n = some p → n ∈ r.2.held ∧ ∃ q, pegAt r.1 x.ctx n = some q ∧ q.count = p.count + 1 ∧ q.gen = p.gen ∧ q.set = p.set) ∧
      (pegAt s x.ctx n = none → covered n → n ∈ r.2.held ∧ ∃ q, pegAt r.1 x.ctx n = some q ∧ q.count = 1 ∧ q.set = false) ∧
      (n ∈ r.2.metTiles ↔ pegAt s x.ctx n = none ∧ ¬ covered n)) := by
  intro r spanned covered makes kept
  have hmakes : ∀ n, n ∈ makeTiles s x ↔ makes n := fun n => by
    rw [mem_makeTiles, mem_spanTiles, coveredTile_iff]
  have hpath : r.2.fallback = true ↔ pegRoom (reserved s x) < (makeTiles s x).length := by
    have hr : r = _ := reserve_eq s x
    rw [hr]
    split
    · rename_i h
      exact ⟨fun _ => h, fun _ => rfl⟩
    · rename_i h
      simp [hfallback, h]
  refine ⟨?_, fun h => ?_, fun h n hn => ?_⟩
  · rw [hpath, fallback_iff, pegRoom_reserved]
    simp only [hmakes]
    rfl
  · exact (reserve_eq s x).trans (if_pos (hpath.1 h))
  · have hroom : ¬ pegRoom (reserved s x) < (makeTiles s x).length := fun hr => by
      rw [hpath.2 hr] at h
      cases h
    have hboard := reserve_board hroom (mem_spanTiles.2 hn)
    rw [coveredTile_iff] at hboard
    exact hboard

/-- The work that a pass picks: none that waits comes before it (R83). -/
theorem bestWork_says (s : State) :
    let restores := fun (l : Nat) => ∃ t, t < s.teams.length ∧ (s.team t).launch = some l ∧ (s.team t).place.saved? = true ∧ restoreCores s t ≠ []
    let waits : Work → Nat → Nat → Nat → Prop := fun w prio kind age => match w with
      | .task c q => c < 64 ∧ q < 8 ∧ taskWaiting s c q = some prio ∧ kind = 0 ∧ age = q
      | .launch l => let x := s.launch l
        l < s.launches.length ∧ (s.ctx x.ctx).runs = true ∧ x.retired = false ∧
        (restores l ∨ (eligibleCores s x.ctx x.fit x.crew ≠ [] ∧ eligible s l ≠ [])) ∧ prio = x.prio ∧ kind = 1 ∧ age = x.lseq
    (∀ w, bestWork s = some w → ∃ p k a, waits w p k a ∧ ∀ w' p' k' a', waits w' p' k' a' → ¬ (p < p' ∨ p = p' ∧ (k' < k ∨ k' = k ∧ a' < a))) ∧
    (bestWork s = none ↔ ∀ w p k a, ¬ waits w p k a) := by
  intro restores waits
  have hwaits : ∀ w p k a, ((p, k, a), w) ∈ workRanks s ↔ waits w p k a := fun w p k a => by
    cases w with
    | task c q => exact mem_workRanks_task
    | launch l =>
      rw [mem_workRanks_launch, launchWaiting_iff, launchRestores_iff]
      simp only [waits, restores, and_assoc]
  refine ⟨fun w hw => ?_, ?_⟩
  · obtain ⟨⟨p, k, a⟩, hin, hbest⟩ := bestWork_some hw
    refine ⟨p, k, a, (hwaits w p k a).1 hin, fun w' p' k' a' h => ?_⟩
    have hbefore := hbest _ ((hwaits w' p' k' a').2 h)
    rw [rankBefore_iff] at hbefore
    exact hbefore
  · rw [bestWork_none, List.eq_nil_iff_forall_not_mem]
    exact ⟨fun h w p k a hw => h _ ((hwaits w p k a).2 hw), fun h ⟨⟨p, k, a⟩, w⟩ hin => h w p k a ((hwaits w p k a).1 hin)⟩

/-- Settles O49: doorbells by `doorbell_learns` and `doorbell_unsound`, cards by `cardAccept_decides`, the checks by `cardReason_first`, producers as
the cards outside the least set that waits, reservations by the board's entries, and the order of work and dealing by what a fold of picks and of
dealt teams leaves. -/
theorem doorbellCardAndDealing : Obligations.DoorbellCardAndDealing := by
  unfold Obligations.DoorbellCardAndDealing
  refine ⟨fun s c v u b hready hwen => doorbell_learns hready hwen, fun s c v pa hready hwen => doorbell_unsound hready hwen,
    fun s c q w u card hready hwen hruns hkept => cardAccept_decides hready hwen hruns hkept, cardReason_first, producers_iff,
    fun s x hfallback _ => reserve_says s x hfallback, fun s l t => ?_, eligible_pairwise, fun s c f crew k => ?_, fun s c q p => ?_, bestWork_says,
    fun s l hlive hpath hcrew => ?_, fun s cluster l hdeals => ?_⟩
  · intro x tileMet met free
    have hmet : ∀ u, pegsMet s l u = true ↔ met u := fun u => pegsMet_iff
    rw [mem_eligible, depsMet_iff]
    simp only [hmet]
    rfl
  · intro fits cl
    have hfits : ∀ m n, fits m n ↔ n ≤ (roomNow s m).most f := fun m n => (le_most (f := f)).symm
    rw [mem_eligibleCores, le_clusterMost]
    simp only [hfits]
    rfl
  · intro saved toPop
    have hsaved : ∀ t, (t < s.teams.length ∧ restorable s c q t = true) ↔ saved t := fun t => by rw [restorable_iff]
    have hpop : (taskCores s c q).map Prod.fst = some p ↔ toPop := by
      constructor
      · intro h
        by_cases hgo : (s.ctx c).wen = true ∧ (s.ctx c).runs = true
        · obtain ⟨hwen, hruns⟩ := hgo
          cases hd : peek s c ((s.ctx c).taskDesc q) 64 with
          | none =>
            rw [taskCores_none (.inr hd)] at h
            cases h
          | some d =>
            obtain ⟨⟨hqen, hrecord, herr⟩, hcores, hp⟩ := (taskCores_some hwen hruns hd p).1 h
            exact ⟨d, hwen, hruns, hd, hqen, hrecord, herr, hcores, hp⟩
        · rw [taskCores_none (.inl hgo)] at h
          cases h
      · rintro ⟨d, hwen, hruns, hd, hqen, hrecord, herr, hcores, hp⟩
        exact (taskCores_some hwen hruns hd p).2 ⟨⟨hqen, hrecord, herr⟩, hcores, hp⟩
    have hleast : ∀ t, (∀ u, u < s.teams.length → restorable s c q u = true → t ≤ u) ↔ ∀ u, saved u → t ≤ u := fun t =>
      forall_congr' fun u => by rw [← hsaved u, and_imp]
    rw [taskWaiting_iff]
    simp only [hsaved, hleast, hpop]
  · intro x stale t
    have hstale : ∀ v, (∃ n g, teamNeed s x v = .stale n g) ↔ stale v := fun v => by
      rw [teamNeed_stale]
      exact exists_congr fun p => and_congr_right fun _ => tileNeed_stale
    rw [killStale_gone hlive hpath hcrew]
    simp only [← hstale]
    rfl
  · intro u x cores able dealt hbest hrestores hcluster
    obtain ⟨launches, hexec, hl⟩ := dealingPass_deals hdeals hbest hrestores hcluster
    have hteam : ∀ k, k < dealt.length → getAt {} (s.teams ++ dealt.map (dealtTeam u l cluster)) (s.teams.length + k) =
        dealtTeam u l cluster (getAt 0 dealt k) := fun k hk => by
      rw [getAt_append, if_neg (by omega), Nat.add_sub_cancel_left, getAt_map 0 _ _ _ _ hk]
    refine ⟨_, hexec, ?_, ?_, fun k hk => ?_, fun k hk => ?_, rfl, rfl, rfl, rfl⟩
    · rw [List.length_append, List.length_map]
      rfl
    · exact congrArg Launch.gone hl
    · intro y
      have hy : y = dealtTeam u l cluster (getAt 0 dealt k) := hteam k hk
      rw [hy]
      refine ⟨rfl, rfl, rfl, rfl, rfl, rfl, rfl, rfl, rfl, rfl, beq_iff_eq, rfl, rfl, rfl, rfl, rfl, rfl, rfl, fun hpath => ?_, fun hpath n => ?_⟩
      · refine List.eq_nil_iff_forall_not_mem.2 fun n hn => ?_
        have hno : x.fallback = false := (mem_tileTokens.1 hn).1
        rw [hpath] at hno
        cases hno
      · exact mem_tileTokens.trans (and_iff_right hpath)
    · exact (getAt_append {} s.teams _ k).trans (if_pos hk)

end Sys2Proof.CommandWork
end

section
/-! PROOFS. The choice of a team to swap out (R119), and the cores that a restore uses (R121, R122). -/

namespace Sys2Proof.SwapAndReturn

open Machine Laws RoomAndWork

-- A fold that keeps the foremost (R119) -----------------------------------------------------------------------------------------------

/-- The earlier one is held unless the next comes before it. -/
def foremost {α : Type} (before : α → α → Bool) (b : Option α) (a : α) : Option α :=
  match b with
  | none => some a
  | some u => if before a u then some a else some u

/-- Of a list in an order whose equals are an equivalence, such a fold ends at a member that none comes before. -/
theorem foldl_foremost {α : Type} {before : α → α → Bool} (hasymm : ∀ a b, before a b = true → before b a = false)
    (hneg : ∀ a b c, before a b = false → before b c = false → before a c = false) : ∀ (l : List α) (v : α),
    ∃ w, l.foldl (foremost before) (some v) = some w ∧ w ∈ v :: l ∧ ∀ y ∈ v :: l, before y w = false
  | [], v => ⟨v, rfl, List.mem_cons_self, fun y hy => by
    rw [List.mem_singleton.1 hy]
    cases hself : before v v with
    | false => rfl
    | true => rw [← hasymm v v hself, hself]⟩
  | z :: l, v => by
    cases hz : before z v with
    | true =>
      obtain ⟨w, hw, hin, hbest⟩ := foldl_foremost hasymm hneg l z
      refine ⟨w, by rw [List.foldl_cons, foremost, if_pos hz]; exact hw, List.mem_cons_of_mem _ hin, fun y hy => ?_⟩
      obtain rfl | hy := List.mem_cons.1 hy
      · exact hneg _ _ _ (hasymm _ _ hz) (hbest z List.mem_cons_self)
      · exact hbest y hy
    | false =>
      obtain ⟨w, hw, hin, hbest⟩ := foldl_foremost hasymm hneg l v
      refine ⟨w, by rw [List.foldl_cons, foremost, hz]; exact hw, ?_, fun y hy => ?_⟩
      · obtain rfl | hin := List.mem_cons.1 hin
        · exact List.mem_cons_self
        · exact List.mem_cons_of_mem _ (List.mem_cons_of_mem _ hin)
      · obtain rfl | hy := List.mem_cons.1 hy
        · exact hbest y List.mem_cons_self
        obtain rfl | hy := List.mem_cons.1 hy
        · exact hneg _ _ _ hz (hbest v List.mem_cons_self)
        · exact hbest y (List.mem_cons_of_mem _ hy)

-- The choice of R119 ------------------------------------------------------------------------------------------------------------------

theorem swapBefore_iff {s : State} {a b : Nat} : swapBefore s a b = true ↔ (s.team a).prio < (s.team b).prio ∨ (s.team a).prio = (s.team b).prio ∧
    (teamLseq s b < teamLseq s a ∨ teamLseq s b = teamLseq s a ∧ (s.team b).t < (s.team a).t) := by
  simp only [swapBefore, Bool.or_eq_true, Bool.and_eq_true, decide_eq_true_eq, beq_iff_eq, gt_iff_lt, @eq_comm _ (teamLseq s a)]

theorem swapBefore_asymm {s : State} (a b : Nat) (h : swapBefore s a b = true) : swapBefore s b a = false := by
  rw [swapBefore_iff] at h
  rw [Bool.eq_false_iff, ne_eq, swapBefore_iff]
  omega

theorem swapBefore_neg {s : State} (a b c : Nat) (hab : swapBefore s a b = false) (hbc : swapBefore s b c = false) : swapBefore s a c = false := by
  rw [Bool.eq_false_iff, ne_eq, swapBefore_iff] at hab hbc ⊢
  omega

/-- A team that a stalled core may swap out: resident, and every member of its crew over or resident on a stalled core. -/
def SwapCandidate (s : State) (k t : Nat) : Prop := t < s.teams.length ∧ (s.team t).core = k ∧ (s.team t).place = .resident ∧
  ∀ u ∈ crewTeams s t, (s.team u).place.over = true ∨ (s.team u).place = .resident ∧ stalled s (s.team u).core = true

def swapCandidates (s : State) (k : Nat) : List Nat :=
  (teamIds s fun t => t.core == k && t.place == .resident).filter fun t =>
    (crewTeams s t).all fun u => (s.team u).place.over || ((s.team u).place == .resident && stalled s (s.team u).core)

theorem mem_swapCandidates {s : State} {k t : Nat} : t ∈ swapCandidates s k ↔ SwapCandidate s k t := by
  rw [swapCandidates, List.mem_filter, teamIds, List.mem_filter, List.mem_range]
  simp [SwapCandidate, and_assoc]

theorem swapChoice_eq (s : State) (k : Nat) : swapChoice s k = (swapCandidates s k).foldl (foremost (swapBefore s)) none := by
  have hstep : foremost (swapBefore s) = fun b t => match b with | none => some t | some u => if swapBefore s t u then some t else some u := by
    funext b t
    cases b <;> rfl
  rw [hstep]
  rfl

/-- The team chosen is a candidate that none comes before, and some team is chosen where there is one. -/
theorem swapChoice_says (s : State) (k : Nat) :
    (∀ t, swapChoice s k = some t → SwapCandidate s k t ∧ ∀ u, SwapCandidate s k u → ¬ swapBefore s u t = true) ∧
    ((∃ t, SwapCandidate s k t) → swapChoice s k ≠ none) := by
  simp only [swapChoice_eq, ← mem_swapCandidates]
  cases swapCandidates s k with
  | nil => simp
  | cons v l =>
    obtain ⟨w, hw, hin, hbest⟩ := foldl_foremost (swapBefore_asymm (s := s)) swapBefore_neg l v
    have hfold : (v :: l).foldl (foremost (swapBefore s)) none = some w := hw
    rw [hfold]
    refine ⟨fun t ht => ?_, fun _ => Option.some_ne_none w⟩
    obtain rfl := Option.some.inj ht
    exact ⟨hin, fun u hu => by simp [hbest u hu]⟩

-- The cores of a restore (R121) -------------------------------------------------------------------------------------------------------

theorem pairwise_span (a n : Nat) : (span a n).Pairwise (· < ·) := by
  rw [span, List.pairwise_map]
  exact List.pairwise_lt_range.imp fun h => Nat.add_lt_add_left h _

/-- The first core of a cluster that passes a test: no lower one does. -/
theorem find_coresOf {cl k : Nat} {p : Nat → Bool} (h : (coresOf cl).find? p = some k) :
    k / 4 = cl ∧ p k = true ∧ ∀ j, j / 4 = cl → j < k → p j = false := by
  have hsorted : (coresOf cl).Pairwise (· < ·) := pairwise_span _ _
  obtain ⟨hp, before, behind, heq, hbefore⟩ := List.find?_eq_some_iff_append.1 h
  rw [heq] at hsorted
  refine ⟨mem_coresOf.1 (by rw [heq]; simp), hp, fun j hj hlt => ?_⟩
  have hin : j ∈ before ++ k :: behind := heq ▸ mem_coresOf.2 hj
  obtain hin | hin := List.mem_append.1 hin
  · simpa using hbefore j hin
  obtain rfl | hin := List.mem_cons.1 hin
  · exact absurd hlt (lt_irrefl j)
  · exact absurd ((List.pairwise_cons.1 (List.pairwise_append.1 hsorted).2.1).1 j hin) (by omega)

/-- Room for a core's n-th returning team, and that the core is not the one it left without issuing for another since. -/
theorem mayReturn_iff {s : State} {t n k : Nat} : mayReturn s t n k = true ↔ (s.team t).swapOff ≠ some k ∧ n + 1 ≤ (roomNow s k).teams ∧
    (n + 1) * (s.team t).ngroups ≤ (roomNow s k).groups ∧ (n + 1) * (((s.team t).spadKiB + 3) / 4) ≤ (roomNow s k).spad ∧
    (n + 1) * (((s.team t).trows + 15) / 16) ≤ (roomNow s k).tile := by
  have hceil : ∀ a, ncdiv a 4 = (a + 3) / 4 ∧ ncdiv a 16 = (a + 15) / 16 := fun _ => ⟨rfl, rfl⟩
  simp only [mayReturn, Room.holds, Bool.and_eq_true, bne_iff_ne, decide_eq_true_eq, and_assoc]
  simp only [Team.restoreFit, Team.fit, (hceil _).1, (hceil _).2, Nat.mul_zero, Nat.zero_le, true_and]

/-- Each team takes the first core that can hold it beside those placed before it. -/
theorem crewPlace_some {s : State} {cl : Nat} : ∀ {l placed cores : List Nat}, crewPlace s cl l placed = some cores →
    ∃ more, cores = placed ++ more ∧ more.length = l.length ∧ ∀ (i k u : Nat), more[i]? = some k → l[i]? = some u →
      (coresOf cl).find? (fun j => mayReturn s u ((placed ++ more.take i).count j) j) = some k
  | [], placed, cores, h => ⟨[], by simpa using (Option.some.inj h).symm, rfl, fun i k u hk => by simp at hk⟩
  | t :: l, placed, cores, h => by
    rw [crewPlace] at h
    split at h
    · rename_i k hfind
      obtain ⟨more, rfl, hlen, hmore⟩ := crewPlace_some h
      refine ⟨k :: more, by simp, by simp [hlen], fun i j u hj hu => ?_⟩
      cases i with
      | zero =>
        obtain rfl : k = j := by simpa using hj
        obtain rfl : t = u := by simpa using hu
        simpa using hfind
      | succ i => simpa using hmore i j u (by simpa using hj) (by simpa using hu)
    · cases h

theorem restoreClusters_eq (s : State) (t : Nat) (hsaved : (s.team t).place.saved? = true) (hruns : (s.ctx (s.team t).ctx).runs = true) :
    restoreClusters s t = (List.range 64).filter fun cl =>
      (s.ctx (s.team t).ctx).part.getLsbD cl && (crewPlace s cl (savedCrew s t) []).isSome := by
  rw [restoreClusters]
  simp only [hsaved, hruns, Bool.not_true, Bool.or_self, Bool.false_eq_true, if_false, partition, List.filter_filter]
  exact List.filter_congr fun cl _ => Bool.and_comm _ _

/-- The cores of a restore lie on the first cluster of the partition that takes every saved member of the crew. -/
theorem restorePlaces_some {s : State} {t : Nat} {cores : List Nat} (h : restorePlaces s t = some cores) :
    ∃ cl, (cl < 64 ∧ (s.ctx (s.team t).ctx).part.getLsbD cl = true) ∧ crewPlace s cl (savedCrew s t) [] = some cores ∧
      ∀ n, n < cl → n < 64 ∧ (s.ctx (s.team t).ctx).part.getLsbD n = true → crewPlace s n (savedCrew s t) [] = none := by
  by_cases hgo : (s.team t).place.saved? = true ∧ (s.ctx (s.team t).ctx).runs = true
  · obtain ⟨hsaved, hruns⟩ := hgo
    rw [restorePlaces] at h
    cases hl : restoreClusters s t with
    | nil => rw [hl] at h; cases h
    | cons cl l =>
      rw [hl] at h
      rw [restoreClusters_eq s t hsaved hruns] at hl
      obtain ⟨⟨hcl, hp⟩, hfirst⟩ := filter_range_head hl
      obtain ⟨hpart, -⟩ := Bool.and_eq_true_iff.1 hp
      refine ⟨cl, ⟨hcl, hpart⟩, h, fun n hn ⟨hlt, hbit⟩ => ?_⟩
      cases hplace : crewPlace s n (savedCrew s t) [] with
      | none => rfl
      | some p => exact absurd (hfirst n hlt (by simp [hbit, hplace])) (by omega)
  · have hnone : restoreClusters s t = [] := if_pos (by cases hs : (s.team t).place.saved? <;> simp_all)
    rw [restorePlaces, hnone] at h
    cases h

end Sys2Proof.SwapAndReturn
end

section
/-! PROOFS. Groups halted at rest, the save of a team (R120, R363, R364), and the forward-progress swap (R118 to R120). -/

namespace Sys2Proof.SwapOut

open Machine Laws Safety CommandUnit Kills Retirement

-- Groups that move (R120) -------------------------------------------------------------------------------------------------------------

/-- A group as saves and restores leave it: its place, its resident rows, its fetch buffer and its waits may differ. -/
def Relocated (x y : Group) : Prop := ∃ core slot base res buf wait watch,
  y = { x with core := core, slot := slot, vbase := base, vres := res, buf := buf, wait := wait, watch := watch }

theorem Relocated.refl (x : Group) : Relocated x x := ⟨x.core, x.slot, x.vbase, x.vres, x.buf, x.wait, x.watch, rfl⟩

theorem Relocated.trans {x y z : Group} (h1 : Relocated x y) (h2 : Relocated y z) : Relocated x z := by
  obtain ⟨_, _, _, _, _, _, _, rfl⟩ := h1
  obtain ⟨c, sl, b, n, f, w, m, rfl⟩ := h2
  exact ⟨c, sl, b, n, f, w, m, rfl⟩

/-- Its registers and lanes are as they were. -/
theorem Relocated.regs {x y : Group} (h : Relocated x y) : RegsKept x y ∧ y.lanes = x.lanes := by
  obtain ⟨_, _, _, _, _, _, _, rfl⟩ := h
  exact ⟨⟨fun _ _ _ => rfl, fun _ => rfl, fun _ => rfl, fun _ => rfl, rfl⟩, rfl⟩

theorem Relocated.vbound {x y : Group} (h : Relocated x y) : y.vbound = x.vbound := by
  obtain ⟨_, _, _, _, _, _, _, rfl⟩ := h
  rfl

theorem allRegsKept_of_relocated {s t : State} (h : ∀ g, Relocated (s.group g) (t.group g)) : AllRegsKept s t := fun g => (h g).regs

-- A halt at rest (R366) ---------------------------------------------------------------------------------------------------------------

theorem freed_leaveQueues (s : State) (g : Nat) : Freed s (leaveQueues s g) := by
  have hwaiters : (fun t : Team => if t.waiters.isEmpty then t else { t with waiters := t.waiters.filter fun w => w.g != g }) =
      fun t => { t with waiters := if t.waiters.isEmpty then t.waiters else t.waiters.filter fun w => w.g != g } := by
    funext t
    split <;> rfl
  unfold leaveQueues
  dsimp only
  rw [hwaiters]
  exact (freed_setCore _ _ _).trans (freed_waiters _ _ _)

/-- What the halt of groups at rest can change beside the groups: cores, places in queues, and what hangs on them in teams. -/
def FreedBeside (s u : State) : Prop := Freed { s with groups := u.groups } u

theorem FreedBeside.refl (s : State) : FreedBeside s s := Freed.refl s

theorem FreedBeside.trans {s t u : State} (h1 : FreedBeside s t) (h2 : FreedBeside t u) : FreedBeside s u := by
  have hframe := h1.frame
  have hgroups : Freed { s with groups := u.groups } { t with groups := u.groups } := ⟨by rw [hframe], h1.team⟩
  exact hgroups.trans h2

/-- A group that waits for nothing and holds no entry loses its watch, and nothing else. -/
theorem saveWait_idle {s : State} {g : Nat} (hwait : (s.group g).wait = .none) (hlog : (s.group g).log = []) :
    FreedBeside s (saveWait s g) ∧ ∀ h, (saveWait s g).group h = if h = g then { s.group g with watch := none } else s.group h := by
  have hfreed := freed_leaveQueues s g
  have hgroup : ∀ h, (leaveQueues s g).group h = s.group h := fun h => by rw [hfreed.frame]; rfl
  have hsettle : settleWait s g = s := by rw [settleWait, hwait]
  have hsave : saveWait s g = ((leaveQueues s g).setGroup g { s.group g with watch := none }).setGroup g { s.group g with watch := none } := by
    unfold saveWait
    simp only [hsettle, hgroup, group_setGroup_same, hwait, hlog]
  rw [hsave]
  refine ⟨⟨?_, hfreed.team⟩, fun h => ?_⟩
  · rw [hfreed.frame]
    rfl
  · by_cases hh : h = g
    · rw [if_pos hh, hh, group_setGroup_same]
    · rw [if_neg hh, group_setGroup_other _ _ _ _ hh, group_setGroup_other _ _ _ _ hh, hgroup]

/-- Groups at rest that have not ended lose their watches. -/
theorem saveWaits_idle : ∀ (l : List Nat) (s : State), (∀ g ∈ l, AtRest (s.group g)) → FreedBeside s (saveWaits s l) ∧
    ∀ h, (saveWaits s l).group h = if h ∈ l ∧ (s.group h).ended = false then { s.group h with watch := none } else s.group h
  | [], s, _ => ⟨.refl s, fun h => by simp [saveWaits]⟩
  | g :: l, s, hrest => by
    rw [saveWaits]
    by_cases hend : (s.group g).ended = true
    · obtain ⟨hfreed, hgroup⟩ := saveWaits_idle l s fun h hh => hrest h (List.mem_cons_of_mem _ hh)
      rw [if_pos hend]
      refine ⟨hfreed, fun h => ?_⟩
      rw [hgroup]
      by_cases hg : h = g
      · simp [hg, hend]
      · simp [hg]
    · obtain ⟨hwait, hlog⟩ := (hrest g List.mem_cons_self).resolve_left hend
      obtain ⟨hone, hgroup⟩ := saveWait_idle hwait hlog
      obtain ⟨hfreed, hgroups⟩ := saveWaits_idle l (saveWait s g) fun h hh => by
        rw [hgroup]
        split
        · exact .inr ⟨hwait, hlog⟩
        · exact hrest h (List.mem_cons_of_mem _ hh)
      rw [if_neg hend]
      refine ⟨hone.trans hfreed, fun h => ?_⟩
      rw [hgroups, hgroup]
      by_cases hg : h = g
      · subst hg
        simp [hend]
      · simp [hg]

/-- A resident team whose groups are at rest halts: the groups lose their watches. -/
theorem haltTeam_idle {s : State} {t : Nat} (hplace : (s.team t).place = .resident) (hrest : ∀ g ∈ (s.team t).groups, AtRest (s.group g)) :
    ((haltTeam s t).team t).place = .halting ∧ TeamFreed { s.team t with place := .halting } ((haltTeam s t).team t) ∧
    ∀ h, (haltTeam s t).group h = if h ∈ (s.team t).groups ∧ (s.group h).ended = false then { s.group h with watch := none } else s.group h := by
  obtain ⟨hfreed, hgroup⟩ := saveWaits_idle _ s hrest
  obtain ⟨w, l, a, hteam⟩ := hfreed.team t
  have hteam : (saveWaits s (s.team t).groups).team t = { s.team t with waiters := w, tlb := l, array := a } := hteam
  have hstill : ((saveWaits s (s.team t).groups).team t).place = .resident := by rw [hteam]; exact hplace
  have hhalt : haltTeam s t = (saveWaits s (s.team t).groups).setTeam t { (saveWaits s (s.team t).groups).team t with place := .halting } := by
    simp only [haltTeam, hplace, hstill, ne_eq, not_true_eq_false, if_false]
  rw [hhalt, team_setTeam_same, hteam]
  exact ⟨rfl, ⟨w, l, a, rfl⟩, hgroup⟩

-- The save of a team (R120, R363, R364) -----------------------------------------------------------------------------------------------

theorem looked_checkAccess {a : Access} (ha : a.team = none) (s : State) : Looked s (checkAccess s a).1 := by
  have htlb := checkAccess_tlbOnly s a
  refine ⟨?_, htlb.2.1⟩
  rw [htlb.1, checkAccess_teams ha]

theorem served_putSave (s : State) (c va : Nat) (bytes : List Byte) : Served s (putSave s c va bytes) := by
  have h := looked_checkAccess (a := { ctx := c, heap := none, need := .store, va, n := bytes.length }) rfl s
  unfold putSave
  generalize checkAccess s _ = r at h
  match r, h with
  | (u, .error (k, _)), h => exact h.served.trans (served_cuFail u c k va)
  | (u, .ok l), h =>
    exact (h.served.trans (served_writesOnly (writePieces_only _ _ _ _ _ _) (writePieces_appends _ _ _ _ _ _))).trans (served_clearPoison _ _)

theorem foldl_serves {α : Type} (f : State → α → State) (hf : ∀ s a, Served s (f s a)) : ∀ (l : List α) (s : State), Served s (l.foldl f s)
  | [], s => .refl s
  | a :: l, s => (hf s a).trans (foldl_serves f hf l (f s a))

/-- The write of a team's record changes no team, group or core. -/
theorem served_writeSave (s : State) (t r : Nat) : Served s (writeSave s t r) := by
  have hfresh : Served s { s with fresh := s.fresh + 1 } := ⟨rfl, ⟨[], by simp⟩, ⟨[], by simp⟩, fun c => .refl (s.ctx c)⟩
  have hput : ∀ {u c va bytes}, Served s u → Served s (putSave u c va bytes) := fun h => h.trans (served_putSave _ _ _ _)
  have hgroups : ∀ {u} (f : State → Nat → State), (∀ v g, Served v (f v g)) → Served s u → Served s ((s.team t).groups.foldl f u) := fun f hf h =>
    h.trans (foldl_serves f hf _ _)
  unfold writeSave
  dsimp only
  split
  · exact hput (hput (hput (hput (hgroups _ (fun _ _ => served_putSave _ _ _ _) (hput hfresh)))))
  · exact hput (hput (hput (hgroups _ (fun _ _ => served_putSave _ _ _ _) (hput hfresh))))

/-- The fetch buffers of some groups dropped. -/
theorem group_dropBuffers (s : State) (gs : List Nat) (g : Nat) :
    ({ s with groups := (List.range s.groups.length).map fun g => if gs.contains g then { s.group g with buf := [] } else s.group g }).group g =
      if g ∈ gs then { s.group g with buf := [] } else s.group g := by
  by_cases hg : g < s.groups.length
  · rw [State.group, getAt_map_range _ _ _ _ hg]
    simp only [List.contains_iff_mem]
  · have hnone : s.group g = {} := getAt_beyond _ _ _ (by omega)
    rw [hnone, State.group, getAt_beyond _ _ _ (by simpa using hg)]
    split <;> rfl

/-- The array state that goes with a team whose group holds the baton (R120). -/
def heldArray (s : State) (t : Nat) : Option (Nat × ArrayState) :=
  match (s.core (s.team t).core).holder with
  | some g => if (s.team t).groups.contains g then some (g, (s.core (s.team t).core).array) else none
  | none => none

/-- The copy requests that go with a team, every chunk of which is to be copied again or still (R269). -/
def heldRequests (s : State) (t : Nat) : List CopyReq :=
  ((s.core (s.team t).core).reqs.filter fun q => q.team == t).map fun q => { q with left := q.left ++ q.waiting.map (·.chunk), waiting := [] }

/-- A team's record written, before the team leaves its core. -/
def recorded (s : State) (t r : Nat) : State :=
  let w := writeSave (s.setTeam t { s.team t with reqs := heldRequests s t, array := (heldArray s t).or (s.team t).array }) t r
  if (heldArray s t).isSome then w.setCore (s.team t).core { w.core (s.team t).core with last := none, array := {} } else w

theorem recorded_group (s : State) (t r g : Nat) : (recorded s t r).group g = s.group g := by
  have hwrite := fun x => (served_writeSave (s.setTeam t x) t r).group g
  unfold recorded
  dsimp only
  by_cases hheld : (heldArray s t).isSome = true
  · rw [if_pos hheld, group_setCore, hwrite, group_setTeam]
  · rw [if_neg hheld, hwrite, group_setTeam]

/-- The fetch buffers of a team's groups dropped, and the team in its record. -/
def stored (u : State) (t r : Nat) (gs : List Nat) : State :=
  let v := { u with groups := (List.range u.groups.length).map fun g => if gs.contains g then { u.group g with buf := [] } else u.group g }
  v.setTeam t { v.team t with place := .saved r }

theorem saveTeam_eq (s : State) (t r : Nat) : saveTeam s t r = stored (freeTeam (recorded s t r) t) t r (s.team t).groups := rfl

/-- A saved team stands in its record with no translation cached, and its groups have empty fetch buffers. -/
theorem saveTeam_saved (s : State) (t r : Nat) : ((saveTeam s t r).team t).place = .saved r ∧ ((saveTeam s t r).team t).tlb = [] ∧
    ∀ g, (saveTeam s t r).group g = if g ∈ (s.team t).groups then { s.group g with buf := [] } else s.group g := by
  have hfree : ∀ g, (freeTeam (recorded s t r) t).group g = s.group g := fun g => by
    rw [(freed_freeTeam (recorded s t r) t).frame]
    exact recorded_group s t r g
  rw [saveTeam_eq, stored]
  refine ⟨by rw [team_setTeam_same], ?_, fun g => ?_⟩
  · rw [team_setTeam_same]
    exact (freeTeam_gone (recorded s t r) t).2
  · rw [group_setTeam, group_dropBuffers, hfree]

-- The swap (R119, R120) ---------------------------------------------------------------------------------------------------------------

theorem crewTeams_alone {s : State} {t : Nat} (h : (s.team t).crew ≤ 1) : crewTeams s t = [t] := by
  simp [crewTeams, h]

/-- The event swaps out the chosen team of a stalled core where its context has free records for all its resident teams. -/
theorem exec_swap {s : State} {core t : Nat} (hlive : s.dev.status ≠ 7) (hteam : t < s.teams.length) (hstall : stalled s core = true)
    (hchoice : swapChoice s core = some t) (hplace : (s.team t).place = .resident) (hcrew : (s.team t).crew ≤ 1)
    (hroom : (teamIds s fun y => y.ctx == (s.team t).ctx && y.place.onCore).length ≤ (freeRecords s (s.team t).ctx).length) :
    exec (.forwardProgressSwap core) s = .next (swapTeams s (s.team t).ctx [t]) := by
  have hexec : exec (.forwardProgressSwap core) s = execForwardProgressSwap core s := rfl
  have hlive' : s.dev.status ≠ 7#3 := hlive
  have hmine : t ∈ teamIds s fun y => y.ctx == (s.team t).ctx && y.place.onCore := by simp [teamIds, hteam, hplace, TeamAt.onCore]
  have hpos := List.length_pos_of_mem hmine
  rw [hexec, execForwardProgressSwap, if_neg (by simp [hstall, hlive']), hchoice]
  simp only [crewTeams_alone hcrew, List.filter_cons, hplace, beq_self_eq_true, if_true, List.filter_nil, List.length_singleton]
  rw [if_neg]
  simp only [Bool.or_eq_true, decide_eq_true_eq]
  omega

/-- A team at rest that is swapped out stands in the lowest free record and may not return to its core yet; its watches are gone. -/
theorem swapTeams_one {s : State} {c t r : Nat} {rest : List Nat} (hplace : (s.team t).place = .resident) (hfree : freeRecords s c = r :: rest)
    (hrest : ∀ g ∈ (s.team t).groups, AtRest (s.group g)) :
    let z := swapTeams s c [t]
    (z.team t).place = .saved r ∧ (z.team t).swapOff = some (s.team t).core ∧ (z.team t).tlb = [] ∧ (z.core (s.team t).core).stall = 0 ∧
    ∀ g, z.group g = if g ∈ (s.team t).groups then
        { s.group g with buf := [], watch := if (s.group g).ended then (s.group g).watch else none } else s.group g := by
  obtain ⟨hhalting, ⟨_, _, _, hteam⟩, hgroup⟩ := haltTeam_idle hplace hrest
  obtain ⟨hsaved, htlb, hbuffer⟩ := saveTeam_saved (haltTeam s t) t r
  have hgroups : ((haltTeam s t).team t).groups = (s.team t).groups := by rw [hteam]
  simp only [swapTeams, hfree, hhalting, ne_eq, not_true_eq_false, if_false]
  refine ⟨?_, ?_, ?_, by rw [core_setCore_same], fun g => ?_⟩
  · rw [team_setCore, team_setTeam_same]
    exact hsaved
  · rw [team_setCore, team_setTeam_same]
  · rw [team_setCore, team_setTeam_same]
    exact htlb
  · rw [group_setCore, group_setTeam, hbuffer, hgroups, hgroup]
    by_cases hg : g ∈ (s.team t).groups
    · cases hend : (s.group g).ended <;> simp [hg, hend]
    · simp [hg]

/-- A team at rest swapped out of a stalled core: its place, its core and its groups (R119, R120). -/
theorem swap_says {s : State} {core t r : Nat} {rest : List Nat} (hlive : s.dev.status ≠ 7) (hteam : t < s.teams.length) (hstall : stalled s core = true)
    (hchoice : swapChoice s core = some t) (hcore : (s.team t).core = core) (hplace : (s.team t).place = .resident) (hcrew : (s.team t).crew ≤ 1)
    (hfree : freeRecords s (s.team t).ctx = r :: rest)
    (hroom : (teamIds s fun y => y.ctx == (s.team t).ctx && y.place.onCore).length ≤ (r :: rest).length)
    (hrest : ∀ g ∈ (s.team t).groups, AtRest (s.group g)) :
    ∃ z, exec (.forwardProgressSwap core) s = .next z ∧ (z.team t).place = .saved r ∧ (z.team t).swapOff = some core ∧ (z.team t).tlb = [] ∧
      (z.core core).stall = 0 ∧ AllRegsKept s z ∧
      ∀ g ∈ (s.team t).groups, (z.group g).buf = [] ∧ ((s.group g).ended = false → (z.group g).watch = none) := by
  subst hcore
  obtain ⟨hsaved, hoff, htlb, hzero, hgroup⟩ := swapTeams_one hplace hfree hrest
  refine ⟨_, exec_swap hlive hteam hstall hchoice hplace hcrew (hfree ▸ hroom), hsaved, hoff, htlb, hzero,
    allRegsKept_of_relocated fun g => ?_, fun g hg => ?_⟩
  · rw [hgroup]
    split
    · exact ⟨_, _, _, _, _, _, _, rfl⟩
    · exact .refl _
  · rw [hgroup, if_pos hg]
    exact ⟨rfl, fun hend => by simp [hend]⟩

end Sys2Proof.SwapOut
end

section
/-! PROOFS. The return of a saved team: free rows and compaction (R111), groups in their new slots, the rows of a group in the backing area (R107,
R108), and what the team latches afresh (R120 to R122). -/

namespace Sys2Proof.TeamReturn

open Machine Laws Safety Kills RoomAndWork SwapAndReturn SwapOut

-- Rows and slots (R85, R111) ----------------------------------------------------------------------------------------------------------

/-- Only the bases of resident runs and the choices left differ. -/
structure Compacted (s u : State) : Prop where
  frame : u = { s with groups := u.groups, choices := u.choices }
  group : ∀ g, ∃ b, u.group g = { s.group g with vbase := b }

theorem Compacted.trans {s t u : State} (h1 : Compacted s t) (h2 : Compacted t u) : Compacted s u := by
  refine ⟨?_, fun g => ?_⟩
  · have e1 := h1.frame
    have e2 := h2.frame
    rw [e1] at e2
    simpa using e2
  · obtain ⟨_, e⟩ := h1.group g
    obtain ⟨b, e'⟩ := h2.group g
    exact ⟨b, by rw [e', e]⟩

theorem compacted_choices (s : State) (l : List Nat) : Compacted s { s with choices := l } := ⟨rfl, fun g => ⟨(s.group g).vbase, rfl⟩⟩

/-- One step of a compaction: the group's run moves down to the first row not yet taken. -/
def moveDown (p : State × Nat) (g : Nat) : State × Nat := (p.1.setGroup g { p.1.group g with vbase := p.2 }, p.2 + (p.1.group g).vres)

theorem foldl_moveDown : ∀ (l : List Nat) (p : State × Nat), Compacted p.1 (l.foldl moveDown p).1
  | [], p => compacted_choices p.1 p.1.choices
  | g :: l, p => by
    refine .trans ⟨rfl, fun h => ?_⟩ (foldl_moveDown l (moveDown p g))
    by_cases hh : h = g
    · rw [hh, moveDown, group_setGroup_same]
      exact ⟨p.2, rfl⟩
    · rw [moveDown, group_setGroup_other _ _ _ _ hh]
      exact ⟨(p.1.group h).vbase, rfl⟩

theorem compacted_compact (s : State) (core : Nat) : Compacted s (compact s core) := foldl_moveDown (s.core core).held (s, 0)

theorem pickRun_choices {s u : State} {core n b : Nat} (h : pickRun s core n = some (u, b)) : Compacted s u := by
  unfold pickRun at h
  dsimp only at h
  split at h
  · cases h
  · obtain ⟨rfl, -⟩ := Prod.mk.inj (Option.some.inj h)
    exact compacted_choices s _

/-- Making a free run compacts at most. -/
theorem compacted_makeRun (s : State) (core n : Nat) : Compacted s ((makeRun s core n).getD (s, 0)).1 := by
  cases h : makeRun s core n with
  | none => exact compacted_choices s s.choices
  | some p =>
    obtain ⟨u, b⟩ := p
    rw [makeRun] at h
    split at h
    · cases h
      exact pickRun_choices ‹_›
    · split at h
      · exact (compacted_compact s core).trans (pickRun_choices h)
      · cases h

/-- A slot picked among the free ones lies below their number. -/
theorem pickOf_slot (s : State) (l : List (Option Nat)) {n : Nat} (hn : 0 < n) : (pickOf s (freeSlots l n)).2 < n := by
  obtain h | h := getAt_mem 0 (freeSlots l n) (getAt 0 s.choices 0 % (freeSlots l n).length)
  · rw [pickOf, h]
    exact hn
  · exact List.mem_range.1 (List.mem_filter.1 h).1

-- Groups in their new slots (R122) ----------------------------------------------------------------------------------------------------

/-- A group put in a slot of a core. -/
def inSlot (u : State) (core slot g : Nat) (x : Group) : State :=
  ({ u with choices := u.choices.drop 1 }.setCore core { u.core core with groups := setAt none (u.core core).groups slot (some g) }).setGroup g x

/-- A group that goes on takes a slot, with as many resident rows as the core has free, and its other rows are written to the backing area. -/
theorem restoreGroup_eq {s : State} {core g : Nat} (hend : (s.group g).ended = false) : ∃ u slot base, Compacted s u ∧ slot < 32 ∧
    restoreGroup s core g = backRows (inSlot u core slot g
      { s.group g with core := core, slot := slot, vbase := base, vres := min (s.group g).vbound (rowsFree s core), buf := [] }) g := by
  have heq : restoreGroup s core g = if (s.group g).ended then s.setGroup g { s.group g with core := core } else
      let n := min (s.group g).vbound (rowsFree s core)
      let p := (makeRun s core n).getD (s, 0)
      let slot := (pickOf p.1 (freeSlots (p.1.core core).groups 32)).2
      backRows (inSlot p.1 core slot g { p.1.group g with core := core, slot := slot, vbase := p.2, vres := n, buf := [] }) g := rfl
  rw [heq, if_neg (by simp [hend])]
  dsimp only
  have hcompact := compacted_makeRun s core (min (s.group g).vbound (rowsFree s core))
  generalize (makeRun s core (min (s.group g).vbound (rowsFree s core))).getD (s, 0) = p at hcompact
  obtain ⟨b, hgroup⟩ := hcompact.group g
  refine ⟨p.1, _, p.2, hcompact, pickOf_slot p.1 (p.1.core core).groups (by decide), ?_⟩
  rw [hgroup]

/-- What the return of groups changes: their places, memory of the backing area, cores and the choices left. -/
structure Rehoused (s t : State) : Prop where
  frame : t = { s with mem := t.mem, poison := t.poison, groups := t.groups, cores := t.cores, choices := t.choices }
  group : ∀ g, Relocated (s.group g) (t.group g)

theorem Rehoused.trans {s t u : State} (h1 : Rehoused s t) (h2 : Rehoused t u) : Rehoused s u := by
  refine ⟨?_, fun g => (h1.group g).trans (h2.group g)⟩
  have e1 := h1.frame
  have e2 := h2.frame
  rw [e1] at e2
  simpa using e2

theorem backRows_group (s : State) (g h : Nat) : (backRows s g).group h = s.group h := by
  obtain ⟨m, l, heq, -⟩ := backRows_fields s g
  rw [heq]
  rfl

theorem restoreGroup_rehoused (s : State) (core g : Nat) : Rehoused s (restoreGroup s core g) ∧
    ∀ h, ((restoreGroup s core g).group h).core = if h = g then core else (s.group h).core := by
  cases hend : (s.group g).ended with
  | true =>
    have heq : restoreGroup s core g = s.setGroup g { s.group g with core := core } := if_pos hend
    have hgroup : ∀ h, (restoreGroup s core g).group h = if h = g then { s.group g with core := core } else s.group h := fun h => by
      by_cases hh : h = g
      · rw [heq, if_pos hh, hh, group_setGroup_same]
      · rw [heq, if_neg hh, group_setGroup_other _ _ _ _ hh]
    refine ⟨⟨by rw [heq]; rfl, fun h => ?_⟩, fun h => ?_⟩
    · rw [hgroup]
      split
      · rename_i hh
        exact hh ▸ ⟨_, _, _, _, _, _, _, rfl⟩
      · exact .refl _
    · rw [hgroup]
      split <;> rfl
  | false =>
    obtain ⟨u, slot, base, hcompact, -, heq⟩ := restoreGroup_eq (core := core) hend
    obtain ⟨m, l, hback, -⟩ := backRows_fields (inSlot u core slot g { s.group g with
      core := core, slot := slot, vbase := base, vres := min (s.group g).vbound (rowsFree s core), buf := [] }) g
    have hgroup : ∀ h, (restoreGroup s core g).group h = if h = g then { s.group g with
        core := core, slot := slot, vbase := base, vres := min (s.group g).vbound (rowsFree s core), buf := [] } else u.group h := fun h => by
      rw [heq, backRows_group]
      by_cases hh : h = g
      · rw [if_pos hh, hh, inSlot, group_setGroup_same]
      · rw [if_neg hh, inSlot, group_setGroup_other _ _ _ _ hh]
        rfl
    refine ⟨⟨?_, fun h => ?_⟩, fun h => ?_⟩
    · rw [heq, hback, inSlot, hcompact.frame]
      rfl
    · rw [hgroup]
      split
      · rename_i hh
        exact hh ▸ ⟨_, _, _, _, _, _, _, rfl⟩
      · obtain ⟨b, hb⟩ := hcompact.group h
        rw [hb]
        exact ⟨_, _, _, _, _, _, _, rfl⟩
    · rw [hgroup]
      split
      · rfl
      · obtain ⟨b, hb⟩ := hcompact.group h
        rw [hb]

theorem restoreGroups_rehoused (core : Nat) : ∀ (l : List Nat) (s : State), Rehoused s (restoreGroups s core l) ∧
    ∀ h, ((restoreGroups s core l).group h).core = if h ∈ l then core else (s.group h).core
  | [], s => ⟨⟨rfl, fun _ => .refl _⟩, fun h => by simp [restoreGroups]⟩
  | g :: l, s => by
    obtain ⟨hone, hcore⟩ := restoreGroup_rehoused s core g
    obtain ⟨hrest, hcores⟩ := restoreGroups_rehoused core l (restoreGroup s core g)
    refine ⟨hone.trans hrest, fun h => ?_⟩
    rw [restoreGroups, hcores, hcore]
    by_cases hh : h = g <;> simp [hh]

-- Rows in the backing area (R107, R108) -----------------------------------------------------------------------------------------------

/-- Within 1 GiB that no node window's edge divides, home addresses run on. -/
theorem homeAddr_block (d : Dev) (b : Nat) {o : Nat} (ho : o < 2 ^ 30) : homeAddr d (b * 2 ^ 30 + o) = homeAddr d (b * 2 ^ 30) + o := by
  have hlow : nodeWindow d.nodeId ≤ b * 2 ^ 30 + o ↔ nodeWindow d.nodeId ≤ b * 2 ^ 30 := by unfold nodeWindow; omega
  have hhigh : b * 2 ^ 30 + o < nodeWindow d.nodeId + 2 ^ 40 ↔ b * 2 ^ 30 < nodeWindow d.nodeId + 2 ^ 40 := by unfold nodeWindow; omega
  unfold homeAddr
  simp only [hlow, hhigh]
  split
  · rename_i h
    simp only [Bool.and_eq_true, decide_eq_true_eq] at h
    omega
  · rfl

theorem memRead_congr {m m' : List Host.Cell} {a n : Nat} (h : ∀ i, a ≤ i → i < a + n → memGet m' i = memGet m i) : memRead m' a n = memRead m a n :=
  List.map_congr_left fun i hi => by
    obtain ⟨hlo, hhi⟩ := mem_span.1 hi
    exact h i hlo hhi

theorem memRead_memWrite {m : List Host.Cell} (hwf : Memory.wf m = true) (a : Nat) (l : List Byte) : memRead (memWrite m a l) a l.length = l := by
  refine List.ext_getElem (by simp [memRead, span]) fun i h1 h2 => ?_
  simp only [memRead, span, List.getElem_map, List.getElem_range]
  exact memGet_memWrite_same l m a i h2 hwf

/-- Of writes that have no byte in common each reads back. -/
theorem foldl_memWrite_read (f : Nat → Nat × List Byte) : ∀ (l : List Nat) (m : List Host.Cell), Memory.wf m = true →
    l.Pairwise (fun u v => Apart (f u).1 (f u).2.length (f v).1 (f v).2.length) →
    ∀ v ∈ l, memRead (l.foldl (fun m v => memWrite m (f v).1 (f v).2) m) (f v).1 (f v).2.length = (f v).2
  | [], _, _, _, v, hv => by simp at hv
  | u :: l, m, hwf, hp, v, hv => by
    obtain ⟨hu, hl⟩ := List.pairwise_cons.1 hp
    have hwf' := memWrite_wf (f u).2 m (f u).1 hwf
    by_cases hin : v ∈ l
    · exact foldl_memWrite_read f l _ hwf' hl v hin
    · obtain rfl : v = u := (List.mem_cons.1 hv).resolve_right hin
      refine (memRead_congr fun i hlo hhi => ?_).trans (memRead_memWrite hwf (f v).1 (f v).2)
      exact (foldl_memWrite_frame f l _ hwf').2 i fun w hw hrow => by
        have hapart := hu w hw
        unfold Apart at hapart
        omega

/-- Where row v of a group lies in the backing area. -/
def rowPlace (d : Dev) (x : Group) (v : Nat) : Nat := wfield d.rback 30 27 * 2 ^ 30 + (32 * x.core + x.slot) * 65536 + 256 * v

/-- The bytes of row v of a group. -/
def rowBytes (x : Group) (v : Nat) : List Byte := (x.vrow v).flatMap fun w => toBytes 8 w.toNat

theorem length_rowBytes (x : Group) (v : Nat) : (rowBytes x v).length = 256 := by
  rw [rowBytes, length_flatMap_const _ 8 _ fun _ _ => length_toBytes 8 _, length_vrow]

/-- Rows of one group lie apart. -/
theorem rowPlace_apart (d : Dev) {x : Group} {u v : Nat} (hcore : x.core < 256) (hslot : x.slot < 32) (huv : u < v) (hv : v < 256) :
    Apart (homeAddr d (rowPlace d x u)) 256 (homeAddr d (rowPlace d x v)) 256 := by
  have hplace : ∀ w, w < 256 → homeAddr d (rowPlace d x w) = homeAddr d (wfield d.rback 30 27 * 2 ^ 30) + ((32 * x.core + x.slot) * 65536 + 256 * w) :=
    fun w hw => by
      rw [rowPlace, Nat.add_assoc]
      exact homeAddr_block d _ (by omega)
  rw [hplace u (by omega), hplace v hv]
  exact .inl (by omega)

/-- The rows of a group that are not resident read back from the backing area of its slot. -/
theorem backRows_read {s : State} {g v : Nat} (hwf : Memory.wf s.mem = true) (hback : wfield s.dev.rback 0 1 = 1)
    (hplain : (s.ctx (s.team (s.group g).team).ctx).sealed = false) (hcore : (s.group g).core < 256) (hslot : (s.group g).slot < 32)
    (hbound : (s.group g).vbound ≤ 256) (hlow : (s.group g).vres ≤ v) (hhigh : v < (s.group g).vbound) :
    memRead (backRows s g).mem (homeAddr s.dev (rowPlace s.dev (s.group g) v)) 256 = rowBytes (s.group g) v := by
  have hmem : (backRows s g).mem = (span (s.group g).vres ((s.group g).vbound - (s.group g).vres)).foldl
      (fun m v => memWrite m (homeAddr s.dev (rowPlace s.dev (s.group g) v)) (rowBytes (s.group g) v)) s.mem := by
    unfold backRows
    simp only
    rw [if_neg (by simp [hback]; omega)]
    simp only [hplain, Bool.false_eq_true, if_false]
    rfl
  have hin : v ∈ span (s.group g).vres ((s.group g).vbound - (s.group g).vres) := mem_span.2 (by omega)
  have hread := foldl_memWrite_read (fun v => (homeAddr s.dev (rowPlace s.dev (s.group g) v), rowBytes (s.group g) v)) _ s.mem hwf
    ((pairwise_span _ _).imp_of_mem fun {a b} _ hb hab => by
      have hlt : b < 256 := by
        have := mem_span.1 hb
        omega
      simp only [length_rowBytes]
      exact rowPlace_apart s.dev hcore hslot hab hlt) v hin
  rw [hmem]
  simpa only [length_rowBytes] using hread

/-- A group that returns: its resident rows, its slot, and its other rows in the backing area of that slot (R122). -/
theorem restoreGroup_rows {s : State} {core g : Nat} (hend : (s.group g).ended = false) (hbound : (s.group g).vbound ≤ 256) (hcore : core < 256)
    (hback : wfield s.dev.rback 0 1 = 1) (hplain : (s.ctx (s.team (s.group g).team).ctx).sealed = false) (hwf : Memory.wf s.mem = true) :
    ∃ x, (restoreGroup s core g).group g = x ∧ x.core = core ∧ x.vres = min (s.group g).vbound (rowsFree s core) ∧ x.slot < 32 ∧
      ∀ v, x.vres ≤ v → v < (s.group g).vbound →
        memRead (restoreGroup s core g).mem (homeAddr s.dev (rowPlace s.dev x v)) 256 = rowBytes (s.group g) v := by
  obtain ⟨u, slot, base, hcompact, hslot, heq⟩ := restoreGroup_eq (core := core) hend
  generalize hx : ({ s.group g with
    core := core, slot := slot, vbase := base, vres := min (s.group g).vbound (rowsFree s core), buf := [] } : Machine.Group) = x at heq
  have hframe : inSlot u core slot g x = { s with
      groups := (inSlot u core slot g x).groups, cores := (inSlot u core slot g x).cores, choices := (inSlot u core slot g x).choices } := by
    rw [inSlot, hcompact.frame]
    rfl
  have hgroup : (inSlot u core slot g x).group g = x := group_setGroup_same _ _ _
  refine ⟨x, by rw [heq, backRows_group, hgroup], hx ▸ rfl, hx ▸ rfl, hx ▸ hslot, fun v hlow hhigh => ?_⟩
  rw [heq]
  generalize inSlot u core slot g x = w at hframe hgroup
  have hread := backRows_read (s := w) (g := g) (v := v) (by rw [hframe]; exact hwf) (by rw [hframe]; exact hback)
    (by rw [hgroup, hframe, ← hx]; exact hplain) (by rw [hgroup, ← hx]; exact hcore) (by rw [hgroup, ← hx]; exact hslot)
    (by rw [hgroup, ← hx]; exact hbound) (by rw [hgroup]; exact hlow) (by rw [hgroup, ← hx]; exact hhigh)
  have hdev : w.dev = s.dev := by rw [hframe]
  rw [hgroup, hdev] at hread
  rw [hread, ← hx]
  rfl

-- The team (R120, R121) ---------------------------------------------------------------------------------------------------------------

/-- A team in a slot of its new core, its latched registers taken afresh, before its groups return. -/
def seated (s : State) (t core : Nat) : State :=
  let x := s.team t
  let y := s.ctx x.ctx
  let p := pickOf s (freeSlots (s.core core).teams 16)
  (p.1.setCore core { s.core core with teams := setAt none (s.core core).teams p.2 (some t), reqs := (s.core core).reqs ++ x.reqs }).setTeam t { x with
    place := .resident, core := core, slot := p.2, reqs := [], swapOff := none
    heap := (y.heapbase, y.heaplen, y.heapoff), vec := y.trapvec, brk := y.brk }

theorem seated_team (s : State) (t core : Nat) : ∃ slot, (seated s t core).team t = { s.team t with
    place := .resident, core := core, slot := slot, reqs := [], swapOff := none
    heap := ((s.ctx (s.team t).ctx).heapbase, (s.ctx (s.team t).ctx).heaplen, (s.ctx (s.team t).ctx).heapoff)
    vec := (s.ctx (s.team t).ctx).trapvec, brk := (s.ctx (s.team t).ctx).brk } := ⟨_, team_setTeam_same _ _ _⟩

theorem seated_rowsFree (s : State) (t core : Nat) : rowsFree (seated s t core) core = rowsFree s core := by
  have hcore : ((seated s t core).core core).held = (s.core core).held := by
    unfold seated
    dsimp only
    rw [core_setTeam, core_setCore_same]
    rfl
  rw [rowsFree, rowsFree, rowsUsed, rowsUsed, hcore]
  rfl

/-- A holder of the baton that returns takes its place at the front of the queue, and nothing else follows the return of the groups. -/
theorem restoreTeam_freed (s : State) (t core : Nat) :
    Freed (restoreGroups (seated s t core) core (s.team t).groups) (restoreTeam s t core) := by
  have heq : restoreTeam s t core = match (s.team t).array with
      | none => restoreGroups (seated s t core) core (s.team t).groups
      | some (g, _) =>
        let u := restoreGroups (seated s t core) core (s.team t).groups
        let w := u.setCore core { u.core core with queue := g :: (u.core core).queue }
        if (u.core core).holder.isNone then passBaton w core else w := rfl
  rw [heq]
  split
  · exact .refl _
  · dsimp only
    split
    · exact (freed_setCore _ _ _).trans (freed_passBaton _ _)
    · exact freed_setCore _ _ _

/-- What a restored team, its groups and the rest of the machine are. -/
structure Returned (s : State) (t core : Nat) (z : State) : Prop where
  team    : ∃ slot r w l a, z.team t = { s.team t with
    place := .resident, core := core, slot := slot, reqs := r, swapOff := none
    heap := ((s.ctx (s.team t).ctx).heapbase, (s.ctx (s.team t).ctx).heaplen, (s.ctx (s.team t).ctx).heapoff)
    vec := (s.ctx (s.team t).ctx).trapvec, brk := (s.ctx (s.team t).ctx).brk, waiters := w, tlb := l, array := a }
  group   : ∀ g, Relocated (s.group g) (z.group g)
  cores   : ∀ g ∈ (s.team t).groups, (z.group g).core = core
  writes  : z.writes = s.writes
  rels    : z.rels = s.rels

theorem restoreTeam_returned (s : State) (t core : Nat) : Returned s t core (restoreTeam s t core) := by
  obtain ⟨hhoused, hcores⟩ := restoreGroups_rehoused core (s.team t).groups (seated s t core)
  have hfreed := restoreTeam_freed s t core
  obtain ⟨w, l, a, hteam⟩ := hfreed.team t
  obtain ⟨slot, hseat⟩ := seated_team s t core
  have hgroup : ∀ g, (restoreTeam s t core).group g = (restoreGroups (seated s t core) core (s.team t).groups).group g := fun g => by
    rw [hfreed.frame]
    rfl
  have hkept : (restoreGroups (seated s t core) core (s.team t).groups).team t = (seated s t core).team t := by
    rw [hhoused.frame]
    rfl
  refine ⟨⟨slot, [], w, l, a, by rw [hteam, hkept, hseat]⟩, fun g => ?_, fun g hg => ?_, ?_, ?_⟩
  · rw [hgroup]
    exact hhoused.group g
  · rw [hgroup, hcores, if_pos hg]
  · rw [hfreed.frame, hhoused.frame]
    rfl
  · rw [hfreed.frame, hhoused.frame]
    rfl

/-- A team of one group: its resident rows, its slot, and its other rows in the backing area of that slot (R122). -/
theorem restoreTeam_rows {s : State} {t core g : Nat} (hg : (s.team t).groups = [g]) (hteam : (s.group g).team = t)
    (hend : (s.group g).ended = false) (hbound : (s.group g).vbound ≤ 256) (hcore : core < 256) (hback : wfield s.dev.rback 0 1 = 1)
    (hplain : (s.ctx (s.team t).ctx).sealed = false) (hwf : Memory.wf s.mem = true) :
    let z := restoreTeam s t core
    let n := min (s.group g).vbound (rowsFree s core)
    (z.group g).vres = n ∧ (z.group g).slot < 32 ∧ ∀ v, n ≤ v → v < (s.group g).vbound →
      memRead z.mem (homeAddr s.dev (wfield s.dev.rback 30 27 * 2 ^ 30 + (32 * core + (z.group g).slot) * 65536 + 256 * v)) 256 =
        rowBytes (s.group g) v := by
  have hframe := (restoreTeam_freed s t core).frame
  obtain ⟨_, hseat⟩ := seated_team s t core
  have hsealed : ((seated s t core).ctx ((seated s t core).team ((seated s t core).group g).team).ctx).sealed = false := by
    have hmine : ((seated s t core).group g).team = t := hteam
    rw [hmine, hseat]
    exact hplain
  obtain ⟨x, hx, hxcore, hvres, hslot, hread⟩ := restoreGroup_rows (s := seated s t core) hend hbound hcore hback hsealed hwf
  rw [seated_rowsFree] at hvres
  have hone : restoreGroups (seated s t core) core (s.team t).groups = restoreGroup (seated s t core) core g := by rw [hg]; rfl
  have hgroup : (restoreTeam s t core).group g = x := by
    rw [hframe, hone]
    exact hx
  have hmem : (restoreTeam s t core).mem = (restoreGroup (seated s t core) core g).mem := by rw [hframe, hone]
  intro z n
  refine ⟨by rw [hgroup]; exact hvres, by rw [hgroup]; exact hslot, fun v hlow hhigh => ?_⟩
  rw [hmem, hgroup]
  have hrow := hread v (hvres.trans_le hlow) hhigh
  rw [rowPlace, hxcore] at hrow
  exact hrow

end Sys2Proof.TeamReturn
end

section
/-! PROOFS. O53: PLACE errors and their answers (R123), the event that restores a team (R83, R121), and the statement. -/

namespace Sys2Proof.PlaceEvents

open Machine Laws Safety CommandUnit Kills RoomAndWork SwapAndReturn SwapOut TeamReturn

-- What decides that no core can ever hold a team (R123) -------------------------------------------------------------------------------

/-- The cores, the partitions and what teams need are as they were; where teams stand may differ. -/
structure NeedsKept (s t : State) : Prop where
  count : t.teams.length = s.teams.length
  team  : ∀ k, ∃ p q, t.team k = { s.team k with place := p, reqs := q }
  cores : t.cores = s.cores
  ctx   : ∀ c, (t.ctx c).part = (s.ctx c).part ∧ (t.ctx c).plerr = (s.ctx c).plerr

theorem NeedsKept.refl (s : State) : NeedsKept s s := ⟨rfl, fun k => ⟨(s.team k).place, (s.team k).reqs, rfl⟩, rfl, fun _ => ⟨rfl, rfl⟩⟩

theorem NeedsKept.trans {s t u : State} (h1 : NeedsKept s t) (h2 : NeedsKept t u) : NeedsKept s u where
  count := h2.count.trans h1.count
  team k := by
    obtain ⟨_, _, e1⟩ := h1.team k
    obtain ⟨p, q, e2⟩ := h2.team k
    exact ⟨p, q, by rw [e2, e1]⟩
  cores := h2.cores.trans h1.cores
  ctx c := ⟨(h2.ctx c).1.trans (h1.ctx c).1, (h2.ctx c).2.trans (h1.ctx c).2⟩

theorem crewTeams_kept {s t : State} (h : NeedsKept s t) (k : Nat) : crewTeams t k = crewTeams s k := by
  have hteam : ∀ j, (t.team j).launch = (s.team j).launch ∧ (t.team j).crew = (s.team j).crew ∧ (t.team j).t = (s.team j).t := fun j => by
    obtain ⟨_, _, e⟩ := h.team j
    rw [e]
    exact ⟨rfl, rfl, rfl⟩
  simp only [crewTeams, teamIds, h.count, (hteam _).1, (hteam _).2.1, (hteam _).2.2]

/-- Whether any core can ever hold a team does not change with where teams stand. -/
theorem nowhere_kept {s t : State} (h : NeedsKept s t) (k : Nat) : nowhere t k = nowhere s k := by
  obtain ⟨_, _, e⟩ := h.team k
  have hroom : roomFull t = roomFull s := by
    funext j
    rw [roomFull, roomFull, State.core, h.cores]
    rfl
  simp only [nowhere, hasCapacity, partition, (h.ctx _).1, hroom, crewTeams_kept h, e]
  rfl

theorem needsKept_setTeam {s : State} {k : Nat} (hk : k < s.teams.length) (p : TeamAt) (q : List CopyReq) :
    NeedsKept s (s.setTeam k { s.team k with place := p, reqs := q }) where
  count := length_setAt _ _ _ _ hk
  team j := by
    by_cases hj : j = k
    · rw [hj, team_setTeam_same]
      exact ⟨p, q, rfl⟩
    · rw [team_setTeam_other _ _ _ _ hj]
      exact ⟨_, _, rfl⟩
  cores := rfl
  ctx _ := ⟨rfl, rfl⟩

theorem needsKept_of_eq {s t : State} (hteams : t.teams = s.teams) (hcores : t.cores = s.cores) (hctxs : t.ctxs = s.ctxs) : NeedsKept s t where
  count := by rw [hteams]
  team k := ⟨(s.team k).place, (s.team k).reqs, by rw [State.team, hteams]; rfl⟩
  cores := hcores
  ctx c := by
    rw [State.ctx, hctxs]
    exact ⟨rfl, rfl⟩

theorem needsKept_served {s t : State} (h : Served s t) : NeedsKept s t where
  count := by rw [h.teams]
  team k := ⟨_, _, by rw [h.team]⟩
  cores := h.cores
  ctx c := by
    obtain ⟨_, _, _, _, e⟩ := h.ctx c
    rw [e]
    exact ⟨rfl, rfl⟩

-- The kill of a team that stands on no core (R123, R354) ------------------------------------------------------------------------------

/-- The team is killed, and neither what teams need nor where the others stand changes. -/
structure KilledAway (s : State) (t : Nat) (z : State) : Prop where
  needs : NeedsKept s z
  place : ∀ k, (z.team k).place = if k = t then .killed else (s.team k).place

theorem KilledAway.served {s u z : State} {t : Nat} (h : KilledAway s t u) (hz : Served u z) : KilledAway s t z :=
  ⟨h.needs.trans (needsKept_served hz), fun k => by rw [hz.team]; exact h.place k⟩

theorem killedAway_cleared {s : State} {t r : Nat} (ht : t < s.teams.length) (hplace : (s.team t).place = .placeErr r) : KilledAway s t (cleared s t) := by
  have hframe := endGroups_frame (s.team t).groups s
  refine ⟨?_, (cleared_cleared s t).place⟩
  have hends : NeedsKept s (endGroups s (s.team t).groups) := needsKept_of_eq (by rw [hframe]) (by rw [hframe]) (by rw [hframe])
  have hteams : (endGroups s (s.team t).groups).teams = s.teams := by rw [hframe]
  have hset := hends.trans (needsKept_setTeam (k := t) (by rw [hteams]; exact ht) .killed [])
  unfold cleared
  rw [hplace]
  dsimp only
  exact hset.trans (needsKept_of_eq (trace_teams _ _ _ _ _ _ _) (trace_cores _ _ _ _ _ _ _) (trace_ctxs _ _ _ _ _ _ _))

theorem killTeam_away {s : State} {t r : Nat} (ht : t < s.teams.length) (hplace : (s.team t).place = .placeErr r) (fcause : Nat) (info : Word) :
    KilledAway s t (killTeam s t fcause info) := by
  have hover : (s.team t).place.over = false := by rw [hplace]; rfl
  have hclear := killedAway_cleared ht hplace
  cases hl : (s.team t).launch with
  | some l =>
    rw [killTeam_of_launch hover hl]
    exact ⟨hclear.needs.trans (needsKept_of_eq rfl rfl rfl), hclear.place⟩
  | none =>
    cases htask : (s.team t).task with
    | some p =>
      rw [killTeam_of_task hover hl htask]
      dsimp only
      generalize hrec : (logError _ _ : State) = v
      have hv : KilledAway s t v := hclear.served (hrec ▸ (served_putErr (cleared s t) _ _ _ _ _).trans (served_logError _ _))
      have hrel : KilledAway s t (releaseTeam v (s.team t).ctx (s.team t).groups).1 := ⟨hv.needs.trans (needsKept_of_eq rfl rfl rfl), hv.place⟩
      exact hrel.served (served_joinDec _ _ _ _ _ _)
    | none =>
      rw [killTeam_of_neither hover hl htask]
      exact hclear

-- Answers (R123) ----------------------------------------------------------------------------------------------------------------------

/-- Where an acknowledged PLACE error leaves a team: killed where still no core can ever hold it, otherwise saved again. -/
def answered (s : State) (t : Nat) : TeamAt :=
  match (s.team t).place with
  | .placeErr r => if nowhere s t then .killed else .saved r
  | p => p

theorem answered_kept {s u : State} {t : Nat} (h : NeedsKept s u) (hplace : (u.team t).place = (s.team t).place) : answered u t = answered s t := by
  rw [answered, answered, hplace, nowhere_kept h]

theorem answerPlace_one (s : State) {t : Nat} (ht : t < s.teams.length) :
    NeedsKept s (answerPlace s [t]) ∧ ∀ k, ((answerPlace s [t]).team k).place = if k = t then answered s t else (s.team k).place := by
  cases hplace : (s.team t).place with
  | placeErr r =>
    have hkill := killTeam_away ht hplace 0x19 0
    have hset := needsKept_setTeam ht (.saved r) (s.team t).reqs
    simp only [answerPlace, hplace, answered]
    split
    · exact ⟨hkill.needs, hkill.place⟩
    · refine ⟨hset, fun k => ?_⟩
      by_cases hk : k = t
      · rw [if_pos hk, hk, team_setTeam_same]
      · rw [if_neg hk, team_setTeam_other _ _ _ _ hk]
  | _ =>
    simp only [answerPlace, hplace, answered]
    refine ⟨.refl s, fun k => ?_⟩
    split
    · rename_i hk
      rw [hk, hplace]
    · rfl

theorem answerPlace_cons (s : State) (t : Nat) (l : List Nat) : answerPlace s (t :: l) = answerPlace (answerPlace s [t]) l := by
  simp only [answerPlace]
  split <;> rfl

/-- Each team of a list without repeats is answered, by what held before the first answer. -/
theorem answerPlace_says : ∀ (l : List Nat) (s : State), l.Nodup → (∀ t ∈ l, t < s.teams.length) →
    NeedsKept s (answerPlace s l) ∧ ∀ k, ((answerPlace s l).team k).place = if k ∈ l then answered s k else (s.team k).place
  | [], s, _, _ => ⟨.refl s, fun k => by simp [answerPlace]⟩
  | t :: l, s, hnodup, hlt => by
    obtain ⟨hnot, hnodup⟩ := List.nodup_cons.1 hnodup
    obtain ⟨hone, hplace⟩ := answerPlace_one s (hlt t List.mem_cons_self)
    obtain ⟨hrest, hplaces⟩ := answerPlace_says l (answerPlace s [t]) hnodup fun u hu => by
      rw [hone.count]
      exact hlt u (List.mem_cons_of_mem _ hu)
    rw [answerPlace_cons]
    refine ⟨hone.trans hrest, fun k => ?_⟩
    rw [hplaces]
    by_cases hk : k = t
    · subst hk
      simp [hnot, hplace]
    · have hsame : ((answerPlace s [t]).team k).place = (s.team k).place := by rw [hplace, if_neg hk]
      simp [hk, answered_kept hone hsame, hsame]

/-- An acknowledged PLACE error is tested again. -/
theorem plerrAck_answers {s : State} (hready : s.dev.status = 3) (c : Nat) : ((plerrAck s c).ctx c).plerr = false ∧
    ∀ t r, t < s.teams.length → (s.team t).ctx = c → (s.team t).place = .placeErr r →
      ((plerrAck s c).team t).place = if nowhere s t = true then .killed else .saved r := by
  have heq : plerrAck s c = answerPlace (s.setCtx c { s.ctx c with plerr := false })
      (teamIds (s.setCtx c { s.ctx c with plerr := false }) fun t => t.ctx == c) := by
    simp [plerrAck, Dev.takesCtx, hready]
  have hpart : ∀ d, ((s.setCtx c { s.ctx c with plerr := false }).ctx d).part = (s.ctx d).part := fun d => by
    by_cases hd : d = c
    · rw [hd, ctx_setCtx_same]
    · rw [ctx_setCtx_other _ _ _ _ hd]
  have hnowhere : ∀ t, nowhere (s.setCtx c { s.ctx c with plerr := false }) t = nowhere s t := fun t => by
    simp only [nowhere, hasCapacity, partition, hpart]
    rfl
  obtain ⟨hneeds, hplace⟩ := answerPlace_says (teamIds (s.setCtx c { s.ctx c with plerr := false }) fun t => t.ctx == c)
    (s.setCtx c { s.ctx c with plerr := false }) (List.nodup_range.filter _) fun t ht => List.mem_range.1 (List.mem_filter.1 ht).1
  rw [← heq] at hneeds hplace
  refine ⟨by rw [(hneeds.ctx c).2, ctx_setCtx_same], fun t r ht hc herr => ?_⟩
  have hmem : t ∈ teamIds (s.setCtx c { s.ctx c with plerr := false }) fun t => t.ctx == c := by simp [teamIds, ht, hc]
  rw [hplace, if_pos hmem, answered, team_setCtx, herr, ← hnowhere]

/-- After a fatal error the bit clears and no team is tested (R391). -/
theorem plerrAck_fatal {s : State} (hfatal : s.dev.status = 7) (c : Nat) : plerrAck s c = s.setCtx c { s.ctx c with plerr := false } := by
  simp [plerrAck, Dev.takesCtx, hfatal]

-- The event that restores a team (R83, R121) ------------------------------------------------------------------------------------------

theorem savedCrew_alone {s : State} {team r : Nat} (hplace : (s.team team).place = .saved r) (hcrew : (s.team team).crew ≤ 1) :
    savedCrew s team = [team] := by
  simp [savedCrew, crewTeams_alone hcrew, hplace, TeamAt.saved?]

section
variable {s : State} {team r : Nat} (hplace : (s.team team).place = .saved r) (hdeals : s.deals = true)
  (hruns : (s.ctx (s.team team).ctx).runs = true)
include hplace hdeals hruns

theorem exec_teamRestore (cores : List Nat) : exec (.teamRestore team cores) s = .next (
    if nowhere s team then
      signal ((placeErrors s (savedCrew s team)).setCtx (s.team team).ctx { (placeErrors s (savedCrew s team)).ctx (s.team team).ctx with plerr := true })
        (s.team team).ctx 3
    else if restorePlaces s team == some cores && bestWork s == teamWork s team then restoreAll s ((savedCrew s team).zip cores) else s) := by
  have hexec : exec (.teamRestore team cores) s = execTeamRestore team cores s := rfl
  rw [hexec, execTeamRestore]
  dsimp only
  rw [if_neg (by simp [hplace, TeamAt.saved?, hdeals, hruns])]
  split
  · rfl
  · split <;> rfl

/-- A saved team that R83 does not pick stays where it is. -/
theorem exec_teamRestore_unpicked (hsome : nowhere s team = false) (hpick : bestWork s ≠ teamWork s team) (cores : List Nat) :
    exec (.teamRestore team cores) s = .next s := by
  rw [exec_teamRestore hplace hdeals hruns, if_neg (by simp [hsome]), if_neg (by simp [hpick])]

variable (hcrew : (s.team team).crew ≤ 1)
include hcrew

/-- A saved team that R83 picks returns to its core. -/
theorem exec_teamRestore_picked {k : Nat} (hsome : nowhere s team = false) (hcores : restorePlaces s team = some [k])
    (hpick : bestWork s = teamWork s team) : exec (.teamRestore team [k]) s = .next (restoreTeam s team k) := by
  rw [exec_teamRestore hplace hdeals hruns, if_neg (by simp [hsome]), if_pos (by simp [hcores, hpick]), savedCrew_alone hplace hcrew]
  rfl

/-- A saved team that no core can ever hold raises PLACE. -/
theorem exec_teamRestore_nowhere (hnone : nowhere s team = true) (cores : List Nat) : ∃ z, exec (.teamRestore team cores) s = .next z ∧
    (z.team team).place = .placeErr r ∧ (z.ctx (s.team team).ctx).plerr = true ∧ (z.ctx (s.team team).ctx).signals.getLsbD 3 = true ∧
    z.groups = s.groups ∧ StoreKept s z := by
  have herr : placeErrors s [team] = s.setTeam team { s.team team with place := .placeErr r } := by simp only [placeErrors, hplace]
  refine ⟨_, exec_teamRestore hplace hdeals hruns cores, ?_⟩
  rw [if_pos hnone, savedCrew_alone hplace hcrew, herr]
  refine ⟨?_, ?_, ?_, rfl, rfl, rfl, rfl⟩
  · rw [signal, team_setCtx, team_setCtx, team_setTeam_same]
  · rw [signal, ctx_setCtx_same, ctx_setCtx_same]
  · rw [signal, ctx_setCtx_same, BitVec.getLsbD_or]
    simp

end

theorem deals_backed {s : State} (h : s.deals = true) : wfield s.dev.rback 0 1 = 1 := by
  rw [State.deals, Bool.and_eq_true, beq_iff_eq] at h
  exact h.2

/-- Settles O53: the swap by `swap_says` and `swapChoice_says`, places of a restore by `restorePlaces_some`, the return by `restoreTeam_returned` and
`restoreTeam_rows`, and answers by `plerrAck_answers`, since whether a core can ever hold a team does not change with where teams stand. -/
theorem swapRestoreAndPlace : Obligations.SwapRestoreAndPlace := by
  unfold Obligations.SwapRestoreAndPlace
  refine ⟨fun s core t r rest hlive hteam hstall hchoice hcore hplace hcrew hfree hroom hrest =>
      swap_says hlive hteam hstall hchoice hcore hplace hcrew hfree hroom hrest, fun s team r _ hplace hdeals hruns hcrew => ?_,
    fun s c hready => ?_, fun s c hfatal => ?_, fun s core => ?_, fun s team cores hcores => ?_⟩
  · intro x c
    refine ⟨fun k hsome hcores _ hpick _ => ?_, fun cores hnone => exec_teamRestore_nowhere hplace hdeals hruns hcrew hnone cores,
      fun cores hsome hpick => exec_teamRestore_unpicked hplace hdeals hruns hsome hpick cores⟩
    have hback := restoreTeam_returned s team k
    obtain ⟨_, _, _, _, _, hteam⟩ := hback.team
    refine ⟨_, exec_teamRestore_picked hplace hdeals hruns hcrew hsome hcores hpick, ?_, ?_, ?_, ?_, ?_, ?_,
      fun g hg => ⟨hback.cores g hg, (hback.group g).vbound⟩, allRegsKept_of_relocated hback.group, hback.writes, hback.rels,
      fun g hg hmine hend hbound hk hplain hwf => restoreTeam_rows hg hmine hend hbound hk (deals_backed hdeals) hplain hwf⟩
    all_goals rw [hteam]
  · obtain ⟨hclear, hplaces⟩ := plerrAck_answers hready c
    exact ⟨_, rfl, hclear, hplaces⟩
  · exact congrArg _ (plerrAck_fatal hfatal c)
  · intro candidate lseq before_
    obtain ⟨hsome, hnone⟩ := swapChoice_says s core
    refine ⟨fun t ht => ?_, hnone⟩
    obtain ⟨hcand, hbest⟩ := hsome t ht
    exact ⟨hcand, fun u hu hbefore => hbest u hu (swapBefore_iff.2 hbefore)⟩
  · intro part fits
    obtain ⟨cl, hpart, hplace, hfirst⟩ := restorePlaces_some hcores
    obtain ⟨more, hmore, hlen, hfind⟩ := crewPlace_some hplace
    obtain rfl : cores = more := hmore
    refine ⟨cl, hpart, hfirst, hlen, fun i k u hk hu => ?_⟩
    obtain ⟨hcl, hfits, hlower⟩ := find_coresOf (hfind i k u hk hu)
    exact ⟨hcl, mayReturn_iff.1 hfits, fun j hj hjk hfit => Bool.false_ne_true ((hlower j hj hjk).symm.trans (mayReturn_iff.2 hfit))⟩

end Sys2Proof.PlaceEvents
end

section
/-! PROOFS. What the end of an instruction leaves (R107, R154), whatever its effect was, and how the frames of an issue go through it. -/

namespace Sys2Proof.InstructionEnd

open Machine Laws Safety

-- Writes of one entry of a table ------------------------------------------------------------------------------------------------------

theorem setAt_setAt {α : Type} (d a b : α) : ∀ (l : List α) (n : Nat), setAt d (setAt d l n a) n b = setAt d l n b
  | [], 0 => rfl
  | [], n + 1 => congrArg (d :: ·) (setAt_setAt d a b [] n)
  | _ :: _, 0 => rfl
  | c :: l, n + 1 => congrArg (c :: ·) (setAt_setAt d a b l n)

@[simp] theorem setGroup_setGroup (s : State) (g : Nat) (x y : Group) : (s.setGroup g x).setGroup g y = s.setGroup g y := by
  simp only [State.setGroup, setAt_setAt]

theorem length_setGroup {s : State} {g : Nat} (h : g < s.groups.length) (x : Group) : (s.setGroup g x).groups.length = s.groups.length :=
  length_setAt _ _ _ _ h

theorem lt_length_setAt {α : Type} (d b : α) : ∀ (l : List α) (n : Nat), n < (setAt d l n b).length
  | [], 0 => Nat.zero_lt_one
  | [], n + 1 => Nat.succ_lt_succ (lt_length_setAt d b [] n)
  | _ :: _, 0 => Nat.zero_lt_succ _
  | _ :: l, n + 1 => Nat.succ_lt_succ (lt_length_setAt d b l n)

theorem groupsKept_setGroup {s : State} {g : Nat} (h : g < s.groups.length) (x : Group) : GroupsKept s (s.setGroup g x) g :=
  ⟨length_setGroup h x, fun _ hk => group_setGroup_other _ _ _ _ hk⟩

theorem groupsKept_trans {s t u : State} {g : Nat} (h1 : GroupsKept s t g) (h2 : GroupsKept t u g) : GroupsKept s u g :=
  ⟨h2.1.trans h1.1, fun k hk => (h2.2 k hk).trans (h1.2 k hk)⟩

theorem groupsKept_lt {s t : State} {g : Nat} (h : GroupsKept s t g) (hg : g < s.groups.length) : g < t.groups.length := h.1 ▸ hg

-- Registers and lanes -------------------------------------------------------------------------------------------------------------------

theorem regsKept_of_eq {x y : Group} (h : y.v = x.v ∧ y.s = x.s ∧ y.p = x.p ∧ y.j = x.j ∧ y.flags = x.flags) : RegsKept x y := by
  obtain ⟨hv, hs, hp, hj, hflags⟩ := h
  exact ⟨fun n l _ => vcell_congr hv n l, sreg_congr hs, pred_congr hp, fun n => by rw [hj], hflags⟩

/-- Release keeps every register. -/
theorem regsKept_released {x z y : Group} (h : z.v = x.v ∧ z.s = x.s ∧ z.p = x.p ∧ z.j = x.j ∧ z.flags = x.flags) (hr : Laws.Released z y) :
    RegsKept x y := by
  obtain ⟨hv, hs, hp, hj, hflags⟩ := released_regs hr
  obtain ⟨zv, zs, zp, zj, zflags⟩ := h
  exact regsKept_of_eq ⟨hv.trans zv, hs.trans zs, hp.trans zp, hj.trans zj, hflags.trans zflags⟩

/-- Release keeps the place of a group. -/
theorem placeKept_released {x z y : Group} (h : PlaceKept x z) (hr : Laws.Released z y) : PlaceKept x y := by
  rw [hr.1]
  exact { h with }

theorem placeKept_issued (s : State) (i : Instr) (is : Iss) : PlaceKept (s.group is.g) ((issued s i is).group is.g) := by
  rw [issued_group]
  constructor <;> rfl

theorem issued_vbad (s : State) (i : Instr) (is : Iss) : ((issued s i is).group is.g).vbad = (s.group is.g).vbad := by
  rw [issued_group]
  rfl

/-- Lanes that have moved on stay so through release. -/
theorem advanced_released {s : State} {i : Instr} {is : Iss} (h : Ready s i is) {z y : Group}
    (hz : z.lanes = ((s.group is.g).advance is.at_ is.a is.len).lanes) (hr : Laws.Released z y) : Advanced (s.group is.g) y is := by
  obtain ⟨-, hlen, hlane⟩ := hr
  have hw : Laws.Released ((s.group is.g).advance is.at_ is.a is.len)
      { (s.group is.g).advance is.at_ is.a is.len with lanes := y.lanes } := by
    refine ⟨rfl, hlen.trans (congrArg _ hz), fun l => ?_⟩
    have e : z.lane l = ((s.group is.g).advance is.at_ is.a is.len).lane l := by simp only [Group.lane, hz]
    have hl := hlane l
    rw [e] at hl
    exact hl
  exact (released_advanced h rfl hw :)

theorem ready_lt {s : State} {i : Instr} {is : Iss} (h : Ready s i is) : is.g < s.groups.length := h.isGroup ▸ h.exists_

/-- An effect that keeps the lanes keeps which are live. -/
theorem live_congr {x y : Group} (h : y.lanes = x.lanes) : y.live = x.live := by
  simp only [Group.live, Group.lane, h]

-- The rows in the backing region ----------------------------------------------------------------------------------------------------------

/-- A byte of backing rows stays one over a change of what has no part in where the rows lie, of a bound within 256 registers too. -/
theorem backByte_mono {s t : State} {g a : Nat} (hrback : t.dev.rback = s.dev.rback) (hhome : homeAddr t.dev = homeAddr s.dev)
    (hcore : (t.group g).core = (s.group g).core) (hslot : (t.group g).slot = (s.group g).slot)
    (hbound : (t.group g).vbound ≤ 256 ∨ (t.group g).vbound ≤ (s.group g).vbound) (h : BackByte t g a) : BackByte s g a := by
  obtain ⟨hon, v, hv, hlo, hhi⟩ := h
  rw [hrback] at hon hlo hhi
  rw [hhome, hcore, hslot] at hlo hhi
  exact ⟨hon, v, by omega, hlo, hhi⟩

-- The end of an instruction -----------------------------------------------------------------------------------------------------------------

/-- What the end of an instruction of group g makes of the state that its effect left: release frees parked lanes, backing rows are
written, and marks of sectors that they fill go. -/
structure Ended (s t : State) (g : Nat) : Prop where
  frame : ∃ m p gs, t = { s with mem := m, poison := p, groups := gs }
  group : Laws.Released (s.group g) (t.group g)
  rest  : GroupsKept s t g
  marks : (∀ n ∈ t.poison, n ∈ s.poison) ∧ ∀ n ∈ s.poison, n ∈ t.poison ∨ ∀ a, 32 * n ≤ a → a < 32 * n + 32 → BackByte s g a
  bytes : Memory.wf s.mem = true → Memory.wf t.mem = true ∧ ∀ a, ¬ BackByte s g a → memGet t.mem a = memGet s.mem a

theorem ended_post {s : State} {g : Nat} (hlive : (s.group g).live ≠ 0) (hjoin : (s.group g).badJoin = none) (hg : g < s.groups.length) :
    Ended s (post s g) g := by
  have hrel := release_released (s.group g)
  have hback : ∀ a, BackByte (s.setGroup g (s.group g).release) g a → BackByte s g a := fun a ha => by
    have e := hrel.1
    have hsame : ((s.setGroup g (s.group g).release).group g).core = (s.group g).core ∧
        ((s.setGroup g (s.group g).release).group g).slot = (s.group g).slot ∧
        ((s.setGroup g (s.group g).release).group g).vbound = (s.group g).vbound := by
      rw [group_setGroup_same, e]
      exact ⟨rfl, rfl, rfl⟩
    exact backByte_mono (t := s.setGroup g (s.group g).release) rfl rfl hsame.1 hsame.2.1 (.inr hsame.2.2.le) ha
  obtain ⟨m, p, hm, hmarks, hkept⟩ := backRows_fields (s.setGroup g (s.group g).release) g
  rw [post_live hlive hjoin]
  refine ⟨⟨m, p, _, hm⟩, ?_, ?_, ?_, fun hwf => ?_⟩
  · rw [hm]
    show Laws.Released _ ((s.setGroup g (s.group g).release).group g)
    rwa [group_setGroup_same]
  · rw [hm]
    exact groupsKept_setGroup hg _
  · rw [hm]
    exact ⟨hmarks, fun n hn => (hkept n hn).imp id fun h a ha hb => hback a (h a ha hb)⟩
  · obtain ⟨h1, h2⟩ := backRows_mem (s := s.setGroup g (s.group g).release) g hwf
    exact ⟨h1, fun a ha => h2 a fun hb => ha (hback a hb)⟩

/-- The effect of an instruction on the registers of its group, from whatever state, ends as any instruction does. -/
theorem regBody_eq (f : Iss → Group → Group) (is : Iss) (s : State) :
    regBody f is s = post (s.setGroup is.g ((f is (s.group is.g)).advance is.at_ is.a is.len)) is.g := rfl

-- Frames --------------------------------------------------------------------------------------------------------------------------------------

/-- A state on the way from the issue of an instruction of group g: only that group, the trace unit's part and the counts of issues differ. -/
structure Underway (s t : State) (g : Nat) : Prop where
  machine : MachineKept s t g
  groups  : GroupsKept s t g
  wf      : Memory.wf t.mem = true
  mem     : MemKept s t g

theorem underway_issued {s : State} {i : Instr} {is : Iss} (h : Ready s i is) (hw : Memory.wf s.mem = true) : Underway s (issued s i is) is.g := by
  obtain ⟨hwrites, hrels, hdev, hctxs, hlaunches, hclusters, hpegs, hcolls, hgateQ, hhostView, hpeerView, hagenda, hcur, hchoices, hclock⟩ :=
    issued_fields s i is
  obtain ⟨hless, hmore⟩ := issued_marks s i is
  obtain ⟨hwf, hmem⟩ := issued_mem i is hw
  exact {
    machine := ⟨hwrites, hrels, ⟨hless, fun n hn => (hmore n hn).imp id fun h a ha hb => .inl (h a ha hb)⟩, hdev, hctxs, hlaunches,
      ⟨issued_teams_length s i is, issued_team s i is⟩, issued_core s i is, hclusters, hpegs, hcolls, hgateQ, hhostView, hpeerView, hagenda,
      hcur, hchoices, hclock⟩
    groups := issued_groups s i is (ready_lt h)
    wf := hwf
    mem := fun a ha => hmem a fun ht => ha (.inl ht) }

theorem underway_entered {s : State} {i : Instr} {f : Full} {is : Iss} (h : Ready s i is) (hw : Memory.wf s.mem = true) :
    Underway s (entered s i f is) is.g := by
  obtain ⟨hmachine, hgroups, hwf, hmem⟩ := entered_kept (f := f) h hw
  exact ⟨hmachine, hgroups, hwf, fun a ha => hmem a fun ht => ha (.inl ht)⟩

theorem Underway.setGroup {s t : State} {g : Nat} (h : Underway s t g) (hg : g < s.groups.length) (x : Group) :
    Underway s (t.setGroup g x) g where
  machine := { h.machine with }
  groups := groupsKept_trans h.groups (groupsKept_setGroup (groupsKept_lt h.groups hg) x)
  wf := h.wf
  mem := h.mem

/-- The devices of two states on the way place memory alike. -/
theorem devSame_home {s t : State} (h : DevSame s t) : t.dev.rback = s.dev.rback ∧ homeAddr t.dev = homeAddr s.dev ∧ t.dev.trace = s.dev.trace := by
  obtain ⟨n, k, m, e⟩ := h
  rw [e]
  exact ⟨rfl, rfl, rfl⟩

theorem traceByte_congr {s t : State} (h : DevSame s t) (a : Nat) : TraceByte t a ↔ TraceByte s a := by
  obtain ⟨-, hhome, htrace⟩ := devSame_home h
  simp only [TraceByte, hhome, htrace]

/-- Backing rows of a state on the way, in a group that has not moved and whose bound has not passed 256 registers. -/
theorem Underway.backByte {s t : State} {g : Nat} (h : Underway s t g) (hcore : (t.group g).core = (s.group g).core)
    (hslot : (t.group g).slot = (s.group g).slot) (hbound : (t.group g).vbound ≤ 256 ∨ (t.group g).vbound ≤ (s.group g).vbound) (a : Nat)
    (ha : BackByte t g a) : BackByte s g a := by
  obtain ⟨hrback, hhome, -⟩ := devSame_home h.machine.dev
  exact backByte_mono hrback hhome hcore hslot hbound ha

theorem marksKept_ended {s t u : State} {g : Nat} (h : MarksKept s t g) (he : Ended t u g) (hb : ∀ a, BackByte t g a → BackByte s g a) :
    MarksKept s u g :=
  ⟨fun n hn => h.1 n (he.marks.1 n hn), fun n hn => (h.2 n hn).elim
    (fun ht => (he.marks.2 n ht).imp id fun hall a h1 h2 => .inr (hb a (hall a h1 h2))) .inr⟩

theorem memKept_ended {s t u : State} {g : Nat} (h : MemKept s t g) (hw : Memory.wf t.mem = true) (he : Ended t u g)
    (hb : ∀ a, BackByte t g a → BackByte s g a) : MemKept s u g :=
  fun a ha => ((he.bytes hw).2 a fun h => ha (.inr (hb a h))).trans (h a ha)

/-- Backing rows switched off are not written. -/
theorem backRows_off {s : State} (h : wfield s.dev.rback 0 1 = 0) (g : Nat) : backRows s g = s := if_pos (by simp [h])

/-- The end of an instruction keeps the frame. -/
theorem Underway.ended {s t u : State} {g : Nat} (h : Underway s t g) (he : Ended t u g) (hb : ∀ a, BackByte t g a → BackByte s g a) :
    Underway s u g where
  machine := by
    have hmarks := marksKept_ended h.machine.poison he hb
    obtain ⟨m, p, gs, rfl⟩ := he.frame
    exact { h.machine with poison := hmarks }
  groups := groupsKept_trans h.groups he.rest
  wf := (he.bytes h.wf).1
  mem := memKept_ended h.mem h.wf he hb

/-- The same where the instruction's effect moved groups and drew from the choices. -/
theorem Underway.endedElsewhere {s t u : State} {g : Nat} {gs : List Group} {cs : List Nat} (h : Underway s t g)
    (he : Ended { t with groups := gs, choices := cs } u g) (hb : ∀ a, BackByte { t with groups := gs, choices := cs } g a → BackByte s g a) :
    MachineKept s { u with choices := s.choices } g ∧ MemKept s u g := by
  refine ⟨?_, memKept_ended (t := { t with groups := gs, choices := cs }) h.mem h.wf he hb⟩
  have hmarks := marksKept_ended (t := { t with groups := gs, choices := cs }) h.machine.poison he hb
  obtain ⟨m, p, gs', rfl⟩ := he.frame
  exact { h.machine with poison := hmarks, choices := rfl }

/-- The same where the instruction's effect changed registers of the device that place no memory. -/
theorem Underway.endedApart {s t u : State} {g : Nat} {gs : List Group} {d : Dev} (h : Underway s t g)
    (he : Ended { t with groups := gs, dev := d } u g) (hb : ∀ a, BackByte { t with groups := gs, dev := d } g a → BackByte s g a) :
    MachineKept s { u with dev := s.dev } g ∧ MemKept s u g := by
  refine ⟨?_, memKept_ended (t := { t with groups := gs, dev := d }) h.mem h.wf he hb⟩
  have hmarks := marksKept_ended (t := { t with groups := gs, dev := d }) h.machine.poison he hb
  obtain ⟨m, p, gs', rfl⟩ := he.frame
  exact { h.machine with poison := hmarks, dev := ⟨_, _, _, rfl⟩ }

/-- A state with other cores and teams. -/
def retooled (s : State) (cs : List Core) (ts : List Team) : State := { s with cores := cs, teams := ts }

/-- The same where the instruction's effect changed cores and teams. -/
theorem Underway.endedTooled {s t u : State} {g : Nat} {cs : List Core} {ts : List Team} {y : Group} (h : Underway s t g)
    (he : Ended ((retooled t cs ts).setGroup g y) u g) (hg : g < s.groups.length) (hcore : y.core = (s.group g).core)
    (hslot : y.slot = (s.group g).slot) (hbound : y.vbound ≤ (s.group g).vbound) :
    u.cores = cs ∧ u.teams = ts ∧ u.writes = s.writes ∧ GroupsKept s u g ∧ MemKept s u g := by
  obtain ⟨hrback, hhome, -⟩ := devSame_home h.machine.dev
  have hback : ∀ a, BackByte ((retooled t cs ts).setGroup g y) g a → BackByte s g a := fun a hb => by
    refine backByte_mono (t := (retooled t cs ts).setGroup g y) hrback hhome ?_ ?_ (.inr ?_) hb <;> rw [group_setGroup_same]
    · exact hcore
    · exact hslot
    · exact hbound
  obtain ⟨m, p, gs, hframe⟩ := he.frame
  exact ⟨congrArg State.cores hframe, congrArg State.teams hframe, (congrArg State.writes hframe).trans h.machine.writes,
    groupsKept_trans (groupsKept_trans h.groups (groupsKept_setGroup (s := retooled t cs ts) (groupsKept_lt h.groups hg) y)) he.rest,
    memKept_ended (t := (retooled t cs ts).setGroup g y) (fun a ha => h.mem a ha) h.wf he hback⟩

/-- A trace record keeps the frame (R383). -/
theorem Underway.traceGroup {s t : State} {g : Nat} (h : Underway s t g) (kind k : Nat) (lanes : Mask) (data : Nat) :
    Underway s (traceGroup t kind k lanes data) g where
  machine := by
    obtain ⟨hless, hmore⟩ := trace_marks t kind (t.team (t.group k).team) (t.group k).core (t.group k).slot lanes data
    obtain ⟨n, m, r, e⟩ := h.machine.dev
    obtain ⟨n', m', r', e'⟩ := trace_dev t kind (t.team (t.group k).team) (t.group k).core (t.group k).slot lanes data
    exact {
      writes := (traceGroup_writes ..).trans h.machine.writes
      rels := (traceGroup_rels ..).trans h.machine.rels
      poison := ⟨fun n hn => h.machine.poison.1 n (hless n hn), fun n hn => (h.machine.poison.2 n hn).elim
        (fun ht => (hmore n ht).imp id fun hall a h1 h2 => .inl ((traceByte_congr h.machine.dev a).1 (hall a h1 h2))) .inr⟩
      dev := ⟨n', m', r', by rw [Machine.traceGroup, e', e]⟩
      ctxs := (traceGroup_ctxs ..).trans h.machine.ctxs
      launches := (traceGroup_launches ..).trans h.machine.launches
      teams := by
        rw [traceGroup_teams]
        exact ⟨h.machine.teams.1, fun k => by rw [traceGroup_team_at]; exact h.machine.teams.2 k⟩
      cores := fun k => by rw [traceGroup_core_at]; exact h.machine.cores k
      clusters := (traceGroup_clusters ..).trans h.machine.clusters
      pegs := (traceGroup_pegs ..).trans h.machine.pegs
      colls := (traceGroup_colls ..).trans h.machine.colls
      gateQ := (traceGroup_gateQ ..).trans h.machine.gateQ
      hostView := (traceGroup_hostView ..).trans h.machine.hostView
      peerView := (traceGroup_peerView ..).trans h.machine.peerView
      agenda := (traceGroup_agenda ..).trans h.machine.agenda
      cur := (traceGroup_cur ..).trans h.machine.cur
      choices := (traceGroup_choices ..).trans h.machine.choices
      clock := (traceGroup_clock ..).trans h.machine.clock }
  groups := by
    refine ⟨by rw [traceGroup_groups]; exact h.groups.1, fun k hk => ?_⟩
    rw [traceGroup_group_at]
    exact h.groups.2 k hk
  wf := trace_mem_wf h.wf _ _ _ _ _ _
  mem := fun a ha => (trace_mem h.wf _ _ _ _ _ _ a fun ht => ha (.inl ((traceByte_congr h.machine.dev a).1 ht))).trans (h.mem a ha)

/-- A ready group whose lanes have moved on lives on, and release can read its join registers. -/
theorem going_of_ready {s : State} {i : Instr} {is : Iss} (h : Ready s i is) (ha : is.act ≠ 0) {y : Group}
    (hlanes : y.lanes = ((s.group is.g).advance is.at_ is.a is.len).lanes) (hbad : ∀ r ∈ y.vbad, r ∈ (s.group is.g).vbad) :
    y.live ≠ 0 ∧ y.badJoin = none := by
  have hjoin := h.joins
  rw [← h.isGroup] at hjoin
  refine ⟨?_, badJoin_mono hlanes hbad (badJoin_advance _ _ _ hjoin)⟩
  rw [live_congr hlanes, live_advance, h.isGroup]
  exact ready_live h ha

/-- An instruction of a ready group that leaves it with its lanes moved on ends as any instruction does. -/
theorem ended_of_ready {s : State} {i : Instr} {is : Iss} (h : Ready s i is) (ha : is.act ≠ 0) (t : State) {y : Group}
    (hlanes : y.lanes = ((s.group is.g).advance is.at_ is.a is.len).lanes) (hbad : ∀ r ∈ y.vbad, r ∈ (s.group is.g).vbad) :
    Ended (t.setGroup is.g y) (post (t.setGroup is.g y) is.g) is.g := by
  obtain ⟨hlive, hjoin⟩ := going_of_ready h ha hlanes hbad
  exact ended_post (by rwa [group_setGroup_same]) (by rwa [group_setGroup_same]) (lt_length_setAt _ _ _ _)

theorem advance_lanes_congr {x y : Group} (h : y.lanes = x.lanes) (m : Mask) (a len : Nat) : (y.advance m a len).lanes = (x.advance m a len).lanes := by
  simp only [Group.advance, Group.mapLanes, Group.lane, h]
  rfl

/-- A register effect on the way: the group is what the effect made of it, its lanes moved on, and the frame is kept. -/
theorem regBody_underway {s t : State} {i : Instr} {is : Iss} (f : Iss → Group → Group) (h : Ready s i is) (ha : is.act ≠ 0)
    (hu : Underway s t is.g) (hlanes : (f is (t.group is.g)).lanes = (s.group is.g).lanes)
    (hbad : ∀ r ∈ (f is (t.group is.g)).vbad, r ∈ (s.group is.g).vbad) (hcore : (f is (t.group is.g)).core = (s.group is.g).core)
    (hslot : (f is (t.group is.g)).slot = (s.group is.g).slot)
    (hbound : (f is (t.group is.g)).vbound ≤ 256 ∨ (f is (t.group is.g)).vbound ≤ (s.group is.g).vbound) :
    Laws.Released ((f is (t.group is.g)).advance is.at_ is.a is.len) ((regBody f is t).group is.g) ∧ Underway s (regBody f is t) is.g := by
  have hend := ended_of_ready h ha t (y := (f is (t.group is.g)).advance is.at_ is.a is.len) (advance_lanes_congr hlanes _ _ _) hbad
  have hmoved := hu.setGroup (ready_lt h) ((f is (t.group is.g)).advance is.at_ is.a is.len)
  have hgroup := hend.group
  rw [group_setGroup_same] at hgroup
  exact ⟨hgroup, hmoved.ended hend (hmoved.backByte (by rw [group_setGroup_same]; exact hcore) (by rw [group_setGroup_same]; exact hslot)
    (by rw [group_setGroup_same]; exact hbound))⟩

/-- An effect that keeps registers, place and lanes leaves the instruction quiet. -/
theorem quiet_regBody {s t : State} {i : Instr} {is : Iss} (f : Iss → Group → Group) (h : Ready s i is) (ha : is.act ≠ 0)
    (hu : Underway s t is.g) (hlanes : (f is (t.group is.g)).lanes = (s.group is.g).lanes)
    (hbad : ∀ r ∈ (f is (t.group is.g)).vbad, r ∈ (s.group is.g).vbad) (hplace : PlaceKept (s.group is.g) (f is (t.group is.g)))
    (hregs : (f is (t.group is.g)).v = (s.group is.g).v ∧ (f is (t.group is.g)).s = (s.group is.g).s ∧
      (f is (t.group is.g)).p = (s.group is.g).p ∧ (f is (t.group is.g)).j = (s.group is.g).j ∧
      (f is (t.group is.g)).flags = (s.group is.g).flags) : Quiet s (regBody f is t) is := by
  obtain ⟨hgroup, hframe⟩ := regBody_underway f h ha hu hlanes hbad hplace.core hplace.slot (.inr hplace.vbound.le)
  have hplace' : PlaceKept (s.group is.g) ((f is (t.group is.g)).advance is.at_ is.a is.len) := { hplace with }
  exact ⟨regsKept_released (z := (f is (t.group is.g)).advance is.at_ is.a is.len) hregs hgroup, advanced_released h (advance_lanes_congr hlanes _ _ _) hgroup, placeKept_released hplace' hgroup,
    hframe.groups, hframe.machine, hframe.mem⟩

-- What is read off a ready instruction ------------------------------------------------------------------------------------------------------

theorem exec_ready {s : State} {i : Instr} {is : Iss} {body : Iss → State → State} (hrow : ∀ s, exec i s = issue i body s) (h : Ready s i is)
    (ha : is.act ≠ 0) : exec i s = .next (body is (issued s i is)) := by
  rw [hrow, issue_ready _ h, if_neg ha]

theorem ill_of_ready {s : State} {i : Instr} {is : Iss} (h : Ready s i is) : Instr.ill i = none := by
  have hclear := h.clear
  rw [precheck] at hclear
  split at hclear
  · cases hclear
  · rename_i hn
    simp only [Bool.or_eq_true, not_or, Bool.not_eq_true, Option.isSome_eq_false_iff, Option.isNone_iff_eq_none] at hn
    exact hn.1

theorem firstIll_none : ∀ l : List (Bool × Ill), firstIll l = none ↔ ∀ p ∈ l, p.1 = true
  | [] => by simp [firstIll]
  | (ok, why) :: l => by
    cases ok
    · simp [firstIll]
    · simp [firstIll, firstIll_none l]

/-- A legal instruction of layout F has the fields and the operands that its row asks for (R134). -/
theorem illFull_none {op : Nat} {f : Full} (h : illFull op f = none) : (rowOf op f).xm = true ∧ (rowOf op f).ops = true := by
  rw [illFull, firstIll_none] at h
  simp only [List.forall_mem_cons, Bool.and_eq_true] at h
  obtain ⟨-, -, -, -, ⟨hxm, -⟩, -, ⟨hops, -⟩, -⟩ := h
  exact ⟨hxm, hops⟩

end Sys2Proof.InstructionEnd
end

section
/-! PROOFS. O52: runs of physical rows (R104, R111), what a grow finds (R109), and the events that meet grows and promote groups (R109, R112). -/

namespace Sys2Proof.RegisterRows

open Machine Laws Safety InstructionEnd TeamReturn

-- Runs of rows -------------------------------------------------------------------------------------------------------------------------

/-- Which rows a core uses follows from its slots and from the bases and lengths of runs. -/
theorem rowsUsed_congr {s t : State} {core : Nat} (hslots : (t.core core).groups = (s.core core).groups)
    (hrows : ∀ g, (t.group g).vbase = (s.group g).vbase ∧ (t.group g).vres = (s.group g).vres) : rowsUsed t core = rowsUsed s core := by
  have heach : ∀ g, ((t.group g).vbase, (t.group g).vres) = ((s.group g).vbase, (s.group g).vres) := fun g => Prod.ext (hrows g).1 (hrows g).2
  simp only [rowsUsed, Core.held, hslots, heach]

theorem pickRun_isSome {s : State} {core n : Nat} (hn : n ≤ 1024) :
    (pickRun s core n).isSome = true ↔ ∃ b, b + n ≤ 1024 ∧ runFree (rowsUsed s core) b n = true := by
  have hfree : (List.range (coreRows + 1 - n)).filter (fun b => runFree (rowsUsed s core) b n) ≠ [] ↔
      ∃ b, b + n ≤ 1024 ∧ runFree (rowsUsed s core) b n = true := by
    simp only [ne_eq, List.filter_eq_nil_iff, List.mem_range, coreRows, not_forall, not_not]
    exact exists_congr fun b => ⟨fun ⟨h1, h2⟩ => ⟨by omega, h2⟩, fun ⟨h1, h2⟩ => ⟨by omega, h2⟩⟩
  rw [← hfree, pickRun]
  split
  · rename_i h
    simp [List.isEmpty_iff.1 h]
  · rename_i h
    simpa using h

/-- After a compaction every run of the core ends below the number of rows in use (R111). -/
theorem foldl_moveDown_below : ∀ (l : List Nat) (p : State × Nat), (l.foldl moveDown p).2 = p.2 + (l.map fun g => (p.1.group g).vres).sum ∧
    ∀ g, (g ∈ l ∨ (p.1.group g).vbase + (p.1.group g).vres ≤ p.2) →
      ((l.foldl moveDown p).1.group g).vbase + ((l.foldl moveDown p).1.group g).vres ≤ (l.foldl moveDown p).2
  | [], p => ⟨rfl, fun g hg => hg.resolve_left List.not_mem_nil⟩
  | h :: l, p => by
    have hres : ∀ g, ((moveDown p h).1.group g).vres = (p.1.group g).vres := fun g => by
      by_cases hg : g = h
      · rw [hg, moveDown, group_setGroup_same]
      · rw [moveDown, group_setGroup_other _ _ _ _ hg]
    obtain ⟨hend, hbelow⟩ := foldl_moveDown_below l (moveDown p h)
    refine ⟨?_, fun g hg => hbelow g ?_⟩
    · rw [List.foldl_cons, hend, List.map_cons, List.sum_cons]
      simp only [hres]
      exact Nat.add_assoc _ _ _
    · by_cases hgh : g = h
      · right
        rw [hgh, moveDown, group_setGroup_same]
      · refine (hg.imp_left fun hm => (List.mem_cons.1 hm).resolve_left hgh).imp_right fun hle => ?_
        rw [moveDown, group_setGroup_other _ _ _ _ hgh]
        exact hle.trans (Nat.le_add_right _ _)

/-- After a compaction the rows above those in use are one free run (R111). -/
theorem runFree_compact {s : State} {core n : Nat} (h : n + ((rowsUsed s core).map (·.2)).sum ≤ 1024) :
    runFree (rowsUsed (compact s core) core) ((rowsUsed s core).map (·.2)).sum n = true := by
  have hsum : ((rowsUsed s core).map (·.2)).sum = 0 + ((s.core core).held.map fun g => (s.group g).vres).sum := by
    rw [rowsUsed, List.map_map, Nat.zero_add]
    rfl
  obtain ⟨hend, hbelow⟩ := foldl_moveDown_below (s.core core).held (s, 0)
  have hcore : (compact s core).core core = s.core core := by
    rw [State.core, (compacted_compact s core).frame]
    rfl
  have hcompact : compact s core = ((s.core core).held.foldl moveDown (s, 0)).1 := rfl
  simp only [runFree, Bool.and_eq_true, decide_eq_true_eq, List.all_eq_true, Bool.or_eq_true]
  refine ⟨by simp only [coreRows]; omega, fun run hrun => ?_⟩
  rw [rowsUsed, hcore] at hrun
  obtain ⟨g, hg, rfl⟩ := List.mem_map.1 hrun
  left; right
  rw [hsum, ← hend, hcompact]
  exact hbelow g (.inl hg)

/-- A run of n rows can be made exactly where some n rows in a row are free, or n rows in all (R109, R111). -/
theorem makeRun_isSome {s : State} {core n : Nat} (hn : 0 < n) (hn' : n ≤ 1024) : (makeRun s core n).isSome = true ↔
    (∃ b, b + n ≤ 1024 ∧ runFree (rowsUsed s core) b n = true) ∨ n + ((rowsUsed s core).map (·.2)).sum ≤ 1024 := by
  have hroom : n ≤ rowsFree s core ↔ n + ((rowsUsed s core).map (·.2)).sum ≤ 1024 := by
    simp only [rowsFree, coreRows]
    omega
  rw [← pickRun_isSome hn', makeRun]
  cases hpick : pickRun s core n with
  | some r => simp
  | none =>
    by_cases hle : n ≤ rowsFree s core
    · have hcompact : (pickRun (compact s core) core n).isSome = true :=
        (pickRun_isSome hn').2 ⟨_, by have := hroom.1 hle; omega, runFree_compact (hroom.1 hle)⟩
      simp [hle, hcompact, hroom.1 hle]
    · simp [hle, mt hroom.2 hle]

-- Grows (R109) ---------------------------------------------------------------------------------------------------------------------------

theorem getAt_take {α : Type} (d : α) : ∀ (l : List α) (n k : Nat), getAt d (l.take n) k = if k < n then getAt d l k else d
  | [], n, k => by rw [List.take_nil, getAt, ite_self]
  | _ :: _, 0, _ => rfl
  | _ :: _, n + 1, 0 => rfl
  | _ :: l, n + 1, k + 1 => by simpa only [List.take_succ_cons, getAt, Nat.add_lt_add_iff_right] using getAt_take d l n k

/-- The registers a bound keeps are as they were, and those beyond are zero. -/
theorem vcell_take {x y : Group} {n : Nat} (h : y.v = x.v.take n) (k l : Nat) (hl : l < 32) : vcell y k l = if k < n then vcell x k l else 0 := by
  rw [vcell_eq _ _ _ hl, vcell_eq _ _ _ hl, h, getAt_take]
  split <;> rfl

theorem bound_vbad (x : Group) (n : Nat) : ∀ r ∈ (x.bound n).vbad, r ∈ x.vbad := fun _ h => (List.mem_filter.1 h).1

variable {s : State} {g n : Nat}

theorem growNow_above (h : runFree (rowsUsed s (s.group g).core) ((s.group g).vbase + (s.group g).vres) (n - (s.group g).vres) = true) :
    growNow s g n = some (s.setGroup g { (s.group g).bound n with vres := n }) := if_pos h

theorem growNow_moved {u : State} {b : Nat}
    (h : runFree (rowsUsed s (s.group g).core) ((s.group g).vbase + (s.group g).vres) (n - (s.group g).vres) ≠ true)
    (hrun : makeRun s (s.group g).core n = some (u, b)) :
    growNow s g n = some (u.setGroup g { (u.group g).bound n with vbase := b, vres := n }) := by simp only [growNow, if_neg h, hrun]

theorem growNow_none (h : runFree (rowsUsed s (s.group g).core) ((s.group g).vbase + (s.group g).vres) (n - (s.group g).vres) ≠ true)
    (hrun : makeRun s (s.group g).core n = none) : growNow s g n = none := by simp only [growNow, if_neg h, hrun]

-- The end of a wait (R109) ---------------------------------------------------------------------------------------------------------------

/-- The group whose lanes at the issue address, where there is one, have moved past an instruction. -/
def passed (x : Group) (len : Nat) : Group :=
  { (match x.issueAddr with | none => x | some a => x.advance (x.lanesAt a) a len) with wait := .none }

theorem passed_issue {x : Group} {a : Nat} (h : x.issueAddr = some a) (len : Nat) :
    passed x len = { x.advance (x.lanesAt a) a len with wait := .none } := by rw [passed, h]

theorem passed_idle {x : Group} (h : x.issueAddr = none) (len : Nat) : passed x len = { x with wait := .none } := by rw [passed, h]

/-- A lane stands at the issue address. -/
theorem live_of_issueAddr {x : Group} {a : Nat} (h : x.issueAddr = some a) : x.live ≠ 0 := by
  rw [Group.issueAddr] at h
  cases hl : lanesOf x.running with
  | nil => rw [hl] at h; cases h
  | cons l _ =>
    obtain ⟨-, hrun⟩ := (mem_lanesOf _ l).1 (hl ▸ List.mem_cons_self)
    obtain ⟨h32, hlen, hx, -⟩ := running_lt hrun
    refine mask_ne_zero.2 ⟨l, h32, ?_⟩
    rw [Group.live, getLsbD_maskOf]
    simp [h32, hlen, hx]

theorem passed_fields (x : Group) (len : Nat) : ∃ l, passed x len = { x with lanes := l, wait := .none } := by
  cases h : x.issueAddr with
  | none => exact ⟨x.lanes, passed_idle h len⟩
  | some a => exact ⟨_, passed_issue h len⟩

/-- The issue address and the lanes there follow from the lanes. -/
theorem issue_congr {x y : Group} (h : y.lanes = x.lanes) : y.issueAddr = x.issueAddr ∧ ∀ a, y.lanesAt a = x.lanesAt a := by
  simp only [Group.issueAddr, Group.lanesAt, Group.running, Group.lane, h, implies_true, and_self]

theorem waitPassed_released {x z y : Group} {len : Nat} (hz : z.lanes = x.lanes) (hr : Laws.Released (passed z len) y) : WaitPassed x y len := by
  obtain ⟨hy, -, hlane⟩ := hr
  obtain ⟨haddr, hat⟩ := issue_congr hz
  have hlanes : ∀ l, z.lane l = x.lane l := fun l => by simp only [Group.lane, hz]
  obtain ⟨lanes, hp⟩ := passed_fields z len
  refine ⟨by rw [hy, hp], fun a ha l _ hlen => ?_⟩
  have hpass : (passed z len).lane l = (z.advance (x.lanesAt a) a len).lane l := by
    rw [passed_issue (haddr.trans ha), hat]
    rfl
  have hl := hlane l
  rw [hpass, lane_advance, hlanes, hz] at hl
  refine ⟨fun hin => ?_, fun hout hpark => ?_⟩
  · obtain ⟨-, -, hx, hp, hpc⟩ := (lanesAt_iff x a l).1 hin
    rw [if_pos ⟨hin, hx, hp, hpc, hlen⟩] at hl
    exact hl.resolve_right fun h => Bool.false_ne_true (hp.symm.trans h.1)
  · rw [if_neg fun h => Bool.false_ne_true (hout.symm.trans h.1)] at hl
    exact hl.resolve_right fun h => Bool.false_ne_true (hpark.symm.trans h.1)

theorem passHead_says {s : State} {g : Nat} (hg : g < s.groups.length) (hjoin : (s.group g).badJoin = none) (len : Nat) :
    Laws.Released (passed (s.group g) len) ((passHead s g len).group g) ∧ GroupsKept s (passHead s g len) g ∧
    (passHead s g len).writes = s.writes ∧ (passHead s g len).cores = s.cores := by
  cases ha : (s.group g).issueAddr with
  | none =>
    have hpass : passHead s g len = s.setGroup g { s.group g with wait := .none } := by rw [passHead]; simp only [ha]
    rw [hpass, passed_idle ha, group_setGroup_same]
    exact ⟨.rfl _, groupsKept_setGroup hg _, rfl, rfl⟩
  | some a =>
    have hpass : passHead s g len = post (s.setGroup g (passed (s.group g) len)) g := by
      rw [passed_issue ha, passHead]
      simp only [ha]
    obtain ⟨lanes, hfields⟩ := passed_fields (s.group g) len
    have hlive : (passed (s.group g) len).live ≠ 0 := by
      have hsame : (passed (s.group g) len).live = (s.group g).live :=
        (live_congr (by rw [passed_issue ha])).trans (live_advance (s.group g) ((s.group g).lanesAt a) a len)
      rw [hsame]
      exact live_of_issueAddr ha
    have hsound : (passed (s.group g) len).badJoin = none := by
      rw [passed_issue ha]
      exact badJoin_mono (x := (s.group g).advance ((s.group g).lanesAt a) a len) rfl (fun _ h => h) (badJoin_advance _ _ _ hjoin)
    have hend : Ended (s.setGroup g (passed (s.group g) len)) (passHead s g len) g := by
      rw [hpass]
      exact ended_post (by rwa [group_setGroup_same]) (by rwa [group_setGroup_same]) ((length_setGroup hg _).symm ▸ hg)
    have hgroup := hend.group
    rw [group_setGroup_same] at hgroup
    obtain ⟨m, p, gs, hframe⟩ := hend.frame
    exact ⟨hgroup, groupsKept_trans (groupsKept_setGroup hg _) hend.rest, by rw [hframe]; rfl, by rw [hframe]; rfl⟩

-- Grows that end (R109) --------------------------------------------------------------------------------------------------------------------

/-- A grow that is met ends: its lanes move on, it leaves the core's list, and of the registers only those gained change. -/
theorem endGrow_says {s : State} {g n len base res : Nat} {x : Group} (hg : g < s.groups.length) (hjoin : x.badJoin = none) :
    let t := endGrow (s.setGroup g { x.bound n with vbase := base, vres := res }) g len
    (t.group g).vbound = n ∧ (t.group g).vres = res ∧ (t.group g).vbase = base ∧ WaitPassed x (t.group g) len ∧
    (RegsKept x { t.group g with v := x.v } ∧ ∀ k l, l < 32 → vcell (t.group g) k l = if k < x.vbound then vcell x k l else 0) ∧
    (t.core x.core).grows = (s.core x.core).grows.filter (· != g) ∧ GroupsKept s t g ∧ t.writes = s.writes := by
  intro t
  let y : Group := { x.bound n with vbase := base, vres := res }
  have hcore : y.core = x.core := rfl
  let u := (s.setGroup g y).setCore x.core { s.core x.core with grows := (s.core x.core).grows.filter (· != g) }
  have ht : t = passHead u g len := by
    show endGrow (s.setGroup g y) g len = _
    rw [endGrow, group_setGroup_same]
    rfl
  have hu : u.group g = y := group_setGroup_same _ _ _
  have hsound : (u.group g).badJoin = none := by
    rw [hu]
    exact badJoin_mono (x := x) rfl (bound_vbad x n) hjoin
  obtain ⟨hgroup, hrest, hwrites, hcores⟩ := passHead_says (s := u) (g := g) ((length_setGroup hg y).symm ▸ hg) hsound len
  rw [← ht] at hgroup hrest hwrites hcores
  rw [hu] at hgroup
  obtain ⟨lanes, hfields⟩ := passed_fields y len
  have htg := hgroup.1
  rw [hfields] at htg
  refine ⟨by rw [htg]; rfl, by rw [htg], by rw [htg], waitPassed_released (z := y) rfl hgroup, ⟨?_, fun k l hl => ?_⟩, ?_,
    groupsKept_trans (groupsKept_setGroup hg y) hrest, hwrites⟩
  · rw [htg]
    exact regsKept_of_eq ⟨rfl, rfl, rfl, rfl, rfl⟩
  · exact vcell_take (by rw [htg]; rfl) k l hl
  · have hc : t.core x.core = u.core x.core := by rw [State.core, hcores]; rfl
    rw [hc, core_setCore_same]

theorem exec_rgrowRetry {s : State} {g core : Nat} (hlive : s.dev.status ≠ 7) (hlist : (s.core core).grows = [g]) :
    exec (.rgrowRetry core) s = .next (retryGrows s [g]) := by
  show Host.Outcome.next (if s.dev.status = 7 then s else retryGrows s (s.core core).grows) = _
  rw [if_neg hlive, hlist]

theorem retryGrows_met {s u : State} {g n since len : Nat} (hwait : (s.group g).wait = .grow n since len) (hgrow : growNow s g n = some u) :
    retryGrows s [g] = endGrow u g len := by simp only [retryGrows, hwait, hgrow]

theorem retryGrows_unmet {s : State} {g n since len : Nat} (hwait : (s.group g).wait = .grow n since len) (hgrow : growNow s g n = none) :
    retryGrows s [g] = s := by simp only [retryGrows, hwait, hgrow]

theorem exec_rgrowTimeout {s : State} {g n since len : Nat} (hlive : s.dev.status ≠ 7) (hwait : (s.group g).wait = .grow n since len) :
    exec (.rgrowTimeout g) s = .next (if (s.core (s.group g).core).cycles - since < 4096 then s
      else endGrow (s.setGroup g ((s.group g).bound n)) g len) := by
  have hrow : exec (.rgrowTimeout g) s = execRgrowTimeout g s := rfl
  simp only [hrow, execRgrowTimeout, hwait, Bool.or_eq_true, decide_eq_true_eq, hlive, false_or]
  split <;> rfl

theorem exec_registerPromote {s u : State} {g core b : Nat} (hlive : s.dev.status ≠ 7) (hlist : (s.core core).grows = [])
    (hheld : (s.core core).held = [g]) (hcore : (s.group g).core = core) (hback : (s.group g).vres < (s.group g).vbound)
    (hrun : pickRun s core (s.group g).vbound = some (u, b)) :
    exec (.registerPromote core) s = .next (u.setGroup g { u.group g with vbase := b, vres := (s.group g).vbound }) := by
  have hrow : exec (.registerPromote core) s = execRegisterPromote core s := rfl
  have hpromote : promote s [g] = u.setGroup g { u.group g with vbase := b, vres := (s.group g).vbound } := by
    simp only [promote, if_neg (Nat.not_le.2 hback), hcore, hrun]
  rw [hrow, execRegisterPromote, if_neg (by simpa [hlist] using hlive), hheld, hpromote]

/-- A run is picked for whichever group; only the choices left change. -/
theorem pickRun_state {s u : State} {core n b : Nat} (h : pickRun s core n = some (u, b)) : ∃ l, u = { s with choices := l } := by
  rw [pickRun] at h
  split at h
  · cases h
  · obtain ⟨rfl, -⟩ := Prod.mk.inj (Option.some.inj h)
    exact ⟨_, rfl⟩

/-- Settles O52: RGROW_RETRY and RGROW_TIMEOUT end a grow as `endGrow_says` has it, and a promotion moves the base of a run alone. -/
theorem rowEvents : Obligations.RowEvents := by
  unfold Obligations.RowEvents
  refine ⟨fun s g core n since len hlive hg hlist hcore hwait hjoin => ⟨fun habove => ?_, fun hnone => ?_⟩,
    fun s g n since len hlive hg hwait hjoin => ⟨fun hold => ?_, fun hyoung => ?_⟩,
    fun s g core u b hlive hg hlist hheld hcore hback hrun => ?_⟩
  · subst hcore
    obtain ⟨hbound, hres, hbase, hpass, hregs, hgrows, hrest, hwrites⟩ :=
      endGrow_says (n := n) (len := len) (base := (s.group g).vbase) (res := n) hg hjoin
    refine ⟨_, ?_, hbound, hres, hbase, hpass, hregs, ?_, hrest, hwrites⟩
    · rw [exec_rgrowRetry hlive hlist, retryGrows_met hwait (growNow_above habove)]
      rfl
    · rw [hgrows, hlist]
      simp
  · rw [exec_rgrowRetry hlive hlist, retryGrows_unmet hwait hnone]
  · obtain ⟨hbound, hres, -, hpass, hregs, hgrows, hrest, hwrites⟩ :=
      endGrow_says (n := n) (len := len) (base := (s.group g).vbase) (res := (s.group g).vres) hg hjoin
    refine ⟨_, ?_, hbound, hres, hpass, hregs, ?_, hrest, hwrites⟩
    · rw [exec_rgrowTimeout hlive hwait, if_neg (Nat.not_lt.2 hold)]
      rfl
    · rw [hgrows]
      simp
  · rw [exec_rgrowTimeout hlive hwait, if_pos hyoung]
  · obtain ⟨l, rfl⟩ := pickRun_state hrun
    refine ⟨_, exec_registerPromote hlive hlist hheld hcore hback hrun, ?_⟩
    rw [group_setGroup_same]
    exact ⟨rfl, rfl, rfl, regsKept_of_eq ⟨rfl, rfl, rfl, rfl, rfl⟩, rfl, groupsKept_setGroup hg _, rfl, rfl, rfl⟩

end Sys2Proof.RegisterRows
end

section
/-! PROOFS. What a logged instruction of a ready group comes to when its entry, performed at issue, does not complete (R231, R350, R359). -/

namespace Sys2Proof.EntryOutcomes

open Machine Laws Safety InstructionEnd

section
variable {s u : State} {g : Nat} {e e' : Entry} {rest : List Entry} (hlog : (s.group g).log = e :: rest)
include hlog

theorem runEntries_wait {w : Wait} (hp : performEntry g e s = .wait u w e') : runEntries s g = putHead u g e' w := by
  show runLog g 9 s = _
  simp only [runLog, hlog, hp]

theorem runEntries_trap {c : Trap} (hp : performEntry g e s = .trap u c e') :
    runEntries s g = enterTrap (putHead u g e' .none) g c (e'.len / 4) true e'.addr := by
  show runLog g 9 s = _
  simp only [runLog, hlog, hp]

theorem runEntries_nondet {c : Trap} (hp : performEntry g e s = .nondet u c) : runEntries s g = takeNondet u g e c := by
  show runLog g 9 s = _
  simp only [runLog, hlog, hp]

/-- An entry that completes and was the last leaves its group with none, waiting for nothing. -/
theorem runEntries_last (hp : performEntry g e s = .done u) (hlast : (u.group g).log = [e']) :
    runEntries s g = u.setGroup g { u.group g with log := [], wait := .none } := by
  have hc : completeHead u g = u.setGroup g { u.group g with log := [], wait := .none } := by
    rw [completeHead, hlast]
    rfl
  show runLog g 9 s = _
  simp only [runLog, hlog, hp, hc, group_setGroup_same]
  exact setGroup_setGroup _ _ _ _

end

/-- A group with another log and wait. -/
def staying (x : Group) (l : List Entry) (w : Wait) : Group := { x with log := l, wait := w }

theorem entered_log (s : State) (i : Instr) (f : Full) (is : Iss) : ((entered s i f is).group is.g).log = [entryOf s i f is] := by rw [entered_group]

section
variable {s u : State} {i : Instr} {f : Full} {is : Iss} {e : Entry} (h : Ready s i is) (hi : passesFault (opOf i) = false)
include h hi

/-- The entry completes: the log is empty again. -/
theorem issueLogged_last (hp : performEntry is.g (entryOf s i f is) (entered s i f is) = .done u)
    (hgroup : u.group is.g = (entered s i f is).group is.g) :
    issueLogged i f is (issued s i is) = post (u.setGroup is.g (staying ((entered s i f is).group is.g) [] .none)) is.g := by
  rw [issueLogged_entered f h hi, runEntries_last (entered_log s i f is) hp (by rw [hgroup, entered_log]), hgroup]
  rfl

theorem issueLogged_wait {w : Wait} (hp : performEntry is.g (entryOf s i f is) (entered s i f is) = .wait u w e) :
    issueLogged i f is (issued s i is) = post (putHead u is.g e w) is.g := by
  rw [issueLogged_entered f h hi, runEntries_wait (entered_log s i f is) hp]

theorem issueLogged_trap {c : Trap} (hp : performEntry is.g (entryOf s i f is) (entered s i f is) = .trap u c (entryOf s i f is)) :
    issueLogged i f is (issued s i is) = trapped u is (entryOf s i f is) c := by
  rw [issueLogged_entered f h hi, runEntries_trap (entered_log s i f is) hp]
  rfl

theorem issueLogged_nondet {c : Trap} (hp : performEntry is.g (entryOf s i f is) (entered s i f is) = .nondet u c) :
    issueLogged i f is (issued s i is) = post (enterTrap (unissue u is.g (entryOf s i f is)) is.g c (is.len / 4) false is.a) is.g := by
  rw [issueLogged_entered f h hi, runEntries_nondet (entered_log s i f is) hp]
  rfl

end

/-- The registers, the lanes and the parity marks of a group whose instruction has entered the log. -/
theorem entered_regs (s : State) (i : Instr) (f : Full) (is : Iss) :
    let x := s.group is.g
    let y := (entered s i f is).group is.g
    (y.v = x.v ∧ y.s = x.s ∧ y.p = x.p ∧ y.j = x.j ∧ y.flags = x.flags) ∧ y.lanes = (x.advance is.at_ is.a is.len).lanes ∧ y.vbad = x.vbad := by
  rw [entered_group]
  exact ⟨⟨rfl, rfl, rfl, rfl, rfl⟩, rfl, rfl⟩

/-- Where a group stands when its instruction has entered the log. -/
theorem placeKept_entered (s : State) (i : Instr) (f : Full) (is : Iss) :
    PlaceKept (s.group is.g) { (entered s i f is).group is.g with log := (s.group is.g).log } := by
  rw [entered_group]
  constructor <;> rfl

theorem putHead_staying {u : State} {g : Nat} {x : Group} {e e' : Entry} {w : Wait} (hx : u.group g = x) (hlog : x.log = [e']) :
    putHead u g e w = u.setGroup g (staying x [e] w) := by
  rw [putHead, hx, hlog]
  rfl

/-- The group after the instruction that it issued: the lanes have moved on, and its entry has left the log, or stays and waits. -/
theorem staying_ended {s : State} {i : Instr} {f : Full} {is : Iss} (h : Ready s i is) (ha : is.act ≠ 0) (u : State) (l : List Entry) (w : Wait) :
    let y := staying ((entered s i f is).group is.g) l w
    let t := post (u.setGroup is.g y) is.g
    Ended (u.setGroup is.g y) t is.g ∧ (t.group is.g).wait = w ∧ (t.group is.g).log = l ∧ RegsKept (s.group is.g) (t.group is.g) ∧
      Advanced (s.group is.g) (t.group is.g) is ∧
      PlaceKept (s.group is.g) { t.group is.g with wait := (s.group is.g).wait, log := (s.group is.g).log } := by
  intro y t
  obtain ⟨hregs, hlanes, hvbad⟩ := entered_regs s i f is
  have hplace := placeKept_entered s i f is
  have hend : Ended (u.setGroup is.g y) t is.g := ended_of_ready h ha u hlanes fun r hr => hvbad ▸ hr
  have hrel := hend.group
  rw [group_setGroup_same] at hrel
  refine ⟨hend, by rw [hrel.1]; rfl, by rw [hrel.1]; rfl, regsKept_released (z := y) hregs hrel, advanced_released (z := y) h hlanes hrel, ?_⟩
  rw [hrel.1]
  exact { hplace with wait := rfl }

/-- What an instruction of the log leaves in registers, lanes and memory, whatever became of the cores and the teams. -/
structure Left (s t : State) (is : Iss) : Prop where
  regs   : RegsKept (s.group is.g) (t.group is.g)
  lanes  : Advanced (s.group is.g) (t.group is.g) is
  groups : GroupsKept s t is.g
  writes : t.writes = s.writes
  mem    : MemKept s t is.g

/-- The end of an instruction of the log that changed cores and teams alone. -/
theorem staying_left {s : State} {i : Instr} {f : Full} {is : Iss} (h : Ready s i is) (ha : is.act ≠ 0) (hw : Memory.wf s.mem = true)
    (cs : List Core) (ts : List Team) (l : List Entry) (w : Wait) :
    let t := post ((retooled (entered s i f is) cs ts).setGroup is.g (staying ((entered s i f is).group is.g) l w)) is.g
    t.cores = cs ∧ t.teams = ts ∧ (t.group is.g).wait = w ∧ (t.group is.g).log = l ∧ Left s t is := by
  intro t
  have hu := underway_entered (f := f) h hw
  have hplace := placeKept_entered s i f is
  obtain ⟨hend, hwait, hlog, hregs, hlanes, -⟩ := staying_ended (f := f) h ha (retooled (entered s i f is) cs ts) l w
  obtain ⟨hcores, hteams, hwrites, hgroups, hmem⟩ := hu.endedTooled hend (ready_lt h) hplace.core hplace.slot hplace.vbound.le
  exact ⟨hcores, hteams, hwait, hlog, hregs, hlanes, hgroups, hwrites, hmem⟩

end Sys2Proof.EntryOutcomes
end

section
/-! PROOFS. O21: RGROW and RSHRINK (R109, R110, R376), ICSYNC and TRACEMARK (R377, R379, R384), and TLBINV (R378). -/

namespace Sys2Proof.BoundRows

open Machine Laws Safety InstructionEnd RegisterRows TeamReturn EntryOutcomes

-- RGROW (R109, R376) ---------------------------------------------------------------------------------------------------------------------

theorem boundArg_eq (x : Group) (c : Src) :
    boundArg x c = match c with | .reg r => (x.sreg r.num.toNat).toNat % 2 ^ 32 | c => c.immNat := by
  cases c with
  | reg r => simp only [boundArg, wfield, field, pow_zero, Nat.div_one]
  | imm i => rfl
  | lit l => rfl

theorem boundArg_congr {x y : Group} (h : y.s = x.s) (c : Src) : boundArg y c = boundArg x c := by
  cases c with
  | reg r => simp only [boundArg, sreg_congr h]
  | imm i => rfl
  | lit l => rfl

/-- The effect of RGROW. -/
def growEffect (f : Full) (is : Iss) (s : State) : State :=
  let x := s.group is.g
  let n := boundArg x f.c
  if n == 0 || 256 < n then ownTrap is ⟨0x02, is.at_, wd n⟩ s
  else if n ≤ x.vbound then regBody (fun _ x => x) is s
  else match growNow s is.g n with
    | some s => regBody (fun _ x => x) is s
    | none =>
      let c := s.core x.core
      let s := s.setCore x.core { c with grows := c.grows ++ [is.g] }
      s.setGroup is.g { x with wait := .grow n c.cycles is.len }

theorem exec_rgrow (f : Full) (s : State) : exec (.rgrow f) s = issue (.rgrow f) (growEffect f) s := rfl

section
variable {f : Full} {is : Iss} {s : State} {n : Nat} (hn : boundArg (s.group is.g) f.c = n)
include hn

theorem growEffect_bad (h : n = 0 ∨ 256 < n) : growEffect f is s = enterTrap s is.g ⟨0x02, is.at_, wd n⟩ (is.len / 4) false is.a := by
  have hbad : (n == 0 || decide (256 < n)) = true := by simpa using h
  simp only [growEffect, hn, hbad, if_true]
  rfl

theorem growEffect_within (h0 : 0 < n) (h : n ≤ 256) (hle : n ≤ (s.group is.g).vbound) :
    growEffect f is s = regBody (fun _ x => x) is s := by
  have hgood : ¬ (n == 0 || decide (256 < n)) = true := by simp; omega
  simp only [growEffect, hn, if_neg hgood, if_pos hle]

theorem growEffect_met {u : State} (h : n ≤ 256) (hlt : (s.group is.g).vbound < n) (hgrow : growNow s is.g n = some u) :
    growEffect f is s = regBody (fun _ x => x) is u := by
  have hgood : ¬ (n == 0 || decide (256 < n)) = true := by simp; omega
  simp only [growEffect, hn, if_neg hgood, if_neg (Nat.not_le.2 hlt), hgrow]

theorem growEffect_waits (h : n ≤ 256) (hlt : (s.group is.g).vbound < n) (hgrow : growNow s is.g n = none) :
    growEffect f is s = (s.setCore (s.group is.g).core { s.core (s.group is.g).core with grows := (s.core (s.group is.g).core).grows ++ [is.g] }).setGroup
      is.g { s.group is.g with wait := .grow n (s.core (s.group is.g).core).cycles is.len } := by
  have hgood : ¬ (n == 0 || decide (256 < n)) = true := by simp; omega
  simp only [growEffect, hn, if_neg hgood, if_neg (Nat.not_le.2 hlt), hgrow]

end

/-- The rows in use do not change with an issue. -/
theorem rowsUsed_issued {s : State} {i : Instr} {is : Iss} (h : Ready s i is) (core : Nat) : rowsUsed (issued s i is) core = rowsUsed s core := by
  obtain ⟨n, k, e⟩ := issued_core s i is core
  refine rowsUsed_congr (by rw [e]) fun g => ?_
  by_cases hg : g = is.g
  · rw [hg, issued_group]
    exact ⟨rfl, rfl⟩
  · rw [(issued_groups s i is (ready_lt h)).2 g hg]
    exact ⟨rfl, rfl⟩

section
variable {s : State} {i : Instr} {is : Iss} (h : Ready s i is)
include h

/-- What a grow of the issued group finds is told by the state before the issue. -/
theorem growNow_issued_above {n : Nat}
    (habove : runFree (rowsUsed s (s.group is.g).core) ((s.group is.g).vbase + (s.group is.g).vres) (n - (s.group is.g).vres) = true) :
    growNow (issued s i is) is.g n =
      some ((issued s i is).setGroup is.g { ((issued s i is).group is.g).bound n with vres := n }) := by
  refine growNow_above ?_
  rw [rowsUsed_issued h, issued_group]
  exact habove

theorem growNow_issued_beyond {n : Nat}
    (habove : ¬ runFree (rowsUsed s (s.group is.g).core) ((s.group is.g).vbase + (s.group is.g).vres) (n - (s.group is.g).vres) = true) :
    growNow (issued s i is) is.g n = (makeRun (issued s i is) (s.group is.g).core n).map fun r =>
      r.1.setGroup is.g { (r.1.group is.g).bound n with vbase := r.2, vres := n } := by
  have hcore : ((issued s i is).group is.g).core = (s.group is.g).core := (placeKept_issued s i is).core
  have hno : runFree (rowsUsed (issued s i is) ((issued s i is).group is.g).core)
      (((issued s i is).group is.g).vbase + ((issued s i is).group is.g).vres) (n - ((issued s i is).group is.g).vres) ≠ true := by
    rw [rowsUsed_issued h, issued_group]
    exact habove
  cases hrun : makeRun (issued s i is) (s.group is.g).core n with
  | none => exact growNow_none hno (hcore.symm ▸ hrun)
  | some r => exact growNow_moved hno (hcore.symm ▸ hrun)

variable (ha : is.act ≠ 0)
include ha

/-- A grow that is met within free rows: the bound, the registers, and lanes that move on. -/
theorem grow_met {n base : Nat} (u : State) (y : Group) (hy : ∃ b, y = { (issued s i is).group is.g with vbase := b }) :
    let t := regBody (fun _ x => x) is (u.setGroup is.g { y.bound n with vbase := base, vres := n })
    Ended (u.setGroup is.g ({ y.bound n with vbase := base, vres := n }.advance is.at_ is.a is.len)) t is.g ∧
    (t.group is.g).vbound = n ∧ (t.group is.g).vres = n ∧ (t.group is.g).vbase = base ∧
    ((∀ k l, l < 32 → vcell (t.group is.g) k l = if k < (s.group is.g).vbound then vcell (s.group is.g) k l else 0) ∧
      ScalarsKept (s.group is.g) (t.group is.g) ∧ PredsKept (s.group is.g) (t.group is.g) ∧ JoinsKept (s.group is.g) (t.group is.g) ∧
      (t.group is.g).flags = (s.group is.g).flags) ∧
    Advanced (s.group is.g) (t.group is.g) is := by
  intro t
  obtain ⟨b, rfl⟩ := hy
  let z : Group := { ({ (issued s i is).group is.g with vbase := b } : Group).bound n with vbase := base, vres := n }
  have hlanes : (z.advance is.at_ is.a is.len).lanes = ((s.group is.g).advance is.at_ is.a is.len).lanes :=
    advance_lanes_congr ((issued_regs s i is).2.2.2.2.2) _ _ _
  have ht : t = post (u.setGroup is.g (z.advance is.at_ is.a is.len)) is.g := by
    show regBody (fun _ x => x) is (u.setGroup is.g z) = _
    rw [regBody_eq, group_setGroup_same, setGroup_setGroup]
  have hend : Ended (u.setGroup is.g (z.advance is.at_ is.a is.len)) t is.g := by
    rw [ht]
    refine ended_of_ready h ha u hlanes fun r hr => ?_
    have hr' := bound_vbad _ n r hr
    rw [issued_group] at hr'
    exact hr'
  have hgroup := hend.group
  rw [group_setGroup_same] at hgroup
  have htg := hgroup.1
  obtain ⟨hv, hs, hp, hj, hflags, -⟩ := issued_regs s i is
  have hbound : ((issued s i is).group is.g).vbound = (s.group is.g).vbound := (placeKept_issued s i is).vbound
  refine ⟨hend, by rw [htg]; rfl, by rw [htg]; rfl, by rw [htg]; rfl, ⟨fun k l hl => ?_, ?_, ?_, ?_, ?_⟩, advanced_released h hlanes hgroup⟩
  · refine vcell_take ?_ k l hl
    rw [htg, ← hv, ← hbound]
    rfl
  · exact sreg_congr (by rw [htg, ← hs]; rfl)
  · exact pred_congr (by rw [htg, ← hp]; rfl)
  · intro m
    rw [htg, ← hj]
    rfl
  · rw [htg, ← hflags]
    rfl

variable (hw : Memory.wf s.mem = true)
include hw

/-- A grow into the rows above the run stays in place. -/
theorem grow_above {n : Nat} (hle : n ≤ 256)
    (habove : runFree (rowsUsed s (s.group is.g).core) ((s.group is.g).vbase + (s.group is.g).vres) (n - (s.group is.g).vres) = true) :
    ∃ u, growNow (issued s i is) is.g n = some u ∧
      let t := regBody (fun _ x => x) is u
      (t.group is.g).vbound = n ∧ (t.group is.g).vres = n ∧ (t.group is.g).vbase = (s.group is.g).vbase ∧
      ((∀ k l, l < 32 → vcell (t.group is.g) k l = if k < (s.group is.g).vbound then vcell (s.group is.g) k l else 0) ∧
        ScalarsKept (s.group is.g) (t.group is.g) ∧ PredsKept (s.group is.g) (t.group is.g) ∧ JoinsKept (s.group is.g) (t.group is.g) ∧
        (t.group is.g).flags = (s.group is.g).flags) ∧
      Advanced (s.group is.g) (t.group is.g) is ∧ GroupsKept s t is.g ∧ MachineKept s t is.g ∧ MemKept s t is.g := by
  have hplace := placeKept_issued s i is
  obtain ⟨hend, hbound, hres, hbase, hregs, hadv⟩ := grow_met (n := n) (base := ((issued s i is).group is.g).vbase) h ha (issued s i is)
    ((issued s i is).group is.g) ⟨_, rfl⟩
  refine ⟨_, growNow_issued_above h habove, hbound, hres, hbase.trans hplace.vbase, hregs, hadv, ?_⟩
  have hu := (underway_issued h hw).setGroup (ready_lt h) (({ ((issued s i is).group is.g).bound n with vres := n } : Group).advance is.at_ is.a is.len)
  have hframe := hu.ended hend (hu.backByte (by rw [group_setGroup_same]; exact hplace.core) (by rw [group_setGroup_same]; exact hplace.slot)
    (.inl (by rw [group_setGroup_same]; exact hle)))
  exact ⟨hframe.groups, hframe.machine, hframe.mem⟩

/-- A grow that finds its rows elsewhere, after compaction where that is needed, moves there; other groups keep all but the base of their run. -/
theorem grow_elsewhere {n : Nat} (h0 : 0 < n) (hle : n ≤ 256)
    (habove : ¬ runFree (rowsUsed s (s.group is.g).core) ((s.group is.g).vbase + (s.group is.g).vres) (n - (s.group is.g).vres) = true)
    (helse : (∃ b, b + n ≤ 1024 ∧ runFree (rowsUsed s (s.group is.g).core) b n = true) ∨
      n + ((rowsUsed s (s.group is.g).core).map (·.2)).sum ≤ 1024) :
    ∃ u, growNow (issued s i is) is.g n = some u ∧
      let t := regBody (fun _ x => x) is u
      (t.group is.g).vbound = n ∧ (t.group is.g).vres = n ∧
      ((∀ k l, l < 32 → vcell (t.group is.g) k l = if k < (s.group is.g).vbound then vcell (s.group is.g) k l else 0) ∧
        ScalarsKept (s.group is.g) (t.group is.g) ∧ PredsKept (s.group is.g) (t.group is.g) ∧ JoinsKept (s.group is.g) (t.group is.g) ∧
        (t.group is.g).flags = (s.group is.g).flags) ∧
      Advanced (s.group is.g) (t.group is.g) is ∧ (∀ g, g ≠ is.g → ∃ b, t.group g = { s.group g with vbase := b }) ∧
      MachineKept s { t with choices := s.choices } is.g ∧ MemKept s t is.g := by
  have hsome : (makeRun (issued s i is) (s.group is.g).core n).isSome = true := by
    rw [makeRun_isSome h0 (by omega), rowsUsed_issued h]
    exact helse
  obtain ⟨⟨u, base⟩, hrun⟩ := Option.isSome_iff_exists.1 hsome
  have hmoved := compacted_makeRun (issued s i is) (s.group is.g).core n
  rw [hrun, Option.getD_some] at hmoved
  obtain ⟨b, hy⟩ := hmoved.group is.g
  obtain ⟨hend, hbound, hres, -, hregs, hadv⟩ := grow_met (n := n) (base := base) h ha u (u.group is.g) ⟨b, hy⟩
  refine ⟨_, by rw [growNow_issued_beyond h habove, hrun, Option.map_some], hbound, hres, hregs, hadv, fun g hg => ?_, ?_⟩
  · obtain ⟨b', hb'⟩ := hmoved.group g
    refine ⟨b', (hend.rest.2 g hg).trans ?_⟩
    rw [group_setGroup_other _ _ _ _ hg, hb', (issued_groups s i is (ready_lt h)).2 g hg]
  · have hu := underway_issued h hw
    have hplace := placeKept_issued s i is
    have hframe : ∃ gs cs, u = { issued s i is with groups := gs, choices := cs } := ⟨_, _, hmoved.frame⟩
    have hback : ∀ a, BackByte (u.setGroup is.g (({ (u.group is.g).bound n with vbase := base, vres := n } : Group).advance is.at_ is.a is.len))
        is.g a → BackByte s is.g a := by
      obtain ⟨hrback, hhome, -⟩ := devSame_home hu.machine.dev
      obtain ⟨gs, cs, hframe⟩ := hframe
      have hdev : u.dev = (issued s i is).dev := by rw [hframe]
      refine fun a ha => backByte_mono (by rw [setGroup_dev, hdev, hrback]) (by rw [setGroup_dev, hdev, hhome]) ?_ ?_ (.inl ?_) ha
      · rw [group_setGroup_same, hy]
        exact hplace.core
      · rw [group_setGroup_same, hy]
        exact hplace.slot
      · rw [group_setGroup_same]
        exact hle
    obtain ⟨gs, cs, rfl⟩ := hframe
    exact hu.endedElsewhere hend hback

end

/-- A grow that finds no rows joins the core's list and waits. -/
theorem grow_waits {f : Full} {s : State} {i : Instr} {is : Iss} (h : Ready s i is) (hw : Memory.wf s.mem = true) {n : Nat}
    (hn : boundArg (s.group is.g) f.c = n) (h0 : 0 < n) (hle : n ≤ 256) (hlt : (s.group is.g).vbound < n)
    (habove : ¬ runFree (rowsUsed s (s.group is.g).core) ((s.group is.g).vbase + (s.group is.g).vres) (n - (s.group is.g).vres) = true)
    (helse : ¬ ((∃ b, b + n ≤ 1024 ∧ runFree (rowsUsed s (s.group is.g).core) b n = true) ∨
      n + ((rowsUsed s (s.group is.g).core).map (·.2)).sum ≤ 1024)) :
    let x := s.group is.g
    let t := growEffect f is (issued s i is)
    (t.group is.g).wait = .grow n (s.core x.core).cycles is.len ∧ (t.group is.g).lanes = x.lanes ∧
      (t.core x.core).grows = (s.core x.core).grows ++ [is.g] ∧ RegsKept x (t.group is.g) ∧
      PlaceKept x { t.group is.g with wait := x.wait } ∧ GroupsKept s t is.g ∧ MachineKept s { t with cores := s.cores } is.g ∧
      (∀ k, k ≠ x.core → CoreSame (s.core k) (t.core k)) ∧ MemKept s t is.g := by
  intro x t
  have hplace := placeKept_issued s i is
  obtain ⟨hv, hs, hp, hj, hflags, hlanes⟩ := issued_regs s i is
  have hnone : makeRun (issued s i is) x.core n = none := by
    rw [← Option.not_isSome_iff_eq_none, makeRun_isSome h0 (by omega), rowsUsed_issued h]
    exact helse
  obtain ⟨count, stall, hcore⟩ := issued_core s i is x.core
  have ht : t = ((issued s i is).setCore x.core { (issued s i is).core x.core with grows := (s.core x.core).grows ++ [is.g] }).setGroup
      is.g { (issued s i is).group is.g with wait := .grow n (s.core x.core).cycles is.len } := by
    show growEffect f is (issued s i is) = _
    rw [growEffect_waits ((boundArg_congr hs f.c).trans hn) hle (by rw [hplace.vbound]; exact hlt)
      (by rw [growNow_issued_beyond h habove, hnone, Option.map_none]), hplace.core, hcore]
  obtain ⟨hmachine, hgroups, -, hmem⟩ := (underway_issued h hw).setGroup (ready_lt h)
    { (issued s i is).group is.g with wait := .grow n (s.core x.core).cycles is.len }
  have hgroup : t.group is.g = { (issued s i is).group is.g with wait := .grow n (s.core x.core).cycles is.len } := by
    rw [ht, group_setGroup_same]
  have hcores : ∀ k, k ≠ x.core → CoreSame (s.core k) (t.core k) := fun k hk => by
    rw [ht, core_setGroup, core_setCore_other _ _ _ _ hk]
    exact issued_core s i is k
  have hgrows : (t.core x.core).grows = (s.core x.core).grows ++ [is.g] := by rw [ht, core_setGroup, core_setCore_same]
  rw [hgroup]
  refine ⟨rfl, hlanes, hgrows, regsKept_of_eq ⟨hv, hs, hp, hj, hflags⟩, { hplace with wait := rfl }, ?_, ?_, hcores, ?_⟩
  · rw [ht]
    exact hgroups
  · rw [ht]
    exact { hmachine with cores := fun k => ⟨_, _, rfl⟩ }
  · rw [ht]
    exact hmem

-- RSHRINK (R110, R376) ---------------------------------------------------------------------------------------------------------------------

/-- The effect of RSHRINK. -/
def shrinkEffect (f : Full) (is : Iss) (s : State) : State :=
  let n := boundArg (s.group is.g) f.c
  if n == 0 || 256 < n then ownTrap is ⟨0x02, is.at_, wd n⟩ s
  else regBody (fun _ x => if n < x.vbound then x.shrink n else x) is s

theorem exec_rshrink (f : Full) (s : State) : exec (.rshrink f) s = issue (.rshrink f) (shrinkEffect f) s := rfl

theorem shrink_vbad (x : Group) (n : Nat) : ∀ r ∈ (x.shrink n).vbad, r ∈ x.vbad := fun _ h => (List.mem_filter.1 h).1

/-- A group with its bound lowered to at most n, with vector rows v and parity marks b. -/
def shrunk (x : Group) (n : Nat) (v : List (List Word)) (b : List (Res × Nat)) : Group :=
  { x with vbound := min n x.vbound, vres := if n < x.vbound then min x.vres n else x.vres, v := v, vbad := b }

/-- What a shrink leaves of a group: the registers below the bound, and fewer parity marks. -/
theorem shrunk_fields (x : Group) (n : Nat) : ∃ v b, (if n < x.vbound then x.shrink n else x) = shrunk x n v b ∧
    (∀ r ∈ b, r ∈ x.vbad) ∧ (v = x.v ∨ n < x.vbound ∧ v = x.v.take n) := by
  by_cases hlt : n < x.vbound
  · refine ⟨x.v.take n, (x.shrink n).vbad, ?_, shrink_vbad x n, .inr ⟨hlt, rfl⟩⟩
    rw [if_pos hlt, shrunk, if_pos hlt, Nat.min_eq_left hlt.le]
    rfl
  · refine ⟨x.v, x.vbad, ?_, fun r hr => hr, .inl rfl⟩
    rw [if_neg hlt, shrunk, if_neg hlt, Nat.min_eq_right (Nat.not_lt.1 hlt)]

/-- A shrink to between 1 and 256 registers. -/
theorem shrink_fits {f : Full} {s : State} {i : Instr} {is : Iss} (h : Ready s i is) (ha : is.act ≠ 0) (hw : Memory.wf s.mem = true) {n : Nat}
    (hn : boundArg (s.group is.g) f.c = n) (h0 : 0 < n) (hle : n ≤ 256) :
    let x := s.group is.g
    let t := shrinkEffect f is (issued s i is)
    (t.group is.g).vbound = min n x.vbound ∧ (t.group is.g).vres = (if n < x.vbound then min x.vres n else x.vres) ∧
      (t.group is.g).vbase = x.vbase ∧ (∀ k l, k < min n x.vbound → l < 32 → vcell (t.group is.g) k l = vcell x k l) ∧
      ScalarsKept x (t.group is.g) ∧ PredsKept x (t.group is.g) ∧ JoinsKept x (t.group is.g) ∧ (t.group is.g).flags = x.flags ∧
      Advanced x (t.group is.g) is ∧ GroupsKept s t is.g ∧ MachineKept s t is.g ∧ MemKept s t is.g := by
  intro x t
  have hplace := placeKept_issued s i is
  obtain ⟨hv, hs, hp, hj, hflags, hlanes⟩ := issued_regs s i is
  have hvbad := issued_vbad s i is
  have hgood : ¬ (n == 0 || decide (256 < n)) = true := by simp; omega
  have ht : t = regBody (fun _ x => if n < x.vbound then x.shrink n else x) is (issued s i is) := by
    show shrinkEffect f is (issued s i is) = _
    simp only [shrinkEffect, (boundArg_congr hs f.c).trans hn, if_neg hgood]
  obtain ⟨v, b, hy, hb, hregs⟩ := shrunk_fields ((issued s i is).group is.g) n
  have hbound : min n ((issued s i is).group is.g).vbound ≤ 256 := (Nat.min_le_left _ _).trans hle
  obtain ⟨hgroup, hframe⟩ := regBody_underway (fun _ x => if n < x.vbound then x.shrink n else x) h ha (underway_issued h hw)
    (by rw [hy]; exact hlanes) (by rw [hy]; exact fun r hr => hvbad ▸ hb r hr) (by rw [hy]; exact hplace.core) (by rw [hy]; exact hplace.slot)
    (.inl (by rw [hy]; exact hbound))
  rw [← ht, hy] at hgroup
  rw [← ht] at hframe
  have hlanes' := advance_lanes_congr (y := shrunk ((issued s i is).group is.g) n v b) hlanes is.at_ is.a is.len
  have htg := hgroup.1
  refine ⟨by rw [htg, ← hplace.vbound]; rfl, by rw [htg, ← hplace.vbound, ← hplace.vres]; rfl, by rw [htg, ← hplace.vbase]; rfl, fun k l hk hl => ?_,
    sreg_congr (by rw [htg, ← hs]; rfl), pred_congr (by rw [htg, ← hp]; rfl), fun m => by rw [htg, ← hj]; rfl, by rw [htg, ← hflags]; rfl,
    advanced_released h hlanes' hgroup, hframe.groups, hframe.machine, hframe.mem⟩
  have htv : (t.group is.g).v = v := by rw [htg]; rfl
  rcases hregs with rfl | ⟨hlt, rfl⟩
  · exact vcell_congr (htv.trans hv) k l
  · rw [vcell_take (htv.trans (congrArg (List.take n) hv)) k l hl, if_pos (hk.trans_le (Nat.min_le_left _ _))]

-- ICSYNC (R377) ----------------------------------------------------------------------------------------------------------------------------

/-- ICSYNC empties the fetch buffer. -/
def syncEffect (_ : Iss) (x : Group) : Group := { x with buf := [] }

theorem exec_icsync (f : Full) (s : State) : exec (.icsync f) s = issue (.icsync f) (regBody syncEffect) s := rfl

theorem icsync_empties {f : Full} {s : State} {is : Iss} (h : Ready s (.icsync f) is) (ha : is.act ≠ 0) (hw : Memory.wf s.mem = true) :
    ∃ t, exec (.icsync f) s = .next t ∧ (t.group is.g).buf = [] ∧ Quiet s t is := by
  have hplace := placeKept_issued s (.icsync f) is
  obtain ⟨hv, hs, hp, hj, hflags, hlanes⟩ := issued_regs s (.icsync f) is
  have hvbad := issued_vbad s (.icsync f) is
  have hu := underway_issued h hw
  obtain ⟨hgroup, -⟩ := regBody_underway syncEffect h ha hu hlanes (fun r hr => hvbad ▸ hr) hplace.core hplace.slot (.inr hplace.vbound.le)
  refine ⟨_, exec_ready (exec_icsync f) h ha, by rw [hgroup.1]; rfl, ?_⟩
  exact quiet_regBody syncEffect h ha hu hlanes (fun r hr => hvbad ▸ hr) { hplace with } ⟨hv, hs, hp, hj, hflags⟩

-- TLBINV (R378) ----------------------------------------------------------------------------------------------------------------------------

/-- The entry of a shootdown, made, waits with its number. -/
def shotEntry (e : Entry) (n : Nat) : Entry := { e with stage := 1, prog := n }

theorem performEntry_tlbinv {f : Full} {g : Nat} {e : Entry} (he : e.instr = .tlbinv f) (s : State) : performEntry g e s = doTlbinv f g e s := by
  simp only [performEntry, he]

theorem doTlbinv_beyond {f : Full} {e : Entry} (he : e.stage = 0) (g : Nat) (s : State) (hxm : f.xm = 0) (hva : 2 ^ 57 ≤ (e.bv e.low).toNat) :
    doTlbinv f g e s = .trap s ⟨0x07, e.lanes, wd (3 * 2 ^ 60 + (e.bv e.low).toNat % 2 ^ 57)⟩ e := by
  simp only [doTlbinv, he, ne_eq, not_true_eq_false, if_false, hxm, beq_self_eq_true, Bool.true_and, decide_eq_true hva, if_true]

theorem doTlbinv_shoots {f : Full} {e : Entry} (he : e.stage = 0) (g : Nat) (s : State) (h : f.xm ≠ 0 ∨ (e.bv e.low).toNat < 2 ^ 57) :
    doTlbinv f g e s = .wait (shoot s (s.team (s.group g).team).ctx (if f.xm = 1 then none else some (e.bv e.low).toNat) false)
      (.shoot (s.dev.shootIn + 1)) (shotEntry e (s.dev.shootIn + 1)) := by
  have hno : ¬ (f.xm == 0 && decide (2 ^ 57 ≤ (e.bv e.low).toNat)) = true := by
    rw [Bool.and_eq_true, beq_iff_eq, decide_eq_true_eq]
    exact fun hboth => h.elim (· hboth.1) (Nat.not_lt.2 hboth.2)
  simp only [doTlbinv, he, ne_eq, not_true_eq_false, if_false, if_neg hno]
  rfl

theorem low_lt {e : Entry} (h : e.act ≠ 0) : e.low < 32 := by
  obtain ⟨l, hl⟩ := lowLane_some h
  rw [Entry.low, hl]
  exact (mem_lowLane hl).1

theorem getAt_rowOfWord (w : Word) {l : Nat} (hl : l < 32) : getAt 0 (rowOfWord w) l = w := by
  have hrow : rowOfWord w = (List.range 32).map fun _ => w := by rw [List.map_const', List.length_range]; rfl
  rw [hrow, getAt_map_range _ _ _ _ hl]

/-- The first source of an instruction that has a scalar register there. -/
theorem bv_scalar {s : State} {i : Instr} {f : Full} {is : Iss} {l : Nat} (h : f.b.file = .s) (hl : l < 32) :
    (entryOf s i f is).bv l = (s.group is.g).sreg f.b.num.toNat := by
  have hrow : (s.group is.g).regRow f.b 0 = rowOfWord ((s.group is.g).sreg f.b.num.toNat) := by simp only [Group.regRow, h, Nat.add_zero]
  show getAt 0 (getAt [] ((List.range (2 ^ f.b.wid.toNat)).map _) 0) l = _
  rw [getAt_map_range _ _ _ _ (Nat.two_pow_pos _), hrow, getAt_rowOfWord _ hl]

theorem exec_tlbinv (f : Full) (s : State) : exec (.tlbinv f) s = issue (.tlbinv f) (issueLogged (.tlbinv f) f) s := rfl

/-- A legal TLBINV invalidates one address, that of a scalar register, or all of them (R378). -/
theorem tlbinv_form {f : Full} {s : State} {is : Iss} (h : Ready s (.tlbinv f) is) : f.xm.toNat ≤ 1 ∧ (f.xm = 0 → f.b.file = .s) := by
  have hlegal : illFull 0xF6 f = none := ill_of_ready h
  obtain ⟨hxm, hops⟩ := illFull_none hlegal
  replace hxm : decide (f.xm.toNat ≤ 1) = true := hxm
  replace hops : (f.d.meets .zero && (if f.xm.toNat == 0 then f.b.meets (.s 0) else f.b.meets .zero)) = true := hops
  refine ⟨of_decide_eq_true hxm, fun h0 => ?_⟩
  rw [h0] at hops
  replace hops : (f.d.meets .zero && f.b.meets (.s 0)) = true := hops
  simp only [Reg.meets, Bool.and_eq_true, beq_iff_eq] at hops
  exact hops.2.1.1

section
variable {f : Full} {s : State} {is : Iss} (h : Ready s (.tlbinv f) is) (ha : is.act ≠ 0)
include h ha

theorem tlbinv_address (hxm : f.xm = 0) :
    ((entryOf s (.tlbinv f) f is).bv (entryOf s (.tlbinv f) f is).low).toNat = ((s.group is.g).sreg f.b.num.toNat).toNat := by
  rw [bv_scalar ((tlbinv_form h).2 hxm) (low_lt (e := entryOf s (.tlbinv f) f is) ha)]

/-- An address beyond the virtual address space is NONCANON (R378). -/
theorem tlbinv_noncanon (hxm : f.xm = 0) (hva : 2 ^ 57 ≤ ((s.group is.g).sreg f.b.num.toNat).toNat) : exec (.tlbinv f) s =
    .next (trapped (entered s (.tlbinv f) f is) is (entryOf s (.tlbinv f) f is)
      ⟨0x07, is.at_, wd (3 * 2 ^ 60 + ((s.group is.g).sreg f.b.num.toNat).toNat % 2 ^ 57)⟩) := by
  have haddr := tlbinv_address h ha hxm
  rw [exec_ready (exec_tlbinv f) h ha]
  refine congrArg _ (issueLogged_trap h rfl ?_)
  rw [performEntry_tlbinv rfl, doTlbinv_beyond rfl _ _ hxm (haddr ▸ hva), haddr]
  rfl

/-- Otherwise a shootdown is queued, and its entry waits for that one (R378). -/
theorem tlbinv_shoots (hw : Memory.wf s.mem = true) (hva : f.xm ≠ 0 ∨ ((s.group is.g).sreg f.b.num.toNat).toNat < 2 ^ 57) :
    let x := s.group is.g
    let e := entryOf s (.tlbinv f) f is
    ∃ t, exec (.tlbinv f) s = .next t ∧
      t.dev.shootQ = s.dev.shootQ ++ [⟨(s.team x.team).ctx, if f.xm = 1 then none else some (x.sreg f.b.num.toNat).toNat, false⟩] ∧
      t.dev.shootIn = s.dev.shootIn + 1 ∧ DevSame s { t with dev := { t.dev with shootQ := s.dev.shootQ, shootIn := s.dev.shootIn } } ∧
      (t.group is.g).wait = .shoot (s.dev.shootIn + 1) ∧ (t.group is.g).log = [{ e with stage := 1, prog := s.dev.shootIn + 1 }] ∧
      RegsKept x (t.group is.g) ∧ Advanced x (t.group is.g) is ∧ PlaceKept x { t.group is.g with wait := x.wait, log := x.log } ∧
      GroupsKept s t is.g ∧ MachineKept s { t with dev := s.dev } is.g ∧ MemKept s t is.g := by
  intro x e
  let E := entered s (.tlbinv f) f is
  have hu : Underway s E is.g := underway_entered h hw
  have hplace := placeKept_entered s (.tlbinv f) f is
  obtain ⟨drops, twidx, trfresh, hdev⟩ : DevSame s E := hu.machine.dev
  have hctx : (E.team (E.group is.g).team).ctx = (s.team x.team).ctx := by
    obtain ⟨k, hteam⟩ := hu.machine.teams.2 x.team
    rw [show (E.group is.g).team = x.team from hplace.team, hteam]
  have hcond : f.xm ≠ 0 ∨ (e.bv e.low).toNat < 2 ^ 57 := by
    by_cases hxm : f.xm = 0
    · rw [tlbinv_address h ha hxm]
      exact hva
    · exact .inl hxm
  have harg : (if f.xm = 1 then none else some (e.bv e.low).toNat) = if f.xm = 1 then none else some (x.sreg f.b.num.toNat).toNat := by
    split
    · rfl
    · have hxm : f.xm = 0 := by
        have hle := (tlbinv_form h).1
        bv_omega
      rw [tlbinv_address h ha hxm]
  have hperf := (performEntry_tlbinv (g := is.g) (e := e) rfl E).trans (doTlbinv_shoots rfl is.g E hcond)
  rw [hctx, harg, show E.dev.shootIn = s.dev.shootIn by rw [hdev]] at hperf
  generalize (if f.xm = 1 then none else some (x.sreg f.b.num.toNat).toNat) = place at hperf ⊢
  obtain ⟨hend, hwait, hlog, hregs, hadv, hplace'⟩ := staying_ended (f := f) h ha (shoot E (s.team x.team).ctx place false)
    [shotEntry e (s.dev.shootIn + 1)] (.shoot (s.dev.shootIn + 1))
  have hat := group_setGroup_same (shoot E (s.team x.team).ctx place false) is.g
    (staying (E.group is.g) [shotEntry e (s.dev.shootIn + 1)] (.shoot (s.dev.shootIn + 1)))
  have hdevEnd : (post ((shoot E (s.team x.team).ctx place false).setGroup is.g
      (staying (E.group is.g) [shotEntry e (s.dev.shootIn + 1)] (.shoot (s.dev.shootIn + 1)))) is.g).dev =
      { E.dev with shootIn := E.dev.shootIn + 1, shootQ := E.dev.shootQ ++ [⟨(s.team x.team).ctx, place, false⟩] } := by
    obtain ⟨m, p, gs, hframe⟩ := hend.frame
    rw [hframe]
    rfl
  have hexec : exec (.tlbinv f) s = .next (post ((shoot E (s.team x.team).ctx place false).setGroup is.g
      (staying (E.group is.g) [shotEntry e (s.dev.shootIn + 1)] (.shoot (s.dev.shootIn + 1)))) is.g) := by
    rw [exec_ready (exec_tlbinv f) h ha, issueLogged_wait h rfl hperf]
    exact congrArg (Host.Outcome.next <| post · is.g) (putHead_staying rfl (entered_log s _ f is))
  refine ⟨_, hexec, by rw [hdevEnd, hdev], by rw [hdevEnd, hdev],
    ⟨drops, twidx, trfresh, by rw [hdevEnd, hdev]⟩, hwait, hlog, hregs, hadv, hplace',
    groupsKept_trans (groupsKept_trans hu.groups (groupsKept_setGroup (s := shoot E _ _ _) (groupsKept_lt hu.groups (ready_lt h)) _)) hend.rest,
    hu.endedApart hend fun a hb => backByte_mono ?_ ?_ ?_ ?_ (.inr ?_) hb⟩
  · show E.dev.rback = _
    rw [hdev]
  · show homeAddr E.dev = _
    rw [hdev]
    rfl
  · exact (congrArg Group.core hat).trans hplace.core
  · exact (congrArg Group.slot hat).trans hplace.slot
  · exact ((congrArg Group.vbound hat).trans hplace.vbound).le
end

-- TRACEMARK (R379, R382 to R384) ------------------------------------------------------------------------------------------------------------

theorem exec_tracemark (f : Full) (s : State) : exec (.tracemark f) s =
    issue (.tracemark f) (fun is s => regBody (fun _ x => x) is (traceGroup s 0x30 is.g is.act f.c.immNat)) s := rfl

/-- TRACEMARK changes nothing the program sees. -/
theorem tracemark_quiet (f : Full) : QuietRow (.tracemark f) := fun s is h ha hw => by
  have hplace := placeKept_issued s (.tracemark f) is
  obtain ⟨hv, hs, hp, hj, hflags, hlanes⟩ := issued_regs s (.tracemark f) is
  have hvbad := issued_vbad s (.tracemark f) is
  have hu := (underway_issued h hw).traceGroup 0x30 is.g is.act f.c.immNat
  refine ⟨_, exec_ready (exec_tracemark f) h ha, quiet_regBody (fun _ x => x) h ha hu ?_ ?_ ?_ ?_⟩ <;> rw [traceGroup_group_at]
  · exact hlanes
  · exact fun r hr => hvbad ▸ hr
  · exact hplace
  · exact ⟨hv, hs, hp, hj, hflags⟩

theorem trace_off {s : State} {kind : Nat} {t : Team} {core slot : Nat} {lanes : Mask} {data : Nat} (h : traceOn s t.ctx kind = false) :
    trace s kind t core slot lanes data = s := by
  simp only [trace, h, Bool.not_false, if_true]

theorem trace_dropped {s : State} {kind : Nat} {t : Team} {core slot : Nat} {lanes : Mask} {data : Nat} (h : traceOn s t.ctx kind = true)
    (hfull : Config.traceFull s.dev.trfresh = true) : trace s kind t core slot lanes data = { s with dev := { s.dev with
      trfresh := s.dev.trfresh + 1
      drops := if s.dev.drops = BitVec.allOnes 32 then s.dev.drops else s.dev.drops + 1 } } := by
  simp only [trace, h, hfull, Bool.not_true, Bool.false_eq_true, if_false, if_true]

/-- The record of an event in the clear (R383). -/
def recordBytes (s : State) (kind : Nat) (t : Team) (core slot : Nat) (lanes : Mask) (data : Nat) : List Byte :=
  toBytes 8 (kind * 2 ^ 56 + t.ctx * 2 ^ 48 + core * 2 ^ 40 + slot * 2 ^ 35 + lanes.toNat) ++ toBytes 8 (s.core core).cycles ++
    toBytes 8 (t.tag * 2 ^ 48 + (match t.launch with | some l => (s.launch l).lseq | none => 0) % 2 ^ 48) ++ toBytes 8 data

theorem trace_recorded {s : State} {kind : Nat} {t : Team} {core slot : Nat} {lanes : Mask} {data : Nat} (h : traceOn s t.ctx kind = true)
    (hfull : Config.traceFull s.dev.trfresh = false) (hplain : (s.ctx t.ctx).sealed = false) (hplace : localRange s.dev (tracePlace s) 32 = true) :
    let u := trace s kind t core slot lanes data
    u.dev = { s.dev with trfresh := s.dev.trfresh + 1, twidx := s.dev.twidx + 1 } ∧
      u.mem = memWrite s.mem (homeAddr s.dev (tracePlace s)) (recordBytes s kind t core slot lanes data) := by
  rw [tracePlace] at hplace
  simp only [trace, h, hfull, hplain, hplace, Bool.not_true, Bool.false_eq_true, if_false, if_true, clearPoison, tracePlace, recordBytes, true_and]
    <;> rfl

/-- Where the mode leaves issues out, an issue leaves no record. -/
theorem issued_untraced {s : State} (h : wfield s.dev.trace 1 2 < 3) (i : Instr) (is : Iss) : (issued s i is).dev = s.dev ∧ (issued s i is).mem = s.mem := by
  have hoff : traceGroup (countIssue s (s.group is.g)) 0x01 is.g is.act is.a = countIssue s (s.group is.g) := by
    refine trace_off ?_
    have hmode : ¬ traceMode 0x01 ≤ wfield (countIssue s (s.group is.g)).dev.trace 1 2 := Nat.not_le.2 h
    simp only [traceOn, hmode, decide_false, Bool.and_false, Bool.false_and]
  rw [issued, hoff]
  exact ⟨rfl, rfl⟩

/-- With backing rows off an instruction that keeps registers writes no memory of its own. -/
theorem regBody_machine {s t : State} {i : Instr} {is : Iss} (h : Ready s i is) (ha : is.act ≠ 0) (hrback : wfield t.dev.rback 0 1 = 0)
    (hlanes : (t.group is.g).lanes = (s.group is.g).lanes) (hbad : (t.group is.g).vbad = (s.group is.g).vbad) :
    (regBody (fun _ x => x) is t).dev = t.dev ∧ (regBody (fun _ x => x) is t).mem = t.mem := by
  obtain ⟨hlive, hjoin⟩ := going_of_ready h ha (y := (t.group is.g).advance is.at_ is.a is.len) (advance_lanes_congr hlanes _ _ _)
    fun r hr => hbad ▸ hr
  rw [regBody_eq, post_live (by rwa [group_setGroup_same]) (by rwa [group_setGroup_same]), backRows_off (s := (t.setGroup _ _).setGroup _ _) hrback]
  exact ⟨rfl, rfl⟩

section
variable {f : Full} {s : State} {is : Iss} (h : Ready s (.tracemark f) is) (ha : is.act ≠ 0) (hrback : wfield s.dev.rback 0 1 = 0)
  (hmode : wfield s.dev.trace 1 2 < 3)
include h ha hrback hmode

/-- The effect of a TRACEMARK on the device and on memory is its trace event's. -/
theorem tracemark_event : ∃ t m, exec (.tracemark f) s = .next t ∧ TeamSame (s.team (s.group is.g).team) m ∧
    let u := trace (issued s (.tracemark f) is) 0x30 m (s.group is.g).core (s.group is.g).slot is.act f.c.immNat
    t.dev = u.dev ∧ t.mem = u.mem := by
  have hplace := placeKept_issued s (.tracemark f) is
  obtain ⟨-, -, -, -, -, hlanes⟩ := issued_regs s (.tracemark f) is
  obtain ⟨n, k, l, hdev⟩ : DevSame s (traceGroup (issued s (.tracemark f) is) 0x30 is.g is.act f.c.immNat) := by
    obtain ⟨n, k, l, e⟩ := trace_dev (issued s (.tracemark f) is) 0x30
      ((issued s (.tracemark f) is).team ((issued s (.tracemark f) is).group is.g).team) ((issued s (.tracemark f) is).group is.g).core
      ((issued s (.tracemark f) is).group is.g).slot is.act f.c.immNat
    exact ⟨n, k, l, by rw [traceGroup, e, (issued_untraced hmode _ is).1]⟩
  obtain ⟨hd, hm⟩ := regBody_machine (t := traceGroup (issued s (.tracemark f) is) 0x30 is.g is.act f.c.immNat) h ha (by rw [hdev]; exact hrback)
    (by rw [traceGroup_group_at]; exact hlanes) (by rw [traceGroup_group_at]; exact issued_vbad s _ is)
  refine ⟨_, (issued s (.tracemark f) is).team (s.group is.g).team, exec_ready (exec_tracemark f) h ha, issued_team s _ is _, ?_⟩
  rw [hd, hm, traceGroup, hplace.team, hplace.core, hplace.slot]
  exact ⟨rfl, rfl⟩

variable (hon : traceOn s (s.team (s.group is.g).team).ctx 0x30 = true)
include hon

/-- A TRACEMARK that the path refuses counts a drop (R383). -/
theorem tracemark_dropped (hfull : Config.traceFull s.dev.trfresh = true) : ∃ t, exec (.tracemark f) s = .next t ∧ t.dev.twidx = s.dev.twidx ∧
    t.mem = s.mem ∧ t.dev.drops = if s.dev.drops = BitVec.allOnes 32 then s.dev.drops else s.dev.drops + 1 := by
  obtain ⟨t, m, hexec, ⟨k, hteam⟩, hdev, hmem⟩ := tracemark_event h ha hrback hmode
  obtain ⟨hdev0, hmem0⟩ := issued_untraced hmode (.tracemark f) is
  rw [trace_dropped (by rw [hteam, traceOn, hdev0]; exact hon) (by rw [hdev0]; exact hfull)] at hdev hmem
  refine ⟨t, hexec, ?_, hmem.trans hmem0, ?_⟩ <;> rw [hdev, hdev0]

/-- A TRACEMARK that the path takes leaves its record in the ring (R383, R384). -/
theorem tracemark_recorded (hw : Memory.wf s.mem = true) (hfull : Config.traceFull s.dev.trfresh = false)
    (hplain : (s.ctx (s.team (s.group is.g).team).ctx).sealed = false) (hplace : localRange s.dev (tracePlace s) 32 = true) :
    ∃ t, exec (.tracemark f) s = .next t ∧ t.dev.twidx = s.dev.twidx + 1 ∧ t.dev.drops = s.dev.drops ∧
      memRead t.mem (homeAddr s.dev (tracePlace s)) 32 =
        recordBytes s 0x30 (s.team (s.group is.g).team) (s.group is.g).core (s.group is.g).slot is.act f.c.immNat := by
  obtain ⟨t, m, hexec, ⟨k, hteam⟩, hdev, hmem⟩ := tracemark_event h ha hrback hmode
  obtain ⟨hdev0, hmem0⟩ := issued_untraced hmode (.tracemark f) is
  obtain ⟨-, -, -, hctxs, hlaunches, -⟩ := issued_fields s (.tracemark f) is
  obtain ⟨n, l, hcore⟩ := issued_core s (.tracemark f) is (s.group is.g).core
  have hplace0 : tracePlace (issued s (.tracemark f) is) = tracePlace s := by rw [tracePlace, hdev0]; rfl
  have hrecord : recordBytes (issued s (.tracemark f) is) 0x30 m (s.group is.g).core (s.group is.g).slot is.act f.c.immNat =
      recordBytes s 0x30 (s.team (s.group is.g).team) (s.group is.g).core (s.group is.g).slot is.act f.c.immNat := by
    simp only [recordBytes, hcore, hteam, State.launch, hlaunches]
  obtain ⟨hud, hum⟩ := trace_recorded (kind := 0x30) (t := m) (core := (s.group is.g).core) (slot := (s.group is.g).slot) (lanes := is.act)
    (data := f.c.immNat) (by rw [hteam, traceOn, hdev0]; exact hon) (by rw [hdev0]; exact hfull)
    (by rw [hteam, State.ctx, hctxs]; exact hplain) (by rw [hplace0, hdev0]; exact hplace)
  rw [hud] at hdev
  rw [hum, hdev0, hplace0, hmem0, hrecord] at hmem
  refine ⟨t, hexec, by rw [hdev, hdev0], by rw [hdev, hdev0], ?_⟩
  rw [hmem]
  exact memRead_memWrite hw _ (recordBytes s 0x30 (s.team (s.group is.g).team) (s.group is.g).core (s.group is.g).slot is.act f.c.immNat)

end

-- The obligation ------------------------------------------------------------------------------------------------------------------------------

/-- A bound that is no bound is VRBOUND (R110, R376). -/
theorem grow_refused {f : Full} {s : State} {is : Iss} (h : Ready s (.rgrow f) is) (ha : is.act ≠ 0) {n : Nat}
    (hn : boundArg (s.group is.g) f.c = n) (hbad : n = 0 ∨ 256 < n) :
    exec (.rgrow f) s = .next (enterTrap (issued s (.rgrow f) is) is.g ⟨0x02, is.at_, wd n⟩ (is.len / 4) false is.a) := by
  obtain ⟨-, hs, -⟩ := issued_regs s (.rgrow f) is
  rw [exec_ready (exec_rgrow f) h ha, growEffect_bad ((boundArg_congr hs f.c).trans hn) hbad]

theorem shrink_refused {f : Full} {s : State} {is : Iss} (h : Ready s (.rshrink f) is) (ha : is.act ≠ 0) {n : Nat}
    (hn : boundArg (s.group is.g) f.c = n) (hbad : n = 0 ∨ 256 < n) :
    exec (.rshrink f) s = .next (enterTrap (issued s (.rshrink f) is) is.g ⟨0x02, is.at_, wd n⟩ (is.len / 4) false is.a) := by
  obtain ⟨-, hs, -⟩ := issued_regs s (.rshrink f) is
  have hno : (n == 0 || decide (256 < n)) = true := by simpa using hbad
  rw [exec_ready (exec_rshrink f) h ha, shrinkEffect]
  simp only [(boundArg_congr hs f.c).trans hn, hno, if_true]
  rfl

/-- A grow within the bound changes nothing (R109). -/
theorem grow_within {f : Full} {s : State} {is : Iss} (h : Ready s (.rgrow f) is) (ha : is.act ≠ 0) (hw : Memory.wf s.mem = true) {n : Nat}
    (hn : boundArg (s.group is.g) f.c = n) (h0 : 0 < n) (hle : n ≤ 256) (hwithin : n ≤ (s.group is.g).vbound) :
    ∃ t, exec (.rgrow f) s = .next t ∧ Quiet s t is := by
  have hplace := placeKept_issued s (.rgrow f) is
  obtain ⟨hv, hs, hp, hj, hflags, hlanes⟩ := issued_regs s (.rgrow f) is
  refine ⟨_, exec_ready (exec_rgrow f) h ha, ?_⟩
  rw [growEffect_within ((boundArg_congr hs f.c).trans hn) h0 hle (hplace.vbound ▸ hwithin)]
  exact quiet_regBody (fun _ x => x) h ha (underway_issued h hw) hlanes (fun r hr => issued_vbad s _ is ▸ hr) hplace ⟨hv, hs, hp, hj, hflags⟩

/-- A grow that is met at once is the effect of RGROW. -/
theorem exec_grow_met {f : Full} {s u : State} {is : Iss} (h : Ready s (.rgrow f) is) (ha : is.act ≠ 0) {n : Nat}
    (hn : boundArg (s.group is.g) f.c = n) (hle : n ≤ 256) (hlt : (s.group is.g).vbound < n)
    (hgrow : growNow (issued s (.rgrow f) is) is.g n = some u) : exec (.rgrow f) s = .next (regBody (fun _ x => x) is u) := by
  obtain ⟨-, hs, -⟩ := issued_regs s (.rgrow f) is
  rw [exec_ready (exec_rgrow f) h ha,
    growEffect_met ((boundArg_congr hs f.c).trans hn) hle ((placeKept_issued s (.rgrow f) is).vbound ▸ hlt) hgrow]

/-- Settles O21: each row's issue is what is proved above of its effect. -/
theorem boundsFetchAndShootdownRows : Obligations.BoundsFetchAndShootdownRows := by
  unfold Obligations.BoundsFetchAndShootdownRows
  refine ⟨fun f s is h ha hw => ?_, fun f s is h ha hw => ?_, fun f s is h ha hw => icsync_empties h ha hw, fun f s is h ha hw => ?_,
    tracemark_quiet, fun f s is h ha hw hrback => ?_⟩
  · have hn := boundArg_eq (s.group is.g) f.c
    refine ⟨grow_refused h ha hn, grow_within h ha hw hn, fun hle hlt habove => ?_, fun hle hlt habove helse => ?_, fun hle hlt habove helse => ?_⟩
    · obtain ⟨u, hgrow, hmet⟩ := grow_above h ha hw hle habove
      exact ⟨_, exec_grow_met h ha hn hle hlt hgrow, hmet⟩
    · obtain ⟨u, hgrow, hmet⟩ := grow_elsewhere h ha hw (Nat.zero_lt_of_lt hlt) hle habove helse
      exact ⟨_, exec_grow_met h ha hn hle hlt hgrow, hmet⟩
    · exact ⟨_, exec_ready (exec_rgrow f) h ha, grow_waits h hw hn (Nat.zero_lt_of_lt hlt) hle hlt habove helse⟩
  · have hn := boundArg_eq (s.group is.g) f.c
    exact ⟨shrink_refused h ha hn, fun h0 hle => ⟨_, exec_ready (exec_rshrink f) h ha, shrink_fits h ha hw hn h0 hle⟩⟩
  · exact ⟨tlbinv_noncanon h ha, tlbinv_shoots h ha hw⟩
  · intro x m tr n place lseq hen hlo hhi hmode hctx hplain hlocal
    have hon : traceOn s (s.team (s.group is.g).team).ctx 0x30 = true := by
      simp only [traceOn, Bool.and_eq_true, beq_iff_eq, decide_eq_true_eq]
      exact ⟨⟨⟨⟨hen, hlo⟩, hhi⟩, Nat.zero_le _⟩, hctx⟩
    exact ⟨fun hfull => tracemark_recorded h ha hrback hmode hon hw hfull hplain hlocal, tracemark_dropped h ha hrback hmode hon⟩

end Sys2Proof.BoundRows
end

section
/-! PROOFS. O44: the causes that the issue of an instruction meets before its effect (R350), and parity of registers and of PCV (R370). -/

namespace Sys2Proof.FirstCauses

open Machine Laws Safety InstructionEnd

/-- Each row of the table is issued, with an effect of its own. -/
theorem exec_row {i : Instr} (h : isRow i) : ∃ body, ∀ s, exec i s = issue i body s := by
  cases i <;> dsimp only [exec]
  all_goals first
    | exact absurd rfl h
    | exact ⟨_, fun _ => rfl⟩

-- The issue of an instruction that is due (R350) --------------------------------------------------------------------------------------------

/-- A group whose turn it is looks at PCV, at the causes of R350, and at the registers it reads, in that order. -/
theorem issue_due {s : State} {i : Instr} {is : Iss} (body : Iss → State → State) (h : Due s i is) : issue i body s = .next (
    if (s.group is.g).pcvBad then consumePcv s is.g else
    (precheck s is i).elim
      ((badRead (s.group is.g) i is.act).elim
        (if is.act = 0 then post ((issued s i is).setGroup is.g (((issued s i is).group is.g).advance is.at_ is.a is.len)) is.g
          else body is (issued s i is))
        (failedRead s is.g))
      fun t => enterTrap s is.g t (is.len / 4) false is.a) := by
  obtain ⟨g, a, len, at_, act, help⟩ := is
  obtain ⟨hg, hlt, hgo, hcore, hfree, haddr, hlen, hat, hact, hhelp⟩ := h
  simp only at hg haddr hlen hat hact hhelp
  subst hg hlen hat hact hhelp
  unfold issue
  rw [if_neg (by simp [hgo]; omega)]
  simp only [mayHold_of_mayIssue hfree, hcore, hfree, haddr, Bool.false_and, Bool.false_eq_true, if_false, Bool.not_true, Bool.true_or, Bool.or_self]
  split
  · rfl
  · split
    · rename_i t ht
      rw [ht]
      rfl
    · rename_i hnone
      rw [hnone]
      split
      · rename_i r hr
        rw [hr]
        rfl
      · rename_i hread
        rw [hread]
        exact (apply_ite Host.Outcome.next _ _ _).symm

section
variable {i : Instr} {s : State} {is : Iss} (hrow : isRow i) (h : Due s i is)
include hrow h

theorem exec_pcvBad (hpcv : (s.group is.g).pcvBad = true) : exec i s = .next (consumePcv s is.g) := by
  obtain ⟨body, hexec⟩ := exec_row hrow
  rw [hexec, issue_due body h, if_pos hpcv]

variable (hpcv : (s.group is.g).pcvBad = false)
include hpcv

theorem exec_precheck {t : Trap} (ht : precheck s is i = some t) : exec i s = .next (enterTrap s is.g t (is.len / 4) false is.a) := by
  obtain ⟨body, hexec⟩ := exec_row hrow
  rw [hexec, issue_due body h, if_neg (by rw [hpcv]; exact Bool.false_ne_true), ht, Option.elim_some]

theorem exec_badRead {r : Res} (hclear : precheck s is i = none) (hr : badRead (s.group is.g) i is.act = some r) :
    exec i s = .next (failedRead s is.g r) := by
  obtain ⟨body, hexec⟩ := exec_row hrow
  rw [hexec, issue_due body h, if_neg (by rw [hpcv]; exact Bool.false_ne_true), hclear, hr, Option.elim_none, Option.elim_some]

end

-- The causes in their order (R350) ------------------------------------------------------------------------------------------------------------

theorem minPc_eq_min : ∀ l : List Nat, minPc l = l.min?
  | [] => rfl
  | a :: l => by
    rw [minPc, minPc_eq_min l, List.min?_cons]
    cases l.min? with
    | none => rfl
    | some b => rfl

/-- The vector registers of an instruction at or beyond VBOUND. -/
theorem mem_beyond {x : Group} {i : Instr} {n : Nat} :
    n ∈ ((usesOf i).1 ++ (usesOf i).2).filterMap (fun r => match r with | .v n => if x.vbound ≤ n then some n else none | _ => none) ↔
      Res.v n ∈ (usesOf i).1 ++ (usesOf i).2 ∧ x.vbound ≤ n := by
  rw [List.mem_filterMap]
  constructor
  · rintro ⟨r, hr, hsome⟩
    split at hsome
    · split at hsome
      · cases hsome
        exact ⟨hr, ‹_›⟩
      · cases hsome
    · cases hsome
  · rintro ⟨hr, hle⟩
    exact ⟨_, hr, if_pos hle⟩

theorem beyondBound_some {x : Group} {i : Instr} {n : Nat} (hn : Res.v n ∈ (usesOf i).1 ++ (usesOf i).2) (hle : x.vbound ≤ n)
    (hleast : ∀ m, Res.v m ∈ (usesOf i).1 ++ (usesOf i).2 → x.vbound ≤ m → n ≤ m) : beyondBound x i = some n := by
  rw [beyondBound, minPc_eq_min, List.min?_eq_some_iff]
  exact ⟨mem_beyond.2 ⟨hn, hle⟩, fun m hm => hleast m (mem_beyond.1 hm).1 (mem_beyond.1 hm).2⟩

theorem beyondBound_none {x : Group} {i : Instr} (h : ∀ m, Res.v m ∈ (usesOf i).1 ++ (usesOf i).2 → m < x.vbound) : beyondBound x i = none := by
  rw [beyondBound, minPc_eq_min, List.min?_eq_none_iff, List.eq_nil_iff_forall_not_mem]
  exact fun m hm => Nat.not_le.2 (h m (mem_beyond.1 hm).1) (mem_beyond.1 hm).2

section
variable {i : Instr} {s : State} {is : Iss}

theorem converged_of (hconv : converges (opOf i) = true → (s.group is.g).live = is.at_) :
    (converges (opOf i) && decide ((s.group is.g).live ≠ is.at_)) = false := by
  cases hc : converges (opOf i) with
  | false => rfl
  | true => simp [hconv hc]

theorem precheck_ill (h : ¬ (Instr.wf i = true ∧ stateIll (s.group is.g) i = false)) : precheck s is i = some ⟨0x01, is.at_, illInfo (encode i)⟩ := by
  have hill : ((Instr.ill i).isSome || stateIll (s.group is.g) i) = true := by
    rw [Instr.wf, Option.isNone_iff_eq_none] at h
    cases hi : Instr.ill i with
    | none => simpa [hi] using h
    | some why => rfl
  simp only [precheck, hill, if_true]

variable (hlegal : Instr.wf i = true ∧ stateIll (s.group is.g) i = false)
include hlegal

theorem not_ill : ((Instr.ill i).isSome || stateIll (s.group is.g) i) = false := by
  obtain ⟨hwf, hstate⟩ := hlegal
  rw [hstate, Bool.or_false, ← Option.not_isNone, ← Instr.wf, hwf, Bool.not_true]

theorem precheck_bound {n : Nat} (hn : Res.v n ∈ (usesOf i).1 ++ (usesOf i).2) (hle : (s.group is.g).vbound ≤ n)
    (hleast : ∀ m, Res.v m ∈ (usesOf i).1 ++ (usesOf i).2 → (s.group is.g).vbound ≤ m → n ≤ m) :
    precheck s is i = some ⟨0x02, is.at_, wd n⟩ := by
  simp only [precheck, not_ill hlegal, Bool.false_eq_true, if_false, beyondBound_some hn hle hleast]

variable (hbound : ∀ m, Res.v m ∈ (usesOf i).1 ++ (usesOf i).2 → m < (s.group is.g).vbound)
include hbound

theorem precheck_converge (h : ¬ (converges (opOf i) = true → (s.group is.g).live = is.at_)) :
    precheck s is i = some ⟨0x03, is.at_, ((s.group is.g).live &&& ~~~is.at_).setWidth 64⟩ := by
  obtain ⟨hconv, hne⟩ := Classical.not_imp.1 h
  simp only [precheck, not_ill hlegal, Bool.false_eq_true, if_false, beyondBound_none hbound, hconv, hne, ne_eq, not_false_eq_true, decide_true,
    Bool.and_self, if_true]

variable (hconv : converges (opOf i) = true → (s.group is.g).live = is.at_)
include hconv

theorem precheck_nondet (hdet : (s.team (s.group is.g).team).det = true) (hi : nondet i = true) : precheck s is i = some ⟨0x0E, is.at_, 0⟩ := by
  simp only [precheck, not_ill hlegal, beyondBound_none hbound, converged_of hconv, hdet, hi, Bool.and_self, Bool.false_eq_true, if_false, if_true]

end

theorem precheck_tlbinv {f : Full} {s : State} {is : Iss} (hlegal : Instr.wf (.tlbinv f) = true ∧ stateIll (s.group is.g) (.tlbinv f) = false)
    (hbound : ∀ m, Res.v m ∈ (usesOf (.tlbinv f)).1 ++ (usesOf (.tlbinv f)).2 → m < (s.group is.g).vbound)
    (hpriv : wfield (s.team (s.group is.g).team).vec 1 1 = 0) :
    precheck s is (.tlbinv f) = some ⟨0x1A, is.at_, if f.xm = 0 then (s.group is.g).sreg f.b.num.toNat else 0⟩ := by
  have hdet : nondet (.tlbinv f) = false := rfl
  have hop : opOf (.tlbinv f) = 0xF6 := rfl
  simp only [precheck, not_ill hlegal, beyondBound_none hbound, hdet, Bool.and_false, Bool.false_eq_true, if_false, hop, hpriv,
    decide_true, Bool.and_self, if_true]
  rfl

-- Reads that fail parity (R370) ----------------------------------------------------------------------------------------------------------------

/-- A register element that the instruction reads has lost its parity. -/
def Lost (x : Group) (i : Instr) (act : Mask) (r : Res) (l : Nat) : Prop :=
  (r, l) ∈ x.vbad ∧ r ∈ (usesOf i).1 ∧ ((∃ n, r = .v n) → l < 32 ∧ (act.getLsbD l = true ∨ 0xA0 ≤ opOf i ∧ opOf i ≤ 0xA2))

theorem mem_readLanes {op l : Nat} {act : Mask} : (readLanes op act).getLsbD l = true ↔ l < 32 ∧ (act.getLsbD l = true ∨ 0xA0 ≤ op ∧ op ≤ 0xA2) := by
  rw [readLanes]
  by_cases h : 0xA0 ≤ op ∧ op ≤ 0xA2
  · rw [if_pos (by simpa using h), BitVec.getLsbD_allOnes, decide_eq_true_eq]
    exact ⟨fun hl => ⟨hl, .inr h⟩, And.left⟩
  · rw [if_neg (by simpa using h)]
    exact ⟨fun hl => ⟨BitVec.lt_of_getLsbD hl, .inl hl⟩, fun hl => hl.2.resolve_right h⟩

/-- The mark of an element stands in the way of a read of its register. -/
def lostBy (x : Group) (i : Instr) (act : Mask) (r : Res) : Bool :=
  x.vbad.any fun (q, l) => q == r && (match r with | .v _ => (readLanes (opOf i) act).getLsbD l | _ => true)

theorem lostBy_iff {x : Group} {i : Instr} {act : Mask} {r : Res} (hr : r ∈ (usesOf i).1) : lostBy x i act r = true ↔ ∃ l, Lost x i act r l := by
  rw [lostBy, List.any_eq_true]
  constructor
  · rintro ⟨⟨q, l⟩, hmem, hboth⟩
    simp only [Bool.and_eq_true, beq_iff_eq] at hboth
    obtain ⟨rfl, hlane⟩ := hboth
    refine ⟨l, hmem, hr, ?_⟩
    rintro ⟨n, rfl⟩
    exact mem_readLanes.1 hlane
  · rintro ⟨l, hmem, -, hlane⟩
    refine ⟨(r, l), hmem, ?_⟩
    cases r with
    | v n => simpa using mem_readLanes.2 (hlane ⟨n, rfl⟩)
    | _ => simp

/-- Where the marks that stand in the way are all of one register, that is the one found. -/
theorem badRead_some {x : Group} {i : Instr} {act : Mask} {r : Res} {l : Nat} (hact : act ≠ 0) (hlost : Lost x i act r l)
    (honly : ∀ q m, Lost x i act q m → q = r) : badRead x i act = some r := by
  have hfind : (usesOf i).1.find? (lostBy x i act) ≠ none := fun hnone =>
    List.find?_eq_none.1 hnone r hlost.2.1 ((lostBy_iff hlost.2.1).2 ⟨l, hlost⟩)
  obtain ⟨q, hq⟩ := Option.ne_none_iff_exists'.1 hfind
  have hmarks : x.vbad.isEmpty = false := by
    rw [List.isEmpty_eq_false_iff]
    exact List.ne_nil_of_mem hlost.1
  obtain ⟨m, hm⟩ := (lostBy_iff (List.mem_of_find?_eq_some hq)).1 (List.find?_some hq)
  rw [honly q m hm] at hq
  rw [badRead, hmarks, if_neg hact]
  exact hq

theorem failedRead_other {s : State} {g : Nat} {r : Res} (h : ∀ n, r ≠ .j n) : failedRead s g r =
    if Config.pick s.fresh then { s with fresh := s.fresh + 1 }.setGroup g { s.group g with vbad := (s.group g).vbad.filter fun p => p.1 != r }
    else consume { s with fresh := s.fresh + 1 } g 0x18 (2 ^ 63 + rowNumber (s.group g) r) := by
  cases r with
  | j n => exact absurd rfl (h n)
  | _ => rfl

-- Join registers that release reads (R154, R370) --------------------------------------------------------------------------------------------------

/-- Release would read a join register that fails parity. -/
def joinLost (x : Group) (n : Nat) : Prop :=
  (∃ l, (Res.j n, l) ∈ x.vbad) ∧ ∃ l, l < x.lanes.length ∧ (x.lane l).p = true ∧ (x.lane l).x = false ∧ (x.lane l).n = n

theorem badJoin_some {x : Group} {n : Nat} (hn : n < 4) (hlost : joinLost x n) (hleast : ∀ m, m < n → ¬ joinLost x m) : x.badJoin = some n := by
  have hiff : ∀ m, ((x.vbad.any fun (r, _) => r == .j m) && (List.range x.lanes.length).any fun l =>
      (x.lane l).p && !(x.lane l).x && (x.lane l).n == m) = true ↔ joinLost x m := fun m => by
    simp [joinLost, List.any_eq_true, and_assoc]
  obtain ⟨l, hl⟩ := hlost.1
  have hmarks : x.vbad.isEmpty = false := by
    rw [List.isEmpty_eq_false_iff]
    exact List.ne_nil_of_mem hl
  rw [Group.badJoin, hmarks]
  refine List.find?_range_eq_some.2 ⟨(hiff n).2 hlost, List.mem_range.2 hn, fun m hm => ?_⟩
  rw [Bool.not_eq_true']
  exact Bool.eq_false_iff.2 fun h => hleast m hm ((hiff m).1 h)

theorem joinLost_congr {x y : Group} {n : Nat} (hbad : y.vbad = x.vbad) (hlen : y.lanes.length = x.lanes.length)
    (hlane : ∀ l, (y.lane l).p = (x.lane l).p ∧ (y.lane l).x = (x.lane l).x ∧ (y.lane l).n = (x.lane l).n) : joinLost y n ↔ joinLost x n := by
  simp only [joinLost, hbad, hlen, fun l => (hlane l).1, fun l => (hlane l).2.1, fun l => (hlane l).2.2]

theorem joinLost_advance {x : Group} {m : Mask} {a len n : Nat} : joinLost (x.advance m a len) n ↔ joinLost x n := by
  refine joinLost_congr rfl (length_advance x m a len) fun l => ?_
  rw [lane_advance]
  split <;> exact ⟨rfl, rfl, rfl⟩

theorem post_badJoin {s : State} {g n : Nat} (h : (s.group g).badJoin = some n) : post s g = consume s g 0x18 (2 ^ 63 + Config.physRow 3 n) := by
  rw [post, h]
  rfl

/-- An instruction without effect that leaves release a join register that fails parity consumes poison behind it. -/
theorem nop_badJoin {s : State} {is : Iss} {n : Nat} (h : Due s .nopShort is) (hpcv : (s.group is.g).pcvBad = false)
    (hclear : precheck s is .nopShort = none) (hn : n < 4) (hlost : joinLost (s.group is.g) n)
    (hleast : ∀ m, m < n → ¬ joinLost (s.group is.g) m) :
    exec .nopShort s = .next (consume ((issued s .nopShort is).setGroup is.g (((issued s .nopShort is).group is.g).advance is.at_ is.a is.len))
      is.g 0x18 (2 ^ 63 + Config.physRow 3 n)) := by
  obtain ⟨-, -, -, -, -, hlanes⟩ := issued_regs s .nopShort is
  have hsame : ∀ m, joinLost (((issued s .nopShort is).group is.g).advance is.at_ is.a is.len) m ↔ joinLost (s.group is.g) m := fun m =>
    joinLost_advance.trans (joinLost_congr (issued_vbad s _ is) (congrArg _ hlanes) fun l => by simp only [Group.lane, hlanes, and_self])
  have hread : badRead (s.group is.g) .nopShort is.act = none := by
    have hnone : (if is.act = 0 then predRes (ctlOf? .nopShort) else (usesOf .nopShort).1) = [] := by split <;> rfl
    rw [badRead, hnone]
    exact ite_self _
  have hpost : post ((issued s .nopShort is).setGroup is.g (((issued s .nopShort is).group is.g).advance is.at_ is.a is.len)) is.g = _ :=
    post_badJoin (n := n) (by
      rw [group_setGroup_same]
      exact badJoin_some hn ((hsame n).2 hlost) fun m hm hm' => hleast m hm ((hsame m).1 hm'))
  have hexec : exec .nopShort s = issue .nopShort (regBody fun _ g => g) s := rfl
  rw [hexec, issue_due _ h, if_neg (by rw [hpcv]; exact Bool.false_ne_true), hclear, hread, Option.elim_none, Option.elim_none, regBody_eq, ite_self, hpost]

-- Strikes (R370) ------------------------------------------------------------------------------------------------------------------------------------

/-- The elements of registers that have a parity unit (log 51). -/
def isUnit (r : Res) (l : Nat) : Bool :=
  match r with
  | .v _ => decide (l < 32)
  | .s _ => l == 0
  | .p _ => l == 0
  | .j _ => l == 0
  | _ => false

theorem step_badReg {s : State} {g : Nat} {r : Res} {l : Nat} {rest : List Turn} (h : s.agenda = .badReg g r l :: rest) (hg : g < s.groups.length)
    (hgo : (s.group g).ended = false)
    (hfits : (∃ n, r = .v n) ∧ l < 32 ∨ (∃ n, r = .s n ∨ r = .p n ∨ r = .j n) ∧ l = 0) (hnew : (r, l) ∉ (s.group g).vbad) :
    step s = .next ({ s with agenda := rest }.setGroup g { s.group g with vbad := (s.group g).vbad ++ [(r, l)] }) := by
  have hunit : isUnit r l = true := by
    obtain ⟨⟨n, rfl⟩, hl⟩ | ⟨⟨n, rfl | rfl | rfl⟩, rfl⟩ := hfits
    · exact decide_eq_true hl
    all_goals rfl
  have hno : (decide (s.groups.length ≤ g) || (s.group g).ended || !isUnit r l || (s.group g).vbad.contains (r, l)) = false := by
    rw [hunit, hgo, List.contains_eq_mem, decide_eq_false hnew, decide_eq_false (Nat.not_le.2 hg)]
    rfl
  rw [Registers.step_turn h]
  exact congrArg _ (if_neg (by rw [Bool.not_eq_true]; exact hno))

theorem step_badPcv {s : State} {g : Nat} {rest : List Turn} (h : s.agenda = .badPcv g :: rest) (hg : g < s.groups.length)
    (hgo : (s.group g).ended = false) :
    step s = .next ({ s with agenda := rest }.setGroup g { s.group g with pcvBad := true }) := by
  have hno : (decide (s.groups.length ≤ g) || (s.group g).ended) = false := by
    rw [hgo, decide_eq_false (Nat.not_le.2 hg)]
    rfl
  rw [Registers.step_turn h]
  exact congrArg _ (if_neg (by rw [Bool.not_eq_true]; exact hno))

-- The marks that a write ends (R370) -----------------------------------------------------------------------------------------------------------------

/-- A write of register n of a run's file, in the lanes of a mask, renews the element. -/
def Renews (d : Reg) (m : Mask) (n : Nat) (r : Res) (l : Nat) : Prop := d.file = .v ∧ r = .v n ∧ m.getLsbD l = true ∨ d.file = .s ∧ r = .s n

theorem mem_putRun_vbad {d : Reg} {m : Mask} (hm : m ≠ 0) {r : Res} {l : Nat} : ∀ (rows : List (List Word)) (j : Nat) (g : Group),
    (r, l) ∈ (g.putRun d m j rows).vbad ↔
      (r, l) ∈ g.vbad ∧ ¬ ∃ n, d.num.toNat + j ≤ n ∧ n < d.num.toNat + j + rows.length ∧ Renews d m n r l
  | [], j, g => by
    refine ⟨fun h => ⟨h, ?_⟩, And.left⟩
    rintro ⟨n, hlo, hhi, -⟩
    exact absurd (hlo.trans_lt hhi) (lt_irrefl _)
  | row :: rows, j, g => by
    have hone : ∀ y : Group, ((r, l) ∈ y.vbad ↔ (r, l) ∈ g.vbad ∧ ¬ Renews d m (d.num.toNat + j) r l) →
        ((r, l) ∈ (y.putRun d m (j + 1) rows).vbad ↔ (r, l) ∈ g.vbad ∧
          ¬ ∃ n, d.num.toNat + j ≤ n ∧ n < d.num.toNat + j + (row :: rows).length ∧ Renews d m n r l) := fun y hy => by
      rw [mem_putRun_vbad hm rows (j + 1) y, hy, and_assoc, ← not_or]
      refine and_congr_right fun _ => not_congr ⟨?_, ?_⟩
      · rintro (h | ⟨n, hlo, hhi, h⟩)
        · exact ⟨_, le_rfl, by simp, h⟩
        · exact ⟨n, by omega, by rw [List.length_cons]; omega, h⟩
      · rintro ⟨n, hlo, hhi, h⟩
        rw [List.length_cons] at hhi
        obtain rfl | hlt := hlo.eq_or_lt
        · exact .inl h
        · exact .inr ⟨n, by omega, by omega, h⟩
    obtain ⟨low, hlow⟩ := lowLane_some hm
    rw [Group.putRun]
    refine hone _ ?_
    cases hd : d.file with
    | v =>
      simp only [Group.putV, Group.marksAfter, List.mem_filter, Renews, hd]
      simp only [Bool.not_eq_true', Bool.and_eq_false_imp, beq_iff_eq, Bool.not_eq_true, true_and, reduceCtorEq, false_and, or_false, not_and]
    | s =>
      simp only [hlow, Group.putS, Group.marksOff, List.mem_filter, Renews, hd]
      simp

/-- The effect of MOV on its group. -/
def moved (f : Full) (is : Iss) (x : Group) : Group := x.putRun f.d is.act 0 (x.run f.b)

theorem exec_mov (f : Full) (s : State) : exec (.mov f) s = issue (.mov f) (regBody (moved f)) s := rfl

/-- The runs of a legal MOV are of one width. -/
theorem mov_width {f : Full} {s : State} {is : Iss} (h : Ready s (.mov f) is) : f.d.wid = f.b.wid := by
  obtain ⟨-, hops⟩ := illFull_none (op := 0x20) (ill_of_ready h)
  replace hops : (f.d.meets .any && f.b.meets .any && f.d.wid == f.b.wid) = true := hops
  simp only [Bool.and_eq_true, beq_iff_eq] at hops
  exact hops.2

theorem mov_renews {f : Full} {s : State} {is : Iss} (h : Ready s (.mov f) is) (ha : is.act ≠ 0) (hw : Memory.wf s.mem = true) :
    ∃ t, exec (.mov f) s = .next t ∧ ∀ r l, (r, l) ∈ (t.group is.g).vbad ↔ (r, l) ∈ (s.group is.g).vbad ∧
      ¬ ∃ n, f.d.num.toNat ≤ n ∧ n < f.d.num.toNat + runLen f.d.wid ∧ Renews f.d is.act n r l := by
  have hplace := placeKept_issued s (.mov f) is
  obtain ⟨-, -, -, -, -, hlanes⟩ := issued_regs s (.mov f) is
  have hvbad := issued_vbad s (.mov f) is
  obtain ⟨v, w, b, hy, hb⟩ := putRun_fields f.d is.act (((issued s (.mov f) is).group is.g).run f.b) 0 ((issued s (.mov f) is).group is.g)
  replace hy : moved f is ((issued s (.mov f) is).group is.g) = _ := hy
  obtain ⟨hgroup, -⟩ := regBody_underway (moved f) h ha (underway_issued h hw) (by rw [hy]; exact hlanes)
    (by rw [hy]; exact fun r hr => hvbad ▸ hb r hr) (by rw [hy]; exact hplace.core) (by rw [hy]; exact hplace.slot)
    (.inr (by rw [hy]; exact hplace.vbound.le))
  refine ⟨_, exec_ready (exec_mov f) h ha, fun r l => ?_⟩
  have hmarks : ((regBody (moved f) is (issued s (.mov f) is)).group is.g).vbad = (moved f is ((issued s (.mov f) is).group is.g)).vbad := by
    rw [hgroup.1]
    rfl
  have hlen : (((issued s (.mov f) is).group is.g).run f.b).length = runLen f.d.wid := by
    rw [Group.run, List.length_map, List.length_range, mov_width h]
  rw [hmarks, moved, mem_putRun_vbad ha, hvbad, hlen, Nat.add_zero]

-- The obligation ------------------------------------------------------------------------------------------------------------------------------------

/-- Settles O44: the checks of an issue in their order, the reads that fail parity, release's read, and the marks that come and go. -/
theorem firstCauseIsTaken : Obligations.FirstCauseIsTaken := by
  unfold Obligations.FirstCauseIsTaken
  refine ⟨fun i s is hrow h => ?_, fun i s is r l hrow h => ?_, fun s is n h => ?_, fun s g r l rest => step_badReg, fun s g rest => step_badPcv,
    fun f s is h ha hw => mov_renews h ha hw⟩
  · refine ⟨exec_pcvBad hrow h, fun hpcv hill => exec_precheck hrow h hpcv (precheck_ill hill),
      fun n hpcv hlegal hn hle hleast => exec_precheck hrow h hpcv (precheck_bound hlegal hn hle hleast),
      fun hpcv hlegal hbound hconv => exec_precheck hrow h hpcv (precheck_converge hlegal hbound hconv),
      fun hpcv hlegal hbound hconv hdet hi => exec_precheck hrow h hpcv (precheck_nondet hlegal hbound hconv hdet hi), ?_⟩
    rintro f rfl hpcv hlegal hbound - hpriv
    exact exec_precheck hrow h hpcv (precheck_tlbinv hlegal hbound hpriv)
  · intro x lost hpcv hclear hact hlost honly t row
    have hread := exec_badRead hrow h hpcv hclear (badRead_some hact hlost honly)
    refine ⟨?_, fun hne => ?_⟩
    · rintro ⟨n, rfl⟩
      exact hread
    · rw [hread, failedRead_other hne]
      cases r <;> rfl
  · exact fun _ hpcv hclear hn hlost hleast => nop_badJoin h hpcv hclear hn hlost hleast

end Sys2Proof.FirstCauses
end

section
/-! PROOFS. The matrix array's baton (R289 to R292, R297, R120): what a grant changes, and that a grant goes before an issue or behind it alike. -/

namespace Sys2Proof.Baton

open Machine Laws Safety InstructionEnd EntryOutcomes

-- A grant ----------------------------------------------------------------------------------------------------------------------------------

/-- The array state that passes to a new holder (R120, R291). -/
def passedArray (s : State) (k g : Nat) : ArrayState :=
  let t := (s.group g).team
  let rule : ArrayState := match (s.core k).last with
    | none => {}
    | some (t', g') => if t' ≠ t then {} else if g' = g then (s.core k).array
      else { (s.core k).array with af := true, sf := true, hf := 0xFF }
  match (s.team t).array with
  | some (g', a) => if g' = g then a else rule
  | none => rule

/-- The teams after a grant: the state saved with a restored holder is the array's again. -/
def grantedTeams (s : State) (g : Nat) : List Team :=
  let t := (s.group g).team
  match (s.team t).array with
  | some (g', _) => if g' = g then setAt {} s.teams t { s.team t with array := none } else s.teams
  | none => s.teams

def grantedCore (s : State) (k g : Nat) : Core :=
  { s.core k with holder := some g, last := some ((s.group g).team, g), array := passedArray s k g }

theorem grantBaton_eq (s : State) (k g : Nat) :
    grantBaton s k g = retooled s (setAt {} s.cores k (grantedCore s k g)) (grantedTeams s g) := by
  have hrule : (match (s.core k).last with
      | some (t', g') => if t' = (s.group g).team then if g' = g then (s.core k).array
          else { (s.core k).array with af := true, sf := true, hf := 0xFF } else {}
      | none => ({} : ArrayState)) = (match (s.core k).last with
      | none => {}
      | some (t', g') => if t' ≠ (s.group g).team then {} else if g' = g then (s.core k).array
          else { (s.core k).array with af := true, sf := true, hf := 0xFF }) := by
    cases (s.core k).last with
    | none => rfl
    | some p => simp only [ne_eq, ite_not]
  cases harr : (s.team (s.group g).team).array with
  | none =>
    simp only [grantBaton, grantedCore, grantedTeams, passedArray, harr, Option.filter_none, ← hrule]
    rfl
  | some p =>
    by_cases hp : p.1 = g
    · have hfilter : Option.filter (fun q => q.1 == g) (some p) = some p := by simp [hp]
      simp only [grantBaton, grantedCore, grantedTeams, passedArray, harr, hfilter, hp, if_true]
      rfl
    · have hfilter : Option.filter (fun q => q.1 == g) (some p) = none := by simp [hp]
      simp only [grantBaton, grantedCore, grantedTeams, passedArray, harr, hfilter, hp, if_false, ← hrule]
      rfl

-- An issue -----------------------------------------------------------------------------------------------------------------------------------

/-- A record does not look at cores and teams but for a core's count of cycles and the launch, tag and context of its team. -/
theorem trace_retooled {s : State} {cs : List Core} {ts : List Team} {t t' : Team} {core : Nat} (kind slot : Nat) (lanes : Mask) (data : Nat)
    (hcycles : (getAt {} cs core).cycles = (s.core core).cycles) (hctx : t'.ctx = t.ctx) (hlaunch : t'.launch = t.launch) (htag : t'.tag = t.tag) :
    trace (retooled s cs ts) kind t' core slot lanes data = retooled (trace s kind t core slot lanes data) cs ts := by
  have hcore : ((retooled s cs ts).core core).cycles = (s.core core).cycles := hcycles
  have hon : traceOn (retooled s cs ts) t.ctx kind = traceOn s t.ctx kind := rfl
  have hdev : (retooled s cs ts).dev = s.dev := rfl
  simp only [trace, hctx, hlaunch, htag, hcore, hon, hdev]
  by_cases honT : traceOn s t.ctx kind = true
  · by_cases hfullT : Config.traceFull s.dev.trfresh = true
    · simp only [honT, hfullT, Bool.not_true, Bool.false_eq_true, if_false, if_true]
      rfl
    · by_cases hlocalT : localRange s.dev (wfield s.dev.trace 12 40 * 4096 + 32 * (s.dev.twidx % 2 ^ (wfield s.dev.trace 7 5 - 5))) 32 = true
      all_goals
        simp only [honT, hfullT, hlocalT, Bool.not_true, Bool.false_eq_true, if_false, if_true]
        rfl
  · simp only [honT, Bool.not_false, if_true]

/-- The team with a swap-out over, where another group of the core has issued (R121). -/
def countedTeam (core team : Nat) (t : Nat) (y : Team) : Team := if y.swapOff == some core && t != team then { y with swapOff := none } else y

def countedTeams (ts : List Team) (core team : Nat) : List Team := (List.range ts.length).map fun t => countedTeam core team t (getAt {} ts t)

def countedCore (c : Core) : Core := { c with issued := c.issued + 1, stall := 0 }

theorem countIssue_eq (s : State) (x : Group) :
    countIssue s x = retooled s (setAt {} s.cores x.core (countedCore (s.core x.core))) (countedTeams s.teams x.core x.team) := rfl

theorem length_countedTeams (ts : List Team) (core team : Nat) : (countedTeams ts core team).length = ts.length := by
  rw [countedTeams, List.length_map, List.length_range]

theorem getAt_countedTeams (ts : List Team) (core team : Nat) (k : Nat) :
    getAt {} (countedTeams ts core team) k = if k < ts.length then countedTeam core team k (getAt {} ts k) else {} := by
  by_cases hk : k < ts.length
  · rw [if_pos hk, countedTeams, getAt_map_range _ _ _ _ hk]
  · rw [if_neg hk, getAt_beyond _ _ _ (by rw [length_countedTeams]; exact Nat.not_lt.1 hk)]

/-- The issuing group's own team is as it was. -/
theorem getAt_countedTeams_own (ts : List Team) (core team : Nat) : getAt {} (countedTeams ts core team) team = getAt {} ts team := by
  have hown : countedTeam core team team (getAt {} ts team) = getAt {} ts team := if_neg (by simp)
  rw [getAt_countedTeams, hown]
  split
  · rfl
  · exact (getAt_beyond _ _ _ (by omega)).symm

theorem list_ext_getAt {α : Type} (d : α) {a b : List α} (hlen : a.length = b.length) (h : ∀ k, k < a.length → getAt d a k = getAt d b k) : a = b := by
  have hget : ∀ (l : List α) (k : Nat) (hk : k < l.length), getAt d l k = l[k] := fun l => by
    induction l with
    | nil => exact fun k hk => absurd hk (Nat.not_lt_zero k)
    | cons x l ih =>
      intro k hk
      cases k with
      | zero => rfl
      | succ k => exact ih k (by simpa using hk)
  refine List.ext_getElem hlen fun k h1 h2 => ?_
  rw [← hget a k h1, ← hget b k h2, h k h1]

/-- A change of the issuing group's own team goes before the count or behind it alike. -/
theorem countedTeams_setAt {ts : List Team} {core team : Nat} (hlt : team < ts.length) (y : Team) :
    countedTeams (setAt {} ts team y) core team = setAt {} (countedTeams ts core team) team y := by
  have hlen := length_setAt ({} : Team) y ts team hlt
  have hlen' := length_setAt ({} : Team) y (countedTeams ts core team) team (by rw [length_countedTeams]; exact hlt)
  refine list_ext_getAt {} (by rw [length_countedTeams, hlen, hlen', length_countedTeams]) fun k hk => ?_
  rw [length_countedTeams, hlen] at hk
  by_cases hkt : k = team
  · rw [hkt, getAt_countedTeams_own, getAt_setAt_same, getAt_setAt_same]
  · rw [getAt_setAt_other _ _ _ _ _ hkt, getAt_countedTeams, getAt_countedTeams, hlen, if_pos hk, if_pos hk, getAt_setAt_other _ _ _ _ _ hkt]

/-- The trace record of an issue. -/
def recorded (s : State) (is : Iss) : State :=
  trace s 0x01 (s.team (s.group is.g).team) (s.group is.g).core (s.group is.g).slot is.act is.a

/-- The issuing group past its own fetch. -/
def issuing (x : Group) (i : Instr) (is : Iss) : Group :=
  { (x.lookahead i is.a is.len).unbuffer is.a is.len with skipBrk := x.skipBrk.filter (· != is.a) }

theorem issued_eq (s : State) (i : Instr) (is : Iss) : issued s i is =
    (retooled (recorded s is) (setAt {} s.cores (s.group is.g).core (countedCore (s.core (s.group is.g).core)))
      (countedTeams s.teams (s.group is.g).core (s.group is.g).team)).setGroup is.g (issuing (s.group is.g) i is) := by
  have hteam : (countIssue s (s.group is.g)).team (s.group is.g).team = s.team (s.group is.g).team := getAt_countedTeams_own _ _ _
  have hgroup : (countIssue s (s.group is.g)).group is.g = s.group is.g := rfl
  rw [issued, traceGroup, hgroup, hteam, countIssue_eq, trace_retooled 0x01 _ is.act is.a (by rw [getAt_setAt_same]; rfl) rfl rfl rfl]
  rfl

theorem recorded_retooled {s : State} {cs : List Core} {ts : List Team} {is : Iss}
    (hcycles : (getAt {} cs (s.group is.g).core).cycles = (s.core (s.group is.g).core).cycles)
    (hteam : ∃ a, getAt {} ts (s.group is.g).team = { s.team (s.group is.g).team with array := a }) :
    recorded (retooled s cs ts) is = retooled (recorded s is) cs ts := by
  obtain ⟨a, ha⟩ := hteam
  have hown : (retooled s cs ts).team ((retooled s cs ts).group is.g).team = { s.team (s.group is.g).team with array := a } := ha
  refine trace_retooled (t := s.team (s.group is.g).team) 0x01 _ is.act is.a hcycles ?_ ?_ ?_ <;> rw [hown]

/-- The group of an instruction in the log, past its lanes. -/
def entering (x : Group) (i : Instr) (is : Iss) (e : Entry) : Group :=
  { (issuing x i is).advance is.at_ is.a is.len with log := [e] }

theorem entered_eq (s : State) (i : Instr) (f : Full) (is : Iss) : entered s i f is =
    (retooled (recorded s is) (setAt {} s.cores (s.group is.g).core (countedCore (s.core (s.group is.g).core)))
      (countedTeams s.teams (s.group is.g).core (s.group is.g).team)).setGroup is.g (entering (s.group is.g) i is (entryOf s i f is)) := by
  rw [entered, issued_eq, setGroup_setGroup, group_setGroup_same]
  rfl

/-- Other cores and teams, before the issue of an instruction or behind it. -/
theorem entered_retooled {s : State} {i : Instr} {f : Full} {is : Iss} {cs : List Core} {ts : List Team}
    (hcycles : (getAt {} cs (s.group is.g).core).cycles = (s.core (s.group is.g).core).cycles)
    (hteam : ∃ a, getAt {} ts (s.group is.g).team = { s.team (s.group is.g).team with array := a }) :
    entered (retooled s cs ts) i f is = retooled (entered s i f is)
      (setAt {} cs (s.group is.g).core (countedCore (getAt {} cs (s.group is.g).core))) (countedTeams ts (s.group is.g).core (s.group is.g).team) := by
  rw [entered_eq, recorded_retooled hcycles hteam, entered_eq]
  rfl

/-- What passes with the baton is told by the core's last holder and array and by the state saved with the group's team. -/
theorem passedArray_congr {s t : State} {k g : Nat} (hteam : (t.group g).team = (s.group g).team) (hlast : (t.core k).last = (s.core k).last)
    (harray : (t.core k).array = (s.core k).array) (hsaved : (t.team (s.group g).team).array = (s.team (s.group g).team).array) :
    passedArray t k g = passedArray s k g := by
  simp only [passedArray, hteam, hlast, harray, hsaved]

/-- The group's own team after a grant. -/
theorem grantedTeams_own (s : State) (g : Nat) :
    ∃ a, getAt {} (grantedTeams s g) (s.group g).team = { s.team (s.group g).team with array := a } := by
  rw [grantedTeams]
  split
  · split
    · exact ⟨none, getAt_setAt_same _ _ _ _⟩
    · exact ⟨_, rfl⟩
  · exact ⟨_, rfl⟩

theorem grantedTeams_counted {s t : State} {g core : Nat} (hteam : (t.group g).team = (s.group g).team)
    (hteams : t.teams = countedTeams s.teams core (s.group g).team) : grantedTeams t g = countedTeams (grantedTeams s g) core (s.group g).team := by
  have hown : t.team (s.group g).team = s.team (s.group g).team := by
    rw [State.team, hteams, getAt_countedTeams_own]
    rfl
  simp only [grantedTeams, hteam, hown]
  cases harr : (s.team (s.group g).team).array with
  | none => exact hteams
  | some p =>
    have hlt : (s.group g).team < s.teams.length := by
      by_contra hge
      rw [State.team, getAt_beyond _ _ _ (Nat.not_lt.1 hge)] at harr
      cases harr
    by_cases hp : p.1 = g
    · simp only [hp, if_true]
      rw [hteams, countedTeams_setAt hlt]
    · simp only [hp, if_false]
      exact hteams

/-- A grant to a group goes before the issue of its instruction or behind it alike. -/
theorem entered_grantBaton (s : State) (i : Instr) (f : Full) (is : Iss) :
    entered (grantBaton s (s.group is.g).core is.g) i f is = grantBaton (entered s i f is) (s.group is.g).core is.g := by
  have hgroup : ((entered s i f is).group is.g).team = (s.group is.g).team := by rw [entered_group]; rfl
  have hcore : (entered s i f is).core (s.group is.g).core = countedCore (s.core (s.group is.g).core) := by
    rw [State.core, entered_eq]
    exact getAt_setAt_same _ _ _ _
  have hteams : (entered s i f is).teams = countedTeams s.teams (s.group is.g).core (s.group is.g).team := by
    rw [entered_eq]
    rfl
  have hown : (entered s i f is).team (s.group is.g).team = s.team (s.group is.g).team := by
    rw [State.team, hteams, getAt_countedTeams_own]
    rfl
  have hpassed : passedArray (entered s i f is) (s.group is.g).core is.g = passedArray s (s.group is.g).core is.g :=
    passedArray_congr hgroup (by rw [hcore]; rfl) (by rw [hcore]; rfl) (by rw [hown])
  have hgranted : grantedCore (entered s i f is) (s.group is.g).core is.g = countedCore (grantedCore s (s.group is.g).core is.g) := by
    rw [grantedCore, hpassed, hgroup, hcore]
    rfl
  rw [grantBaton_eq, grantBaton_eq, entered_retooled (by rw [getAt_setAt_same]; rfl) (grantedTeams_own s is.g), getAt_setAt_same, setAt_setAt,
    hgranted, grantedTeams_counted hgroup hteams]
  congr 1
  rw [entered_eq]
  exact (setAt_setAt _ _ _ _ _).symm

theorem grantBaton_group (s : State) (k g h : Nat) : (grantBaton s k g).group h = s.group h := by rw [grantBaton_eq]; rfl

theorem grantBaton_core (s : State) (k g : Nat) : (grantBaton s k g).core k = grantedCore s k g := by
  rw [State.core, grantBaton_eq]
  exact getAt_setAt_same _ _ _ _

/-- A grant changes no more of a core than what its array holds, and no more of a team than what is saved of one. -/
theorem grantBaton_parts (s : State) (k g : Nat) :
    (grantBaton s k g).teams.length = s.teams.length ∧ (∀ n, ∃ a, (grantBaton s k g).team n = { s.team n with array := a }) ∧
    (∀ n, ∃ h l a, (grantBaton s k g).core n = { s.core n with holder := h, last := l, array := a }) := by
  refine ⟨?_, fun n => ?_, fun n => ?_⟩
  · have hteams : (grantBaton s k g).teams = grantedTeams s g := by rw [grantBaton_eq]; rfl
    rw [hteams, grantedTeams]
    split
    · rename_i p a harr
      split
      · refine length_setAt _ _ _ _ ?_
        by_contra hge
        rw [State.team, getAt_beyond _ _ _ (Nat.not_lt.1 hge)] at harr
        cases harr
      · rfl
    · rfl
  · have hteams : (grantBaton s k g).teams = grantedTeams s g := by rw [grantBaton_eq]; rfl
    by_cases hn : n = (s.group g).team
    · rw [State.team, hteams, hn]
      exact grantedTeams_own s g
    · refine ⟨(s.team n).array, ?_⟩
      rw [State.team, hteams, grantedTeams]
      split
      · split
        · rw [getAt_setAt_other _ _ _ _ _ hn]
          rfl
        · rfl
      · rfl
  · by_cases hn : n = k
    · rw [hn, grantBaton_core]
      exact ⟨_, _, _, rfl⟩
    · refine ⟨(s.core n).holder, (s.core n).last, (s.core n).array, ?_⟩
      rw [State.core, grantBaton_eq]
      exact getAt_setAt_other _ _ _ _ _ hn

theorem onCore_grantBaton (s : State) (k g : Nat) (x : Group) : onCore (grantBaton s k g) x = onCore s x := by
  obtain ⟨hlen, hteam, hcore⟩ := grantBaton_parts s k g
  obtain ⟨h, l, a, hc⟩ := hcore x.core
  have hdev : (grantBaton s k g).dev = s.dev := by rw [grantBaton_eq]; rfl
  have hctx : ∀ n, (grantBaton s k g).ctx n = s.ctx n := fun n => by rw [grantBaton_eq]; rfl
  have hplace : ∀ n, ((grantBaton s k g).team n).place = (s.team n).place := fun n => by obtain ⟨a, ha⟩ := hteam n; rw [ha]
  have hteamCore : ∀ n, ((grantBaton s k g).team n).core = (s.team n).core := fun n => by obtain ⟨a, ha⟩ := hteam n; rw [ha]
  have hteamCtx : ∀ n, ((grantBaton s k g).team n).ctx = (s.team n).ctx := fun n => by obtain ⟨a, ha⟩ := hteam n; rw [ha]
  simp only [onCore, coreHalted, sealedHere, teamIds, hlen, hplace, hteamCore, hteamCtx, hctx, hdev, hc]

/-- A group ready to issue stays so with the baton in hand. -/
theorem ready_grantBaton {s : State} {i : Instr} {is : Iss} (h : Ready s i is) (k : Nat) : Ready (grantBaton s k is.g) i is := by
  obtain ⟨hg, hlt, hgo, hcore, hfree, haddr, hlen, hat, hact, hhelp, hclear, hsound, hclean, hjoins⟩ := h
  have hcur : (grantBaton s k is.g).cur = s.cur := by rw [grantBaton_eq]; rfl
  have hgroups : (grantBaton s k is.g).groups = s.groups := by rw [grantBaton_eq]; rfl
  have hgroup := grantBaton_group s k is.g
  refine ⟨by rw [hcur]; exact hg, by rw [hcur, hgroups]; exact hlt, ?_, by rw [onCore_grantBaton, hcur, hgroup]; exact hcore, ?_, ?_, hlen, ?_, ?_, ?_, ?_, ?_, ?_, ?_⟩
  case refine_7 =>
    obtain ⟨a, ha⟩ := (grantBaton_parts s k is.g).2.1 (s.group is.g).team
    simpa only [precheck, hgroup, ha] using hclear
  all_goals
    rw [hcur, hgroup]
    assumption

-- The rows that take the baton ---------------------------------------------------------------------------------------------------------------

/-- A matrix instruction: a logged one that is performed with the baton (R290). -/
structure TakesBaton (i : Instr) (f : Full) : Prop where
  logs  : ∀ s, exec i s = issue i (issueLogged i f) s
  later : passesFault (opOf i) = false
  takes : ∀ g e, e.instr = i → ∃ body, ∀ s, performEntry g e s = withBaton g e s body

theorem takesBaton_of_mem {i : Instr} {f : Full}
    (h : i ∈ [Instr.mtake f, .mwld f, .mswap f, .mma f, .mmat f, .mdrain f, .mzero f, .mhrd f, .mprg f]) : TakesBaton i f := by
  simp only [List.mem_cons, List.not_mem_nil, or_false] at h
  rcases h with rfl | rfl | rfl | rfl | rfl | rfl | rfl | rfl | rfl
  all_goals exact ⟨fun _ => rfl, rfl, fun g e he => ⟨_, fun s => by rw [performEntry, he]; rfl⟩⟩

section
variable {g : Nat} {e : Entry} {s : State} (body : State → Perf)

theorem withBaton_held (h : (s.core (s.group g).core).holder = some g) : withBaton g e s body = body s := if_pos h

theorem withBaton_free (h : (s.core (s.group g).core).holder = none) (hq : (s.core (s.group g).core).queue = []) :
    withBaton g e s body = body (grantBaton s (s.group g).core g) := by
  simp only [withBaton, h, hq, reduceCtorEq, if_false, Option.isNone_none, List.isEmpty_nil, Bool.and_self, if_true]

theorem withBaton_waits (hno : (s.core (s.group g).core).holder ≠ some g)
    (h : (s.core (s.group g).core).holder ≠ none ∨ (s.core (s.group g).core).queue ≠ []) : withBaton g e s body =
      .wait (s.setCore (s.group g).core { s.core (s.group g).core with queue := uni (s.core (s.group g).core).queue [g] }) .baton e := by
  have hfree : ((s.core (s.group g).core).holder.isNone && (s.core (s.group g).core).queue.isEmpty) = false := by
    rw [Bool.and_eq_false_iff, Option.isNone_eq_false_iff, List.isEmpty_eq_false_iff, Option.isSome_iff_ne_none]
    exact h
  simp only [withBaton, if_neg hno, hfree, Bool.false_eq_true, if_false]

end

/-- The core of a group whose instruction has entered the log. -/
theorem entered_core (s : State) (i : Instr) (f : Full) (is : Iss) :
    (entered s i f is).core (s.group is.g).core = countedCore (s.core (s.group is.g).core) := by
  rw [State.core, entered_eq]
  exact getAt_setAt_same _ _ _ _

theorem entered_place (s : State) (i : Instr) (f : Full) (is : Iss) :
    ((entered s i f is).group is.g).core = (s.group is.g).core ∧ ((entered s i f is).group is.g).team = (s.group is.g).team :=
  ⟨(placeKept_entered s i f is).core, (placeKept_entered s i f is).team⟩

theorem entered_saved {s : State} {i : Instr} {is : Iss} (h : Ready s i is) (hw : Memory.wf s.mem = true) (f : Full) (n : Nat) :
    ((entered s i f is).team n).array = (s.team n).array := by
  obtain ⟨k, hteam⟩ := (underway_entered (f := f) h hw).machine.teams.2 n
  rw [hteam]

/-- What would pass to a group of the core is the same before the issue and behind it. -/
theorem entered_passed {s : State} {i : Instr} {is : Iss} (h : Ready s i is) (hw : Memory.wf s.mem = true) (f : Full) (g : Nat) :
    passedArray (entered s i f is) (s.group is.g).core g = passedArray s (s.group is.g).core g := by
  have hu := underway_entered (f := f) h hw
  have hteam : ((entered s i f is).group g).team = (s.group g).team := by
    by_cases hg : g = is.g
    · rw [hg]
      exact (entered_place s i f is).2
    · rw [hu.groups.2 g hg]
  exact passedArray_congr hteam (by rw [entered_core]; rfl) (by rw [entered_core]; rfl) (entered_saved h hw f _)

theorem runEntries_congr {s u : State} {g : Nat} {e : Entry} {rest : List Entry} (hlog : (s.group g).log = e :: rest) (hgroup : u.group g = s.group g)
    (hperf : performEntry g e u = performEntry g e s) : runEntries u g = runEntries s g := by
  show runLog g 9 u = runLog g 9 s
  simp only [runLog, hgroup, hlog, hperf]

section
variable {s : State} {i : Instr} {f : Full} {is : Iss} (hi : TakesBaton i f) (h : Ready s i is) (ha : is.act ≠ 0)
include hi h ha

theorem exec_takes : exec i s = .next (post (runEntries (entered s i f is) is.g) is.g) := by
  rw [exec_ready hi.logs h ha, issueLogged_entered f h hi.later]

/-- A free baton is taken, and then the instruction does what it does for a holder (R290). -/
theorem exec_free (hfree : (s.core (s.group is.g).core).holder = none) (hq : (s.core (s.group is.g).core).queue = []) :
    exec i s = exec i (grantBaton s (s.group is.g).core is.g) := by
  obtain ⟨body, hbody⟩ := hi.takes is.g (entryOf s i f is) rfl
  obtain ⟨hcore, -⟩ := entered_place s i f is
  have hgroup := grantBaton_group (entered s i f is) (s.group is.g).core is.g is.g
  have hfree' : performEntry is.g (entryOf s i f is) (entered s i f is) = body (grantBaton (entered s i f is) (s.group is.g).core is.g) := by
    rw [hbody, withBaton_free body (by rw [hcore, entered_core]; exact hfree) (by rw [hcore, entered_core]; exact hq), hcore]
  have hheld : performEntry is.g (entryOf s i f is) (grantBaton (entered s i f is) (s.group is.g).core is.g) =
      body (grantBaton (entered s i f is) (s.group is.g).core is.g) := by
    rw [hbody, withBaton_held body (by rw [hgroup, hcore, grantBaton_core]; rfl)]
  rw [exec_takes hi h ha, exec_takes hi (ready_grantBaton h _) ha, entered_grantBaton,
    runEntries_congr (entered_log s i f is) hgroup (hheld.trans hfree'.symm)]

/-- For a held or awaited baton the instruction queues, its entry waiting (R290). -/
theorem exec_queues (hw : Memory.wf s.mem = true) (hno : (s.core (s.group is.g).core).holder ≠ some is.g)
    (hnew : is.g ∉ (s.core (s.group is.g).core).queue)
    (hbusy : (s.core (s.group is.g).core).holder ≠ none ∨ (s.core (s.group is.g).core).queue ≠ []) : ∃ t, exec i s = .next t ∧
      t.core (s.group is.g).core = { countedCore (s.core (s.group is.g).core) with queue := (s.core (s.group is.g).core).queue ++ [is.g] } ∧
      (t.group is.g).wait = .baton ∧ (t.group is.g).log = [entryOf s i f is] ∧ Left s t is := by
  obtain ⟨body, hbody⟩ := hi.takes is.g (entryOf s i f is) rfl
  obtain ⟨hcore, -⟩ := entered_place s i f is
  have hown := entered_core s i f is
  have hperf : performEntry is.g (entryOf s i f is) (entered s i f is) = .wait (retooled (entered s i f is) (setAt {} (entered s i f is).cores
      (s.group is.g).core { countedCore (s.core (s.group is.g).core) with queue := (s.core (s.group is.g).core).queue ++ [is.g] })
      (entered s i f is).teams) .baton (entryOf s i f is) := by
    have hqueue : uni (s.core (s.group is.g).core).queue [is.g] = (s.core (s.group is.g).core).queue ++ [is.g] := by
      simp [uni, hnew]
    rw [hbody, withBaton_waits body (by rw [hcore, hown]; exact hno) (by rw [hcore, hown]; exact hbusy), hcore, hown, ← hqueue]
    rfl
  obtain ⟨hcores, -, hwait, hlog, hleft⟩ := staying_left (f := f) h ha hw (setAt {} (entered s i f is).cores (s.group is.g).core
    { countedCore (s.core (s.group is.g).core) with queue := (s.core (s.group is.g).core).queue ++ [is.g] }) (entered s i f is).teams
    [entryOf s i f is] .baton
  refine ⟨_, ?_, ?_, hwait, hlog, hleft⟩
  · rw [exec_ready hi.logs h ha, issueLogged_wait h hi.later hperf]
    exact congrArg (Host.Outcome.next <| post · is.g) (putHead_staying rfl (entered_log s i f is))
  · rw [State.core, hcores, getAt_setAt_same]

end

end Sys2Proof.Baton
end

section
/-! PROOFS. O34: MTAKE, MPASS and MSWAP (R297, R299), MHRD and MPRG (R304). -/

namespace Sys2Proof.BatonRows

open Machine Laws Safety InstructionEnd EntryOutcomes Baton

-- An entry performed at issue that completes -------------------------------------------------------------------------------------------------

section
variable {s : State} {i : Instr} {f : Full} {is : Iss} (hlogs : ∀ s, exec i s = issue i (issueLogged i f) s) (hlater : passesFault (opOf i) = false)
  (h : Ready s i is) (ha : is.act ≠ 0)
include hlogs hlater h ha

theorem exec_last {u : State} (hperf : performEntry is.g (entryOf s i f is) (entered s i f is) = .done u)
    (hgroup : u.group is.g = (entered s i f is).group is.g) :
    exec i s = .next (post (u.setGroup is.g (staying ((entered s i f is).group is.g) [] .none)) is.g) := by
  rw [exec_ready hlogs h ha, issueLogged_last h hlater hperf hgroup]

variable (hw : Memory.wf s.mem = true)
include hw

theorem exec_done {cs : List Core} {ts : List Team}
    (hperf : performEntry is.g (entryOf s i f is) (entered s i f is) = .done (retooled (entered s i f is) cs ts)) :
    ∃ t, exec i s = .next t ∧ t.cores = cs ∧ t.teams = ts ∧ Left s t is := by
  obtain ⟨hcores, hteams, -, -, hleft⟩ := staying_left (f := f) h ha hw cs ts [] .none
  exact ⟨_, exec_last hlogs hlater h ha hperf rfl, hcores, hteams, hleft⟩

theorem exec_done_quiet (hperf : performEntry is.g (entryOf s i f is) (entered s i f is) = .done (entered s i f is)) :
    ∃ t, exec i s = .next t ∧ Quiet s t is := by
  have hu := underway_entered (f := f) h hw
  have hplace := placeKept_entered s i f is
  obtain ⟨hidle, hempty⟩ := ready_idle h hlater
  obtain ⟨hend, hwait, hlog, hregs, hlanes, hkept⟩ := staying_ended (f := f) h ha (entered s i f is) [] .none
  have hmoved := hu.setGroup (ready_lt h) (staying ((entered s i f is).group is.g) [] .none)
  have hframe := hmoved.ended hend (hmoved.backByte (by rw [group_setGroup_same]; exact hplace.core) (by rw [group_setGroup_same]; exact hplace.slot)
    (.inr (by rw [group_setGroup_same]; exact hplace.vbound.le)))
  exact ⟨_, exec_last hlogs hlater h ha hperf rfl, hregs, hlanes, { hkept with wait := hwait.trans hidle.symm, log := hlog.trans hempty.symm },
    hframe.groups, hframe.machine, hframe.mem⟩

end

-- MTAKE (R297) ---------------------------------------------------------------------------------------------------------------------------------

theorem performEntry_mtake {g : Nat} {e : Entry} {f : Full} (he : e.instr = .mtake f) (s : State) :
    performEntry g e s = withBaton g e s .done := by
  rw [performEntry, he]
  rfl

section
variable {f : Full} {s : State} {is : Iss} (h : Ready s (.mtake f) is) (ha : is.act ≠ 0) (hw : Memory.wf s.mem = true)
include h ha hw

/-- The holder keeps the baton. -/
theorem mtake_held (hheld : (s.core (s.group is.g).core).holder = some is.g) : ∃ t, exec (.mtake f) s = .next t ∧ Quiet s t is := by
  refine exec_done_quiet (fun _ => rfl) rfl h ha hw ?_
  rw [performEntry_mtake rfl, withBaton_held]
  rw [(entered_place s _ f is).1, entered_core]
  exact hheld

/-- A free baton is taken, with the array state that passes. -/
theorem mtake_free (hfree : (s.core (s.group is.g).core).holder = none) (hq : (s.core (s.group is.g).core).queue = []) :
    ∃ t, exec (.mtake f) s = .next t ∧ (t.core (s.group is.g).core).holder = some is.g ∧
      (t.core (s.group is.g).core).array = passedArray s (s.group is.g).core is.g ∧ Left s t is := by
  obtain ⟨hcore, hteam⟩ := entered_place s (.mtake f) f is
  have hown := entered_core s (.mtake f) f is
  have hperf : performEntry is.g (entryOf s (.mtake f) f is) (entered s (.mtake f) f is) =
      .done (grantBaton (entered s (.mtake f) f is) (s.group is.g).core is.g) := by
    rw [performEntry_mtake rfl, withBaton_free _ (by rw [hcore, hown]; exact hfree) (by rw [hcore, hown]; exact hq), hcore]
  rw [grantBaton_eq] at hperf
  obtain ⟨t, hexec, hcores, -, hleft⟩ := exec_done (fun _ => rfl) rfl h ha hw hperf
  have hat : t.core (s.group is.g).core = grantedCore (entered s (.mtake f) f is) (s.group is.g).core is.g := by
    rw [State.core, hcores, getAt_setAt_same]
  have hpassed : passedArray (entered s (.mtake f) f is) (s.group is.g).core is.g = passedArray s (s.group is.g).core is.g :=
    entered_passed h hw f is.g
  exact ⟨t, hexec, by rw [hat]; rfl, by rw [hat, grantedCore, hpassed], hleft⟩

end

-- MPASS (R297, R120) -------------------------------------------------------------------------------------------------------------------------------

theorem performEntry_mpass {g : Nat} {e : Entry} {f : Full} (he : e.instr = .mpass f) (s : State) :
    performEntry g e s = .done (giveUp s (s.group g).core g) := by
  rw [performEntry, he]
  rfl

section
variable {s : State} {k g : Nat}

theorem savedArray_none (h : ∀ a, (s.team (s.group g).team).array ≠ some (g, a)) : savedArray s g = none := by
  rw [savedArray, Option.map_eq_none_iff, Option.filter_eq_none_iff]
  rintro ⟨g', a⟩ ha hg
  rw [beq_iff_eq] at hg
  exact h a (hg ▸ ha)

theorem savedArray_some {a : ArrayState} (h : (s.team (s.group g).team).array = some (g, a)) : savedArray s g = some a := by
  simp [savedArray, h]

theorem giveUp_none (hno : (s.core k).holder ≠ some g) (h : ∀ a, (s.team (s.group g).team).array ≠ some (g, a)) : giveUp s k g = s := by
  simp only [giveUp, if_neg hno, savedArray_none h, Option.isNone_none, if_true]

theorem giveUp_saved {a : ArrayState} (hno : (s.core k).holder ≠ some g) (h : (s.team (s.group g).team).array = some (g, a)) :
    giveUp s k g = retooled s (setAt {} s.cores k { s.core k with queue := (s.core k).queue.filter (· != g) })
      (setAt {} s.teams (s.group g).team { s.team (s.group g).team with array := none }) := by
  simp only [giveUp, if_neg hno, savedArray_some h, Option.isNone_some, Bool.false_eq_true, if_false]
  rfl

theorem passBaton_nil (h : (s.core k).queue = []) : passBaton s k = retooled s (setAt {} s.cores k { s.core k with holder := none }) s.teams := by
  simp only [passBaton, h]
  rfl

/-- The head of the queue takes the baton. -/
theorem passBaton_cons {q : List Nat} (h : (s.core k).queue = g :: q) : ∃ ts, passBaton s k = retooled s (setAt {} s.cores k { s.core k with
    holder := some g, queue := q, last := some ((s.group g).team, g), array := passedArray s k g }) ts := by
  have hpass : passBaton s k = grantBaton (s.setCore k { s.core k with holder := none, queue := q }) k g := by simp only [passBaton, h]
  have hpassed : passedArray (s.setCore k { s.core k with holder := none, queue := q }) k g = passedArray s k g :=
    passedArray_congr rfl (by rw [core_setCore_same]) (by rw [core_setCore_same]) rfl
  have hcores : setAt {} (s.setCore k { s.core k with holder := none, queue := q }).cores k
      (grantedCore (s.setCore k { s.core k with holder := none, queue := q }) k g) = setAt {} s.cores k { s.core k with
        holder := some g, queue := q, last := some ((s.group g).team, g), array := passedArray s k g } := by
    rw [grantedCore, hpassed, core_setCore_same]
    exact setAt_setAt _ _ _ _ _
  refine ⟨grantedTeams (s.setCore k { s.core k with holder := none, queue := q }) g, ?_⟩
  rw [hpass, grantBaton_eq, hcores]
  rfl

end

theorem perform_mpass (f : Full) (s : State) (is : Iss) : performEntry is.g (entryOf s (.mpass f) f is) (entered s (.mpass f) f is) =
    .done (giveUp (entered s (.mpass f) f is) (s.group is.g).core is.g) := by
  rw [performEntry_mpass rfl, (entered_place s _ f is).1]

section
variable {f : Full} {s : State} {is : Iss} (h : Ready s (.mpass f) is) (ha : is.act ≠ 0) (hw : Memory.wf s.mem = true)
include h ha hw

/-- A group that neither holds the baton nor was restored with an array state passes nothing. -/
theorem mpass_none (hno : (s.core (s.group is.g).core).holder ≠ some is.g)
    (hsaved : ∀ a, (s.team (s.group is.g).team).array ≠ some (is.g, a)) : ∃ t, exec (.mpass f) s = .next t ∧ Quiet s t is := by
  refine exec_done_quiet (fun _ => rfl) rfl h ha hw ?_
  rw [perform_mpass, giveUp_none]
  · rw [entered_core]
    exact hno
  · rw [(entered_place s _ f is).2, entered_saved h hw]
    exact hsaved

/-- A restored holder that has not got the baton back leaves the queue and loses its state (R120). -/
theorem mpass_saved {a : ArrayState} (hno : (s.core (s.group is.g).core).holder ≠ some is.g)
    (hsaved : (s.team (s.group is.g).team).array = some (is.g, a)) : ∃ t, exec (.mpass f) s = .next t ∧
      (t.core (s.group is.g).core).holder = (s.core (s.group is.g).core).holder ∧
      (t.core (s.group is.g).core).queue = (s.core (s.group is.g).core).queue.filter (· != is.g) ∧
      (t.team (s.group is.g).team).array = none ∧ Left s t is := by
  have hperf := perform_mpass f s is
  rw [giveUp_saved (by rw [entered_core]; exact hno) (by rw [(entered_place s _ f is).2, entered_saved h hw]; exact hsaved)] at hperf
  obtain ⟨t, hexec, hcores, hteams, hleft⟩ := exec_done (fun _ => rfl) rfl h ha hw hperf
  rw [(entered_place s _ f is).2] at hteams
  rw [entered_core] at hcores
  refine ⟨t, hexec, ?_, ?_, ?_, hleft⟩
  · rw [State.core, hcores, getAt_setAt_same]
    rfl
  · rw [State.core, hcores, getAt_setAt_same]
    rfl
  · rw [State.team, hteams, getAt_setAt_same]

/-- The holder passes the baton to the head of the queue, with the array state that passes, or leaves it free (R297). -/
theorem mpass_holder (hheld : (s.core (s.group is.g).core).holder = some is.g) :
    let k := (s.group is.g).core
    ∃ t, exec (.mpass f) s = .next t ∧ (t.core k).holder = (s.core k).queue.head? ∧ (t.core k).queue = (s.core k).queue.drop 1 ∧
      (∀ g, (s.core k).queue.head? = some g → (t.core k).array = passedArray s k g) ∧
      ((s.core k).queue = [] → (t.core k).array = (s.core k).array ∧ (t.core k).last = (s.core k).last) ∧ Left s t is := by
  intro k
  have hown := entered_core s (.mpass f) f is
  have hperf := perform_mpass f s is
  have hgive : giveUp (entered s (.mpass f) f is) k is.g = passBaton (entered s (.mpass f) f is) k := if_pos (by rw [hown]; exact hheld)
  rw [hgive] at hperf
  cases hq : (s.core k).queue with
  | nil =>
    rw [passBaton_nil (by rw [hown]; exact hq), hown] at hperf
    obtain ⟨t, hexec, hcores, -, hleft⟩ := exec_done (fun _ => rfl) rfl h ha hw hperf
    have hcore : t.core k = { countedCore (s.core k) with holder := none } := by rw [State.core, hcores, getAt_setAt_same]
    refine ⟨t, hexec, ?_⟩
    rw [hcore]
    exact ⟨rfl, hq, fun g hg => (by cases hg), fun _ => ⟨rfl, rfl⟩, hleft⟩
  | cons g q =>
    obtain ⟨ts, hpass⟩ := passBaton_cons (s := entered s (.mpass f) f is) (k := k) (g := g) (by rw [hown]; exact hq)
    rw [hpass, hown, entered_passed h hw f g] at hperf
    obtain ⟨t, hexec, hcores, -, hleft⟩ := exec_done (fun _ => rfl) rfl h ha hw hperf
    have hcore := congrArg (getAt {} · k) hcores
    rw [getAt_setAt_same] at hcore
    replace hcore : t.core k = _ := hcore
    refine ⟨t, hexec, ?_⟩
    rw [hcore]
    refine ⟨rfl, rfl, fun g' hg' => ?_, fun hnil => absurd hnil (List.cons_ne_nil _ _), hleft⟩
    cases hg'
    rfl

end

-- MSWAP, MPRG (R299, R304) -----------------------------------------------------------------------------------------------------------------------

/-- With the baton an instruction that changes the array's state alone. -/
theorem exec_setArray {i : Instr} {f : Full} {s : State} {is : Iss} {change : ArrayState → ArrayState} (hi : TakesBaton i f)
    (hperf : ∀ e s, e.instr = i → performEntry is.g e s = withBaton is.g e s fun s => .done (s.setArray is.g (change (s.arrayOf is.g))))
    (h : Ready s i is) (ha : is.act ≠ 0) (hw : Memory.wf s.mem = true) (hheld : (s.core (s.group is.g).core).holder = some is.g) :
    ∃ t, exec i s = .next t ∧ (t.core (s.group is.g).core).array = change (s.core (s.group is.g).core).array ∧
      t.teams.length = s.teams.length ∧ Left s t is := by
  have hown := entered_core s i f is
  obtain ⟨hcore, -⟩ := entered_place s i f is
  have hp := hperf (entryOf s i f is) (entered s i f is) rfl
  rw [withBaton_held _ (by rw [hcore, hown]; exact hheld)] at hp
  obtain ⟨t, hexec, hcores, hteams, hleft⟩ := exec_done (cs := setAt {} (entered s i f is).cores (s.group is.g).core
      { countedCore (s.core (s.group is.g).core) with array := change (s.core (s.group is.g).core).array }) (ts := (entered s i f is).teams)
    hi.logs hi.later h ha hw (hp.trans (by
      rw [State.setArray, State.arrayOf, hcore, hown]
      rfl))
  refine ⟨t, hexec, ?_, ?_, hleft⟩
  · rw [State.core, hcores, getAt_setAt_same]
  · rw [hteams]
    exact (underway_entered (f := f) h hw).machine.teams.1

/-- MSWAP exchanges the planes and their marks. -/
def swapped (a : ArrayState) : ArrayState := { a with active := a.shadow, shadow := a.active, af := a.sf, sf := a.af }

theorem performEntry_mswap {g : Nat} {e : Entry} {f : Full} (he : e.instr = .mswap f) (s : State) :
    performEntry g e s = withBaton g e s fun s => .done (s.setArray g (swapped (s.arrayOf g))) := by
  rw [performEntry, he]
  rfl

/-- MPRG clears the sets that the mask chooses, and their marks. -/
def purged (m : Nat) (a : ArrayState) : ArrayState :=
  { a with hist := (List.range 8).map fun h => if m / 2 ^ h % 2 = 1 then [] else getAt [] a.hist h, hf := a.hf &&& ~~~(BitVec.ofNat 8 m) }

theorem performEntry_mprg {g : Nat} {e : Entry} {f : Full} (he : e.instr = .mprg f) (s : State) :
    performEntry g e s = withBaton g e s fun s => .done (s.setArray g (purged f.c.immNat (s.arrayOf g))) := by
  rw [performEntry, he]
  rfl

theorem purged_count (m : Nat) (a : ArrayState) {h : Nat} (hh : h < 8) (k : Nat) :
    getAt 0 (getAt [] (purged m a).hist h) k = if m.testBit h then 0 else getAt 0 (getAt [] a.hist h) k := by
  rw [purged, getAt_map_range _ _ _ _ hh, Nat.testBit_eq_decide_div_mod_eq]
  by_cases hbit : m / 2 ^ h % 2 = 1
  · simp only [hbit, if_true, decide_true]
    rfl
  · simp only [hbit, if_false, decide_false, Bool.false_eq_true]

theorem purged_mark (m : Nat) (a : ArrayState) {h : Nat} (hh : h < 8) : (purged m a).hf.getLsbD h = (a.hf.getLsbD h && !m.testBit h) := by
  show (a.hf &&& ~~~(BitVec.ofNat 8 m)).getLsbD h = _
  rw [BitVec.getLsbD_and, BitVec.getLsbD_not, BitVec.getLsbD_ofNat, decide_eq_true hh, Bool.true_and, Bool.true_and]

-- MHRD (R304) ----------------------------------------------------------------------------------------------------------------------------------------

/-- What MHRD reads of a set: two counts in each of the first sixteen lanes, the last count in the next. -/
def countRow (a : ArrayState) (h : Nat) : List Word :=
  (List.range 32).map fun k => if k < 16 then wd (getAt 0 (histSet a h) (2 * k + 1) * 2 ^ 32 + getAt 0 (histSet a h) (2 * k))
    else if k = 16 then wd (getAt 0 (histSet a h) 32) else 0

theorem performEntry_mhrd {g : Nat} {e : Entry} {f : Full} (he : e.instr = .mhrd f) (s : State) :
    performEntry g e s = withBaton g e s fun s => foreignUse g e s ((s.arrayOf g).hf.getLsbD f.c.immNat) <|
      .done (s.setGroup g ((s.group g).putRun f.d e.act 0 [countRow (s.arrayOf g) f.c.immNat])) := by
  rw [performEntry, he]
  rfl

theorem getAt_histSet (a : ArrayState) (h : Nat) {k : Nat} (hk : k < 33) : getAt 0 (histSet a h) k = getAt 0 (getAt [] a.hist h) k := by
  rw [histSet, getAt_map_range _ _ _ _ hk]

theorem cell_countRow (a : ArrayState) (h : Nat) {l : Nat} (hl : l < 32) : cell [countRow a h] 0 l =
    if l < 16 then BitVec.ofNat 64 (getAt 0 (getAt [] a.hist h) (2 * l) + getAt 0 (getAt [] a.hist h) (2 * l + 1) * 2 ^ 32)
    else if l = 16 then BitVec.ofNat 64 (getAt 0 (getAt [] a.hist h) 32) else 0 := by
  show getAt 0 (countRow a h) l = _
  rw [countRow, getAt_map_range _ _ _ _ hl]
  split
  · rw [getAt_histSet _ _ (by omega), getAt_histSet _ _ (by omega), Nat.add_comm]
    rfl
  · rw [getAt_histSet _ _ (by omega)]
    rfl

/-- A write of a destination run is told by the registers alone. -/
theorem runWritten_of_regs {x x' y y' : Group} {d : Reg} {m : Mask} {val : Nat → Nat → Word} (h : RunWritten x' y' d m val)
    (hxv : x'.v = x.v) (hxs : x'.s = x.s) (hyv : y.v = y'.v) (hys : y.s = y'.s) : RunWritten x y d m val := by
  obtain ⟨hv, hs⟩ := h
  refine ⟨fun n l hl => ?_, fun n => ?_⟩
  · rw [vcell_congr hyv, hv n l hl, vcell_congr hxv]
  · rw [sreg_congr hys, hs n]
    split
    · rw [sreg_congr hxs]
    · rw [sreg_congr hxs]

section
variable {f : Full} {s : State} {is : Iss} (h : Ready s (.mhrd f) is) (hw : Memory.wf s.mem = true)
  (hheld : (s.core (s.group is.g).core).holder = some is.g)
include h hw hheld

theorem perform_mhrd : performEntry is.g (entryOf s (.mhrd f) f is) (entered s (.mhrd f) f is) =
    if (s.team (s.group is.g).team).det && (s.core (s.group is.g).core).array.hf.getLsbD f.c.immNat then
      .nondet (entered s (.mhrd f) f is) ⟨0x0E, is.at_, 0⟩
    else .done ((entered s (.mhrd f) f is).setGroup is.g (((entered s (.mhrd f) f is).group is.g).putRun f.d is.act 0
      [countRow (s.core (s.group is.g).core).array f.c.immNat])) := by
  obtain ⟨hcore, hteam⟩ := entered_place s (.mhrd f) f is
  have hown := entered_core s (.mhrd f) f is
  obtain ⟨k, hsame⟩ := (underway_entered (f := f) h hw).machine.teams.2 (s.group is.g).team
  rw [performEntry_mhrd rfl, withBaton_held _ (by rw [hcore, hown]; exact hheld), foreignUse, hteam, hsame, State.arrayOf, hcore, hown]
  rfl

variable (ha : is.act ≠ 0)
include ha

/-- A foreign set under DET is NONDET (R292). -/
theorem mhrd_foreign (hdet : (s.team (s.group is.g).team).det = true) (hset : (s.core (s.group is.g).core).array.hf.getLsbD f.c.immNat = true) :
    exec (.mhrd f) s = .next (post (enterTrap (unissue (entered s (.mhrd f) f is) is.g (entryOf s (.mhrd f) f is)) is.g ⟨0x0E, is.at_, 0⟩
      (is.len / 4) false is.a) is.g) := by
  have hperf := perform_mhrd h hw hheld
  rw [hdet, hset] at hperf
  rw [exec_ready (fun _ => rfl) h ha]
  exact congrArg _ (issueLogged_nondet h rfl hperf)

/-- MHRD reads a set's counts into the D run. -/
theorem mhrd_reads (hown : (s.team (s.group is.g).team).det = false ∨ (s.core (s.group is.g).core).array.hf.getLsbD f.c.immNat = false) :
    ∃ t, exec (.mhrd f) s = .next t ∧
      RunWritten (s.group is.g) (t.group is.g) ⟨f.d.file, f.d.num, 0⟩ is.act (cell [countRow (s.core (s.group is.g).core).array f.c.immNat]) ∧
      PredsKept (s.group is.g) (t.group is.g) ∧ JoinsKept (s.group is.g) (t.group is.g) ∧ (t.group is.g).flags = (s.group is.g).flags ∧
      Settled s t is := by
  have hperf := perform_mhrd h hw hheld
  have hno : ((s.team (s.group is.g).team).det && (s.core (s.group is.g).core).array.hf.getLsbD f.c.immNat) = false := by
    rw [Bool.and_eq_false_iff]
    exact hown
  rw [hno, if_neg Bool.false_ne_true] at hperf
  generalize countRow (s.core (s.group is.g).core).array f.c.immNat = row at hperf ⊢
  have hu := underway_entered (f := f) h hw
  have hplace := placeKept_entered s (.mhrd f) f is
  obtain ⟨⟨hv, hs, hp, hj, hflags⟩, hlanes, hvbad⟩ := entered_regs s (.mhrd f) f is
  obtain ⟨hidle, hempty⟩ := ready_idle h rfl
  have hwritten := putRun_written ((entered s (.mhrd f) f is).group is.g) ⟨f.d.file, f.d.num, 0⟩ is.act [row] rfl
  obtain ⟨v, w, b, hput, hb⟩ := putRun_fields f.d is.act [row] 0 ((entered s (.mhrd f) f is).group is.g)
  have hput' : ((entered s (.mhrd f) f is).group is.g).putRun ⟨f.d.file, f.d.num, 0⟩ is.act 0 [row] =
      ((entered s (.mhrd f) f is).group is.g).putRun f.d is.act 0 [row] := rfl
  rw [hput', hput] at hwritten
  rw [hput] at hperf
  let y : Group := staying { (entered s (.mhrd f) f is).group is.g with v := v, s := w, vbad := b } [] .none
  have hexec : exec (.mhrd f) s = .next (post ((entered s (.mhrd f) f is).setGroup is.g y) is.g) := by
    rw [exec_ready (fun _ => rfl) h ha, issueLogged_entered f h rfl, runEntries_last (entered_log s _ f is) hperf
      (by rw [group_setGroup_same]; exact entered_log s _ f is), setGroup_setGroup, group_setGroup_same]
    rfl
  have hend := ended_of_ready h ha (entered s (.mhrd f) f is) (y := y) hlanes fun r hr => hvbad ▸ hb r hr
  have hmoved := hu.setGroup (ready_lt h) y
  have hframe := hmoved.ended hend (hmoved.backByte (by rw [group_setGroup_same]; exact hplace.core) (by rw [group_setGroup_same]; exact hplace.slot)
    (.inr (by rw [group_setGroup_same]; exact hplace.vbound.le)))
  have hrel := hend.group
  rw [group_setGroup_same] at hrel
  have hregs := hrel.1
  have hkept : PlaceKept (s.group is.g) y := { hplace with wait := hidle.symm, log := hempty.symm }
  refine ⟨_, hexec, runWritten_of_regs hwritten hv hs (by rw [hregs]; rfl) (by rw [hregs]; rfl), pred_congr (by rw [hregs]; exact hp),
    fun n => by rw [hregs]; exact congrArg (getAt 0 · n) hj, by rw [hregs]; exact hflags, advanced_released (z := y) h hlanes hrel, placeKept_released hkept hrel,
    hframe.groups, hframe.machine, hframe.mem⟩

end

end Sys2Proof.BatonRows
end

section
/-! PROOFS. O34: MZERO by rows (R287, R289, R301), its control word (R295, R296), and the assembly. -/

namespace Sys2Proof.ZeroRows

open Machine Laws Safety InstructionEnd EntryOutcomes Baton BatonRows TeamReturn CommandWords

-- A row of the tile store zeroed ---------------------------------------------------------------------------------------------------------------

/-- The bytes of a row of zeros: 256 times the code of zero. -/
@[irreducible] def zeroBytes : List Byte := (List.replicate 256 (zeroCode l32)).flatMap (toBytes 4)

theorem length_flatMap_toBytes (c : Nat) (n : Nat) : ((List.replicate n c).flatMap (toBytes 4)).length = 4 * n := by
  simp only [List.length_flatMap, length_toBytes, List.map_replicate, List.sum_replicate, smul_eq_mul, Nat.mul_comm]

theorem length_zeroBytes : zeroBytes.length = 1024 := by
  rw [zeroBytes]
  exact length_flatMap_toBytes _ 256

/-- A word of a list of equal words. -/
theorem word_flatMap_toBytes (c : Nat) : ∀ n k, k < n → (((List.replicate n c).flatMap (toBytes 4)).drop (4 * k)).take 4 = toBytes 4 c
  | n + 1, 0, _ => by
    rw [List.replicate_succ, List.flatMap_cons, Nat.mul_zero, List.drop_zero, List.take_left' (length_toBytes 4 c)]
  | n + 1, k + 1, hk => by
    rw [List.replicate_succ, List.flatMap_cons, show 4 * (k + 1) = (toBytes 4 c).length + 4 * k by rw [length_toBytes]; omega, List.drop_length_add_append,
      word_flatMap_toBytes c n k (by omega)]

theorem memNat_zeroBytes {m : List Host.Cell} (hm : Memory.wf m = true) (a : Nat) {k : Nat} (hk : k < 256) :
    memNat (memWrite m a zeroBytes) (a + 4 * k) 4 = 2 ^ 30 := by
  have hread := memRead_memWrite hm a zeroBytes
  rw [length_zeroBytes] at hread
  have hword : memRead (memWrite m a zeroBytes) (a + 4 * k) 4 = toBytes 4 (zeroCode l32) := by
    rw [← memRead_part _ a 1024 (4 * k) 4 (by omega), hread, zeroBytes]
    exact word_flatMap_toBytes _ 256 k hk
  rw [memNat, hword, ofBytes_toBytes]
  rfl

/-- A team with a row of its tile store zeroed, and the poison marks of the row gone (log 51). -/
def zeroedTeam (r : Nat) (t : Team) : Team :=
  { t with tile := memWrite t.tile (1024 * r) zeroBytes, tlpois := t.tlpois.filter fun m => m / 64 != r }

/-- What MZERO does for one row. -/
def zeroRow (g r : Nat) (s : State) : State :=
  let s := putTile s g r (List.replicate 256 (zeroCode l32))
  let k := (s.group g).team
  let t := s.team k
  s.setTeam k { t with tlpois := t.tlpois.filter fun m => m / 64 != r }

theorem zeroRow_eq (g r : Nat) (s : State) :
    zeroRow g r s = retooled s s.cores (setAt {} s.teams (s.group g).team (zeroedTeam r (s.team (s.group g).team))) := by
  have hput : putTile s g r (List.replicate 256 (zeroCode l32)) =
      s.setTeam (s.group g).team { s.team (s.group g).team with tile := memWrite (s.team (s.group g).team).tile (1024 * r) zeroBytes } := by rw [putTile, ← zeroBytes]
  rw [zeroRow, hput, group_setTeam, team_setTeam_same]
  show { s with teams := setAt {} (setAt {} s.teams _ _) _ _ } = _
  rw [setAt_setAt]
  rfl

/-- The rows from r on, n of them. -/
def zeroRows (g : Nat) : Nat → Nat → State → State
  | _, 0, s => s
  | r, n + 1, s => zeroRows g (r + 1) n (zeroRow g r s)

/-- What zeroing n rows from r on makes of a team's tile store. -/
structure Zeroed (t u : Team) (r n : Nat) : Prop where
  wf    : Memory.wf u.tile = true
  zero  : ∀ r' k, r ≤ r' → r' < r + n → k < 256 → memNat u.tile (1024 * r' + 4 * k) 4 = 2 ^ 30
  other : ∀ b, ¬ (1024 * r ≤ b ∧ b < 1024 * (r + n)) → memGet u.tile b = memGet t.tile b
  marks : ∀ m ∈ u.tlpois, m ∈ t.tlpois ∧ ¬ (r ≤ m / 64 ∧ m / 64 < r + n)

theorem zeroed_none {t : Team} (h : Memory.wf t.tile = true) (r : Nat) : Zeroed t t r 0 :=
  ⟨h, fun _ _ h1 h2 _ => absurd (h1.trans_lt h2) (lt_irrefl _), fun _ _ => rfl, fun _ hm => ⟨hm, fun h => absurd (h.1.trans_lt h.2) (lt_irrefl _)⟩⟩

theorem zeroed_row {t : Team} (h : Memory.wf t.tile = true) (r : Nat) : Zeroed t (zeroedTeam r t) r 1 where
  wf := memWrite_wf _ _ _ h
  zero := fun r' k h1 h2 hk => by
    obtain rfl : r' = r := by omega
    exact memNat_zeroBytes h _ hk
  other := fun b hb => memGet_memWrite_other _ _ _ _ h (by
    rw [length_zeroBytes]
    omega)
  marks := fun m hm => by
    obtain ⟨hmem, hrow⟩ := List.mem_filter.1 hm
    rw [bne_iff_ne] at hrow
    exact ⟨hmem, fun h => hrow (by omega)⟩

theorem zeroed_trans {t u v : Team} {r a b : Nat} (h : Zeroed t u r a) (h' : Zeroed u v (r + a) b) : Zeroed t v r (a + b) where
  wf := h'.wf
  zero := fun r' k h1 h2 hk => by
    by_cases hlt : r' < r + a
    · rw [← h.zero r' k h1 hlt hk]
      exact memNat_congr fun i hi => h'.other _ (by omega)
    · exact h'.zero r' k (by omega) (by omega) hk
  other := fun x hx => (h'.other x (by omega)).trans (h.other x (by omega))
  marks := fun m hm => by
    obtain ⟨hu, hb⟩ := h'.marks m hm
    obtain ⟨ht, ha⟩ := h.marks m hu
    exact ⟨ht, by omega⟩

/-- Zeroing rows changes the tile store of the group's team alone. -/
theorem zeroRows_zeroed (g : Nat) : ∀ (n r : Nat) (s : State), Memory.wf (s.team (s.group g).team).tile = true →
    ∃ ts, zeroRows g r n s = retooled s s.cores ts ∧ Zeroed (s.team (s.group g).team) (getAt {} ts (s.group g).team) r n
  | 0, r, s, h => ⟨s.teams, rfl, zeroed_none h r⟩
  | n + 1, r, s, h => by
    have hrow := zeroed_row h r
    have hteam : (zeroRow g r s).team (s.group g).team = zeroedTeam r (s.team (s.group g).team) := by
      rw [State.team, zeroRow_eq]
      exact getAt_setAt_same _ _ _ _
    have hgroup : (zeroRow g r s).group g = s.group g := by
      rw [zeroRow_eq]
      rfl
    obtain ⟨ts, hrows, hzero⟩ := zeroRows_zeroed g n (r + 1) (zeroRow g r s) (by rw [hgroup, hteam]; exact hrow.wf)
    rw [hgroup, hteam] at hzero
    refine ⟨ts, ?_, Nat.add_comm 1 n ▸ zeroed_trans hrow hzero⟩
    rw [zeroRows, hrows, zeroRow_eq]
    rfl

theorem tile_wf {s : State} (h : Canonical s) (k : Nat) : Memory.wf (s.team k).tile = true := by
  rcases getAt_mem ({} : Team) s.teams k with hnone | hmem
  · rw [State.team, hnone]
    rfl
  · exact (h.2 _ hmem).2

-- Where a turn stops a row-granular instruction (R287, R289) -----------------------------------------------------------------------------------

/-- One row of MZERO in the array's engine. -/
def zeroOne (g row : Nat) (k : Nat) (_ : Entry) (s : State) : Perf := .done (zeroRow g (row + k) s)

/-- With no stop among them, all the rows are performed. -/
theorem rowsFrom_all (g row : Nat) : ∀ (left : Nat) (e : Entry) (s : State), (∀ u, e.upto = some u → e.prog + left ≤ u) →
    rowsFrom (zeroOne g row) left e s = .done (zeroRows g (row + e.prog) left s)
  | 0, _, _, _ => rfl
  | left + 1, e, s, h => by
    have hgo : ¬ e.upto = some e.prog := fun hstop => absurd (h _ hstop) (by omega)
    rw [rowsFrom, if_neg hgo]
    exact rowsFrom_all g row left { e with prog := e.prog + 1 } _ fun u hu => by
      have hle := h u hu
      show e.prog + 1 + left ≤ u
      omega

/-- An entry stopped at a row. -/
def stoppedAt (e : Entry) (k : Nat) : Entry := { e with prog := k, upto := none, late := true }

/-- A stop leaves the entry at its row. -/
theorem rowsFrom_stop (g row m : Nat) : ∀ (left : Nat) (e : Entry) (s : State), m < left → e.upto = some (e.prog + m) →
    rowsFrom (zeroOne g row) left e s = .wait (zeroRows g (row + e.prog) m s) .rows (stoppedAt e (e.prog + m)) := by
  induction m with
  | zero =>
    intro left e s hlt hstop
    obtain ⟨left, rfl⟩ := Nat.exists_eq_add_of_lt hlt
    rw [Nat.add_zero] at hstop
    rw [Nat.zero_add, rowsFrom, if_pos hstop]
    rfl
  | succ m ih =>
    intro left e s hlt hstop
    obtain ⟨left, rfl⟩ : ∃ n, left = n + 1 := ⟨left - 1, by omega⟩
    have hgo : ¬ e.upto = some e.prog := by
      rw [hstop, Option.some_inj]
      omega
    have hnext := ih left { e with prog := e.prog + 1 } (zeroRow g (row + e.prog) s) (by omega) (by rw [hstop, Nat.add_comm m 1, Nat.add_assoc])
    rw [rowsFrom, if_neg hgo]
    refine hnext.trans ?_
    rw [zeroRows, Nat.add_assoc row, show e.prog + (m + 1) = e.prog + 1 + m by omega]
    rfl

-- MZERO of a holder (R295, R296, R301) -------------------------------------------------------------------------------------------------------------

theorem controlBad_iff (c : Nat) : controlBad c = true ↔ 2 ^ 21 ≤ c ∨ 1024 < c / 1024 % 2048 := by
  have hfield : field c 10 11 = c / 1024 % 2048 := rfl
  rw [controlBad, hfield, Bool.or_eq_true, bne_iff_ne, decide_eq_true_eq]
  omega

section
variable {f : Full} {g : Nat} {e : Entry} {s : State} (he : e.instr = .mzero f) (hheld : (s.core (s.group g).core).holder = some g)
include he hheld

theorem perform_mzero_bad (hbad : controlBad (controlOf f e) = true) : performEntry g e s = matErr g e s 1 (controlOf f e) := by
  have hperf : performEntry g e s = doMzero f g e s := by rw [performEntry, he]
  rw [hperf, doMzero, withBaton_held _ hheld]
  simp only [hbad, if_true]

variable (hgood : controlBad (controlOf f e) = false)
include hgood

theorem perform_mzero_beyond {r : Nat} (hbeyond : rowsBeyond s g (controlOf f e % 1024) (field (controlOf f e) 10 11) = some r) :
    performEntry g e s = tsBound s e r := by
  have hperf : performEntry g e s = doMzero f g e s := by rw [performEntry, he]
  rw [hperf, doMzero, withBaton_held _ hheld]
  simp only [hgood, hbeyond, Bool.false_eq_true, if_false]

theorem perform_mzero_rows (hin : rowsBeyond s g (controlOf f e % 1024) (field (controlOf f e) 10 11) = none) :
    performEntry g e s = rowsFrom (zeroOne g (controlOf f e % 1024)) (controlOf f e / 1024 % 2048 - e.prog) e s := by
  have hperf : performEntry g e s = doMzero f g e s := by rw [performEntry, he]
  rw [hperf, doMzero, withBaton_held _ hheld]
  simp only [hgood, hin, Bool.false_eq_true, if_false]
  rfl

end

theorem rowsBeyond_none {s : State} {g row n : Nat} (h : n = 0 ∨ row + n ≤ (s.team (s.group g).team).trows) : rowsBeyond s g row n = none := by
  rw [rowsBeyond, if_neg]
  rw [Bool.and_eq_true, decide_eq_true_eq, decide_eq_true_eq]
  omega

theorem rowsBeyond_some {s : State} {g row n : Nat} (h0 : n ≠ 0) (h : (s.team (s.group g).team).trows < row + n) :
    rowsBeyond s g row n = some (max row (s.team (s.group g).team).trows) := by
  rw [rowsBeyond, if_pos]
  rw [Bool.and_eq_true, decide_eq_true_eq, decide_eq_true_eq]
  exact ⟨h0, h⟩

theorem team_of_teams {s : State} {ts : List Team} (h : s.teams = ts) (k : Nat) : s.team k = getAt {} ts k := by rw [State.team, h]

/-- The team of a group whose instruction has entered the log. -/
theorem entered_team (s : State) (i : Instr) (f : Full) (is : Iss) : (entered s i f is).team (s.group is.g).team = s.team (s.group is.g).team := by
  rw [State.team, entered_eq]
  exact getAt_countedTeams_own _ _ _

theorem entered_live_eq (s : State) (i : Instr) (f : Full) (is : Iss) : ((entered s i f is).group is.g).live = (s.group is.g).live := by
  obtain ⟨-, hlanes, -⟩ := entered_regs s i f is
  rw [live_congr hlanes, live_advance]

theorem entered_held {s : State} {is : Iss} (hheld : (s.core (s.group is.g).core).holder = some is.g) (i : Instr) (f : Full) :
    ((entered s i f is).core ((entered s i f is).group is.g).core).holder = some is.g := by
  rw [(entered_place s _ f is).1, entered_core]
  exact hheld

section
variable {f : Full} {s : State} {is : Iss} (h : Ready s (.mzero f) is) (ha : is.act ≠ 0)
  (hheld : (s.core (s.group is.g).core).holder = some is.g)
include h ha hheld

/-- A control word that breaks its rule is MATERR 1 (R295). -/
theorem mzero_bad (hbad : controlBad (controlOf f (entryOf s (.mzero f) f is)) = true) : exec (.mzero f) s =
    .next (trapped (entered s (.mzero f) f is) is (entryOf s (.mzero f) f is)
      ⟨0x0D, (s.group is.g).live, wd (2 ^ 56 + controlOf f (entryOf s (.mzero f) f is) % 2 ^ 32)⟩) := by
  have hperf := perform_mzero_bad rfl (entered_held hheld (.mzero f) f) hbad
  rw [matErr, entered_live_eq, Nat.one_mul] at hperf
  rw [exec_ready (fun _ => rfl) h ha]
  exact congrArg _ (issueLogged_trap h rfl hperf)

/-- A row beyond TROWS is TSBOUND (R295). -/
theorem mzero_beyond (hgood : controlBad (controlOf f (entryOf s (.mzero f) f is)) = false)
    (h0 : controlOf f (entryOf s (.mzero f) f is) / 1024 % 2048 ≠ 0)
    (hbeyond : (s.team (s.group is.g).team).trows < controlOf f (entryOf s (.mzero f) f is) % 1024 +
      controlOf f (entryOf s (.mzero f) f is) / 1024 % 2048) : exec (.mzero f) s =
    .next (trapped (entered s (.mzero f) f is) is (entryOf s (.mzero f) f is)
      ⟨0x09, is.at_, wd (max (controlOf f (entryOf s (.mzero f) f is) % 1024) (s.team (s.group is.g).team).trows)⟩) := by
  have hteam := entered_team s (.mzero f) f is
  obtain ⟨-, hat⟩ := entered_place s (.mzero f) f is
  have hperf := perform_mzero_beyond rfl (entered_held hheld (.mzero f) f) hgood
    (rowsBeyond_some (row := controlOf f (entryOf s (.mzero f) f is) % 1024) h0 (by rw [hat, hteam]; exact hbeyond))
  rw [hat, hteam, tsBound] at hperf
  rw [exec_ready (fun _ => rfl) h ha]
  exact congrArg _ (issueLogged_trap h rfl hperf)

/-- The rows of a good control word are zeroed in one turn (R301). -/
theorem mzero_zeroes (hc : Canonical s) (hgood : controlBad (controlOf f (entryOf s (.mzero f) f is)) = false)
    (hin : controlOf f (entryOf s (.mzero f) f is) / 1024 % 2048 = 0 ∨ controlOf f (entryOf s (.mzero f) f is) % 1024 +
      controlOf f (entryOf s (.mzero f) f is) / 1024 % 2048 ≤ (s.team (s.group is.g).team).trows) :
    ∃ z, exec (.mzero f) s = .next z ∧ Zeroed (s.team (s.group is.g).team) (z.team (s.group is.g).team)
      (controlOf f (entryOf s (.mzero f) f is) % 1024) (controlOf f (entryOf s (.mzero f) f is) / 1024 % 2048) ∧ Left s z is := by
  have hteam := entered_team s (.mzero f) f is
  obtain ⟨-, hat⟩ := entered_place s (.mzero f) f is
  have hperf := perform_mzero_rows rfl (entered_held hheld (.mzero f) f) hgood (rowsBeyond_none (by rw [hat, hteam]; exact hin))
  rw [rowsFrom_all _ _ _ _ _ fun u hu => (by cases hu)] at hperf
  obtain ⟨ts, hrows, hzero⟩ := zeroRows_zeroed is.g (controlOf f (entryOf s (.mzero f) f is) / 1024 % 2048)
    (controlOf f (entryOf s (.mzero f) f is) % 1024) (entered s (.mzero f) f is) (by rw [hat, hteam]; exact tile_wf hc _)
  rw [hat, hteam] at hzero
  obtain ⟨z, hexec, -, hteams, hleft⟩ := exec_done (fun _ => rfl) rfl h ha hc.1 (hperf.trans (congrArg _ hrows))
  refine ⟨z, hexec, ?_, hleft⟩
  rw [team_of_teams hteams]
  exact hzero

end

-- MZERO in several turns (R287, R289) ---------------------------------------------------------------------------------------------------------------------

/-- The issue of a row-granular instruction performs its entry, which knows where to stop. -/
theorem issueRows_entered {s : State} {i : Instr} {is : Iss} (f : Full) (h : Ready s i is) (hi : passesFault (opOf i) = false) (m : Nat) :
    issueRows m i f is (issued s i is) = post (runEntries ((entered s i f is).setGroup is.g
      { (entered s i f is).group is.g with log := [{ entryOf s i f is with upto := some m }] }) is.g) is.g := by
  obtain ⟨hv, hs, -⟩ := issued_regs s i is
  have hlog : ((issued s i is).group is.g).log = [] := by
    rw [issued_group]
    exact (ready_idle h hi).2
  have hentry : entryOf (issued s i is) i f is = entryOf s i f is := by
    simp only [entryOf, run_congr hv hs, src_congr hv hs, rand_congr hv hs]
  have hstate : (entered s i f is).setGroup is.g { (entered s i f is).group is.g with log := [{ entryOf s i f is with upto := some m }] } =
      (issued s i is).setGroup is.g { ((issued s i is).group is.g).advance is.at_ is.a is.len with
        log := [{ entryOf (issued s i is) i f is with upto := some m }] } := by
    rw [entered, setGroup_setGroup, group_setGroup_same, hentry]
  have hempty : (((issued s i is).group is.g).advance is.at_ is.a is.len).log = [] := hlog
  rw [hstate, issueRows]
  simp only [hempty, hlog, List.isEmpty_nil, if_true, List.nil_append, Bool.not_true]
  rfl

/-- A turn that stops before the last row leaves the entry at its row (R287, R289). -/
theorem mzero_stops {f : Full} {s : State} {is : Iss} {m : Nat} (h : Ready s (.mzero f) is) (ha : is.act ≠ 0)
    (hheld : (s.core (s.group is.g).core).holder = some is.g) (hc : Canonical s)
    (hgood : controlBad (controlOf f (entryOf s (.mzero f) f is)) = false)
    (hin : controlOf f (entryOf s (.mzero f) f is) % 1024 + controlOf f (entryOf s (.mzero f) f is) / 1024 % 2048 ≤
      (s.team (s.group is.g).team).trows)
    (hm : m < controlOf f (entryOf s (.mzero f) f is) / 1024 % 2048) :
    ∃ z, issue (.mzero f) (issueRows m (.mzero f) f) s = .next z ∧
      (z.group is.g).wait = .rows ∧ (z.group is.g).log = [{ entryOf s (.mzero f) f is with prog := m, late := true }] ∧
      Zeroed (s.team (s.group is.g).team) (z.team (s.group is.g).team) (controlOf f (entryOf s (.mzero f) f is) % 1024) m ∧ Left s z is := by
  have hteam := entered_team s (.mzero f) f is
  obtain ⟨hcore, hat⟩ := entered_place s (.mzero f) f is
  have hlog := entered_log s (.mzero f) f is
  let e : Entry := { entryOf s (.mzero f) f is with upto := some m }
  let x : Group := { (entered s (.mzero f) f is).group is.g with log := [e] }
  let u : State := (entered s (.mzero f) f is).setGroup is.g x
  have hx : u.group is.g = x := group_setGroup_same _ _ _
  have hown : u.team (u.group is.g).team = s.team (s.group is.g).team := by
    rw [hx]
    exact (congrArg (entered s (.mzero f) f is).team hat).trans hteam
  have hperf := perform_mzero_rows (g := is.g) (e := e) (s := u) rfl (by rw [hx]; exact entered_held hheld (.mzero f) f) hgood
    (rowsBeyond_none (.inr (by rw [hown]; exact hin)))
  have hstop := rowsFrom_stop is.g (controlOf f e % 1024) m (controlOf f e / 1024 % 2048 - e.prog) e u hm (congrArg some (Nat.zero_add m).symm)
  obtain ⟨ts, hrows, hzero⟩ := zeroRows_zeroed is.g m (controlOf f e % 1024) u (by rw [hown]; exact tile_wf hc _)
  replace hperf := hperf.trans (hstop.trans (congrArg (Perf.wait · _ _) hrows))
  rw [hown, show (u.group is.g).team = (s.group is.g).team by rw [hx]; exact hat] at hzero
  obtain ⟨-, hteams, hwait, hlast, hleft⟩ := staying_left (f := f) h ha hc.1 u.cores ts [stoppedAt e (0 + m)] .rows
  refine ⟨_, ?_, hwait, ?_, ?_, hleft⟩
  · rw [issue_ready _ h, if_neg ha, issueRows_entered f h rfl]
    refine congrArg (Host.Outcome.next <| post · is.g) ?_
    have hrun := runEntries_wait (congrArg Group.log hx) hperf
    exact hrun.trans ((putHead_staying (u := retooled u u.cores ts) hx rfl).trans (setGroup_setGroup (retooled (entered s (.mzero f) f is) u.cores ts) _ _ _))
  · rw [hlast, Nat.zero_add]
    rfl
  · rw [team_of_teams hteams]
    exact hzero

/-- The end of a turn of a group that lives on. -/
theorem post_staying {s : State} {g : Nat} {x : Group} (hlive : x.live ≠ 0) (hjoin : x.badJoin = none) (l : List Entry) (w : Wait) :
    let t := post (s.setGroup g (staying x l w)) g
    t.teams = s.teams ∧ (t.group g).wait = w ∧ (t.group g).log = l := by
  intro t
  have hend : Ended (s.setGroup g (staying x l w)) t g := ended_post (by rw [group_setGroup_same]; exact hlive)
    (by rw [group_setGroup_same]; exact badJoin_mono (x := x) rfl (fun _ hr => hr) hjoin) (lt_length_setAt _ _ _ _)
  obtain ⟨m, p, gs, hframe⟩ := hend.frame
  have hrel := hend.group
  rw [group_setGroup_same] at hrel
  exact ⟨(congrArg State.teams hframe).trans (setGroup_teams s g (staying x l w)), by rw [hrel.1]; rfl, by rw [hrel.1]; rfl⟩

/-- A group between two rows goes on: to its next stop, or to the end. -/
theorem moreRows_zeroes {f : Full} {s : State} {g m : Nat} {e : Entry} (hc : Canonical s) (hheld : (s.core (s.group g).core).holder = some g)
    (hlog : (s.group g).log = [e]) (he : e.instr = .mzero f) (hjoin : (s.group g).badJoin = none) (hlive : (s.group g).live ≠ 0)
    (hgood : controlBad (controlOf f e) = false)
    (hin : controlOf f e % 1024 + controlOf f e / 1024 % 2048 ≤ (s.team (s.group g).team).trows) (hlt : e.prog < controlOf f e / 1024 % 2048) :
    let z := moreRows s g m
    let last := min (controlOf f e / 1024 % 2048) (e.prog + m)
    Zeroed (s.team (s.group g).team) (z.team (s.group g).team) (controlOf f e % 1024 + e.prog) (last - e.prog) ∧
      (last < controlOf f e / 1024 % 2048 → (z.group g).wait = .rows ∧ (z.group g).log = [stoppedAt e last]) ∧
      (last = controlOf f e / 1024 % 2048 → (z.group g).log = []) := by
  intro z last
  let e' : Entry := { e with upto := some (e.prog + m) }
  let x : Group := { s.group g with log := [e'] }
  let u : State := s.setGroup g x
  have hx : u.group g = x := group_setGroup_same _ _ _
  have hown : u.team (u.group g).team = s.team (s.group g).team := by
    rw [hx]
    rfl
  have hz : z = post (runEntries u g) g := by
    show moreRows s g m = _
    rw [moreRows]
    simp only [hlog]
    rfl
  have hperf := perform_mzero_rows (g := g) (e := e') (s := u) he (by rw [hx]; exact hheld) hgood (rowsBeyond_none (.inr (by rw [hown]; exact hin)))
  have hwf : Memory.wf (u.team (u.group g).team).tile = true := by
    rw [hown]
    exact tile_wf hc _
  by_cases hstop : e.prog + m < controlOf f e / 1024 % 2048
  · have hlast : last = e.prog + m := min_eq_right hstop.le
    obtain ⟨ts, hrows, hzero⟩ := zeroRows_zeroed g m (controlOf f e % 1024 + e.prog) u hwf
    have hwait := hperf.trans ((rowsFrom_stop g (controlOf f e % 1024) m (controlOf f e / 1024 % 2048 - e.prog) e' u (by omega) rfl).trans
      (congrArg (Perf.wait · _ _) hrows))
    have hrun : runEntries u g = (retooled s s.cores ts).setGroup g (staying (s.group g) [stoppedAt e last] .rows) := by
      rw [hlast]
      exact (runEntries_wait (congrArg Group.log hx) hwait).trans
        ((putHead_staying (u := retooled u u.cores ts) hx rfl).trans (setGroup_setGroup (retooled s s.cores ts) _ _ _))
    obtain ⟨hteams, hwaits, hlogs⟩ := post_staying (s := retooled s s.cores ts) (g := g) hlive hjoin [stoppedAt e last] .rows
    rw [hz, hrun]
    refine ⟨?_, fun _ => ⟨hwaits, hlogs⟩, fun hend => absurd (hlast ▸ hend) (Nat.ne_of_lt hstop)⟩
    rw [hown, hx] at hzero
    rw [team_of_teams hteams, hlast, Nat.add_sub_cancel_left]
    exact hzero
  · have hlast : last = controlOf f e / 1024 % 2048 := min_eq_left (Nat.not_lt.1 hstop)
    obtain ⟨ts, hrows, hzero⟩ := zeroRows_zeroed g (controlOf f e / 1024 % 2048 - e.prog) (controlOf f e % 1024 + e.prog) u hwf
    have hdone := hperf.trans ((rowsFrom_all g (controlOf f e % 1024) (controlOf f e / 1024 % 2048 - e.prog) e' u (by
      rintro v hv
      cases hv
      show e.prog + _ ≤ e.prog + m
      omega)).trans (congrArg Perf.done hrows))
    have hrun : runEntries u g = (retooled s s.cores ts).setGroup g (staying (s.group g) [] .none) := by
      refine (runEntries_last (congrArg Group.log hx) hdone (congrArg Group.log hx)).trans ?_
      rw [show (retooled u u.cores ts).group g = x from hx]
      exact setGroup_setGroup (retooled s s.cores ts) _ _ _
    obtain ⟨hteams, -, hlogs⟩ := post_staying (s := retooled s s.cores ts) (g := g) hlive hjoin [] .none
    rw [hz, hrun]
    refine ⟨?_, fun hgo => absurd hlast (Nat.ne_of_lt hgo), fun _ => hlogs⟩
    rw [hown, hx] at hzero
    rw [team_of_teams hteams, hlast]
    exact hzero

/-- A save leaves an entry between two rows at its row, to be taken up again (R289). -/
theorem saveWait_rows {s : State} {g : Nat} {e : Entry} (hwait : (s.group g).wait = .rows) (hlog : (s.group g).log = [e]) :
    ((saveWait s g).group g).log = [{ e with fseq := none, faults := [] }] ∧ ((saveWait s g).group g).wait = .recheck := by
  have hsettle : settleWait s g = s := by
    rw [settleWait]
    simp only [hwait]
  have hleave : (leaveQueues s g).group g = s.group g := rfl
  rw [saveWait]
  simp only [hsettle, hleave, group_setGroup_same, hwait, hlog, List.map_cons, List.map_nil, List.isEmpty_cons, Bool.false_eq_true, if_false, and_self]

-- The obligation ---------------------------------------------------------------------------------------------------------------------------------------

theorem controlGood {c : Nat} (h : c < 2 ^ 21) (hn : c / 1024 % 2048 ≤ 1024) : controlBad c = false := by
  rw [← Bool.not_eq_true, controlBad_iff]
  omega

/-- The grant as the obligation writes it. -/
def granting (s : State) (g : Nat) : State :=
  let k := (s.group g).core
  let t := (s.group g).team
  let u := s.setCore k { s.core k with holder := some g, last := some (t, g), array := passedArray s k g }
  match (s.team t).array with
  | some (g', _) => if g' = g then u.setTeam t { s.team t with array := none } else u
  | none => u

theorem granting_eq (s : State) (g : Nat) : granting s g = grantBaton s (s.group g).core g := by
  rw [grantBaton_eq]
  cases harr : (s.team (s.group g).team).array with
  | none =>
    simp only [granting, grantedTeams, harr]
    rfl
  | some p =>
    simp only [granting, grantedTeams, harr]
    split <;> rfl

/-- Settles O34: the baton's queue and grants, the rows that only move array state, and MZERO by rows. -/
theorem batonPlaneAndHistogramRows : Obligations.BatonPlaneAndHistogramRows := by
  unfold Obligations.BatonPlaneAndHistogramRows
  intro core passed granted fed
  refine ⟨fun i f s is hi h ha hw hno hnew => ?_, fun f s is h ha hw => ?_, fun f s is h ha hw => ?_, fun f s is h ha hw hheld => ?_,
    fun f s is h ha hc hheld => ?_, fun f s is m h ha hc hheld _ => ?_, fun f s g e m _ _ hc hheld hlog he hjoin hlive => ?_,
    fun s g e _ => saveWait_rows, fun f s is h ha hw hheld => ?_, fun f s is h ha hw hheld => ?_⟩
  · have hrow := takesBaton_of_mem hi
    refine ⟨fun hfree hq => (exec_free hrow h ha hfree hq).trans (congrArg (exec i) (granting_eq s is.g).symm), fun hbusy => ?_⟩
    obtain ⟨t, hexec, hcore, hwait, hlog, hleft⟩ := exec_queues hrow h ha hw hno hnew hbusy
    exact ⟨t, hexec, by rw [hcore]; rfl, by rw [hcore], by rw [hcore]; rfl, hwait, hlog, hleft.regs, hleft.groups, hleft.writes, hleft.mem⟩
  · refine ⟨mtake_held h ha hw, fun hfree hq => ?_⟩
    obtain ⟨t, hexec, hholder, harray, hleft⟩ := mtake_free h ha hw hfree hq
    exact ⟨t, hexec, hholder, harray, hleft.regs, hleft.lanes, hleft.groups, hleft.writes, hleft.mem⟩
  · refine ⟨mpass_none h ha hw, fun a hno hsaved => ?_, fun hheld => ?_⟩
    · obtain ⟨t, hexec, hholder, hqueue, hgone, hleft⟩ := mpass_saved h ha hw hno hsaved
      exact ⟨t, hexec, hholder, hqueue, hgone, hleft.regs, hleft.lanes, hleft.groups, hleft.writes, hleft.mem⟩
    · obtain ⟨t, hexec, hholder, hqueue, harray, hkept, hleft⟩ := mpass_holder h ha hw hheld
      exact ⟨t, hexec, hholder, hqueue, harray, hkept, hleft.regs, hleft.lanes, hleft.groups, hleft.writes, hleft.mem⟩
  · obtain ⟨t, hexec, harray, hteams, hleft⟩ := exec_setArray (takesBaton_of_mem (f := f) (by simp)) (fun e s he => performEntry_mswap he s) h ha hw hheld
    exact ⟨t, hexec, harray, hleft.regs, hleft.lanes, hleft.groups, hteams, hleft.writes, hleft.mem⟩
  · refine ⟨fun hbad => mzero_bad h ha hheld ((controlBad_iff _).2 hbad),
      fun hc hn h0 hbeyond => mzero_beyond h ha hheld (controlGood hc hn) h0 hbeyond, fun hword hn hin => ?_⟩
    obtain ⟨z, hexec, hzero, hleft⟩ := mzero_zeroes h ha hheld hc (controlGood hword hn) hin
    exact ⟨z, hexec, hzero.zero, hzero.other, hzero.marks, hleft.regs, hleft.lanes, hleft.groups, hleft.writes, hleft.mem⟩
  · intro e c row n t hword hn hin hm
    obtain ⟨z, hexec, hwait, hlog, hzero, hleft⟩ := mzero_stops h ha hheld hc (controlGood hword hn) hin hm
    exact ⟨z, hexec, hwait, hlog, hzero.zero, hzero.other, hleft.regs, hleft.lanes, hleft.groups, hleft.writes, hleft.mem⟩
  · intro c row n t hword hn hin hlt z last
    obtain ⟨hzero, hwait, hend⟩ := moreRows_zeroes (m := m) hc hheld hlog he hjoin hlive (controlGood hword hn) hin hlt
    have hsum : row + e.prog + (last - e.prog) = row + last := by
      have hle : e.prog ≤ last := le_min hlt.le (Nat.le_add_right _ _)
      omega
    exact ⟨fun r k h1 h2 => hzero.zero r k h1 (hsum.symm ▸ h2), fun b hb => hzero.other b (hsum.symm ▸ hb), hwait, hend⟩
  · refine ⟨fun hdet hset => mhrd_foreign h hw hheld ha hdet hset, fun hown => ?_⟩
    obtain ⟨t, hexec, hwritten, hrest⟩ := mhrd_reads h hw hheld ha hown
    refine ⟨t, hexec, runWritten_congr hwritten fun j l hj hl _ => ?_, hrest⟩
    obtain rfl : j = 0 := Nat.lt_one_iff.1 hj
    exact cell_countRow _ _ hl
  · obtain ⟨t, hexec, harray, -, hleft⟩ := exec_setArray (takesBaton_of_mem (f := f) (by simp)) (fun e s he => performEntry_mprg he s) h ha hw hheld
    refine ⟨t, hexec, fun h k hh => ?_, fun h hh => ?_, by rw [harray]; rfl, by rw [harray]; rfl, hleft.regs, hleft.lanes, hleft.groups,
      hleft.writes, hleft.mem⟩
    · rw [harray]
      exact purged_count _ _ hh k
    · rw [harray]
      exact purged_mark _ _ hh

end Sys2Proof.ZeroRows
end

section
/-! PROOFS. The fields of instruction words (Tables 6.1 to 6.4 and 6.7): those that encoded words hold, and the words that given fields make up. -/

namespace Sys2Proof.WordFields

open Machine

-- Fields ------------------------------------------------------------------------------------------------------------------------------

theorem fileOf_fileBit (r : RFile) : fileOf ((fileBit r).getLsbD 0) = r := by cases r <;> rfl

theorem extractLsb'_one (w : IWord) (i : Nat) : w.extractLsb' i 1 = BitVec.ofBool (w.getLsbD i) := by
  apply BitVec.eq_of_getLsbD_eq
  intro k hk
  obtain rfl : k = 0 := by omega
  simp

theorem fileBit_fileOf (w : IWord) (i : Nat) : fileBit (fileOf (w.getLsbD i)) = w.extractLsb' i 1 := by
  rw [extractLsb'_one]
  cases w.getLsbD i <;> rfl

/-- A bit of a word is the lowest one of the field that begins there. -/
theorem getLsbD_eq_field (w : IWord) (i : Nat) : w.getLsbD i = (w.extractLsb' i 1).getLsbD 0 := by simp

theorem getLsbD_zero_ofBool (b : Bool) : (BitVec.ofBool b).getLsbD 0 = b := by simp

theorem fields_two {n m : Nat} (a : BitVec n) (b : BitVec m) : (a ++ b).extractLsb' m n = a ∧ (a ++ b).extractLsb' 0 m = b :=
  ⟨by rw [BitVec.extractLsb'_append_eq_of_le le_rfl, Nat.sub_self, BitVec.extractLsb'_eq_self],
    by rw [BitVec.extractLsb'_append_eq_of_add_le (Nat.zero_add m).le, BitVec.extractLsb'_eq_self]⟩

theorem fields_three {n m k : Nat} (a : BitVec n) (b : BitVec m) (c : BitVec k) : let w := a ++ b ++ c
    w.extractLsb' (m + k) n = a ∧ w.extractLsb' k m = b ∧ w.extractLsb' 0 k = c := by
  obtain ⟨ha, hb⟩ := fields_two a b
  refine ⟨?_, ?_, (fields_two (a ++ b) c).2⟩
  · rw [BitVec.extractLsb'_append_eq_of_le (Nat.le_add_left k m), Nat.add_sub_cancel, ha]
  · rw [BitVec.extractLsb'_append_eq_of_le le_rfl, Nat.sub_self, hb]

/-- The fields of word 0 of a full or long form (Table 6.3). -/
theorem fields_word0 (a : BitVec 8) (b : BitVec 2) (c : BitVec 8) (d : BitVec 2) (e f : BitVec 1) (op : BitVec 8) (len : BitVec 2) :
    let w := a ++ b ++ c ++ d ++ e ++ f ++ op ++ len
    w.extractLsb' 24 8 = a ∧ w.extractLsb' 22 2 = b ∧ w.extractLsb' 14 8 = c ∧ w.extractLsb' 12 2 = d ∧ w.extractLsb' 11 1 = e ∧
      w.extractLsb' 10 1 = f ∧ w.extractLsb' 2 8 = op ∧ w.extractLsb' 0 2 = len := by
  simp (disch := omega) only [BitVec.extractLsb'_append_eq_of_add_le, BitVec.extractLsb'_append_eq_of_le, -Nat.reduceAdd]
  simp

/-- The fields of word 1 of layout F (Table 6.4). -/
theorem fields_word1 (hi : BitVec 12) (i : BitVec 1) (x : BitVec 3) (t : BitVec 5) (r : BitVec 3) (c : BitVec 8) :
    let w := hi ++ i ++ x ++ t ++ r ++ c
    w.extractLsb' 20 12 = hi ∧ w.extractLsb' 19 1 = i ∧ w.extractLsb' 16 3 = x ∧ w.extractLsb' 11 5 = t ∧ w.extractLsb' 8 3 = r ∧
      w.extractLsb' 0 8 = c := by
  simp (disch := omega) only [BitVec.extractLsb'_append_eq_of_add_le, BitVec.extractLsb'_append_eq_of_le, -Nat.reduceAdd]
  simp

/-- A part of a field. -/
theorem field_field (w : IWord) {lo n i m : Nat} (h : i + m ≤ n) : (w.extractLsb' lo n).extractLsb' i m = w.extractLsb' (lo + i) m := by
  apply BitVec.eq_of_getLsbD_eq
  intro k hk
  simp [hk, show i + k < n by omega, Nat.add_assoc]

/-- The fields of a register C in word 1 (Table 6.4). -/
theorem fields_regC (a : BitVec 8) (b : BitVec 2) (k z : BitVec 1) : let x := a ++ b ++ k ++ z
    x.extractLsb' 4 8 = a ∧ x.extractLsb' 2 2 = b ∧ x.extractLsb' 1 1 = k ∧ x.extractLsb' 0 1 = z := by
  simp (disch := omega) only [BitVec.extractLsb'_append_eq_of_add_le, BitVec.extractLsb'_append_eq_of_le, -Nat.reduceAdd]
  simp

theorem regC_eq {w : IWord} {c : Reg} (h : w.extractLsb' 20 12 = encRegC c) : regC w = c ∧ w.getLsbD 20 = false := by
  obtain ⟨hn, hw, hk, hz⟩ := fields_regC c.num c.wid (fileBit c.file) 0
  have hpart : ∀ i m, i + m ≤ 12 → w.extractLsb' (20 + i) m = (encRegC c).extractLsb' i m := fun i m hi => by rw [← h, field_field w hi]
  refine ⟨?_, ?_⟩
  · rw [regC, bitsOf, bitsOf, getLsbD_eq_field, hpart 4 8 (by decide), hpart 2 2 (by decide), hpart 1 1 (by decide), encRegC, hn, hw, hk, fileOf_fileBit]
  · rw [getLsbD_eq_field, hpart 0 1 (by decide), encRegC, hz]
    rfl

theorem encWord0_fields {op : Nat} {d b : Reg} {len : BitVec 2} : regD (encWord0 op d b len) = d ∧ regB (encWord0 op d b len) = b ∧
    bitsOf (encWord0 op d b len) 2 8 = BitVec.ofNat 8 op ∧ bitsOf (encWord0 op d b len) 0 2 = len := by
  obtain ⟨hbn, hbw, hdn, hdw, hb, hd, hop, hlen⟩ := fields_word0 b.num b.wid d.num d.wid (fileBit b.file) (fileBit d.file) (.ofNat 8 op) len
  refine ⟨?_, ?_, hop, hlen⟩
  · rw [regD, bitsOf, bitsOf, getLsbD_eq_field, encWord0, hdn, hdw, hd, fileOf_fileBit]
  · rw [regB, bitsOf, bitsOf, getLsbD_eq_field, encWord0, hbn, hbw, hb, fileOf_fileBit]

theorem encWord0_regs (w : IWord) : encWord0 (bitsOf w 2 8).toNat (regD w) (regB w) (bitsOf w 0 2) = w := by
  rw [encWord0, regD, regB, fileBit_fileOf, fileBit_fileOf, BitVec.ofNat_toNat, BitVec.setWidth_eq]
  simp only [bitsOf]
  simp (disch := omega) only [BitVec.extractLsb'_append_extractLsb'_eq_extractLsb', -Nat.reduceAdd]
  exact BitVec.extractLsb'_eq_self

theorem ctlOf_eq {w : IWord} {c : Ctl} (h : w.extractLsb' 0 8 = encCtl c) : ctlOf w = c := by
  obtain ⟨hla, hpn, hp⟩ := fields_three c.la (.ofBool c.pn) c.pred
  have hpart : ∀ i m, i + m ≤ 8 → w.extractLsb' i m = (encCtl c).extractLsb' i m := fun i m hi => by rw [← h, field_field w hi, Nat.zero_add]
  rw [ctlOf, bitsOf, bitsOf, getLsbD_eq_field, hpart 4 4 (by decide), hpart 3 1 (by decide), hpart 0 3 (by decide), encCtl, hla, hpn, hp,
    getLsbD_zero_ofBool]

theorem encCtl_ctlOf (w : IWord) : encCtl (ctlOf w) = w.extractLsb' 0 8 := by
  rw [ctlOf, encCtl, ← extractLsb'_one]
  simp only [bitsOf]
  simp (disch := omega) only [BitVec.extractLsb'_append_extractLsb'_eq_extractLsb', -Nat.reduceAdd]

theorem encWord1_fields {hi : BitVec 12} {imm : Bool} {f : Full} : let w := encWord1 hi imm f
    bitsOf w 20 12 = hi ∧ w.getLsbD 19 = imm ∧ bitsOf w 16 3 = f.xm ∧ bitsOf w 11 5 = f.ty ∧ bitsOf w 8 3 = f.rnd ∧ ctlOf w = f.ctl := by
  obtain ⟨hhi, himm, hxm, hty, hrnd, hctl⟩ := fields_word1 hi (.ofBool imm) f.xm f.ty f.rnd (encCtl f.ctl)
  exact ⟨hhi, by rw [getLsbD_eq_field, encWord1, himm, getLsbD_zero_ofBool], hxm, hty, hrnd, ctlOf_eq hctl⟩

theorem encWord1_parts (w : IWord) (d b : Reg) (c : Src) (r : Option (BitVec 8)) :
    encWord1 (bitsOf w 20 12) (w.getLsbD 19) ⟨d, b, c, bitsOf w 16 3, bitsOf w 11 5, bitsOf w 8 3, r, ctlOf w⟩ = w := by
  rw [encWord1, encCtl_ctlOf, ← extractLsb'_one]
  simp only [bitsOf]
  simp (disch := omega) only [BitVec.extractLsb'_append_extractLsb'_eq_extractLsb', -Nat.reduceAdd]
  exact BitVec.extractLsb'_eq_self

theorem encRegC_regC {w : IWord} (h : w.getLsbD 20 = false) : encRegC (regC w) = bitsOf w 20 12 := by
  have hz : (0 : BitVec 1) = w.extractLsb' 20 1 := by rw [extractLsb'_one, h]; rfl
  rw [encRegC, regC, fileBit_fileOf, hz]
  simp only [bitsOf]
  simp (disch := omega) only [BitVec.extractLsb'_append_extractLsb'_eq_extractLsb', -Nat.reduceAdd]

/-- The random operand field names a register of the destination's width (Table 6.7). -/
theorem randOf_eq_some {fld : BitVec 12} {dw : BitVec 2} {r : BitVec 8} : randOf fld dw = some r ↔ fld = encRand r dw := by
  rw [randOf, Option.ite_none_right_eq_some]
  constructor
  · rintro ⟨⟨hz, hdw⟩, hr⟩
    obtain rfl : fld.extractLsb' 4 8 = r := by simpa using hr
    rw [encRand, ← hz, ← hdw]
    simp (disch := omega) only [BitVec.extractLsb'_append_extractLsb'_eq_extractLsb', -Nat.reduceAdd]
    exact BitVec.extractLsb'_eq_self.symm
  · rintro rfl
    obtain ⟨hr, hdw, hz⟩ := fields_three r dw 0
    exact ⟨⟨hz, hdw⟩, congrArg some hr⟩

/-- The fields of word 1 of layout FU (Table 6.4). -/
theorem wordU_fields (i : BitVec 20) (c : Ctl) : let w : IWord := i ++ (0 : BitVec 4) ++ encCtl c
    bitsOf w 12 20 = i ∧ bitsOf w 8 4 = 0 ∧ ctlOf w = c := by
  obtain ⟨hi, hz, hc⟩ := fields_three i (0 : BitVec 4) (encCtl c)
  exact ⟨hi, hz, ctlOf_eq hc⟩

theorem wordU_parts {w : IWord} (h : bitsOf w 8 4 = 0) : bitsOf w 12 20 ++ (0 : BitVec 4) ++ encCtl (ctlOf w) = w := by
  rw [encCtl_ctlOf, ← h]
  simp only [bitsOf]
  simp (disch := omega) only [BitVec.extractLsb'_append_extractLsb'_eq_extractLsb', -Nat.reduceAdd]
  exact BitVec.extractLsb'_eq_self

/-- The fields of layout S3 (Table 6.2). -/
theorem fields_s3 (c b d : BitVec 7) (k : BitVec 1) (op : BitVec 8) (len : BitVec 2) : let w := c ++ b ++ d ++ k ++ op ++ len
    w.extractLsb' 25 7 = c ∧ w.extractLsb' 18 7 = b ∧ w.extractLsb' 11 7 = d ∧ w.extractLsb' 10 1 = k ∧ w.extractLsb' 2 8 = op ∧
      w.extractLsb' 0 2 = len := by
  simp (disch := omega) only [BitVec.extractLsb'_append_eq_of_add_le, BitVec.extractLsb'_append_eq_of_le, -Nat.reduceAdd]
  simp

/-- The fields of layout SI (Table 6.2). -/
theorem fields_si (i : BitVec 14) (d : BitVec 7) (k : BitVec 1) (op : BitVec 8) (len : BitVec 2) : let w := i ++ d ++ k ++ op ++ len
    w.extractLsb' 18 14 = i ∧ w.extractLsb' 11 7 = d ∧ w.extractLsb' 10 1 = k ∧ w.extractLsb' 2 8 = op ∧ w.extractLsb' 0 2 = len := by
  simp (disch := omega) only [BitVec.extractLsb'_append_eq_of_add_le, BitVec.extractLsb'_append_eq_of_le, -Nat.reduceAdd]
  simp

end Sys2Proof.WordFields
end

section
/-! PROOFS. O41, O42: the opcode map (Tables 6.8, 6.9), the layouts that words are read as, and decoding and encoding undone by each other (R134). -/

namespace Sys2Proof.Decoding

open Machine WordFields

-- Opcodes -----------------------------------------------------------------------------------------------------------------------------

/-- The layout of an instruction word determines the instruction, and the instruction its layout (Table 6.9). -/
theorem ofView_eq_some {v : View} {i : Instr} : ofView v = some i ↔ view i = some v := by
  constructor
  · intro h
    cases v with
    | s3 op f =>
      obtain ⟨c, hc, rfl⟩ := Option.map_eq_some_iff.1 h
      unfold s3Of at hc
      split at hc <;> cases hc <;> rfl
    | si op f =>
      obtain ⟨c, hc, rfl⟩ := Option.map_eq_some_iff.1 h
      unfold siOf at hc
      split at hc <;> cases hc
      rfl
    | sj op f =>
      obtain ⟨c, hc, rfl⟩ := Option.map_eq_some_iff.1 h
      unfold sjOf at hc
      split at hc <;> cases hc <;> rfl
    | s0 op =>
      replace h : s0Of op = some i := h
      unfold s0Of at h
      split at h <;> cases h <;> rfl
    | full op f =>
      obtain ⟨c, hc, rfl⟩ := Option.map_eq_some_iff.1 h
      unfold fullOf at hc
      split at hc <;> cases hc <;> rfl
    | fullU op f =>
      obtain ⟨c, hc, rfl⟩ := Option.map_eq_some_iff.1 h
      unfold fullUOf at hc
      split at hc <;> cases hc <;> rfl
  · intro h
    cases i <;> cases h <;> rfl

/-- Opcodes have eight bits. -/
theorem fullOf_lt {op : Nat} : (fullOf op).isSome = true → op < 256 := by
  unfold fullOf
  split <;> simp

theorem fullUOf_lt {op : Nat} : (fullUOf op).isSome = true → op < 256 := by
  unfold fullUOf
  split <;> simp

theorem assigned_lt {op : Nat} (h : assigned op = true) : op < 256 := (Bool.or_eq_true _ _ ▸ h).elim fullOf_lt fullUOf_lt

/-- The short forms are among the assigned opcodes, each opcode in one short layout (Table 6.8). -/
theorem s3Of_assigned {op : Nat} : (s3Of op).isSome = true → assigned op = true := by
  unfold s3Of
  split <;> simp [assigned, fullOf]

theorem siOf_eq {op : Nat} : (siOf op).isSome = true → op = 0x21 := by
  unfold siOf
  split <;> simp

theorem sjOf_eq {op : Nat} : (sjOf op).isSome = true → op = 0xB0 ∨ op = 0xB2 := by
  unfold sjOf
  split <;> simp

theorem s0Of_eq {op : Nat} : (s0Of op).isSome = true → op = 0xB4 ∨ op = 0xB7 ∨ op = 0xB9 := by
  unfold s0Of
  split <;> simp

theorem fullUOf_eq {op : Nat} : (fullUOf op).isSome = true → op = 0x22 ∨ op = 0x23 ∨ op = 0xB0 ∨ op = 0xB1 ∨ op = 0xB2 := by
  unfold fullUOf
  split <;> simp

theorem fullUOf_of_fullOf {op : Nat} (h : (fullOf op).isSome = true) : (fullUOf op).isSome = false := by
  by_contra hu
  obtain rfl | rfl | rfl | rfl | rfl := fullUOf_eq (Bool.not_eq_false _ ▸ hu) <;> simp [fullOf] at h

-- Parsing -----------------------------------------------------------------------------------------------------------------------------

theorem len_cases : ∀ x : BitVec 2, x = 0 ∨ x = 1 ∨ x = 2 ∨ x = 3 := by decide

/-- Table 6.1: LEN chooses the words that a layout is read from, of an assigned opcode. -/
theorem parse_eq_ok {w0 : IWord} {rest : List IWord} {v : View} : parse w0 rest = .ok v ↔ assigned (bitsOf w0 2 8).toNat = true ∧
      (bitsOf w0 0 2 = 0 ∧ parseShort (bitsOf w0 2 8).toNat w0 = .ok v ∨
        bitsOf w0 0 2 = 1 ∧ (∃ w1 l, rest = w1 :: l ∧ parseFull (bitsOf w0 2 8).toNat w0 w1 none = .ok v) ∨
        bitsOf w0 0 2 = 2 ∧ ∃ w1 w2 l, rest = w1 :: w2 :: l ∧ parseFull (bitsOf w0 2 8).toNat w0 w1 (some w2) = .ok v) := by
  obtain hlen | hlen | hlen | hlen := len_cases (bitsOf w0 0 2)
  · cases ha : assigned (bitsOf w0 2 8).toNat <;> cases hp : parseShort (bitsOf w0 2 8).toNat w0 <;> simp [parse, hlen, ha, hp]
  · obtain _ | ⟨w1, l⟩ := rest
    · simp [parse, hlen]
    · cases ha : assigned (bitsOf w0 2 8).toNat <;> cases hp : parseFull (bitsOf w0 2 8).toNat w0 w1 none <;> simp [parse, hlen, ha, hp]
  · obtain _ | ⟨w1, _ | ⟨w2, l⟩⟩ := rest
    · simp [parse, hlen]
    · simp [parse, hlen]
    · cases ha : assigned (bitsOf w0 2 8).toNat <;> cases hp : parseFull (bitsOf w0 2 8).toNat w0 w1 (some w2) <;> simp [parse, hlen, ha, hp]
  · simp [parse, hlen]

/-- Decoding: a legal layout that the words hold. -/
theorem decode_eq_ok {w0 : IWord} {rest : List IWord} {i : Instr} :
    decode (w0 :: rest) = .ok i ↔ ∃ v, parse w0 rest = .ok v ∧ illView v = none ∧ view i = some v := by
  cases hp : parse w0 rest with
  | error e => simp [decode, hp]
  | ok v =>
    cases hill : illView v with
    | some why => simp [decode, hp, hill]
    | none =>
      cases ho : ofView v with
      | none => simp [decode, hp, hill, ho, ← ofView_eq_some]
      | some j => simp [decode, hp, hill, ho, ← ofView_eq_some]

-- From words to their layout and back ---------------------------------------------------------------------------------------------------

/-- Layout F as words 0 and 1 give it, with its second source and random operand. -/
def fullRead (op : Nat) (w0 w1 : IWord) (c : Src) (r : Option (BitVec 8)) : View :=
  .full op ⟨regD w0, regB w0, c, bitsOf w1 16 3, bitsOf w1 11 5, bitsOf w1 8 3, r, ctlOf w1⟩

section
variable {op : Nat} {w0 w1 l : IWord} {v : View}

theorem parseF_reg (himm : w1.getLsbD 19 = false) : parseF op w0 w1 none = .ok v ↔
    bitsOf w1 8 3 ≠ 5 ∧ w1.getLsbD 20 = false ∧ fullRead op w0 w1 (.reg (regC w1)) none = v := by
  simp only [parseF, himm]
  split_ifs <;> simp_all [fullRead]

theorem parseF_imm (himm : w1.getLsbD 19 = true) : parseF op w0 w1 none = .ok v ↔
    bitsOf w1 8 3 ≠ 5 ∧ fullRead op w0 w1 (.imm (bitsOf w1 20 12)) none = v := by
  simp only [parseF, himm]
  split_ifs <;> simp_all [fullRead]

theorem parseF_lit (himm : w1.getLsbD 19 = true) : parseF op w0 w1 (some l) = .ok v ↔
    (bitsOf w1 8 3 = 5 ∧ ∃ r, bitsOf w1 20 12 = encRand r (regD w0).wid ∧ fullRead op w0 w1 (.lit l) (some r) = v) ∨
      (bitsOf w1 8 3 ≠ 5 ∧ bitsOf w1 20 12 = 0 ∧ fullRead op w0 w1 (.lit l) none = v) := by
  simp only [parseF, himm, ← randOf_eq_some]
  cases randOf (bitsOf w1 20 12) (regD w0).wid <;> split_ifs <;> simp_all [fullRead]

theorem parseF_regLong (himm : w1.getLsbD 19 = false) : parseF op w0 w1 (some l) = .ok v ↔ bitsOf w1 8 3 = 5 ∧ w1.getLsbD 20 = false ∧
    bitsOf l 12 20 = 0 ∧ ∃ r, bitsOf l 0 12 = encRand r (regD w0).wid ∧ fullRead op w0 w1 (.reg (regC w1)) (some r) = v := by
  simp only [parseF, himm, ← randOf_eq_some]
  cases randOf (bitsOf l 0 12) (regD w0).wid <;> split_ifs <;> simp_all [fullRead]

theorem parseU_imm : parseU op w0 w1 none = .ok v ↔
    bitsOf w1 8 4 = 0 ∧ .fullU op ⟨regD w0, regB w0, .imm20 (bitsOf w1 12 20), ctlOf w1⟩ = v := by
  simp only [parseU]
  split_ifs <;> simp_all

theorem parseU_lit : parseU op w0 w1 (some l) = .ok v ↔
    bitsOf w1 8 4 = 0 ∧ bitsOf w1 12 20 = 0 ∧ .fullU op ⟨regD w0, regB w0, .lit l, ctlOf w1⟩ = v := by
  simp only [parseU]
  split_ifs <;> simp_all

theorem parseShort_s3 (h : (s3Of op).isSome = true) : parseShort op w0 = .ok v ↔
    .s3 op ⟨fileOf (w0.getLsbD 10), bitsOf w0 11 7, bitsOf w0 18 7, bitsOf w0 25 7⟩ = v := by simp [parseShort, h]

theorem parseShort_si (h : (siOf op).isSome = true) : parseShort op w0 = .ok v ↔
    .si op ⟨fileOf (w0.getLsbD 10), bitsOf w0 11 7, bitsOf w0 18 14⟩ = v := by
  obtain rfl := siOf_eq h
  simp [parseShort, s3Of, siOf]

theorem parseShort_sj (h : (sjOf op).isSome = true) : parseShort op w0 = .ok v ↔ .sj op (bitsOf w0 10 22) = v := by
  obtain rfl | rfl := sjOf_eq h <;> simp [parseShort, s3Of, siOf, sjOf]

theorem parseShort_s0 (h : (s0Of op).isSome = true) : parseShort op w0 = .ok v ↔ bitsOf w0 10 22 = 0 ∧ .s0 op = v := by
  have hshort : (s3Of op).isSome = false ∧ (siOf op).isSome = false ∧ (sjOf op).isSome = false := by
    obtain rfl | rfl | rfl := s0Of_eq h <;> decide
  simp only [parseShort, h, hshort]
  split_ifs <;> simp_all

end

-- The words of what was read --------------------------------------------------------------------------------------------------------------

section
variable {w0 w1 : IWord} {w2 : Option IWord} {v : View}

/-- The word of a short form: its fields above OP, OP and LEN = 0b00 (Table 6.2). -/
theorem short_words (hlen : bitsOf w0 0 2 = 0) {k : BitVec 22} (hk : k = bitsOf w0 10 22) :
    [k ++ BitVec.ofNat 8 (bitsOf w0 2 8).toNat ++ (0 : BitVec 2)] = [w0] := by
  rw [hk, ← hlen, BitVec.ofNat_toNat, BitVec.setWidth_eq]
  simp (disch := omega) only [bitsOf, BitVec.extractLsb'_append_extractLsb'_eq_extractLsb', -Nat.reduceAdd]
  rw [BitVec.extractLsb'_eq_self]

theorem parseShort_words (hlen : bitsOf w0 0 2 = 0) (h : parseShort (bitsOf w0 2 8).toNat w0 = .ok v) : encodeView v = [w0] := by
  unfold parseShort at h
  split_ifs at h with h3 hi hj h0 hz <;> cases h <;> refine short_words hlen ?_
  · simp (disch := omega) only [bitsOf, fileBit_fileOf, BitVec.extractLsb'_append_extractLsb'_eq_extractLsb', -Nat.reduceAdd]
  · simp (disch := omega) only [bitsOf, fileBit_fileOf, BitVec.extractLsb'_append_extractLsb'_eq_extractLsb', -Nat.reduceAdd]
  · rfl
  · exact hz.symm

theorem parseF_words (hlen : bitsOf w0 0 2 = if w2.isSome then 2 else 1) (h : parseF (bitsOf w0 2 8).toNat w0 w1 w2 = .ok v) :
    encodeView v = w0 :: w1 :: w2.toList := by
  have hword0 := encWord0_regs w0
  have hword1 := encWord1_parts w1 (regD w0) (regB w0)
  rw [hlen] at hword0
  obtain _ | l := w2 <;> cases himm : w1.getLsbD 19 <;> rw [himm] at hword1
  · obtain ⟨-, hz, rfl⟩ := (parseF_reg himm).1 h
    rw [← encRegC_regC hz] at hword1
    exact congrArg₂ (fun a b => [a, b]) hword0 (hword1 _ _)
  · obtain ⟨-, rfl⟩ := (parseF_imm himm).1 h
    exact congrArg₂ (fun a b => [a, b]) hword0 (hword1 _ _)
  · obtain ⟨-, hz, hl, r, hr, rfl⟩ := (parseF_regLong himm).1 h
    have hlit : (0 : BitVec 20) ++ encRand r (regD w0).wid = l := by
      rw [← hl, ← hr, bitsOf, bitsOf, BitVec.extractLsb'_append_extractLsb'_eq_extractLsb' (by decide), BitVec.extractLsb'_eq_self]
    rw [← encRegC_regC hz] at hword1
    exact congr (congrArg₂ (fun a b c => [a, b, c]) hword0 (hword1 _ _)) hlit
  · obtain ⟨-, r, hr, rfl⟩ | ⟨-, hz, rfl⟩ := (parseF_lit himm).1 h
    · rw [hr] at hword1
      exact congrArg₂ (fun a b => [a, b, l]) hword0 (hword1 _ _)
    · rw [hz] at hword1
      exact congrArg₂ (fun a b => [a, b, l]) hword0 (hword1 _ _)

theorem parseU_words (hlen : bitsOf w0 0 2 = if w2.isSome then 2 else 1) (h : parseU (bitsOf w0 2 8).toNat w0 w1 w2 = .ok v) :
    encodeView v = w0 :: w1 :: w2.toList := by
  have hword0 := encWord0_regs w0
  rw [hlen] at hword0
  cases w2 with
  | none =>
    obtain ⟨hz, rfl⟩ := parseU_imm.1 h
    exact congrArg₂ (fun a b => [a, b]) hword0 (wordU_parts hz)
  | some l =>
    obtain ⟨hz, hi, rfl⟩ := parseU_lit.1 h
    exact congrArg₂ (fun a b => [a, b, l]) hword0 (hi ▸ wordU_parts hz)

theorem parseFull_words (hlen : bitsOf w0 0 2 = if w2.isSome then 2 else 1) (h : parseFull (bitsOf w0 2 8).toNat w0 w1 w2 = .ok v) :
    encodeView v = w0 :: w1 :: w2.toList := by
  unfold parseFull at h
  split_ifs at h
  · exact parseU_words hlen h
  · exact parseF_words hlen h

end

/-- Every bit of the words that a layout was read from stands in its encoding. -/
theorem parse_words {w0 : IWord} {rest : List IWord} {v : View} (h : parse w0 rest = .ok v) : ∃ l, w0 :: rest = encodeView v ++ l := by
  obtain ⟨-, ⟨hlen, hv⟩ | ⟨hlen, w1, l, rfl, hv⟩ | ⟨hlen, w1, w2, l, rfl, hv⟩⟩ := parse_eq_ok.1 h
  · exact ⟨rest, by rw [parseShort_words hlen hv]; rfl⟩
  · exact ⟨l, by rw [parseFull_words hlen hv]; rfl⟩
  · exact ⟨l, by rw [parseFull_words hlen hv]; rfl⟩

/-- Settles O42: the decoder takes a layout from the words, every bit of which stands in the layout's encoding. -/
theorem decodeSound : Obligations.DecodeSound := by
  intro ws i h
  cases ws with
  | nil => simp [decode] at h
  | cons w0 rest =>
    obtain ⟨v, hparse, hill, hview⟩ := decode_eq_ok.1 h
    refine ⟨by simp [Instr.wf, Instr.ill, hview, hill], ?_⟩
    rw [encode, hview]
    exact parse_words hparse

-- The layout that encoded words are read as ------------------------------------------------------------------------------------------------

theorem firstIll_cons {ok : Bool} {why : Ill} {l : List (Bool × Ill)} : firstIll ((ok, why) :: l) = none ↔ ok = true ∧ firstIll l = none := by
  cases ok <;> simp [firstIll]

/-- What R134 asks of a legal layout F before its operands: an assigned opcode, and a random operand under RS alone, never beside IMM12. -/
theorem illFull_none {op : Nat} {f : Full} (h : illFull op f = none) :
    (fullOf op).isSome = true ∧ (f.rand.isSome = true ↔ f.rnd = 5) ∧ ∀ i, f.c = .imm i → f.rand = none := by
  simp only [illFull, firstIll_cons] at h
  obtain ⟨hop, hsrc, hrand, -⟩ := h
  refine ⟨hop, by rw [beq_iff_eq] at hrand; rw [hrand, beq_iff_eq], fun i hi => ?_⟩
  rw [hi, Bool.and_eq_true] at hsrc
  exact Option.isNone_iff_eq_none.1 hsrc.2

theorem toNat_ofNat_of_assigned {op : Nat} (h : assigned op = true) : (BitVec.ofNat 8 op).toNat = op := by
  rw [BitVec.toNat_ofNat, Nat.mod_eq_of_lt (assigned_lt h)]

section
variable {op : Nat} {f : Full} {rest : List IWord}

/-- The words of a layout F read back, with the second source and the random operand that the decoder finds. -/
theorem fullRead_encoded (len : BitVec 2) (hi : BitVec 12) (imm : Bool) :
    fullRead op (encWord0 op f.d f.b len) (encWord1 hi imm f) f.c f.rand = .full op f := by
  obtain ⟨hd, hb, -, -⟩ := encWord0_fields (op := op) (d := f.d) (b := f.b) (len := len)
  obtain ⟨-, -, hxm, hty, hrnd, hctl⟩ := encWord1_fields (hi := hi) (imm := imm) (f := f)
  rw [fullRead, hd, hb, hxm, hty, hrnd, hctl]

/-- A legal layout F is what its words are read as. -/
theorem parseF_encoded (h : illFull op f = none) : ∃ len w1 w2, encodeView (.full op f) = encWord0 op f.d f.b len :: w1 :: w2.toList ∧
    len = (if w2.isSome then 2 else 1) ∧ parseF op (encWord0 op f.d f.b len) w1 w2 = .ok (.full op f) := by
  obtain ⟨-, hrs, himm⟩ := illFull_none h
  have hread := fullRead_encoded (op := op) (f := f)
  have hword1 := fun hi imm => encWord1_fields (hi := hi) (imm := imm) (f := f)
  have hd := fun len => (encWord0_fields (op := op) (d := f.d) (b := f.b) (len := len)).1
  cases hc : f.c with
  | reg c =>
    obtain ⟨hhi, hi, -, -, hrnd, -⟩ := hword1 (encRegC c) false
    obtain ⟨hrc, hz⟩ := regC_eq hhi
    cases hr : f.rand with
    | none =>
      refine ⟨1, _, none, by simp only [encodeView, hc, hr]; rfl, rfl, (parseF_reg hi).2 ⟨?_, hz, ?_⟩⟩
      · rw [hrnd]
        simpa [hr] using hrs
      · rw [hrc, ← hc, ← hr, hread]
    | some r =>
      obtain ⟨hl, hrand⟩ := fields_two (0 : BitVec 20) (encRand r f.d.wid)
      refine ⟨2, _, some _, by simp only [encodeView, hc, hr]; rfl, rfl, (parseF_regLong hi).2 ⟨?_, hz, hl, r, ?_, ?_⟩⟩
      · rw [hrnd]
        simpa [hr] using hrs
      · rw [hd]
        exact hrand
      · rw [hrc, ← hc, ← hr, hread]
  | imm i =>
    have hr := himm i hc
    obtain ⟨hhi, hi, -, -, hrnd, -⟩ := hword1 i true
    refine ⟨1, _, none, by simp only [encodeView, hc]; rfl, rfl, (parseF_imm hi).2 ⟨?_, ?_⟩⟩
    · rw [hrnd]
      simpa [hr] using hrs
    · rw [hhi, ← hc, ← hr, hread]
  | lit l =>
    cases hr : f.rand with
    | none =>
      obtain ⟨hhi, hi, -, -, hrnd, -⟩ := hword1 0 true
      refine ⟨2, _, some _, by simp only [encodeView, hc, hr]; rfl, rfl, (parseF_lit hi).2 (.inr ⟨?_, hhi, ?_⟩)⟩
      · rw [hrnd]
        simpa [hr] using hrs
      · rw [← hc, ← hr, hread]
    | some r =>
      obtain ⟨hhi, hi, -, -, hrnd, -⟩ := hword1 (encRand r f.d.wid) true
      refine ⟨2, _, some _, by simp only [encodeView, hc, hr]; rfl, rfl, (parseF_lit hi).2 (.inl ⟨?_, r, ?_, ?_⟩)⟩
      · rw [hrnd]
        simpa [hr] using hrs
      · rw [hd, hhi]
      · rw [← hc, ← hr, hread]

theorem parseU_encoded (f : FullU) : ∃ len w1 w2, encodeView (.fullU op f) = encWord0 op f.d f.b len :: w1 :: w2.toList ∧
    len = (if w2.isSome then 2 else 1) ∧ parseU op (encWord0 op f.d f.b len) w1 w2 = .ok (.fullU op f) := by
  have hregs := fun len => encWord0_fields (op := op) (d := f.d) (b := f.b) (len := len)
  cases hi : f.imm with
  | imm20 i =>
    obtain ⟨hd, hb, -, -⟩ := hregs 1
    obtain ⟨himm, hz, hctl⟩ := wordU_fields i f.ctl
    refine ⟨1, _, none, by simp only [encodeView, hi]; rfl, rfl, parseU_imm.2 ⟨hz, ?_⟩⟩
    rw [himm, hctl, hd, hb, ← hi]
  | lit l =>
    obtain ⟨hd, hb, -, -⟩ := hregs 2
    obtain ⟨himm, hz, hctl⟩ := wordU_fields 0 f.ctl
    refine ⟨2, _, some _, by simp only [encodeView, hi]; rfl, rfl, parseU_lit.2 ⟨hz, himm, ?_⟩⟩
    rw [hctl, hd, hb, ← hi]

end

/-- A word whose opcode and length are known, read as a short form. -/
theorem parse_short {op : Nat} {w : IWord} {v : View} (hop : bitsOf w 2 8 = BitVec.ofNat 8 op) (hlen : bitsOf w 0 2 = 0) (ha : assigned op = true)
    (h : parseShort op w = .ok v) (rest : List IWord) : parse w rest = .ok v := by
  rw [parse_eq_ok, hop, toNat_ofNat_of_assigned ha]
  exact ⟨ha, .inl ⟨hlen, h⟩⟩

theorem parse_full {op : Nat} {d b : Reg} {len : BitVec 2} {w1 : IWord} {w2 : Option IWord} {v : View} (hlen : len = if w2.isSome then 2 else 1)
    (ha : assigned op = true) (h : parseFull op (encWord0 op d b len) w1 w2 = .ok v) (rest : List IWord) :
    parse (encWord0 op d b len) (w1 :: w2.toList ++ rest) = .ok v := by
  obtain ⟨-, -, hop, hl⟩ := encWord0_fields (op := op) (d := d) (b := b) (len := len)
  rw [parse_eq_ok, hop, toNat_ofNat_of_assigned ha, hl, hlen]
  cases w2 with
  | none => exact ⟨ha, .inr (.inl ⟨rfl, w1, rest, rfl, hlen ▸ h⟩)⟩
  | some l => exact ⟨ha, .inr (.inr ⟨rfl, w1, l, rest, rfl, hlen ▸ h⟩)⟩

/-- A legal layout is what its words are read as, whatever words follow. -/
theorem parse_encodeView {v : View} (h : illView v = none) : ∃ w0 l, encodeView v = w0 :: l ∧ ∀ rest, parse w0 (l ++ rest) = .ok v := by
  cases v with
  | s3 op f =>
    obtain ⟨hop, -⟩ := firstIll_cons.1 h
    obtain ⟨hc, hb, hd, hk, hw, hlen⟩ := fields_s3 f.c f.b f.d (fileBit f.k) (.ofNat 8 op) 0
    refine ⟨_, [], rfl, parse_short hw hlen (s3Of_assigned hop) ((parseShort_s3 hop).2 ?_)⟩
    rw [getLsbD_eq_field, bitsOf, bitsOf, bitsOf, hc, hb, hd, hk, fileOf_fileBit]
  | si op f =>
    obtain ⟨hop, -⟩ := firstIll_cons.1 h
    obtain ⟨hi, hd, hk, hw, hlen⟩ := fields_si f.imm f.d (fileBit f.k) (.ofNat 8 op) 0
    refine ⟨_, [], rfl, parse_short hw hlen (siOf_eq hop ▸ rfl) ((parseShort_si hop).2 ?_)⟩
    rw [getLsbD_eq_field, bitsOf, bitsOf, hi, hd, hk, fileOf_fileBit]
  | sj op i =>
    obtain ⟨hop, -⟩ := firstIll_cons.1 h
    obtain ⟨hi, hw, hlen⟩ := fields_three i (.ofNat 8 op) (0 : BitVec 2)
    refine ⟨_, [], rfl, parse_short hw hlen (by obtain rfl | rfl := sjOf_eq hop <;> rfl) ((parseShort_sj hop).2 (congrArg _ hi))⟩
  | s0 op =>
    obtain ⟨hop, -⟩ := firstIll_cons.1 h
    obtain ⟨hi, hw, hlen⟩ := fields_three (0 : BitVec 22) (.ofNat 8 op) (0 : BitVec 2)
    exact ⟨_, [], rfl, parse_short hw hlen (by obtain rfl | rfl | rfl := s0Of_eq hop <;> rfl) ((parseShort_s0 hop).2 ⟨hi, rfl⟩)⟩
  | full op f =>
    obtain ⟨hop, -, -⟩ := illFull_none h
    obtain ⟨len, w1, w2, hwords, hlen, hparse⟩ := parseF_encoded h
    refine ⟨_, _, hwords, parse_full hlen (Bool.or_eq_true_iff.2 (.inl hop)) ?_⟩
    rw [parseFull, fullUOf_of_fullOf hop]
    exact hparse
  | fullU op f =>
    obtain ⟨hop, -⟩ := firstIll_cons.1 h
    obtain ⟨len, w1, w2, hwords, hlen, hparse⟩ := parseU_encoded (op := op) f
    refine ⟨_, _, hwords, parse_full hlen (Bool.or_eq_true_iff.2 (.inr hop)) ?_⟩
    rw [parseFull, if_pos hop]
    exact hparse

/-- Settles O41: a legal layout is what its words are read as, and it determines its instruction. -/
theorem decodeEncode : Obligations.DecodeEncode := by
  intro i rest h
  obtain ⟨v, hv, hill⟩ : ∃ v, view i = some v ∧ illView v = none := by
    cases hv : view i with
    | none => simp [Instr.wf, Instr.ill, hv] at h
    | some v => exact ⟨v, rfl, by simpa [Instr.wf, Instr.ill, hv] using h⟩
  obtain ⟨w0, l, hwords, hparse⟩ := parse_encodeView hill
  rw [encode, hv]
  simp only [hwords, List.cons_append]
  exact decode_eq_ok.2 ⟨v, hparse rest, hill, hv⟩

end Sys2Proof.Decoding
end

section
/-! PROOFS. O39, O43: words that R134 refuses, and what a group's turn makes of the words at its issue address (R134, R135, R137, R151). -/

namespace Sys2Proof.GroupTurns

open Machine Safety Decoding

-- Refused words ---------------------------------------------------------------------------------------------------------------------------

/-- The opcodes that Table 6.8 assigns. -/
theorem assigned_iff : ∀ op < 256, assigned op = true ↔ 0x01 ≤ op ∧ op ≤ 0x0A ∨ 0x10 ≤ op ∧ op ≤ 0x1C ∨ 0x20 ≤ op ∧ op ≤ 0x24 ∨
    0x40 ≤ op ∧ op ≤ 0x4D ∨ 0x50 ≤ op ∧ op ≤ 0x55 ∨ 0x80 ≤ op ∧ op ≤ 0x89 ∨ 0x90 ≤ op ∧ op ≤ 0x99 ∨ 0xA0 ≤ op ∧ op ≤ 0xA5 ∨
    0xB0 ≤ op ∧ op ≤ 0xB9 ∨ 0xC0 ≤ op ∧ op ≤ 0xCD ∨ 0xD0 ≤ op ∧ op ≤ 0xD9 ∨ 0xE0 ≤ op ∧ op ≤ 0xE9 ∨ 0xF0 ≤ op ∧ op ≤ 0xF7 := by
  decide +kernel

theorem decode_illegalLength {w0 : IWord} {rest : List IWord} (hlen : bitsOf w0 0 2 = 3) : decode (w0 :: rest) = .error (.ill .len) := by
  simp [decode, parse, hlen]

theorem decode_unassigned {w0 : IWord} {rest : List IWord} (hlen : bitsOf w0 0 2 ≠ 3) (hl : lenWords w0 ≤ rest.length + 1)
    (h : assigned (bitsOf w0 2 8).toNat = false) : decode (w0 :: rest) = .error (.ill .unassigned) := by
  obtain h0 | h1 | h2 | h3 := len_cases (bitsOf w0 0 2)
  · simp [decode, parse, h0, h]
  · obtain _ | ⟨w1, l⟩ := rest
    · simp [lenWords, h1] at hl
    · simp [decode, parse, h1, h]
  · obtain _ | ⟨w1, _ | ⟨w2, l⟩⟩ := rest
    · simp [lenWords, h2] at hl
    · simp [lenWords, h2] at hl
    · simp [decode, parse, h2, h]
  · exact absurd h3 hlen

-- A group's turn --------------------------------------------------------------------------------------------------------------------------

section
variable {s : State} {g : Nat} {i : Instr} {a : Nat}

theorem atIssue_instr {x : Group} (ha : x.issueAddr = some a) (h : decode (wordsIn (x.fetched a)) = .ok i) : x.atIssue = .instr i := by
  cases hw : wordsIn (x.fetched a) with
  | nil => simp [hw, decode] at h
  | cons w0 l => simp [Group.atIssue, ha, hw, hw ▸ h]

theorem atIssue_bad {x : Group} {w0 : IWord} {l : List IWord} {e : DecodeError} (ha : x.issueAddr = some a) (hw : wordsIn (x.fetched a) = w0 :: l)
    (h : decode (w0 :: l) = .error e) : x.atIssue = .bad (lenWords w0) w0.toNat (l.headD 0).toNat := by
  simp [Group.atIssue, ha, hw, h]

/-- A turn that comes to an instruction (R137, R151): nothing but a reported fault is waited on, and neither a breakpoint nor WDOG is due. -/
theorem groupTurn_run (hg : InTurn s g)
    (hwait : (s.group g).wait = .none ∨ (∃ n, (s.group g).wait = .fault n) ∧ (s.group g).inSecond = false) (hb : s.breakpoint g = none)
    (hdog : (s.group g).wdog = false ∨ (s.group g).inh = true) (ha : (s.group g).issueAddr = some a) (hi : (s.group g).atIssue = .instr i) :
    groupTurn s g = .run i := by
  obtain ⟨hlt, hend, hon⟩ := hg
  have hdog' : ((s.group g).wdog && !(s.group g).inh) = false := by rcases hdog with h | h <;> simp [h]
  have hfirst : wdogFirst s g i = false := by simp [wdogFirst, ha, hdog']
  obtain hw | ⟨⟨n, hw⟩, hsec⟩ := hwait
  · simp [groupTurn, hlt.not_ge, hend, hon, hw, hb, ha, hi, hfirst]
  · simp [groupTurn, hlt.not_ge, hend, hon, hw, hsec, hb, ha, hi, hfirst]

theorem groupTurn_bad {n w0 w1 : Nat} (hg : InTurn s g) (hwait : (s.group g).wait = .none) (hb : s.breakpoint g = none)
    (ha : (s.group g).issueAddr = some a) (hi : (s.group g).atIssue = .bad n w0 w1) : groupTurn s g = .bad n w0 w1 := by
  obtain ⟨hlt, hend, hon⟩ := hg
  simp [groupTurn, hlt.not_ge, hend, hon, hwait, hb, ha, hi]

theorem exec_illegalInstructionTrap (n w0 w1 : Nat) : exec (.illegalInstructionTrap g n w0 w1) s = execIllegalInstructionTrap g n w0 w1 s := rfl

/-- Words at the issue address that do not decode (R134, R135, R370). -/
theorem exec_illegalInstructionTrap_bad {n w0 w1 : Nat} (hg : InTurn s g) (hwait : (s.group g).wait = .none) (hb : s.breakpoint g = none)
    (ha : (s.group g).issueAddr = some a) (hi : (s.group g).atIssue = .bad n w0 w1) :
    exec (.illegalInstructionTrap g n w0 w1) s = .next (if (s.group g).pcvBad = true then consumePcv s g
      else enterTrap s g ⟨0x01, (s.group g).lanesAt a, badInfo w0 w1⟩ n false a) := by
  obtain ⟨hlt, hend, hon⟩ := hg
  simp [exec_illegalInstructionTrap, execIllegalInstructionTrap, hlt.not_ge, hend, hon, hwait, hb, ha, hi]

end

/-- Settles O43: LEN and OP are looked at first, and what does not decode at the issue address is a turn of its own. -/
theorem refusedEncodings : Obligations.RefusedEncodings := by
  unfold Obligations.RefusedEncodings
  intro isAssigned
  refine ⟨fun w0 rest => decode_illegalLength, fun w0 rest hlen hl h => decode_unassigned hlen hl ?_,
    fun s w0 l e a hag hlt hend hon hwait hb ha hw hd => ?_⟩
  · rw [← Bool.not_eq_true, assigned_iff _ (bitsOf w0 2 8).isLt]
    exact h
  · have hi := atIssue_bad ha hw hd
    rw [step, hag]
    simp only [stepGroup, groupTurn_bad ⟨hlt, hend, hon⟩ hwait hb ha hi]
    exact exec_illegalInstructionTrap_bad ⟨hlt, hend, hon⟩ hwait hb ha hi

/-- Settles O39: the turn of a group that nothing holds is the decoded instruction, whoever else is on the agenda. -/
theorem stepRunsDecoded : Obligations.StepRunsDecoded := by
  unfold Obligations.StepRunsDecoded
  intro stands
  have hrun : ∀ s g i, stands s g i → stepGroup s g = exec i s := by
    rintro s g i ⟨hlt, hend, hon, hwait, hb, hdog, a, ha, hi⟩
    rw [stepGroup, groupTurn_run ⟨hlt, hend, hon⟩ hwait hb hdog ha (atIssue_instr ha hi)]
  refine ⟨fun s i hag h => ?_, fun s g l i hag h => ?_, fun s i l hag hv => ?_⟩
  · rw [step, hag]
    exact hrun s s.cur i h
  · rw [step, hag]
    exact hrun { s with agenda := l, cur := g } g i h
  · rw [step, hag]
    simp [stepTurn, hv]

end Sys2Proof.GroupTurns
end

section
/-! PROOFS. O47: a fetch whose page no cache holds fills the translation pair of its team (R116, R227). -/

namespace Sys2Proof.ColdFetch

open Machine Safety

/-- EXIT at 0x1000, and page tables from 0x100000 on that map the low GiB to itself for reading, writing and fetching (Table 10.7). -/
def coldMemory : List Host.Cell :=
  memWrite (memWrite (memWrite (memWrite [] 0x1000 (toBytes 4 0x2DC)) 0x100000 (toBytes 8 0x101001)) 0x101000 (toBytes 8 0x102001))
    0x102000 (toBytes 8 15)

/-- A team that has just been placed, its group at 0x1000 with an empty fetch buffer, and no translation cached for anyone. -/
def cold : State := placeGroup { State.reset with mem := coldMemory, ctxs := [{ ptroot := 0x100001 }], cores := [{}] }

/-- The state in which the word at 0x1000 has been read for the group. -/
def warm : State := (codeInstr cold 0 true 0x1000).1

theorem codeInstr_cold : codeInstr cold 0 true 0x1000 = (warm, .ok [0x2DC]) := Prod.ext rfl (by decide +kernel)

/-- Nothing stands between the group and its fetch. -/
theorem inTurn_cold : InTurn cold 0 := ⟨by decide +kernel, by decide +kernel, by decide +kernel⟩

/-- The walk's answer is cached for the team (R227). -/
theorem tlb_warm : (cold.team 0).tlb = [] ∧ (warm.team 0).tlb = [{ va := 0, sh := 30, pa := 0, x := true, w := true }] := by decide +kernel

/-- Refutes O47: a fetch that passes does not leave teams as they were, for where its page is in no cache the walk's answer fills the
translation pair of its team. -/
theorem not_fetchAndTrapEvents : ¬ Obligations.FetchAndTrapEvents := by
  unfold Obligations.FetchAndTrapEvents
  rintro ⟨-, -, -, -, -, hfetch, -⟩
  obtain ⟨t, more, -, -, -, halone, -, -, ⟨-, hteams, -⟩, -⟩ := hfetch cold 0 0 0x1000 warm [0x2DC] inTurn_cold (by decide +kernel)
    (by decide +kernel) (by decide +kernel) (by decide +kernel) (by decide +kernel) codeInstr_cold
  obtain ⟨-, rfl⟩ := halone rfl
  obtain ⟨hcold, hwarm⟩ := tlb_warm
  have hsame : (warm.team 0).tlb = (cold.team 0).tlb := congrArg (fun l => (getAt {} l 0 : Team).tlb) hteams
  rw [hcold, hwarm] at hsame
  cases hsame

end Sys2Proof.ColdFetch
end

section
/-! PROOFS. Rows that act on the registers of their group (R127, R152, R176): the effect, the lanes moved on, release, and the rest as it was. -/

namespace Sys2Proof.GroupEffects

open Machine Laws Safety InstructionEnd RegisterRows RunRows

-- Effects on a ready group ----------------------------------------------------------------------------------------------------------

/-- The registers of two groups are the same. -/
structure SameRegs (x y : Group) : Prop where
  v     : y.v = x.v
  s     : y.s = x.s
  p     : y.p = x.p
  j     : y.j = x.j
  flags : y.flags = x.flags

theorem SameRegs.kept {x y : Group} (h : SameRegs x y) : RegsKept x y := regsKept_of_eq ⟨h.v, h.s, h.p, h.j, h.flags⟩

theorem SameRegs.trans {x y z : Group} (h : SameRegs x y) (k : SameRegs y z) : SameRegs x z :=
  ⟨k.v.trans h.v, k.s.trans h.s, k.p.trans h.p, k.j.trans h.j, k.flags.trans h.flags⟩

theorem sameRegs_issued (s : State) (i : Instr) (is : Iss) : SameRegs (s.group is.g) ((issued s i is).group is.g) := by
  obtain ⟨hv, hs, hp, hj, hflags, -⟩ := issued_regs s i is
  exact ⟨hv, hs, hp, hj, hflags⟩

theorem sameRegs_released {x y : Group} (h : Laws.Released x y) : SameRegs x y := by
  obtain ⟨hv, hs, hp, hj, hflags⟩ := released_regs h
  exact ⟨hv, hs, hp, hj, hflags⟩

/-- A run written between two groups with the registers of others is written between those. -/
theorem runWritten_of_same {x y x' y' : Group} {d : Reg} {m : Mask} {val : Nat → Nat → Word} (hx : SameRegs x' x) (hy : SameRegs y y')
    (h : RunWritten x y d m val) : RunWritten x' y' d m val := by
  refine ⟨fun n l hl => ?_, fun n => ?_⟩
  · rw [vcell_congr hy.v, h.1 n l hl, vcell_congr hx.v]
  · rw [sreg_congr hy.s, h.2 n, sreg_congr hx.s]

/-- A group on the way through its instruction: it stands where it stood, its lanes stand where they stood, and no parity mark is new. -/
structure InPlace (x y : Group) : Prop where
  lanes : y.lanes = x.lanes
  marks : ∀ r ∈ y.vbad, r ∈ x.vbad
  place : PlaceKept x y

theorem inPlace_issued (s : State) (i : Instr) (is : Iss) : InPlace (s.group is.g) ((issued s i is).group is.g) :=
  ⟨(issued_regs s i is).2.2.2.2.2, fun _ hr => issued_vbad s i is ▸ hr, placeKept_issued s i is⟩

/-- New registers and fewer marks leave a group in place. -/
theorem InPlace.regs {x z : Group} (h : InPlace x z) {v : List (List Word)} {sr : List Word} {p j : List Mask} {fl : Flags} {b : List (Res × Nat)}
    (hb : ∀ r ∈ b, r ∈ z.vbad) : InPlace x { z with v := v, s := sr, p := p, j := j, flags := fl, vbad := b } where
  lanes := h.lanes
  marks := fun r hr => h.marks r (hb r hr)
  place := { h.place with }

/-- The end of an instruction keeps the frame, and release is all that happens to the group. -/
theorem post_underway {s t : State} {g : Nat} (hu : Underway s t g) (hg : g < s.groups.length) (hplace : PlaceKept (s.group g) (t.group g))
    (hlive : (t.group g).live ≠ 0) (hjoin : (t.group g).badJoin = none) :
    (post t g).group g = (t.group g).release ∧ Underway s (post t g) g := by
  have hend := ended_post hlive hjoin (groupsKept_lt hu.groups hg)
  refine ⟨?_, hu.ended hend (hu.backByte hplace.core hplace.slot (.inr hplace.vbound.le))⟩
  obtain ⟨m, p, hm, -⟩ := backRows_fields (t.setGroup g (t.group g).release) g
  rw [post_live hlive hjoin, hm]
  exact group_setGroup_same _ _ _

/-- Release leaves a lane that is not parked. -/
theorem lane_released {x y : Group} (h : Laws.Released x y) {l : Nat} (hl : (x.lane l).p = false ∨ (x.lane l).x = true) : y.lane l = x.lane l := by
  rcases h.2.2 l with e | ⟨hp, hx, -⟩
  · exact e
  · simp [hp, hx] at hl

/-- An instruction that acts on its own group's registers leaves them as its effect does, and the rest as every such row leaves it. -/
theorem regBody_settled {s : State} {i : Instr} {is : Iss} (f : Iss → Group → Group) {y : Group} (h : Ready s i is)
    (hw : Memory.wf s.mem = true) (hy : f is ((issued s i is).group is.g) = y) (hin : InPlace (s.group is.g) y) :
    (regBody f is (issued s i is)).group is.g = (y.advance is.at_ is.a is.len).release ∧
      SameRegs y ((regBody f is (issued s i is)).group is.g) ∧ Settled s (regBody f is (issued s i is)) is := by
  subst hy
  have hplace : PlaceKept (s.group is.g) ((f is ((issued s i is).group is.g)).advance is.at_ is.a is.len) := { hin.place with }
  have hlive : ((f is ((issued s i is).group is.g)).advance is.at_ is.a is.len).live ≠ 0 := by
    rw [live_advance, live_congr hin.lanes, h.isGroup]
    exact live_of_issueAddr h.addr
  have hjoin : ((f is ((issued s i is).group is.g)).advance is.at_ is.a is.len).badJoin = none :=
    badJoin_advance _ _ _ (badJoin_mono hin.lanes hin.marks (by rw [h.isGroup]; exact h.joins))
  obtain ⟨hgroup, hu⟩ := post_underway ((underway_issued h hw).setGroup (ready_lt h) ((f is ((issued s i is).group is.g)).advance is.at_ is.a is.len))
    (ready_lt h) (by rwa [group_setGroup_same]) (by rwa [group_setGroup_same]) (by rwa [group_setGroup_same])
  rw [group_setGroup_same] at hgroup
  have hrel := release_released ((f is ((issued s i is).group is.g)).advance is.at_ is.a is.len)
  rw [← hgroup] at hrel
  obtain ⟨hv, hs, hp, hj, hflags⟩ := sameRegs_released hrel
  exact ⟨hgroup, ⟨hv, hs, hp, hj, hflags⟩, released_advanced h hin.lanes hrel, placeKept_released hplace hrel, hu.groups, hu.machine, hu.mem⟩

/-- The lanes of one mask that are not in another. -/
theorem getLsbD_without (m k : Mask) {l : Nat} (hl : l < 32) : (m &&& ~~~k).getLsbD l = (m.getLsbD l && !k.getLsbD l) := by
  rw [BitVec.getLsbD_and, BitVec.getLsbD_not, decide_eq_true hl, Bool.true_and]

-- A word for every lane ---------------------------------------------------------------------------------------------------------------

theorem putRun_word (g : Group) {d : Reg} (hd : d.wid = 0) (m : Mask) (w : Word) :
    RunWritten g (g.putRun d m 0 [rowOfWord w]) d m fun _ _ => w := by
  have hlen : runLen d.wid = 1 := by rw [hd]; rfl
  refine runWritten_congr (putRun_written g d m [rowOfWord w] hlen.symm) fun j l hj hl _ => ?_
  rw [hlen, Nat.lt_one_iff] at hj
  have hrow : rowOfWord w = (List.range 32).map fun _ => w := by simp [rowOfWord]
  subst hj
  rw [hrow]
  exact cell_map_range 1 (fun _ _ => w) 0 l Nat.zero_lt_one hl

/-- What one word written to every lane can change. -/
theorem inPlace_putRun {x z : Group} (h : InPlace x z) (d : Reg) (m : Mask) (rows : List (List Word)) : InPlace x (z.putRun d m 0 rows) := by
  obtain ⟨v, sr, b, e, hb⟩ := putRun_fields d m rows 0 z
  rw [e]
  exact h.regs (z := z) hb

theorem putRun_else (z : Group) (d : Reg) (m : Mask) (rows : List (List Word)) :
    (z.putRun d m 0 rows).p = z.p ∧ (z.putRun d m 0 rows).j = z.j ∧ (z.putRun d m 0 rows).flags = z.flags := by
  obtain ⟨v, sr, b, e, -⟩ := putRun_fields d m rows 0 z
  rw [e]
  exact ⟨rfl, rfl, rfl⟩

/-- A row that writes one word to its register and raises flags (R174, R171). -/
theorem word_row {i : Instr} {d : Reg} {is : Iss} {s : State} (val : Iss → Group → Word × Flags)
    (hval : ∀ is x y, SameRegs x y → val is y = val is x)
    (hrow : ∀ s, exec i s = issue i (regBody fun is g => (g.putRun d is.act 0 [rowOfWord (val is g).1]).raise (val is g).2) s)
    (h : Ready s i is) (hd : d.wid = 0) (ha : is.act ≠ 0) (hw : Memory.wf s.mem = true) : ∃ t, exec i s = .next t ∧
      RunWritten (s.group is.g) (t.group is.g) d is.act (fun _ _ => (val is (s.group is.g)).1) ∧
      (t.group is.g).flags = (s.group is.g).flags ||| (val is (s.group is.g)).2 ∧
      PredsKept (s.group is.g) (t.group is.g) ∧ JoinsKept (s.group is.g) (t.group is.g) ∧ Settled s t is := by
  have hsame := sameRegs_issued s i is
  have hput := inPlace_putRun (inPlace_issued s i is) d is.act [rowOfWord (val is ((issued s i is).group is.g)).1]
  obtain ⟨hp, hj, hflags⟩ := putRun_else ((issued s i is).group is.g) d is.act [rowOfWord (val is ((issued s i is).group is.g)).1]
  obtain ⟨-, hregs, hsettled⟩ := regBody_settled (fun is g => (g.putRun d is.act 0 [rowOfWord (val is g).1]).raise (val is g).2) h hw rfl
    ⟨hput.lanes, hput.marks, { hput.place with }⟩
  refine ⟨_, exec_ready hrow h ha, runWritten_of_same hsame hregs ?_, ?_, fun n => ?_, fun n => ?_, hsettled⟩
  · rw [← hval _ _ _ hsame]
    exact runWritten_raise (putRun_word _ hd _ _) _
  · rw [hregs.flags, raise_flags, hflags, hsame.flags, hval _ _ _ hsame]
  · exact pred_congr (hregs.p.trans (hp.trans hsame.p)) n
  · rw [hregs.j, raise_j, hj, hsame.j]

/-- A row that writes a predicate register. -/
theorem predRow_of_putP {i : Instr} {n : Nat} (bits : Iss → Group → Mask) (hbits : ∀ is x y, SameRegs x y → bits is y = bits is x)
    (hrow : ∀ s, exec i s = issue i (regBody fun is g => g.putP n is.act (bits is g)) s) :
    PredRow i n fun s is l => (bits is (s.group is.g)).getLsbD l := by
  intro s is h ha hw
  have hsame := sameRegs_issued s i is
  have hin := (inPlace_issued s i is).regs (v := ((issued s i is).group is.g).v) (sr := ((issued s i is).group is.g).s)
    (p := (((issued s i is).group is.g).putP n is.act (bits is ((issued s i is).group is.g))).p) (j := ((issued s i is).group is.g).j)
    (fl := ((issued s i is).group is.g).flags) (b := ((issued s i is).group is.g).marksOff (.p n)) fun r hr => (List.mem_filter.1 hr).1
  obtain ⟨-, hregs, hsettled⟩ := regBody_settled (fun is g => g.putP n is.act (bits is g)) h hw rfl hin
  have hp := hregs.p
  rw [putP_p, hsame.p, hbits _ _ _ hsame] at hp
  refine ⟨_, exec_ready hrow h ha, ⟨fun l hl => ?_, fun m hm => ?_⟩, fun m l _ => ?_, fun m => ?_, ?_, fun m => ?_, hsettled⟩
  · rw [hp, getAt_setAt_same]
    simp only [BitVec.getLsbD_or, BitVec.getLsbD_and, BitVec.getLsbD_not, hl, decide_true, Bool.true_and]
    cases is.act.getLsbD l <;> simp
  · rw [hp, getAt_setAt_other _ _ _ _ _ hm]
  · exact vcell_congr (hregs.v.trans hsame.v) m l
  · exact sreg_congr (hregs.s.trans hsame.s) m
  · rw [hregs.flags, putP_flags, hsame.flags]
  · rw [hregs.j, putP_j, hsame.j]

theorem raise_zero (g : Group) : g.raise 0 = g := by simp [Group.raise]

-- No active lane ------------------------------------------------------------------------------------------------------------------------

/-- Lanes that move on and nothing else: what a ready instruction with an empty active() comes to, and NOP in any case (R152, R170). -/
theorem passed_quiet {s : State} {i : Instr} {is : Iss} (h : Ready s i is) (hw : Memory.wf s.mem = true) :
    Quiet s (regBody (fun _ g => g) is (issued s i is)) is := by
  obtain ⟨-, hregs, hsettled⟩ := regBody_settled (fun _ g => g) h hw rfl (inPlace_issued s i is)
  exact ⟨((sameRegs_issued s i is).trans hregs).kept, hsettled⟩

/-- Settles O45: every row issues first, and an issue with no lane in active() ends with the advance. -/
theorem noActiveLanes : Obligations.NoActiveLanes := by
  unfold Obligations.NoActiveLanes
  intro i s is hi h ha hw
  obtain ⟨body, hrow⟩ := FirstCauses.exec_row hi
  exact ⟨_, by rw [hrow, issue_ready _ h, if_pos ha]; rfl, passed_quiet h hw⟩

end Sys2Proof.GroupEffects
end

section
/-! PROOFS. O13: VOTE, BALLOT, SHFL, QSWAP and QBCAST (R171 to R173). -/

namespace Sys2Proof.CrossLane

open Machine Laws Safety InstructionEnd RunRows Numbers GroupEffects

/-- A field that asks for one register names one. -/
theorem wid_of_meets {r : Reg} (h : r.meets (.x 0) = true) : r.wid = 0 := by
  simp only [Reg.meets, Bool.and_eq_true, beq_iff_eq] at h
  exact BitVec.eq_of_toNat_eq h.1

theorem ops_of_ready {s : State} {i : Instr} {is : Iss} {op : Nat} {f : Full} (h : Ready s i is) (hi : Instr.ill i = illFull op f) :
    (rowOf op f).xm = true ∧ (rowOf op f).ops = true := illFull_none (hi.symm.trans (ill_of_ready h))

-- VOTE and BALLOT (R171) ------------------------------------------------------------------------------------------------------------------

/-- The lanes of the mask that VOTE writes. -/
def voteMask (f : Full) (is : Iss) (g : Group) : Mask :=
  let c := is.contrib
  let nc := countMask c
  if voteResult f.xm.toNat (countMask (c &&& g.pred f.b.num.toNat)) nc (if f.c.immNat = 63 then nc else f.c.immNat) then BitVec.allOnes 32 else 0

theorem vote_row (f : Full) : PredRow (.vote f) f.d.num.toNat fun s is l => (voteMask f is (s.group is.g)).getLsbD l :=
  predRow_of_putP (voteMask f) (fun is x y h => by simp only [voteMask, pred_congr h.p]) fun _ => rfl

/-- The comparison of R171, in the integers. -/
theorem voteResult_eq (mode k nc th : Nat) : voteResult mode k nc th = match mode with
    | 0 => decide (th ≤ k) | 1 => decide (k ≤ th) | 2 => decide (k = th) | _ => decide (k ≤ th ∨ (nc : Int) - th ≤ k) := by
  have hover : nc ≤ k + th ↔ (nc : Int) - th ≤ k := by omega
  match mode with
  | 0 | 1 => rfl
  | 2 => exact beq_eq_decide k th
  | _ + 3 => simp only [voteResult, ← Bool.decide_or, hover]

theorem getLsbD_all (b : Bool) {l : Nat} (hl : l < 32) : (if b then BitVec.allOnes 32 else 0 : Mask).getLsbD l = b := by
  cases b
  · simp
  · rw [if_pos rfl, BitVec.getLsbD_allOnes, decide_eq_true hl]

theorem lowLane_eq_find (m : Mask) : lowLane m = (List.range 32).find? fun l => m.getLsbD l := by
  rw [lowLane, lanesOf, List.head?_filter]

/-- What BALLOT makes of its predicate. -/
def ballotWord (f : Full) (is : Iss) (g : Group) : Word × Flags :=
  let m := is.contrib &&& g.pred f.b.num.toNat
  let lo := match lowLane m with | some l => l | none => 63
  (wd (m.toNat + countMask m * 2 ^ 32 + lo * 2 ^ 40), 0)

theorem ballot_row (f : Full) : RunRow (.ballot f) f.d fun s is _ _ => ballotWord f is (s.group is.g) := by
  intro s is h ha hw
  obtain ⟨-, hops⟩ := ops_of_ready h (op := 0xA4) rfl
  obtain ⟨hd, -⟩ := Bool.and_eq_true_iff.1 hops
  obtain ⟨t, ht, hrun, hflags, hrest⟩ := word_row (ballotWord f) (fun is x y e => by simp only [ballotWord, pred_congr e.p])
    (fun s => by simp only [ballotWord, raise_zero]; rfl) h (wid_of_meets hd) ha hw
  refine ⟨t, ht, hrun, fun b _ => ?_, hrest⟩
  rw [hflags]
  simp [ballotWord]

-- SHFL (R172) -----------------------------------------------------------------------------------------------------------------------------

/-- The second source is a vector register. -/
def isVector (c : Src) : Bool := match c with | .reg r => r.file == .v | _ => false

theorem ite_isVector (c : Src) (a b : Nat) : (if isVector c then a else b) = match c with | .reg ⟨.v, _, _⟩ => a | _ => b := by
  rcases c with ⟨⟨⟩, _, _⟩ | _ | _ <;> rfl

/-- The value that SHFL gives a lane. -/
def shflValue (f : Full) (g : Group) (l : Nat) : Word × Flags :=
  let w := tyWidth f.ty.toNat
  let n := 64 / w
  (ofElems w ((List.range n).map fun k =>
    let cw := cell (g.src f.c 1) 0 l
    let cv := if isVector f.c then elem cw w k else cw.toNat % 2 ^ 16
    match shflFrom f.xm.toNat w n (l * n + k) cv with
    | some j => elem (cell (g.run f.b) 0 (j / n)) w (j % n)
    | none => 0), 0)

theorem shflValue_congr (f : Full) {x y : Group} (hv : y.v = x.v) (hs : y.s = x.s) : shflValue f y = shflValue f x := by
  funext l
  simp only [shflValue, src_congr hv hs, run_congr hv hs]

theorem shfl_row (f : Full) : RunRow (.shfl f) f.d fun s is _ => shflValue f (s.group is.g) :=
  runRow_of_lanewise (fun g _ => shflValue f g) (fun _ _ hv hs => funext fun _ => shflValue_congr f hv hs) fun _ => rfl

/-- The element that a lane's position takes, in the integers (R172). -/
theorem shflFrom_eq (mode w n i c : Nat) (from_ : Nat → Nat) :
    (match shflFrom mode w n i c with | some j => from_ j | none => 0) =
      let cs := Int.bmod c (2 ^ min w 16)
      match mode with
      | 0 => from_ (c % (32 * n))
      | 1 => from_ (((i : Int) + cs) % (32 * n : Nat)).toNat
      | 2 => if 0 ≤ (i : Int) + cs ∧ (i : Int) + cs < (32 * n : Nat) then from_ ((i : Int) + cs).toNat else 0
      | _ => from_ (i ^^^ (2 ^ min (c % 16) (Nat.log2 (32 * n)) - 1)) := by
  simp only [shflFrom, sext_eq_bmod]
  match mode with
  | 0 | 1 | _ + 3 => rfl
  | 2 =>
    simp only
    split_ifs <;> rfl

-- The rows ----------------------------------------------------------------------------------------------------------------------------------

/-- Settles O13: VOTE writes its predicate, the other rows one lane-wise result each. -/
theorem crossLaneRows : Obligations.CrossLaneRows := by
  unfold Obligations.CrossLaneRows
  refine ⟨fun f s is h ha hw => ?_, fun f => ?_, fun f => ?_, fun f => ?_, fun f => ?_⟩
  · obtain ⟨t, ht, ⟨hp, hother⟩, hrest⟩ := vote_row f s is h ha hw
    refine ⟨t, ht, ⟨fun l hl => ?_, hother⟩, hrest⟩
    simp only [hp l hl, voteMask, getLsbD_all _ hl, voteResult_eq]
    rfl
  · refine runRow_congr (ballot_row f) fun s is j l => ?_
    simp only [ballotWord, lowLane_eq_find]
    rfl
  · refine runRow_congr (shfl_row f) fun s is j l => ?_
    simp only [shflValue, shflFrom_eq, ite_isVector] <;> rfl
  · exact runRow_of_lanewise (fun g j l => (cell (g.run f.b) j (l ^^^ (f.xm.toNat + 1)), 0)) (fun x y hv hs => by simp only [run_congr hv hs])
      fun _ => rfl
  · refine runRow_congr (runRow_of_lanewise (fun g j l => (cell (g.run f.b) j (l / 4 * 4 + f.c.immNat % 4), 0))
      (fun x y hv hs => by simp only [run_congr hv hs]) fun _ => rfl) fun s is j l => ?_
    simp only [Nat.mul_comm]

end Sys2Proof.CrossLane
end

section
/-! PROOFS. O14: GRED (R174): folds of integers, the fixed tree of R47 to R49 level by level, and the least and the greatest logarithmic value. -/

namespace Sys2Proof.Reductions

open Machine Laws Safety InstructionEnd RunRows Numbers GroupEffects CrossLane

-- The fixed tree (R47) --------------------------------------------------------------------------------------------------------------------

/-- The union of flags, from the last one on. -/
def orAll (l : List Flags) : Flags := l.foldr (· ||| ·) 0

theorem or_none (a : Flags) : a ||| 0 = a := BitVec.or_zero

theorem orAll_append (l m : List Flags) : orAll (l ++ m) = orAll l ||| orAll m := by
  induction l with
  | nil => simp [orAll]
  | cons a l ih => simpa [orAll, BitVec.or_assoc] using congrArg (a ||| ·) ih

/-- A level of the tree: values of neighbours joined, with the flags below them. -/
def level (node : Nat → Nat → Nat × Flags) (t : Nat → Nat × Flags) (i : Nat) : Nat × Flags :=
  ((node (t (2 * i)).1 (t (2 * i + 1)).1).1, (t (2 * i)).2 ||| (t (2 * i + 1)).2 ||| (node (t (2 * i)).1 (t (2 * i + 1)).1).2)

theorem pairUp_range (z : Nat) (node : Nat → Nat → Nat × Flags) : ∀ (n : Nat) (v : Nat → Nat),
    pairUp z node ((List.range (2 * n)).map v) = ((List.range n).map fun i => (node (v (2 * i)) (v (2 * i + 1))).1,
      orAll ((List.range n).map fun i => (node (v (2 * i)) (v (2 * i + 1))).2))
  | 0, _ => rfl
  | n + 1, v => by
    have hlist : (List.range (2 * (n + 1))).map v = v 0 :: v 1 :: (List.range (2 * n)).map fun k => v (k + 2) := by
      rw [Nat.mul_add, Nat.mul_one, List.range_succ_eq_map, List.range_succ_eq_map]
      simp [Function.comp_def]
    rw [hlist, pairUp, pairUp_range z node n fun k => v (k + 2), List.range_succ_eq_map]
    simp [orAll, Function.comp_def, Nat.mul_add]

/-- The flags of a level are those of the level below it with those of its own nodes. -/
theorem orAll_level (node : Nat → Nat → Nat × Flags) (t : Nat → Nat × Flags) (n : Nat) :
    orAll ((List.range (2 * n)).map fun k => (t k).2) ||| orAll ((List.range n).map fun i => (node (t (2 * i)).1 (t (2 * i + 1)).1).2) =
      orAll ((List.range n).map fun i => (level node t i).2) := by
  induction n with
  | zero => exact or_none 0
  | succ n ih =>
    rw [Nat.mul_add, Nat.mul_one, List.range_succ, List.range_succ, List.range_succ]
    simp only [List.map_append, orAll_append, List.map_cons, List.map_nil, ← ih]
    simp only [orAll, level, List.foldr_cons, List.foldr_nil, or_none]
    ac_rfl

theorem treeLoop_range (z : Nat) (node root : Nat → Nat → Nat × Flags) : ∀ (n : Nat) (t : Nat → Nat × Flags),
    treeLoop z node root (n + 1) ((List.range (2 ^ (n + 1))).map fun k => (t k).1) (orAll ((List.range (2 ^ (n + 1))).map fun k => (t k).2)) =
      level root ((level node)^[n] t) 0
  | 0, t => by
    simp only [treeLoop, level, orAll, pairUp, List.range_succ, List.range_zero, Function.iterate_zero, id, pow_one, Nat.zero_add, if_true, List.nil_append,
      List.cons_append, List.map_cons, List.map_nil, List.foldr_cons, List.foldr_nil, or_none, List.headD_cons, Nat.mul_zero]
  | n + 1, t => by
    rw [treeLoop, if_neg (Nat.succ_ne_zero n), Nat.pow_succ', pairUp_range z node (2 ^ (n + 1)) fun k => (t k).1]
    simp only [orAll_level]
    exact treeLoop_range z node root n (level node t)

/-- The tree of 32 leaves. -/
theorem treeLog_range (fmt : Fmt) (m : RMode) (rho : Nat) (leaf : Nat → Nat) :
    treeLog fmt m rho ((List.range 32).map leaf) = level (fun a b => addlog a b fmt m rho)
      ((level fun a b => addlog a b fmt (if m = .rs then .rn else m) 0)^[4] fun l => (leaf l, 0)) 0 := by
  have hlog : clog2 ((List.range 32).map leaf).length = 5 := by rw [List.length_map, List.length_range]; decide
  have hflags : (0 : Flags) = orAll ((List.range (2 ^ (4 + 1))).map fun _ => 0) := by decide
  rw [treeLog, tree, hlog]
  exact (congrArg (treeLoop _ _ _ 5 _) hflags).trans (treeLoop_range (zeroCode fmt) _ _ 4 fun l => (leaf l, 0))

-- Integers (Table 7.6) ----------------------------------------------------------------------------------------------------------------------

theorem gredInt_eq (op t w : Nat) (l : List Nat) : gredInt op t w l = match op with
    | 0 => l.sum % 2 ^ w
    | 1 => (match l.map (readAs t w) with | [] => 0 | a :: r => wrapped w (r.foldl min a))
    | 2 => (match l.map (readAs t w) with | [] => 0 | a :: r => wrapped w (r.foldl max a))
    | 3 => l.foldl (· &&& ·) (2 ^ w - 1)
    | 4 => l.foldl (· ||| ·) 0
    | _ => l.foldl (· ^^^ ·) 0 := by
  match op with
  | 0 => simp only [gredInt, List.sum_eq_foldl]
  | 1 | 2 =>
    cases l with
    | nil => rfl
    | cons a r => simp only [gredInt, low_eq_wrapped, intRead_eq_readAs, List.map_cons, List.foldl_map]
  | 3 | 4 | _ + 5 => rfl

-- Logarithmic values ------------------------------------------------------------------------------------------------------------------------

/-- The value of code c takes the place of that of v (R174). -/
def better (fmt : Fmt) (least : Bool) (v c : Nat) : Bool :=
  match logKey fmt (decodeLog fmt v), logKey fmt (decodeLog fmt c) with
  | some i, some j => if least then decide (j < i) else decide (i < j)
  | _, _ => false

theorem logKey_none {fmt : Fmt} {v : Val} (h : logKey fmt v = none) : v = .nar := by
  cases v with
  | nar => rfl
  | zero => cases h
  | num s e => cases h

theorem logPick_nar_right (fmt : Fmt) (mx : Bool) (v : Val) : logPick fmt mx v .nar = .nar := by cases v <;> rfl

theorem foldl_logPick_nar (fmt : Fmt) (mx : Bool) : ∀ r : List Nat, r.foldl (fun v c => logPick fmt mx v (decodeLog fmt c)) .nar = .nar
  | [] => rfl
  | _ :: r => foldl_logPick_nar fmt mx r

/-- NaR among the values is what they come to. -/
theorem foldl_logPick_any {fmt : Fmt} (mx : Bool) {c : Nat} (hc : logKey fmt (decodeLog fmt c) = none) : ∀ (r : List Nat) (v : Val), c ∈ r →
    r.foldl (fun v c => logPick fmt mx v (decodeLog fmt c)) v = .nar
  | a :: r, v, h => by
    rw [List.foldl_cons]
    rcases List.mem_cons.1 h with rfl | h
    · rw [logKey_none hc, logPick_nar_right, foldl_logPick_nar]
    · exact foldl_logPick_any mx hc r _ h

/-- Without NaR the least or the greatest value is that of some code. -/
theorem foldl_logPick_code (fmt : Fmt) (least : Bool) : ∀ (r : List Nat) (a : Nat), (∀ c ∈ a :: r, logKey fmt (decodeLog fmt c) ≠ none) →
    r.foldl (fun v c => logPick fmt (!least) v (decodeLog fmt c)) (decodeLog fmt a) =
      decodeLog fmt (r.foldl (fun v c => if better fmt least v c then c else v) a)
  | [], _, _ => rfl
  | c :: r, a, h => by
    obtain ⟨i, hi⟩ := Option.ne_none_iff_exists'.1 (h a List.mem_cons_self)
    obtain ⟨j, hj⟩ := Option.ne_none_iff_exists'.1 (h c (List.mem_cons_of_mem _ List.mem_cons_self))
    have hstep : logPick fmt (!least) (decodeLog fmt a) (decodeLog fmt c) = decodeLog fmt (if better fmt least a c then c else a) := by
      cases least <;> simp only [logPick, better, hi, hj, Bool.not_true, Bool.not_false, Bool.false_eq_true, if_true, if_false, decide_eq_true_eq] <;>
        split <;> rfl
    rw [List.foldl_cons, List.foldl_cons, hstep]
    refine foldl_logPick_code fmt least r _ fun d hd => ?_
    rcases List.mem_cons.1 hd with rfl | hd
    · split
      · exact hj ▸ Option.some_ne_none j
      · exact hi ▸ Option.some_ne_none i
    · exact h d (List.mem_cons_of_mem _ (List.mem_cons_of_mem _ hd))

/-- The least or the greatest of codes (R174). -/
theorem pickAll_eq (fmt : Fmt) (least : Bool) (l : List Nat) :
    (match l with
      | [] => (zeroCode fmt, 0)
      | a :: r => ((r.foldl (fun v c => logPick fmt (!least) v (decodeLog fmt c)) (decodeLog fmt a)).code fmt, 0) : Nat × Flags) =
    if l.any (fun a => logKey fmt (decodeLog fmt a) == none) then (narCode fmt, (0 : Flags))
    else match l with
      | [] => (zeroCode fmt, 0)
      | a :: r => (canon fmt (r.foldl (fun v c => if better fmt least v c then c else v) a), 0) := by
  cases l with
  | nil => rfl
  | cons a r =>
    by_cases hany : (a :: r).any (fun a => logKey fmt (decodeLog fmt a) == none) = true
    · obtain ⟨c, hc, hnar⟩ := List.any_eq_true.1 hany
      rw [beq_iff_eq] at hnar
      have hfold : r.foldl (fun v c => logPick fmt (!least) v (decodeLog fmt c)) (decodeLog fmt a) = .nar := by
        rcases List.mem_cons.1 hc with rfl | hc
        · rw [logKey_none hnar, foldl_logPick_nar]
        · exact foldl_logPick_any _ hnar r _ hc
      rw [if_pos hany]
      simp only [hfold]
      rfl
    · rw [if_neg hany]
      simp only [canon]
      rw [foldl_logPick_code fmt least r a fun c hc hnone => hany (List.any_eq_true.2 ⟨c, hc, by rw [hnone]; rfl⟩)]

-- The row -----------------------------------------------------------------------------------------------------------------------------------

/-- The lanes that contribute. -/
def gives (is : Iss) (l : Nat) : Bool := is.act.getLsbD l && !is.help.getLsbD l

theorem contrib_getLsbD (is : Iss) {l : Nat} (hl : l < 32) : is.contrib.getLsbD l = gives is l :=
  getLsbD_without _ _ hl

theorem lanesOf_contrib (is : Iss) : lanesOf is.contrib = (List.range 32).filter (gives is) :=
  List.filter_congr fun _ hl => contrib_getLsbD is (List.mem_range.1 hl)

/-- What GRED makes of one element position. -/
def gredValue (f : Full) (is : Iss) (g : Group) (k : Nat) : Nat × Flags :=
  let t := f.ty.toNat
  let w := tyWidth t
  let b := g.run f.b
  let rl := match lowLane is.act with | some l => l | none => 0
  if isInt t then (gredInt f.xm.toNat t w ((lanesOf is.contrib).map fun l => elem (cell b 0 l) w k), 0)
  else gredLog f.xm.toNat (fmtOf t) (rmodeOf f.rnd.toNat) (elem (cell (g.rand f) 0 rl) w k)
    ((List.range 32).map fun l => if is.contrib.getLsbD l then some (elem (cell b 0 l) w k) else none)

theorem gredValue_congr (f : Full) (is : Iss) {x y : Group} (h : SameRegs x y) : gredValue f is y = gredValue f is x := by
  funext k
  simp only [gredValue, run_congr h.v h.s, rand_congr h.v h.s]

theorem gred_row {f : Full} {s : State} {is : Iss} (h : Ready s (.gred f) is) (ha : is.act ≠ 0) (hw : Memory.wf s.mem = true) :
    ∃ t, exec (.gred f) s = .next t ∧
      RunWritten (s.group is.g) (t.group is.g) f.d is.act (fun _ _ => (buildElems (tyWidth f.ty.toNat) (gredValue f is (s.group is.g))).1) ∧
      (t.group is.g).flags = (s.group is.g).flags ||| (buildElems (tyWidth f.ty.toNat) (gredValue f is (s.group is.g))).2 ∧
      PredsKept (s.group is.g) (t.group is.g) ∧ JoinsKept (s.group is.g) (t.group is.g) ∧ Settled s t is := by
  obtain ⟨-, hops⟩ := ops_of_ready h (op := 0xA5) rfl
  obtain ⟨hd, -⟩ := Bool.and_eq_true_iff.1 hops
  exact word_row (fun is g => buildElems (tyWidth f.ty.toNat) (gredValue f is g)) (fun is x y e => by rw [gredValue_congr f is e]) (fun _ => rfl) h
    (wid_of_meets hd) ha hw

theorem filterMap_lanes {p : Nat → Bool} {e : Nat → Nat} {q : Nat → Bool} (l : List Nat) (h : ∀ k ∈ l, q k = p k) :
    (l.map fun k => if q k then some (e k) else none).filterMap id = (l.filter p).map e := by
  induction l with
  | nil => rfl
  | cons a l ih =>
    rw [List.map_cons, List.filter_cons, ← h a List.mem_cons_self]
    cases q a with
    | false => simpa using ih fun k hk => h k (List.mem_cons_of_mem _ hk)
    | true => simpa using ih fun k hk => h k (List.mem_cons_of_mem _ hk)

section
variable (fmt : Fmt) (m : RMode) (rho : Nat) (q : Nat → Bool) (e : Nat → Nat)

/-- A lane that does not contribute counts as a zero (R174). -/
theorem gredLog_sum : gredLog 0 fmt m rho ((List.range 32).map fun l => if q l then some (e l) else none) =
    treeLog fmt m rho ((List.range 32).map fun l => if q l then e l else zeroCode fmt) := by
  rw [gredLog, List.map_map]
  refine congrArg (treeLog fmt m rho) (List.map_congr_left fun l _ => ?_)
  simp only [Function.comp_apply]
  cases q l <;> rfl

/-- The sum, level by level. -/
theorem gredLog_levels : gredLog 0 fmt m rho ((List.range 32).map fun l => if q l then some (e l) else none) =
    let inner := if m = .rs then .rn else m
    let leaf : Nat → Nat × Flags := fun l => (if q l then e l else zeroCode fmt, 0)
    let joined : (Nat → Nat × Flags) → Nat → Nat × Flags := fun t i =>
      let r := addlog (t (2 * i)).1 (t (2 * i + 1)).1 fmt inner 0
      (r.1, (t (2 * i)).2 ||| (t (2 * i + 1)).2 ||| r.2)
    let t := joined (joined (joined (joined leaf)))
    let root := addlog (t 0).1 (t 1).1 fmt m rho
    (root.1, (t 0).2 ||| (t 1).2 ||| root.2) := by
  extract_lets inner leaf joined t root
  have hjoined : joined = level fun a b => addlog a b fmt inner 0 := rfl
  have ht : t = (level fun a b => addlog a b fmt inner 0)^[4] leaf := by
    simp only [t, hjoined]
    rfl
  rw [gredLog_sum, treeLog_range, ← ht]
  rfl

theorem gredLog_pick {op : Nat} (h : op = 1 ∨ op = 2) : gredLog op fmt m rho ((List.range 32).map fun l => if q l then some (e l) else none) =
    if (((List.range 32).filter q).map e).any (fun a => logKey fmt (decodeLog fmt a) == none) then (narCode fmt, (0 : Flags))
    else match ((List.range 32).filter q).map e with
      | [] => (zeroCode fmt, 0)
      | a :: r => (canon fmt (r.foldl (fun v c => if better fmt (op == 1) v c then c else v) a), 0) := by
  rw [← pickAll_eq]
  rcases h with rfl | rfl
  all_goals
    rw [← filterMap_lanes (p := q) (q := q) _ fun _ _ => rfl]
    rfl

end

/-- Settles O14: one word for every lane, each element of it a fold of the contributing lanes' elements. -/
theorem reduction : Obligations.Reduction := by
  unfold Obligations.Reduction
  intro f s is h ha hw
  obtain ⟨t, ht, hrest⟩ := gred_row h ha hw
  obtain ⟨hxm, -⟩ := ops_of_ready h (op := 0xA5) rfl
  refine ⟨t, ht, ?_⟩
  intro x w fmt m inner gv at_ rho key btr value
  have hvalue : gredValue f is x = value := by
    funext k
    by_cases hint : f.ty.toNat < 8
    · have hty : isInt f.ty.toNat = true := decide_eq_true (Nat.le_of_lt_succ hint)
      simp only [gredValue, value, hty, hint, if_true, gredInt_eq, lanesOf_contrib]
      rfl
    · have hty : isInt f.ty.toNat = false := decide_eq_false (by omega)
      have hmask : ∀ e : Nat → Nat, ((List.range 32).map fun l => if is.contrib.getLsbD l then some (e l) else none) =
          (List.range 32).map fun l => if gives is l then some (e l) else none :=
        fun e => List.map_congr_left fun l hl => by rw [contrib_getLsbD is (List.mem_range.1 hl)]
      have hmodel : gredValue f is x k = gredLog f.xm.toNat fmt m (rho k)
          ((List.range 32).map fun l => if gives is l then some (elem (cell (x.run f.b) 0 l) w k) else none) := by
        rw [← hmask]
        simp only [gredValue, hty, Bool.false_eq_true, if_false]
        cases hl : lowLane is.act <;> simp only [rho, hl] <;> rfl
      show _ = (if f.ty.toNat < 8 then _ else _)
      rw [hmodel, if_neg hint]
      by_cases hsum : f.xm = 0
      · show _ = (if f.xm = 0 then _ else _)
        rw [if_pos hsum, hsum]
        exact gredLog_levels fmt m (rho k) (gives is) _
      · have hop : f.xm.toNat = 1 ∨ f.xm.toNat = 2 := by
          have hle : f.xm.toNat ≤ 2 := by simpa [rowOf, hty] using hxm
          have hne : f.xm.toNat ≠ 0 := fun h0 => hsum (BitVec.eq_of_toNat_eq h0)
          omega
        show _ = (if f.xm = 0 then _ else _)
        have hbetter : better fmt (f.xm.toNat == 1) = btr := by
          funext a b
          have hone : (f.xm.toNat == 1) = decide (f.xm = 1) := by
            rw [beq_eq_decide, decide_eq_decide]
            exact ⟨fun h1 => BitVec.eq_of_toNat_eq h1, fun h1 => h1 ▸ rfl⟩
          simp only [better, btr, key, hone, decide_eq_true_eq] <;> rfl
        rw [if_neg hsum, gredLog_pick _ _ _ _ _ hop, hbetter]
        rfl
  rw [hvalue] at hrest
  exact hrest

end Sys2Proof.Reductions
end

section
/-! PROOFS. O15, O16: BRA, BRC, CALL, CALLI and RET (R163 to R165): targets, links and BADPC. -/

namespace Sys2Proof.Transfers

open Machine Laws Safety InstructionEnd RegisterRows GroupEffects CrossLane

-- Lanes sent elsewhere --------------------------------------------------------------------------------------------------------------------

/-- A group whose lanes stand elsewhere, and are otherwise as they were. -/
structure Repointed (x y : Group) : Prop where
  regs  : y = { x with lanes := y.lanes }
  count : y.lanes.length = x.lanes.length
  lanes : ∀ l, ∃ pc, y.lane l = { x.lane l with pc := pc }

theorem Repointed.live {x y : Group} (h : Repointed x y) : y.live = x.live := by
  refine mask_ext fun l _ => ?_
  obtain ⟨pc, e⟩ := h.lanes l
  simp only [Group.live, getLsbD_maskOf, h.count, e]

theorem Repointed.badJoin {x y : Group} (h : Repointed x y) (hx : x.badJoin = none) : y.badJoin = none := by
  rw [badJoin_none] at hx ⊢
  intro n hn r hr hrn l hl hpark
  obtain ⟨pc, e⟩ := h.lanes l
  rw [h.regs] at hr
  rw [e] at hpark
  exact hx n hn r hr hrn l (h.count ▸ hl) hpark

theorem Repointed.place {z x y : Group} (h : Repointed x y) (hx : PlaceKept z x) : PlaceKept z y := by
  rw [h.regs]
  exact { hx with }

theorem Repointed.same {x y : Group} (h : Repointed x y) : SameRegs x y := by
  rw [h.regs]
  exact ⟨rfl, rfl, rfl, rfl, rfl⟩

/-- The group whose lanes of active() go to their targets and whose other lanes at the address pass on (R152). -/
def sent (is : Iss) (target : Nat → Nat) (x : Group) : Group :=
  (x.advance (is.at_ &&& ~~~is.act) is.a is.len).mapLanes is.act fun l y => { y with pc := target l }

theorem lane_sent (is : Iss) (target : Nat → Nat) (x : Group) (l : Nat) : (sent is target x).lane l =
    if l < x.lanes.length ∧ is.act.getLsbD l = true then { x.lane l with pc := target l }
    else if (is.at_ &&& ~~~is.act).getLsbD l = true ∧ (x.lane l).x = false ∧ (x.lane l).p = false ∧ (x.lane l).pc = is.a ∧ l < x.lanes.length then
      { x.lane l with pc := is.a + is.len }
    else x.lane l := by
  rw [sent, lane_mapLanes, length_advance]
  by_cases hact : l < x.lanes.length ∧ is.act.getLsbD l = true
  · rw [if_pos hact, if_pos hact, lane_advance, if_neg (by simp [hact.2])]
  · rw [if_neg hact, if_neg hact, lane_advance]

theorem repointed_sent (is : Iss) (target : Nat → Nat) (x : Group) : Repointed x (sent is target x) where
  regs := rfl
  count := by rw [sent, length_mapLanes, length_advance]
  lanes := fun l => by
    rw [lane_sent]
    split
    · exact ⟨_, rfl⟩
    · split <;> exact ⟨_, rfl⟩

/-- The lanes of a ready group that has sent them and then released. -/
theorem moved_sent {s : State} {i : Instr} {is : Iss} (h : Ready s i is) {target : Nat → Nat} {x y : Group}
    (hx : x.lanes = (s.group is.g).lanes) (hr : Laws.Released (sent is target x) y) : Moved (s.group is.g) y is target := by
  have hlane : ∀ l, x.lane l = (s.group is.g).lane l := fun l => by simp only [Group.lane, hx]
  have hkept : ∀ l, ((s.group is.g).lane l).p = false → y.lane l = (sent is target x).lane l := fun l hp => by
    obtain ⟨pc, e⟩ := (repointed_sent is target x).lanes l
    exact lane_released hr (.inl (by rw [e, hlane]; exact hp))
  refine ⟨fun l hl hat => ?_, fun l _ hat hp => ?_⟩
  · have hhere := hat
    rw [h.here, ← h.isGroup, lanesAt_iff] at hhere
    obtain ⟨-, hlen, hx', hp, hpc⟩ := hhere
    rw [hkept l hp, lane_sent, hlane, hx]
    by_cases hact : is.act.getLsbD l = true
    · rw [if_pos ⟨hlen, hact⟩, if_pos hact]
    · rw [if_neg fun hc => hact hc.2, if_pos ⟨by simp only [getLsbD_without _ _ hl, hat, hact, Bool.not_false, Bool.and_self],
        hx', hp, hpc, hlen⟩, if_neg hact]
  · have hact : is.act.getLsbD l ≠ true := fun hc => by simp [ready_act_at h hc] at hat
    rw [hkept l hp, lane_sent, if_neg fun hc => hact hc.2, if_neg (by simp [hat]), hlane]

/-- A transfer of control of a ready group whose registers are `y`'s. -/
theorem jump_moved {s : State} {i : Instr} {is : Iss} (h : Ready s i is) (hw : Memory.wf s.mem = true) {y : Group} (hy : InPlace (s.group is.g) y)
    (taking : Mask) (target : Nat → Nat) :
    let t := jump is taking target ((issued s i is).setGroup is.g y)
    MovedOn s t is target ∧ SameRegs y (t.group is.g) := by
  have hsent := repointed_sent is target y
  have hplace := hsent.place hy.place
  have hlive : (sent is target y).live ≠ 0 := by
    rw [hsent.live, live_congr hy.lanes, h.isGroup]
    exact live_of_issueAddr h.addr
  have hjoin := hsent.badJoin (badJoin_mono hy.lanes hy.marks (by rw [h.isGroup]; exact h.joins))
  have hu := (underway_issued h hw).setGroup (ready_lt h) (sent is target y)
  have hend : ∀ u, Underway s u is.g → u.group is.g = sent is target y →
      MovedOn s (post u is.g) is target ∧ SameRegs y ((post u is.g).group is.g) := fun u hu hgroup => by
    obtain ⟨hrelease, hdone⟩ := post_underway hu (ready_lt h) (by rwa [hgroup]) (by rwa [hgroup]) (by rwa [hgroup])
    rw [hgroup] at hrelease
    have hrel := release_released (sent is target y)
    rw [← hrelease] at hrel
    obtain ⟨hv, hs, hp, hj, hflags⟩ := sameRegs_released hrel
    exact ⟨⟨moved_sent h hy.lanes hrel, placeKept_released hplace hrel, hdone.groups, hdone.machine, hdone.mem⟩, hv, hs, hp, hj, hflags⟩
  have hjump : jump is taking target ((issued s i is).setGroup is.g y) =
      post (match lowLane taking with
        | some l => traceGroup ((issued s i is).setGroup is.g (sent is target y)) 0x02 is.g is.act (target l)
        | none => (issued s i is).setGroup is.g (sent is target y)) is.g := by
    simp only [jump, group_setGroup_same, setGroup_setGroup]
    rfl
  simp only [hjump]
  cases lowLane taking with
  | none => exact hend _ hu (group_setGroup_same _ _ _)
  | some l => exact hend _ (hu.traceGroup _ _ _ _) ((traceGroup_group_at _ _ _ _ _ _).trans (group_setGroup_same _ _ _))

-- Bad targets (R163) ------------------------------------------------------------------------------------------------------------------------

theorem badpc_iff (x : Int) : badpc x = true ↔ ¬ (0 ≤ x ∧ x < 2 ^ 57 ∧ x % 4 = 0) := by
  have hpow : ((2 ^ 57 : Nat) : Int) = 2 ^ 57 := by norm_num
  simp only [badpc, hpow, Bool.or_eq_true, decide_eq_true_eq, bne_iff_ne, ge_iff_le]
  show (x < 0 ∨ (2 : Int) ^ 57 ≤ x) ∨ x % 4 ≠ 0 ↔ _
  omega

/-- The link of a call, where there is one. -/
def linked (link : Option Reg) (is : Iss) (x : Group) : Group :=
  match link with
  | some d => x.putRun d is.act 0 [rowOfWord (wd (is.a + is.len))]
  | none => x

theorem inPlace_linked {x z : Group} (h : InPlace x z) (link : Option Reg) (is : Iss) : InPlace x (linked link is z) := by
  cases link with
  | none => exact h
  | some d => exact inPlace_putRun h d _ _

/-- What the registers of a transfer come to. -/
def LinkWritten (link : Option Reg) (is : Iss) (x y : Group) : Prop :=
  match link with
  | none => VectorsKept x y ∧ ScalarsKept x y
  | some d => RunWritten x y d is.act fun _ _ => wd (is.a + is.len)

/-- The registers after a transfer: the link is written, nothing else. -/
theorem linked_regs {x z y : Group} {link : Option Reg} {is : Iss} (hz : SameRegs x z) (hy : SameRegs (linked link is z) y)
    (hd : ∀ d, link = some d → d.wid = 0) : PredsKept x y ∧ JoinsKept x y ∧ y.flags = x.flags ∧ LinkWritten link is x y := by
  have helse : (linked link is z).p = z.p ∧ (linked link is z).j = z.j ∧ (linked link is z).flags = z.flags := by
    cases link with
    | none => exact ⟨rfl, rfl, rfl⟩
    | some d => exact putRun_else z d _ _
  obtain ⟨hp, hj, hflags⟩ := helse
  refine ⟨fun n => pred_congr (hy.p.trans (hp.trans hz.p)) n, fun n => by rw [hy.j, hj, hz.j], by rw [hy.flags, hflags, hz.flags], ?_⟩
  cases link with
  | none => exact ⟨fun n l _ => vcell_congr (hy.v.trans hz.v) n l, fun n => sreg_congr (hy.s.trans hz.s) n⟩
  | some d => exact runWritten_of_same hz hy (putRun_word z (hd d rfl) _ _)

theorem movedOn_congr {s t : State} {is : Iss} {u v : Nat → Nat} (h : MovedOn s t is u) (e : ∀ l, is.act.getLsbD l = true → u l = v l) :
    MovedOn s t is v := by
  obtain ⟨⟨hat, helse⟩, hrest⟩ := h
  refine ⟨⟨fun l hl hin => ?_, helse⟩, hrest⟩
  rw [hat l hl hin]
  split
  · rw [e l ‹_›]
  · rfl

/-- Where all lanes go to the address on, they have only moved on. -/
theorem settled_of_movedOn {s t : State} {is : Iss} (h : MovedOn s t is fun _ => is.a + is.len) : Settled s t is := by
  obtain ⟨⟨hat, helse⟩, hrest⟩ := h
  exact ⟨⟨fun l hl hin => by rw [hat l hl hin, ite_self], helse⟩, hrest⟩

-- Branches and calls (R164) -------------------------------------------------------------------------------------------------------------------

/-- The lanes of active() that a branch's test sends off. -/
def takers (take : Group → Nat → Bool) (is : Iss) (x : Group) : Mask := maskOf fun l => is.act.getLsbD l && take x l

section
variable {i : Instr} {n : Int} {take : Group → Nat → Bool} {link : Option Reg} {s : State} {is : Iss}
  (hrow : ∀ s, exec i s = issue i (branch n take link) s) (htake : ∀ x y, SameRegs x y → take y = take x) (h : Ready s i is) (ha : is.act ≠ 0)
include hrow htake h ha

theorem branch_goes (hd : ∀ d, link = some d → d.wid = 0) (hw : Memory.wf s.mem = true)
    (hgo : badpc (is.a + n) = false ∨ ∀ l, is.act.getLsbD l = true → take (s.group is.g) l = false) : ∃ t, exec i s = .next t ∧
      MovedOn s t is (fun l => if take (s.group is.g) l then ((is.a : Int) + n).toNat else is.a + is.len) ∧
      PredsKept (s.group is.g) (t.group is.g) ∧ JoinsKept (s.group is.g) (t.group is.g) ∧ (t.group is.g).flags = (s.group is.g).flags ∧
      LinkWritten link is (s.group is.g) (t.group is.g) := by
  have hsame := sameRegs_issued s i is
  have hno : (badpc (is.a + n) && decide (takers take is ((issued s i is).group is.g) ≠ 0)) = false := by
    rcases hgo with hgood | hnone
    · rw [hgood, Bool.false_and]
    · have hzero : takers take is ((issued s i is).group is.g) = 0 := mask_ext fun l _ => by
        rw [takers, getLsbD_maskOf, htake _ _ hsame]
        cases hact : is.act.getLsbD l
        · simp
        · simp [hnone l hact]
      rw [hzero]
      simp
  have hbranch : branch n take link is (issued s i is) = jump is (takers take is ((issued s i is).group is.g))
      (fun l => if (takers take is ((issued s i is).group is.g)).getLsbD l then ((is.a : Int) + n).toNat else is.a + is.len)
      ((issued s i is).setGroup is.g (linked link is ((issued s i is).group is.g))) := by
    unfold branch
    exact if_neg (by rw [Bool.not_eq_true]; exact hno)
  obtain ⟨hmoved, hregs⟩ := jump_moved h hw (inPlace_linked (inPlace_issued s i is) link is) (takers take is ((issued s i is).group is.g))
    fun l => if (takers take is ((issued s i is).group is.g)).getLsbD l then ((is.a : Int) + n).toNat else is.a + is.len
  rw [← hbranch] at hmoved hregs
  refine ⟨_, exec_ready hrow h ha, movedOn_congr hmoved fun l hact => ?_, linked_regs hsame hregs hd⟩
  rw [takers, getLsbD_maskOf, hact, htake _ _ hsame, decide_eq_true (BitVec.lt_of_getLsbD hact), Bool.true_and, Bool.true_and]

theorem branch_bad (hbad : badpc (is.a + n) = true) (htaken : ∃ l, is.act.getLsbD l = true ∧ take (s.group is.g) l = true) :
    exec i s = .next (enterTrap (issued s i is) is.g ⟨0x04, takers take is (s.group is.g), BitVec.ofInt 64 (is.a + n)⟩ (is.len / 4) false is.a) := by
  obtain ⟨l, hact, hl⟩ := htaken
  have htakers : takers take is ((issued s i is).group is.g) = takers take is (s.group is.g) := by
    simp only [takers, htake _ _ (sameRegs_issued s i is)]
  have hne : takers take is (s.group is.g) ≠ 0 := mask_ne_zero.2 ⟨l, BitVec.lt_of_getLsbD hact, by
    rw [takers, getLsbD_maskOf, hact, hl, decide_eq_true (BitVec.lt_of_getLsbD hact)]; rfl⟩
  have hbranch : branch n take link is (issued s i is) =
      ownTrap is ⟨0x04, takers take is ((issued s i is).group is.g), wdI (is.a + n)⟩ (issued s i is) := by
    unfold branch
    refine if_pos ?_
    show (badpc (is.a + n) && decide (takers take is ((issued s i is).group is.g) ≠ 0)) = true
    rw [hbad, htakers, decide_eq_true hne, Bool.and_self]
  rw [exec_ready hrow h ha, hbranch, htakers]
  rfl

end

theorem dispOff_eq (f : FullU) : dispOff f.imm = match f.imm with | .imm20 i => 4 * i.toInt | .lit l => l.toInt := by
  cases hf : f.imm with
  | imm20 i => exact Int.mul_comm _ _
  | lit l => rfl

/-- The link register of a long call. -/
theorem call_link {f : FullU} {s : State} {is : Iss} (h : Ready s (.call f) is) : f.d.wid = 0 := by
  have hill : illFullU 0xB2 f = none := ill_of_ready h
  simp only [illFullU, firstIll_none, List.forall_mem_cons, Bool.and_eq_true] at hill
  obtain ⟨-, -, -, ⟨hd, -⟩, -⟩ := hill
  exact wid_of_meets hd

/-- Settles O15: each row is one `branch`, to a good target (`branch_goes`) or to a bad one (`branch_bad`). -/
theorem branchesAndCalls : Obligations.BranchesAndCalls := by
  unfold Obligations.BranchesAndCalls
  intro good off goes bad all
  have hall : ∀ x y : Group, SameRegs x y → (fun (_ : Group) (_ : Nat) => true) y = (fun (_ : Group) (_ : Nat) => true) x := fun _ _ _ => rfl
  have hcell : ∀ (f : FullU) (x y : Group), SameRegs x y → (fun l => cell (y.run f.b) 0 l != 0) = fun l => cell (x.run f.b) 0 l != 0 :=
    fun f x y e => by rw [run_congr e.v e.s]
  have hboth : ∀ (i : Instr) (n : Int) (take : Group → Nat → Bool) (link : Option Reg), (∀ s, exec i s = issue i (branch n take link) s) →
      (∀ x y, SameRegs x y → take y = take x) → (∀ s is d, Ready s i is → link = some d → d.wid = 0) →
      goes i n (fun s is => take (s.group is.g)) link ∧ bad i n fun s is => take (s.group is.g) := by
    intro i n take link hrow htake hd
    refine ⟨fun s is h ha hw _ hgood => ?_, fun s is h ha htaken hbad => branch_bad hrow htake h ha ((badpc_iff _).2 hbad) htaken⟩
    obtain ⟨t, ht, hmoved, hp, hj, hflags, hlink⟩ := branch_goes hrow htake h ha (fun d => hd s is d h) hw
      (.inl (Bool.eq_false_iff.2 fun hb => (badpc_iff _).1 hb hgood))
    exact ⟨t, ht, hmoved, hp, hj, hflags, by cases link <;> exact hlink⟩
  have hoff : ∀ f : FullU, dispOff f.imm = off f := fun f => (dispOff_eq f).trans (by simp only [off] <;> rfl)
  refine ⟨fun i => ?_, fun f => ?_, fun f => ?_, fun i => ?_, fun f => ?_, fun f s is h ha hw hnone => ?_⟩
  · exact hboth _ _ (fun _ _ => true) none (fun s => by rw [Int.mul_comm]; rfl) hall fun _ _ _ _ hn => by cases hn
  · exact hboth _ _ (fun _ _ => true) none (fun s => by rw [← hoff]; rfl) hall fun _ _ _ _ hn => by cases hn
  · exact hboth _ _ (fun x l => cell (x.run f.b) 0 l != 0) none (fun s => by rw [← hoff]; rfl) (hcell f) fun _ _ _ _ hn => by cases hn
  · exact hboth _ _ (fun _ _ => true) (some ⟨.s, 62, 0⟩) (fun s => by rw [Int.mul_comm]; rfl) hall fun _ _ _ _ hn => by cases hn; rfl
  · exact hboth _ _ (fun _ _ => true) (some f.d) (fun s => by rw [← hoff]; rfl) hall fun _ _ _ h hn => by cases hn; exact call_link h
  · have hzero : ∀ l, is.act.getLsbD l = true → (cell ((s.group is.g).run f.b) 0 l != 0) = false := fun l hact => by simp [hnone l hact]
    obtain ⟨t, ht, hmoved, hp, hj, hflags, hv, hs⟩ := branch_goes (i := .brc f) (n := dispOff f.imm) (take := fun x l => cell (x.run f.b) 0 l != 0)
      (link := none) (fun s => rfl) (hcell f) h ha (fun _ hn => by cases hn) hw (.inr hzero)
    exact ⟨t, ht, ⟨hv, hs, hp, hj, hflags⟩, settled_of_movedOn (movedOn_congr hmoved fun l hact => by rw [hzero l hact]; rfl)⟩

-- Indirect transfers (R165) -------------------------------------------------------------------------------------------------------------------

theorem badpc_nat (n : Nat) : badpc n = true ↔ ¬ (n < 2 ^ 57 ∧ n % 4 = 0) := by
  rw [badpc_iff]
  have hpow : (2 : Int) ^ 57 = ((2 ^ 57 : Nat) : Int) := by norm_num
  rw [hpow]
  omega

theorem regRow_congr {x y : Group} (h : SameRegs x y) (r : Reg) (j : Nat) : y.regRow r j = x.regRow r j := by
  simp only [Group.regRow, Group.vrow, Group.sreg, h.v, h.s]

/-- The target of a lane. -/
def targetOf (b : Reg) (x : Group) (l : Nat) : Word := getAt 0 (x.regRow b 0) l

/-- The lanes of active() whose target is bad. -/
def badLanes (b : Reg) (is : Iss) (x : Group) : Mask := maskOf fun l => is.act.getLsbD l && badpc (targetOf b x l).toNat

theorem indirect_eq (b : Reg) (link : Option Reg) (is : Iss) (s : State) : indirect b link is s =
    match lowLane (badLanes b is (s.group is.g)) with
    | some l => ownTrap is ⟨0x04, badLanes b is (s.group is.g), targetOf b (s.group is.g) l⟩ s
    | none => jump is is.act (fun l => (targetOf b (s.group is.g) l).toNat) (s.setGroup is.g (linked link is (s.group is.g))) := rfl

theorem badLanes_bit (b : Reg) (is : Iss) (x : Group) (l : Nat) :
    (badLanes b is x).getLsbD l = true ↔ is.act.getLsbD l = true ∧ ¬ ((targetOf b x l).toNat < 2 ^ 57 ∧ (targetOf b x l).toNat % 4 = 0) := by
  rw [badLanes, getLsbD_maskOf, Bool.and_eq_true, Bool.and_eq_true, badpc_nat, decide_eq_true_eq]
  exact ⟨fun hl => hl.2, fun hl => ⟨BitVec.lt_of_getLsbD hl.1, hl⟩⟩

theorem lowLane_none {m : Mask} (h : ∀ l, m.getLsbD l = false) : lowLane m = none := by
  have hzero : m = 0 := mask_ext fun l _ => by rw [h l]; simp
  rw [hzero]
  decide

theorem lowLane_least {m : Mask} {l : Nat} (h : m.getLsbD l = true) (hleast : ∀ k, k < l → m.getLsbD k = false) : lowLane m = some l := by
  rw [lowLane_eq_find, List.find?_range_eq_some]
  exact ⟨h, List.mem_range.2 (BitVec.lt_of_getLsbD h), fun k hk => by simp [hleast k hk]⟩

section
variable {i : Instr} {b : Reg} {link : Option Reg} {s : State} {is : Iss} (hrow : ∀ s, exec i s = issue i (indirect b link) s)
  (h : Ready s i is) (ha : is.act ≠ 0)
include hrow h ha

theorem indirect_goes (hd : ∀ d, link = some d → d.wid = 0) (hw : Memory.wf s.mem = true)
    (hgood : ∀ l, (badLanes b is (s.group is.g)).getLsbD l = false) : ∃ t, exec i s = .next t ∧
      MovedOn s t is (fun l => (targetOf b (s.group is.g) l).toNat) ∧
      PredsKept (s.group is.g) (t.group is.g) ∧ JoinsKept (s.group is.g) (t.group is.g) ∧ (t.group is.g).flags = (s.group is.g).flags ∧
      LinkWritten link is (s.group is.g) (t.group is.g) := by
  have hsame := sameRegs_issued s i is
  have htarget : targetOf b ((issued s i is).group is.g) = targetOf b (s.group is.g) := by
    funext l
    rw [targetOf, targetOf, regRow_congr hsame]
  have hindirect : indirect b link is (issued s i is) = jump is is.act (fun l => (targetOf b (s.group is.g) l).toNat)
      ((issued s i is).setGroup is.g (linked link is ((issued s i is).group is.g))) := by
    rw [indirect_eq, lowLane_none fun l => by rw [badLanes, htarget]; exact hgood l, htarget]
  obtain ⟨hmoved, hregs⟩ := jump_moved h hw (inPlace_linked (inPlace_issued s i is) link is) is.act
    fun l => (targetOf b (s.group is.g) l).toNat
  rw [← hindirect] at hmoved hregs
  exact ⟨_, exec_ready hrow h ha, hmoved, linked_regs hsame hregs hd⟩

theorem indirect_bad {l : Nat} (hl : lowLane (badLanes b is (s.group is.g)) = some l) : exec i s = .next (enterTrap (issued s i is) is.g
    ⟨0x04, badLanes b is (s.group is.g), targetOf b (s.group is.g) l⟩ (is.len / 4) false is.a) := by
  have htarget : targetOf b ((issued s i is).group is.g) = targetOf b (s.group is.g) := by
    funext l
    rw [targetOf, targetOf, regRow_congr (sameRegs_issued s i is)]
  have hbad : badLanes b is ((issued s i is).group is.g) = badLanes b is (s.group is.g) := by simp only [badLanes, htarget]
  rw [exec_ready hrow h ha, indirect_eq, hbad, hl, htarget]
  rfl

end

/-- The link register of CALLI. -/
theorem calli_link {f : Full} {s : State} {is : Iss} (h : Ready s (.calli f) is) : f.d.wid = 0 := by
  obtain ⟨-, hops⟩ := ops_of_ready h (op := 0xB3) rfl
  exact wid_of_meets (Bool.and_eq_true_iff.1 hops).1

/-- Settles O16: each row is one `indirect`, whose lanes go or whose lowest bad lane is named. -/
theorem indirectTransfers : Obligations.IndirectTransfers := by
  unfold Obligations.IndirectTransfers
  intro good row
  have hall : ∀ (i : Instr) (b : Reg) (link : Option Reg), (∀ s, exec i s = issue i (indirect b link) s) →
      (∀ s is d, Ready s i is → link = some d → d.wid = 0) → row i b link := by
    intro i b link hrow hd s is h ha x target
    have hbit := badLanes_bit b is x
    refine ⟨fun hgood hw => ?_, fun l hact hbad hleast => ?_⟩
    · obtain ⟨t, ht, hmoved, hp, hj, hflags, hlink⟩ := indirect_goes hrow h ha (fun d => hd s is d h) hw fun l =>
        Bool.eq_false_iff.2 fun hl => ((hbit l).1 hl).2 (hgood l ((hbit l).1 hl).1)
      exact ⟨t, ht, hmoved, hp, hj, hflags, by cases link <;> exact hlink⟩
    · have hlow : lowLane (badLanes b is x) = some l := lowLane_least ((hbit l).2 ⟨hact, hbad⟩) fun k hk =>
        Bool.eq_false_iff.2 fun hl => ((hbit k).1 hl).2 (hleast k hk ((hbit k).1 hl).1)
      have hmask : badLanes b is x = maskOf fun k => is.act.getLsbD k && decide (¬ good (target k)) := mask_ext fun k hk => by
        rw [Bool.eq_iff_iff, hbit, getLsbD_maskOf, Bool.and_eq_true, Bool.and_eq_true, decide_eq_true_eq, decide_eq_true_eq]
        exact ⟨fun hl => ⟨hk, hl⟩, And.right⟩
      rw [indirect_bad hrow h ha hlow, hmask]
      rfl
  refine ⟨fun f => hall (.calli f) f.b (some f.d) (fun _ => rfl) fun s is d h hd => ?_,
    hall .retShort ⟨.s, 62, 0⟩ none (fun _ => rfl) fun _ _ _ _ hd => ?_, fun f => hall (.ret f) f.b none (fun _ => rfl) fun _ _ _ _ hd => ?_⟩
  · cases hd
    exact calli_link h
  · cases hd
  · cases hd

end Sys2Proof.Transfers
end

section
/-! PROOFS. O17: what release frees (R154), lane by lane. -/

namespace Sys2Proof.ReleaseLanes

open Machine Laws Safety

/-- Every lane that join register b.n names has exited or is parked with lane b. -/
def gathered (j : Nat → Mask) (lanes : Nat → Lane) (b : Lane) : Bool :=
  (List.range 32).all fun k => !(j b.n).getLsbD k || (lanes k).x || ((lanes k).p && (lanes k).n == b.n && (lanes k).pc == b.pc)

/-- A lane that release has seen. -/
def freed (j : Nat → Mask) (lanes : Nat → Lane) (l : Nat) : Lane :=
  let b := lanes l
  if b.p && !b.x && decide (b.n < 4) && gathered j lanes b then { b with p := false, n := 0, pc := b.pc + 8 } else b

theorem gathered_iff {j : Nat → Mask} {lanes : Nat → Lane} {b : Lane} : gathered j lanes b = true ↔
    ∀ k, k < 32 → (j b.n).getLsbD k = true → (lanes k).x = true ∨ ((lanes k).p = true ∧ (lanes k).n = b.n ∧ (lanes k).pc = b.pc) := by
  simp only [gathered, List.all_eq_true, List.mem_range, Bool.or_eq_true, Bool.and_eq_true, Bool.not_eq_true', beq_iff_eq, and_assoc]
  refine forall₂_congr fun k _ => ?_
  cases (j b.n).getLsbD k <;> simp

theorem freed_congr {j : Nat → Mask} {lanes lanes' : Nat → Lane} (h : ∀ k, k < 32 → lanes' k = lanes k) {l : Nat} (hl : l < 32) :
    freed j lanes' l = freed j lanes l := by
  have hg : gathered j lanes' (lanes l) = gathered j lanes (lanes l) := by
    rw [Bool.eq_iff_iff, gathered_iff, gathered_iff]
    exact forall₂_congr fun k hk => by rw [h k hk]
  simp only [freed, h l hl, hg]

/-- A lane that is not parked, or has exited, is not freed. -/
theorem freed_of_running {j : Nat → Mask} {lanes : Nat → Lane} {l : Nat} (h : (lanes l).p = false ∨ (lanes l).x = true) :
    freed j lanes l = lanes l := by
  refine if_neg ?_
  rcases h with h | h <;> simp [h]

-- One join register and one address (R154) ---------------------------------------------------------------------------------------------------

/-- The lanes parked under join register n at address a, of the lanes below 32. -/
def Parked (g : Group) (n a l : Nat) : Prop := l < 32 ∧ (g.lane l).p = true ∧ (g.lane l).x = false ∧ (g.lane l).n = n ∧ (g.lane l).pc = a

theorem lt_of_parked {g : Group} {l : Nat} (h : (g.lane l).p = true) : l < g.lanes.length := by
  by_contra hlen
  rw [Group.lane, getAt_beyond _ _ _ (Nat.not_lt.1 hlen)] at h
  cases h

/-- Every lane that join register n names has exited or is parked under it at a. -/
def Gathered (g : Group) (n a : Nat) : Prop :=
  ∀ k, k < 32 → (getAt 0 g.j n).getLsbD k = true → (g.lane k).x = true ∨ ((g.lane k).p = true ∧ (g.lane k).n = n ∧ (g.lane k).pc = a)

/-- The mask of the lanes parked under join register n at address a. -/
def parkedMask (g : Group) (n a : Nat) : Mask :=
  maskOf fun l => l < g.lanes.length && (g.lane l).p && !(g.lane l).x && (g.lane l).n == n && (g.lane l).pc == a

theorem parkedMask_bit (g : Group) (n a l : Nat) : (parkedMask g n a).getLsbD l = true ↔ Parked g n a l := by
  simp only [parkedMask, getLsbD_maskOf, Bool.and_eq_true, decide_eq_true_eq, Bool.not_eq_true', beq_iff_eq, and_assoc, Parked]
  exact and_congr_right fun _ => ⟨And.right, fun h => ⟨lt_of_parked h.1, h⟩⟩

theorem mask_zero_iff (m : Mask) : m = 0 ↔ ∀ l, l < 32 → m.getLsbD l = false :=
  ⟨fun h l _ => by rw [h]; exact BitVec.getLsbD_zero, fun h => mask_ext fun l hl => (h l hl).trans BitVec.getLsbD_zero.symm⟩

/-- Release waits for no lane. -/
theorem gathered_mask (g : Group) (n a : Nat) :
    (getAt 0 g.j n &&& ~~~((maskOf fun l => (g.lane l).x) ||| parkedMask g n a)) = 0 ↔ Gathered g n a := by
  rw [mask_zero_iff]
  refine forall₂_congr fun k hk => ?_
  rw [BitVec.getLsbD_and, BitVec.getLsbD_not, BitVec.getLsbD_or, getLsbD_maskOf, decide_eq_true hk, Bool.true_and, Bool.true_and]
  by_cases hx : (g.lane k).x = true
  · simp [hx]
  · have hpark : (parkedMask g n a).getLsbD k = true ↔ (g.lane k).p = true ∧ (g.lane k).n = n ∧ (g.lane k).pc = a := by
      rw [parkedMask_bit]
      simp [Parked, hk, hx]
    rw [Bool.not_eq_true] at hx
    rw [hx, Bool.false_or, ← hpark]
    cases (getAt 0 g.j n).getLsbD k <;> simp

theorem releaseAt_eq (g : Group) (n a : Nat) : g.releaseAt n a =
    if (parkedMask g n a ≠ 0 && decide ((getAt 0 g.j n &&& ~~~((maskOf fun l => (g.lane l).x) ||| parkedMask g n a)) = 0)) then
      g.mapLanes (parkedMask g n a) fun _ x => { x with p := false, n := 0, pc := a + 8 }
    else g := rfl

theorem lane_releaseAt_gathered {g : Group} {n a : Nat} (h : Gathered g n a) {l : Nat} (hl : Parked g n a l) :
    (g.releaseAt n a).lane l = { g.lane l with p := false, n := 0, pc := (g.lane l).pc + 8 } := by
  have hbit := (parkedMask_bit g n a l).2 hl
  obtain ⟨h32, hp, -, -, hpc⟩ := hl
  have hne : parkedMask g n a ≠ 0 := mask_ne_zero.2 ⟨l, h32, hbit⟩
  rw [releaseAt_eq, decide_eq_true hne, decide_eq_true ((gathered_mask g n a).2 h), Bool.and_self, if_pos rfl, lane_mapLanes,
    if_pos ⟨lt_of_parked hp, hbit⟩, hpc]

theorem releaseAt_else {g : Group} {n a : Nat} (h : ¬ Gathered g n a) : g.releaseAt n a = g := by
  rw [releaseAt_eq, decide_eq_false fun hz => h ((gathered_mask g n a).1 hz), Bool.and_false, if_neg Bool.false_ne_true]

theorem lane_releaseAt_other (g : Group) {n a l : Nat} (h : ¬ Parked g n a l) : (g.releaseAt n a).lane l = g.lane l := by
  rw [releaseAt_eq]
  split
  · rw [lane_mapLanes, if_neg fun hc => h ((parkedMask_bit g n a l).1 hc.2)]
  · rfl

theorem releaseAt_j (g : Group) (n a : Nat) : (g.releaseAt n a).j = g.j := (released_regs (releaseAt_released g n a)).2.2.2.1

-- One freeing does not touch what another waits for -------------------------------------------------------------------------------------------

/-- What other lanes wait for is the same after a freeing. -/
theorem gathered_releaseAt {g : Group} {n a m b : Nat} (h : (m, b) ≠ (n, a) ∨ ¬ Gathered g n a) :
    Gathered (g.releaseAt n a) m b ↔ Gathered g m b := by
  rcases h with hother | hstuck
  · refine forall₂_congr fun k hk => ?_
    rw [releaseAt_j]
    refine imp_congr_right fun _ => ?_
    by_cases hpark : Parked g n a k
    · by_cases hall : Gathered g n a
      · obtain ⟨-, hp, hx, hn, hpc⟩ := hpark
        rw [lane_releaseAt_gathered hall ⟨hk, hp, hx, hn, hpc⟩]
        have hkey : ¬ ((g.lane k).n = m ∧ (g.lane k).pc = b) := fun e => hother (by rw [← e.1, ← e.2, hn, hpc])
        simp [hx, hkey]
      · rw [releaseAt_else hall]
    · rw [lane_releaseAt_other g hpark]
  · rw [releaseAt_else hstuck]

theorem gathered_group (g : Group) (b : Lane) : gathered (getAt 0 g.j) g.lane b = true ↔ Gathered g b.n b.pc := gathered_iff

/-- What release comes to for a lane does not change as other lanes, or it, are freed. -/
theorem freed_releaseAt (g : Group) {n : Nat} (a : Nat) (hn : n < 4) {l : Nat} (hl : l < 32) :
    freed (getAt 0 (g.releaseAt n a).j) (g.releaseAt n a).lane l = freed (getAt 0 g.j) g.lane l := by
  by_cases hall : Gathered g n a
  · by_cases hpark : Parked g n a l
    · have hlane := lane_releaseAt_gathered hall hpark
      obtain ⟨-, hp, hx, hln, hpc⟩ := hpark
      have hgone : gathered (getAt 0 g.j) g.lane (g.lane l) = true := (gathered_group g _).2 (by rw [hln, hpc]; exact hall)
      rw [freed_of_running (.inl (by rw [hlane])), hlane, freed, if_pos (by rw [hgone, hp, hx, hln, decide_eq_true hn]; rfl)]
    · have hlane := lane_releaseAt_other g hpark
      by_cases hp : (g.lane l).p = true ∧ (g.lane l).x = false
      · have hkey : ((g.lane l).n, (g.lane l).pc) ≠ (n, a) := fun e => by
          cases e
          exact hpark ⟨hl, hp.1, hp.2, rfl, rfl⟩
        have hsame : gathered (getAt 0 (g.releaseAt n a).j) (g.releaseAt n a).lane (g.lane l) = gathered (getAt 0 g.j) g.lane (g.lane l) := by
          rw [Bool.eq_iff_iff, gathered_group, gathered_group, gathered_releaseAt (.inl hkey)]
        simp only [freed, hlane, hsame]
      · have hrun : (g.lane l).p = false ∨ (g.lane l).x = true := by
          cases hp' : (g.lane l).p <;> cases hx' : (g.lane l).x <;> simp [hp', hx'] at hp ⊢
        rw [freed_of_running (by rw [hlane]; exact hrun), hlane, freed_of_running hrun]
  · rw [releaseAt_else hall]

-- The whole of release ------------------------------------------------------------------------------------------------------------------------

/-- The lanes parked under join register n at address a have been seen: they wait for a lane. -/
def Seen (g : Group) (n a l : Nat) : Prop := Parked g n a l → ¬ Gathered g n a

theorem seen_releaseAt (g : Group) (n a l : Nat) : Seen (g.releaseAt n a) n a l := by
  intro hpark hall
  by_cases hg : Gathered g n a
  · by_cases hp : Parked g n a l
    · obtain ⟨-, hpk, -⟩ := hpark
      rw [lane_releaseAt_gathered hg hp] at hpk
      cases hpk
    · refine hp ?_
      rw [Parked, lane_releaseAt_other g hp] at hpark
      exact hpark
  · rw [releaseAt_else hg] at hall
    exact hg hall

theorem parked_released {x y : Group} (h : Laws.Released x y) {n a l : Nat} (hp : Parked y n a l) : Parked x n a l := by
  obtain ⟨hl, hpk, hrest⟩ := hp
  rcases h.2.2 l with e | ⟨-, -, e⟩
  · rw [e] at hpk hrest
    exact ⟨hl, hpk, hrest⟩
  · rw [e] at hpk
    cases hpk

theorem seen_kept (g : Group) {n a m b l : Nat} (h : Seen g n a l) : Seen (g.releaseAt m b) n a l := by
  intro hpark hall
  have hstuck := h (parked_released (releaseAt_released g m b) hpark)
  by_cases hkey : (n, a) = (m, b)
  · cases hkey
    rw [releaseAt_else hstuck] at hall
    exact hstuck hall
  · exact hstuck ((gathered_releaseAt (.inl hkey)).1 hall)

theorem foldl_keep {α β : Type} {f : α → β → α} {p : α → Prop} {l : List β} (hkeep : ∀ x, ∀ b ∈ l, p x → p (f x b)) :
    ∀ x, p x → p (l.foldl f x) := by
  induction l with
  | nil => exact fun _ h => h
  | cons b l ih => exact fun x h => ih (fun x c hc => hkeep x c (List.mem_cons_of_mem _ hc)) _ (hkeep x b List.mem_cons_self h)

theorem foldl_reach {α β : Type} {f : α → β → α} {p : α → Prop} {b : β} {l : List β} (hb : b ∈ l) (hset : ∀ x, p (f x b))
    (hkeep : ∀ x c, p x → p (f x c)) (x : α) : p (l.foldl f x) := by
  obtain ⟨l1, l2, rfl⟩ := List.append_of_mem hb
  rw [List.foldl_append, List.foldl_cons]
  exact foldl_keep (fun x c _ => hkeep x c) _ (hset _)

/-- The addresses at which lanes are parked under join register n. -/
def addresses (g : Group) (n : Nat) : List Nat :=
  (List.range g.lanes.length).filterMap fun l => if (g.lane l).p && !(g.lane l).x && (g.lane l).n == n then some (g.lane l).pc else none

/-- Release for one join register. -/
def releaseUnder (g : Group) (n : Nat) : Group := (addresses g n).foldl (fun g a => g.releaseAt n a) g

theorem release_eq (g : Group) : g.release = (List.range 4).foldl releaseUnder g := rfl

theorem released_under (g : Group) (n : Nat) : Laws.Released g (releaseUnder g n) := foldl_released _ (fun g a => releaseAt_released g n a) _ _

theorem mem_addresses {g : Group} {n a l : Nat} (h : Parked g n a l) : a ∈ addresses g n := by
  obtain ⟨-, hp, hx, hn, hpc⟩ := h
  exact List.mem_filterMap.2 ⟨l, List.mem_range.2 (lt_of_parked hp), by simp [hp, hx, hn, hpc]⟩

theorem seen_under (g : Group) (n a l : Nat) : Seen (releaseUnder g n) n a l := fun hpark =>
  have hmem := mem_addresses (parked_released (released_under g n) hpark)
  have hseen : Seen (releaseUnder g n) n a l := foldl_reach (p := fun y => Seen y n a l) hmem (fun x => seen_releaseAt x n a l)
    (fun _ _ h => seen_kept _ h) g
  hseen hpark

theorem seen_release (g : Group) {n : Nat} (hn : n < 4) (a l : Nat) : Seen g.release n a l := by
  rw [release_eq]
  exact foldl_reach (p := fun y => Seen y n a l) (List.mem_range.2 hn) (fun x => seen_under x n a l)
    (fun x m h => foldl_keep (p := fun y => Seen y n a l) (l := addresses x m) (fun _ _ _ h => seen_kept _ h) x h) g

/-- What release comes to for a lane, from any state on the way. -/
def Settles (g : Group) (l : Nat) (y : Group) : Prop := freed (getAt 0 y.j) y.lane l = freed (getAt 0 g.j) g.lane l

theorem settles_release (g : Group) {l : Nat} (hl : l < 32) : Settles g l g.release := by
  rw [release_eq]
  exact foldl_keep (p := Settles g l) (fun x n hn hx => foldl_keep (p := Settles g l) (l := addresses x n)
    (fun y a _ hy => (freed_releaseAt y a (List.mem_range.1 hn) hl).trans hy) x hx) g rfl

/-- What release does to a lane: it frees it, once every lane that its join register names has exited or is parked with it (R154). -/
theorem lane_release (g : Group) {l : Nat} (hl : l < 32) : g.release.lane l = freed (getAt 0 g.j) g.lane l := by
  have hsettles : freed (getAt 0 g.release.j) g.release.lane l = freed (getAt 0 g.j) g.lane l := settles_release g hl
  rw [← hsettles, freed, if_neg]
  intro hc
  simp only [Bool.and_eq_true, Bool.not_eq_true', decide_eq_true_eq, gathered_group] at hc
  obtain ⟨⟨⟨hp, hx⟩, hn⟩, hall⟩ := hc
  exact seen_release g hn _ l ⟨hl, hp, hx, rfl, rfl⟩ hall

end Sys2Proof.ReleaseLanes
end

section
/-! PROOFS. O17: JOIN, WAIT and NOP (R166, R167, R170): join registers and parked lanes. -/

namespace Sys2Proof.JoinWait

open Machine Laws Safety InstructionEnd RegisterRows GroupEffects CrossLane ReleaseLanes

theorem lane_congr {x y : Group} (h : y.lanes = x.lanes) (l : Nat) : y.lane l = x.lane l := by simp only [Group.lane, h]

/-- What a lane at the address of a ready instruction is. -/
theorem at_lane {s : State} {i : Instr} {is : Iss} (h : Ready s i is) {l : Nat} (hat : is.at_.getLsbD l = true) :
    l < 32 ∧ l < (s.group is.g).lanes.length ∧ ((s.group is.g).lane l).x = false ∧ ((s.group is.g).lane l).p = false ∧
      ((s.group is.g).lane l).pc = is.a := by
  rw [h.here, ← h.isGroup, lanesAt_iff] at hat
  exact hat

theorem at_pc {s : State} {i : Instr} {is : Iss} (h : Ready s i is) {l : Nat} (hat : is.at_.getLsbD l = true) :
    ((s.group is.g).lane l).pc = is.a := by
  obtain ⟨-, -, -, -, hpc⟩ := at_lane h hat
  exact hpc

theorem at_running {s : State} {i : Instr} {is : Iss} (h : Ready s i is) {l : Nat} (hat : is.at_.getLsbD l = true) :
    ((s.group is.g).lane l).p = false := by
  obtain ⟨-, -, -, hp, -⟩ := at_lane h hat
  exact hp

/-- The lanes of a mask at the address move on; the others stand. -/
theorem lane_advance_ready {s : State} {i : Instr} {is : Iss} (h : Ready s i is) {y : Group} (hy : y.lanes = (s.group is.g).lanes) (m : Mask)
    (hm : ∀ l, m.getLsbD l = true → is.at_.getLsbD l = true) (l : Nat) : (y.advance m is.a is.len).lane l =
      if m.getLsbD l = true then { (s.group is.g).lane l with pc := is.a + is.len } else (s.group is.g).lane l := by
  rw [lane_advance, lane_congr hy, hy]
  by_cases hl : m.getLsbD l = true
  · obtain ⟨-, hlen, hx, hp, hpc⟩ := at_lane h (hm l hl)
    rw [if_pos hl, if_pos ⟨hl, hx, hp, hpc, hlen⟩]
  · rw [if_neg hl, if_neg fun hc => hl hc.1]

-- JOIN (R166) -----------------------------------------------------------------------------------------------------------------------------

/-- The mask that JOIN gives its join register. -/
def joinMask (f : Full) (is : Iss) (g : Group) : Mask := if f.xm = 1 then (g.sreg f.b.num.toNat).setWidth 32 else is.act

/-- The effect of JOIN. -/
def joined (f : Full) (is : Iss) (g : Group) : Group :=
  { g with j := setAt 0 g.j f.d.num.toNat (joinMask f is g), vbad := g.marksOff (.j f.d.num.toNat) }

theorem exec_join (f : Full) (s : State) : exec (.join f) s = issue (.join f) (regBody (joined f)) s := rfl

theorem join_says {f : Full} {s : State} {is : Iss} (h : Ready s (.join f) is) (ha : is.act ≠ 0) (hw : Memory.wf s.mem = true) :
    ∃ t, exec (.join f) s = .next t ∧
      (∀ n, getAt 0 (t.group is.g).j n = if n = f.d.num.toNat then joinMask f is (s.group is.g) else getAt 0 (s.group is.g).j n) ∧
      VectorsKept (s.group is.g) (t.group is.g) ∧ ScalarsKept (s.group is.g) (t.group is.g) ∧ PredsKept (s.group is.g) (t.group is.g) ∧
      (t.group is.g).flags = (s.group is.g).flags ∧ Settled s t is ∧
      ∀ l, l < 32 → (t.group is.g).lane l = freed (getAt 0 (t.group is.g).j) (fun k =>
        if is.at_.getLsbD k = true then { (s.group is.g).lane k with pc := is.a + is.len } else (s.group is.g).lane k) l := by
  have hsame := sameRegs_issued s (.join f) is
  have hin : InPlace (s.group is.g) (joined f is ((issued s (.join f) is).group is.g)) :=
    (inPlace_issued s (.join f) is).regs fun r hr => (List.mem_filter.1 hr).1
  obtain ⟨hgroup, hregs, hsettled⟩ := regBody_settled (joined f) h hw rfl hin
  have hmask : joinMask f is ((issued s (.join f) is).group is.g) = joinMask f is (s.group is.g) := by
    simp only [joinMask, sreg_congr hsame.s]
  have hj : ((regBody (joined f) is (issued s (.join f) is)).group is.g).j =
      setAt 0 (s.group is.g).j f.d.num.toNat (joinMask f is (s.group is.g)) := by
    rw [hregs.j, joined, hmask, hsame.j]
  refine ⟨_, exec_ready (exec_join f) h ha, fun n => ?_, fun n l _ => vcell_congr (hregs.v.trans hsame.v) n l,
    fun n => sreg_congr (hregs.s.trans hsame.s) n, fun n => pred_congr (hregs.p.trans hsame.p) n, hregs.flags.trans hsame.flags, hsettled,
    fun l hl => ?_⟩
  · rw [hj]
    split
    · rw [‹n = _›, getAt_setAt_same]
    · exact getAt_setAt_other _ _ _ _ _ ‹_›
  · rw [hregs.j, hgroup, lane_release _ hl]
    exact freed_congr (fun k _ => lane_advance_ready h hin.lanes is.at_ (fun _ hk => hk) k) hl

-- WAIT (R167) -----------------------------------------------------------------------------------------------------------------------------

/-- The lanes of active() parked under join register n, the other lanes at the address moved on. -/
def parking (n : Nat) (is : Iss) (x : Group) : Group :=
  (x.advance (is.at_ &&& ~~~is.act) is.a is.len).mapLanes is.act fun _ y => { y with p := true, n }

/-- The effect of WAIT. -/
def waitEffect (f : Full) (is : Iss) (s : State) : State := post (s.setGroup is.g (parking f.d.num.toNat is (s.group is.g))) is.g

theorem exec_wait (f : Full) (s : State) : exec (.wait f) s = issue (.wait f) (waitEffect f) s := rfl

/-- A lane behind WAIT, before release has seen it. -/
def parkedLane (n : Nat) (is : Iss) (x : Group) (k : Nat) : Lane :=
  if is.act.getLsbD k = true then { x.lane k with p := true, n }
  else if is.at_.getLsbD k = true then { x.lane k with pc := is.a + is.len } else x.lane k

theorem lane_parking {s : State} {i : Instr} {is : Iss} (h : Ready s i is) {y : Group} (hy : y.lanes = (s.group is.g).lanes) (n l : Nat) :
    (parking n is y).lane l = parkedLane n is (s.group is.g) l := by
  have hwithout : ∀ l, (is.at_ &&& ~~~is.act).getLsbD l = true → is.at_.getLsbD l = true := fun l hl => by
    rw [BitVec.getLsbD_and, Bool.and_eq_true] at hl
    exact hl.1
  rw [parking, lane_mapLanes, length_advance, lane_advance_ready h hy _ hwithout, parkedLane]
  by_cases hact : is.act.getLsbD l = true
  · obtain ⟨hl, hlen, -⟩ := at_lane h (ready_act_at h hact)
    rw [if_pos hact, if_pos ⟨hy ▸ hlen, hact⟩, if_neg (by simp [getLsbD_without _ _ hl, hact])]
  · rw [if_neg hact, if_neg fun hc => hact hc.2]
    by_cases hat : is.at_.getLsbD l = true
    · rw [if_pos hat, if_pos (by simp only [getLsbD_without _ _ (BitVec.lt_of_getLsbD hat), hat, hact, Bool.not_false, Bool.and_self])]
    · rw [if_neg hat, if_neg fun hc => hat (hwithout l hc)]

/-- The lanes that are live stay so when others are parked or moved. -/
theorem live_of_lanes {x y : Group} (hlen : y.lanes.length = x.lanes.length) (hx : ∀ l, (y.lane l).x = (x.lane l).x) : y.live = x.live := by
  refine mask_ext fun l _ => ?_
  simp only [Group.live, getLsbD_maskOf, hlen, hx]

/-- What an instruction reads of the join registers is sound (R370). -/
theorem join_clean {s : State} {i : Instr} {is : Iss} (h : Ready s i is) (ha : is.act ≠ 0) {n : Nat} (hn : Res.j n ∈ (usesOf i).1) :
    ∀ r ∈ (s.group is.g).vbad, r.1 ≠ .j n := by
  intro r hr hrn
  have hclean := h.clean
  rw [← h.isGroup, badRead, if_neg (by simpa using List.ne_nil_of_mem hr), if_neg ha, List.find?_eq_none] at hclean
  refine hclean _ hn (List.any_eq_true.2 ⟨r, hr, ?_⟩)
  obtain ⟨q, l⟩ := r
  cases hrn
  simp

theorem wait_reads (f : Full) : Res.j f.d.num.toNat ∈ (usesOf (.wait f)).1 := by
  show Res.j f.d.num.toNat ∈ predRes f.ctl ++ [Res.j f.d.num.toNat] ++ _ ++ _ ++ _ ++ _ ++ _
  simp

/-- The join register that WAIT parks lanes under is one of the four. -/
theorem wait_num {f : Full} {s : State} {is : Iss} (h : Ready s (.wait f) is) : f.d.num.toNat < 4 := by
  obtain ⟨-, hops⟩ := ops_of_ready h (op := 0xB6) rfl
  obtain ⟨hd, -⟩ := Bool.and_eq_true_iff.1 hops
  obtain ⟨-, hnum⟩ := Bool.and_eq_true_iff.1 hd
  exact Nat.lt_succ_of_le (of_decide_eq_true hnum)

/-- Release reads no join register that fails parity behind WAIT: WAIT has read the one it parks lanes under (R370). -/
theorem badJoin_parking {f : Full} {s : State} {is : Iss} (h : Ready s (.wait f) is) (ha : is.act ≠ 0) {y : Group}
    (hy : InPlace (s.group is.g) y) : (parking f.d.num.toNat is y).badJoin = none := by
  have hjoins := h.joins
  rw [← h.isGroup, badJoin_none] at hjoins
  rw [badJoin_none]
  rintro n hn r hr hrn l hl ⟨hp, hx, hln⟩
  have hmark : r ∈ (s.group is.g).vbad := hy.marks r hr
  rw [lane_parking h hy.lanes, parkedLane] at hp hx hln
  have hlen : l < (s.group is.g).lanes.length := by rw [parking, length_mapLanes, length_advance, hy.lanes] at hl; exact hl
  by_cases hact : is.act.getLsbD l = true
  · rw [if_pos hact] at hln
    exact join_clean h ha (wait_reads f) r hmark (hrn.trans (by rw [← hln]))
  · rw [if_neg hact] at hp hx hln
    by_cases hat : is.at_.getLsbD l = true
    · obtain ⟨-, -, -, hp', -⟩ := at_lane h hat
      rw [if_pos hat] at hp
      exact Bool.false_ne_true (hp'.symm.trans hp)
    · rw [if_neg hat] at hp hx hln
      exact hjoins n hn r hmark hrn l hlen ⟨hp, hx, hln⟩

/-- What WAIT does to its group, and the frame. -/
theorem wait_settled {f : Full} {s : State} {is : Iss} (h : Ready s (.wait f) is) (ha : is.act ≠ 0) (hw : Memory.wf s.mem = true) :
    (waitEffect f is (issued s (.wait f) is)).group is.g = (parking f.d.num.toNat is ((issued s (.wait f) is).group is.g)).release ∧
      Underway s (waitEffect f is (issued s (.wait f) is)) is.g := by
  have hin := inPlace_issued s (.wait f) is
  have hlive : (parking f.d.num.toNat is ((issued s (.wait f) is).group is.g)).live ≠ 0 := by
    rw [live_of_lanes (x := s.group is.g) (by rw [parking, length_mapLanes, length_advance, hin.lanes]) fun l => ?_, h.isGroup]
    · exact live_of_issueAddr h.addr
    · rw [lane_parking h hin.lanes, parkedLane]
      split_ifs <;> rfl
  have hplace : PlaceKept (s.group is.g) (parking f.d.num.toNat is ((issued s (.wait f) is).group is.g)) := { hin.place with }
  obtain ⟨hgroup, hu⟩ := post_underway ((underway_issued h hw).setGroup (ready_lt h)
    (parking f.d.num.toNat is ((issued s (.wait f) is).group is.g)))
    (ready_lt h) (by rwa [group_setGroup_same]) (by rwa [group_setGroup_same]) (by rw [group_setGroup_same]; exact badJoin_parking h ha hin)
  exact ⟨by rw [waitEffect, hgroup, group_setGroup_same], hu⟩

/-- What a lane of active() waits for behind WAIT: the lanes that its join register names have exited, stand with it or are parked already. -/
theorem gathered_wait {s : State} {i : Instr} {is : Iss} (h : Ready s i is) (n : Nat) (b : Lane) (hn : b.n = n) (hpc : b.pc = is.a) :
    gathered (getAt 0 (s.group is.g).j) (parkedLane n is (s.group is.g)) b = true ↔
      ∀ l, l < 32 → (getAt 0 (s.group is.g).j n).getLsbD l = true →
        (is.act.getLsbD l || (decide (l < (s.group is.g).lanes.length) && !((s.group is.g).lane l).x && ((s.group is.g).lane l).p &&
          ((s.group is.g).lane l).n == n && ((s.group is.g).lane l).pc == is.a)) = true ∨ ((s.group is.g).lane l).x = true := by
  rw [gathered_iff, hn, hpc]
  refine forall₂_congr fun l _ => imp_congr_right fun _ => ?_
  rw [parkedLane]
  by_cases hact : is.act.getLsbD l = true
  · obtain ⟨-, -, -, -, hat⟩ := at_lane h (ready_act_at h hact)
    simp [hact, hat]
  · by_cases hat : is.at_.getLsbD l = true
    · obtain ⟨-, -, hx, hp, -⟩ := at_lane h hat
      simp [hact, hat, hx, hp]
    · have hlen : ((s.group is.g).lane l).p = true → l < (s.group is.g).lanes.length := lt_of_parked
      rw [if_neg hact, if_neg hat, Bool.eq_false_iff.2 hact, Bool.false_or]
      cases hx : ((s.group is.g).lane l).x
      · simp only [Bool.and_eq_true, decide_eq_true_eq, beq_iff_eq, Bool.not_false, and_true, Bool.false_eq_true, false_or, or_false, and_assoc]
        exact ⟨fun hq => ⟨hlen hq.1, hq⟩, And.right⟩
      · simp

/-- What a freed lane of active() is. -/
theorem freed_wait {s : State} {i : Instr} {is : Iss} (h : Ready s i is) {n l : Nat} (hn : n < 4) (hact : is.act.getLsbD l = true) :
    freed (getAt 0 (s.group is.g).j) (parkedLane n is (s.group is.g)) l =
      if gathered (getAt 0 (s.group is.g).j) (parkedLane n is (s.group is.g)) { (s.group is.g).lane l with p := true, n } = true then
        { (s.group is.g).lane l with p := false, n := 0, pc := is.a + 8 }
      else { (s.group is.g).lane l with p := true, n } := by
  obtain ⟨-, -, hx, -, hpc⟩ := at_lane h (ready_act_at h hact)
  simp only [freed, parkedLane, hact, if_true, hx, hpc, decide_eq_true hn, Bool.true_and, Bool.not_false]

theorem sameRegs_parking (n : Nat) (is : Iss) (x : Group) : SameRegs x (parking n is x) := ⟨rfl, rfl, rfl, rfl, rfl⟩

/-- The lanes, the registers and the place of a group behind WAIT. -/
theorem wait_says {f : Full} {s : State} {is : Iss} (h : Ready s (.wait f) is) (ha : is.act ≠ 0) (hw : Memory.wf s.mem = true) :
    ∃ t, exec (.wait f) s = .next t ∧
      (∀ l, l < 32 → (t.group is.g).lane l = freed (getAt 0 (s.group is.g).j) (parkedLane f.d.num.toNat is (s.group is.g)) l) ∧
      RegsKept (s.group is.g) (t.group is.g) ∧ PlaceKept (s.group is.g) (t.group is.g) ∧ Underway s t is.g := by
  have hin := inPlace_issued s (.wait f) is
  have hplace : PlaceKept (s.group is.g) (parking f.d.num.toNat is ((issued s (.wait f) is).group is.g)) := { hin.place with }
  have hpark := (sameRegs_issued s (.wait f) is).trans (sameRegs_parking f.d.num.toNat is _)
  obtain ⟨hgroup, hu⟩ := wait_settled h ha hw
  have hrel := release_released (parking f.d.num.toNat is ((issued s (.wait f) is).group is.g))
  rw [← hgroup] at hrel
  refine ⟨_, exec_ready (exec_wait f) h ha, fun l hl => ?_, (hpark.trans (sameRegs_released hrel)).kept, placeKept_released hplace hrel, hu⟩
  rw [hgroup, lane_release _ hl, hpark.j]
  exact freed_congr (fun k _ => lane_parking h hin.lanes _ k) hl

end Sys2Proof.JoinWait
end

section
/-! PROOFS. O17: the helper rule (R157) and EXIT (R168), lane by lane. -/

namespace Sys2Proof.Exits

open Machine Laws Safety InstructionEnd RegisterRows GroupEffects CrossLane ReleaseLanes JoinWait

-- The helper rule (R157) --------------------------------------------------------------------------------------------------------------------

/-- Quad q holds a live lane that is no helper. -/
def quadKeeps (g : Group) (q : Nat) : Bool := (span (4 * q) 4).any fun l => decide (l < g.lanes.length) && !(g.lane l).x && !(g.lane l).h

/-- The lanes of a list exit. -/
def exited (ls : List Nat) (g : Group) : Group := ls.foldl (fun g l => if l < g.lanes.length then g.setLane l { x := true } else g) g

/-- The helper rule for one quad. -/
def quadRule (g : Group) (q : Nat) : Group := if quadKeeps g q then g else exited (span (4 * q) 4) g

theorem helperRule_eq (g : Group) : g.helperRule = (List.range 8).foldl quadRule g := rfl

/-- One group is another but for its lanes, and it has as many. -/
def LanesOnly (x y : Group) : Prop := ∃ ls, y = { x with lanes := ls } ∧ ls.length = x.lanes.length

theorem LanesOnly.refl (x : Group) : LanesOnly x x := ⟨_, rfl, rfl⟩

theorem LanesOnly.trans {x y z : Group} (h : LanesOnly x y) (k : LanesOnly y z) : LanesOnly x z := by
  obtain ⟨ls, rfl, hls⟩ := h
  obtain ⟨ks, rfl, hks⟩ := k
  exact ⟨ks, rfl, hks.trans hls⟩

theorem LanesOnly.length {x y : Group} (h : LanesOnly x y) : y.lanes.length = x.lanes.length := by
  obtain ⟨ls, rfl, hls⟩ := h
  exact hls

theorem lanesOnly_setLane {g : Group} {l : Nat} (hl : l < g.lanes.length) (x : Lane) : LanesOnly g (g.setLane l x) :=
  ⟨_, rfl, length_setAt _ _ _ _ hl⟩

theorem lanesOnly_exited (ls : List Nat) (g : Group) : LanesOnly g (exited ls g) :=
  foldl_keep (p := LanesOnly g) (fun x l _ h => by
    show LanesOnly g (if l < x.lanes.length then _ else _)
    split
    · exact h.trans (lanesOnly_setLane ‹_› _)
    · exact h) g (.refl g)

theorem lane_exited (l : Nat) : ∀ (ls : List Nat) (g : Group),
    (exited ls g).lane l = if l ∈ ls ∧ l < g.lanes.length then { x := true } else g.lane l
  | [], g => by simp [exited]
  | k :: ls, g => by
    show (exited ls (if k < g.lanes.length then g.setLane k { x := true } else g)).lane l = _
    rw [lane_exited l ls]
    by_cases hk : k < g.lanes.length
    · rw [if_pos hk, (lanesOnly_setLane hk _).length]
      by_cases hlk : l = k
      · subst hlk
        have hset : (g.setLane l { x := true }).lane l = { x := true } := getAt_setAt_same _ _ _ _
        simp [hset, hk]
      · have hset : (g.setLane k { x := true }).lane l = g.lane l := getAt_setAt_other _ _ _ _ _ hlk
        simp [hset, hlk]
    · rw [if_neg hk]
      by_cases hlk : l = k
      · subst hlk
        simp [hk]
      · simp [hlk]

theorem lanesOnly_quadRule (g : Group) (q : Nat) : LanesOnly g (quadRule g q) := by
  rw [quadRule]
  split
  · exact .refl g
  · exact lanesOnly_exited _ g

theorem lane_quadRule (g : Group) (q l : Nat) : (quadRule g q).lane l =
    if l / 4 = q ∧ l < g.lanes.length ∧ quadKeeps g q = false then { x := true } else g.lane l := by
  rw [quadRule]
  by_cases hq : quadKeeps g q = true
  · simp [hq]
  · have hmem : l ∈ span (4 * q) 4 ↔ l / 4 = q := by
      rw [RoomAndWork.mem_span]
      omega
    rw [if_neg hq, lane_exited]
    exact if_congr (by rw [hmem, Bool.eq_false_iff.2 hq, eq_self, and_true]) rfl rfl

theorem lanesOnly_helperRule (g : Group) : LanesOnly g g.helperRule := by
  rw [helperRule_eq]
  exact foldl_keep (p := LanesOnly g) (fun x q _ h => h.trans (lanesOnly_quadRule x q)) g (.refl g)

/-- What keeps a quad is what its own lanes are. -/
theorem quadKeeps_congr {x y : Group} {q : Nat} (hlen : y.lanes.length = x.lanes.length) (h : ∀ l, l / 4 = q → y.lane l = x.lane l) :
    quadKeeps y q = quadKeeps x q := by
  rw [Bool.eq_iff_iff, quadKeeps, quadKeeps, List.any_eq_true, List.any_eq_true]
  refine exists_congr fun l => and_congr_right fun hl => ?_
  rw [RoomAndWork.mem_span] at hl
  rw [hlen, h l (by omega)]

theorem lane_quads (g : Group) (l : Nat) : ∀ k, ((List.range k).foldl quadRule g).lane l =
    if l < 4 * k ∧ l < g.lanes.length ∧ quadKeeps g (l / 4) = false then { x := true } else g.lane l
  | 0 => by simp
  | k + 1 => by
    have hlen : ((List.range k).foldl quadRule g).lanes.length = g.lanes.length :=
      (foldl_keep (p := LanesOnly g) (fun x q _ h => h.trans (lanesOnly_quadRule x q)) g (.refl g) : LanesOnly g _).length
    have hquad : quadKeeps ((List.range k).foldl quadRule g) k = quadKeeps g k := quadKeeps_congr hlen fun m hm => by
      rw [lane_quads g m k, if_neg (by omega)]
    rw [List.range_succ, List.foldl_append, List.foldl_cons, List.foldl_nil, lane_quadRule, hlen, hquad, lane_quads g l k]
    by_cases hk : l / 4 = k
    · rw [if_neg (c := l < 4 * k ∧ _) (by omega), hk]
      exact if_congr (and_congr_left fun _ => by omega) rfl rfl
    · rw [if_neg (by omega)]
      exact if_congr (and_congr_left fun _ => by omega) rfl rfl

theorem lane_helperRule_high (g : Group) {l : Nat} (hl : 32 ≤ l) : g.helperRule.lane l = g.lane l := by
  rw [helperRule_eq, lane_quads, if_neg (by omega)]

/-- What the helper rule does to a lane (R157). -/
theorem lane_helperRule (g : Group) {l : Nat} (hl : l < 32) : g.helperRule.lane l =
    if l < g.lanes.length ∧ quadKeeps g (l / 4) = false then { x := true } else g.lane l := by
  rw [helperRule_eq, lane_quads]
  exact if_congr (and_iff_right hl) rfl rfl

/-- Release reads what it read before where no lane is parked anew and no mark is new. -/
theorem badJoin_of_parked {x y : Group} (hmarks : ∀ r ∈ y.vbad, r ∈ x.vbad) (hparked : ∀ l, (y.lane l).p = true → y.lane l = x.lane l)
    (hlen : y.lanes.length = x.lanes.length) (h : x.badJoin = none) : y.badJoin = none := by
  rw [badJoin_none] at h ⊢
  rintro n hn r hmark hrn l hl ⟨hp, hx, hln⟩
  have hsame := hparked l hp
  rw [hsame] at hp hx hln
  exact h n hn r (hmarks r hmark) hrn l (hlen ▸ hl) ⟨hp, hx, hln⟩

-- EXIT (R168) ---------------------------------------------------------------------------------------------------------------------------------

/-- The lane's quad holds a live lane that is no helper and does not exit. -/
def stays (is : Iss) (x : Group) (l : Nat) : Bool :=
  (span (l / 4 * 4) 4).any fun m => decide (m < x.lanes.length) && !(x.lane m).x && !(x.lane m).h && !is.act.getLsbD m

theorem stays_iff {is : Iss} {x : Group} {l : Nat} : stays is x l = true ↔
    ∃ m, m / 4 = l / 4 ∧ m < x.lanes.length ∧ (x.lane m).x = false ∧ (x.lane m).h = false ∧ is.act.getLsbD m = false := by
  rw [stays, List.any_eq_true]
  refine exists_congr fun m => ?_
  simp only [RoomAndWork.mem_span, Bool.and_eq_true, decide_eq_true_eq, Bool.not_eq_true', and_assoc]
  rw [← and_assoc]
  exact and_congr_left fun _ => by omega

/-- The group as EXIT leaves it, before the helper rule. -/
def exiting (h : Bool) (is : Iss) (x : Group) : Group :=
  let x := x.advance (is.at_ &&& ~~~is.act) is.a is.len
  let stays := x.live &&& ~~~x.helpers &&& ~~~is.act
  let keeps := fun l => (span (l / 4 * 4) 4).any fun m => m != l && stays.getLsbD m
  x.mapLanes is.act fun l y => if h && keeps l then { y with h := true, pc := is.a + is.len } else { x := true }

theorem length_exiting (h : Bool) (is : Iss) (x : Group) : (exiting h is x).lanes.length = x.lanes.length := by
  rw [exiting, length_mapLanes, length_advance]

theorem length_exits (h : Bool) (is : Iss) (x : Group) : (exiting h is x).helperRule.lanes.length = x.lanes.length := by
  rw [(lanesOnly_helperRule _).length, length_exiting]

theorem lanesOnly_exits (h : Bool) (is : Iss) (x : Group) : LanesOnly x (exiting h is x).helperRule :=
  .trans ⟨_, rfl, length_exiting h is x⟩ (lanesOnly_helperRule _)

theorem vbad_exits (h : Bool) (is : Iss) (x : Group) : (exiting h is x).helperRule.vbad = x.vbad := by
  obtain ⟨ls, e, -⟩ := lanesOnly_exits h is x
  rw [e]

/-- A lane behind EXIT, before release has seen it. -/
def exitLane (h : Bool) (is : Iss) (x : Group) (k : Nat) : Lane :=
  if k < x.lanes.length ∧ stays is x k = false then { x := true }
  else if is.act.getLsbD k = true then if h = true then { x.lane k with h := true, pc := is.a + is.len } else { x := true }
  else if is.at_.getLsbD k = true then { x.lane k with pc := is.a + is.len } else x.lane k

/-- A lane that keeps its quad does not exit. -/
theorem exitLane_keeper (h : Bool) {is : Iss} {x : Group} {m : Nat} (hlen : m < x.lanes.length) (hx : (x.lane m).x = false)
    (hh : (x.lane m).h = false) (hact : is.act.getLsbD m = false) : (exitLane h is x m).x = false := by
  have hst : stays is x m = true := stays_iff.2 ⟨m, rfl, hlen, hx, hh, hact⟩
  rw [exitLane, if_neg fun hc => Bool.false_ne_true (hc.2.symm.trans hst), if_neg (by simp [hact])]
  split <;> exact hx

section
variable {s : State} {i : Instr} {is : Iss} (hr : Ready s i is) {y : Group} (hy : y.lanes = (s.group is.g).lanes)
include hr hy

theorem lane_others (l : Nat) : (y.advance (is.at_ &&& ~~~is.act) is.a is.len).lane l =
    if is.act.getLsbD l = false ∧ is.at_.getLsbD l = true then { (s.group is.g).lane l with pc := is.a + is.len } else (s.group is.g).lane l := by
  have hbit : (is.at_ &&& ~~~is.act).getLsbD l = true ↔ is.act.getLsbD l = false ∧ is.at_.getLsbD l = true := by
    by_cases hl : l < 32
    · rw [getLsbD_without _ _ hl, Bool.and_eq_true, Bool.not_eq_true', and_comm]
    · simp [BitVec.getLsbD_of_ge _ l (Nat.not_lt.1 hl)]
  rw [lane_advance_ready hr hy _ (fun k hk => by rw [BitVec.getLsbD_and, Bool.and_eq_true] at hk; exact hk.1)]
  exact if_congr hbit rfl rfl

/-- What EXIT's own test of a quad asks of a lane that exits. -/
theorem keeps_eq {l : Nat} (hact : is.act.getLsbD l = true) :
    ((span (l / 4 * 4) 4).any fun m => m != l && ((y.advance (is.at_ &&& ~~~is.act) is.a is.len).live &&&
      ~~~(y.advance (is.at_ &&& ~~~is.act) is.a is.len).helpers &&& ~~~is.act).getLsbD m) = stays is (s.group is.g) l := by
  have hl := (at_lane hr (ready_act_at hr hact)).1
  rw [Bool.eq_iff_iff, stays, List.any_eq_true, List.any_eq_true]
  refine exists_congr fun m => and_congr_right fun hm => ?_
  rw [RoomAndWork.mem_span] at hm
  have hm32 : m < 32 := by omega
  have hself : is.act.getLsbD m = false → m ≠ l := fun h e => by rw [e, hact] at h; cases h
  have hlane : ((y.advance (is.at_ &&& ~~~is.act) is.a is.len).lane m).x = ((s.group is.g).lane m).x ∧
      ((y.advance (is.at_ &&& ~~~is.act) is.a is.len).lane m).h = ((s.group is.g).lane m).h := by
    rw [lane_others hr hy]
    split <;> exact ⟨rfl, rfl⟩
  rw [getLsbD_without _ _ hm32, getLsbD_without _ _ hm32, Group.live, Group.helpers, getLsbD_maskOf, getLsbD_maskOf, decide_eq_true hm32,
    hlane.1, hlane.2, length_advance, hy]
  cases ha : is.act.getLsbD m
  · simp only [bne_iff_ne.2 (hself ha), Bool.true_and, Bool.not_false, Bool.and_true]
    cases decide (m < (s.group is.g).lanes.length) <;> cases ((s.group is.g).lane m).x <;> cases ((s.group is.g).lane m).h <;> simp
  · simp

theorem lane_exiting (h : Bool) (l : Nat) : (exiting h is y).lane l =
    if is.act.getLsbD l = true then
      if (h && stays is (s.group is.g) l) = true then { (s.group is.g).lane l with h := true, pc := is.a + is.len } else { x := true }
    else if is.at_.getLsbD l = true then { (s.group is.g).lane l with pc := is.a + is.len } else (s.group is.g).lane l := by
  rw [exiting, lane_mapLanes, length_advance]
  by_cases hact : is.act.getLsbD l = true
  · obtain ⟨-, hlen, -⟩ := at_lane hr (ready_act_at hr hact)
    rw [if_pos ⟨by rw [hy]; exact hlen, hact⟩, if_pos hact]
    beta_reduce
    rw [keeps_eq hr hy hact, lane_others hr hy, if_neg (c := is.act.getLsbD l = false ∧ _) fun hc => Bool.false_ne_true (hc.1.symm.trans hact)]
  · rw [if_neg fun hc => hact hc.2, if_neg hact, lane_others hr hy]
    exact if_congr (and_iff_right (Bool.eq_false_iff.2 hact)) rfl rfl

/-- A quad keeps its helpers behind EXIT while a live lane of it that is no helper does not exit. -/
theorem quadKeeps_exiting (h : Bool) (l : Nat) : quadKeeps (exiting h is y) (l / 4) = stays is (s.group is.g) l := by
  rw [quadKeeps, stays, Nat.mul_comm, Bool.eq_iff_iff, List.any_eq_true, List.any_eq_true]
  refine exists_congr fun m => and_congr_right fun _ => ?_
  rw [length_exiting, hy, lane_exiting hr hy]
  cases hact : is.act.getLsbD m
  · rw [if_neg Bool.false_ne_true]
    split <;> simp
  · rw [if_pos rfl]
    split <;> simp

/-- Every lane behind EXIT, before release. -/
theorem lane_exits (h : Bool) {l : Nat} (hl : l < 32) : (exiting h is y).helperRule.lane l = exitLane h is (s.group is.g) l := by
  rw [lane_helperRule _ hl, quadKeeps_exiting hr hy, length_exiting, hy, exitLane]
  refine if_ctx_congr Iff.rfl (fun _ => rfl) fun hkept => ?_
  rw [lane_exiting hr hy]
  by_cases hact : is.act.getLsbD l = true
  · obtain ⟨-, hlen, -⟩ := at_lane hr (ready_act_at hr hact)
    have hstays : stays is (s.group is.g) l = true := by
      cases hst : stays is (s.group is.g) l
      · exact absurd ⟨hlen, hst⟩ hkept
      · rfl
    rw [if_pos hact, if_pos hact, hstays, Bool.and_true]
  · rw [if_neg hact, if_neg hact]

/-- EXIT parks no lane. -/
theorem parked_exiting (h : Bool) {l : Nat} (hp : ((exiting h is y).lane l).p = true) : (exiting h is y).lane l = (s.group is.g).lane l := by
  rw [lane_exiting hr hy] at hp ⊢
  by_cases hact : is.act.getLsbD l = true
  · obtain ⟨-, -, -, hrun, -⟩ := at_lane hr (ready_act_at hr hact)
    rw [if_pos hact] at hp
    split at hp
    · exact absurd hp (by simp [hrun])
    · cases hp
  · rw [if_neg hact] at hp ⊢
    by_cases hat : is.at_.getLsbD l = true
    · obtain ⟨-, -, -, hrun, -⟩ := at_lane hr hat
      rw [if_pos hat] at hp
      exact absurd hp (by simp [hrun])
    · rw [if_neg hat]

theorem parked_exits (h : Bool) {l : Nat} (hp : ((exiting h is y).helperRule.lane l).p = true) :
    (exiting h is y).helperRule.lane l = (s.group is.g).lane l := by
  by_cases hl : l < 32
  · rw [lane_helperRule _ hl] at hp ⊢
    split at hp
    · cases hp
    · rw [if_neg ‹_›, parked_exiting hr hy h hp]
  · rw [lane_helperRule_high _ (Nat.not_lt.1 hl)] at hp ⊢
    exact parked_exiting hr hy h hp

/-- The group ends when every quad has lost the lanes that keep it. -/
theorem live_exits (h : Bool) : (exiting h is y).helperRule.live = 0 ↔
    ∀ l, l < 32 → l < (s.group is.g).lanes.length → stays is (s.group is.g) l = false := by
  rw [mask_zero_iff]
  constructor
  · intro hdead l hl hlen
    by_contra hst
    obtain ⟨m, hml, hmlen, hmx, hmh, hmact⟩ := stays_iff.1 (Bool.not_eq_false _ ▸ hst)
    have hm : m < 32 := by omega
    have hlive := hdead m hm
    rw [Group.live, getLsbD_maskOf, length_exits, hy, decide_eq_true hm, decide_eq_true hmlen, lane_exits hr hy h hm,
      exitLane_keeper h hmlen hmx hmh hmact] at hlive
    cases hlive
  · intro hgone l hl
    rw [Group.live, getLsbD_maskOf, length_exits, hy, lane_exits hr hy h hl]
    by_cases hlen : l < (s.group is.g).lanes.length
    · rw [exitLane, if_pos ⟨hlen, hgone l hl hlen⟩]
      simp
    · simp [hlen]

/-- Release reads no join register that fails parity behind EXIT (R370). -/
theorem badJoin_exits (h : Bool) (hmarks : ∀ r ∈ y.vbad, r ∈ (s.group is.g).vbad) : (exiting h is y).helperRule.badJoin = none :=
  badJoin_of_parked (x := s.group is.g) (by rw [vbad_exits]; exact hmarks) (fun _ => parked_exits hr hy h) (by rw [length_exits, hy])
    (by rw [hr.isGroup]; exact hr.joins)

end

end Sys2Proof.Exits
end

section
/-! PROOFS. O17: the end of a group whose lanes have all exited (R102, R156, R297), and the rows of JOIN, WAIT, EXIT and NOP. -/

namespace Sys2Proof.Exits

open Machine Laws Safety InstructionEnd RegisterRows GroupEffects CrossLane ReleaseLanes JoinWait

-- What a group that ends gives up ------------------------------------------------------------------------------------------------------------

/-- What giving up the baton changes: cores and teams, and of the core's fields the baton's alone. -/
structure GaveUp (s : State) (k g : Nat) (cs : List Core) (ts : List Team) : Prop where
  others  : ∀ n, n ≠ k → getAt {} cs n = s.core n
  groups  : (getAt {} cs k).groups = (s.core k).groups
  passed  : (s.core k).holder = some g →
    (getAt {} cs k).holder = (s.core k).queue.head? ∧ (getAt {} cs k).queue = (s.core k).queue.drop 1
  nothing : (s.core k).holder ≠ some g → savedArray s g = none → cs = s.cores ∧ ts = s.teams

theorem gaveUp_setAt {s : State} {k g : Nat} {c : Core} {ts : List Team} (hgroups : c.groups = (s.core k).groups)
    (hpassed : (s.core k).holder = some g → c.holder = (s.core k).queue.head? ∧ c.queue = (s.core k).queue.drop 1)
    (hsome : (s.core k).holder = some g ∨ savedArray s g ≠ none) : GaveUp s k g (setAt {} s.cores k c) ts where
  others := fun n hn => getAt_setAt_other _ _ _ _ _ hn
  groups := by rw [getAt_setAt_same]; exact hgroups
  passed := by rw [getAt_setAt_same]; exact hpassed
  nothing := fun hno hnone => hsome.elim (absurd · hno) (absurd hnone)

theorem giveUp_gaveUp (s : State) (k g : Nat) : ∃ cs ts, giveUp s k g = retooled s cs ts ∧ GaveUp s k g cs ts := by
  by_cases hholder : (s.core k).holder = some g
  · have hgive : giveUp s k g = passBaton s k := by simp only [giveUp, if_pos hholder]
    cases hq : (s.core k).queue with
    | nil =>
      exact ⟨_, _, hgive.trans (BatonRows.passBaton_nil hq), gaveUp_setAt rfl (fun _ => ⟨by rw [hq]; rfl, by rw [hq]; rfl⟩) (.inl hholder)⟩
    | cons n q =>
      obtain ⟨ts, hpass⟩ := BatonRows.passBaton_cons hq
      exact ⟨_, _, hgive.trans hpass, gaveUp_setAt rfl (fun _ => ⟨by rw [hq]; rfl, by rw [hq]; rfl⟩) (.inl hholder)⟩
  · by_cases hsaved : ∃ a, (s.team (s.group g).team).array = some (g, a)
    · obtain ⟨a, ha⟩ := hsaved
      exact ⟨_, _, BatonRows.giveUp_saved hholder ha, gaveUp_setAt rfl (absurd · hholder)
        (.inr (by rw [BatonRows.savedArray_some ha]; exact Option.some_ne_none _))⟩
    · exact ⟨s.cores, s.teams, BatonRows.giveUp_none hholder fun a ha => hsaved ⟨a, ha⟩,
        { others := fun _ _ => rfl, groups := rfl, passed := fun h => absurd h hholder, nothing := fun _ _ => ⟨rfl, rfl⟩ }⟩

/-- A core without the slot of a group that has ended (R102). -/
def without (c : Core) (g : Nat) : Core :=
  { c with groups := c.groups.map fun x => if x == some g then none else x, grows := c.grows.filter (· != g) }

/-- No slot holds the group. -/
theorem without_groups (c : Core) (g n : Nat) : getAt none (without c g).groups n ≠ some g := by
  intro hn
  rcases getAt_mem none (without c g).groups n with hd | hm
  · rw [hn] at hd
    cases hd
  · rw [hn, without, List.mem_map] at hm
    obtain ⟨x, -, hx⟩ := hm
    split at hx
    · cases hx
    · rename_i hne
      exact hne (beq_iff_eq.2 hx)

/-- The end of an instruction whose group has no live lane left. -/
theorem post_dead {s : State} {g : Nat} (hlive : (s.group g).live = 0) (hjoin : (s.group g).badJoin = none) :
    post s g = giveUp (freeGroup (s.setGroup g (s.group g).release.dead) (s.group g).release.core g) (s.group g).release.core g := by
  unfold post
  rw [hjoin]
  simp only
  rw [if_pos ((release_released _).live.trans hlive), setGroup_setGroup]

-- EXIT (R156, R168) ------------------------------------------------------------------------------------------------------------------------------

/-- A group behind EXIT, before release. -/
def exits (h : Bool) (s : State) (i : Instr) (is : Iss) : Group := (exiting h is ((issued s i is).group is.g)).helperRule

theorem exitBody_issued (h : Bool) (s : State) (i : Instr) (is : Iss) :
    exitBody h is (issued s i is) = post ((issued s i is).setGroup is.g (exits h s i is)) is.g := rfl

theorem inPlace_exits (h : Bool) (s : State) (i : Instr) (is : Iss) :
    PlaceKept (s.group is.g) (exits h s i is) ∧ SameRegs (s.group is.g) (exits h s i is) := by
  obtain ⟨ls, e, -⟩ := lanesOnly_exits h is ((issued s i is).group is.g)
  rw [exits, e]
  exact ⟨{ placeKept_issued s i is with }, { sameRegs_issued s i is with }⟩

section
variable {s : State} {i : Instr} {is : Iss} (hr : Ready s i is) (hw : Memory.wf s.mem = true) (h : Bool)
include hr

theorem badJoin_exits_issued : (exits h s i is).badJoin = none :=
  badJoin_exits hr (inPlace_issued s i is).lanes h (inPlace_issued s i is).marks

theorem live_exits_issued : (exits h s i is).live = 0 ↔ ∀ l, l < 32 → l < (s.group is.g).lanes.length → stays is (s.group is.g) l = false :=
  live_exits hr (inPlace_issued s i is).lanes h

include hw

/-- EXIT leaves live lanes: release, and the frame. -/
theorem exit_goes_on (hlive : (exits h s i is).live ≠ 0) :
    (exitBody h is (issued s i is)).group is.g = (exits h s i is).release ∧ Underway s (exitBody h is (issued s i is)) is.g := by
  have hplace := (inPlace_exits h s i is).1
  obtain ⟨hgroup, hu⟩ := post_underway ((underway_issued hr hw).setGroup (ready_lt hr) (exits h s i is)) (ready_lt hr)
    (by rwa [group_setGroup_same]) (by rwa [group_setGroup_same]) (by rw [group_setGroup_same]; exact badJoin_exits_issued hr h)
  exact ⟨by rw [exitBody_issued, hgroup, group_setGroup_same], hu⟩

end

/-- The cores and teams behind the end of a group: its slot is free, and it has given up the baton. -/
structure GroupGone (s : State) (g : Nat) (cs : List Core) (ts : List Team) : Prop where
  others  : ∀ k, k ≠ (s.group g).core → CoreSame (s.core k) (getAt {} cs k)
  slots   : ∀ n, getAt none (getAt {} cs (s.group g).core).groups n ≠ some g
  nothing : (s.core (s.group g).core).holder ≠ some g → savedArray s g = none → (∀ k, TeamSame (s.team k) (getAt {} ts k)) ∧
    (getAt {} cs (s.group g).core).holder = (s.core (s.group g).core).holder ∧
    (getAt {} cs (s.group g).core).queue = (s.core (s.group g).core).queue ∧ (getAt {} cs (s.group g).core).array = (s.core (s.group g).core).array
  passed  : (s.core (s.group g).core).holder = some g →
    (getAt {} cs (s.group g).core).holder = (s.core (s.group g).core).queue.head? ∧
    (getAt {} cs (s.group g).core).queue = (s.core (s.group g).core).queue.drop 1

/-- The same array state is saved for a group of the same team. -/
theorem savedArray_congr {s t : State} {g : Nat} (hteam : (t.group g).team = (s.group g).team) (h : ∀ k, TeamSame (s.team k) (t.team k)) :
    savedArray t g = savedArray s g := by
  obtain ⟨k, e⟩ := h (s.group g).team
  simp only [savedArray, hteam, e]

/-- A group that ends on a state whose cores and teams are those of s but for counts. -/
theorem groupGone {s u : State} {g : Nat} {x : Group} (hcores : ∀ k, CoreSame (s.core k) (u.core k))
    (hteams : ∀ k, TeamSame (s.team k) (u.team k))
    (hteam : x.team = (s.group g).team) : ∃ cs ts, giveUp (freeGroup (u.setGroup g x.dead) (s.group g).core g) (s.group g).core g =
      retooled (u.setGroup g x.dead) cs ts ∧ GroupGone s g cs ts := by
  obtain ⟨cs, ts, hgive, hgave⟩ := giveUp_gaveUp (freeGroup (u.setGroup g x.dead) (s.group g).core g) (s.group g).core g
  have hown : (freeGroup (u.setGroup g x.dead) (s.group g).core g).core (s.group g).core = without (u.core (s.group g).core) g :=
    getAt_setAt_same _ _ _ _
  have hother : ∀ k, k ≠ (s.group g).core → (freeGroup (u.setGroup g x.dead) (s.group g).core g).core k = u.core k :=
    fun k hk => getAt_setAt_other _ _ _ _ _ hk
  have hsaved : savedArray (freeGroup (u.setGroup g x.dead) (s.group g).core g) g = savedArray s g :=
    savedArray_congr (t := freeGroup (u.setGroup g x.dead) (s.group g).core g)
      ((congrArg Group.team (group_setGroup_same u g x.dead)).trans hteam) hteams
  obtain ⟨m, k, hsame⟩ := hcores (s.group g).core
  have hfields : (without (u.core (s.group g).core) g).holder = (s.core (s.group g).core).holder ∧
      (without (u.core (s.group g).core) g).queue = (s.core (s.group g).core).queue ∧
      (without (u.core (s.group g).core) g).array = (s.core (s.group g).core).array := by
    rw [hsame]
    exact ⟨rfl, rfl, rfl⟩
  obtain ⟨hholder, hqueue, harray⟩ := hfields
  refine ⟨cs, ts, hgive, ⟨fun k hk => ?_, fun n => ?_, fun hno hnone => ?_, fun hh => ?_⟩⟩
  · rw [hgave.others k hk, hother k hk]
    exact hcores k
  · rw [hgave.groups, hown]
    exact without_groups _ _ _
  · obtain ⟨rfl, rfl⟩ := hgave.nothing (by rw [hown, hholder]; exact hno) (hsaved.trans hnone)
    exact ⟨hteams, (congrArg Core.holder hown).trans hholder, (congrArg Core.queue hown).trans hqueue, (congrArg Core.array hown).trans harray⟩
  · have hpassed := hgave.passed (by rw [hown, hholder]; exact hh)
    rwa [hown, hqueue] at hpassed

/-- EXIT leaves no live lane: the group ends, and its slot and its baton are given up. -/
theorem exit_ends {s : State} {i : Instr} {is : Iss} (hr : Ready s i is) (h : Bool) (hdead : (exits h s i is).live = 0) : ∃ cs ts,
    exitBody h is (issued s i is) = retooled ((issued s i is).setGroup is.g (exits h s i is).release.dead) cs ts ∧ GroupGone s is.g cs ts := by
  obtain ⟨hplace, -⟩ := inPlace_exits h s i is
  have hrel := placeKept_released hplace (release_released (exits h s i is))
  obtain ⟨cs, ts, hgive, hgone⟩ := groupGone (x := (exits h s i is).release) (issued_core s i is) (issued_team s i is) hrel.team
  refine ⟨cs, ts, ?_, hgone⟩
  rw [exitBody_issued, post_dead (by rwa [group_setGroup_same]) (by rw [group_setGroup_same]; exact badJoin_exits_issued hr h),
    group_setGroup_same, setGroup_setGroup, hrel.core, hgive]

/-- A lane of a group that goes on behind EXIT. -/
theorem lane_goes_on {s : State} {i : Instr} {is : Iss} (hr : Ready s i is) (h : Bool) {l : Nat} (hl : l < 32) :
    (exits h s i is).release.lane l = freed (getAt 0 (s.group is.g).j) (exitLane h is (s.group is.g)) l := by
  rw [lane_release _ hl, (inPlace_exits h s i is).2.j]
  exact freed_congr (fun k hk => lane_exits hr (inPlace_issued s i is).lanes h hk) hl

/-- Every lane of a group that has ended has exited. -/
theorem lane_dead (x : Group) {l : Nat} (hl : l < 32) : (x.dead.lane l).x = true := by
  have hlane : x.dead.lane l = getAt {} ((List.range 32).map fun _ => { x := true }) l := by simp [Group.lane, Group.dead]
  rw [hlane, getAt_map_range _ _ _ _ hl]

theorem sameRegs_dead (x : Group) : SameRegs x x.dead := ⟨rfl, rfl, rfl, rfl, rfl⟩

/-- What EXIT does, whatever lanes it leaves: the conjuncts that both cases share. -/
structure ExitShared (s t : State) (g : Nat) : Prop where
  regs   : RegsKept (s.group g) (t.group g)
  groups : GroupsKept s t g
  mem    : MemKept s t g
  writes : t.writes = s.writes
  rels   : t.rels = s.rels
  marks  : MarksKept s t g

theorem exitShared_of_underway {s t : State} {g : Nat} (hu : Underway s t g) (hregs : RegsKept (s.group g) (t.group g)) : ExitShared s t g :=
  ⟨hregs, hu.groups, hu.mem, hu.machine.writes, hu.machine.rels, hu.machine.poison⟩

theorem exit_shared {s : State} {i : Instr} {is : Iss} (hr : Ready s i is) (hw : Memory.wf s.mem = true) (h : Bool) :
    ExitShared s (exitBody h is (issued s i is)) is.g := by
  have hsame := (inPlace_exits h s i is).2.trans (sameRegs_released (release_released (exits h s i is)))
  by_cases hdead : (exits h s i is).live = 0
  · obtain ⟨cs, ts, ht, -⟩ := exit_ends hr h hdead
    have hu := (underway_issued hr hw).setGroup (ready_lt hr) (exits h s i is).release.dead
    have hgroup : (retooled ((issued s i is).setGroup is.g (exits h s i is).release.dead) cs ts).group is.g = (exits h s i is).release.dead :=
      group_setGroup_same _ _ _
    rw [ht]
    exact ⟨by rw [hgroup]; exact (hsame.trans (sameRegs_dead _)).kept, hu.groups, hu.mem, hu.machine.writes,
      hu.machine.rels, hu.machine.poison⟩
  · obtain ⟨hgroup, hu⟩ := exit_goes_on hr hw h hdead
    exact exitShared_of_underway hu (by rw [hgroup]; exact hsame.kept)

/-- A group that has ended, and what is left of the machine. -/
theorem exit_ended {s : State} {i : Instr} {is : Iss} (hr : Ready s i is) (hw : Memory.wf s.mem = true) (h : Bool)
    (hdead : (exits h s i is).live = 0) : ∃ t, exitBody h is (issued s i is) = t ∧ (t.group is.g).ended = true ∧
      (∀ l, l < 32 → ((t.group is.g).lane l).x = true) ∧ MachineKept s { t with cores := s.cores, teams := s.teams } is.g ∧
      GroupGone s is.g t.cores t.teams := by
  obtain ⟨cs, ts, ht, hgone⟩ := exit_ends hr h hdead
  have hu := (underway_issued hr hw).setGroup (ready_lt hr) (exits h s i is).release.dead
  have hgroup : (retooled ((issued s i is).setGroup is.g (exits h s i is).release.dead) cs ts).group is.g = (exits h s i is).release.dead :=
    group_setGroup_same _ _ _
  refine ⟨_, ht, by rw [hgroup]; rfl, fun l hl => by rw [hgroup]; exact lane_dead _ hl, ?_, hgone⟩
  exact { hu.machine with teams := ⟨rfl, fun _ => ⟨_, rfl⟩⟩, cores := fun _ => ⟨_, _, rfl⟩ }

end Sys2Proof.Exits
end

section
/-! PROOFS. O17: JOIN, WAIT, EXIT and NOP, assembled (R154, R166 to R168, R170). -/

namespace Sys2Proof.Exits

open Machine Laws Safety InstructionEnd RegisterRows GroupEffects CrossLane ReleaseLanes JoinWait

theorem nop_quiet {i : Instr} (hrow : ∀ s, exec i s = issue i (regBody fun _ g => g) s) : QuietRow i :=
  fun _ _ h ha hw => ⟨_, exec_ready hrow h ha, passed_quiet h hw⟩

/-- A lane that EXIT ends, whatever release does. -/
theorem exitLane_gone (h : Bool) {is : Iss} {x : Group} {l : Nat} (hlen : l < x.lanes.length) (hst : stays is x l = false) :
    exitLane h is x l = { x := true } := if_pos ⟨hlen, hst⟩

theorem exitLane_kept (h : Bool) {is : Iss} {x : Group} {l : Nat} (hst : stays is x l = true) : exitLane h is x l =
    if is.act.getLsbD l = true then if h = true then { x.lane l with h := true, pc := is.a + is.len } else { x := true }
    else if is.at_.getLsbD l = true then { x.lane l with pc := is.a + is.len } else x.lane l :=
  if_neg fun hc => Bool.false_ne_true (hc.2.symm.trans hst)

/-- A quad that keeps a lane keeps the group. -/
theorem not_dead_of_stays {s : State} {i : Instr} {is : Iss} (hr : Ready s i is) (h : Bool) {l : Nat} (hl : l < 32)
    (hst : stays is (s.group is.g) l = true) : (exits h s i is).live ≠ 0 := by
  obtain ⟨m, hml, hlen, hx, hh, hact⟩ := stays_iff.1 hst
  have hkeeper : stays is (s.group is.g) m = true := stays_iff.2 ⟨m, rfl, hlen, hx, hh, hact⟩
  exact fun hdead => Bool.false_ne_true (((live_exits_issued hr h).1 hdead m (by omega) hlen).symm.trans hkeeper)

/-- A lane that its quad keeps is not freed, where it does not stay parked. -/
theorem freed_exitLane {s : State} {i : Instr} {is : Iss} (hr : Ready s i is) (h : Bool) {l : Nat} (j : Nat → Mask)
    (hst : stays is (s.group is.g) l = true) (hp : is.act.getLsbD l = true ∨ ((s.group is.g).lane l).p = false) :
    freed j (exitLane h is (s.group is.g)) l = exitLane h is (s.group is.g) l := by
  have hrun : ((s.group is.g).lane l).p = false := hp.elim (fun hact => at_running hr (ready_act_at hr hact)) id
  refine freed_of_running (.inl ?_)
  rw [exitLane_kept h hst]
  split_ifs
  exacts [hrun, rfl, hrun, hrun]

/-- Settles O17: release lane by lane, then each row by what its lanes are before release; EXIT's group ends when no quad keeps a lane. -/
theorem joinWaitExitNop : Obligations.JoinWaitExitNop := by
  unfold Obligations.JoinWaitExitNop
  refine ⟨nop_quiet fun _ => rfl, fun f => nop_quiet fun _ => rfl, fun f s is h ha hw => join_says h ha hw, fun f s is h ha hw => ?_,
    fun i h hi s is hr ha hw => ?_⟩
  · obtain ⟨t, ht, hlanes, hregs, hplace, hu⟩ := wait_says h ha hw
    have hwaits : ∀ l, is.act.getLsbD l = true → _ := fun l hact => gathered_wait h f.d.num.toNat
      { (s.group is.g).lane l with p := true, n := f.d.num.toNat } rfl (at_pc h (ready_act_at h hact))
    refine ⟨t, ht, fun hfree l hl hact => ?_, fun hstuck l hl hact => ?_, fun l hl hat hact => ?_, hlanes, hregs, hplace,
      hu.groups, hu.machine, hu.mem⟩
    · rw [hlanes l hl, freed_wait h (wait_num h) hact, if_pos ((hwaits l hact).2 hfree)]
    · rw [hlanes l hl, freed_wait h (wait_num h) hact, if_neg fun hc => hstuck ((hwaits l hact).1 hc)]
    · have hlane : parkedLane f.d.num.toNat is (s.group is.g) l = { (s.group is.g).lane l with pc := is.a + is.len } := by
        rw [parkedLane, if_neg (by simp [hact]), if_pos hat]
      rw [hlanes l hl, freed_of_running (.inl (by rw [hlane]; exact at_running h hat)), hlane]
  · have hrow : ∀ s, exec i s = issue i (exitBody h) s := by
      rcases hi with ⟨rfl, rfl⟩ | ⟨f, rfl, rfl⟩
      · exact fun _ => rfl
      · exact fun s => by rw [beq_eq_decide]; rfl
    obtain ⟨⟨hv, hs, hp, hj, hflags⟩, hgroups, hmem, hwrites, hrels, hmarks⟩ := exit_shared hr hw h
    have hlive := live_exits_issued hr h
    refine ⟨_, exec_ready hrow hr ha, ?_⟩
    by_cases hdead : (exits h s i is).live = 0
    · obtain ⟨t, ht, hended, hgone, hmachine, hothers, hslots, hnothing, hpassed⟩ := exit_ended hr hw h hdead
      rw [ht] at hv hs hp hj hflags hgroups hmem hwrites hrels hmarks ⊢
      exact ⟨fun l hl _ _ => hgone l hl, fun l hl hst => absurd hdead (not_dead_of_stays hr h hl hst),
        fun l hl hst => absurd hdead (not_dead_of_stays hr h hl hst), hv, hs, hp, hj, hflags, ⟨fun _ => hlive.1 hdead, fun _ => hended⟩,
        hgroups, hmem, hwrites, hrels, hmarks, fun hn => absurd (hlive.1 hdead) hn, fun _ => ⟨hmachine, hothers, hslots, hnothing, hpassed⟩⟩
    · obtain ⟨hgroup, hu⟩ := exit_goes_on hr hw h hdead
      have hplace := placeKept_released (inPlace_exits h s i is).1 (release_released (exits h s i is))
      rw [← hgroup] at hplace
      have hlanes : ∀ l, l < 32 → ((exitBody h is (issued s i is)).group is.g).lane l =
          freed (getAt 0 (s.group is.g).j) (exitLane h is (s.group is.g)) l := fun l hl => by rw [hgroup, lane_goes_on hr h hl]
      have hgoing : (s.group is.g).ended = false := by rw [hr.isGroup]; exact hr.going
      refine ⟨fun l hl hlen hst => ?_, fun l hl hst hact => ?_, fun l hl hst hact hpark => ?_, hv, hs, hp, hj, hflags,
        ⟨fun he => absurd (hplace.ended.symm.trans he) (by simp [hgoing]), fun hall => absurd (hlive.2 hall) hdead⟩, hgroups, hmem, hwrites,
        hrels, hmarks, fun _ => ⟨hplace, hu.machine, hlanes⟩, fun hall => absurd (hlive.2 hall) hdead⟩
      · have hlane := exitLane_gone h hlen hst
        rw [hlanes l hl, freed_of_running (.inl (by rw [hlane])), hlane]
      · rw [hlanes l hl, freed_exitLane hr h _ hst (.inl hact), exitLane_kept h hst, if_pos hact]
      · rw [hlanes l hl, freed_exitLane hr h _ hst (.inr hpark), exitLane_kept h hst, if_neg (by simp [hact])]

end Sys2Proof.Exits
end

section
/-! PROOFS. O19: TRAP and TRET (R169, R352, R361). -/

namespace Sys2Proof.TrapRows

open Machine Laws Safety InstructionEnd RegisterRows GroupEffects JoinWait

-- Taking a handler cause (R352) -----------------------------------------------------------------------------------------------------------------

/-- A group that has entered its handler. -/
def handled (x : Group) (vec : Word) (t : Trap) (ilen : Nat) (logged : Bool) (pc : Nat) : Group :=
  { x with
    frame := { cause := wd (ilen * 2 ^ 12 + (if logged then 2 ^ 8 else 0) + t.cause), lanes := t.lanes, info := t.info, pc
               spcv := x.lanes, sj := (List.range 4).map (getAt 0 x.j) }
    frozen := x.log, log := [], wait := .none, inh := true, j := [], windows := [], buf := []
    lanes := x.lanes.map fun l => if l.x then l else { l with p := false, n := 0, pc := wfield vec 2 55 * 4 } }

/-- Trap entry saves sound registers alone (R370). -/
theorem badSaved_none {x : Group} (hpcv : x.pcvBad = false) (hj : ∀ r ∈ x.vbad, ∀ n, r.1 ≠ .j n) : x.badSaved = none := by
  rw [Group.badSaved, if_neg (by simp [hpcv]), Option.map_eq_none_iff, List.find?_eq_none]
  intro n _ hany
  obtain ⟨r, hr, he⟩ := List.any_eq_true.1 hany
  exact hj r hr n (beq_iff_eq.1 he)

theorem enterTrap_eq {s : State} {g : Nat} (t : Trap) (ilen : Nat) (logged : Bool) (pc : Nat) (hinh : (s.group g).inh = false)
    (hvec : wfield (s.team (s.group g).team).vec 0 1 = 1) (hsaved : (s.group g).badSaved = none) : enterTrap s g t ilen logged pc =
      (traceGroup s 0x22 g t.lanes t.cause).setGroup g (handled (s.group g) (s.team (s.group g).team).vec t ilen logged pc) := by
  simp only [enterTrap, hinh, hvec, hsaved, Bool.false_eq_true, if_false, Nat.one_ne_zero]
  rfl

/-- The fields of the cause word (R352). -/
theorem cause_fields {c ilen : Nat} (hc : c < 256) (hlen : ilen < 4) (logged : Bool) :
    let w := wd (ilen * 2 ^ 12 + (if logged then 2 ^ 8 else 0) + c)
    wfield w 0 8 = c ∧ wfield w 8 1 = (if logged then 1 else 0) ∧ wfield w 12 2 = ilen := by
  have hn : (wd (ilen * 2 ^ 12 + (if logged then 2 ^ 8 else 0) + c)).toNat = ilen * 2 ^ 12 + (if logged then 2 ^ 8 else 0) + c :=
    Registers.toNat_wd (by split <;> omega)
  simp only [wfield, field, hn]
  cases logged
  · simp only [Bool.false_eq_true, if_false]
    omega
  · simp only [if_true]
    omega

/-- A group in its handler, from one with the registers and in the place of another. -/
theorem handled_entered {x z : Group} {vec : Word} {t : Trap} {ilen : Nat} {logged : Bool} {pc : Nat} (hc : t.cause < 256) (hlen : ilen < 4)
    (hlanes : z.lanes = x.lanes) (hsame : SameRegs x z) (hplace : PlaceKept x z) :
    HandlerEntered x (handled z vec t ilen logged pc) (4 * wfield vec 2 55) t ilen logged pc := by
  obtain ⟨hcause, hlogged, hilen⟩ := cause_fields hc hlen logged
  refine ⟨hcause, hlogged, hilen, rfl, rfl, rfl, hlanes, fun n hn => ?_, fun n => rfl, hplace.log, rfl, rfl, rfl, rfl, ?_, fun l hl => ?_,
    fun n l _ => vcell_congr hsame.v n l, fun n => sreg_congr hsame.s n, fun n => pred_congr hsame.p n, hsame.flags, hplace.vbound, hplace.vres,
    hplace.vbase⟩
  · exact (getAt_map_range _ _ _ _ hn).trans (by rw [hsame.j])
  · exact (List.length_map _).trans (congrArg List.length hlanes)
  · show getAt ({} : Lane) (z.lanes.map _) l = _
    rw [hlanes, getAt_map ({} : Lane) ({} : Lane) _ _ _ hl, Nat.mul_comm]
    rfl

-- TRAP (R169) ----------------------------------------------------------------------------------------------------------------------------------

/-- An encoding has at most three words. -/
theorem length_encode_le (i : Instr) : (encode i).length ≤ 3 := by
  cases hv : view i with
  | none => simp [encode, hv]
  | some v =>
    have hone := (WordCount.instr hv).1
    cases he : encode i with
    | nil => exact Nat.zero_le 3
    | cons w rest =>
      have hlen := hone w rest he
      rw [lenWords] at hlen
      rw [List.length_cons, ← hlen]
      split <;> decide

theorem len_words {s : State} {i : Instr} {is : Iss} (h : Ready s i is) : is.len / 4 < 4 := by
  have hle := length_encode_le i
  rw [h.len, Instr.bytes]
  omega

/-- The effect of TRAP. -/
def trapEffect (f : Full) (is : Iss) (s : State) : State :=
  enterTrap (s.setGroup is.g ((s.group is.g).advance is.at_ is.a is.len)) is.g ⟨0x0F, is.act, wd f.c.immNat⟩ (is.len / 4) false is.a

theorem exec_trap (f : Full) (s : State) : exec (.trap f) s = issue (.trap f) (trapEffect f) s := rfl

/-- The group of a TRAP, its lanes moved on. -/
theorem advanced_issued (s : State) (i : Instr) (is : Iss) : let x := (s.group is.g).advance is.at_ is.a is.len
    let y := ((issued s i is).group is.g).advance is.at_ is.a is.len
    y.lanes = x.lanes ∧ SameRegs x y ∧ PlaceKept x y := by
  have hin := inPlace_issued s i is
  exact ⟨advance_lanes_congr hin.lanes _ _ _, { sameRegs_issued s i is with }, { hin.place with }⟩

theorem trap_says {f : Full} {s : State} {is : Iss} (h : Ready s (.trap f) is) (ha : is.act ≠ 0) (hw : Memory.wf s.mem = true)
    (hinh : (s.group is.g).inh = false) (hvec : wfield (s.team (s.group is.g).team).vec 0 1 = 1)
    (hmarks : ∀ r ∈ (s.group is.g).vbad, ∀ n, r.1 ≠ .j n) : ∃ t, exec (.trap f) s = .next t ∧
      HandlerEntered ((s.group is.g).advance is.at_ is.a is.len) (t.group is.g) (4 * wfield (s.team (s.group is.g).team).vec 2 55)
        ⟨0x0F, is.act, wd f.c.immNat⟩ (is.len / 4) false is.a ∧ GroupsKept s t is.g ∧ MachineKept s t is.g ∧ MemKept s t is.g := by
  obtain ⟨hlanes, hsame, hplace⟩ := advanced_issued s (.trap f) is
  obtain ⟨k, hteam⟩ := issued_team s (.trap f) is (s.group is.g).team
  have hvec' : ((issued s (.trap f) is).team (((issued s (.trap f) is).group is.g).advance is.at_ is.a is.len).team).vec =
      (s.team (s.group is.g).team).vec := by
    rw [hplace.team]
    exact (congrArg Team.vec hteam).trans rfl
  have hsaved : (((issued s (.trap f) is).group is.g).advance is.at_ is.a is.len).badSaved = none :=
    badSaved_none (hplace.pcvBad.trans (by rw [h.isGroup]; exact h.sound))
      fun r hr => hmarks r ((inPlace_issued s (.trap f) is).marks r hr)
  have heffect : trapEffect f is (issued s (.trap f) is) = _ := enterTrap_eq ⟨0x0F, is.act, wd f.c.immNat⟩ (is.len / 4) false is.a
    (by rw [group_setGroup_same, hplace.inh]; exact hinh) (by rw [group_setGroup_same, team_setGroup, hvec']; exact hvec)
    (by rw [group_setGroup_same]; exact hsaved)
  have hu := (((underway_issued h hw).setGroup (ready_lt h) (((issued s (.trap f) is).group is.g).advance is.at_ is.a is.len)).traceGroup 0x22 is.g
    is.act 0x0F).setGroup (ready_lt h) (handled (((issued s (.trap f) is).group is.g).advance is.at_ is.a is.len)
      (s.team (s.group is.g).team).vec ⟨0x0F, is.act, wd f.c.immNat⟩ (is.len / 4) false is.a)
  rw [group_setGroup_same, team_setGroup, hvec'] at heffect
  refine ⟨_, by rw [exec_ready (exec_trap f) h ha, heffect], ?_, hu.groups, hu.machine, hu.mem⟩
  rw [group_setGroup_same]
  exact handled_entered (show 0x0F < 256 by decide) (len_words h) hlanes hsame hplace

-- TRET (R361) ----------------------------------------------------------------------------------------------------------------------------------

/-- A lane of a group that has returned from its handler. -/
def returnedLane (x : Group) (skip : Bool) (l : Nat) : Lane :=
  let was := getAt {} x.frame.spcv l
  if (x.lane l).x || was.x then { x := true : Lane }
  else if skip && !decide (wfield x.frame.cause 8 1 = 1) && x.frame.lanes.getLsbD l && was.pc == x.frame.pc then
    { was with pc := x.frame.pc + 4 * wfield x.frame.cause 12 2 } else was

/-- A group that has returned from its handler with no frozen entry. -/
def returned (x : Group) (skip : Bool) : Group :=
  { x with
    lanes := (List.range x.lanes.length).map (returnedLane x skip), j := x.frame.sj
    vbad := x.vbad.filter fun (r, _) => match r with | .j _ => false | _ => true, inh := false, frozen := [], log := [], wait := .none
    windows := [], buf := []
    skipBrk := if wfield x.frame.cause 0 8 = 0x17 then if skip then none else some x.frame.pc else x.skipBrk }

theorem returnTrap_none {s : State} {g : Nat} (skip : Bool) (h : (s.group g).frozen = []) :
    returnTrap s g skip = s.setGroup g (returned (s.group g) skip) := by
  have hlog : (if skip && decide (wfield (s.group g).frame.cause 8 1 = 1) then (s.group g).frozen.drop 1 else (s.group g).frozen) = [] := by
    rw [h]
    split <;> rfl
  simp only [returnTrap, hlog, List.map_nil, List.isEmpty_nil, if_true]
  rfl

/-- A log without entries. -/
theorem runEntries_nil {s : State} {g : Nat} (h : (s.group g).log = []) : runEntries s g = s.setGroup g { s.group g with wait := .none } := by
  simp only [runEntries, runLog, h]

theorem lane_returned (x : Group) (skip : Bool) {l : Nat} (hl : l < x.lanes.length) : (returned x skip).lane l = returnedLane x skip l :=
  getAt_map_range _ _ _ _ hl

/-- The join registers have returned without their marks (R370). -/
theorem badJoin_returned (x : Group) (skip : Bool) : (returned x skip).badJoin = none := by
  rw [badJoin_none]
  rintro n - ⟨r, l⟩ hr rfl
  obtain ⟨-, hj⟩ := List.mem_filter.1 hr
  cases hj

/-- What TRET leaves of its group, where no entry is frozen: the group returned, then release; and the frame. -/
theorem tret_settled {f : Full} {s : State} {is : Iss} (h : Ready s (.tret f) is) (hw : Memory.wf s.mem = true) (skip : Bool)
    (hfrozen : (s.group is.g).frozen = [])
    (hlive : ∃ l, l < 32 ∧ l < (s.group is.g).lanes.length ∧ ((s.group is.g).lane l).x = false ∧
      (getAt {} (s.group is.g).frame.spcv l).x = false) :
    let t := post (runEntries (returnTrap (issued s (.tret f) is) is.g skip) is.g) is.g
    Laws.Released (returned ((issued s (.tret f) is).group is.g) skip) (t.group is.g) ∧ Underway s t is.g := by
  have hin := inPlace_issued s (.tret f) is
  have hrun : runEntries (returnTrap (issued s (.tret f) is) is.g skip) is.g =
      (issued s (.tret f) is).setGroup is.g (returned ((issued s (.tret f) is).group is.g) skip) := by
    rw [returnTrap_none skip (hin.place.frozen.trans hfrozen), runEntries_nil (by rw [group_setGroup_same]; rfl), group_setGroup_same,
      setGroup_setGroup]
    rfl
  have hu := (underway_issued h hw).setGroup (ready_lt h) (returned ((issued s (.tret f) is).group is.g) skip)
  have hgroup := group_setGroup_same (issued s (.tret f) is) is.g (returned ((issued s (.tret f) is).group is.g) skip)
  have hlives : (returned ((issued s (.tret f) is).group is.g) skip).live ≠ 0 := by
    obtain ⟨l, hl, hlen, hx, hwas⟩ := hlive
    refine mask_ne_zero.2 ⟨l, hl, ?_⟩
    have hlane : ((returned ((issued s (.tret f) is).group is.g) skip).lane l).x = false := by
      rw [lane_returned _ _ (by rw [hin.lanes]; exact hlen), returnedLane, lane_congr hin.lanes, hin.place.frame, hx, hwas,
        Bool.or_false, if_neg Bool.false_ne_true]
      split
      · rfl
      · exact hwas
    have hsize : (returned ((issued s (.tret f) is).group is.g) skip).lanes.length = (s.group is.g).lanes.length := by
      rw [returned, List.length_map, List.length_range, hin.lanes]
    rw [Group.live, getLsbD_maskOf, hlane, hsize, decide_eq_true hl, decide_eq_true hlen]
    rfl
  have hend := ended_post (s := (issued s (.tret f) is).setGroup is.g (returned ((issued s (.tret f) is).group is.g) skip)) (by rwa [hgroup])
    (by rw [hgroup]; exact badJoin_returned _ _) (groupsKept_lt hu.groups (ready_lt h))
  have hrel := hend.group
  rw [hgroup] at hrel
  intro t
  have ht : t = _ := congrArg (post · is.g) hrun
  rw [ht]
  exact ⟨hrel, hu.ended hend (hu.backByte (by rw [hgroup]; exact hin.place.core) (by rw [hgroup]; exact hin.place.slot)
    (.inr (by rw [hgroup]; exact hin.place.vbound.le)))⟩

theorem exec_tret (f : Full) (s : State) :
    exec (.tret f) s = issue (.tret f) (fun is s => post (runEntries (returnTrap s is.g (f.xm == 1)) is.g) is.g) s := rfl

/-- Release leaves the handler mode, the log and the wait. -/
theorem released_mode {x y : Group} (h : Laws.Released x y) : y.inh = x.inh ∧ y.log = x.log ∧ y.wait = x.wait :=
  ⟨(congrArg Group.inh h.1).trans rfl, (congrArg Group.log h.1).trans rfl, (congrArg Group.wait h.1).trans rfl⟩

/-- A lane returns where it stood, past the instruction where .SKIP says so. -/
theorem returnedLane_eq (x : Group) (skip : Bool) (l : Nat) : returnedLane x skip l = let was := getAt {} x.frame.spcv l
    if (x.lane l).x = true ∨ was.x = true then { x := true }
    else if skip = true ∧ wfield x.frame.cause 8 1 ≠ 1 ∧ x.frame.lanes.getLsbD l = true ∧ was.pc = x.frame.pc then
      { was with pc := x.frame.pc + 4 * wfield x.frame.cause 12 2 } else was := by
  simp only [returnedLane, Bool.or_eq_true, Bool.and_eq_true, beq_iff_eq, Bool.not_eq_true', decide_eq_false_iff_not, and_assoc, ne_eq]

/-- A lane that was not parked when it trapped is not freed as it returns. -/
theorem returnedLane_running {x : Group} (skip : Bool) {l : Nat} (h : (getAt ({} : Lane) x.frame.spcv l).p = false) :
    (returnedLane x skip l).p = false := by
  rw [returnedLane_eq]
  dsimp only
  split_ifs
  exacts [rfl, h, h]

/-- Settles O19: the handler's frame holds what the group was, and a return with no frozen entry gives it back. -/
theorem trapAndReturnRows : Obligations.TrapAndReturnRows := by
  unfold Obligations.TrapAndReturnRows
  refine ⟨fun f s is h ha hw hinh hvec hmarks => trap_says h ha hw hinh hvec hmarks, fun f s is h ha => exec_ready (exec_tret f) h ha,
    fun f s is h ha hw hfrozen hlive => ⟨_, exec_ready (exec_tret f) h ha, ?_⟩⟩
  obtain ⟨hrel, hu⟩ := tret_settled h hw (f.xm == 1) hfrozen hlive
  have hin := inPlace_issued s (.tret f) is
  have hsame := sameRegs_issued s (.tret f) is
  obtain ⟨hv, hs, hp, hj, hflags⟩ := sameRegs_released hrel
  obtain ⟨hinh, hlog, hwait⟩ := released_mode hrel
  refine ⟨hinh, hlog, hwait, fun n => ?_, fun l _ hlen hwas => ?_, fun n l _ => vcell_congr (hv.trans hsame.v) n l,
    fun n => sreg_congr (hs.trans hsame.s) n, fun n => pred_congr (hp.trans hsame.p) n, hflags.trans hsame.flags, hu.groups, hu.machine, hu.mem⟩
  · rw [hj, ← hin.place.frame]
    rfl
  · have hlane := lane_returned ((issued s (.tret f) is).group is.g) (f.xm == 1) (l := l) (by rw [hin.lanes]; exact hlen)
    have hrun := returnedLane_running (x := (issued s (.tret f) is).group is.g) (f.xm == 1) (l := l) (by rw [hin.place.frame]; exact hwas)
    rw [lane_released hrel (.inl (by rw [hlane]; exact hrun)), hlane, returnedLane_eq, lane_congr hin.lanes, hin.place.frame]
    simp only [beq_iff_eq]

end Sys2Proof.TrapRows
end
